-- ==== Sys2Proof/Word.lean ====
section
/-! DEFINITION. The plain data types that commands and the state are made of: bytes, 64-bit words, sparse tables, and the
records that a command brings from outside the package (a cell on a link, a datagram, a management request, ...). -/
namespace Sys2Proof

abbrev Byte := BitVec 8
abbrev Word := BitVec 64

/-- A general register number of a Moliric sequencer (R91). -/
abbrev Reg := BitVec 5

/-- A sparse table: keys strictly rising, one entry a key. -/
abbrev Tab (α : Type) := List (Nat × α)

/-- The ten storage formats of chapter 03 and INT32, numbered by R107. -/
inductive Fmt where
  | e4m3 | e5m2 | mxfp4 | int8 | int4 | bf16 | fp16 | fp32 | int32 | mxint8 | sq8
  deriving DecidableEq, Repr

/-- The causes of R124. -/
inductive Cause where
  | illegal | misaligned | access | controlSpace | absentUnit | mmaOperand | debugOnly | dmaDescriptor | dmaTag
  | channel | stageLink | almanac | collective | releaseBarred | gnormRule | exchange | recipe | csr | software | fetch
  deriving DecidableEq, Repr

/-- A variant of the package (chapter 00). -/
inductive Variant where
  | trnF24 | trnC18 | trnG24
  deriving DecidableEq, Repr

/-- A cell of R306 as it stands on a link; `payload` holds its 232 B, the GCM tag with them where `enc`. `fecBad`: some FEC codeword
it lies in is uncorrectable (R308); `fecCorr`, `fecUncorr`: codewords that ended with it and were corrected, or not (R325). `via`: the
link it came by, once it has been delivered. -/
structure LkCell where
  ty : Nat := 0
  vc : Bool := false
  enc : Bool := false
  hops : Nat := 32
  seq : Nat := 0
  len : Nat := 0
  cls : Nat := 0
  object : Nat := 0
  offset : Nat := 0
  ack : Nat := 0
  sack : BitVec 32 := 0
  crReq : Nat := 0
  crRsp : Nat := 0
  payload : List Byte := []
  crc : BitVec 32 := 0
  fecBad : Bool := false
  fecCorr : Nat := 0
  fecUncorr : Nat := 0
  via : Nat := 0
  old : Bool := false
  deriving DecidableEq, Repr

/-- A read on the SMBus (R428): the 7-bit address, 0 Read Byte, 1 Read Word, 2 Block Read, and whether it asks for a PEC. -/
structure SmbReq where
  addr : Nat := 0x5B
  kind : Nat := 0
  pec : Bool := false
  deriving DecidableEq, Repr

/-- A LINKCTL message (R316); `frag`: what an IDENT cell carries of a quote or a ciphertext behind it (R381). -/
structure LkMsg where
  msg : Nat := 0
  arg : Nat := 0
  devId : Word := 0
  epoch : BitVec 32 := 0
  link : Nat := 0
  failed : Nat := 0
  finalAck : Nat := 0
  frag : List Byte := []
  deriving DecidableEq, Repr

/-- How traffic of another package's unit came here: the link its cells arrived on and their HOPS (R306, R323). -/
structure Hop where
  link : Nat := 0
  hops : Nat := 32
  deriving DecidableEq, Repr

/-- A UDP datagram at an ingest port (R255), sent to the port's address `dst`: its checksum field, and the four header words as
numbers (network order already undone). -/
structure Dgram where
  fragmented : Bool := false
  checksum : Nat := 0
  v6 : Bool := false
  src : Nat := 0
  dst : Nat := 0
  srcPort : Nat := 0
  dstPort : Nat := 0
  w0 : Word := 0
  w1 : Word := 0
  w2 : Word := 0
  w3 : Word := 0
  payload : List Byte := []
  deriving DecidableEq, Repr

/-- A management request (R408, R409): the IP version, source and destination of its UDP datagram (`tcp` where it is none), the four
header words, the body. The default destination is the link-local address of a package that shows no identity. -/
structure MgmtReq where
  v6 : Bool := true
  tcp : Bool := false
  src : Nat := 0
  srcPort : Nat := 0
  dst : Nat := 0xFE80000000000000000000FFFE000000
  dstPort : Nat := 0x5D21
  w0 : Word := 0
  w1 : Word := 0
  arg0 : Word := 0
  arg1 : Word := 0
  body : List Byte := []
  deriving DecidableEq, Repr

/-- What a sample's headers declare (R259, R261). `declared`: FLAC without a total and Opus declare no length (R261); `jpeg` an
image decoded as JPEG. `d0`, `d1`: height and width, or samples and channels; `channels` and `depth` of the output; `comps` a
JPEG's sampling factors, across and down; `workMem` the working memory needed. -/
structure MediaHdr where
  image : Bool := true
  jpeg : Bool := true
  declared : Bool := true
  d0 : Nat := 0
  d1 : Nat := 0
  channels : Nat := 0
  depth : Nat := 8
  rate : Nat := 0
  comps : List (Nat × Nat) := []
  workMem : Nat := 0
  deriving DecidableEq, Repr

/-- What decoding a sample gives (R259, R260): the decoded values as FP32 patterns, an image's row by row with its channels
innermost, audio's plane by plane (`d0` samples), and the work units spent; `ok` false when the data failed to decode. -/
structure MediaOut where
  ok : Bool := true
  work : Nat := 0
  d0 : Nat := 0
  d1 : Nat := 0
  channels : Nat := 0
  rate : Nat := 0
  values : List (BitVec 32) := []
  deriving DecidableEq, Repr

/-- One operation of a fixed FP32 procedure on the values so far: the sum (0), the difference (1) or the product (2) of two of them, or
of one and the constant `k` (3, 4, 5) (R260). -/
structure FpStep where
  op : Nat := 0
  a : Nat := 0
  b : Nat := 0
  k : BitVec 32 := 0
  deriving DecidableEq, Repr

/-- The result one end of a UCIe module forms in training (R335). -/
structure D2dResult where
  x32 : Bool := false
  repaired : Word := 0
  deriving DecidableEq, Repr

/-- An operation of a guest request (R340). -/
inductive FwOp where
  | read | write | msg
  deriving DecidableEq, Repr

/-- What the control software reads out of a plain job image, whose layout the spec does not give: the tiles it gives code with their
entries, the bytes it places, the severities it asks for (R389), whether it allows filler work and reserves FIL_WIN, and a filler image's
declared task bound (R359). -/
structure JobImage where
  allowsFiller : Bool := false
  filWin : Bool := false
  fillerBound : Nat := 0
  tsev : List (Nat × Nat) := []
  tiles : List (Nat × Nat) := []
  load : List (Nat × Byte) := []
  deriving DecidableEq, Repr, Inhabited

/-- A job envelope of R377 as the root of trust opens it: the plain header fields, whether the tag verifies and the reserved bytes are
zero, and the body fields: `image` the digest named, `memKey` the supplied key. `chunksOk` and `digestOk` are what R379 steps 4 and 5
find of the image. -/
structure Envelope where
  kind : Nat := 0
  devId : Word := 0
  boot : Nat := 0
  leaf : Nat := 0
  part : Nat := 0
  tagOk : Bool := true
  reservedOk : Bool := true
  debug : Bool := false
  memKeySupplied : Bool := false
  memKey : BitVec 512 := 0
  image : BitVec 256 := 0
  tenantData : List Byte := []
  chunksOk : Bool := true
  digestOk : Bool := true
  job : JobImage := {}
  deriving DecidableEq, Repr

end Sys2Proof
end

