-- ==== Sys2Proof/Syntax.lean ====
section
/-! DEFINITION. The commands: one constructor for each row of spec/opcode_table.json, with the operands its rule names.
The table gives no row any bits, so the operands are typed data. `t` is a tile, `gd ga gb gc` register fields (R96),
`h` a handle, `v` a 64-bit register value as written, `i` a place in the list of what is in flight. -/
namespace Sys2Proof

/-- The commands of the block: the steps of the package, each whole and indivisible. -/
inductive Instr where
  /-- R99: ALU instruction FN 0x000 writes ga + gb modulo 2^64 to gd. -/
  | add (t : Nat) (gd ga gb : Reg)
  /-- R99: ALU instruction FN 0x001 writes ga - gb modulo 2^64 to gd. -/
  | sub (t : Nat) (gd ga gb : Reg)
  /-- R99: ALU instruction FN 0x002 writes the bitwise and of ga and gb. -/
  | and (t : Nat) (gd ga gb : Reg)
  /-- R99: ALU instruction FN 0x003 writes the bitwise or of ga and gb. -/
  | or (t : Nat) (gd ga gb : Reg)
  /-- R99: ALU instruction FN 0x004 writes the bitwise exclusive or of ga and gb. -/
  | xor (t : Nat) (gd ga gb : Reg)
  /-- R99: ALU instruction FN 0x005 shifts ga left by gb[5:0]. -/
  | sll (t : Nat) (gd ga gb : Reg)
  /-- R99: ALU instruction FN 0x006 shifts ga right logically by gb[5:0]. -/
  | srl (t : Nat) (gd ga gb : Reg)
  /-- R99: ALU instruction FN 0x007 shifts ga right arithmetically by gb[5:0]. -/
  | sra (t : Nat) (gd ga gb : Reg)
  /-- R99: ALU instruction FN 0x008 writes 1 if ga < gb signed, else 0. -/
  | slt (t : Nat) (gd ga gb : Reg)
  /-- R99: ALU instruction FN 0x009 writes 1 if ga < gb unsigned, else 0. -/
  | sltu (t : Nat) (gd ga gb : Reg)
  /-- R99: ALU instruction FN 0x00A writes the signed minimum of ga and gb. -/
  | min (t : Nat) (gd ga gb : Reg)
  /-- R99: ALU instruction FN 0x00B writes the signed maximum of ga and gb. -/
  | max (t : Nat) (gd ga gb : Reg)
  /-- R99: ALU instruction FN 0x00C writes the unsigned minimum of ga and gb. -/
  | minu (t : Nat) (gd ga gb : Reg)
  /-- R99: ALU instruction FN 0x00D writes the unsigned maximum of ga and gb. -/
  | maxu (t : Nat) (gd ga gb : Reg)
  /-- R99: ALU instruction FN 0x010 writes the low 64 bits of the product. -/
  | mul (t : Nat) (gd ga gb : Reg)
  /-- R99: ALU instruction FN 0x011 writes the high 64 bits of the signed product. -/
  | mulh (t : Nat) (gd ga gb : Reg)
  /-- R99: ALU instruction FN 0x012 writes the high 64 bits of the unsigned product. -/
  | mulhu (t : Nat) (gd ga gb : Reg)
  /-- R100: ALU instruction FN 0x013 writes the signed quotient rounded toward zero, never trapping. -/
  | div (t : Nat) (gd ga gb : Reg)
  /-- R100: ALU instruction FN 0x014 writes the unsigned quotient, all ones on division by zero. -/
  | divu (t : Nat) (gd ga gb : Reg)
  /-- R100: ALU instruction FN 0x015 writes the signed remainder with the sign of ga. -/
  | rem (t : Nat) (gd ga gb : Reg)
  /-- R100: ALU instruction FN 0x016 writes the unsigned remainder, ga on division by zero. -/
  | remu (t : Nat) (gd ga gb : Reg)
  /-- R99: ALU instruction FN 0x018 writes the number of set bits in ga. -/
  | popc (t : Nat) (gd ga : Reg)
  /-- R99: ALU instruction FN 0x019 writes the leading-zero count of ga. -/
  | clz (t : Nat) (gd ga : Reg)
  /-- R99: ALU instruction FN 0x01A writes the trailing-zero count of ga. -/
  | ctz (t : Nat) (gd ga : Reg)
  /-- R101: Adds the sign-extended IMM16 to ga. -/
  | addi (t : Nat) (gd ga : Reg) (imm : BitVec 16)
  /-- R101: Ands ga with the zero-extended IMM16. -/
  | andi (t : Nat) (gd ga : Reg) (imm : BitVec 16)
  /-- R101: Ors ga with the zero-extended IMM16. -/
  | ori (t : Nat) (gd ga : Reg) (imm : BitVec 16)
  /-- R101: Exclusive-ors ga with the zero-extended IMM16. -/
  | xori (t : Nat) (gd ga : Reg) (imm : BitVec 16)
  /-- R101: Writes 1 if ga is below the sign-extended IMM16, signed. -/
  | slti (t : Nat) (gd ga : Reg) (imm : BitVec 16)
  /-- R101: Writes 1 if ga is below the sign-extended IMM16, unsigned. -/
  | sltiu (t : Nat) (gd ga : Reg) (imm : BitVec 16)
  /-- R101: Shifts ga left by IMM16[5:0]. -/
  | slli (t : Nat) (gd ga : Reg) (sh : BitVec 6)
  /-- R101: Shifts ga right logically by IMM16[5:0]. -/
  | srli (t : Nat) (gd ga : Reg) (sh : BitVec 6)
  /-- R101: Shifts ga right arithmetically by IMM16[5:0]. -/
  | srai (t : Nat) (gd ga : Reg) (sh : BitVec 6)
  /-- R101: Sets gd to the sign-extended IMM16. -/
  | li (t : Nat) (gd : Reg) (imm : BitVec 16)
  /-- R101: Sets gd to ga shifted left 16 ored with the zero-extended IMM16. -/
  | shori (t : Nat) (gd ga : Reg) (imm : BitVec 16)
  /-- R102: Branches by 4 x OFF16 when ga equals gb. -/
  | beq (t : Nat) (ga gb : Reg) (off : BitVec 16)
  /-- R102: Branches by 4 x OFF16 when ga differs from gb. -/
  | bne (t : Nat) (ga gb : Reg) (off : BitVec 16)
  /-- R102: Branches when ga < gb signed. -/
  | blt (t : Nat) (ga gb : Reg) (off : BitVec 16)
  /-- R102: Branches when ga >= gb signed. -/
  | bge (t : Nat) (ga gb : Reg) (off : BitVec 16)
  /-- R102: Branches when ga < gb unsigned. -/
  | bltu (t : Nat) (ga gb : Reg) (off : BitVec 16)
  /-- R102: Branches when ga >= gb unsigned. -/
  | bgeu (t : Nat) (ga gb : Reg) (off : BitVec 16)
  /-- R102: Jumps by 4 x OFF26. -/
  | j (t : Nat) (off : BitVec 26)
  /-- R102: Writes pc + 4 to g31 and jumps by 4 x OFF26. -/
  | jal (t : Nat) (off : BitVec 26)
  /-- R102: Writes pc + 4 to gd and jumps to ga, trapping MISALIGNED if ga[1:0] is not zero. -/
  | jr (t : Nat) (gd ga : Reg)
  /-- R97: An instruction word with an undefined or reserved OP, FN, XOP, field or register use traps with ILLEGAL. -/
  | illegalOpcode (t : Nat) (w0 w1 : BitVec 32)
  /-- R103: Loads a sign-extended byte from scratchpad, DRAM through the L1, or another tile's scratchpad. -/
  | ldB (t : Nat) (gd ga : Reg) (imm : BitVec 16)
  /-- R103: Loads a zero-extended byte. -/
  | ldBu (t : Nat) (gd ga : Reg) (imm : BitVec 16)
  /-- R103: Loads a sign-extended halfword, naturally aligned. -/
  | ldH (t : Nat) (gd ga : Reg) (imm : BitVec 16)
  /-- R103: Loads a zero-extended halfword, naturally aligned. -/
  | ldHu (t : Nat) (gd ga : Reg) (imm : BitVec 16)
  /-- R103: Loads a sign-extended word, naturally aligned. -/
  | ldW (t : Nat) (gd ga : Reg) (imm : BitVec 16)
  /-- R103: Loads a zero-extended word, naturally aligned. -/
  | ldWu (t : Nat) (gd ga : Reg) (imm : BitVec 16)
  /-- R103: Loads a doubleword, naturally aligned, waiting for its own L1 miss. -/
  | ldD (t : Nat) (gd ga : Reg) (imm : BitVec 16)
  /-- R103: Stores the low byte of gd, allocating an L1 line without read on a DRAM miss. -/
  | stB (t : Nat) (gd ga : Reg) (imm : BitVec 16)
  /-- R103: Stores the low halfword of gd. -/
  | stH (t : Nat) (gd ga : Reg) (imm : BitVec 16)
  /-- R103: Stores the low word of gd. -/
  | stW (t : Nat) (gd ga : Reg) (imm : BitVec 16)
  /-- R103: Stores the doubleword gd. -/
  | stD (t : Nat) (gd ga : Reg) (imm : BitVec 16)
  /-- R130: A demand or prefetch line fill returns, merging with stored bytes and marking lost halves. -/
  | l1LineFillComplete (t line : Nat)
  /-- R104: Writes back modified L1 lines covering [ga, ga + gb). -/
  | cacheWb (t : Nat) (ga gb : Reg)
  /-- R104: Discards L1 lines covering [ga, ga + gb) without write-back. -/
  | cacheInv (t : Nat) (ga gb : Reg)
  /-- R104: Writes back and discards L1 lines covering [ga, ga + gb). -/
  | cacheWbinv (t : Nat) (ga gb : Reg)
  /-- R105: Waits until every earlier request of each class selected in FN has reached its fence point. -/
  | fence (t : Nat) (fn : BitVec 9)
  /-- R119: Reads a CSR into gd. -/
  | csrRd (t : Nat) (gd : Reg) (num : BitVec 12)
  /-- R119: Writes ga to a CSR, trapping on RO, unlisted or absent-unit CSRs. -/
  | csrWr (t : Nat) (ga : Reg) (num : BitVec 12)
  /-- R119: Reads a CSR into gd and writes ga to it in one step. -/
  | csrSwap (t : Nat) (gd ga : Reg) (num : BitVec 12)
  /-- R119: Reads a CSR into gd and ors ga into it. -/
  | csrSet (t : Nat) (gd ga : Reg) (num : BitVec 12)
  /-- R119: Reads a CSR into gd and clears the bits of ga in it. -/
  | csrClr (t : Nat) (gd ga : Reg) (num : BitVec 12)
  /-- R123: SYS FN 0 traps with SOFTWARE and TRAP_VALUE = ga. -/
  | trap (t : Nat) (ga : Reg)
  /-- R123: Clears IN_HANDLER and returns to TRAP_PC, trapping ILLEGAL outside a handler. -/
  | trapRet (t : Nat)
  /-- R123: Waits as a full FENCE, then ends the tile's part in the job, invalidating the L1 and advancing epochs. -/
  | halt (t : Nat)
  /-- R139: Checks the descriptor and extents, takes a tag and starts or queues a transfer. -/
  | dmaIssue (t : Nat) (gd ga : Reg) (pick : Nat)
  /-- R143: Waits for the tagged transfer to complete, writes its status and frees the tag. -/
  | dmaWait (t : Nat) (gd ga : Reg)
  /-- R143: Returns the status and frees the tag if complete, otherwise all ones. -/
  | dmaPoll (t : Nat) (gd ga : Reg)
  /-- R142: A transfer finishes with every byte at its destination, recording CONV_OVF, LOST and CODE. -/
  | dmaTransferComplete (t tag : Nat) (flips : List Nat)
  /-- R74: Fills slots of the named arrays from scratchpad under the gang mode. -/
  | mmaLoad (t : Nat) (ga gb gc : Reg) (mod : BitVec 32)
  /-- R75: Streams V vectors past a loaded slot, adding into accumulator rows ROW0 + (v mod ROWS). -/
  | mmaStream (t : Nat) (gd ga gb gc : Reg) (mod : BitVec 32)
  /-- R84: Converts, writes and clears accumulator rows and writes the drain status word. -/
  | mmaDrain (t : Nat) (ga gb gc : Reg) (mod : BitVec 32)
  /-- R69: In debug mode writes raw 64-bit accumulator records without converting or clearing. -/
  | mmaDrainDbg (t : Nat) (ga : Reg) (mod : BitVec 32)
  /-- R76: A load finishes filling its slots, releasing streams that wait on it. -/
  | mmaLoadComplete (t i : Nat)
  /-- R76: A stream reads its last vector and finishes its additions, releasing later loads and drains. -/
  | mmaStreamComplete (t i : Nat)
  /-- R84: A drain finishes writing its results and status word, clearing the accumulators and class. -/
  | mmaDrainComplete (t i : Nat)
  /-- R83: An array with nothing queued for 256 hs gates its supply. -/
  | arrayGate (t a : Nat)
  /-- R160: Checks a recipe descriptor at issue and queues the run. -/
  | vecRun (t : Nat) (ga gb : Reg)
  /-- R161: A recipe run finishes, writing its outputs and status word, and the next run begins. -/
  | vecRunComplete (t : Nat)
  /-- R118: Fills gb bytes at ga from the tile's Orrery stream. -/
  | rngGen (t : Nat) (ga gb : Reg)
  /-- R118: Writes the next 64 Orrery bits to gd. -/
  | rngGenR (t : Nat) (gd : Reg)
  /-- R113: Takes an outbound slot and sends a 64 B message to the named queue. -/
  | chSend (t : Nat) (ga gb : Reg)
  /-- R168: Waits for a message on a queue, copies it out, removes it and writes the sender. -/
  | chRecv (t : Nat) (gd ga gb : Reg)
  /-- R168: Receives a message if the queue holds one, else writes all ones. -/
  | chTry (t : Nat) (gd ga gb : Reg)
  /-- R113: Waits until a masked queue holds a message and writes the lowest such index. -/
  | chSelectP (t : Nat) (gd ga : Reg)
  /-- R113: As CH.SELECT.P but searching round-robin from the queue after the last chosen. -/
  | chSelectR (t : Nat) (gd ga : Reg)
  /-- R173: A message reaching an endpoint is accepted, refused when full, or discarded on epoch mismatch. -/
  | chMessageArrival (i : Nat)
  /-- R169: An acceptance returning to the sender frees its outbound slot. -/
  | chAcceptance (i : Nat)
  /-- R173: A discard notice frees the sender's slot and counts in CH_OUT_DISC. -/
  | chDiscardNotice (i : Nat)
  /-- R169: The retry interval of a refused message expires and the message is offered again. -/
  | chRetry (i : Nat)
  /-- R177: A stall episode reaches LIMIT, setting FIRED and reporting CH_WATCHDOG once. -/
  | chWatchdogFire (t q : Nat)
  /-- R184: Checks the header, waits for a credit and sends the entry to the credited ring entry. -/
  | sqPush (t : Nat) (ga gb : Reg)
  /-- R186: Waits for the oldest visible entry and copies its header. -/
  | sqPop (t : Nat) (gd ga gb : Reg)
  /-- R188: Releases a popped entry, returning its credit. -/
  | sqRel (t : Nat) (ga gb : Reg)
  /-- R191: A stage header arrives and is held, or discarded on a closed end, stale epoch or mismatch. -/
  | slHeaderArrival (i : Nat)
  /-- R193: Payload bytes of an entry land in the ring, setting cut-through valid marks. -/
  | slDataArrival (i n : Nat)
  /-- R185: A returned credit joins the send end's list or is dropped on closed end or epoch mismatch. -/
  | slCreditArrival (i : Nat)
  /-- R307: Pending stage-link credit returns are sent in an SLCREDIT cell at 29 returns or after 200 ns. -/
  | slCreditFlush (l : Nat)
  /-- R181: A write of SL_CFG.OPEN = 1 checks the handle and opens or reopens it, setting credits and clearing counts. -/
  | slOpen (h : Nat) (v : Word)
  /-- R180: A write of SL_CFG.OPEN = 0 closes the handle, discarding held entries or dropping credits. -/
  | slClose (h : Nat) (v : Word)
  /-- R198: Writes the group's current version to gd. -/
  | alGet (t : Nat) (gd ga : Reg)
  /-- R198: Writes the current version and raises its count in one Almanac operation. -/
  | alGetP (t : Nat) (gd ga : Reg)
  /-- R198: Raises a held version's reference count. -/
  | alPin (t : Nat) (ga gb : Reg)
  /-- R198: Lowers a version's reference count. -/
  | alUnpin (t : Nat) (ga gb : Reg)
  /-- R199: Commits the staging buffer as the new current version, then waits for a free staging buffer. -/
  | alCommit (t : Nat) (gd ga : Reg)
  /-- R196: A write of AL_GCFG with VALID = 1 checks and sets up the group, or changes MIRROR only. -/
  | alGroupValidate (g : Nat) (v : Word)
  /-- R437: A write of AL_GCFG with VALID = 0 ends the group, discarding applies and releasing waiting commits. -/
  | alGroupEnd (g : Nat) (v : Word)
  /-- R200: An MSA's report of a written block advances WRITTEN and commits the group at NBLK. -/
  | almanacBlockReport (i : Nat)
  /-- R204: At the mirror, the last block of a version copy arrives and the copy is committed and acknowledged. -/
  | mirrorCopyArrival (g ver : Nat)
  /-- R204: A mirror acknowledgement sets MIRRORED and starts the next version copy. -/
  | mirrorAck (g ver : Nat)
  /-- R207: A waiting tile with an idle unit set and a ring record starts a filler task in its second context. -/
  | fillerTaskStart (t : Nat)
  /-- R210: A filler task reaches its bound, is ended and reports FILLER_OVERRUN. -/
  | fillerBoundExpiry (t : Nat)
  /-- R211: A FIL_CTL write with EN = 1 starts or joins a shared filler ring, ignored on LOG2N mismatch. -/
  | filCtlWrite (t : Nat) (v : Word)
  /-- R220: Sends a member's contribution for a round as RACC writes after grants. -/
  | rxContrib (t : Nat) (gd ga gb gc : Reg)
  /-- R225: Completes the named round at every home for the members not wholly added. -/
  | rxRelease (t : Nat) (ga gb : Reg)
  /-- R228: Waits until the round has completed and writes its completion word. -/
  | rxWait (t : Nat) (gd ga gb : Reg)
  /-- R232: Checks the optimizer descriptor and has the homes apply the optimizer after completion. -/
  | rxApply (t : Nat) (ga gb gc : Reg)
  /-- R240: Contributes as RX.CONTRIB and marks the round for the Sextan global norm, barring releases. -/
  | rxGnorm (t : Nat) (gd ga gb gc : Reg)
  /-- R222: A home receives a grant request and grants in turn, into a staging slot, or holds it until a slot frees. -/
  | rxGrantRequest (h shard member step : Nat)
  /-- R220: A grant reaches the Hob's RX agent, which reads the source once and sends RACC writes. -/
  | rxGrant (h shard member step : Nat)
  /-- R222: A 256 B RACC write is added, staged, deferred, discarded as duplicate or late. -/
  | raccWriteArrival (h shard member step pos : Nat)
  /-- R200: An accepted apply starts once its collective has completed and the staging buffer is free. -/
  | msaApplyStart (h : Nat)
  /-- R236: A home finishes writing a shard's working weights and reports the block to the Almanac. -/
  | msaApplyBlockDone (h shard : Nat)
  /-- R241: After all P0 rounds of the step complete, the norm is formed and the record written at each RX_RESULT. -/
  | gnormForm (step : Nat) (norm2 : BitVec 32)
  /-- R217: A write of RX_CFG with VALID = 1 checks the shard table and registers the collective. -/
  | rxCollectiveValidate (h : Nat) (v : Word)
  /-- R217: A write of RX_CFG with VALID = 0 discards every sum, staged, deferred and waiting contribution. -/
  | rxCollectiveDiscard (h : Nat) (v : Word)
  /-- R246: Reads records and routes, drops or keeps each, opening a round or returning records. -/
  | exDispatch (t : Nat) (ga gb gc : Reg)
  /-- R250: Pairs with the oldest uncombined dispatch and writes kept and returned records at their INDEX. -/
  | exCombine (t : Nat) (ga gb gc : Reg)
  /-- R247: A sent record lands in its expert's half up to CAP or is dropped with a notice. -/
  | exchRecordArrival (h i : Nat) (far : Bool)
  /-- R247: A drop notice at the origin engine gives the record STATUS DROP_CAP. -/
  | exchDropNotice (h srcTile round index engine : Nat)
  /-- R248: An end mark arrives; on the last, the round completes, the summary is written and the expert notified. -/
  | exchEndMark (h engine round dest : Nat)
  /-- R249: A return arrives at the origin engine and is matched or discarded as orphan. -/
  | exchReturnArrival (h i : Nat) (far : Bool)
  /-- R242: A write of EX_CFG with VALID = 1 clears counts and rounds and checks the tables. -/
  | exHandleValidate (h : Nat) (v : Word)
  /-- R242: A write of EX_CFG with VALID = 0 discards every record, return and combine of the handle. -/
  | exHandleDiscard (h : Nat) (v : Word)
  /-- R257: A DATA datagram is checked, admitted against ALLOW and reassembled into its sample. -/
  | data (port : Nat) (d : Dgram)
  /-- R256: A PROBE datagram sets the stream's CREDIT destination and is answered at once with a CREDIT. -/
  | probe (port : Nat) (d : Dgram)
  /-- R256: Every 100 µs an enabled stream's port sends a CREDIT. -/
  | ingCreditTimer (st : Nat)
  /-- R255: The ingest port answers ARP and IPv6 neighbour solicitation for its own addresses. -/
  | ingAddressResolution (port : Nat) (v6 : Bool) (addr : Nat)
  /-- R257: A sample not complete REASM_US after its first datagram closes INCOMPLETE. -/
  | reasmTimeout (st index : Nat)
  /-- R261: A decoder parses headers and applies the size, ratio and pool checks before allocating. -/
  | decodeStart (st index : Nat)
  /-- R262: A sample reaching its work budget moves to the slow decoder and restarts. -/
  | slowDecoderMove (st index : Nat)
  /-- R263: A sample reaching HARD_LIMIT is stopped and closed DROP_LIMIT. -/
  | dropLimit (st index : Nat)
  /-- R264: A decoded, tokenized and augmented sample, or a closed one, produces its slot or ring entry. -/
  | sampleComplete (st index : Nat)
  /-- R271: A sample reaching MIX meets its waiting partner and both continue mixed. -/
  | mixPartnerArrival (st index : Nat)
  /-- R276: A write of PANTRY_CFG.EN = 1 checks the slot and pool areas and enables the Pantry. -/
  | pantryEnable (v : Word)
  /-- R276: A write of PANTRY_CFG.EN = 0 frees every slot and stops waiting transfers with code 0x3. -/
  | pantryDisable (v : Word)
  /-- R258: A write of ING_SCFG.EN = 1 checks the stream entry and sets ALLOW. -/
  | ingStreamEnable (st : Nat) (v : Word)
  /-- R258: A write of ING_SCFG.EN = 0 discards samples in reassembly or decoding. -/
  | ingStreamDisable (st : Nat) (v : Word)
  /-- R279: Every 100 µs the port reads CONSUMED and sets ALLOW to CONSUMED + DEPTH. -/
  | rawConsumedPoll (st : Nat)
  /-- R265: A write of TOK_CFG.LOAD = 1 starts checking records and building the dictionary. -/
  | tokDictLoad (v : Word)
  /-- R265: The dictionary load finishes, setting LOADED or ERR and ERR_ENTRY, releasing waiting text samples. -/
  | tokDictLoadComplete
  /-- R291: A controller serves a read, checking ownership, correcting or delivering lost. -/
  | dramRead (req addr len errs : Nat)
  /-- R287: A controller serves a write, merging partial codewords and poisoning uncorrectable ones. -/
  | dramWrite (req addr : Nat) (bytes : List Byte)
  /-- R297: The 2^30 ns correction window of a channel ends and its count restarts. -/
  | ceWindowRoll (m c : Nat)
  /-- R293: Every SCRUB_HOURS the controller reads every codeword and writes back corrected ones. -/
  | scrubPass (m : Nat) (found : List (Nat × Nat))
  /-- R294: Every 32 µs the stack reads its hottest sensor and raises its refresh tier if above an entry level. -/
  | refreshTierSample (m temp : Nat)
  /-- R294: A sensor below the leave level for 10 ms lowers the refresh tier. -/
  | refreshTierDown (m : Nat)
  /-- R297: A channel's periodic retraining runs, and failure puts it in FAILED. -/
  | channelPeriodicRetrain (m c : Nat) (ok : Bool)
  /-- R297: A channel that stops answering enters FAILED and requests its own map-out. -/
  | channelFailed (m c : Nat)
  /-- R298: A write of MEM_MAPOUT queues channels for map-out in MEM_PEND. -/
  | memMapoutWrite (m : Nat) (v : Word)
  /-- R298: A remap ends with the new interleave, MAPOUT_DONE set, or the stack DOWN below 8 channels. -/
  | remapComplete (m : Nat)
  /-- R285: A write of MEM_OWN completes once accepted accesses to changed frames complete, or is ignored with OWN_ERR. -/
  | memOwnWrite (m w : Nat) (v : Word)
  /-- R304: A write of LK_CFG.EN = 1 starts training at DETECT. -/
  | lkEnable (l : Nat) (v : Word)
  /-- R318: A write of LK_CFG.EN = 0 ends the link state and takes the link DOWN. -/
  | lkDisable (l : Nat) (v : Word) (epoch : BitVec 32)
  /-- R315: A write of LK_CTL.RETRAIN = 1 requests a retrain. -/
  | lkCtlRetrain (l : Nat)
  /-- R318: A write of LK_CTL.RESET = 1 ends the link state and retrains from DETECT. -/
  | lkCtlReset (l : Nat) (epoch : BitVec 32)
  /-- R304: Every 100 ms in DETECT the link sends training frames again. -/
  | lkDetectRepeat (l : Nat)
  /-- R304: The peer's training frames arrive and the link enters EQ. -/
  | lkPeerDetected (l : Nat)
  /-- R305: Equalisation completes, cold or warm, and the link enters LANE. -/
  | lkEqDone (l : Nat) (storedOk : Bool)
  /-- R303: Lane tests complete, the spare and width are chosen or training fails, and the link enters ALIGN. -/
  | lkLaneDone (l : Nat) (txGood rxGood : BitVec 9)
  /-- R304: FEC lock and lane alignment complete and the link enters IDENT. -/
  | lkAlignDone (l : Nat)
  /-- R304: A training state times out and the link returns to DOWN for a new attempt. -/
  | lkTrainTimeout (l : Nat)
  /-- R315: A retrain completes and the link returns to ACTIVE with its sequence state kept. -/
  | lkRetrainDone (l : Nat) (txGood rxGood : BitVec 9)
  /-- R318: An IDENT message exchanges identity, epoch and key agreement, resuming or starting a link state. -/
  | ident (l : Nat) (c : LkCell) (trusted : Bool)
  /-- R317: A RETRAIN_REQ message from the peer is led, absorbed or joined into a retrain. -/
  | retrainReq (l : Nat) (c : LkCell)
  /-- R317: A RETRAIN_GO answer from the leader starts the retrain. -/
  | retrainGo (l : Nat) (c : LkCell)
  /-- R320: On the partner, the peer stops the failed link's cells, discards those above ACK and answers REROUTE_STATE. -/
  | rerouteReq (l : Nat) (c : LkCell)
  /-- R320: The sender frees places below FINAL_ACK and hands the failed link's cells to the partner. -/
  | rerouteState (l : Nat) (c : LkCell)
  /-- R321: A RETURN message announces that a rerouted link is back, and flows move back once acknowledged. -/
  | linkReturn (l : Nat) (c : LkCell)
  /-- R316: An unanswered LINKCTL message is repeated every 1 µs. -/
  | lkLinkctlRepeat (l : Nat)
  /-- R317: A RETRAIN_REQ unanswered for 1 ms is carried out alone. -/
  | lkRetrainReqTimeout (l : Nat)
  /-- R309: Each cell slot sends the first ready of retransmission, LINKCTL, urgent ACK, RSP, REQ or idle ACK. -/
  | lkCellSlot (l : Nat)
  /-- R310: An intact DATA or TEST cell is accepted, held, delivered in order, forwarded or counted duplicate. -/
  | lkDataCellRx (l : Nat) (c : LkCell)
  /-- R312: The peer's ACK and SACK free replay places and trigger SACK retransmissions. -/
  | lkAckCellRx (l : Nat) (c : LkCell)
  /-- R311: With nothing else sent for 200 ns, the receiver sends an ACK cell. -/
  | lkIdleAckTimer (l : Nat)
  /-- R313: The 4 µs timer fires and the oldest unacknowledged cell is retransmitted, DOWN after eight. -/
  | lkRetxTimeout (l : Nat)
  /-- R313: Loss of FEC lock for 10 µs takes the link DOWN. -/
  | lkFecLockLoss (l : Nat)
  /-- R315: Damaged cells in a 1 ms window exceed DMG_LIMIT and a retrain starts. -/
  | lkDamageLimit (l : Nat)
  /-- R315: A lane's corrected FEC symbols exceed the threshold and a retrain starts. -/
  | lkLaneFecLimit (l lane : Nat)
  /-- R324: More than 16 tag failures in 1 ms take the link DOWN and report LINK_AUTH. -/
  | lkAuthLimit (l : Nat)
  /-- R327: A write of LK_REF_CTL.START = 1 restarts the generator, script and capture counts. -/
  | lkRefStart (l : Nat) (v : Word)
  /-- R328: The ARG ns of an ACK_HOLD script action expire and current ACKs are sent again. -/
  | lkRefAckHoldEnd (l : Nat)
  /-- R335: A module's read-backs are compared and its width committed, or retrained, or taken down at the third disagreement. -/
  | d2dTrainResult (d m : Nat) (own peer ownBack peerBack : D2dResult)
  /-- R338: A write of D2D_CTL.RETRAIN = 1 retrains the module keeping retry state. -/
  | d2dCtlRetrain (d m : Nat)
  /-- R338: More than 64 CRC errors in 1 ms retrain the module. -/
  | d2dCrcLimit (d m : Nat)
  /-- R337: A write of DIE_CTL.RESET_GUEST = 1 resets the guest die, discarding its requests. -/
  | resetGuest (lost : Nat)
  /-- R337: A write of DIE_CTL.RESET_MDL = 1 resets Mandoline, or is refused while it may hold samples. -/
  | resetMdl
  /-- R34: Both sides of a reset crossing queue hold each other's answers and traffic resumes with full credits. -/
  | crossingResyncDone (q : Nat)
  /-- R340: A guest request is admitted through a firewall window or dropped and recorded. -/
  | fwGuestRequest (op : FwOp) (addr len : Nat) (bytes : List Byte)
  /-- R342: A firewall window write completes after every request admitted under it has completed. -/
  | fwWinWrite (n w : Nat) (v : Word)
  /-- R346: A write of REP_RETIRE retires a tile from placement and adds it to the signed repair copy. -/
  | repRetireWrite (v : Word)
  /-- R348: The test port loads BYPASS. -/
  | bypass
  /-- R348: The test port loads IDCODE and shifts each die's identity. -/
  | idcode
  /-- R348: SAMPLE/PRELOAD is accepted only while RESET_N is low, otherwise loads as BYPASS. -/
  | samplePreload
  /-- R348: EXTEST is accepted only while RESET_N is low, otherwise loads as BYPASS. -/
  | extest
  /-- R348: CLAMP is accepted only while RESET_N is low, otherwise loads as BYPASS. -/
  | clamp
  /-- R348: HIGHZ is accepted only while RESET_N is low, otherwise loads as BYPASS. -/
  | highz
  /-- R348: A verified Suelm-signed unlock erases every key, sets UNLOCKED and enables wrapper test. -/
  | testUnlock (sigOk : Bool)
  /-- R349: A write of PART_CFG.VALID = 1 checks the tile groups and makes or redraws the partition. -/
  | partValidate (p : Nat) (v : Word)
  /-- R350: A write of PART_CFG.VALID = 0 in IDLE erases the key slots and makes the partition EMPTY, else sets REFUSED. -/
  | partInvalidate (p : Nat) (v : Word)
  /-- R351: The image is loaded and verified, TENANT_DATA written, and the tiles start; the partition enters RUNNING. -/
  | placingComplete (p : Nat)
  /-- R351: Every accepted request of an ending partition has completed and it returns to IDLE. -/
  | endingComplete (p : Nat)
  /-- R351: Every discard of a fenced partition has completed and it returns to IDLE. -/
  | fenceComplete (p : Nat)
  /-- R356: A regulator credits its rate in tokens and admits waiting requests in arrival order. -/
  | regTokenCredit (mer p i ns : Nat)
  /-- R357: A REG_CFG write sets the rate, clamps the tokens, or with EN = 0 admits every waiting request. -/
  | regCfgWrite (mer p i : Nat) (v : Word)
  /-- R388: A report reaches the collector, is stored or coalesced, and its severity applied. -/
  | faultReport (i : Nat)
  /-- R385: A dual-rail word reaches the concentrator and is forwarded, or an invalid pair breaks the line. -/
  | fcLineWord (die line : Nat) (rails : List (Bool × Bool)) (i : Nat)
  /-- R385: A word incomplete for 10 µs declares the line broken. -/
  | fcLineWordTimeout (die line : Nat)
  /-- R385: A line sending no word for 3 ms is declared broken. -/
  | fcLineSilence (die line : Nat)
  /-- R385: Each reporting line sends a test word every 1 ms. -/
  | fcLineTestWord (die line : Nat)
  /-- R386: An idle concentrator sends a heartbeat every 100 µs. -/
  | fcHeartbeat (die : Nat)
  /-- R386: No heartbeat for 1 ms raises PATH_BROKEN and may fence the die. -/
  | fcPathTimeout (die : Nat)
  /-- R395: A write of FC_CLEAR.RECORD clears one record, or is refused for an active condition or S4. -/
  | fcClearRecord (r : Nat)
  /-- R395: A write of FC_CLEAR.ALL = 1 clears every clearable record. -/
  | fcClearAll
  /-- R396: The collector refreshes the ERR_N driver at least every 100 µs from its records. -/
  | errnRefresh
  /-- R24: Every 1 µs the die governor measures pace and steps its supply toward the lowest of three limits. -/
  | paceLoopPass (die : Nat) (gray : BitVec 16) (tjs : List Nat) (powerW : Nat)
  /-- R28: A replica counter stalled for 16 passes fixes the die at 0.70 V and reports. -/
  | replicaFail (die : Nat)
  /-- R27: Every 100 µs the two governor halves exchange power and re-divide the cap. -/
  | pkgPowerRedivision (powers : List (Nat × Nat)) (avg : Nat)
  /-- R27: The 5 ms excursion allowance is used and every die is held to its share. -/
  | excursionExhausted
  /-- R27: The 100 ms window ends and the excursion allowance is restored. -/
  | excursionWindowEnd
  /-- R400: PWR_EN rising brings up the intermediate and die rails. -/
  | pwrEnRise
  /-- R400: Every rail reaches regulation and PWR_OK rises. -/
  | railsInRegulation
  /-- R400: RESET_N rising after PWR_OK has been high 1 ms starts the boot ROM. -/
  | resetNRise (epochs : List (Nat × Nat))
  /-- R401: RESET_N falling power-cycles every die and stack and holds them in reset. -/
  | resetNFall
  /-- R402: PWR_EN falling completes eMMC writes, stops links and removes power. -/
  | pwrEnFall
  /-- R399: Input below 42 V or above 58 V removes power from every die at once. -/
  | inputOutOfRange (mv : Nat)
  /-- R430: A die junction reaching 115 °C removes power from the whole package. -/
  | thermalTrip (die : Nat)
  /-- R431: A substrate converter at 125 °C removes the input. -/
  | converterOvertemp
  /-- R371: The boot ROM reconstructs the PUF secret, verifies ROT and starts it. -/
  | bootRomDone (reading : List Byte)
  /-- R366: The ROT firmware draws a level-0 leaf, builds the level-1 tree, signs the identity quote and verifies DIE. -/
  | rotStageDone (rpmbOk : Bool)
  /-- R300: Memory channel training completes, mapping out failed channels. -/
  | memTrainingDone (failed unverified : List (Nat × Nat))
  /-- R345: The tile self-test completes and is reconciled with the signed repair copy. -/
  | selfTestDone (found : List (Nat × Nat))
  /-- R371: The OS image is read and verified and the OS starts booting. -/
  | osImageVerified
  /-- R406: The OS is running and the repair map reconciled, and the package accepts work. -/
  | ready
  /-- R408: The management port answers ARP, neighbour solicitation and ICMP echo. -/
  | mgmtAddressResolution (kind addr : Nat)
  /-- R412: Management operation 0x01 returns the 64 B status body. -/
  | status (req : MgmtReq)
  /-- R413: Returns a long operation's completion record, or NOT_READY. -/
  | resultRead (req : MgmtReq)
  /-- R413: Acknowledges a completion record, freeing it, its slot and output blob. -/
  | resultAck (req : MgmtReq)
  /-- R411: Opens a blob buffer of the given size. -/
  | blobOpen (req : MgmtReq)
  /-- R415: Writes data into a blob, BUSY while it is held. -/
  | blobWrite (req : MgmtReq)
  /-- R411: Returns data from a blob. -/
  | blobRead (req : MgmtReq)
  /-- R415: Frees a blob, deferred until its last hold is released. -/
  | blobFree (req : MgmtReq)
  /-- R378: Opens a job or filler envelope and places the job in the partition. -/
  | jobStart (req : MgmtReq)
  /-- R353: Stops a partition's job as HALT ends its tiles. -/
  | jobStop (req : MgmtReq)
  /-- R353: Fences a partition, discarding its work in flight. -/
  | jobFence (req : MgmtReq)
  /-- R349: Has the control software write a partition's tile groups and VALID. -/
  | partSet (req : MgmtReq)
  /-- R298: Has the control software map out channels of a stack, completing at MAPOUT_DONE. -/
  | mapout (req : MgmtReq)
  /-- R346: Has the control software retire a tile. -/
  | retire (req : MgmtReq)
  /-- R375: Signs a challenge quote for a nonce and partition with its own leaf. -/
  | quote (req : MgmtReq)
  /-- R26: Writes PKG_POWER_CAP, clamped. -/
  | powerCap (req : MgmtReq)
  /-- R411: Returns fault records. -/
  | recordsRead (req : MgmtReq)
  /-- R395: Writes FC_CLEAR to clear one or all records. -/
  | recordsClear (req : MgmtReq)
  /-- R371: Verifies a firmware image and writes it over the copy that is not running. -/
  | fwUpload (req : MgmtReq)
  /-- R373: Raises a component's minimum SVN to the running copy's SVN. -/
  | svnCommit (req : MgmtReq)
  /-- R411: Stores the management port's IPv4 and IPv6 settings. -/
  | netSet (req : MgmtReq)
  /-- R416: In RECOVERY writes data into a failed component copy in the eMMC. -/
  | recoverWrite (req : MgmtReq)
  /-- R416: In RECOVERY reads back and verifies a written copy. -/
  | recoverCommit (req : MgmtReq)
  /-- R411: Fences every partition, completes eMMC writes and removes power from every die. -/
  | powerOff (req : MgmtReq)
  /-- R428: SMBus command 0x01 returns the hottest die junction. -/
  | smbJunctionMax (q : SmbReq)
  /-- R428: SMBus command 0x02 returns the hottest stack sensor. -/
  | smbStackMax (q : SmbReq)
  /-- R428: SMBus command 0x03 returns package input power. -/
  | smbPower (q : SmbReq)
  /-- R428: SMBus command 0x04 returns input voltage. -/
  | smbVoltage (q : SmbReq)
  /-- R428: SMBus command 0x05 returns the ready, error, stop, limit and tier flags. -/
  | smbFlags (q : SmbReq)
  /-- R428: SMBus command 0x10 + d returns die d's junction. -/
  | smbDieJunction (q : SmbReq) (d : Nat)
  /-- R428: SMBus command 0x20 + m returns stack Mm's sensor. -/
  | smbStackSensor (q : SmbReq) (m : Nat)
  /-- R428: An SMBus write beyond the command byte, or an unlisted command, is NACKed with no effect. -/
  | smbWriteNack (q : SmbReq) (cmd : Nat) (bytes : List Byte)
  /-- R10: A control-software write to a register without its own row stores its fields, clamped or kept as its rule says. -/
  | registerWrite (die off : Nat) (v : Word)
  /-- R398: The 52 V input rises past the 45 V turn-on threshold, and PWR_OK is driven again so that the package can power up. -/
  | inputAboveTurnOn (mv : Nat)
  /-- R317: A link end that loses alignment because its peer entered RETRAIN alone follows it into RETRAIN. -/
  | lossOfAlignment (l : Nat)
  /-- R410: A long management operation such as QUOTE, FW_UPLOAD, SVN_COMMIT, NET_SET, RETIRE or RECOVER_COMMIT finishes its work and its completion record becomes readable. -/
  | longOperationComplete (cmdId : Nat) (rpmbOk : Bool)
  /-- R174: The control software resets a tile, which advances all 16 of its channel epochs and discards its queued messages. -/
  | tileReset (t : Nat)
  deriving DecidableEq, Repr

end Sys2Proof
end

