-- ==== Sys2Proof/Decode.lean ====
section
/-! DEFINITION. The table gives no command any bits, so no word spells a command. A tile's own instruction WORDS do have an
encoding (R96 to R98); what a model of commands needs of it is which words are illegal. -/
namespace Sys2Proof

/-- The command a word spells by the table's bits: none, since no row of the table has bits (assumption log 22). -/
def decodeTableWord (_nbits _w : Nat) : Option Instr := none

/-- Bits [hi:lo] of an instruction word. -/
def wordFld (w : BitVec 32) (hi lo : Nat) : Nat := (w.toNat / 2 ^ lo) % 2 ^ (hi - lo + 1)

/-- Whether all of a list of register fields name g0 (R97). -/
def allZero (l : List Nat) : Bool := l.all (· == 0)

/-- The FN codes of the ALU instructions (R99). -/
def aluFn (fn : Nat) : Bool := decide (fn ≤ 0xD) || (decide (0x10 ≤ fn) && decide (fn ≤ 0x16)) || aluUnary fn
where
  aluUnary (fn : Nat) : Bool := decide (0x18 ≤ fn) && decide (fn ≤ 0x1A)

/-- Whether MOD32 and gc of an MMA instruction are illegal (R97, R107, R108, R110). `gd` and `gb` are checked for the
fields a mnemonic does not use. -/
def mmaIllegal (xop gd gb gc : Nat) (m : BitVec 32) : Bool :=
  if wordFld m 31 30 == 3 then true
  else match xop with
    | 0 => gd != 0 || wordFld m 12 0 != 0 || decide (wordFld m 16 13 ≥ 0xB) || (wordFld m 16 13 != 2 && gc != 0)
    | 1 => wordFld m 4 0 != 0 || decide (wordFld m 21 18 ≥ 0xB) || (wordFld m 21 18 != 2 && gc != 0)
    | 2 =>
      let f := wordFld m 25 22
      gd != 0 || wordFld m 4 0 != 0 || wordFld m 18 18 != 0 || wordFld m 21 20 == 3 || decide (f ≥ 0xB)
        || (f == 8 && wordFld m 21 19 != 0) || ((f == 5 || f == 6 || f == 7) && wordFld m 19 19 != 0)
    | 3 => gd != 0 || gb != 0 || gc != 0 || wordFld m 25 0 != 0
    | _ => true

/-- Whether a 32-bit instruction word of format A is illegal, by OP and FN, with register fields (R97, R98). -/
def formatAIllegal (op fn gd ga gb : Nat) : Bool :=
  match op with
  | 0x01 => !aluFn fn || (aluFn.aluUnary fn && gb != 0)
  | 0x18 => fn != 0 || gb != 0
  | 0x25 => decide (fn > 2) || gd != 0
  | 0x26 => decide (fn ≥ 0x200) || !allZero [gd, ga, gb]
  | 0x28 => decide (fn > 4) || (fn == 0 && gd != 0) || (decide (fn ≥ 3) && gb != 0)
  | 0x29 => decide (fn > 2) || (fn != 1 && gd != 0)
  | 0x2A => decide (fn > 4) || ((fn == 2 || fn == 3) && gd != 0) || (fn != 2 && fn != 3 && gb != 0)
  | 0x2B => decide (fn > 2) || gb != 0
  | 0x2C => decide (fn > 1) || (fn == 0 && gd != 0) || (fn == 1 && !allZero [ga, gb])
  | 0x2D => decide (fn > 2) || !allZero [gd, gb] || (fn != 0 && ga != 0)
  | _ => true

/-- Whether the instruction whose words are `w0` and, for a 64-bit one, `w1` traps with ILLEGAL by its words (R97). -/
def illegalWords (w0 w1 : BitVec 32) : Bool :=
  let op := wordFld w0 5 0
  let gd := wordFld w0 10 6
  let ga := wordFld w0 15 11
  let gb := wordFld w0 20 16
  let gc := wordFld w0 25 21
  let fn := wordFld w0 31 21
  let imm := wordFld w0 31 16
  let xop := wordFld w0 31 26
  if 0x08 ≤ op && op ≤ 0x0A then decide (imm ≥ 64)
  else if op == 0x0B then ga != 0
  else if 0x02 ≤ op && op ≤ 0x0C then false
  else if 0x10 ≤ op && op ≤ 0x17 then false
  else if 0x1A ≤ op && op ≤ 0x24 then false
  else if op == 0x27 then decide (imm / 4096 > 4) || (imm / 4096 == 0 && ga != 0) || (imm / 4096 == 1 && gd != 0)
  else if op == 0x30 then mmaIllegal xop gd gb gc w1
  else if op == 0x31 then xop != 0 || !allZero [gd, gc] || w1 != 0
  else if op == 0x32 then
    decide (xop > 4) || w1 != 0 || (xop == 1 && !allZero [gd, gc]) || (xop == 2 && gc != 0) || (xop == 3 && gd != 0)
  else if op == 0x33 then decide (xop > 1) || w1 != 0 || gd != 0
  else if op ≥ 0x30 then true
  else formatAIllegal op fn gd ga gb

/-- The length in bytes of the instruction that begins with a word (R96). -/
def wordLen (w0 : BitVec 32) : Nat := if wordFld w0 5 0 ≥ 0x30 then 8 else 4

/-! The instruction that a legal word encodes (R96, R98), as the command a tile `t` runs it by. -/

/-- Format A, by OP and FN (R99, R102, R104 to R106, R113 to R115, R118, R123). -/
def decodeA (t op fn : Nat) (gd ga gb : Reg) : Option Instr :=
  match op, fn with
  | 0x01, 0x000 => some (.add t gd ga gb)
  | 0x01, 0x001 => some (.sub t gd ga gb)
  | 0x01, 0x002 => some (.and t gd ga gb)
  | 0x01, 0x003 => some (.or t gd ga gb)
  | 0x01, 0x004 => some (.xor t gd ga gb)
  | 0x01, 0x005 => some (.sll t gd ga gb)
  | 0x01, 0x006 => some (.srl t gd ga gb)
  | 0x01, 0x007 => some (.sra t gd ga gb)
  | 0x01, 0x008 => some (.slt t gd ga gb)
  | 0x01, 0x009 => some (.sltu t gd ga gb)
  | 0x01, 0x00A => some (.min t gd ga gb)
  | 0x01, 0x00B => some (.max t gd ga gb)
  | 0x01, 0x00C => some (.minu t gd ga gb)
  | 0x01, 0x00D => some (.maxu t gd ga gb)
  | 0x01, 0x010 => some (.mul t gd ga gb)
  | 0x01, 0x011 => some (.mulh t gd ga gb)
  | 0x01, 0x012 => some (.mulhu t gd ga gb)
  | 0x01, 0x013 => some (.div t gd ga gb)
  | 0x01, 0x014 => some (.divu t gd ga gb)
  | 0x01, 0x015 => some (.rem t gd ga gb)
  | 0x01, 0x016 => some (.remu t gd ga gb)
  | 0x01, 0x018 => some (.popc t gd ga)
  | 0x01, 0x019 => some (.clz t gd ga)
  | 0x01, 0x01A => some (.ctz t gd ga)
  | 0x18, 0 => some (.jr t gd ga)
  | 0x25, 0 => some (.cacheWb t ga gb)
  | 0x25, 1 => some (.cacheInv t ga gb)
  | 0x25, 2 => some (.cacheWbinv t ga gb)
  | 0x26, _ => some (.fence t (BitVec.ofNat 9 fn))
  | 0x28, 0 => some (.chSend t ga gb)
  | 0x28, 1 => some (.chRecv t gd ga gb)
  | 0x28, 2 => some (.chTry t gd ga gb)
  | 0x28, 3 => some (.chSelectP t gd ga)
  | 0x28, 4 => some (.chSelectR t gd ga)
  | 0x29, 0 => some (.sqPush t ga gb)
  | 0x29, 1 => some (.sqPop t gd ga gb)
  | 0x29, 2 => some (.sqRel t ga gb)
  | 0x2A, 0 => some (.alGet t gd ga)
  | 0x2A, 1 => some (.alGetP t gd ga)
  | 0x2A, 2 => some (.alPin t ga gb)
  | 0x2A, 3 => some (.alUnpin t ga gb)
  | 0x2A, 4 => some (.alCommit t gd ga)
  | 0x2B, 0 => some (.dmaIssue t gd ga 0)
  | 0x2B, 1 => some (.dmaWait t gd ga)
  | 0x2B, 2 => some (.dmaPoll t gd ga)
  | 0x2C, 0 => some (.rngGen t ga gb)
  | 0x2C, 1 => some (.rngGenR t gd)
  | 0x2D, 0 => some (.trap t ga)
  | 0x2D, 1 => some (.trapRet t)
  | 0x2D, 2 => some (.halt t)
  | _, _ => none

/-- Formats I and B, by OP (R101 to R103, R119); `imm` is IMM16 or OFF16, and a branch's gb stands where others have gd. -/
def decodeI (t op : Nat) (gd ga : Reg) (imm : BitVec 16) : Option Instr :=
  match op, imm.toNat / 4096 with
  | 0x02, _ => some (.addi t gd ga imm)
  | 0x03, _ => some (.andi t gd ga imm)
  | 0x04, _ => some (.ori t gd ga imm)
  | 0x05, _ => some (.xori t gd ga imm)
  | 0x06, _ => some (.slti t gd ga imm)
  | 0x07, _ => some (.sltiu t gd ga imm)
  | 0x08, _ => some (.slli t gd ga (imm.setWidth 6))
  | 0x09, _ => some (.srli t gd ga (imm.setWidth 6))
  | 0x0A, _ => some (.srai t gd ga (imm.setWidth 6))
  | 0x0B, _ => some (.li t gd imm)
  | 0x0C, _ => some (.shori t gd ga imm)
  | 0x10, _ => some (.beq t ga gd imm)
  | 0x11, _ => some (.bne t ga gd imm)
  | 0x12, _ => some (.blt t ga gd imm)
  | 0x13, _ => some (.bge t ga gd imm)
  | 0x14, _ => some (.bltu t ga gd imm)
  | 0x15, _ => some (.bgeu t ga gd imm)
  | 0x1A, _ => some (.ldB t gd ga imm)
  | 0x1B, _ => some (.ldBu t gd ga imm)
  | 0x1C, _ => some (.ldH t gd ga imm)
  | 0x1D, _ => some (.ldHu t gd ga imm)
  | 0x1E, _ => some (.ldW t gd ga imm)
  | 0x1F, _ => some (.ldWu t gd ga imm)
  | 0x20, _ => some (.ldD t gd ga imm)
  | 0x21, _ => some (.stB t gd ga imm)
  | 0x22, _ => some (.stH t gd ga imm)
  | 0x23, _ => some (.stW t gd ga imm)
  | 0x24, _ => some (.stD t gd ga imm)
  | 0x27, 0 => some (.csrRd t gd (imm.setWidth 12))
  | 0x27, 1 => some (.csrWr t ga (imm.setWidth 12))
  | 0x27, 2 => some (.csrSwap t gd ga (imm.setWidth 12))
  | 0x27, 3 => some (.csrSet t gd ga (imm.setWidth 12))
  | 0x27, 4 => some (.csrClr t gd ga (imm.setWidth 12))
  | _, _ => none

/-- Format X, by OP and XOP (R108, R112, R116, R117). -/
def decodeX (t op xop : Nat) (gd ga gb gc : Reg) (mod : BitVec 32) : Option Instr :=
  match op, xop with
  | 0x30, 0 => some (.mmaLoad t ga gb gc mod)
  | 0x30, 1 => some (.mmaStream t gd ga gb gc mod)
  | 0x30, 2 => some (.mmaDrain t ga gb gc mod)
  | 0x30, 3 => some (.mmaDrainDbg t ga mod)
  | 0x31, 0 => some (.vecRun t ga gb)
  | 0x32, 0 => some (.rxContrib t gd ga gb gc)
  | 0x32, 1 => some (.rxRelease t ga gb)
  | 0x32, 2 => some (.rxWait t gd ga gb)
  | 0x32, 3 => some (.rxApply t ga gb gc)
  | 0x32, 4 => some (.rxGnorm t gd ga gb gc)
  | 0x33, 0 => some (.exDispatch t ga gb gc)
  | 0x33, 1 => some (.exCombine t ga gb gc)
  | _, _ => none

/-- The command by which tile `t` runs the instruction whose words are `w0` and, for a 64-bit one, `w1`: ILLEGAL_OPCODE for words that
are no instruction. Which tag a DMA.ISSUE is lent is no part of the words (assumption log 25). -/
def moliricOf (t : Nat) (w0 w1 : BitVec 32) : Option Instr :=
  let op := wordFld w0 5 0
  let gd : Reg := BitVec.ofNat 5 (wordFld w0 10 6)
  let ga : Reg := BitVec.ofNat 5 (wordFld w0 15 11)
  let gb : Reg := BitVec.ofNat 5 (wordFld w0 20 16)
  let gc : Reg := BitVec.ofNat 5 (wordFld w0 25 21)
  let imm : BitVec 16 := BitVec.ofNat 16 (wordFld w0 31 16)
  if illegalWords w0 w1 then some (.illegalOpcode t w0 w1)
  else if op == 0x16 then some (.j t (BitVec.ofNat 26 (wordFld w0 31 6)))
  else if op == 0x17 then some (.jal t (BitVec.ofNat 26 (wordFld w0 31 6)))
  else if op ≥ 0x30 then decodeX t op (wordFld w0 31 26) gd ga gb gc w1
  else (decodeI t op gd ga imm).orElse fun _ => decodeA t op (wordFld w0 31 21) gd ga gb

end Sys2Proof
end

