-- ==== Sys2Proof/Machine/Bits.lean ====
section
/-! DEFINITION. Bit fields of words, byte order (little-endian, R39), sign extension and modular helpers. -/
namespace Sys2Proof.Machine

/-- Field [hi:lo] of a word. -/
def fld (w : Word) (hi lo : Nat) : Nat := (w.toNat / 2 ^ lo) % 2 ^ (hi - lo + 1)

/-- Bit `i` of a word. -/
def bitOf (w : Word) (i : Nat) : Bool := (w.toNat / 2 ^ i) % 2 == 1

/-- The word with field [hi:lo] replaced by the low bits of `v`. -/
def setFld (w : Word) (hi lo v : Nat) : Word :=
  BitVec.ofNat 64 (w.toNat - fld w hi lo * 2 ^ lo + (v % 2 ^ (hi - lo + 1)) * 2 ^ lo)

/-- The word with bit `i` set to `b`. -/
def setBit (w : Word) (i : Nat) (b : Bool) : Word := setFld w i i b.toNat

/-- The mask of bits [hi:lo]. -/
def maskOf (hi lo : Nat) : Word := BitVec.ofNat 64 ((2 ^ (hi - lo + 1) - 1) * 2 ^ lo)

/-- `v` placed at bit `lo`. -/
def put64 (v lo : Nat) : Nat := v * 2 ^ lo

/-- The value of bytes, least significant first. -/
def leNat : List Byte → Nat
  | [] => 0
  | b :: bs => b.toNat + 256 * leNat bs

/-- `n` bytes of a value, least significant first. -/
def leBytes : Nat → Nat → List Byte
  | 0, _ => []
  | n + 1, v => BitVec.ofNat 8 v :: leBytes n (v / 256)

/-- `n` bytes of a value, most significant first. -/
def beBytes (n v : Nat) : List Byte := (leBytes n v).reverse

/-- Bytes taken eight at a time as little-endian words. -/
def wordsOf : Nat → List Byte → List Word
  | 0, _ => []
  | n + 1, bs => BitVec.ofNat 64 (leNat (bs.take 8)) :: wordsOf n (bs.drop 8)

/-- The bytes of words, little-endian. -/
def bytesOf (ws : List Word) : List Byte := ws.flatMap fun w => leBytes 8 w.toNat

/-- Word `i` of a list of words. -/
def wordAt (ws : List Word) (i : Nat) : Word := ws.getD i 0

/-- A field of `n` bits read as two's complement. -/
def signedOf (n v : Nat) : Int := if v % 2 ^ n < 2 ^ (n - 1) then (v % 2 ^ n : Nat) else ((v % 2 ^ n : Nat) : Int) - 2 ^ n

/-- Sequence distance modulo 2^12 (R309). -/
def seqDiff (a b : Nat) : Nat := (a + 4096 - b % 4096) % 4096

/-- The 16-bit Gray code of a count, and the count of a Gray code (R32). -/
def grayOf (n : BitVec 16) : BitVec 16 := n ^^^ (n >>> 1)

def grayTo (g : BitVec 16) : BitVec 16 :=
  let a := g ^^^ (g >>> 1)
  let b := a ^^^ (a >>> 2)
  let c := b ^^^ (b >>> 4)
  c ^^^ (c >>> 8)

/-- New events between two samples of a crossing count (R32). -/
def grayNew (last now : BitVec 16) : Nat := (grayTo now - grayTo last).toNat

/-- A multi-bit value as a crossing accepts it: the first sample that the next one agrees with (R33). -/
def sampledTwice : List Nat → Option Nat
  | a :: b :: r => if a = b then some b else sampledTwice (b :: r)
  | _ => none

def crcStep (r : BitVec 32) : BitVec 32 := if r.getLsbD 0 then (r >>> 1) ^^^ 0xEDB88320 else r >>> 1

/-- CRC-32 with the IEEE 802.3 polynomial. -/
def crc32 (bs : List Byte) : BitVec 32 :=
  ~~~(bs.foldl (fun r b =>
    crcStep (crcStep (crcStep (crcStep (crcStep (crcStep (crcStep (crcStep (r ^^^ b.setWidth 32))))))))) (BitVec.allOnes 32))

/-- The value of `n` bytes from `i` on, most significant first. -/
def beAt (bs : List Byte) (i n : Nat) : Nat := ((bs.drop i).take n).foldl (fun a b => a * 256 + b.toNat) 0

/-- The value of `n` bytes from `i` on, least significant first. -/
def leAt (bs : List Byte) (i n : Nat) : Nat := leNat ((bs.drop i).take n)

/-- Rounding up to a multiple. -/
def roundUp (n k : Nat) : Nat := (n + k - 1) / k * k

/-- Ceiling division. -/
def cdiv (n k : Nat) : Nat := (n + k - 1) / k

/-- `n` saturated at `hi`. -/
def satAt (n hi : Nat) : Nat := if n > hi then hi else n

/-- Adds elements a list lacks. -/
def listUnion (a b : List Nat) : List Nat := a ++ b.filter fun x => !a.contains x

end Sys2Proof.Machine
end

