-- ==== Sys2Proof/Config.lean ====
section
/-! DEFINITION. What an implementation fixes and the spec leaves open: the FREE VALUES. Each is an opaque constant with no
body, so that no proof can see what it is. Which decision each codes is a row of notes/assumptions. -/
namespace Sys2Proof.Config

/-- A fresh free value: an overlapped destination byte (R140, R163), an unspecified part of a destination (R143, R161), a
drawn key or epoch. Applied to the state's `freeIdx`. Assumption log 2. -/
opaque freeByte : Nat → Byte
opaque freeWord : Nat → Word
opaque freeKey : Nat → BitVec 512

/-- Handshakes of an array port for a lap of die `d`'s replica path, as `lapNum d` / (`lapDen d` + 1) (R22 gives no figure).
Assumption log 45. -/
opaque lapNum : (d : Nat) → Nat
opaque lapDen : (d : Nat) → Nat

/-- How many steps past the first lie between a die's supply and the level a pass computes (R24 names three levels and not how
they are computed): the level's kind (0 target, 1 junction, 2 cap), the die, what is measured, its bound, the supply.
Assumption log 45. -/
opaque levelGap : (kind d measured bound half : Nat) → Nat

/-- The part of a package cap that falls to a die, and of what others give up, before it is held to what is left (R27 gives no
formula). Assumption log 45. -/
opaque capShare : (cap d : Nat) → Nat
opaque spareShare : (spare d : Nat) → Nat

/-- What the package loop divides while excursion time is left, before it is held between the cap and 5.0 kW (R27 lets the power rise
above the cap and does not say how far). Assumption log 63. -/
opaque excursionW : (cap left : Nat) → Nat

/-- Which way of a full L1 set is evicted: pseudo-LRU is named, its tree is not (R129). Assumption log 12. -/
opaque l1Victim : Nat → Nat

/-- A vector operation that R64 promises only within a bound: the operation's code (R153), the working format (0 FP32,
1 BF16, 2 FP16) and the operand's bits give the result's bits, always the same (R67); the meaning takes them where they lie
within the bound. Assumption log 13. -/
opaque vecBounded : (opc mode x : Nat) → Nat

/-- What the packets of an Opus stream give, a function of its bytes alone (R259, R260): whether all decode, and the samples of each
channel. Assumption log 14. -/
opaque opusPackets : List Byte → Bool × List (List (BitVec 32))

/-- The fixed separable procedure of R260: the FP32 operations of the inverse transform of 8 values, of a row or a column, and which of
their values are its results; which of rows and columns comes first; a subsampled plane of `h` by `w` brought to full size.
Assumption log 14. -/
opaque idctSteps : (column : Bool) → List FpStep
opaque idctResults : (column : Bool) → List Nat
opaque idctColumnsFirst : Bool
opaque chromaUp : (h w across down : Nat) → List (BitVec 32) → List (BitVec 32)

/-- Working memory of a sample beside a progressive JPEG's coefficients (R261), and an audio value outside [-1, 1) as it is
delivered (R259). Assumption log 14. -/
opaque workMem : (kind d0 d1 channels depth : Nat) → BitVec 39
opaque audioClip : BitVec 32 → BitVec 32

/-- What R269 leaves open in its operators: the length RESAMPLE gives, the frames SPECTRO gives, the weight of a power in a mel bin,
and what MIX takes for a partner's value where its image has none. Assumption log 14. -/
opaque resampleLen : (samples rateIn rateOut : Nat) → Nat
opaque spectroFrames : (samples size hop : Nat) → Nat
opaque melWeight : (rate size bins bin k : Nat) → BitVec 32
opaque mixAbsent : (own : BitVec 32) → (row column channel : Nat) → BitVec 32

/-- What the root of trust draws or is given that no rule computes: the helper data of a first reading of the PUF, and the root secret
that a reading and helper data yield (R363 names no code); Suelm's endorsement of a device public key; the random bytes of a one-time
signature (level, level-0 leaf, leaf). Assumption log 15. -/
opaque pufHelper : (reading : List Byte) → List Byte
opaque pufSecret : (reading helper : List Byte) → List Byte
opaque endorse : (devicePubKey : List Byte) → List Byte
opaque signRandom : (level boot leaf : Nat) → BitVec 256

/-- What the control software reads out of a plain job image: the spec gives the image no layout. Assumption log 71. -/
opaque jobImage : List Byte → JobImage

/-- The reporting line of the unit that raises a source at an instance, on a die (R385 numbers no line). Assumption log 52. -/
opaque faultLine : (die src inst : Nat) → Nat

/-- Suelm's assigned manufacturer identity, and version and part number of the guest die's IDCODE (R348). Assumption log 17. -/
opaque jedec : BitVec 11
opaque guestIdcode : BitVec 20

end Sys2Proof.Config
end

