-- ==== Sys2Proof/Machine/State.lean ====
section
/-! DEFINITION. The state of the package as plain data: every register, queue, buffer, counter and mode the spec gives it,
and the queue of waiting commands. Control-space registers are raw 64-bit words in one sparse table (`regs`, keyed by
address, an unlisted address holding its reset value); what the spec gives in prose is a field of a structure below. -/
namespace Sys2Proof.Machine

/-- One context of a tile's sequencer (R91, R208): general registers (an unlisted one is zero), pc, its CSRs by number (an
unlisted one holds its reset value), the instruction it waits in, if it waits (R93), what that read at issue, and whether the wait
for a credit has been counted (R180). -/
structure Ctx where
  g : Tab Word := []
  pc : BitVec 48 := 0
  csr : Tab Word := []
  wait : Option Instr := none
  held : List Word := []
  stalled : Bool := false
  deriving DecidableEq, Repr

/-- The class of an array's accumulators (R79). -/
inductive AccClass where
  | clear | floating | integer
  deriving DecidableEq, Repr

/-- An accumulator: floating value `m` x 2^`e` with its marks (R51, R54), or an integer `m` with its mark (R58). -/
structure Acc where
  m : Int := 0
  e : Int := 0
  nan : Bool := false
  pinf : Bool := false
  ninf : Bool := false
  sat : Bool := false
  deriving DecidableEq, Repr

inductive MmaKind where
  | load | stream | drain | debug
  deriving DecidableEq, Repr

/-- An accepted matrix operation with what it captured at issue (R74 to R84, R81, R118). `s1`, `s2` are the two strides of
its gb operand, `cnt` COUNT of a load and V of a stream. -/
structure MmaOp where
  kind : MmaKind := .load
  gang : Nat := 0
  aset : Nat := 0
  slot : Nat := 0
  cnt : Nat := 0
  fmt : Fmt := .e4m3
  base : Nat := 0
  s1 : Nat := 0
  s2 : Nat := 0
  scaleBase : Nat := 0
  scaleStride : Nat := 0
  row0 : Nat := 0
  rows : Nat := 0
  rnd : Nat := 0
  nsat : Bool := false
  status : Nat := 0
  km0 : Word := 0
  km1 : Word := 0
  nm0 : Word := 0
  nm1 : Word := 0
  key : BitVec 128 := 0
  ctr : BitVec 128 := 0
  off : Nat := 0
  deriving DecidableEq, Repr

/-- A filled slot of one array (one in BF16 stands at 16 + its number, R70): element codes by (reduction index x 64 + column), scale codes by (block x 64 + column), the
load that last filled it and the slot's number there (R59, R70, R74). -/
structure Slot where
  fmt : Fmt := .e4m3
  gang : Nat := 0
  elems : Tab Int := []
  scales : Tab Nat := []
  src : MmaOp := {}
  deriving DecidableEq, Repr

/-- One array (R70). `mode`, `cls` are what MMA_STATE shows; `iMode`, `iCls`, `iSlots` the same in issue order, which the
checks at issue read (R79, R80). `streams` are the streams recorded for a repeat, `nStreams` how many ran (R60); `shift` how often
the loaded operand under its accumulators has been halved (R57, R59). -/
structure MArr where
  mode : Nat := 0
  cls : AccClass := .clear
  gated : Bool := false
  slots : Tab Slot := []
  acc : Tab Acc := []
  iMode : Nat := 0
  iCls : AccClass := .clear
  iSlots : Tab (Fmt × Nat) := []
  streams : List MmaOp := []
  nStreams : Nat := 0
  shift : Nat := 0
  deriving DecidableEq, Repr

/-- An accepted recipe run: its descriptor as read at issue and its status address (R112, R150). -/
structure VecRun where
  desc : List Word := []
  status : Nat := 0
  deriving DecidableEq, Repr

/-- A DMA transfer (R137, R141): its tag, descriptor, whether it runs, waits for a slot and is one of NEXT_WAIT (R274), the Pantry
slot it took, its status when complete. -/
structure DmaXfer where
  tag : Nat := 0
  desc : List Word := []
  running : Bool := false
  waiting : Bool := false
  nextWait : Bool := false
  refused : Bool := false
  slot : Option Nat := none
  status : Option Word := none
  deriving DecidableEq, Repr

structure L1Byte where
  v : Byte := 0
  dirty : Bool := false
  lost : Bool := false
  deriving DecidableEq, Repr

/-- A line of the L1: its 128 B address and its valid bytes (R129, R130); `pf` while it was prefetched and not yet used
(R135). -/
structure L1Line where
  addr : Nat := 0
  pf : Bool := false
  bytes : Tab L1Byte := []
  deriving DecidableEq, Repr

/-- A stride tracker (R134, R135). -/
structure Tracker where
  last : Nat := 0
  stride : Int := 0
  run : Nat := 0
  confirmed : Bool := false
  deriving DecidableEq, Repr

/-- The L1 data cache of a tile: lines most recently used first, outstanding fills (line address, by prefetch), trackers
most recently used first. -/
structure L1 where
  lines : List L1Line := []
  fills : List (Nat × Bool) := []
  trackers : List Tracker := []
  deriving DecidableEq, Repr

structure QMsg where
  sender : Nat := 0
  payload : List Byte := []
  deriving DecidableEq, Repr

/-- A stall episode of a queue (R177): in `Tile.wd` a full one at the queue's number, an empty one at 16 + that. -/
structure Episode where
  opened : Nat := 0
  full : Bool := false
  reported : Bool := false
  deriving DecidableEq, Repr

/-- The Transit log of a lead tile (R213, R214). Phases: 0 forward, 1 backward, 2 reduce-wait, 3 optimizer, 4 filler, 5
idle. `ended`: the tile's part has ended and no job has been placed on it since. -/
structure Transit where
  phase : Nat := 0
  since : Nat := 0
  acc : Tab Nat := []
  popPhase : Nat := 0
  popped : Bool := false
  released : Bool := false
  popHandle : Nat := 0
  popIdx : Nat := 0
  ended : Bool := false
  deriving DecidableEq, Repr

/-- A tile. `live`: its part in a job runs. `saved`: the primary's context while a filler task runs (R208), with the
task's deadline. -/
structure Tile where
  live : Bool := false
  part : Nat := 0
  job : Nat := 0
  debug : Bool := false
  ctx : Ctx := {}
  saved : Option Ctx := none
  deadline : Nat := 0
  ending : Bool := false
  arrays : Tab MArr := []
  mmaq : List MmaOp := []
  vecq : List VecRun := []
  dma : List DmaXfer := []
  l1 : L1 := {}
  queues : Tab (List QMsg) := []
  epoch : BitVec 16 := 0
  closed : Bool := true
  counts : Tab Word := []
  wd : Tab Episode := []
  sel : Nat := 0
  transit : Transit := {}
  deriving DecidableEq, Repr

inductive ChPhase where
  | held | travelling | refused | accepted | discarded
  deriving DecidableEq, Repr

/-- A message outside a queue (R166, R169): in its sender's outbound slot. Senders 0x3FE and 0x3FF are hardware; `win` the
firewall window that admitted a guest's (R342). -/
structure ChMsg where
  sender : Nat := 0
  win : Option Nat := none
  part : Nat := 0
  dest : Word := 0
  payload : List Byte := []
  phase : ChPhase := .travelling
  interval : Nat := 64
  refusals : Nat := 0
  deriving DecidableEq, Repr

/-- An entry at a receive end (R180, R186): its index, SEQ, header words, bytes landed, who popped it. -/
structure SlEntry where
  idx : Nat := 0
  seq : Nat := 0
  header : List Word := []
  landed : Nat := 0
  tile : Nat := 0
  deriving DecidableEq, Repr

/-- What a stage-link handle holds beyond its registers: the settings of its opening (R180), credits, entry lists. -/
structure SlEnd where
  cfg : Word := 0
  ring : Word := 0
  size : Nat := 0
  credits : List Nat := []
  visible : List SlEntry := []
  popped : List SlEntry := []
  arriving : List SlEntry := []
  seq : Nat := 0
  deriving DecidableEq, Repr

/-- A pushed entry on its way: the envelope of R191, the header, the payload's source, bytes read and landed. `bytes` are
payload bytes that arrived over a link and are not yet written; `remoteIn` an arrival over a link, `remoteOut` a push over
one. -/
structure SlFlight where
  src : Nat := 0
  dst : Nat := 0
  link : Nat := 0
  remoteIn : Bool := false
  remoteOut : Bool := false
  part : Nat := 0
  tile : Nat := 0
  idx : Nat := 0
  seq : Nat := 0
  epoch : Nat := 0
  cut : Bool := false
  depth : Nat := 0
  size : Nat := 0
  header : List Word := []
  payload : Nat := 0
  len : Nat := 0
  done : Nat := 0
  hdrDone : Bool := false
  dropped : Bool := false
  bytes : Tab Byte := []
  deriving DecidableEq, Repr

/-- A credit on its way back (R185, R190). -/
structure SlCredit where
  dst : Nat := 0
  idx : Nat := 0
  epoch : Nat := 0
  disc : Bool := false
  link : Option Nat := none
  part : Nat := 0
  deriving DecidableEq, Repr

/-- What an Almanac group holds beyond AL_GCFG (R197 to R204): the held range with counts, blocks reported, the tiles
waiting in AL.COMMIT in turn order (with whether their commit took effect; number 768 where the tile's part has ended since), the
copy under way, whether the mirror-lag condition holds, the collective whose apply last started into the staging buffer with whether
it writes MOM2 (R361). -/
structure AlGroup where
  current : BitVec 16 := 0
  oldest : BitVec 16 := 0
  counts : Tab Nat := []
  mirrored : BitVec 16 := 0
  waiting : Bool := false
  cfgErr : Bool := false
  written : List Nat := []
  commits : List (Nat × Option Nat) := []
  answers : Tab Word := []
  copying : Option Nat := none
  lag : Bool := false
  author : Option (Nat × Bool) := none
  deriving DecidableEq, Repr

/-- A filler ring shared by the tiles of a Hob that name its BASE (R211). -/
structure FilRing where
  hob : Nat := 0
  base : Nat := 0
  log2n : Nat := 0
  head : BitVec 32 := 0
  tail : BitVec 32 := 0
  deriving DecidableEq, Repr

/-- Where a contribution stands with its home (R220, R222, R226): its request on its way, held at the home, asked over a
link, or how it was let in. -/
inductive Grant where
  | waiting | held | asked | direct | staged | late
  deriving DecidableEq, Repr

/-- One member's contribution to one shard of a round, from RX.CONTRIB (or a remote member's request) to its last write.
`order` names the contribution among all: x 2^26, its member and step below. `pend`: the shard's bytes once the agent has read
them; `got`: positions whose writes have arrived; `slot`: its staging slot; of a remote member's, `via` the link its request came
by and `no` the grant number its home gave; `mark`: made by RX.GNORM. -/
structure Contrib where
  order : Nat := 0
  shard : Nat := 0
  member : Nat := 0
  step : BitVec 16 := 0
  tile : Option Nat := none
  src : Nat := 0
  remote : Bool := false
  grant : Grant := .waiting
  sent : Bool := false
  pend : List Byte := []
  slot : Option Nat := none
  got : List Nat := []
  via : Nat := 0
  no : Option Nat := none
  mark : Bool := false
  deriving DecidableEq, Repr

/-- A request that this package passed on (R217, R323): the contribution's shard, member and step, the link it came by, the
grant number that came back (`no`), and the number this package gave for it (`mine`). -/
structure Passed where
  shard : Nat := 0
  member : Nat := 0
  step : BitVec 16 := 0
  link : Nat := 0
  no : Option Nat := none
  mine : Nat := 0
  deriving DecidableEq, Repr

/-- What the home of a shard on another package says of a round it has completed (R224, R228): the members it added, whether
writes of a late one stay, the late contributions its DEFER gave (by their orders), NaN or infinity, whether by release, whether an
RX.GNORM marked it. -/
structure Heard where
  shard : Nat := 0
  step : BitVec 16 := 0
  added : List Nat := []
  cut : Bool := false
  deferred : List Nat := []
  nonfinite : Bool := false
  released : Bool := false
  gnorm : Bool := false
  deriving DecidableEq, Repr

/-- A home's share of a step's norm: the sum of squares formed in ascending order, and exactly (m x 2^e). -/
structure SqPart where
  shard : Nat := 0
  v : BitVec 32 := 0
  m : Int := 0
  e : Int := 0
  bad : Bool := false
  deriving DecidableEq, Repr

/-- An open round (R219 to R229). `reached`: 256 B units (shard x 2^22 + number) some write has reached; `seen`:
contributions granted; `added`, `late`, `partials`: pairs of shard and member; `deferred`: late contributions DEFER added. -/
structure Round where
  step : BitVec 16 := 0
  idx : Nat := 0
  reached : List Nat := []
  seen : List (Nat × Nat) := []
  added : List (Nat × Nat) := []
  late : List (Nat × Nat) := []
  partials : List (Nat × Nat) := []
  homesDone : List Nat := []
  released : Bool := false
  complete : Bool := false
  deferred : List Nat := []
  nonfinite : Bool := false
  sq : List SqPart := []
  deriving DecidableEq, Repr

/-- An issued apply (R200, R232): its place in issue order, its tile, its round and the round's number, descriptor words,
whether the MSAs have taken it, whether its group's end discarded it (R437), shards written. -/
structure Apply where
  order : Nat := 0
  tile : Nat := 0
  step : BitVec 16 := 0
  idx : Nat := 0
  desc : List Word := []
  started : Bool := false
  gone : Bool := false
  factor : BitVec 32 := 0
  doneShards : List Nat := []
  deriving DecidableEq, Repr

/-- What a collective holds beyond its registers: the shard table as checked, open rounds, contributions, the 256 B units
DEFER holds and the late contributions in it (shard, contribution), contributions already counted (contribution x 64 + what
for, step), applies, words of completed rounds, releases of rounds not yet open (for every home here; by shard, from another
package), steps for which an RX.GNORM was accepted, sums of squares of completed rounds (step, released, parts). Of other
packages: requests passed on, links members are reached by, completions heard, late
contributions of a notice still coming (shard, step, contributions). `normed`: steps whose norm record has been written here. -/
structure Coll where
  shards : List (List Word) := []
  oldest : BitVec 16 := 0
  roundIdx : Nat := 0
  cfgErr : Bool := false
  rounds : List Round := []
  contribs : List Contrib := []
  deferKeys : List Nat := []
  deferBy : List (Nat × Nat) := []
  counted : List (Nat × BitVec 16) := []
  applyNext : BitVec 16 := 0
  applies : List Apply := []
  words : List (BitVec 16 × Word) := []
  heldRelease : List (BitVec 16) := []
  heldFar : List (BitVec 16 × Nat) := []
  gnorms : List (BitVec 16) := []
  norms : List (BitVec 16 × Bool × List SqPart) := []
  passed : List Passed := []
  vias : List Nat := []
  heard : List Heard := []
  notes : List (Nat × BitVec 16 × List Nat) := []
  normed : List (BitVec 16) := []
  deriving DecidableEq, Repr

/-- The Sextan norm of a step (R240, R241): the package whose collectives received RX.GNORM (none known yet), accepted, void, formed with
its record. -/
structure GStep where
  step : BitVec 16 := 0
  home : Option Nat := none
  accepted : Bool := false
  void : Bool := false
  formed : Option (BitVec 32 × BitVec 32) := none
  deriving DecidableEq, Repr

/-- An outbound record sent and not yet landed (R244, R246): header words, payload, whether bytes of it were lost. -/
structure ExRec where
  hdr : List Word := []
  payload : List Byte := []
  lost : Bool := false
  deriving DecidableEq, Repr

/-- A return not yet read by its engine (R249): the returning tile, where the record lies, and, of one for another package, whether
its origin has been asked (1) and has issued the combine (2). -/
structure ExRet where
  tile : Nat := 0
  src : Nat := 0
  asked : Nat := 0
  deriving DecidableEq, Repr

/-- An outbound dispatch not wholly combined (R245, R250): status per record (0 outstanding, 1 to 4 kept, 5 returned),
headers, the combine's destination once issued, indices written, indices whose kept header was lost (R291). -/
structure ExDisp where
  tile : Nat := 0
  round : Nat := 0
  count : Nat := 0
  status : Tab Nat := []
  hdrs : Tab (List Word) := []
  dest : Option Nat := none
  written : List Nat := []
  lost : List Nat := []
  deriving DecidableEq, Repr

/-- An expert's round at its home (R247, R248). -/
structure ExHalf where
  expert : Nat := 0
  round : Nat := 0
  count : Nat := 0
  dropc : Nat := 0
  complete : Bool := false
  returned : Nat := 0
  deriving DecidableEq, Repr

/-- What an exchange handle holds beyond its registers: the tables as checked, each tile's next round, dispatches, records
and returns on their way, drop notices for dispatches here (tile, round, index), end marks that arrived (engine, round),
the round each half of an expert may land (keyed 2 x expert + half), tiles that dispatched each round, rounds whose end marks went
out, returns of other packages that wait for a combine here (engine, tile, round, index). -/
structure ExState where
  cfgErr : Bool := false
  experts : List (List Word) := []
  engines : List Word := []
  tileRound : Tab Nat := []
  disps : List ExDisp := []
  flight : List ExRec := []
  returns : List ExRet := []
  notices : List (Nat × Nat × Nat) := []
  halves : List ExHalf := []
  marks : List (Nat × Nat) := []
  freed : Tab Nat := []
  dispatched : Tab Nat := []
  marksSent : List Nat := []
  asks : List (Nat × Nat × Nat × Nat) := []
  deriving DecidableEq, Repr

inductive SampleStage where
  | reassembly | ready | decoding | mixWait
  deriving DecidableEq, Repr

/-- A sample from its first datagram to its slot or entry (R257 to R271): the port and local time of its first datagram,
its admission count, the bytes here, its work budget, what the decoder read, the values where it waits at MIX and which operator that is, its mix so far. -/
structure Sample where
  stream : Nat := 0
  index : Nat := 0
  adm : Nat := 0
  total : Nat := 0
  port : Nat := 0
  opened : Nat := 0
  got : Tab Byte := []
  stage : SampleStage := .reassembly
  slow : Bool := false
  budget : Nat := 0
  hdr : MediaHdr := {}
  out : MediaOut := {}
  pos : Nat := 0
  partner : Nat := 0xFFFFFFFFFFFF
  lambda : BitVec 32 := 0x3F800000
  deriving DecidableEq, Repr

/-- What a slot receives (R272). -/
structure SlotOut where
  status : Nat := 0
  dims : Nat × Nat × Nat := (1, 1, 1)
  fmt : Nat := 0
  layout : Nat := 0
  trunc : Bool := false
  payload : List Byte := []
  deriving DecidableEq, Repr

/-- What an ingest stream holds beyond its registers (R256, R262): samples seen and admitted, indices not admitted and
indices finished, the CREDIT destination, the last ALLOW sent, the next SEQ, the work of the last 256 completed samples, the
operator list as checked. -/
structure Stream where
  allow : Nat := 0
  cfgErr : Bool := false
  seen : Nat := 0
  admitted : Nat := 0
  barred : List Nat := []
  finished : List Nat := []
  peer : Option (Nat × Nat × Nat) := none
  lastSent : Nat := 0
  seq : Nat := 0
  works : List Nat := []
  ops : List (List Word) := []
  deriving DecidableEq, Repr

inductive SlotState where
  | free | filling | ready | taken
  deriving DecidableEq, Repr

structure PSlot where
  st : SlotState := .free
  stream : Nat := 0
  deriving DecidableEq, Repr

/-- Mandoline beyond its registers: slots, ready order, the transfers (tile, tag) waiting in NEXT_WAIT as they came, finished
samples that wait for a FREE slot, alarm, dictionary (R264, R265, R273, R275). -/
structure Mandoline where
  slots : Tab PSlot := []
  readyOrder : List Nat := []
  armed : Bool := false
  alarm : Bool := false
  cfgErr : Bool := false
  waiters : List (Nat × Nat) := []
  landing : List (Sample × SlotOut) := []
  loading : Bool := false
  dict : Option (List (List Byte × Nat)) := none
  deriving DecidableEq, Repr

/-- A cell offered to a link by a unit and not yet sent (R309, R314); `home` the failed links it is carried for,
first to last (R320). -/
structure TxItem where
  cls : Nat := 0
  vc : Bool := false
  object : Nat := 0
  offset : Nat := 0
  hops : Nat := 32
  payload : List Byte := []
  part : Nat := 0
  home : List Nat := []
  deriving DecidableEq, Repr

/-- A replay place (R309, R312): the cell as sent, its payload before encryption, the failed links it is carried for. -/
structure Replay where
  cell : LkCell := {}
  plain : List Byte := []
  part : Nat := 0
  home : List Nat := []
  arrived : Bool := false
  sackRetx : Bool := false
  deriving DecidableEq, Repr

/-- Link state beyond the registers (R309 to R329): cells to send, the next SEQ, replay places oldest first, SEQs to retransmit;
the receiver's ACK, cells held above it, those of them that a discarded exchange handle owned (by SEQ, R251), deliverable REQ cells whose consumer has not taken them (`reqBuf`) and cells accepted below
it; whether an ACK goes before all else (R318); cells sent and freed on each channel by both ends; LINKCTL
messages ready to send (`ctl`) and unanswered (`ctlOpen`); the width cap of the coming training; the epochs of the last
IDENT; closed as a receiver by a reroute (R320); the partner that carries its flows, and whether they are returning (R321);
new cells sent (the IV count); partitions whose DATA cells it carried (R391); damaged cells and tag failures in the
window; the reference endpoint's cell, slot and script counts, held ACK, ACK cells to damage and lanes to fail. -/
structure Link where
  txq : List TxItem := []
  nextSeq : Nat := 0
  replay : List Replay := []
  retx : List Nat := []
  ack : Nat := 0
  held : List LkCell := []
  voids : List Nat := []
  reqBuf : List LkCell := []
  ackFirst : Bool := false
  rxCount : Nat := 0
  sentReq : Nat := 0
  sentRsp : Nat := 0
  peerReq : Nat := 0
  peerRsp : Nat := 0
  freedReq : Nat := 0
  freedRsp : Nat := 0
  urgent : Bool := false
  firings : Nat := 0
  ctl : List LkMsg := []
  ctlOpen : List LkMsg := []
  cap : Nat := 8
  seenEpoch : Option (BitVec 32 × BitVec 32) := none
  closed : Bool := false
  asked : Bool := false
  carriedBy : Option Nat := none
  returning : Bool := false
  ivCount : Nat := 0
  parts : List Nat := []
  damagedWin : Nat := 0
  authWin : Nat := 0
  refEp : Bool := false
  refN : Nat := 0
  refSlot : Nat := 0
  refCount : Nat := 0
  refPos : Nat := 0
  refLast : Nat := 0
  refHold : Option (Nat × BitVec 32) := none
  refAckBad : Nat := 0
  refBadLanes : BitVec 9 := 0
  refStart : Nat := 0
  downPartner : Nat := 31
  mirror : Bool := false
  identIn : List Byte := []
  secretOut : List Byte := []
  secretIn : List Byte := []
  deriving DecidableEq, Repr

/-- A fault report on its way to the collector (R385): `sev` the severity in force when it was made (R389), `jobs` the job
each partition ran then (R392), `linkParts` the partitions whose DATA cells a link's state had carried (R391). -/
structure Report where
  src : Nat := 0
  inst : Nat := 0
  die : Nat := 0
  part : Option Nat := none
  job : Nat := 0
  value : Word := 0
  cond : Bool := false
  sev : Nat := 0
  jobs : List (Nat × Nat) := []
  linkParts : List Nat := []
  ended : Bool := false
  forwarded : Bool := false
  deriving DecidableEq, Repr

/-- A fault record (R394). -/
structure FcRec where
  src : Nat := 0
  inst : Nat := 0
  sev : Nat := 0
  cond : Bool := false
  active : Bool := false
  fenced : Bool := false
  part : Option Nat := none
  job : Nat := 0
  count : Nat := 0
  firstNs : Nat := 0
  value : Word := 0
  order : Nat := 0
  deriving DecidableEq, Repr

/-- States of a partition (R351). -/
inductive PState where
  | empty | idle | placing | running | ending | fenced
  deriving DecidableEq, Repr

/-- A partition beyond its tile-group and event registers (R349 to R354, R359). -/
structure Part where
  valid : Bool := false
  st : PState := .empty
  groups : Nat := 0
  job : Nat := 0
  debug : Bool := false
  filler : Bool := false
  cfgErr : Bool := false
  refused : Bool := false
  env : Envelope := {}
  keyId : Nat := 0
  deriving DecidableEq, Repr

/-- A blob (R411, R415); its unwritten bytes are free values numbered from `salt`. `madeBy`: the operation whose output it is, or 0. -/
structure Blob where
  size : Nat := 0
  salt : Nat := 0
  bytes : Tab Byte := []
  holds : Nat := 0
  freed : Bool := false
  madeBy : Nat := 0
  deriving DecidableEq, Repr

/-- A long operation and its completion record (R410, R413). -/
structure CRec where
  op : Nat := 0
  target : Nat := 0
  result : Nat := 0
  reason : Nat := 0
  detail : Nat := 0
  job : Nat := 0
  part : Nat := 0xFF
  outBlob : Nat := 0
  outLen : Nat := 0
  start : Nat := 0
  duration : Nat := 0
  done : Bool := false
  blobs : List Nat := []
  req : MgmtReq := {}
  deriving DecidableEq, Repr

/-- A response of the management port (R409). -/
structure MgmtResp where
  w0 : Word := 0
  w1 : Word := 0
  arg0 : Word := 0
  arg1 : Word := 0
  body : List Byte := []
  deriving DecidableEq, Repr

structure Mgmt where
  blobs : Tab Blob := []
  recs : Tab CRec := []
  nextCmd : Nat := 1
  seen : List ((Nat × Nat × Nat) × MgmtResp) := []
  deriving DecidableEq, Repr

/-- The root of trust beyond its registers (R363 to R380): the root secret (none under NO_PUF, R363), the
device public key (R365), the level-0 leaves taken in this
power-up, each with the level-1 tree it signed (R367), the signatures made, the challenge quotes signed as leaf and partition, the
leaves used up by an envelope (R378), the identity quote (R375), the running copies' manifests and numbers (R371), the copy that a
recovery writes (R416). -/
structure Rot where
  secret : List Byte := []
  pubKey : List Byte := []
  leaves : List Nat := []
  signed : Nat := 0
  idQuote : List Byte := []
  quotes : List (Nat × Nat) := []
  usedLeaves : List Nat := []
  nextKeyId : Nat := 1
  ccKeyId : Nat := 0
  running : Tab (List Byte) := []
  runCopy : Tab Nat := []
  recoverTo : Tab Nat := []
  deriving DecidableEq, Repr

/-- The repair map's signed copy (R344): defective positions (hob x 104 + position), mapped-out channels, retired tiles; the package it
is of, its number among the copies, and whether its signature verifies. -/
structure RepairCopy where
  ok : Bool := true
  serial : Nat := 0
  devId : Word := 0
  defects : List Nat := []
  mapped : List Nat := []
  retired : List Nat := []
  deriving DecidableEq, Repr

/-- The training record (R344): per link its coefficients and good lanes, per module end its repaired lanes, per channel
(stack x 16 + channel) its trained settings; its number among the records, and its HMAC. -/
structure TrainRec where
  serial : Nat := 0
  linkCoeffs : Tab Word := []
  goodLanes : Tab Nat := []
  moduleRepairs : Tab Word := []
  chanSettings : Tab Word := []
  mac : List Byte := []
  deriving DecidableEq, Repr

/-- Stored network settings (R405, R408). -/
structure NetRec where
  ok : Bool := true
  serial : Nat := 0
  body : List Byte := []
  deriving DecidableEq, Repr

/-- An eMMC write that may still be under way (R405): of slot `i` of the repair copy, the training record or the network settings, of
firmware copy `k` (component x 2 + copy), of the level-0 cache. -/
inductive EmmcWrite where
  | repair (i : Nat)
  | train (i : Nat)
  | net (i : Nat)
  | copy (k : Nat)
  | cache
  deriving DecidableEq, Repr

/-- The eMMC, which alone carries anything across power-off (R403): whether it can be read and its RPMB block written; whether the
package was enrolled with it; the PUF's helper data and check value, stored twice (R363); the RPMB's programmed key, leaf counter and
minimum versions (R366, R373); the firmware copies byte for byte, as component x 2 + copy (R370); the level-0 cache's nodes and their
HMAC (R368); Suelm's endorsement; the repair copies, training records and network settings, each in two slots (R405); the last write. -/
structure Emmc where
  readable : Bool := true
  rpmbOk : Bool := true
  enrolled : Bool := false
  helper : List (List Byte) := []
  check : List (List Byte) := []
  rpmbKey : List Byte := []
  rpmb : Nat := 0
  minSvn : Tab Nat := []
  copies : Tab (List Byte) := []
  cache : List (List Byte) := []
  cacheMac : List Byte := []
  endorsement : List Byte := []
  repairs : Tab RepairCopy := []
  trains : Tab TrainRec := []
  nets : Tab NetRec := []
  writing : Option EmmcWrite := none
  deriving DecidableEq, Repr

/-- The pins and rails (R398 to R402, R424). `resetN` is the pin's level, `released` whether the dies have
left reset (R400, R401). `counting`: the local counters run (R35, R401); `risenAt`:
Meridian-A's counter when RESET_N rose (R407). `strap`: the ADDR pins, `addr` as RESET_N's rise found them (R428); `trstN`: the pin TRST_N
(R426); `okNs`: how long PWR_OK has been high, up to 1 ms (R400); `errnAt`: Meridian-A's counter at the last refresh of the ERR_N driver
(R396). `tripped`: power stays off until PWR_EN is lowered and raised (R430). -/
structure Pins where
  vin : Nat := 0
  inputOn : Bool := false
  pwrEn : Bool := false
  resetN : Bool := false
  released : Bool := false
  counting : Bool := false
  risenAt : Nat := 0
  pwrOk : Bool := false
  powered : Bool := false
  tripped : Bool := false
  addr : Nat := 3
  strap : Nat := 3
  trstN : Bool := true
  okNs : Nat := 0
  errnDriven : Bool := false
  errnAt : Nat := 0
  deriving DecidableEq, Repr

/-- A die's governor beyond its registers (R22, R24, R27, R28): the supply in half millivolts, the last measured power in W, its
share of the package cap since the first division, the last sample of the replica's Gray-coded lap count (R32), and the passes
in a row for which that count stood still. -/
structure Gov where
  half : Nat := 1200
  power : Nat := 0
  share : Option Nat := none
  laps : BitVec 16 := 0
  stall : Nat := 0
  deriving DecidableEq, Repr

/-- A crossing queue between a clocked island and the core (R32, R34): the source's Gray-coded count of entries, the
destination's last sample of it, and whether its two sides have yet to resynchronise. -/
structure Crossing where
  sent : BitVec 16 := 0
  seen : BitVec 16 := 0
  resync : Bool := false
  deriving DecidableEq, Repr

inductive TapIr where
  | bypass | idcode | samplePreload | extest | clamp | highz
  deriving DecidableEq, Repr

/-- An access waiting at a regulator (R356), and how many of its codewords have been admitted. -/
structure RegWait where
  paid : Nat := 0
  write : Bool := false
  addr : Nat := 0
  len : Nat := 0
  errs : Nat := 0
  data : List Byte := []
  deriving DecidableEq, Repr

/-- What the package has sent on its wires, oldest first. -/
inductive Out where
  | mgmt (dst port : Nat) (r : MgmtResp)
  | addressAnswer (port addr : Nat)
  | mgmtAddress (addr mac : Nat)
  | credit (port dst dport stream allow : Nat)
  | cell (link : Nat) (c : LkCell)
  | frames (link : Nat)
  | testWord (die line : Nat)
  | smbRead (bytes : List Byte)
  | smbNack
  | tdo (id : List (BitVec 32))
  | busError
  | dramData (bytes : List (Option Byte))
  | guestData (bytes : List Byte)
  | guestError
  | faultInterrupt
  | errN (level : Bool)
  deriving DecidableEq, Repr

/-- What a die's capability word says of it (R333): revision, network version, feature bits. Fixed with the part; assumption
log 17 names the values of an unlisted die. -/
structure DieCap where
  rev : Nat := 0x10
  netver : Nat := 1
  feat : Nat := 7
  deriving DecidableEq, Repr

/-- Where a step stops the model with a fault. -/
inductive Fault where
  /-- DRAM_READ or DRAM_WRITE names an address at which no stack lies on any variant or a stack absent from this one
  (R281): the spec says it does not exist. Safe: the model stops. -/
  | absentAddress
  deriving DecidableEq, Repr

/-- Where a step stops because the spec gives the command no effect. -/
inductive Refusal where
  /-- Raised by no meaning; a command the model has not reached. Safe. -/
  | notModelled (mnemonic : String)
  /-- REGISTER_WRITE into the guest die's window outside the blocks the spec gives every die: a third party's die whose
  registers the spec does not give. Safe. -/
  | guestWindow
  /-- REGISTER_WRITE to an offset of a present die at which the spec gives no register. Safe. -/
  | unlistedRegister
  deriving DecidableEq, Repr

/-- The whole package. `cwKey`: the key number each 64 B codeword of DRAM was last written under. `cwErr`: the bits of a
codeword, in codeword bit order, that differ from what the code gives its data (R288, R292). `spErr`: a 16 B unit of scratchpad
with more than one bit in error (2), with the poison mark (3), or with one bit in error (4 + its number) (R127). `cross`: crossing queues (R34), a module's as die x 32 + module, a link's as 1024 + link; `d2dKeep`: module ends
retraining without a reset (R338), as die x 32 + module; `fwHeld`: writes of a firewall window (window, word, value) that wait for
requests admitted under it (R342); `remaps`: the channels, as bits, that a stack's running remap takes out (R298); `regOwed`: by
regulator, what runs still owe and the thousandths of a byte credited (R356); `lineUp`: reporting lines (die, line) whose last word has
not returned to the spacer (R385); `romKey`: Suelm's public key in the boot ROM (R370); `positions`: a tile's physical position (R343) as Hob x 104 + position, its index there if
unlisted; `reconciled`: the repair map has been reconciled (R345, R406). -/
structure State where
  pending : List Instr := []
  variant : Variant := .trnF24
  romKey : List Byte := []
  guestId : Nat := 0
  caps : Tab DieCap := []
  regs : Tab Word := []
  mem : List Host.Cell := []
  cwKey : Tab Nat := []
  cwErr : Tab Nat := []
  spErr : Tab Nat := []
  tiles : Tab Tile := []
  tags : List (Nat × Nat) := []
  msgs : List ChMsg := []
  handles : Tab SlEnd := []
  flights : List SlFlight := []
  slCredits : List SlCredit := []
  linkCredits : Tab (List SlCredit) := []
  groups : Tab AlGroup := []
  blockReports : List (Nat × Nat) := []
  rings : List FilRing := []
  colls : Tab Coll := []
  gsteps : List GStep := []
  rxSeq : Nat := 0
  exch : Tab ExState := []
  streams : Tab Stream := []
  samples : List Sample := []
  mdl : Mandoline := {}
  links : Tab Link := []
  unitIn : List LkCell := []
  cross : Tab Crossing := []
  remaps : Tab Nat := []
  regOwed : Tab (Nat × Nat) := []
  lineUp : List (Nat × Nat) := []
  d2dKeep : List Nat := []
  fwHeld : List (Nat × Nat × Word) := []
  positions : Tab Nat := []
  tap : TapIr := .idcode
  parts : Tab Part := []
  regWaits : Tab (List RegWait) := []
  reports : List Report := []
  brokenLines : List (Nat × Nat) := []
  recs : Tab FcRec := []
  recOrder : Nat := 0
  govs : Tab Gov := []
  reconciled : Bool := false
  pins : Pins := {}
  ns : Tab Nat := []
  rot : Rot := {}
  emmc : Emmc := {}
  mgmt : Mgmt := {}
  freeIdx : Nat := 0
  out : List Out := []
  deriving DecidableEq, Repr

/-- The machine right after reset (R400, R403): the input in range, every rail in regulation, RESET_N risen, the boot ROM
about to run; every register at its reset value, nothing placed, no frame owned. Assumption logs 3, 9 and 10 name the values
the spec does not give. -/
def State.reset : State :=
  { pins := { vin := 52000, inputOn := true, pwrEn := true, resetN := true, released := true, counting := true,
              pwrOk := true, powered := true, okNs := 1000000 } }

end Sys2Proof.Machine
end

