-- ==== Sys2Proof/Machine/Tab.lean ====
section
/-! DEFINITION. Operations on sparse tables and on the memory, whose unlisted bytes read zero. -/
namespace Sys2Proof

/-- The entry at `k`, or `d` where none is listed. -/
def Tab.val {α : Type} (t : Tab α) (d : α) (k : Nat) : α :=
  match t with
  | [] => d
  | (k', v) :: r => if k' = k then v else Tab.val r d k

/-- The entry at `k`, if listed. -/
def Tab.find {α : Type} (t : Tab α) (k : Nat) : Option α :=
  match t with
  | [] => none
  | (k', v) :: r => if k' = k then some v else Tab.find r k

/-- Sets the entry at `k`, keeping the keys rising. -/
def Tab.put {α : Type} (t : Tab α) (k : Nat) (v : α) : Tab α :=
  match t with
  | [] => [(k, v)]
  | (k', v') :: r => if k' < k then (k', v') :: Tab.put r k v else if k' = k then (k, v) :: r else (k, v) :: (k', v') :: r

/-- Removes the entry at `k`. -/
def Tab.del {α : Type} (t : Tab α) (k : Nat) : Tab α :=
  match t with
  | [] => []
  | (k', v) :: r => if k' = k then Tab.del r k else (k', v) :: Tab.del r k

namespace Machine

/-- One byte of memory; an unlisted address reads zero (assumption log 1). -/
def Mem.read (m : List Host.Cell) (a : Nat) : Byte :=
  match m with
  | [] => 0
  | (k, v) :: r => if k = a then v else Mem.read r a

/-- Stores one byte, keeping the canonical form: keys rising, no zero listed. -/
def Mem.write (m : List Host.Cell) (a : Nat) (b : Byte) : List Host.Cell :=
  match m with
  | [] => if b = 0 then [] else [(a, b)]
  | (k, v) :: r =>
    if k < a then (k, v) :: Mem.write r a b
    else if k = a then (if b = 0 then r else (a, b) :: r)
    else if b = 0 then (k, v) :: r else (a, b) :: (k, v) :: r

/-- All keys of a memory lie above `lo`, rise strictly, and no listed byte is zero. -/
def Mem.wfFrom : Option Nat → List Host.Cell → Bool
  | _, [] => true
  | lo, (k, v) :: r => (match lo with | none => true | some l => decide (l < k)) && decide (v ≠ 0) && Mem.wfFrom (some k) r

/-- The canonical form of the memory. -/
def Mem.wf (m : List Host.Cell) : Bool := Mem.wfFrom none m

/-- `n` bytes from address `a`. -/
def Mem.readN (m : List Host.Cell) (a : Nat) : Nat → List Byte
  | 0 => []
  | n + 1 => Mem.read m a :: Mem.readN m (a + 1) n

/-- Stores bytes at rising addresses from `a`. -/
def Mem.writeN (m : List Host.Cell) (a : Nat) : List Byte → List Host.Cell
  | [] => m
  | b :: bs => Mem.writeN (Mem.write m a b) (a + 1) bs

end Machine
end Sys2Proof
end

