-- ==== Sys2Proof/Machine/Regs.lean ====
section
/-! DEFINITION. Control space: what each variant carries (R1, R2), the address of a register, its reset value, and the
accessors every read and write of a register goes through. -/
namespace Sys2Proof.Machine

/-- CAP_DIES of a variant (R2). -/
def capDies : Variant → Nat
  | .trnF24 => 0x7FF
  | .trnC18 => 0x33F
  | .trnG24 => 0xFFF

/-- CAP_LINKS of a variant (R2). -/
def capLinks : Variant → Nat
  | .trnC18 => 0x1FF1FF
  | _ => 0xFFFFFF

/-- CAP_STACKS of a variant (R2). -/
def capStacks : Variant → Nat
  | .trnC18 => 0x3FFFF
  | _ => 0xFFFFFF

/-- CAP_VARIANT.VARIANT (R1). -/
def pstateCode : PState → Nat
  | .empty => 0
  | .idle => 1
  | .placing => 2
  | .running => 3
  | .ending => 4
  | .fenced => 5

def variantCode : Variant → Nat
  | .trnF24 => 1
  | .trnC18 => 2
  | .trnG24 => 3

def natBit (n i : Nat) : Bool := (n / 2 ^ i) % 2 == 1

/-- The natural number with bit `i` set, or cleared. -/
def natSet (n i : Nat) (b : Bool) : Nat :=
  if b then (if natBit n i then n else n + 2 ^ i) else (if natBit n i then n - 2 ^ i else n)

def State.diePresent (s : State) (d : Nat) : Bool := natBit (capDies s.variant) d
def State.linkPresent (s : State) (l : Nat) : Bool := natBit (capLinks s.variant) l
def State.stackPresent (s : State) (m : Nat) : Bool := natBit (capStacks s.variant) m

/-- Whether tile `t` exists on this variant: t = die x 96 + index (chapter 00). -/
def State.tilePresent (s : State) (t : Nat) : Bool := decide (t < 768) && s.diePresent (t / 96)

def dieMerA : Nat := 8
def dieMerB : Nat := 9
def dieMdl : Nat := 10
def dieGuest : Nat := 11

/-- The Meridian that serves link `l` (R325). -/
def linkDie (l : Nat) : Nat := if l < 12 then dieMerA else dieMerB

/-- The address of offset `off` of die `d`'s control window (chapter 00). -/
def ctlAddr (d off : Nat) : Nat := 0x300000000000 + d * 0x100000000 + off

/-- The reset severity of a fault source (R390); 0 for a reserved number. -/
def sevReset (n : Nat) : Nat :=
  if n < 0x10 then [3, 0, 3, 1, 0, 1].getD n 0
  else if n < 0x29 then
    [1, 3, 2, 4, 1, 1, 1, 2, 0, 0, 1, 1, 3, 1, 1, 1, 3, 3, 3, 3, 1, 3, 1, 1, 1].getD (n - 0x10) 0
  else if 0x30 ≤ n && n < 0x34 then [1, 3, 1, 3].getD (n - 0x30) 0
  else 0

/-- Whether R390 lists a source number. -/
def sevListed (n : Nat) : Bool :=
  decide (n < 6) || (decide (0x10 ≤ n) && decide (n < 0x29)) || (decide (0x30 ≤ n) && decide (n < 0x34))

/-- The condition sources of R390. -/
def condSource (n : Nat) : Bool := [0x10, 0x11, 0x12, 0x13, 0x17, 0x1D, 0x23, 0x24, 0x25, 0x32].contains n

/-- DIE_CAP (R333): REV, NETVER and the feature bits are fixed with the part (assumption log 17). -/
def State.dieCapWord (s : State) (d : Nat) : Nat :=
  let kind := if d < 8 then 1 else if d < 10 then 2 else if d == 10 then 3 else 4
  let c := s.caps.val {} d
  kind * 2 ^ 56 + c.rev % 256 * 2 ^ 48 + c.netver % 256 * 2 ^ 40 + c.feat % 8

/-- PKG_FEAT: the AND of the feature bits over the dies of a mask (R333). -/
def State.pkgFeat (s : State) (dies : Nat) : Nat :=
  (List.range 12).foldl (fun a d => if natBit dies d then a &&& (s.caps.val {} d).feat else a) 7

/-- Reset values within a Hob's window. -/
def hobReset (off : Nat) : Nat :=
  if 0x600000 ≤ off && off < 0x6000C0 then (if (off - 0x600000) % 0x40 == 0 then 1 else 0)
  else if 0x900000 ≤ off && off < 0x903000 then
    let o := (off - 0x900000) % 0x1000
    if o == 8 then 0x1000 * 2 ^ 32 + 0x18 * 2 ^ 24
    else if 0x100 ≤ o && o < 0x300 && o % 0x20 == 0 then 0x3F
    else 0
  else if 0xA00000 ≤ off && off < 0xA0C000 then 0xFFFFFFFFFFFFFFFF
  else 0

/-- Reset values that both Meridians share. -/
def merReset (off : Nat) : Nat :=
  if off == 0x810000 then 2 ^ 62 + 2 ^ 61 + 0x5D20
  else if 0xC00000 ≤ off && off < 0xC0C000 && off % 0x1000 == 0 then 0x1F * 2 ^ 55 + 0x100 * 2 ^ 32
  else if 0x1100000 ≤ off && off < 0x1101000 && off % 0x200 < 0x190 then
    (if off % 0x10 == 0 then 2 ^ 32 + 0x10000 else 0x10000)
  else 0

/-- Reset values of Meridian-A alone. -/
def State.merAReset (s : State) (off : Nat) : Nat :=
  let v := s.variant
  if off == 0x000 then variantCode v * 2 ^ 24 + 0x010000
  else if off == 0x008 then capDies v
  else if off == 0x010 then capLinks v
  else if off == 0x018 then capStacks v
  else if off == 0x020 then (match v with | .trnG24 => s.guestId % 2 ^ 32 | _ => 0)
  else if off == 0x1008 then s.pkgFeat (capDies v)
  else if off == 0x2100 then 0x1068
  else if off == 0x2108 then 0x1388 * 2 ^ 32
  else if 0x800000 ≤ off && off < 0x810000 then (if off % 0x40 == 0x10 then 0x64 * 2 ^ 48 + 0x4000 else 0)
  else if 0xF00008 ≤ off && off < 0xF00048 then 0x08000000
  else if off == 0xF00100 then capDies v
  else if off == 0x1200000 then 0x102
  else if off == 0x1200008 then 2 ^ 63
  else if 0x1201000 ≤ off && off < 0x1203000 then
    let n := (off - 0x1201000) / 8
    if n < 16 then 0 else sevReset n
  else if 0x1204000 ≤ off && off < 0x1204400 then sevReset ((off - 0x1204000) / 8 % 16)
  else merReset off

/-- The reset value of the register at offset `off` of die `d`; zero where no table gives another. -/
def State.regReset (s : State) (d off : Nat) : Nat :=
  if off == 0x1000 then s.dieCapWord d
  else if off == 0x2000 then 0x3FC
  else if off == 0x2008 then 0x258 * 2 ^ 16
  else if off == 0x2010 then 0x5F
  else if d < 8 then hobReset off
  else if d == 8 then s.merAReset off
  else if d == 9 then merReset off
  else if d == 10 then
    (if off == 0x10080 then 0x04000000 * 2 ^ 32 + 0x04000000
     else if off == 0x10088 then 0x2710 * 2 ^ 32 + 0x02000000 else 0)
  else 0

/-- The stored word of a register. -/
def State.rg (s : State) (d off : Nat) : Word := s.regs.val (BitVec.ofNat 64 (s.regReset d off)) (ctlAddr d off)

/-- Sets a register's stored word. -/
def State.setRg (s : State) (d off : Nat) (v : Word) : State := { s with regs := s.regs.put (ctlAddr d off) v }

/-- A field of a register. -/
def State.rf (s : State) (d off hi lo : Nat) : Nat := fld (s.rg d off) hi lo

/-- A bit of a register. -/
def State.rb (s : State) (d off i : Nat) : Bool := bitOf (s.rg d off) i

/-- Sets a field of a register. -/
def State.setRf (s : State) (d off hi lo v : Nat) : State := s.setRg d off (setFld (s.rg d off) hi lo v)

/-- Sets a bit of a register. -/
def State.setRb (s : State) (d off i : Nat) (b : Bool) : State := s.setRg d off (setBit (s.rg d off) i b)

/-- Raises a 64-bit count. -/
def State.addRg (s : State) (d off n : Nat) : State := s.setRg d off (s.rg d off + BitVec.ofNat 64 n)

/-- Raises a field that holds at its largest value. -/
def State.satRf (s : State) (d off hi lo n : Nat) : State :=
  s.setRf d off hi lo (satAt (s.rf d off hi lo + n) (2 ^ (hi - lo + 1) - 1))

/-- Offsets of the block of a tile, by the tile's place on its Hob. -/
def filOff (t : Nat) : Nat := 0x400000 + t % 96 * 0x20
def tlOff (t : Nat) : Nat := 0x500000 + t % 96 * 0x20
def trapOff (t : Nat) : Nat := 0x580000 + t % 96 * 0x20

/-- The memory block of stack `m` (R301) and its MSA block (R237), in Hob m / 3. -/
def memOff (m : Nat) : Nat := 0x900000 + m % 3 * 0x1000
def chOff (m c : Nat) : Nat := memOff m + 0x100 + c * 0x20
def ownOff (m w : Nat) : Nat := 0xA00000 + m % 3 * 0x4000 + 8 * w
def msaOff (m : Nat) : Nat := 0x600000 + m % 3 * 0x40

/-- The block of link `l` (R325) and of collective `h` (R217). -/
def lkOff (l : Nat) : Nat := 0xC00000 + l % 12 * 0x1000
def rxOff (h : Nat) : Nat := 0x600000 + h * 0x100

/-- A free value and the state with its index advanced (assumption log 2). -/
def State.draw (s : State) : Nat × State := (s.freeIdx, { s with freeIdx := s.freeIdx + 1 })

/-- Adds to what the package has sent. -/
def State.emit (s : State) (o : Out) : State := { s with out := s.out ++ [o] }

/-- What stands for the position of a logical index that has none (R343): past the last of the eight Hobs' 104. -/
def lostPos : Nat := 832

/-! Crossing queues (R32, R34): module `m` of die `d` is queue d x 32 + m, link `l` is queue 1024 + l. -/

def State.crossing (s : State) (q : Nat) : Crossing := s.cross.val {} q

/-- The source counts one more entry; the destination takes its sample, and with it every entry counted by then (R32). -/
def State.crossPut (s : State) (q : Nat) : State :=
  { s with cross := s.cross.put q { s.crossing q with sent := grayOf (grayTo (s.crossing q).sent + 1) } }
def State.crossTake (s : State) (q : Nat) : State :=
  { s with cross := s.cross.put q { s.crossing q with seen := (s.crossing q).sent } }

/-- Entries counted by the source since the destination's last sample. -/
def State.crossNew (s : State) (q : Nat) : Nat := grayNew (s.crossing q).seen (s.crossing q).sent

/-- A reset of a side: both sides hold their pointers at zero and traffic stops until each holds the other's answer; one that
comes during the sequence starts it again (R34). -/
def State.crossReset (s : State) (q : Nat) : State := { s with cross := s.cross.put q { resync := true } }

/-- Each side holds the other's answer: traffic resumes (R34). -/
def State.crossResume (s : State) (q : Nat) : State := { s with cross := s.cross.del q }

/-- The block of module `m` in a die's window, and D2D_STATUS.STATE: 0 DOWN, 1 TRAINING, 2 READBACK, 3 ACTIVE, 4 FAILED (R339). -/
def d2dOff (m : Nat) : Nat := 0xD00000 + m * 0x100
def State.d2dState (s : State) (d m : Nat) : Nat := s.rf d (d2dOff m) 63 61

/-- Whether traffic flows through a module: it has committed, and its crossing queue has resynchronised (R34, R335). -/
def State.moduleOpen (s : State) (d m : Nat) : Bool := s.d2dState d m == 3 && !(s.crossing (d * 32 + m)).resync

/-- Whether traffic passes a join of a Meridian's modules 20 and 21: through either while the other is down (R332). -/
def State.joinOpen (s : State) (mer : Nat) : Bool := s.moduleOpen mer 20 || s.moduleOpen mer 21

/-- The local counter of a die, modulo 2^64 (R35). -/
def State.now (s : State) (d : Nat) : Nat := s.ns.val 0 d

/-! Dies and tile groups out of service (R333, R346, R387). -/

/-- Dies fenced (R333). -/
def State.dieFenced (s : State) (d : Nat) : Bool := s.rb dieMerA 0x1010 d

/-- REP_LOST_k.GROUPS of a Hob. -/
def repLostOff (k : Nat) : Nat := 0xF00008 + 8 * k
def State.groupLost (s : State) (j : Nat) : Bool := s.rb dieMerA (repLostOff (j / 12)) (j % 12)

/-- Whether jobs may use tile group `j`: its Hob is there and not fenced, and no tile of it is lost or retired (R346, R349, R387). -/
def State.groupServes (s : State) (j : Nat) : Bool := s.diePresent (j / 12) && !s.dieFenced (j / 12) && !s.groupLost j

end Sys2Proof.Machine
end

