-- ==== Sys2Proof/Machine/Clock.lean ====
section
/-! DEFINITION. The local counters (R35). -/
namespace Sys2Proof.Machine

/-- One nanosecond on every die whose counter runs: a die of the variant, from the rails' coming into regulation to power-off, but for
a reset by RESET_N, which holds it at zero (R35, R401; assumption log 64). Every counter wraps at 64 bits. The time PWR_OK has been high is counted to
1 ms (R400), and an eMMC write is over (R405; assumption log 71). -/
def State.tick (s : State) : State :=
  let s := { s with emmc := { s.emmc with writing := none } }
  let s := if s.pins.pwrOk then { s with pins := { s.pins with okNs := min 1000000 (s.pins.okNs + 1) } } else s
  if s.pins.powered && s.pins.counting then
    { s with ns := (List.range 12).foldl (fun c d =>
        if s.diePresent d then c.put d ((c.val 0 d + 1) % 2 ^ 64) else c) s.ns }
  else s

end Sys2Proof.Machine
end

