-- ==== Sys2Proof/Machine/Crypto.lean ====
section
/-! DEFINITION. The cryptography that chapters 13, 14 and 17 name by their standards: SHA-256 (FIPS 180-4), HMAC (FIPS 198-1), the counter
mode KDF (SP 800-108), AES-256 (FIPS 197) in XTS (SP 800-38E) and GCM (SP 800-38D), Keccak (FIPS 202), ML-KEM-1024 (FIPS 203), LMS and HSS
(RFC 8554, SP 800-208). -/
namespace Sys2Proof.Machine

/-- XOR of two strings of bytes. -/
def xorBytes (a b : List Byte) : List Byte := List.zipWith (fun x y => x ^^^ y) a b

/-- A list cut or padded with zeros to `n` bytes. -/
def fixLen (n : Nat) (bs : List Byte) : List Byte := (bs ++ List.replicate n 0).take n

/-- The value of bytes, most significant first. -/
def beNat (bs : List Byte) : Nat := bs.foldl (fun a b => a * 256 + b.toNat) 0

/-- The first `n` groups of `k` elements. -/
def groupsOf {α : Type} (k : Nat) : Nat → List α → List (List α)
  | 0, _ => []
  | n + 1, l => l.take k :: groupsOf k n (l.drop k)

/-! SHA-256. -/

def shaK : List (BitVec 32) :=
  [0x428a2f98, 0x71374491, 0xb5c0fbcf, 0xe9b5dba5, 0x3956c25b, 0x59f111f1, 0x923f82a4, 0xab1c5ed5,
   0xd807aa98, 0x12835b01, 0x243185be, 0x550c7dc3, 0x72be5d74, 0x80deb1fe, 0x9bdc06a7, 0xc19bf174] ++
  [0xe49b69c1, 0xefbe4786, 0x0fc19dc6, 0x240ca1cc, 0x2de92c6f, 0x4a7484aa, 0x5cb0a9dc, 0x76f988da,
   0x983e5152, 0xa831c66d, 0xb00327c8, 0xbf597fc7, 0xc6e00bf3, 0xd5a79147, 0x06ca6351, 0x14292967] ++
  [0x27b70a85, 0x2e1b2138, 0x4d2c6dfc, 0x53380d13, 0x650a7354, 0x766a0abb, 0x81c2c92e, 0x92722c85,
   0xa2bfe8a1, 0xa81a664b, 0xc24b8b70, 0xc76c51a3, 0xd192e819, 0xd6990624, 0xf40e3585, 0x106aa070] ++
  [0x19a4c116, 0x1e376c08, 0x2748774c, 0x34b0bcb5, 0x391c0cb3, 0x4ed8aa4a, 0x5b9cca4f, 0x682e6ff3,
   0x748f82ee, 0x78a5636f, 0x84c87814, 0x8cc70208, 0x90befffa, 0xa4506ceb, 0xbef9a3f7, 0xc67178f2]

def shaInit : List (BitVec 32) :=
  [0x6a09e667, 0xbb67ae85, 0x3c6ef372, 0xa54ff53a, 0x510e527f, 0x9b05688c, 0x1f83d9ab, 0x5be0cd19]

/-- One round: the window of sixteen schedule words and the eight working words. -/
def shaRound (s : List (BitVec 32) × List (BitVec 32)) (k : BitVec 32) : List (BitVec 32) × List (BitVec 32) :=
  match s with
  | ([w0, w1, w2, w3, w4, w5, w6, w7, w8, w9, w10, w11, w12, w13, w14, w15], [a, b, c, d, e, f, g, h]) =>
    let t1 := h + (e.rotateRight 6 ^^^ e.rotateRight 11 ^^^ e.rotateRight 25) + ((e &&& f) ^^^ (~~~e &&& g)) + k + w0
    let t2 := (a.rotateRight 2 ^^^ a.rotateRight 13 ^^^ a.rotateRight 22) + ((a &&& b) ^^^ (a &&& c) ^^^ (b &&& c))
    let w := (w14.rotateRight 17 ^^^ w14.rotateRight 19 ^^^ w14 >>> 10) + w9
      + (w1.rotateRight 7 ^^^ w1.rotateRight 18 ^^^ w1 >>> 3) + w0
    ([w1, w2, w3, w4, w5, w6, w7, w8, w9, w10, w11, w12, w13, w14, w15, w], [t1 + t2, a, b, c, d + t1, e, f, g])
  | s => s

/-- The blocks of a padded message in order. -/
def shaBlocks : Nat → List Byte → List (BitVec 32) → List (BitVec 32)
  | 0, _, v => v
  | n + 1, bs, v =>
    let w := (groupsOf 4 16 bs).map fun b => BitVec.ofNat 32 (beNat b)
    shaBlocks n (bs.drop 64) (List.zipWith (fun x y => x + y) v (shaK.foldl shaRound (w, v)).2)

def sha256 (bs : List Byte) : List Byte :=
  let p := bs ++ 0x80 :: (List.replicate ((119 - bs.length % 64) % 64) 0 ++ beBytes 8 (8 * bs.length))
  (shaBlocks (p.length / 64) p shaInit).flatMap fun w => beBytes 4 w.toNat

def hmac (key bs : List Byte) : List Byte :=
  let k := fixLen 64 (if key.length > 64 then sha256 key else key)
  sha256 (k.map (· ^^^ 0x5c) ++ sha256 (k.map (· ^^^ 0x36) ++ bs))

/-- `n` bytes of the counter-mode KDF: a 32-bit counter from 1, the label, a zero byte, an empty context and the length in bits as 32 bits
(R364; assumption log 71). -/
def kdf (key label : List Byte) (n : Nat) : List Byte :=
  ((List.range ((n + 31) / 32)).flatMap fun i => hmac key (beBytes 4 (i + 1) ++ label ++ [0] ++ beBytes 4 (8 * n))).take n

/-! AES-256. A block is its 16 bytes in order, column by column. -/

def aesTable : Nat :=
  0x16bb54b00f2d99416842e6bf0d89a18cdf2855cee9871e9b948ed9691198f8e19e1dc186b95735610ef6034866b53e708a8bbd4b1f74dde8c6b4a61c2e2578ba08ae7a65eaf4566ca94ed58d6d37c8e779e4959162acd3c25c2406490a3a32e0db0b5ede14b8ee4688902a22dc4f816073195d643d7ea7c41744975fec130ccdd2f3ff1021dab6bcf5389d928f40a351a89f3c507f02f94585334d43fbaaefd0cf584c4a39becb6a5bb1fc20ed00d153842fe329b3d63b52a05a6e1b1a2c830975b227ebe28012079a059618c323c7041531d871f1e5a534ccf73f362693fdb7c072a49cafa2d4adf04759fa7dc982ca76abd7fe2b670130c56f6bf27b777c63

def aesInvTable : Nat :=
  0x7d0c2155631469e126d677ba7e042b17619953833cbbebc8b0f52aae4d3be0a0ef9cc9939f7ae52d0d4ab519a97f51605fec8027591012b131c7078833a8dd1ff45acd78fec0db9a2079d2c64b3e56fc1bbe18aa0e62b76f89c5291d711af1476edf751ce837f9e28535ade72274ac9673e6b4f0cecff297eadc674f4111913a6b8a130103bdafc1020f3fca8f1e2cd00645b3b80558e4f70ad3bc8c00abd890849d8da75746155edab9edfd5048706c92b6655dcc5ca4d41698688664f6f87225d18b6d49a25b76b224d92866a12e084ec3fa420b954cee3d23c2a632947b54cbe9dec444438e3487ff2f9b8239e37cfbd7f3819ea340bf38a53630d56a0952

def tableByte (t : Nat) (x : Byte) : Byte := BitVec.ofNat 8 (t >>> (8 * x.toNat))

def xtimes (x : Byte) : Byte := if x.getLsbD 7 then (x <<< 1) ^^^ 0x1b else x <<< 1

/-- A product in GF(2^8) by one of the numbers below 16. -/
def gmulSmall (n : Nat) (x : Byte) : Byte :=
  let t (i : Nat) (y : Byte) : Byte := if n.testBit i then y else 0
  let x2 := xtimes x
  let x4 := xtimes x2
  t 0 x ^^^ t 1 x2 ^^^ t 2 x4 ^^^ t 3 (xtimes x4)

/-- Columns multiplied by the circulant matrix of these four numbers. -/
def mixWith (m : List Nat) (b : List Byte) : List Byte :=
  (groupsOf 4 4 b).flatMap fun c => (List.range 4).map fun i =>
    (List.range 4).foldl (fun a j => a ^^^ gmulSmall (m.getD ((j + 4 - i) % 4) 0) (c.getD j 0)) 0

/-- Row r of a block turned left by r, and turned back. -/
def shiftRows (b : List Byte) : List Byte := (List.range 16).map fun i => b.getD (5 * i % 16) 0
def unshiftRows (b : List Byte) : List Byte := (List.range 16).map fun i => b.getD (13 * i % 16) 0

/-- The 15 round keys of a 32 B key. -/
def aesKeys (key : List Byte) : List (List Byte) :=
  let sub (w : List Byte) : List Byte := w.map (tableByte aesTable)
  let rcon (i : Nat) : Byte := BitVec.ofNat 8 (2 ^ (i / 8 - 1))
  let step (ws : List (List Byte)) (i : Nat) : List (List Byte) :=
    let t := ws.getD 0 []
    let t := if i % 8 == 0 then xorBytes (sub (t.drop 1 ++ t.take 1)) [rcon i, 0, 0, 0] else if i % 8 == 4 then sub t else t
    xorBytes (ws.getD 7 []) t :: ws
  groupsOf 16 15 ((((List.range 52).map (· + 8)).foldl step (groupsOf 4 8 (fixLen 32 key)).reverse).reverse.flatten)

/-- A block enciphered, and deciphered, under round keys. -/
def aesWith (ks : List (List Byte)) (b : List Byte) : List Byte :=
  match ks with
  | k0 :: r =>
    let b := (r.take 13).foldl (fun b k => xorBytes (mixWith [2, 3, 1, 1] (shiftRows (b.map (tableByte aesTable)))) k) (xorBytes b k0)
    xorBytes (shiftRows (b.map (tableByte aesTable))) (r.getD 13 [])
  | [] => b

def aesBack (ks : List (List Byte)) (b : List Byte) : List Byte :=
  match ks.reverse with
  | k0 :: r =>
    let back (b : List Byte) : List Byte := (unshiftRows b).map (tableByte aesInvTable)
    let b := (r.take 13).foldl (fun b k => mixWith [14, 11, 13, 9] (xorBytes (back b) k)) (xorBytes b k0)
    xorBytes (back b) (r.getD 13 [])
  | [] => b

/-- The tweak of each block of a unit: doubled in GF(2^128), little-endian (SP 800-38E). -/
def xtsTweaks : Nat → Nat → List (List Byte)
  | 0, _ => []
  | n + 1, t => leBytes 16 t :: xtsTweaks n ((2 * t % 2 ^ 128) ^^^ (if t ≥ 2 ^ 127 then 0x87 else 0))

/-- A unit of whole blocks under an XTS key pair: its blocks in ascending order, each under its tweak (R295). -/
def xtsUnit (block : List (List Byte) → List Byte → List Byte) (key : List Byte) (tweak : Nat) (bs : List Byte) : List Byte :=
  let ks := aesKeys (key.take 32)
  let n := bs.length / 16
  let t := leNat (aesWith (aesKeys (key.drop 32)) (leBytes 16 tweak))
  (List.zipWith (fun b w => xorBytes (block ks (xorBytes b w)) w) (groupsOf 16 n bs) (xtsTweaks n t)).flatten

def xtsEnc : List Byte → Nat → List Byte → List Byte := xtsUnit aesWith
def xtsDec : List Byte → Nat → List Byte → List Byte := xtsUnit aesBack

/-- A product in GF(2^128) as GCM numbers its bits. -/
def ghashTimes (x y : BitVec 128) : BitVec 128 :=
  ((List.range 128).foldl (fun (s : BitVec 128 × BitVec 128) i =>
    (if x.getMsbD i then s.1 ^^^ s.2 else s.1,
     if s.2.getLsbD 0 then (s.2 >>> 1) ^^^ 0xe1000000000000000000000000000000 else s.2 >>> 1)) (0, y)).1

/-- Zeros up to a whole number of blocks. -/
def padBlock (bs : List Byte) : List Byte := bs ++ List.replicate ((16 - bs.length % 16) % 16) 0

def ghash (h : BitVec 128) (bs : List Byte) : BitVec 128 :=
  (groupsOf 16 (bs.length / 16) bs).foldl (fun y b => ghashTimes (y ^^^ BitVec.ofNat 128 (beNat b)) h) 0

/-- GCM's counter mode from the block after `iv`'s first; it is its own inverse. -/
def gcmCtr (key iv bs : List Byte) : List Byte :=
  let ks := aesKeys key
  let n := (bs.length + 15) / 16
  xorBytes bs ((List.range n).flatMap fun i => aesWith ks (iv ++ beBytes 4 (i + 2)))

/-- The 16 B tag of a ciphertext and its additional data under a 96-bit IV. -/
def gcmTag (key iv aad ct : List Byte) : List Byte :=
  let ks := aesKeys key
  let h := BitVec.ofNat 128 (beNat (aesWith ks (List.replicate 16 0)))
  let y := ghash h (padBlock aad ++ padBlock ct ++ beBytes 8 (8 * aad.length) ++ beBytes 8 (8 * ct.length))
  xorBytes (beBytes 16 y.toNat) (aesWith ks (iv ++ [0, 0, 0, 1]))

/-! Keccak: lane x, y of the state is element x + 5y. -/

def keccakRc : List Word :=
  [0x0000000000000001, 0x0000000000008082, 0x800000000000808a, 0x8000000080008000, 0x000000000000808b, 0x0000000080000001,
   0x8000000080008081, 0x8000000000008009, 0x000000000000008a, 0x0000000000000088, 0x0000000080008009, 0x000000008000000a,
   0x000000008000808b, 0x800000000000008b, 0x8000000000008089, 0x8000000000008003, 0x8000000000008002, 0x8000000000000080,
   0x000000000000800a, 0x800000008000000a, 0x8000000080008081, 0x8000000000008080, 0x0000000080000001, 0x8000000080008008]

def keccakRot : List Nat :=
  [0, 1, 62, 28, 27, 36, 44, 6, 55, 20, 3, 10, 43, 25, 39, 41, 45, 15, 21, 8, 18, 2, 61, 56, 14]

def keccakRound (a : List Word) (rc : Word) : List Word :=
  let l (a : List Word) (x y : Nat) : Word := a.getD (x % 5 + 5 * (y % 5)) 0
  let c := (List.range 5).map fun x => l a x 0 ^^^ l a x 1 ^^^ l a x 2 ^^^ l a x 3 ^^^ l a x 4
  let d := (List.range 5).map fun x => c.getD ((x + 4) % 5) 0 ^^^ (c.getD ((x + 1) % 5) 0).rotateLeft 1
  let e := a.mapIdx fun i w => (w ^^^ d.getD (i % 5) 0).rotateLeft (keccakRot.getD i 0)
  let b := (List.range 25).map fun i => l e (i % 5 + 3 * (i / 5)) (i % 5)
  (List.range 25).map fun i =>
    let v := l b i (i / 5) ^^^ (~~~(l b (i + 1) (i / 5)) &&& l b (i + 2) (i / 5))
    if i == 0 then v ^^^ rc else v

def keccakF (a : List Word) : List Word := keccakRc.foldl keccakRound a

def absorb (rate : Nat) : Nat → List Byte → List Word → List Word
  | 0, _, a => a
  | n + 1, bs, a =>
    absorb rate n (bs.drop rate) (keccakF (List.zipWith (fun x y => x ^^^ y) a (wordsOf 25 (fixLen 200 (bs.take rate)))))

def squeeze (rate : Nat) : Nat → List Word → List Byte
  | 0, _ => []
  | n + 1, a => (bytesOf a).take rate ++ squeeze rate n (keccakF a)

/-- `n` bytes of the sponge of a rate, with the domain's first padding byte. -/
def sponge (rate : Nat) (dom : Byte) (bs : List Byte) (n : Nat) : List Byte :=
  let z := rate - 1 - bs.length % rate
  let p := if z == 0 then bs ++ [dom ^^^ 0x80] else bs ++ dom :: (List.replicate (z - 1) 0 ++ [0x80])
  (squeeze rate ((n + rate - 1) / rate) (absorb rate (p.length / rate) p (List.replicate 25 0))).take n

def sha3256 (bs : List Byte) : List Byte := sponge 136 0x06 bs 32
def sha3512 (bs : List Byte) : List Byte := sponge 72 0x06 bs 64
def shake128 : List Byte → Nat → List Byte := sponge 168 0x1f
def shake256 : List Byte → Nat → List Byte := sponge 136 0x1f

/-! ML-KEM-1024: polynomials as lists of 256 numbers below q. -/

abbrev Poly := List Nat
def mq : Nat := 3329

def polyAdd (a b : Poly) : Poly := List.zipWith (fun x y => (x + y) % mq) a b
def polySub (a b : Poly) : Poly := List.zipWith (fun x y => (x + mq - y) % mq) a b
def polySum (l : List Poly) : Poly := l.foldl polyAdd (List.replicate 256 0)

/-- Seven bits in reverse. -/
def rev7 (n : Nat) : Nat := (List.range 7).foldl (fun a i => 2 * a + n / 2 ^ i % 2) 0
def zeta (e : Nat) : Nat := 17 ^ (e % 256) % mq

/-- The NTT, block by block: block `k` of a layer splits into blocks 2k and 2k + 1 of the next. -/
def nttGo : Nat → Nat → Poly → Poly
  | 0, _, f => f
  | n + 1, k, f =>
    let a := f.take (f.length / 2)
    let t := (f.drop (f.length / 2)).map fun x => zeta (rev7 k) * x % mq
    nttGo n (2 * k) (polyAdd a t) ++ nttGo n (2 * k + 1) (polySub a t)

def unnttGo : Nat → Nat → Poly → Poly
  | 0, _, f => f
  | n + 1, k, f =>
    let a := unnttGo n (2 * k) (f.take (f.length / 2))
    let b := unnttGo n (2 * k + 1) (f.drop (f.length / 2))
    polyAdd a b ++ (polySub a b).map fun x => zeta (256 - rev7 k) * x % mq

def ntt (f : Poly) : Poly := nttGo 7 1 f
def unntt (f : Poly) : Poly := (unnttGo 7 1 f).map fun x => x * 3303 % mq

/-- The product of two transforms, pair by pair. -/
def nttMulGo : Nat → Poly → Poly → Poly
  | i, a0 :: a1 :: a, b0 :: b1 :: b =>
    (a0 * b0 + a1 * b1 % mq * zeta (2 * rev7 i + 1)) % mq :: (a0 * b1 + a1 * b0) % mq :: nttMulGo (i + 1) a b
  | _, _, _ => []

def nttMul (a b : Poly) : Poly := nttMulGo 0 a b

/-- Numbers of `d` bits packed into bytes, and unpacked. -/
def packBits (d : Nat) (f : List Nat) : List Byte :=
  leBytes (f.length * d / 8) ((f.reverse).foldl (fun a x => a * 2 ^ d + x) 0)

def unpackGo (d : Nat) : Nat → Nat → List Nat
  | 0, _ => []
  | n + 1, v => v % 2 ^ d :: unpackGo d n (v / 2 ^ d)

def unpackBits (d : Nat) (bs : List Byte) : List Nat := unpackGo d (8 * bs.length / d) (leNat bs)

def compressD (d x : Nat) : Nat := (2 * x * 2 ^ d + mq) / (2 * mq) % 2 ^ d
def decompressD (d y : Nat) : Nat := (2 * y * mq + 2 ^ d) / 2 ^ (d + 1)

/-- Rejection sampling of a transform from a stream of bytes. -/
def sampleGo : List Byte → Poly
  | b0 :: b1 :: b2 :: r =>
    let d1 := b0.toNat + 256 * (b1.toNat % 16)
    let d2 := b1.toNat / 16 + 16 * b2.toNat
    (if d1 < mq then [d1] else []) ++ (if d2 < mq then [d2] else []) ++ sampleGo r
  | _ => []

/-- A transform sampled from a seed; the 280 groups of three bytes that FIPS 203 allows as a bound. -/
def sampleNtt (seed : List Byte) : Poly := (sampleGo (shake128 seed 840)).take 256

/-- The centred binomial distribution of parameter 2. -/
def cbd2 (bs : List Byte) : Poly :=
  (unpackBits 4 bs).map fun x => (x % 2 + x / 2 % 2 + mq - x / 4 % 2 - x / 8) % mq

def noise (seed : List Byte) (n : Nat) : Poly := cbd2 (shake256 (seed ++ [BitVec.ofNat 8 n]) 128)

/-- Entry i, j of the matrix. -/
def kemEntry (rho : List Byte) (i j : Nat) : Poly := sampleNtt (rho ++ [BitVec.ofNat 8 j, BitVec.ofNat 8 i])

def nttDot (a b : List Poly) : Poly := polySum (List.zipWith nttMul a b)

/-- The encapsulation key and the secret vector's transform. -/
def kemPair (d : List Byte) : List Byte × List Poly :=
  let g := sha3512 (d ++ [4])
  let rho := g.take 32
  let s := (List.range 4).map fun i => ntt (noise (g.drop 32) i)
  let t := (List.range 4).map fun i =>
    polyAdd (nttDot ((List.range 4).map fun j => kemEntry rho i j) s) (ntt (noise (g.drop 32) (4 + i)))
  (t.flatMap (packBits 12) ++ rho, s)

/-- The 1,568 B encapsulation key of the seed `d`. -/
def kemEk (d : List Byte) : List Byte := (kemPair d).1

def kpkeEnc (ek m r : List Byte) : List Byte :=
  let t := (groupsOf 384 4 ek).map (unpackBits 12)
  let rho := ek.drop 1536
  let y := (List.range 4).map fun i => ntt (noise r i)
  let u := (List.range 4).map fun i =>
    polyAdd (unntt (nttDot ((List.range 4).map fun j => kemEntry rho j i) y)) (noise r (4 + i))
  let v := polyAdd (polyAdd (unntt (nttDot t y)) (noise r 8)) ((unpackBits 1 m).map (decompressD 1))
  (u.flatMap fun p => packBits 11 (p.map (compressD 11))) ++ packBits 5 (v.map (compressD 5))

/-- The shared secret and the 1,568 B ciphertext of an encapsulation with the random bytes `m`. -/
def kemEncaps (ek m : List Byte) : List Byte × List Byte :=
  let g := sha3512 (m ++ sha3256 ek)
  (g.take 32, kpkeEnc ek m (g.drop 32))

/-- The shared secret of a ciphertext under the seeds `d` and `z`. -/
def kemDecaps (d z c : List Byte) : List Byte :=
  let k := kemPair d
  let u := (groupsOf 352 4 c).map fun b => ntt ((unpackBits 11 b).map (decompressD 11))
  let v := (unpackBits 5 ((c.drop 1408).take 160)).map (decompressD 5)
  let m := packBits 1 ((polySub v (unntt (nttDot k.2 u))).map (compressD 1))
  let g := sha3512 (m ++ sha3256 k.1)
  if kpkeEnc k.1 m (g.drop 32) == c then g.take 32 else shake256 (z ++ c) 32

/-! LMS and HSS. -/

/-- A one-time signature's parameter set: its type code, the width of a digit, the digits, and the checksum's shift. -/
structure OtsSet where
  code : Nat
  w : Nat
  p : Nat
  ls : Nat
  deriving DecidableEq, Repr

def otsW4 : OtsSet := { code := 3, w := 4, p := 67, ls := 4 }
def otsW8 : OtsSet := { code := 4, w := 8, p := 34, ls := 0 }

/-- The type code of LMS_SHA256_M32 of a height. -/
def lmsCode (h : Nat) : Nat := if h == 20 then 8 else if h == 15 then 7 else 6

/-- Steps `a` to `b` of chain `i` of leaf `q`. -/
def otsChain (id : List Byte) (q i a b : Nat) (x : List Byte) : List Byte :=
  (List.range (b - a)).foldl (fun x j => sha256 (id ++ beBytes 4 q ++ beBytes 2 i ++ beBytes 1 (a + j) ++ x)) x

/-- The secret start of a chain (RFC 8554, appendix A). -/
def otsSecret (id seed : List Byte) (q i : Nat) : List Byte :=
  sha256 (id ++ beBytes 4 q ++ beBytes 2 i ++ [0xff] ++ seed)

/-- The digits of a message's hash and their checksum. -/
def otsDigits (o : OtsSet) (id : List Byte) (q : Nat) (c msg : List Byte) : List Nat :=
  let digits (bs : List Byte) : List Nat := bs.flatMap fun b => ((unpackGo o.w (8 / o.w) b.toNat).reverse)
  let d := digits (sha256 (id ++ beBytes 4 q ++ [0x81, 0x81] ++ c ++ msg))
  (d ++ digits (beBytes 2 ((d.map fun x => 2 ^ o.w - 1 - x).sum * 2 ^ o.ls))).take o.p

def otsKey (id : List Byte) (q : Nat) (ys : List (List Byte)) : List Byte :=
  sha256 (id ++ beBytes 4 q ++ [0x80, 0x80] ++ ys.flatten)

def otsPublic (o : OtsSet) (id seed : List Byte) (q : Nat) : List Byte :=
  otsKey id q ((List.range o.p).map fun i => otsChain id q i 0 (2 ^ o.w - 1) (otsSecret id seed q i))

def otsSign (o : OtsSet) (id seed : List Byte) (q : Nat) (c msg : List Byte) : List Byte :=
  beBytes 4 o.code ++ c ++ ((otsDigits o id q c msg).mapIdx fun i a => otsChain id q i 0 a (otsSecret id seed q i)).flatten

def lmsLeaf (id : List Byte) (r : Nat) (k : List Byte) : List Byte := sha256 (id ++ beBytes 4 r ++ [0x82, 0x82] ++ k)
def lmsJoin (id : List Byte) (r : Nat) (a b : List Byte) : List Byte := sha256 (id ++ beBytes 4 r ++ [0x83, 0x83] ++ a ++ b)

/-- Node `r` of a tree of height `h`, `n` levels above the leaves. -/
def lmsNode (o : OtsSet) (id seed : List Byte) (h : Nat) : Nat → Nat → List Byte
  | 0, r => lmsLeaf id r (otsPublic o id seed (r - 2 ^ h))
  | n + 1, r => lmsJoin id r (lmsNode o id seed h n (2 * r)) (lmsNode o id seed h n (2 * r + 1))

/-- An LMS public key of 56 B. -/
def lmsPublic (o : OtsSet) (h : Nat) (id root : List Byte) : List Byte := beBytes 4 (lmsCode h) ++ beBytes 4 o.code ++ id ++ root

/-- An LMS signature with leaf `q`, the siblings on its path given. -/
def lmsSign (o : OtsSet) (h : Nat) (id seed : List Byte) (q : Nat) (c : List Byte) (path : List (List Byte)) (msg : List Byte) :
    List Byte :=
  beBytes 4 q ++ otsSign o id seed q c msg ++ beBytes 4 (lmsCode h) ++ path.flatten

/-- The length of an LMS signature. -/
def lmsLen (o : OtsSet) (h : Nat) : Nat := 12 + 32 * (o.p + 1 + h)

/-- Whether an LMS signature of a message verifies under a public key of 56 B. -/
def lmsVerify (o : OtsSet) (h : Nat) (pub msg sig : List Byte) : Bool :=
  let id := (pub.drop 8).take 16
  let q := beAt sig 0 4
  let c := (sig.drop 8).take 32
  let ys := groupsOf 32 o.p (sig.drop 40)
  let k := otsKey id q (List.zipWith (fun (ia : Nat × Nat) y => otsChain id q ia.1 ia.2 (2 ^ o.w - 1) y)
    ((otsDigits o id q c msg).mapIdx fun i a => (i, a)) ys)
  let path := groupsOf 32 h (sig.drop (44 + 32 * o.p))
  let up (s : Nat × List Byte) (t : List Byte) : Nat × List Byte :=
    (s.1 / 2, if s.1 % 2 == 1 then lmsJoin id (s.1 / 2) t s.2 else lmsJoin id (s.1 / 2) s.2 t)
  sig.length == lmsLen o h && beAt sig 4 4 == o.code && beAt sig (40 + 32 * o.p) 4 == lmsCode h && decide (q < 2 ^ h)
    && pub.take 8 == beBytes 4 (lmsCode h) ++ beBytes 4 o.code
    && (path.foldl up (2 ^ h + q, lmsLeaf id (2 ^ h + q) k)).2 == pub.drop 24

/-- Whether a two-level HSS signature of a message verifies under a public key of 60 B. -/
def hssVerify (o : OtsSet) (h0 h1 : Nat) (pub msg sig : List Byte) : Bool :=
  let n := lmsLen o h0
  let key := (sig.drop (4 + n)).take 56
  pub.take 4 == beBytes 4 2 && sig.take 4 == beBytes 4 1 && lmsVerify o h0 (pub.drop 4) key ((sig.drop 4).take n)
    && lmsVerify o h1 key msg (sig.drop (60 + n))

end Sys2Proof.Machine
end

