-- ==== Sys2Proof/Machine/Ecc.lean ====
section
/-! DEFINITION. The code of a DRAM codeword (R288 to R290, R292): a systematic Reed-Solomon (80,64) code over GF(2^8). A pattern of
errors is a number of 640 bits in codeword bit order: symbol `s` holds bits 8s to 8s + 7. -/
namespace Sys2Proof.Machine

/-! Where a symbol travels (R288). -/

/-- The lane of symbol `s`, and the beat and symbol bit `j` of it: data lanes 0 to 31, check lanes 32 to 39. -/
def symLane (s : Nat) : Nat := s / 2
def symBeat (s j : Nat) : Nat := 8 * (s % 2) + j

/-- The bit of the codeword that lane `lane` carries in beat `beat`. -/
def laneBit (lane beat : Nat) : Nat := 8 * (2 * lane + beat / 8) + beat % 8

/-- The 80 symbols of a pattern, and the pattern of symbols. -/
def symsOf (e : Nat) : List Nat := (List.range 80).map fun i => e / 2 ^ (8 * i) % 256
def patOf (l : List Nat) : Nat := (l.mapIdx fun i v => v * 2 ^ (8 * i)).sum

/-- Symbols in error of a pattern. -/
def symCount (e : Nat) : Nat := ((symsOf e).filter fun v => v != 0).length

/-- The one lane a pattern's symbols lie in, if one holds them all. -/
def oneLane (e : Nat) : Option Nat :=
  (List.range 40).find? fun i => e % 2 ^ (16 * i) == 0 && decide (e < 2 ^ (16 * i + 16))

/-! The field: polynomial x^8 + x^4 + x^3 + x^2 + 1, whose root is 2 (R289). -/

def gfDouble (a : Nat) : Nat := if a < 128 then 2 * a else (2 * a) ^^^ 0x11D

def gfMulGo : Nat → Nat → Nat → Nat
  | 0, _, _ => 0
  | k + 1, a, b => (if b % 2 == 1 then a else 0) ^^^ gfMulGo k (gfDouble a) (b / 2)

def gfMul (a b : Nat) : Nat := gfMulGo 8 a b

def gfPow (a : Nat) : Nat → Nat
  | 0 => 1
  | n + 1 => gfMul a (gfPow a n)

/-- The inverse, as the power 254: squared seven times. -/
def gfInvGo : Nat → Nat → Nat → Nat
  | 0, _, r => r
  | k + 1, q, r => gfInvGo k (gfMul q q) (gfMul r q)

def gfInv (a : Nat) : Nat := gfInvGo 7 (gfMul a a) 1

/-- A polynomial, coefficient of the highest power first, at a point. -/
def gfEval (p : List Nat) (x : Nat) : Nat := p.foldl (fun a c => gfMul a x ^^^ c) 0

/-! The encoder (R289). -/

/-- The generator's coefficients below its leading one, highest power first: the product of (x - 2^i) for i from 0 to 15. -/
def rsGen : List Nat :=
  ((List.range 16).foldl (fun p i => List.zipWith (· ^^^ ·) (p ++ [0]) (0 :: p.map (gfMul (gfPow 2 i)))) [1]).drop 1

/-- The 16 check symbols of 64 data symbols, data symbol 0 the highest-order coefficient. -/
def rsCheck (data : List Nat) : List Nat :=
  data.foldl (fun r d =>
    let f := d ^^^ r.headD 0
    List.zipWith (fun a g => a ^^^ gfMul f g) (r.drop 1 ++ [0]) rsGen) (List.replicate 16 0)

/-- The codeword of a 64 B unit: its 80 symbols. -/
def rsEncode (data : List Nat) : List Nat := data ++ rsCheck data

/-! The decoder (R290, R292). The code is linear, so what it finds in a received word is what it finds in the pattern of errors. -/

/-- The syndromes of a pattern. -/
def rsSyndromes (e : Nat) : List Nat := (List.range 16).map fun i => gfEval (symsOf e) (gfPow 2 i)

/-- The check symbols XOR 0x5A: the mark of a poisoned codeword (R292). -/
def poisonPat : Nat := patOf (List.replicate 64 0 ++ List.replicate 16 0x5A)

/-- Coefficients added, lowest power first. -/
def gfAdd : List Nat → List Nat → List Nat
  | [], b => b
  | a, [] => a
  | x :: a, y :: b => (x ^^^ y) :: gfAdd a b

/-- Berlekamp and Massey's search for the shortest recurrence of the syndromes: the locator `c`, the last one replaced `b`, the length
`l`, steps since `m`, the discrepancy then `d`; syndrome `n` next. -/
def rsLocate (syn : List Nat) : Nat → Nat → List Nat → List Nat → Nat → Nat → Nat → List Nat × Nat
  | 0, _, c, _, l, _, _ => (c, l)
  | k + 1, n, c, b, l, m, d =>
    let delta := (List.range (l + 1)).foldl (fun a i => a ^^^ gfMul (c.getD i 0) (syn.getD (n - i) 0)) 0
    if delta == 0 then rsLocate syn k (n + 1) c b l (m + 1) d
    else
      let f := gfMul delta (gfInv d)
      let c' := gfAdd c (List.replicate m 0 ++ b.map (gfMul f))
      if 2 * l ≤ n then rsLocate syn k (n + 1) c' c (n + 1 - l) 1 delta
      else rsLocate syn k (n + 1) c' b l (m + 1) d

/-- The value of symbol `s` of the pattern that a locator names: zero where the locator has no root for it (Forney). -/
def rsValue (syn c : List Nat) (s : Nat) : Nat :=
  let x := gfPow 2 (79 - s)
  let y := gfInv x
  if gfEval c.reverse y != 0 then 0
  else
    let om := (List.range 16).map fun i => (List.range (i + 1)).foldl (fun a j => a ^^^ gfMul (c.getD j 0) (syn.getD (i - j) 0)) 0
    let dc := (c.mapIdx fun i v => if i % 2 == 1 then v else 0).drop 1
    gfMul (gfMul x (gfEval om.reverse y)) (gfInv (gfEval dc.reverse y))

/-- What the decoder corrects of a pattern of errors: the pattern of at most 8 symbols with its syndromes, if there is one; none where
it reports the codeword as uncorrectable, a poisoned one first. A pattern of more than 8 symbols may be taken for another. -/
def rsFix (e : Nat) : Option Nat :=
  if symCount e ≤ 8 then some e
  else
    let syn := rsSyndromes e
    if syn == rsSyndromes poisonPat then none
    else
      let q := rsLocate syn 16 0 [1] [1] 0 1 1
      if q.2 > 8 then none
      else
        let f := patOf ((List.range 80).map fun s => rsValue syn q.1 s)
        if symCount f ≤ 8 && rsSyndromes f == syn then some f else none

/-- Whether a codeword with these errors is uncorrectable. -/
def badMask (e : Nat) : Bool := (rsFix e).isNone

end Sys2Proof.Machine
end

