-- ==== Sys2Proof/Machine/Report.lean ====
section
/-! DEFINITION. Partitions by tile, fault severities in force (R389), and raising a fault report (chapter 18). -/
namespace Sys2Proof.Machine

def State.part (s : State) (p : Nat) : Part := s.parts.val {} p
def State.setPart (s : State) (p : Nat) (x : Part) : State := { s with parts := s.parts.put p x }
def State.tile (s : State) (t : Nat) : Tile := s.tiles.val {} t
def State.setTile (s : State) (t : Nat) (x : Tile) : State := { s with tiles := s.tiles.put t x }

/-- Offset of PART register block `p` (R349) and its job number. -/
def partOff (p : Nat) : Nat := 0x1000000 + p * 0x40

def fcSevOff (n : Nat) : Nat := 0x1201000 + 8 * n
def fcTsevOff (p n : Nat) : Nat := 0x1204000 + 8 * (16 * p + n)

/-- The valid partition that holds the group of a tile (R349). -/
def State.partOfTile (s : State) (t : Nat) : Option Nat :=
  (List.range 8).find? fun p => (s.part p).valid && natBit (s.part p).groups (t / 8)

/-- The partition and job a tile serves: a placed job that has not ended. -/
def State.servedBy (s : State) (t : Nat) : Option Nat :=
  match s.partOfTile t with
  | some p =>
    match (s.part p).st with
    | .placing | .running | .ending => some p
    | _ => none
  | none => none

/-- The severity in force for a source (R389). -/
def State.sevOf (s : State) (src : Nat) (part : Option Nat) : Nat :=
  if src == 0x13 then 4
  else if src < 0x10 then
    match part with
    | some p => s.rf dieMerA (fcTsevOff p src) 2 0
    | none => sevReset src
  else s.rf dieMerA (fcSevOff src) 2 0

/-- The die whose concentrator carries a source's reports (R385, R390). -/
def State.dieOf (s : State) (src inst : Nat) : Nat :=
  if src < 0x10 then inst / 96
  else if src < 0x14 then inst
  else if src == 0x14 then inst / 32
  else if src == 0x18 || src == 0x19 || src == 0x28 then (if s.diePresent dieMdl then dieMdl else dieMerA)
  else if src == 0x1A || src == 0x1B || src == 0x27 then (if inst < 64 then dieMerA else dieMerB)
  else if src == 0x1F || src == 0x20 || src == 0x22 || src == 0x23 then inst / 3
  else if src == 0x21 || src == 0x24 || src == 0x25 then inst / 48
  else if src == 0x26 then inst / 512
  else if 0x30 ≤ src then linkDie inst
  else dieMerA

/-- Raises a report (R385, R389): it travels with the severity and the jobs of the moment (assumption log 18). -/
def State.report (s : State) (src inst : Nat) (part : Option Nat) (value : Word) : State :=
  { s with reports := s.reports ++ [{
      src := src, inst := inst, die := s.dieOf src inst, part := part,
      job := match part with | some p => (s.part p).job | none => 0,
      value := value, cond := condSource src, sev := s.sevOf src part,
      linkParts := if src < 0x30 then [] else (s.links.val {} inst).parts,
      jobs := (List.range 8).map fun p => (p, (s.part p).job) }] }

/-- Raises a report whose VALUE the spec does not give: a free value (assumption log 20). -/
def State.reportX (s : State) (src inst : Nat) (part : Option Nat) : State :=
  { s.report src inst part (Config.freeWord s.freeIdx) with freeIdx := s.freeIdx + 1 }

/-- Raises a tile's report whose VALUE the spec does not give. -/
def State.tileReportX (s : State) (src t : Nat) : State := s.reportX src t (s.servedBy t)

/-- Raises a tile's report, which carries the partition the tile serves (R389). -/
def State.tileReport (s : State) (src t : Nat) (value : Word) : State := s.report src t (s.servedBy t) value

/-- Ends a condition: ACTIVE falls in its record (R395), and a report of it still on its way makes none. -/
def State.endCond (s : State) (src inst : Nat) : State :=
  { s with reports := s.reports.map (fun r => if r.src == src && r.inst == inst then { r with ended := true } else r), recs := s.recs.map fun kv => (kv.1,
      if kv.2.src == src && kv.2.inst == inst && kv.2.cond then { kv.2 with active := false } else kv.2) }

end Sys2Proof.Machine
end

