-- ==== Sys2Proof/Machine/Dram.lean ====
section
/-! DEFINITION. DRAM and scratchpad as every unit reaches them: the address map (R281 to R283), frames and owners (R284 to
R286), codewords, their errors, poison and keys (R287 to R296), channel health (R297), scratchpad units (R125 to R127), and
the regulators' charges (R356). -/
namespace Sys2Proof.Machine

def gib : Nat := 0x40000000
def dramTop : Nat := 0x18000000000
def frameSize : Nat := 0x200000
def spSize : Nat := 0x200000

/-- First byte of tile `t`'s scratchpad (chapter 06). -/
def spBase (t : Nat) : Nat := 0x200000000000 + t * spSize

/-- The tile whose scratchpad would hold `a`, if `a` lies in that part of the address space. -/
def spTile (a : Nat) : Option Nat :=
  if 0x200000000000 ≤ a && a < 0x300000000000 then some ((a - 0x200000000000) / spSize) else none

def isDram (a : Nat) : Bool := decide (a < dramTop)

/-- MEM_STATUS.STATE of a stack: 0 TRAINING, 1 UP, 2 REMAPPING, 3 DOWN (R301). -/
def State.stackState (s : State) (m : Nat) : Nat := s.rf (m / 3) (memOff m) 53 51

/-- Channels in a stack's interleave (R282). -/
def State.healthy (s : State) (m : Nat) : Nat := s.rf (m / 3) (memOff m) 20 16

/-- The channels in the interleave, ascending (R282). -/
def State.chanList (s : State) (m : Nat) : List Nat :=
  (List.range 16).filter fun c => s.rb (m / 3) (memOff m) c

/-- Where a DRAM address lies (R282): its 2 KiB granule in the stack and byte in it, the channel that serves it, the granule's number
in that channel, its bank and row. -/
def granuleOf (a : Nat) : Nat := a % 2 ^ 36 / 2048
def granuleByte (a : Nat) : Nat := a % 2 ^ 36 % 2048

def State.chanOf (s : State) (a : Nat) : Nat :=
  let l := s.chanList (a / 2 ^ 36)
  l.getD (granuleOf a % l.length) 0

def State.chanGranule (s : State) (a : Nat) : Nat := granuleOf a / (s.chanList (a / 2 ^ 36)).length

def State.bankOf (s : State) (a : Nat) : Nat :=
  let r := s.chanGranule a
  (r ^^^ (r >>> 5) ^^^ (r >>> 10)) % 32

def State.rowOf (s : State) (a : Nat) : Nat := s.chanGranule a / 32

/-- Whether a DRAM address lies in its stack's hole (R283, R299). -/
def State.inHole (s : State) (a : Nat) : Bool :=
  let m := a / 2 ^ 36
  s.stackState m == 3 || decide (a % 2 ^ 36 ≥ s.healthy m * (4 * gib))

/-- The owner code of the frame of a DRAM address (R284). -/
def State.owner (s : State) (a : Nat) : Nat :=
  let m := a / 2 ^ 36
  let f := a % 2 ^ 36 / frameSize
  if s.stackPresent m then s.rf (m / 3) (ownOff m (f / 16)) (4 * (f % 16) + 3) (4 * (f % 16)) else 15

/-- The first address at or after `a` that is not in DRAM owned by `p`, looking at `k` frames. -/
def State.ownedUpTo (s : State) (p : Nat) : Nat → Nat → Nat
  | 0, a => a
  | k + 1, a =>
    if isDram a && s.owner a == p then State.ownedUpTo s p k ((a / frameSize + 1) * frameSize) else a

/-- Whether `n` bytes from `a` lie in the DRAM of owner `p`; if not, the lowest address outside. -/
def State.outsideDram (s : State) (p a n : Nat) : Option Nat :=
  if a ≥ dramTop then some a
  else
    let e := s.ownedUpTo p ((if n > dramTop then dramTop else n) / frameSize + 2) a
    if a + n ≤ e then none else some e

/-- Whether `n` bytes from `a` lie in DRAM owned by `p`. -/
def State.inDramOf (s : State) (p a n : Nat) : Bool := (s.outsideDram p a n).isNone

/-- The trap of a DRAM operand that does not lie in the DRAM of owner `p`: ABSENT_UNIT where it names a stack this variant lacks (R4, R281),
else ACCESS with the lowest address outside (R124). -/
def State.dramTrap (s : State) (p a n : Nat) : Option (Cause × Nat) :=
  if isDram a && !s.stackPresent (a / 2 ^ 36) then some (.absentUnit, a) else (s.outsideDram p a n).map fun b => (.access, b)

/-- The number of the key in an owner's slot (R296): the draw it came from and the slot, so that no two slots share one and none is
zero, from power-up on (assumption log 11). -/
def State.keyOf (s : State) (o : Nat) : Nat :=
  if o < 8 then 16 * (s.part o).keyId + o + 1 else 16 * s.rot.ccKeyId + 9

/-- The number of a key that no slot holds. -/
def lostKey (draw : Nat) : Nat := 16 * draw + 15

/-- The bytes of the XTS key pair of a number: a supplied or derived pair's own (odd draws), else what the DRBG drew (R364, R379). -/
def xtsKey (k : Nat) : List Byte :=
  leBytes 64 (if k / 16 % 2 == 1 then k / 32 else (Config.freeKey k).toNat)

def State.chState (s : State) (m c : Nat) : Nat := s.rf (m / 3) (chOff m c) 63 62

def partReq (req : Nat) : Option Nat := if req < 8 then some req else none

/-- A refused access (R286). The controllers of a fenced Hob report nothing (R387; assumption log 40). -/
def State.memRefuse (s : State) (req a : Nat) : State :=
  if s.dieFenced (a / 2 ^ 36 / 3) then s else s.reportX 0x22 (a / 2 ^ 36) (partReq req)

/-- Whether the controller refuses an access (R283, R286, R298, R387): another owner, an unowned frame, the hole, a stack not up, or out
of service with its Hob. -/
def State.memRefused (s : State) (req a : Nat) : Bool :=
  s.stackState (a / 2 ^ 36) != 1 || s.owner a != req || s.inHole a || s.dieFenced (a / 2 ^ 36 / 3)

/-- An uncorrectable or FAILED codeword met: counted and reported (R291, R297). -/
def State.memUe (s : State) (a : Nat) : State :=
  let m := a / 2 ^ 36
  let c := s.chanOf a
  ((s.addRg (m / 3) (chOff m c + 0x10) 1).setRb (m / 3) (memOff m + 0x18) 1 true).reportX 0x21 (m * 16 + c) none

/-- A corrected codeword: counts, LANE, and WEAK past CE_LIMIT (R297, R301). -/
def State.memCe (s : State) (a mask : Nat) : State :=
  let m := a / 2 ^ 36
  let c := s.chanOf a
  let d := m / 3
  let s := (s.addRg d (chOff m c + 8) 1).addRg d (chOff m c + 0x18) 1
  let s := match oneLane mask with
    | some l => s.setRf d (chOff m c) 5 0 l
    | none => s
  if s.chState m c == 0 && decide ((s.rg d (chOff m c + 0x18)).toNat > s.rf d (memOff m + 8) 63 32) then
    ((s.setRf d (chOff m c) 63 62 1).setRb d (memOff m + 0x18) 0 true).reportX 0x24 (m * 16 + c) none
  else s

/-- The regulator of partition `p` on index `i` (R357): its Meridian and offset. -/
def regOff (p i : Nat) : Nat := 0x1100000 + p * 0x200 + i * 0x10
def stackReg (m : Nat) : Nat × Nat := (if m < 12 then dieMerA else dieMerB, m % 12)
def linkReg (l : Nat) : Nat × Nat := (linkDie l, 12 + l % 12)

/-- The key under which a regulator's waiting requests, and what is owed to it, are held. -/
def regKey (d p i : Nat) : Nat := (d * 8 + p) * 32 + i

/-- Charges `n` bytes that a unit's own run moves (R356). A run that finds too few tokens takes what there is and WAIT_SEEN marks it; the
rest is owed to the regulator, and until credits have paid it nothing else of the partition passes there (assumption log 19). -/
def State.charge (s : State) (req : Nat) (r : Nat × Nat) (n : Nat) : State :=
  if req < 8 && s.rb r.1 (regOff req r.2) 63 then
    let k := s.rf r.1 (regOff req r.2 + 8) 31 0
    if k ≥ n then s.setRf r.1 (regOff req r.2 + 8) 31 0 (k - n)
    else
      let o := s.regOwed.val (0, 0) (regKey r.1 req r.2)
      { (s.setRf r.1 (regOff req r.2 + 8) 31 0 0).setRb r.1 (regOff req r.2 + 8) 63 true with
        regOwed := s.regOwed.put (regKey r.1 req r.2) (o.1 + (n - k), o.2) }
  else s

/-- The Hob an address lives on; 8 for a unit on another die. -/
def hobOf (a : Nat) : Nat := if isDram a then a / 2 ^ 36 / 3 else match spTile a with | some u => u / 96 | none => 8

/-- Charges bytes that leave a Hob for another die by its modules, rounded up to 64 (R356). -/
def State.chargeNet (s : State) (req fromHob toHob n : Nat) : State :=
  if fromHob == toHob || fromHob ≥ 8 then s else s.charge req (if fromHob < 4 then dieMerA else dieMerB, 24) (roundUp n 64)

/-! Inline encryption (R295, R296). Memory holds the plaintext of each codeword with the number of the key it was last written
under; what is stored is its AES-256-XTS under that key, with DRAM address bits [47:6], the codeword's number, as the tweak. -/

/-- The plaintext of codeword `cw` read under key `k` where what came through the code differs from what was stored in the bits `x` of
the data symbols. One never written reads as memory does (assumption log 1). -/
def State.plainAs (s : State) (k cw x : Nat) : List Byte :=
  let w := s.cwKey.val 0 cw
  let p := Mem.readN s.mem (cw * 64) 64
  if x % 2 ^ 512 == 0 && (w == 0 || w == k) then p
  else xtsDec (xtsKey k) cw (xorBytes (xtsEnc (xtsKey w) cw p) (leBytes 64 x))

/-- The plaintext of codeword `cw` as the present owner's key gives it (R296). -/
def State.plainCw (s : State) (cw : Nat) : List Byte := s.plainAs (s.keyOf (s.owner (cw * 64))) cw 0

/-- What a codeword decodes to: the correction and the plaintext, none where it is uncorrectable (R290). A pattern of errors taken for
another leaves their difference in the data. -/
def State.decodeCw (s : State) (cw : Nat) : Option (Nat × List Byte) :=
  let e := s.cwErr.val 0 cw
  (rsFix e).map fun f => (f, s.plainAs (s.keyOf (s.owner (cw * 64))) cw (e ^^^ f))

/-- Counts a correction of the pattern `f`, if there was one. -/
def State.memFixed (s : State) (a f : Nat) : State := if f == 0 then s else s.memCe a f

/-- A controller's read of one codeword for a requester, uncharged (R286, R290, R291, R297). -/
def State.serveCw (s : State) (req cw : Nat) : Option (List Byte) × State :=
  let a := cw * 64
  if s.memRefused req a then (none, s.memRefuse req a)
  else if s.chState (a / 2 ^ 36) (s.chanOf a) == 2 then (none, s.memUe a)
  else match s.decodeCw cw with
    | none => (none, s.memUe a)
    | some r => (some r.2, s.memFixed a r.1)

/-- A unit's read of one codeword. -/
def State.readCw (s : State) (req cw : Nat) : Option (List Byte) × State :=
  (s.charge req (stackReg (cw * 64 / 2 ^ 36)) 64).serveCw req cw

/-- Puts bytes at offsets of a codeword's 64. -/
def overlay (old : List Byte) (upd : Tab Byte) : List Byte :=
  old.mapIdx fun i b => upd.val b i

/-- Stores the plaintext of a codeword under its owner's key, with a pattern of errors. -/
def State.putCw (s : State) (cw : Nat) (bytes : List Byte) (e : Nat) : State :=
  { s with mem := Mem.writeN s.mem (cw * 64) bytes,
           cwErr := if e == 0 then s.cwErr.del cw else s.cwErr.put cw e,
           cwKey := s.cwKey.put cw (s.keyOf (s.owner (cw * 64))) }

/-- A controller's write of bytes at offsets of one codeword, uncharged (R286, R297): a whole one is written; a part is read, merged
and written in one step, its read corrected and counted as any read is (R287, R290); merged into an uncorrectable codeword it is
reported, and the codeword stored as poisoned (R292). -/
def State.storeCw (s : State) (req cw : Nat) (upd : Tab Byte) : State :=
  let a := cw * 64
  if s.memRefused req a then s.memRefuse req a
  else if s.chState (a / 2 ^ 36) (s.chanOf a) == 2 then s.memUe a
  else if upd.length ≥ 64 then s.putCw cw (overlay (List.replicate 64 0) upd) 0
  else match s.decodeCw cw with
    | some r => (s.memFixed a r.1).putCw cw (overlay r.2 upd) 0
    | none =>
      let raw := s.plainAs (s.keyOf (s.owner a)) cw (s.cwErr.val 0 cw)
      (s.memUe a).putCw cw (overlay raw upd) poisonPat

/-- A unit's write of bytes at offsets of one codeword. -/
def State.writeCw (s : State) (req cw : Nat) (upd : Tab Byte) : State :=
  (s.charge req (stackReg (cw * 64 / 2 ^ 36)) (if upd.length ≥ 64 then 64 else 128)).storeCw req cw upd

/-- `n` bytes of DRAM from `a`, codeword by codeword: bytes (none lost), codewords lost, state. -/
def State.readDramGo (req : Nat) : Nat → State → Nat → Nat → List (Option Byte) × Nat × State
  | 0, s, _, _ => ([], 0, s)
  | k + 1, s, a, n =>
    if n == 0 then ([], 0, s)
    else
      let o := a % 64
      let c := min n (64 - o)
      let r := s.readCw req (a / 64)
      let here := match r.1 with
        | some bs => ((bs.drop o).take c).map some
        | none => List.replicate c none
      let rest := State.readDramGo req k r.2 (a + c) (n - c)
      (here ++ rest.1, (if r.1.isNone then 1 else 0) + rest.2.1, rest.2.2)

def State.readDram (s : State) (req a n : Nat) : List (Option Byte) × Nat × State :=
  State.readDramGo req (n / 64 + 2) s a n

/-- Lost bytes read as all ones (R291). -/
def onesFor (bs : List (Option Byte)) : List Byte := bs.map fun b => b.getD 0xFF

/-- Index and value pairs of a list of bytes, from index `i`; a lost byte leaves no entry. -/
def updFrom (i : Nat) : List (Option Byte) → Tab Byte
  | [] => []
  | some b :: r => (i, b) :: updFrom (i + 1) r
  | none :: r => updFrom (i + 1) r

/-- Writes bytes to DRAM from `a`; a `none` leaves its byte as it was. -/
def State.writeDramGo (req : Nat) : Nat → State → Nat → List (Option Byte) → State
  | 0, s, _, _ => s
  | k + 1, s, a, bs =>
    if bs.isEmpty then s
    else
      let o := a % 64
      let c := 64 - o
      let upd := updFrom o (bs.take c)
      State.writeDramGo req k (if upd.isEmpty then s else s.writeCw req (a / 64) upd) (a + min bs.length c) (bs.drop c)

def State.writeDram (s : State) (req a : Nat) (bs : List (Option Byte)) : State :=
  State.writeDramGo req (bs.length / 64 + 2) s a bs

/-! Scratchpad units of 16 B (R126, R127). -/

/-- Meets the error state of one scratchpad unit on a read: whether the unit is uncorrectable (two bits in error, or poisoned), and
the state; a single bit in error is corrected and counted. -/
def State.spMeet (s : State) (u : Nat) : Bool × State :=
  let e := s.spErr.val 0 u
  let t := (u * 16 - 0x200000000000) / spSize
  if e == 0 then (false, s)
  else if e ≥ 4 then (false, { s.addRg (t / 96) (trapOff t) 1 with spErr := s.spErr.del u })
  else (true, s.tileReportX 0x002 t)

/-- Meets every unit of [a, a + n): the uncorrectable ones, the state. -/
def State.spMeetGo : Nat → State → Nat → List Nat × State
  | 0, s, _ => ([], s)
  | k + 1, s, u =>
    let r := s.spMeet u
    let q := State.spMeetGo k r.2 (u + 1)
    (if r.1 then u :: q.1 else q.1, q.2)

def State.spMeetAll (s : State) (a n : Nat) : List Nat × State :=
  if n == 0 then ([], s) else State.spMeetGo ((a + n - 1) / 16 - a / 16 + 1) s (a / 16)

/-- Meets each scratchpad unit that holds one of the named bytes, once (R127). -/
def State.meetBytes (s : State) (as : List Nat) : State :=
  if s.spErr.isEmpty then s
  else ((as.map (· / 16)).eraseDups).foldl (fun s u => (s.spMeet u).2) s

/-- Whether the port still owes a byte of [a, a + n) to a visible cut-through entry: a read of it waits until the 256 B unit
that holds it is valid (R193). -/
def State.cutPending (s : State) (a n : Nat) : Bool :=
  s.handles.any fun kv =>
    let h := kv.2
    bitOf h.cfg 63 && bitOf h.cfg 62 && bitOf h.cfg 61 &&
      (h.visible ++ h.popped).any fun e =>
        let len := fld (wordAt e.header 1) 31 0
        let base := fld h.ring 47 0 + e.idx * h.size
        let have_ := if e.landed ≥ len then len else e.landed / 256 * 256
        decide (n > 0) && decide (a < base + len) && decide (base + have_ < a + n) && decide (have_ < len)

/-- A scratchpad read by any reader but DMA: the bytes as read. -/
def State.readSp (s : State) (a n : Nat) : List Byte × State := (Mem.readN s.mem a n, (s.spMeetAll a n).2)

/-- Descriptor words at an address of a tile's own scratchpad, read once. -/
def State.descWords (s : State) (a n : Nat) : List Word × State :=
  let r := s.readSp a (8 * n)
  (wordsOf n r.1, r.2)

/-- The aligned 64 B units among `units` (R127). -/
def lostUnits (units : List Nat) : List Nat := (units.map (· / 4)).eraseDups

/-- A scratchpad read by a DMA transfer whose source holds the uncorrectable 64 B units `bad`: their bytes are lost (R127). -/
def State.readSpDma (s : State) (bad : List Nat) (a n : Nat) : List (Option Byte) × State :=
  ((Mem.readN s.mem a n).mapIdx (fun i b => if bad.contains ((a + i) / 64) then none else some b), (s.spMeetAll a n).2)

/-- Memory with data bit `b` of the 16 B unit `u` turned over; a bit of 128 or above is one of its check bits. -/
def Mem.flip (m : List Host.Cell) (u b : Nat) : List Host.Cell :=
  if b < 128 then Mem.write m (16 * u + b / 8) (Mem.read m (16 * u + b / 8) ^^^ BitVec.ofNat 8 (2 ^ (b % 8))) else m

/-- One bit of a unit goes wrong (R127; assumption log 65): the first is held beside memory, which keeps the corrected bytes; with
a second one the unit is uncorrectable and memory holds its bits as they stand; the same bit twice leaves none in error. -/
def State.spBit (s : State) (u b : Nat) : State :=
  let e := s.spErr.val 0 u
  if e == 0 then { s with spErr := s.spErr.put u (4 + b) }
  else if e == 4 + b then { s with spErr := s.spErr.del u }
  else if e ≥ 4 then { s with spErr := s.spErr.put u 2, mem := Mem.flip (Mem.flip s.mem u (e - 4)) u b }
  else { s with mem := Mem.flip s.mem u b }

/-- Bit errors that arose in scratchpad units, each as unit x 256 + bit, of 128 data and 9 check bits (assumption log 65). -/
def State.spFlip (s : State) (bits : List Nat) : State :=
  bits.foldl (fun s x =>
    match spTile (x / 256 * 16) with
    | some t => if s.tilePresent t && decide (x % 256 < 137) then s.spBit (x / 256) (x % 256) else s
    | none => s) s

/-- The error state of the units of a scratchpad write: a whole unit clears; a part is merged into its unit, which is read for it: a
single-bit error is corrected and counted, an uncorrectable unit reported and poisoned. -/
def State.spTouchGo (a e : Nat) : Nat → State → Nat → State
  | 0, s, _ => s
  | k + 1, s, u =>
    let whole := decide (a ≤ u * 16) && decide (u * 16 + 16 ≤ e)
    let x := s.spErr.val 0 u
    let s :=
      if x == 0 then s
      else if whole then { s with spErr := s.spErr.del u }
      else
        let r := s.spMeet u
        if r.1 then { r.2 with spErr := r.2.spErr.put u 3 } else r.2
    State.spTouchGo a e k s (u + 1)

/-- A scratchpad write (R126, R127). -/
def State.writeSp (s : State) (a : Nat) (bs : List Byte) : State :=
  let s := if bs.isEmpty then s
    else State.spTouchGo a (a + bs.length) ((a + bs.length - 1) / 16 - a / 16 + 1) s (a / 16)
  { s with mem := Mem.writeN s.mem a bs }

/-- Sets every byte of [a, a + n) to zero, removing its entries. -/
def Mem.clear (m : List Host.Cell) (a n : Nat) : List Host.Cell :=
  m.filter fun c => c.1 < a || a + n ≤ c.1

/-- Clears a tile's scratchpad, with valid check codes (R128). -/
def State.clearSp (s : State) (t : Nat) : State :=
  { s with mem := Mem.clear s.mem (spBase t) spSize,
           spErr := s.spErr.filter fun kv => kv.1 < spBase t / 16 || (spBase t + spSize) / 16 ≤ kv.1 }

/-- The runs of present bytes in a list that starts at address `a`: the address and the bytes of each. -/
def byteRuns (a : Nat) : List (Option Byte) → List (Nat × List Byte)
  | [] => []
  | none :: r => byteRuns (a + 1) r
  | some b :: r =>
    match byteRuns (a + 1) r with
    | (g, bs) :: q => if g == a + 1 then (a, b :: bs) :: q else (a, [b]) :: (g, bs) :: q
    | [] => [(a, [b])]

/-- A write to scratchpad or DRAM as an engine of partition `req` makes it; bytes beside one another are written together. -/
def State.writeAny (s : State) (req a : Nat) (bs : List (Option Byte)) : State :=
  if isDram a then s.writeDram req a bs
  else if bs.all (·.isSome) then s.writeSp a (onesFor bs)
  else (byteRuns a bs).foldl (fun s g => s.writeSp g.1 g.2) s

/-- A read of scratchpad or DRAM by an engine that takes lost DRAM bytes as all ones (R291): bytes, whether any was
lost, state. -/
def State.readAny (s : State) (req a n : Nat) : List Byte × Bool × State :=
  if isDram a then
    let r := s.readDram req a n
    (onesFor r.1, decide (r.2.1 > 0), r.2.2)
  else
    let r := s.readSp a n
    (r.1, false, r.2)

end Sys2Proof.Machine
end

