-- ==== Sys2Proof/Machine/Trust.lean ====
section
/-! DEFINITION. The root of trust (chapter 17): its registers (R384), the keys it derives (R364), the leaves it signs with (R366 to R369),
quote bodies (R374), and what it keeps in the eMMC: the signed repair copy and the training record (R344, R405). -/
namespace Sys2Proof.Machine

def rotOff : Nat := 0x4000

/-- ROT_STATUS.STATE: 0 BOOTING, 1 READY, 2 NO_PUF, 3 NO_RPMB, 4 WORN, 5 UNLOCKED. -/
def State.rotState (s : State) : Nat := s.rf dieMerA rotOff 63 60
def State.setRotState (s : State) (n : Nat) : State := s.setRf dieMerA rotOff 63 60 n

/-- ROT_DEVID. -/
def State.devId (s : State) : Word := s.rg dieMerA 0x4008

/-- ROT_STATUS.LEFT and BOOT. -/
def State.rotLeft (s : State) : Nat := s.rf dieMerA rotOff 11 0
def State.rotBoot (s : State) : Nat := s.rf dieMerA rotOff 31 12

/-! Keys (R364): the labels as ASCII, a number in one as four bytes, most significant first (assumption log 71). -/

def labL0 : List Byte := [0x4C, 0x30]
def labL1 (leaf : Nat) : List Byte := [0x4C, 0x31] ++ beBytes 4 leaf
def labKem (boot : Nat) : List Byte := [0x4B, 0x45, 0x4D] ++ beBytes 4 boot
def labRpmb : List Byte := [0x52, 0x50, 0x4D, 0x42]
def labCache : List Byte := [0x43, 0x41, 0x43, 0x48, 0x45]
def labCc (boot : Nat) : List Byte := [0x43, 0x43] ++ beBytes 4 boot
def labTrain : List Byte := [0x54, 0x52, 0x41, 0x49, 0x4E]
def labEnv : List Byte := [0x45, 0x4E, 0x56]

/-- `n` bytes derived from the root secret under a label. -/
def State.derive (s : State) (label : List Byte) (n : Nat) : List Byte := kdf s.rot.secret label n

/-- The seed and the identifier of the level-0 tree, and of the level-1 tree of a leaf. -/
def State.l0Seed (s : State) : List Byte := (s.derive labL0 48).take 32
def State.l0Id (s : State) : List Byte := (s.derive labL0 48).drop 32
def State.l1Seed (s : State) (leaf : Nat) : List Byte := (s.derive (labL1 leaf) 48).take 32
def State.l1Id (s : State) (leaf : Nat) : List Byte := (s.derive (labL1 leaf) 48).drop 32

/-- The seeds d and z of this power-up's ML-KEM-1024 key, and its encapsulation key. -/
def State.kemD (s : State) : List Byte := (s.derive (labKem s.rotBoot) 64).take 32
def State.kemZ (s : State) : List Byte := (s.derive (labKem s.rotBoot) 64).drop 32
def State.encapsKey (s : State) : List Byte := kemEk s.kemD

/-! Leaves and signatures. -/

def leafTop : Nat := 1048576

/-- Whether the RPMB block takes this package's authenticated writes: its key was programmed by this package (R366). -/
def State.rpmbOwn (s : State) : Bool := s.emmc.readable && s.emmc.rpmbOk && s.emmc.rpmbKey == s.derive labRpmb 32

/-- Takes one level-0 leaf: the counter written and read back before its use (R366). The counter at 2^20 wears the key out: no further
signature is made, with that last leaf neither (R369). -/
def State.takeLeaf (s : State) : Option Nat × State :=
  let n := s.emmc.rpmb
  if n ≥ leafTop then (none, s.setRotState 4)
  else if !s.rpmbOwn then (none, s.setRotState 3)
  else
    let t := { s with emmc := { s.emmc with rpmb := n + 1 } }
    if n + 1 ≥ leafTop then (none, t.setRotState 4) else (some n, { t with rot := { t.rot with leaves := t.rot.leaves ++ [n] } })

/-- One level-1 signature: its number in this power-up (R367). A second tree is taken when the first's 1,024 leaves are used. -/
def State.signOne (s : State) : Option Nat × State :=
  if s.rotState != 1 || s.rotLeft == 0 then (none, s)
  else
    let r := if s.rot.signed == 1024 && s.rot.leaves.length == 1 then s.takeLeaf else (some 0, s)
    match r.1 with
    | none => (none, r.2)
    | some _ =>
      let s := r.2
      let n := s.rot.signed
      (some n, { s.setRf dieMerA rotOff 11 0 (s.rotLeft - 1) with rot := { s.rot with signed := n + 1 } })

/-- The nodes of the level-0 tree's top 11 levels, from the root on (R368). -/
def State.l0Nodes (s : State) : List (List Byte) :=
  (List.range 2047).map fun i => lmsNode otsW4 s.l0Id s.l0Seed 20 (20 - (i + 1).log2) (i + 1)

/-- The HMAC of the cached nodes. -/
def State.cacheMac (s : State) (nodes : List (List Byte)) : List Byte := hmac (s.derive labCache 32) nodes.flatten

/-- The device's 60 B public key over a root node (R365). -/
def State.pubKeyOf (s : State) (root : List Byte) : List Byte := beBytes 4 2 ++ lmsPublic otsW4 20 s.l0Id root

/-- The device's HSS signature of a message with signature number `k` of this power-up: the level-0 signature of its level-1 public
key, that key, and the level-1 signature (5,396 B). The subtree under the level-0 leaf is recomputed; the nodes above come from the
cache (R368). -/
def State.hssSign (s : State) (k : Nat) (msg : List Byte) : List Byte :=
  let leaf := s.rot.leaves.getD (k / 1024) 0
  let q := k % 1024
  let id := s.l1Id leaf
  let seed := s.l1Seed leaf
  let pub := lmsPublic otsW4 10 id (lmsNode otsW4 id seed 10 10 1)
  let path1 := (List.range 10).map fun i => lmsNode otsW4 id seed 10 i (((1024 + q) >>> i) ^^^ 1)
  let path0 := (List.range 20).map fun i =>
    let r := ((leafTop + leaf) >>> i) ^^^ 1
    if i < 10 then lmsNode otsW4 s.l0Id s.l0Seed 20 i r else s.emmc.cache.getD (r - 1) []
  let c (level : Nat) (n : Nat) : List Byte := beBytes 32 (Config.signRandom level leaf n).toNat
  beBytes 4 1 ++ lmsSign otsW4 20 s.l0Id s.l0Seed leaf (c 0 leaf) path0 pub ++ pub ++ lmsSign otsW4 10 id seed q (c 1 q) path1 msg

/-! Quotes (R374). -/

/-- The measurement words of a component. -/
def State.measBytes (s : State) (c : Nat) : List Byte :=
  (List.range 4).flatMap fun w => leBytes 8 (s.rg dieMerA (0x4040 + 8 * (4 * (c - 1) + w))).toNat

/-- A quote's body: KIND 0 identity, 1 challenge. -/
def State.quoteBody (s : State) (kind leaf part : Nat) (nonce : List Byte) : List Byte :=
  let x := s.part part
  let in8 := decide (part < 8)
  let placed := in8 && [PState.placing, PState.running, PState.ending, PState.fenced].contains x.st
  let flags := (x.debug).toNat + pstateCode x.st * 2 + x.filler.toNat * 16
  leBytes 4 1 ++ leBytes 1 (variantCode s.variant) ++ leBytes 1 kind ++ leBytes 2 0 ++ leBytes 8 s.devId.toNat ++ leBytes 4 s.rotBoot
    ++ leBytes 4 leaf ++ fixLen 32 nonce ++ sha256 s.encapsKey
    ++ s.measBytes 1 ++ s.measBytes 2 ++ s.measBytes 3
    ++ leBytes 2 (s.rf dieMerA 0x4010 47 32) ++ leBytes 2 (s.rf dieMerA 0x4010 31 16) ++ leBytes 2 (s.rf dieMerA 0x4010 15 0)
    ++ leBytes 1 part ++ leBytes 1 (if in8 then flags else 0) ++ leBytes 4 (if in8 then x.job else 0) ++ leBytes 4 0
    ++ beBytes 32 (if placed then x.env.image.toNat else 0) ++ List.replicate 24 0

/-- A quote as delivered: the body, its signature with signature number `k`, the device public key, the endorsement, the encapsulation
key; 10,564 B. -/
def State.quoteOf (s : State) (k : Nat) (body : List Byte) : List Byte :=
  body ++ s.hssSign k body ++ s.rot.pubKey ++ fixLen 3284 s.emmc.endorsement ++ s.encapsKey

/-! The eMMC (R403, R405). -/

/-- The slot that the next write of two takes: the one that does not hold the newest. -/
def otherSlot : Option Nat → Nat
  | some 0 => 1
  | _ => 0

/-- The slot of the newer of two records, of those that verify. -/
def newest {α : Type} (serial : α → Nat) (ok : α → Bool) (t : Tab α) : Option (Nat × α) :=
  let valid := t.filter fun kv => ok kv.2
  valid.find? fun kv => valid.all fun o => decide (serial o.2 ≤ serial kv.2)

/-- Notes the eMMC write now under way. -/
def State.emmcWrite (s : State) (w : EmmcWrite) (e : Emmc) : State := { s with emmc := { e with writing := some w } }

/-- The signed repair copy in use: the newer whose signature and DEV_ID verify (R345, R404). -/
def State.repairSlot (s : State) : Option (Nat × RepairCopy) :=
  if !s.emmc.readable || s.rotState == 2 then none
  else newest RepairCopy.serial (fun c => c.ok && c.devId == s.devId) s.emmc.repairs

def State.repairCopy (s : State) : Option RepairCopy := s.repairSlot.map (·.2)

/-- Makes a new signed repair copy when its entries change; each costs one signature (R344). Without a signature, or an eMMC
to keep it, the old copy stays. -/
def State.newRepair (s : State) (f : RepairCopy → RepairCopy) : State :=
  let old := s.repairSlot
  let c0 := (old.map (·.2)).getD { devId := s.devId }
  let c := f c0
  if c == c0 && old.isSome || !s.emmc.readable then s
  else
    let r := s.signOne
    match r.1 with
    | none => r.2
    | some _ =>
      let i := otherSlot (old.map (·.1))
      let top := r.2.emmc.repairs.foldl (fun a kv => max a kv.2.serial) 0
      r.2.emmcWrite (.repair i) { r.2.emmc with repairs := r.2.emmc.repairs.put i { c with ok := true, devId := s.devId, serial := top + 1 } }

/-- The bytes of a training record that its HMAC covers. -/
def trainBytes (r : TrainRec) : List Byte :=
  let tab (t : Tab Word) : List Byte := t.flatMap fun kv => leBytes 8 kv.1 ++ leBytes 8 kv.2.toNat
  leBytes 8 r.serial ++ leBytes 8 r.linkCoeffs.length ++ tab r.linkCoeffs ++ leBytes 8 r.moduleRepairs.length ++ tab r.moduleRepairs
    ++ leBytes 8 r.chanSettings.length ++ tab r.chanSettings ++ r.goodLanes.flatMap fun kv => leBytes 8 kv.1 ++ leBytes 8 kv.2

def State.trainMac (s : State) (r : TrainRec) : List Byte := hmac (s.derive labTrain 32) (trainBytes r)

/-- The training record in use: the newer whose HMAC verifies; without a root secret there is no key to verify one (R344, R363). -/
def State.trainSlot (s : State) : Option (Nat × TrainRec) :=
  if !s.emmc.readable || s.rot.secret.isEmpty then none
  else newest TrainRec.serial (fun r => r.mac == s.trainMac r) s.emmc.trains

def State.trainRec (s : State) : TrainRec := (s.trainSlot.map (·.2)).getD {}

/-- Writes what a successful training found into the other slot, under a new HMAC (R344). -/
def State.train (s : State) (f : TrainRec → TrainRec) : State :=
  if !s.emmc.readable || s.rot.secret.isEmpty then s
  else
    let i := otherSlot (s.trainSlot.map (·.1))
    let r := f s.trainRec
    let r := { r with serial := r.serial + 1 }
    s.emmcWrite (.train i) { s.emmc with trains := s.emmc.trains.put i { r with mac := s.trainMac r } }

/-- The network settings in use (R405). -/
def State.netSlot (s : State) : Option (Nat × NetRec) := newest NetRec.serial NetRec.ok s.emmc.nets
def State.netBytes (s : State) : List Byte := if s.emmc.readable then ((s.netSlot.map (·.2.body)).getD []) else []

def State.netWrite (s : State) (body : List Byte) : State :=
  let i := otherSlot (s.netSlot.map (·.1))
  s.emmcWrite (.net i) { s.emmc with nets := s.emmc.nets.put i { serial := ((s.netSlot.map (·.2.serial)).getD 0) + 1, body := body } }

/-- What a loss of power leaves of the eMMC write it interrupts (R405): the slot written verifies no more; a torn firmware copy lacks its
end; the RPMB's writes are atomic. -/
def Emmc.torn (e : Emmc) : Emmc :=
  let e' := { e with writing := none }
  match e.writing with
  | some (.repair i) => { e' with repairs := e.repairs.put i { e.repairs.val {} i with ok := false } }
  | some (.train i) => { e' with trains := e.trains.put i { e.trains.val {} i with mac := [] } }
  | some (.net i) => { e' with nets := e.nets.put i { e.nets.val {} i with ok := false } }
  | some (.copy k) => { e' with copies := e.copies.put k ((e.copies.val [] k).take 64) }
  | some .cache => { e' with cacheMac := [] }
  | none => e'

/-! Key slots. -/

/-- The number of a key newly drawn, or of a slot newly erased: no other slot's or codeword's number (R296, R379). -/
def State.freshKeyId (s : State) : Nat × State :=
  (2 * s.rot.nextKeyId, { s with rot := { s.rot with nextKeyId := s.rot.nextKeyId + 1 } })

/-- The number of a supplied or derived key pair: equal keys have equal numbers (R354). -/
def suppliedKeyId (k : BitVec 512) : Nat := 2 * k.toNat + 1

end Sys2Proof.Machine
end

