-- ==== Sys2Proof/Machine/Fabric.lean ====
section
/-! DEFINITION. What units hand to a chip-to-chip link: its record, the cells of stage links and their payloads (R306, R307,
R191). -/
namespace Sys2Proof.Machine

def State.link (s : State) (l : Nat) : Link := s.links.val {} l
def State.setLink (s : State) (l : Nat) (x : Link) : State := { s with links := s.links.put l x }

/-- A field and a bit of a link's register. -/
def State.lkF (s : State) (l o hi lo : Nat) : Nat := s.rf (linkDie l) (lkOff l + o) hi lo
def State.lkB (s : State) (l o i : Nat) : Bool := s.rb (linkDie l) (lkOff l + o) i
def State.setLkF (s : State) (l o hi lo v : Nat) : State := s.setRf (linkDie l) (lkOff l + o) hi lo v
def State.setLkB (s : State) (l o i : Nat) (b : Bool) : State := s.setRb (linkDie l) (lkOff l + o) i b

/-! What came over a link (R310, R324). -/

/-- The 96-bit IV of a cell: its sender's EPOCH in the top 32 bits and the cell's number, most significant byte first (SP 800-38D). -/
def ivOf (epoch : BitVec 32) (n : Nat) : List Byte := beBytes 4 epoch.toNat ++ beBytes 8 n

def State.lkEpoch (s : State) (l : Nat) : BitVec 32 := BitVec.ofNat 32 (s.lkF l 0x20 31 0)
def State.peerEpoch (s : State) (l : Nat) : BitVec 32 := BitVec.ofNat 32 (s.lkF l 0x10 31 0)
def State.peerId (s : State) (l : Nat) : Word := s.rg (linkDie l) (lkOff l + 0x18)

/-- The key of a direction (R381): derived from both shared secrets, the sender's first, under a label of both DEV_IDs and EPOCHs, the
sender's first (assumption log 71). -/
def dirKey (sentBy heardBy : List Byte) (sender : Word) (senderEpoch : BitVec 32) (receiver : Word) (receiverEpoch : BitVec 32) :
    List Byte :=
  kdf (sentBy ++ heardBy) ([0x4C, 0x49, 0x4E, 0x4B] ++ beBytes 8 sender.toNat ++ beBytes 4 senderEpoch.toNat
    ++ beBytes 8 receiver.toNat ++ beBytes 4 receiverEpoch.toNat) 32

/-- The keys this end sends and receives under. -/
def State.sendKey (s : State) (l : Nat) : List Byte :=
  dirKey (s.link l).secretOut (s.link l).secretIn s.devId (s.lkEpoch l) (s.peerId l) (s.peerEpoch l)
def State.recvKey (s : State) (l : Nat) : List Byte :=
  dirKey (s.link l).secretIn (s.link l).secretOut (s.peerId l) (s.peerEpoch l) s.devId (s.lkEpoch l)

/-- The number of a received cell in its link state. -/
def Link.cellNo (k : Link) (c : LkCell) : Nat :=
  let d := seqDiff c.seq k.ack
  if d < 2048 then k.rxCount + d else k.rxCount + d - 4096

/-- A received cell's payload, deciphered where it is encrypted. -/
def State.plainOf (s : State) (l : Nat) (c : LkCell) : List Byte :=
  if c.enc then (gcmCtr (s.recvKey l) (ivOf (s.peerEpoch l) ((s.link l).cellNo c)) (fixLen 216 c.payload)).take c.len
  else c.payload.take c.len

/-- A REQ cell that was held for its consumer frees its slot on the link it came by, in the link state it came in (R314). -/
def State.freeReq (s : State) (c : LkCell) : State :=
  let k := s.link c.via
  if c.old then s else s.setLink c.via { k with freedReq := (k.freedReq + 1) % 65536 }

/-- Payload bytes of a cell (R306, R324). -/
def State.cellBytes (s : State) (l : Nat) : Nat := if s.lkB l 0x10 54 then 216 else 232

/-- The link that carries a link's new traffic, and the failed links it is carried for (R320, R321): its own while its flows
return; MIRROR cells stay where no mirror link would carry them (R323). -/
def State.carrierGo : Nat → State → Bool → Nat → List Nat → Nat × List Nat
  | 0, _, _, l, h => (l, h)
  | k + 1, s, mirror, l, h =>
    match (s.link l).carriedBy with
    | some p => if (s.link l).returning || (mirror && !(s.link p).mirror) then (l, h) else State.carrierGo k s mirror p (h ++ [l])
    | none => (l, h)

/-- Offers a cell to a link; one that partition `part` sends is charged to its regulator when the cell takes its slot. A
rerouted link's flows go to its partner. The crossing to the link layer counts it (R32). -/
def State.linkSend (s : State) (l : Nat) (x : TxItem) : State :=
  if s.linkPresent l then
    let c := State.carrierGo 24 s (x.cls == 4) l x.home
    (s.setLink c.1 { s.link c.1 with txq := (s.link c.1).txq ++ [{ x with home := c.2 }] }).crossPut (1024 + c.1)
  else s

/-- A cell that must be forwarded but has no hops left is dropped and counted in LK_NOROUTE (R323). -/
def State.noRoute (s : State) (l : Nat) : State := s.addRg (linkDie l) (lkOff l + 0x98) 1

/-- Sends on what came by `v`, with one hop fewer (R323). -/
def State.forward (s : State) (v : Hop) (send : Nat → State) : State :=
  if v.hops == 0 then s.noRoute v.link else send (v.hops - 1)

/-! Payload layouts the spec leaves to the ports (assumption log 16). -/

/-- STAGE_HDR: the 64 B header, then EPOCH, CUT, DEPTH and SIZE in one word. -/
def hdrPayload (header : List Word) (epoch : Nat) (cut : Bool) (depth size : Nat) : List Byte :=
  bytesOf header ++ leBytes 8 (epoch * 2 ^ 48 + cut.toNat * 2 ^ 47 + depth * 2 ^ 40 + size)

/-- One stage-link credit return of 8 B; bits 51 to 48 name the partition that returns it. -/
def creditWord (c : SlCredit) : Word :=
  BitVec.ofNat 64 (c.part % 16 * 2 ^ 48 + c.epoch * 2 ^ 32 + c.disc.toNat * 2 ^ 18 + c.idx * 2 ^ 12 + c.dst)

/-- A credit that came over a link: its partition is its handle's (`part` names none). -/
def creditOf (w : Word) : SlCredit :=
  { part := 8, dst := fld w 11 0, idx := fld w 17 12, disc := bitOf w 18, epoch := fld w 47 32 }

/-! Cells of the units (R307): payloads as words, word 0 what the cell is, words below what it concerns (assumption log 16). -/

/-- OBJECT of a class-2 cell that carries no granted write. -/
def noGrant : Nat := 0xFFF

def unitBytes (ws : List Nat) : List Byte := ws.flatMap (leBytes 8)
def payWords (bs : List Byte) : List Nat := (wordsOf ((bs.length + 7) / 8) bs).map (·.toNat)
def unitWords (c : LkCell) : List Nat := payWords c.payload

/-- Cells waiting at the units that satisfy `f`, and the state without them. -/
def State.unitCells (s : State) (f : LkCell → Bool) : List LkCell := s.unitIn.filter f
def State.dropUnit (s : State) (f : LkCell → Bool) : State := { s with unitIn := s.unitIn.filter fun c => !f c }

/-- The first cell of a class whose payload's first words are `ws`. -/
def State.unitCell (s : State) (cls : Nat) (ws : List Nat) : Option LkCell :=
  s.unitIn.find? fun c => c.cls == cls && (unitWords c).take ws.length == ws

/-- The state without that cell. -/
def State.takeCell (s : State) (c : LkCell) : State := { s with unitIn := s.unitIn.erase c }

/-- `n` bytes from position `pos` of what cells carry, if all have arrived. -/
def cellsAt (cs : List LkCell) (pos : Nat) : Nat → Option (List Byte)
  | 0 => some []
  | n + 1 =>
    match cs.find? fun c => decide (c.offset * 8 ≤ pos) && decide (pos < c.offset * 8 + c.payload.length) with
    | none => none
    | some c => (cellsAt cs (pos + 1) n).map fun r => c.payload.getD (pos - c.offset * 8) 0 :: r

/-- The first cells of a list that together carry `n` bytes, if they do: the cells of one transfer come in order (R307, R310). -/
def cellRun : List LkCell → Nat → Option (List LkCell)
  | [], n => if n == 0 then some [] else none
  | c :: r, n =>
    if n == 0 then some []
    else if c.payload.length ≥ n then some [c] else (cellRun r (n - c.payload.length)).map fun l => c :: l

/-- The cells that carry a transfer of `n` bytes from OFFSET `o` on: each the first at its OFFSET that link `l` brought or, where the
transfer was rerouted on its way, another link (R320). -/
def cellChain : List LkCell → Nat → Nat → Nat → Nat → Option (List LkCell)
  | _, _, _, 0, _ => some []
  | _, _, _, _, 0 => none
  | cs, l, o, n + 1, k + 1 =>
    match ((cs.find? fun c => c.offset == o && c.via == l).orElse fun _ => cs.find? fun c => c.offset == o) with
    | none => none
    | some c => if c.payload.isEmpty then none
      else (cellChain (cs.erase c) c.via (o + c.payload.length / 8) (n + 1 - c.payload.length) k).map fun r => c :: r

/-- The state without some cells. -/
def State.takeCells (s : State) (cs : List LkCell) : State := cs.foldl State.takeCell s

/-- How a cell that was delivered came here. -/
def hopOf (c : LkCell) : Hop := { link := c.via, hops := c.hops }

/-- Items that wait at the links and satisfy `f` are dropped. -/
def State.dropQueued (s : State) (f : TxItem → Bool) : State :=
  { s with links := s.links.map fun kv => (kv.1, { kv.2 with txq := kv.2.txq.filter fun x => !f x }) }

/-- What a fence leaves of an item that waits at a link: nothing of one of its partition; of an SLCREDIT cell the other partitions'
returns (R20, R192, R251). -/
def fencedItem (p : Nat) (x : TxItem) : Option TxItem :=
  if x.cls == 7 then
    let ws := (wordsOf (x.payload.length / 8) x.payload).filter fun w => fld w 51 48 != p
    if ws.isEmpty then none else some { x with payload := bytesOf ws }
  else if x.part == p then none else some x

end Sys2Proof.Machine
end

