-- ==== Sys2Proof/Machine/Ops.lean ====
section
/-! DEFINITION. The sequencer's shared operations: registers and CSR words of a context (R91, R119), running an instruction
on a tile (R93), TAKING A TRAP (R121) and the return from it (R123), the end of a tile's part (R133, R174, R353), the end of a
filler task (R208), FENCE's points (R105), the Transit log's phases (R213). -/
namespace Sys2Proof.Machine

/-- Reads a general register; g0 reads as zero (R91). -/
def Ctx.reg (c : Ctx) (r : Reg) : Word := if r = 0 then 0 else c.g.val 0 r.toNat

/-- Writes a general register; writes to g0 are discarded (R91). -/
def Ctx.setReg (c : Ctx) (r : Reg) (v : Word) : Ctx := if r = 0 then c else { c with g := c.g.put r.toNat v }

/-- Reset values of the CSRs a context holds (R81, R119). -/
def csrReset (n : Nat) : Word := if 0x20 ≤ n && n < 0x24 then 0xFFFFFFFFFFFFFFFF else 0

def Ctx.cs (c : Ctx) (n : Nat) : Word := c.csr.val (csrReset n) n
def Ctx.setCs (c : Ctx) (n : Nat) (v : Word) : Ctx := { c with csr := c.csr.put n v }

def State.g (s : State) (t : Nat) (r : Reg) : Word := (s.tile t).ctx.reg r

def State.setG (s : State) (t : Nat) (r : Reg) (v : Word) : State :=
  let x := s.tile t
  s.setTile t { x with ctx := x.ctx.setReg r v }

/-- The code of a cause (R124). -/
def causeCode : Cause → Nat
  | .illegal => 0x01 | .misaligned => 0x02 | .access => 0x03 | .controlSpace => 0x04 | .absentUnit => 0x05
  | .mmaOperand => 0x06 | .debugOnly => 0x07 | .dmaDescriptor => 0x08 | .dmaTag => 0x09 | .channel => 0x0A
  | .stageLink => 0x0B | .almanac => 0x0C | .collective => 0x0D | .releaseBarred => 0x0E | .gnormRule => 0x0F
  | .exchange => 0x10 | .recipe => 0x11 | .csr => 0x12 | .software => 0x13 | .fetch => 0x14

/-! The Transit log's account (R213). -/

def State.tlEn (s : State) (t : Nat) : Bool := s.rb (t / 96) (tlOff t) 63

/-- Whether an apply of tile `t` that no MSA has taken waits, for its collective or after that has completed (R232). -/
def Coll.waitsFor (c : Coll) (t : Nat) (complete : Bool) : Bool :=
  c.applies.any fun a => a.tile == t && !a.started && !a.gone && (c.rounds.any fun r => r.step == a.step && r.complete) == complete

/-- The phase of an interval that no wait of the tile's own and no task explains (R213): that of an apply that waits, which the tile does
not stand still for (R94, R232); else the phase of the entry popped last, forward before the first pop and on the first stage after
that entry's release. Where an apply waits while the tile itself waits in an instruction with a phase, that instruction's counts
(DESIGN CHOICE, assumption log 39). -/
def State.basePhase (s : State) (t : Nat) : Nat :=
  let x := (s.tile t).transit
  if (s.tile t).saved.isSome then 4
  else if s.colls.any fun kv => kv.2.waitsFor t false then 2
  else if s.colls.any fun kv => kv.2.waitsFor t true then 3
  else if !x.popped then 0
  else if x.released && s.rf (t / 96) (tlOff t) 9 0 == 0 then 0
  else x.popPhase

/-- Closes the interval under way and opens one in phase `ph`. -/
def State.setPhase (s : State) (t ph : Nat) : State :=
  if s.tlEn t then
    let x := s.tile t
    let tr := x.transit
    let now := s.now (t / 96)
    s.setTile t { x with transit := { tr with
      acc := tr.acc.put tr.phase (tr.acc.val 0 tr.phase + (now - tr.since)), phase := ph, since := now } }
  else s

/-! FENCE's points (R105). -/

/-- Whether collective work of tile `t` is incomplete: a source not yet read, an apply no MSA has taken. -/
def Coll.busyFor (c : Coll) (t : Nat) : Bool :=
  (c.contribs.any fun x => x.tile == some t && !x.sent) || c.applies.any fun a => a.tile == t && !a.started && !a.gone

/-- Whether exchange work of tile `t` is incomplete: a return not yet read, a combine issued and not written. -/
def ExState.busyFor (x : ExState) (t : Nat) : Bool :=
  (x.returns.any fun r => r.tile == t) || x.disps.any fun d => d.tile == t && d.dest.isSome && decide (d.written.length < d.count)

/-- Whether every earlier request of each class selected in `fn` has reached its point. Stores, CACHE write-backs and the
reads of messages and records take effect at issue in this model. -/
def State.fencePassed (s : State) (t fn : Nat) : Bool :=
  let x := s.tile t
  (!natBit fn 2 || x.mmaq.isEmpty)
  && (!natBit fn 3 || x.vecq.isEmpty)
  && (!natBit fn 4 || x.dma.all fun d => d.status.isSome)
  && (!natBit fn 6 || s.flights.all fun f => f.remoteIn || f.tile != t || f.done ≥ f.len || f.dropped)
  && (!natBit fn 7 || s.colls.all fun c => !c.2.busyFor t)
  && (!natBit fn 8 || s.exch.all fun e => !e.2.busyFor t)

/-- The phase of a wait on RX work of tile `t` (R213, R232): reduce-wait while an apply's collective is incomplete, else optimizer. -/
def State.rxPhase (s : State) (t : Nat) : Nat := if s.colls.any fun kv => kv.2.waitsFor t false then 2 else 3

/-- The phase of a FENCE's wait (R19, R213): that of RX work while some is incomplete, idle for a transfer that waits for the Pantry. -/
def State.fencePhase (s : State) (t fn : Nat) : Nat :=
  if natBit fn 7 && s.colls.any fun c => c.2.busyFor t then s.rxPhase t
  else if natBit fn 4 && (s.tile t).dma.any fun d => d.waiting && d.status.isNone then 5
  else if natBit fn 7 then 3 else 6

/-- The phase of a tile's interval by the instruction it waits in (R213, R274), 6 where none gives one. -/
def State.ownPhase (s : State) (t : Nat) : Nat :=
  let x := s.tile t
  let g (r : Reg) : Nat := if r = 0 then 0 else (x.ctx.g.val 0 r.toNat).toNat
  match x.ctx.wait with
  | some (.sqPop _ _ _ _) | some (.chRecv _ _ _ _) | some (.chSelectP _ _ _) | some (.chSelectR _ _ _) => 5
  | some (.sqPush _ ga _) =>
    let reading (f : SlFlight) : Bool := f.src == g ga % 2 ^ 12 && !f.remoteIn && decide (f.done < f.len) && !f.dropped
    if x.ctx.held.isEmpty || s.flights.any reading then 6 else 5
  | some (.dmaWait _ _ ga) => if x.dma.any fun d => d.tag == g ga && d.nextWait then 5 else 6
  | some (.rxWait _ _ _ _) => 2
  | some (.alCommit _ _ _) => 3
  | some (.fence _ fn) => s.fencePhase t fn.toNat
  | some (.halt _) => s.fencePhase t 0x1FF
  | _ => 6

/-- The phase that an interval of tile `t` is in from now on. -/
def State.waitPhase (s : State) (t : Nat) : Nat :=
  let ph := s.ownPhase t
  if ph == 6 || (s.tile t).saved.isSome then s.basePhase t else ph

/-- The Transit log's account goes on in the phase that now holds. -/
def State.rephase (s : State) (t : Nat) : State :=
  if (s.tile t).live && (s.tile t).transit.phase != s.waitPhase t then s.setPhase t (s.waitPhase t) else s

/-- Every unit of the tile idle, no accepted request outstanding (R207). -/
def State.unitsIdle (s : State) (t : Nat) : Bool := s.fencePassed t 0x1FF && s.msgs.all fun m => m.sender != t

/-! The end of a tile's part. -/

/-- All queue contents discarded and counted, epochs advanced by one, stall episodes ended (R174, R177). -/
def Tile.advanceEpochs (x : Tile) : Tile :=
  { x with
    counts := (List.range 16).foldl (fun c q =>
      let n := (x.queues.val [] q).length
      if n == 0 then c else c.put (0x130 + q) (c.val 0 (0x130 + q) + BitVec.ofNat 64 n)) x.counts,
    queues := [], epoch := x.epoch + 1, wd := [] }

/-- Clears every array: accumulators, classes, slots never loaded (R208, R436). -/
def Tile.clearArrays (x : Tile) : Tile :=
  { x with arrays := x.arrays.map fun kv => (kv.1, { kv.2 with
      cls := .clear, slots := [], acc := [], iCls := .clear, iSlots := [], streams := [], nStreams := 0, shift := 0 }) }

/-- A tile that waited in AL.COMMIT has ended: its commits stay accepted (R351), and their answers go nowhere. -/
def AlGroup.leave (x : AlGroup) (t : Nat) : AlGroup :=
  { x with commits := x.commits.map fun c => if c.1 == t then (768, c.2) else c, answers := x.answers.del t }

/-- Once an ended filler task's accepted requests are complete, the primary's wait resumes, where its part still runs (R208). -/
def State.fillerSettle (s : State) (t : Nat) : State :=
  let x := s.tile t
  match x.saved with
  | none => s
  | some c =>
    if x.ending && s.unitsIdle t then
      let y := { x with ctx := c, saved := none, ending := false, l1 := {} }
      let y := if s.rb (t / 96) (filOff t) 61 then y.clearArrays else y
      if x.live then (s.setTile t y).setPhase t 5 else s.setTile t y
    else s

/-- Ends the running filler task (R208). -/
def State.fillerEnd (s : State) (t : Nat) : State :=
  let x := s.tile t
  (s.setTile t { x with ending := true, ctx := { x.ctx with wait := none } }).fillerSettle t

/-- The end of a tile's part in a job: it runs nothing more, the L1 is invalidated without write-back, the epochs advance
and the queues close (R133, R174); the tags of complete transfers return to the pool (R144); a filler task that runs ends as at its
bound (R210, R359). -/
def State.stopTile (s : State) (t : Nat) : State :=
  let x := s.tile t
  if x.live || !x.closed then
    let done := (x.dma.filter fun d => d.status.isSome).map (·.tag)
    let s := if x.live && x.saved.isSome && !x.ending then s.tileReportX 0x004 t else s
    let s := { s with
      tags := s.tags.filter fun g => g.2 != t || !done.contains g.1,
      groups := s.groups.map fun (kv : Nat × AlGroup) => (kv.1, kv.2.leave t) }
    (s.setTile t { x.advanceEpochs with
      live := false, closed := true, l1 := {}, ending := x.saved.isSome, saved := x.saved.map fun (c : Ctx) => { c with wait := none },
      ctx := { x.ctx with wait := none }, transit := { x.transit with acc := [], phase := 0, ended := true },
      dma := x.dma.filter fun d => d.status.isNone }).fillerSettle t
  else s

/-- The tiles of a partition's groups. -/
def Part.tiles (p : Part) : List Nat := (List.range 768).filter fun t => natBit p.groups (t / 8)

/-- FIL_CTL.EN of every tile of the partition cleared, rings no tile names ended (R211, R351). -/
def State.clearFillers (s : State) (p : Nat) : State :=
  let s := (s.part p).tiles.foldl (fun s t =>
    if s.rb (t / 96) (filOff t) 63 then s.setRb (t / 96) (filOff t) 63 false else s) s
  let named (r : FilRing) : Bool := (List.range 96).any fun i =>
    s.rb r.hob (filOff i) 63 && s.rf r.hob (filOff i + 8) 47 0 == r.base
  { s with rings := s.rings.filter named }

/-- PART_EVENTS bits (R350). -/
def State.partEvent (s : State) (p bit : Nat) : State := s.setRb dieMerA (partOff p + 0x20) bit true

/-- Entry to ENDING (R351): every tile's part ends, FIL_CTL.EN is cleared, the event is set; the filler job ends. -/
def State.enterEnding (s : State) (p bit : Nat) (ev : Bool) : State :=
  let s := (s.part p).tiles.foldl State.stopTile s
  let s := s.setPart p { s.part p with st := .ending, filler := false }
  let s := s.clearFillers p
  if ev then s.partEvent p bit else s

/-- After a tile's part has ended: the partition enters ENDING with its last tile; ENDED_SEEN for a HALT (R350, R351). -/
def State.tileEnded (s : State) (t : Nat) (byHalt : Bool) : State :=
  let p := (s.tile t).part
  let s := s.stopTile t
  if (s.part p).st == .running && (s.part p).tiles.all fun u => !(s.tile u).live then s.enterEnding p 0 byHalt else s

/-! Traps. -/

/-- TAKING A TRAP (R121): with no handler, or in one, a filler task ends and a tile halts, each with its report; otherwise
the handler is entered. -/
def State.takeTrap (s : State) (t len : Nat) (c : Cause) (v : Word) : State :=
  let x := s.tile t
  let code : Word := BitVec.ofNat 64 (causeCode c)
  if bitOf (x.ctx.cs 0x14) 0 || x.ctx.cs 0x10 == 0 then
    if x.saved.isSome then (s.tileReport 0x005 t code).fillerEnd t
    else
      let d := t / 96
      let s := ((s.setRg d (trapOff t + 8) (x.ctx.pc.setWidth 64)).setRg d (trapOff t + 0x10) code).setRg d (trapOff t + 0x18) v
      (s.tileReport 0x000 t code).tileEnded t false
  else
    let ctx := ((x.ctx.setCs 0x11 (x.ctx.pc.setWidth 64)).setCs 0x12 code).setCs 0x13 v
    let ctx := ctx.setCs 0x14 (if len == 8 then 3 else 1)
    s.setTile t { x with ctx := { ctx with pc := (x.ctx.cs 0x10).setWidth 48, wait := none } }

/-- What an instruction's own effect gives: it completes and the pc moves past it, it completes with a new pc, it traps
before any effect, it waits (with the Transit phase of the wait; 6 for the tile's ordinary phase), or the tile's part or the
filler task ends. -/
inductive TRes where
  | done (s : State)
  | goto (s : State) (pc : BitVec 48)
  | trap (c : Cause) (v : Word)
  | wait (s : State) (ph : Nat)
  | gone (s : State)

/-- A completed instruction: the pc, no wait, and the ordinary phase when a wait ends. -/
def State.retire (s : State) (t : Nat) (pc : BitVec 48) : State :=
  let x := s.tile t
  let waited := x.ctx.wait.isSome
  let s := s.setTile t { x with ctx := { x.ctx with pc := pc, wait := none } }
  if waited then s.setPhase t (s.basePhase t) else s

/-- Runs instruction `i`, `len` bytes long, with effect `f`, on tile `t`: only where a tile's part runs, and only the
instruction it waits in, if it waits; the fetch must lie in the partition's DRAM (R93, R124). -/
def State.run (s : State) (t len : Nat) (i : Instr) (f : State → TRes) : Host.Outcome State Fault Refusal :=
  let x := s.tile t
  if !x.live || x.ending then .next s
  else if x.ctx.wait.isSome && x.ctx.wait != some i then .next s
  else if !x.ctx.wait.isSome && !s.inDramOf x.part x.ctx.pc.toNat len then
    .next (s.takeTrap t len .fetch (x.ctx.pc.setWidth 64))
  else
    match f s with
    | .done s' => .next (s'.retire t (x.ctx.pc + BitVec.ofNat 48 len))
    | .goto s' pc => .next (s'.retire t pc)
    | .trap c v =>
      let s' := s.takeTrap t len c v
      .next (if x.ctx.wait.isSome then s'.setPhase t (s'.basePhase t) else s')
    | .gone s' => .next s'
    | .wait s' ph =>
      let ph := if ph == 6 || x.saved.isSome then s'.basePhase t else ph
      let y := s'.tile t
      let s' := s'.setTile t { y with ctx := { y.ctx with wait := some i } }
      .next (if (s'.tile t).transit.phase == ph then s' else s'.setPhase t ph)

/-- Whether the tile's running context is a filler task (R208). -/
def State.inFiller (s : State) (t : Nat) : Bool := (s.tile t).saved.isSome

/-- An instruction class a filler task may not use (R209). -/
def noFiller (s : State) (t : Nat) (c : Cause) (v : Word) (k : TRes) : TRes := if s.inFiller t then .trap c v else k

/-- A register written and the instruction done. -/
def doneG (s : State) (t : Nat) (r : Reg) (v : Word) : TRes := .done (s.setG t r v)

/-! Operand addresses (R92, R435). -/

/-- The tile's own scratchpad as its running context may use it: all of it, or a filler task's window FIL_WIN (R209). -/
def State.ownArea (s : State) (t : Nat) : Nat × Nat :=
  if s.inFiller t then
    let lo := s.rf (t / 96) (filOff t + 0x18) 15 0 * 1024
    let hi := lo + s.rf (t / 96) (filOff t + 0x18) 31 16 * 1024
    (spBase t + min lo spSize, spBase t + min hi spSize)
  else (spBase t, spBase t + spSize)

/-- The lowest of `n` bytes from `a` outside the tile's own scratchpad, if any. -/
def State.outsideOwn (s : State) (t a n : Nat) : Option Nat :=
  let w := s.ownArea t
  if n == 0 then none
  else if a < w.1 || a ≥ w.2 then some a
  else if a + n > w.2 then some w.2 else none

/-- R435: an operand of `n` bytes in the tile's own scratchpad, aligned to `al`: outside traps with ACCESS, misaligned with
the instruction's own cause. -/
def State.checkOwn (s : State) (t a n al : Nat) (c : Cause) (v : Word) : Option (Cause × Word) :=
  match s.outsideOwn t a n with
  | some b => some (.access, BitVec.ofNat 64 b)
  | none => if a % al != 0 then some (c, v) else none

/-- Goes on when a check finds nothing, traps with what it finds. -/
def orTrap (c : Option (Cause × Word)) (k : TRes) : TRes :=
  match c with
  | some (cause, v) => .trap cause v
  | none => k

/-- Goes on once every byte that is read is valid; until then the instruction waits for the cut-through entry (R193). -/
def orHold (s : State) (a n : Nat) (k : TRes) : TRes := if s.cutPending a n then .wait s 6 else k

/-- The bytes of 16-bit immediate `imm`, sign-extended, added to a base (R103). -/
def effAddr (b : Word) (imm : BitVec 16) : Word := b + imm.signExtend 64

/-! The first words of instructions, for ILLEGAL's TRAP_VALUE (R96, R124). -/

def wordX (op xop : Nat) (gd ga gb gc : Reg) : Word :=
  BitVec.ofNat 64 (op + gd.toNat * 2 ^ 6 + ga.toNat * 2 ^ 11 + gb.toNat * 2 ^ 16 + gc.toNat * 2 ^ 21 + xop * 2 ^ 26)

def wordA (op fn : Nat) (gd ga gb : Reg) : Word :=
  BitVec.ofNat 64 (op + gd.toNat * 2 ^ 6 + ga.toNat * 2 ^ 11 + gb.toNat * 2 ^ 16 + fn * 2 ^ 21)

end Sys2Proof.Machine
end

