-- ==== Sys2Proof/Machine/Almanac.lean ====
section
/-! DEFINITION. The Almanac: groups, versions, counts, commits, mirrored groups (R115, R195 to R205, R437). -/
namespace Sys2Proof.Machine

def alOff (g : Nat) : Nat := 0x200000 + g * 0x80
def albOff (b : Nat) : Nat := 0x300000 + b * 0x10

def State.group (s : State) (g : Nat) : AlGroup := s.groups.val {} g
def State.setGroup (s : State) (g : Nat) (x : AlGroup) : State := { s with groups := s.groups.put g x }

def State.alCfg (s : State) (g : Nat) : Word := s.rg dieMerA (alOff g)
def State.alValid (s : State) (g : Nat) : Bool := decide (g < 1024) && bitOf (s.alCfg g) 63
def State.alCommitter (s : State) (g : Nat) : Nat := fld (s.alCfg g) 62 61
def State.alMirror (s : State) (g : Nat) : Bool := bitOf (s.alCfg g) 60
def State.alPart (s : State) (g : Nat) : Nat := fld (s.alCfg g) 59 57
def State.alFirst (s : State) (g : Nat) : Nat := fld (s.alCfg g) 27 16
def State.alNblk (s : State) (g : Nat) : Nat := fld (s.alCfg g) 12 0

def alSlotsOf (w : Word) : Nat := 2 * 2 ^ fld w 56 55
def State.alSlots (s : State) (g : Nat) : Nat := alSlotsOf (s.alCfg g)

/-- BASE, STRIDE and BYTES of a block (R196). -/
def State.alBase (s : State) (b : Nat) : Nat := s.rf dieMerA (albOff b) 47 0
def State.alStride (s : State) (b : Nat) : Nat := s.rf dieMerA (albOff b + 8) 31 0
def State.alBytes (s : State) (b : Nat) : Nat := s.rf dieMerA (albOff b + 8) 63 32

/-- Where version `v` of block `b` of group `g` lives (R195). -/
def State.alBuffer (s : State) (g b v : Nat) : Nat := s.alBase b + v % s.alSlots g * s.alStride b

/-- The valid group a block belongs to. -/
def State.alGroupOf (s : State) (b : Nat) : Option Nat :=
  let g := s.rf dieMerA (albOff b) 63 54
  if b < 4096 && s.alValid g && s.alFirst g ≤ b && b < s.alFirst g + s.alNblk g then some g else none

/-! Versions. -/

def verDist (a b : BitVec 16) : Nat := (a - b).toNat

/-- Versions held. -/
def AlGroup.heldCount (x : AlGroup) : Nat := verDist x.current x.oldest + 1
def AlGroup.holds (x : AlGroup) (v : BitVec 16) : Bool := decide (verDist v x.oldest ≤ verDist x.current x.oldest)
def AlGroup.count (x : AlGroup) (v : BitVec 16) : Nat := x.counts.val 0 v.toNat

/-- Whether OLDEST may retire (R197): `m` is MIRRORED of a mirrored group. -/
def AlGroup.mayRetire (x : AlGroup) (m : Option (BitVec 16)) : Bool :=
  x.oldest != x.current && x.count x.oldest == 0 &&
    (match m with | none => true | some v => decide (verDist x.oldest x.oldest < verDist v x.oldest) && x.holds v)

/-- Retirements in version order. -/
def AlGroup.retireGo (m : Option (BitVec 16)) : Nat → AlGroup → AlGroup
  | 0, x => x
  | k + 1, x =>
    if x.mayRetire m then AlGroup.retireGo m k { x with oldest := x.oldest + 1, counts := x.counts.del x.oldest.toNat }
    else x

/-- MIRRORED as AL_GSTATE shows it. -/
def State.alMirrored (s : State) (g : Nat) : BitVec 16 :=
  if s.alMirror g then (s.group g).mirrored else (s.group g).current

def State.alRetire (s : State) (g : Nat) : State :=
  let x := s.group g
  s.setGroup g (x.retireGo (if s.alMirror g then some x.mirrored else none) 8)

/-- Whether the group's staging buffer holds no held version. -/
def State.alStagingFree (s : State) (g : Nat) : Bool := decide ((s.group g).heldCount < s.alSlots g)

/-- Whether only MIRRORED keeps OLDEST (R204). -/
def State.alLagging (s : State) (g : Nat) : Bool :=
  let x := s.group g
  s.alMirror g && !x.mayRetire (some x.mirrored) && x.mayRetire none

/-- The mirror-lag condition starts or ends with a commit or apply that waits only because of MIRRORED (R204). -/
def State.alLag (s : State) (g : Nat) : State :=
  let x := s.group g
  let lag := x.waiting && s.alLagging g
  if lag == x.lag then s
  else
    let s := s.setGroup g { x with lag := lag }
    if lag then s.reportX 0x01D g (some (s.alPart g)) else s.endCond 0x01D g

/-! Applies of a group (R200, R361): the next one, and whether it may start but for the staging buffer. -/

/-- The collectives that the MSAs apply into a group. -/
def State.alColls (s : State) (g : Nat) : List (Nat × Coll) :=
  s.colls.filter fun kv =>
    let w := s.rg dieMerA (rxOff kv.1)
    decide (kv.1 < 4096) && bitOf w 63 && bitOf w 29 && fld w 39 30 == g

/-- The oldest apply of a group, with its collective, that has neither committed nor been discarded. -/
def State.alOldestApply (s : State) (g : Nat) : Option (Nat × Apply) :=
  ((s.alColls g).flatMap fun kv => (kv.2.applies.filter fun a => !a.gone).map fun a => (kv.1, a)).foldl (fun o x =>
    match o with
    | some y => if x.2.order < y.2.order then some x else some y
    | none => some x) none

/-- Whether an apply's collective has completed, with its norm formed where it clips by it (R16, R241). -/
def State.applyComplete (s : State) (h : Nat) (a : Apply) : Bool :=
  ((s.colls.val {} h).rounds.any fun r => r.step == a.step && r.complete)
    && (!bitOf (wordAt a.desc 0) 47 || s.gsteps.any fun g => g.step == a.step && g.formed.isSome)

/-- The apply that asks for the group's staging buffer: the oldest one, not started, its collective complete (R200). -/
def State.alWants (s : State) (g : Nat) : Option (Nat × Apply) :=
  (s.alOldestApply g).filter fun x => !x.2.started && s.applyComplete x.1 x.2

/-- The apply that takes the group's staging buffer once that is free: in a mirrored group it waits until MIRRORED has caught up
(R361). -/
def State.alNextApply (s : State) (g : Nat) : Option (Nat × Apply) :=
  if !s.alMirror g || (s.group g).mirrored == (s.group g).current then s.alWants g else none

/-! Copies to the mirror (R204, R361). -/

/-- The link a copy goes by: the lowest-numbered mirror link in use. -/
def State.mirrorLink (s : State) : Option Nat :=
  (List.range 24).find? fun l => s.linkPresent l && s.lkB l 0 63 && (s.link l).mirror && !(s.link l).refEp

/-- The optimizer state a version's apply wrote (R361): of each shard of its collective MASTER, MOM1 and, but for SGDM, MOM2, with
their scale planes. -/
def State.alStateRanges (s : State) (g : Nat) : List (Nat × Nat) :=
  match (s.group g).author with
  | none => []
  | some (h, two) =>
    let l := s.rf dieMerA (rxOff h + 8) 31 0
    (s.colls.val {} h).shards.flatMap fun w =>
      [(fld (wordAt w 1) 47 0, 4 * l), (fld (wordAt w 2) 47 0, l + l / 32)]
        ++ (if two then [(fld (wordAt w 3) 47 0, l + l / 32)] else [])

/-- The ranges (address, length) that the copy of version `v` carries: the group's blocks, and what its apply wrote besides. -/
def State.alRanges (s : State) (g v : Nat) : List (Nat × Nat) :=
  ((List.range (s.alNblk g)).map fun i => (s.alBuffer g (s.alFirst g + i) v, s.alBytes (s.alFirst g + i)))
  ++ (if s.alCommitter g == 1 then s.alStateRanges g else [])

/-- The copy's first words: the version and how many ranges it carries, then each range (assumption log 16). -/
def copyHead (v : Nat) (rs : List (Nat × Nat)) : List Byte :=
  unitBytes ((v * 2 ^ 32 + rs.length) :: rs.flatMap fun r => [r.1, r.2])

/-- The ranges with their positions in the copy. -/
def copyPlaces (rs : List (Nat × Nat)) : List (Nat × Nat × Nat) :=
  (rs.foldl (fun (acc : List (Nat × Nat × Nat) × Nat) r => (acc.1 ++ [(acc.2, r)], acc.2 + roundUp r.2 8)) ([], 8 + 16 * rs.length)).1

/-- Sends bytes of a copy in cells, read as they go. -/
def State.alSend (l g p pos n : Nat) (read : Nat → Nat → State → List Byte × State) (s : State) : State :=
  let k := s.cellBytes l
  (List.range (cdiv n k)).foldl (fun s i =>
    let r := read (i * k) (min k (n - i * k)) s
    r.2.linkSend l { cls := 4, object := g, offset := (pos + i * k) / 8, payload := r.1, part := p }) s

/-- Starts the copy of the next version the mirror lacks, one at a time, in version order; with no mirror link up it waits. -/
def State.alCopy (s : State) (g : Nat) : State :=
  let x := s.group g
  if s.alMirror g && s.alCommitter g != 2 && x.copying.isNone && x.mirrored != x.current then
    match s.mirrorLink with
    | none => s
    | some l =>
      let v := (x.mirrored + 1).toNat
      let p := s.alPart g
      let rs := s.alRanges g v
      let head := copyHead v rs
      let s := s.setGroup g { x with copying := some v }
      let s := State.alSend l g p 0 head.length (fun i n s => ((head.drop i).take n, s)) s
      (copyPlaces rs).foldl (fun s q => State.alSend l g p q.1 q.2.2 (fun i n s =>
        let r := s.readAny p (q.2.1 + i) n
        (r.1, r.2.2)) s) s
  else s

/-- A mirror link has come up: copies that waited for one start (R204). -/
def State.alCopyAll (s : State) : State := (s.groups.map (·.1)).foldl (fun s g => if s.alValid g then s.alCopy g else s) s

/-- A copy under way is abandoned: its cells not yet sent, and here those that have arrived. -/
def State.dropCopy (s : State) (g : Nat) : State :=
  (s.dropQueued fun x => x.cls == 4 && x.object == g).dropUnit fun c => c.cls == 4 && c.object == g

/-! Commits (R199, R202). -/

/-- Steps 1 and 2: the staging buffer's version becomes current, its count zero. -/
def State.alAdvance (s : State) (g : Nat) : State :=
  let x := s.group g
  let v := x.current + 1
  let s := s.setGroup g { x with current := v, counts := x.counts.put v.toNat 0, written := [] }
  (s.alRetire g).alCopy g

/-- Works through the waiting commits of a group. -/
def State.alTurns (g : Nat) : Nat → State → State
  | 0, s => s
  | k + 1, s =>
    let x := s.group g
    match x.commits with
    | [] => s
    | (t, none) :: r =>
      let s := s.alAdvance g
      let y := s.group g
      State.alTurns g k (s.setGroup g { y with commits := (t, some y.current.toNat) :: r })
    | (t, some v) :: r =>
      if s.alStagingFree g then
        State.alTurns g k (s.setGroup g { x with commits := r, answers := if t < 768 then x.answers.put t (BitVec.ofNat 64 v) else x.answers })
      else s

/-- After anything that may begin or end a wait: retirements, turns, WAITING and the lag (R197, R200, R204). -/
def State.alKick (s : State) (g : Nat) : State :=
  let s := s.alRetire g
  let s := State.alTurns g (2 * (s.group g).commits.length + 1) s
  let x := s.group g
  (s.setGroup g { x with waiting := !x.commits.isEmpty || ((s.alWants g).isSome && !s.alStagingFree g) }).alLag g

/-! Instructions (R115, R196, R198). -/

/-- The group that an AL instruction's block names, owned by the tile's partition. -/
def alBlock (s : State) (t : Nat) (w : Word) (k : Nat → TRes) : TRes :=
  let b := fld w 11 0
  let v : Word := BitVec.ofNat 64 b
  noFiller s t .almanac v <|
    match s.alGroupOf b with
    | some g => if s.alPart g == (s.tile t).part then k g else .trap .almanac v
    | none => .trap .almanac v

/-- Raises a version's count; past its largest value it stays and is reported (R198). -/
def State.alRaise (s : State) (g : Nat) (v : BitVec 16) : State :=
  let x := s.group g
  if x.count v ≥ 0xFFFFFFFF then s.reportX 0x01C g (some (s.alPart g))
  else s.setGroup g { x with counts := x.counts.put v.toNat (x.count v + 1) }

def execAlGet (t : Nat) (gd ga : Reg) (s : State) : Host.Outcome State Fault Refusal :=
  s.run t 4 (.alGet t gd ga) fun s =>
    alBlock s t (s.g t ga) fun g => doneG s t gd ((s.group g).current.setWidth 64)

def execAlGetP (t : Nat) (gd ga : Reg) (s : State) : Host.Outcome State Fault Refusal :=
  s.run t 4 (.alGetP t gd ga) fun s =>
    alBlock s t (s.g t ga) fun g =>
      let v := (s.group g).current
      doneG (s.alRaise g v) t gd (v.setWidth 64)

def execAlPin (t : Nat) (ga gb : Reg) (s : State) : Host.Outcome State Fault Refusal :=
  s.run t 4 (.alPin t ga gb) fun s =>
    alBlock s t (s.g t ga) fun g =>
      let v : BitVec 16 := (s.g t gb).setWidth 16
      if (s.group g).holds v then .done (s.alRaise g v) else .trap .almanac (BitVec.ofNat 64 (fld (s.g t ga) 11 0))

/-- AL.UNPIN: a version whose count reaches zero may retire, and waits may end. -/
def execAlUnpin (t : Nat) (ga gb : Reg) (s : State) : Host.Outcome State Fault Refusal :=
  s.run t 4 (.alUnpin t ga gb) fun s =>
    alBlock s t (s.g t ga) fun g =>
      let v : BitVec 16 := (s.g t gb).setWidth 16
      let x := s.group g
      if !x.holds v || x.count v == 0 then .trap .almanac (BitVec.ofNat 64 (fld (s.g t ga) 11 0))
      else .done ((s.setGroup g { x with counts := x.counts.put v.toNat (x.count v - 1) }).alKick g)

/-- AL.COMMIT (R115, R199, R202): it takes its turn, then waits for a free staging buffer; the answer goes to gd. -/
def execAlCommit (t : Nat) (gd ga : Reg) (s : State) : Host.Outcome State Fault Refusal :=
  s.run t 4 (.alCommit t gd ga) fun s =>
    let g := fld (s.g t ga) 11 0
    let v : Word := BitVec.ofNat 64 g
    let answer (s : State) : TRes :=
      let x := s.group g
      match x.answers.find t with
      | some w => doneG (s.setGroup g { x with answers := x.answers.del t }) t gd w
      | none => .wait s 3
    if (s.tile t).ctx.wait.isSome then answer s
    else noFiller s t .almanac v <|
      if !s.alValid g || s.alPart g != (s.tile t).part || s.alCommitter g != 0 then .trap .almanac v
      else
        let x := s.group g
        answer ((s.setGroup g { x with commits := x.commits ++ [(t, none)] }).alKick g)

/-! Setting up and ending a group (R196, R437). -/

/-- The checks of an AL_GCFG write with VALID = 1. -/
def State.alOk (s : State) (g : Nat) (v : Word) : Bool :=
  let first := fld v 27 16
  let n := fld v 12 0
  fld v 56 55 != 3 && fld v 62 61 != 3 && n != 0 && decide (first + n ≤ 4096) &&
    (List.range n).all fun i =>
      let b := first + i
      s.rf dieMerA (albOff b) 63 54 == g
        && (List.range 1024).all (fun k => k == g || !s.alValid k || b < s.alFirst k || s.alFirst k + s.alNblk k ≤ b)
        && s.alBase b % 4096 == 0 && s.alStride b % 4096 == 0 && s.alBytes b ≤ s.alStride b
        && (List.range (alSlotsOf v)).all fun j => s.inDramOf (fld v 59 57) (s.alBase b + j * s.alStride b) (s.alBytes b)

def alMask : Word := ~~~(maskOf 54 48 ||| maskOf 31 28 ||| maskOf 15 13)

/-- A write of AL_GCFG with VALID = 1: a valid group takes MIRROR alone; clearing it abandons the copy under way. -/
def State.alValidate (s : State) (g : Nat) (v : Word) : State :=
  let o := alOff g
  if s.alValid g then
    let x := s.group g
    let s := if s.alMirror g && bitOf v 60 then s
      else (s.dropCopy g).setGroup g { x with copying := none, mirrored := if s.alMirror g then x.mirrored else x.current }
    ((s.setRb dieMerA o 60 (bitOf v 60)).alCopy g).alKick g
  else
    let v := v &&& alMask
    let x := s.group g
    if !s.alOk g v then
      (s.setRg dieMerA o (setBit v 63 false)).setGroup g { x with cfgErr := true }
    else
      let i := BitVec.ofNat 16 (fld v 47 32)
      (s.setRg dieMerA o v).setGroup g { current := i, oldest := i, mirrored := i, counts := [(i.toNat, 0)], answers := x.answers }

/-- What a write of AL_GCFG with VALID = 0 leaves in it: SLOTS and COMMITTER written with their reserved value keep what they
held (R10). -/
def State.alEndWord (s : State) (g : Nat) (v : Word) : Word :=
  let old := s.alCfg g
  let w := setBit (v &&& alMask) 63 false
  let w := if fld v 62 61 == 3 then setFld w 62 61 (fld old 62 61) else w
  if fld v 56 55 == 3 then setFld w 56 55 (fld old 56 55) else w

/-- AL_GROUP_VALIDATE. -/
def execAlGroupValidate (g : Nat) (v : Word) (s : State) : Host.Outcome State Fault Refusal :=
  if g ≥ 1024 then .next s else .next (s.alValidate g (setBit v 63 true))

/-- The Almanac's own part of R437: waiting commits are answered, versions and counts dropped, CFG_ERR cleared, a copy under
way abandoned. -/
def State.alEndGroup (s : State) (g : Nat) (v : Word) : State :=
  let x := s.group g
  let ans := (x.commits.filter fun c => decide (c.1 < 768)).foldl (fun (a : Tab Word) c =>
    a.put c.1 (match c.2 with | some n => BitVec.ofNat 64 n | none => BitVec.allOnes 64)) x.answers
  let s := if x.lag then s.endCond 0x01D g else s
  let s := { s with blockReports := s.blockReports.filter fun r => r.1 != g }
  ((s.dropCopy g).setRg dieMerA (alOff g) (s.alEndWord g v)).setGroup g { answers := ans }

/-! Mirrored groups, at the two ends (R204). -/

/-- The ranges and bytes of a version copy whose every byte has arrived. -/
def State.copyWhole (s : State) (g ver : Nat) : Option (List (Nat × List Byte)) :=
  let cs := s.unitCells fun c => c.cls == 4 && c.object == g
  match (cellsAt cs 0 8).map leNat with
  | none => none
  | some w =>
    if w / 2 ^ 32 != ver then none
    else
      match cellsAt cs 8 (16 * (w % 2 ^ 32)) with
      | none => none
      | some hs =>
        let ws := (wordsOf (2 * (w % 2 ^ 32)) hs).map (·.toNat)
        let rs := (List.range (w % 2 ^ 32)).map fun i => (ws.getD (2 * i) 0, ws.getD (2 * i + 1) 0)
        let got := (copyPlaces rs).map fun q => (q.2.1, cellsAt cs q.1 q.2.2)
        if got.all fun e => e.2.isSome then some (got.map fun e => (e.1, e.2.getD [])) else none

/-- MIRROR_COPY_ARRIVAL: the last byte of version `ver` has arrived; once the staging buffer is free the copy is written at the
primary's addresses (R360), committed and acknowledged. -/
def execMirrorCopyArrival (g ver : Nat) (s : State) : Host.Outcome State Fault Refusal :=
  let x := s.group g
  if !s.alValid g || s.alCommitter g != 2 || ver != (x.current + 1).toNat || !s.alStagingFree g then .next s
  else
    match s.copyWhole g ver with
    | none => .next s
    | some rs =>
      let s := rs.foldl (fun s r => s.writeAny (s.alPart g) r.1 (r.2.map some)) s
      let s := (s.dropUnit fun c => c.cls == 4 && c.object == g).alAdvance g
      match s.mirrorLink with
      | some l => .next (s.linkSend l { cls := 5, vc := true, payload := unitBytes [4, g, ver], part := s.alPart g })
      | none => .next s

/-- MIRROR_ACK: an acknowledgement that has arrived; MIRRORED takes the copied version's number, the next copy starts and waits
may end. One for a copy no longer under way is dropped. -/
def execMirrorAck (g ver : Nat) (s : State) : Host.Outcome State Fault Refusal :=
  match s.unitCell 5 [4, g, ver] with
  | none => .next s
  | some c =>
    let s := s.takeCell c
    let x := s.group g
    if !s.alValid g || x.copying != some ver then .next s
    else
      let s := s.setGroup g { x with copying := none, mirrored := BitVec.ofNat 16 ver }
      .next ((s.alCopy g).alKick g)

/-- A fence of the group's partition (R205). -/
def State.alFence (s : State) (g : Nat) : State :=
  let x := s.group g
  let s := if x.lag then s.endCond 0x01D g else s
  let y : AlGroup := { x with
    counts := [], written := [], copying := none, commits := [], answers := [], waiting := false, lag := false,
    oldest := if s.alMirror g then (if x.holds x.mirrored then x.mirrored else x.oldest) else x.current }
  let s := (s.dropCopy g).setGroup g y
  { s with blockReports := s.blockReports.filter fun r => r.1 != g }

/-- AL_GSTATE and AL_GREF_s as they read. -/
def State.alGstate (s : State) (g : Nat) : Word :=
  let x := s.group g
  BitVec.ofNat 64 (x.current.toNat * 2 ^ 48 + x.oldest.toNat * 2 ^ 32 + (s.alMirrored g).toNat * 2 ^ 16
    + x.waiting.toNat * 2 ^ 15 + x.cfgErr.toNat * 2 ^ 14 + x.written.length)

def State.alGref (s : State) (g i : Nat) : Word :=
  let x := s.group g
  match ((List.range x.heldCount).map fun k => x.oldest + BitVec.ofNat 16 k).find? fun v => v.toNat % s.alSlots g == i with
  | some v => BitVec.ofNat 64 (v.toNat * 2 ^ 48 + (s.alValid g).toNat * 2 ^ 32 + x.count v)
  | none => 0

end Sys2Proof.Machine
end

