-- ==== Sys2Proof/Machine/Module.lean ====
section
/-! DEFINITION. The die-to-die modules of the package, which die each joins, and the way of a packet (R331, R332). -/
namespace Sys2Proof.Machine

/-- Hobs on the ring: eight, or six on TRN-C18. -/
def ringSize : Variant → Nat
  | .trnC18 => 6
  | _ => 8

/-- The other end of module `m` of die `d`: its die and number there. -/
def modulePeer (v : Variant) (d m : Nat) : Option (Nat × Nat) :=
  let n := ringSize v
  if d < 8 then
    if m < 2 then some (dieMerA, 2 * d + m)
    else if m < 4 then some (dieMerB, 2 * d + m - 2)
    else if m == 4 then some ((d + n - 1) % n, 5)
    else if m == 5 then some ((d + 1) % n, 4)
    else none
  else if d < 10 then
    if m < 16 then some (m / 2, (if d == dieMerA then 0 else 2) + m % 2)
    else if m < 20 then some (17 - d, m)
    else if m < 22 then some (if d == dieMerA then dieGuest else dieMdl, m - 20)
    else none
  else if d == dieMdl && m < 2 then some (dieMerB, 20 + m)
  else if d == dieGuest && m < 2 then some (dieMerA, 20 + m)
  else none

/-- Both ends of a module whose two dies are present. -/
def State.module (s : State) (d m : Nat) : Option (Nat × Nat) :=
  match modulePeer s.variant d m with
  | some e => if s.diePresent d && s.diePresent e.1 then some e else none
  | none => none

/-- The first open module of a die's join to a Meridian (R332). -/
def State.meridianModule (s : State) (hob mer : Nat) : Option Nat :=
  ([0, 1].map fun i => (if mer == dieMerA then 0 else 2) + i).find? fun m => (s.module hob m).isSome && s.moduleOpen hob m

/-- The Meridian that serves a Hob's half. -/
def halfOf (hob : Nat) : Nat := if hob < 4 then dieMerA else dieMerB

/-- The modules of a path through a Meridian: the source's module and the destination's, where both joins are open. -/
def State.through (s : State) (a b mer : Nat) : Option (Nat × Nat) :=
  match s.meridianModule a mer, s.meridianModule b mer with
  | some i, some j => some (i, j)
  | _, _ => none

/-- The way of a packet between two Hobs: the source's module and the destination's. Neighbours take the ring; else, or while the
ring module is down, it goes through the Meridian of the destination's half, and through the other where a join is down (R332). -/
def State.route (s : State) (a b : Nat) : Option (Nat × Nat) :=
  let ring := [5, 4].find? fun m =>
    match s.module a m with
    | some e => e.1 == b && s.moduleOpen a m
    | none => false
  match ring with
  | some m => some (m, 9 - m)
  | none => (s.through a b (halfOf b)).or (s.through a b (if halfOf b == dieMerA then dieMerB else dieMerA))

/-- Whether a packet from tile `a` can reach tile `b`: on one die, or by a path that is up. -/
def State.reaches (s : State) (a b : Nat) : Bool := a / 96 == b / 96 || (s.route (a / 96) (b / 96)).isSome

end Sys2Proof.Machine
end

