-- ==== Sys2Proof/Machine/Channel.lean ====
section
/-! DEFINITION. Message channels between tiles (R113, R165 to R178). -/
namespace Sys2Proof.Machine

/-- A count or status CSR that the channel endpoint keeps, by number (R176). -/
def State.cnt (s : State) (t n : Nat) : Word := (s.tile t).counts.val 0 n
def State.setCnt (s : State) (t n : Nat) (v : Word) : State :=
  let x := s.tile t
  s.setTile t { x with counts := x.counts.put n v }
def State.addCnt (s : State) (t n : Nat) : State := s.setCnt t n (s.cnt t n + 1)

def State.queue (s : State) (t q : Nat) : List QMsg := (s.tile t).queues.val [] q
def State.setQueue (s : State) (t q : Nat) (l : List QMsg) : State :=
  let x := s.tile t
  s.setTile t { x with queues := x.queues.put q l }

/-- The primary context of a tile, running or kept (R208). -/
def Tile.primary (x : Tile) : Ctx := x.saved.getD x.ctx

/-- The queues the tile's primary waits on, as a mask (R177). -/
def Tile.waitMask (x : Tile) : Nat :=
  match x.primary.wait with
  | some (.chRecv _ _ ga _) => 2 ^ fld (x.primary.reg ga) 3 0
  | some (.chSelectP _ _ ga) | some (.chSelectR _ _ ga) => fld (x.primary.reg ga) 15 0
  | _ => 0

/-- Where the empty episode of a queue stands; its full one stands at the queue's number (R177). -/
def emptyKey (q : Nat) : Nat := 16 + q

/-- The stall episodes a wait opens on the queues of a mask that have EN_EMPTY set (R177). -/
def State.openEmpty (s : State) (t mask : Nat) : State :=
  (List.range 16).foldl (fun s q =>
    let x := s.tile t
    if natBit mask q && bitOf (s.cnt t (0x140 + q)) 62 then
      s.setTile t { x with wd := x.wd.put (emptyKey q) { opened := s.now (t / 96) } }
    else s) s

/-- Ends the episodes of a wait (R177). -/
def State.endEmpty (s : State) (t : Nat) : State :=
  let x := s.tile t
  s.setTile t { x with wd := x.wd.filter fun e => e.2.full }

/-- Ends a full episode. -/
def State.endFull (s : State) (t q : Nat) : State :=
  let x := s.tile t
  s.setTile t { x with wd := x.wd.filter fun e => e.1 != q || !e.2.full }

/-! Sending. -/

def destTile (w : Word) : Nat := fld w 25 16
def destQueue (w : Word) : Nat := fld w 3 0
def destEpoch (w : Word) : Nat := fld w 47 32

def samePair (a b : ChMsg) : Bool :=
  a.sender == b.sender && destTile a.dest == destTile b.dest && destQueue a.dest == destQueue b.dest

/-- Earlier messages of the same sender to the same queue that no endpoint has taken or discarded. -/
def State.aheadOf (s : State) (i : Nat) (m : ChMsg) : List ChMsg :=
  (s.msgs.take i).filter fun e => samePair e m && (e.phase == .held || e.phase == .travelling || e.phase == .refused)

def State.setMsg (s : State) (i : Nat) (m : ChMsg) : State := { s with msgs := s.msgs.set i m }

/-- A message enters its sender's slot; it is not offered while an earlier one of its pair waits for retry (R170). -/
def State.chPost (s : State) (m : ChMsg) : State :=
  let hold := (s.aheadOf s.msgs.length m).any fun e => e.phase == .held || decide (e.refusals > 0)
  { s with msgs := s.msgs ++ [{ m with phase := if hold then .held else .travelling }] }

/-- CH.SEND (R113, R167, R169, R170): the message is read at issue. -/
def execChSend (t : Nat) (ga gb : Reg) (s : State) : Host.Outcome State Fault Refusal :=
  s.run t 4 (.chSend t ga gb) fun s =>
    let x := s.tile t
    let w := s.g t ga
    let d := destTile w
    let a := (s.g t gb).toNat
    let accept : TRes :=
      if (s.msgs.filter fun m => m.sender == t).length ≥ 4 then
        .wait (if x.ctx.wait.isSome then s else s.addCnt t 0x161) 6
      else
        orHold s a 64 <|
        let r := s.readSp a 64
        .done (r.2.chPost { sender := t, part := x.part, dest := w, payload := r.1 })
    if x.ctx.wait.isSome then accept
    else noFiller s t .channel w <|
      if fld w 63 48 != 0 || fld w 31 26 != 0 || fld w 15 4 != 0 then .trap .channel w
      else if d ≥ 768 || !s.tilePresent d then .trap .absentUnit (BitVec.ofNat 64 d)
      else if s.partOfTile d != some x.part then .trap .channel w
      else orTrap (s.checkOwn t a 64 64 .channel w) accept

/-! Delivery. -/

/-- The endpoint refuses a message: its queue is full, or an earlier one of its pair waits (R169, R170, R177). -/
def State.chRefuse (s : State) (i : Nat) (m : ChMsg) : State :=
  let d := destTile m.dest
  let q := destQueue m.dest
  let s := if m.refusals == 0 then s.addCnt d (0x120 + q) else s
  let x := s.tile d
  let s :=
    if bitOf (s.cnt d (0x140 + q)) 63 && (x.wd.find q).isNone && (x.wd.find (emptyKey q)).isNone then
      s.setTile d { x with wd := x.wd.put q { opened := s.now (d / 96), full := true } }
    else s
  s.setMsg i { m with phase := .refused, refusals := m.refusals + 1, interval := if m.refusals == 0 then 64 else min 1024 (2 * m.interval) }

/-- CH_MESSAGE_ARRIVAL (R165, R169, R170, R173, R174, R177): message `i` meets its destination endpoint. A message not on
its way, one behind an earlier one of its pair still on its first way, or one that no path of modules carries (R332) has not arrived. -/
def execChMessageArrival (i : Nat) (s : State) : Host.Outcome State Fault Refusal :=
  match s.msgs[i]? with
  | none => .next s
  | some m =>
    let ahead := s.aheadOf i m
    if m.phase != .travelling || (ahead.any fun e => e.phase == .travelling && e.refusals == 0)
        || (decide (m.sender < 768) && !s.reaches m.sender (destTile m.dest)) then .next s
    else
      let d := destTile m.dest
      let q := destQueue m.dest
      let s := if m.sender < 768 then s.chargeNet m.part (m.sender / 96) (d / 96) 64 else s
      let x := s.tile d
      if x.closed || x.epoch.toNat != destEpoch m.dest then
        .next ((s.addCnt d (0x130 + q)).setMsg i { m with phase := .discarded })
      else if ahead.any fun e => decide (e.refusals > 0) then .next (s.chRefuse i m)
      else if (s.queue d q).length ≥ 8 then .next (s.chRefuse i m)
      else
        let s := (s.setQueue d q (s.queue d q ++ [{ sender := m.sender, payload := m.payload }])).addCnt d (0x110 + q)
        let s := if natBit (s.tile d).waitMask q then s.endEmpty d else s
        .next (s.setMsg i { m with phase := .accepted })

/-! Writes of the firewall's windows that wait for messages (R342). -/

def fwOff (n : Nat) : Nat := 0xE00000 + 16 * n

/-- A write of word `w` of window `n`. -/
def State.fwPut (s : State) (n w : Nat) (v : Word) : State :=
  if w == 0 then s.setRg dieMerA (fwOff n) (v &&& (maskOf 63 57 ||| maskOf 47 12)) else s.setRg dieMerA (fwOff n + 8) (v &&& maskOf 35 0)

/-- The held writes whose windows have no message under way are made, in order. -/
def State.fwSettle (s : State) : State :=
  let busy (n : Nat) : Bool := s.msgs.any fun m => m.win == some n
  let t := (s.fwHeld.filter fun x => !busy x.1).foldl (fun t x => t.fwPut x.1 x.2.1 x.2.2) s
  { t with fwHeld := s.fwHeld.filter fun x => busy x.1 }

/-- Once a message has left its slot, the oldest message held behind it is offered (R170). -/
def State.chOffer (s : State) (m : ChMsg) : State :=
  match s.msgs.findIdx? fun e => samePair e m && (e.phase == .held || e.phase == .travelling || e.phase == .refused) with
  | none => s
  | some j =>
    match s.msgs[j]? with
    | some e => if e.phase == .held then s.setMsg j { e with phase := .travelling } else s
    | none => s

/-- CH_ACCEPTANCE (R169): the sender's slot frees. -/
def execChAcceptance (i : Nat) (s : State) : Host.Outcome State Fault Refusal :=
  match s.msgs[i]? with
  | none => .next s
  | some m =>
    if m.phase != .accepted then .next s
    else
      let s := State.fwSettle { s with msgs := s.msgs.eraseIdx i }
      let s := if m.sender < 768 then s.addCnt m.sender 0x160 else s
      .next ((s.chOffer m).fillerSettle m.sender)

/-- CH_DISCARD_NOTICE (R173): the sender's slot frees, counted. -/
def execChDiscardNotice (i : Nat) (s : State) : Host.Outcome State Fault Refusal :=
  match s.msgs[i]? with
  | none => .next s
  | some m =>
    if m.phase != .discarded then .next s
    else
      let s := State.fwSettle { s with msgs := s.msgs.eraseIdx i }
      let s := if m.sender < 768 then s.addCnt m.sender 0x162 else s
      .next ((s.chOffer m).fillerSettle m.sender)

/-- CH_RETRY (R169, R170): a refused message is offered again, oldest of its pair first. -/
def execChRetry (i : Nat) (s : State) : Host.Outcome State Fault Refusal :=
  match s.msgs[i]? with
  | none => .next s
  | some m =>
    if m.phase != .refused || !(s.aheadOf i m).isEmpty then .next s
    else .next (s.setMsg i { m with phase := .travelling })

/-- Whether an episode of queue `q` may fire now: its enable stands, and its age has reached LIMIT (R177). -/
def State.wdDue (s : State) (t q : Nat) (e : Episode) : Bool :=
  let w := s.cnt t (0x140 + q)
  let age := (s.now (t / 96) + 2 ^ 64 - e.opened) % 2 ^ 64
  !e.reported && bitOf w (if e.full then 63 else 62) && fld w 31 0 != 0 && decide (1000 * fld w 31 0 ≤ age)

/-- CH_WATCHDOG_FIRE (R177): an open episode of the queue fires once; the first of a wait's episodes fires for all. VALUE is the
queue (R390). -/
def execChWatchdogFire (t q : Nat) (s : State) : Host.Outcome State Fault Refusal :=
  let x := s.tile t
  match [q, emptyKey q].find? fun k => (x.wd.find k).any (s.wdDue t q) with
  | none => .next s
  | some k =>
    let mark (j : Nat) (y : Episode) : Episode := if j == k || (k ≥ 16 && !y.full) then { y with reported := true } else y
    let s := s.setTile t { x with wd := x.wd.map fun kv => (kv.1, mark kv.1 kv.2) }
    .next ((s.setCnt t (0x140 + q) (setBit (s.cnt t (0x140 + q)) 32 true)).tileReport 0x003 t (BitVec.ofNat 64 q))

/-! Receiving. -/

/-- Takes the oldest message of a queue into scratchpad, the sender to gd. -/
def State.chTake (s : State) (t : Nat) (gd : Reg) (q a : Nat) (m : QMsg) (rest : List QMsg) : TRes :=
  let s := (s.setQueue t q rest).endFull t q
  doneG (s.writeSp a m.payload) t gd (BitVec.ofNat 64 m.sender)

/-- CH.RECV (R113, R168, R176, R177). -/
def execChRecv (t : Nat) (gd ga gb : Reg) (s : State) : Host.Outcome State Fault Refusal :=
  s.run t 4 (.chRecv t gd ga gb) fun s =>
    let q := fld (s.g t ga) 3 0
    let a := (s.g t gb).toNat
    let waits := (s.tile t).ctx.wait.isSome
    let go : TRes :=
      match s.queue t q with
      | m :: rest => s.chTake t gd q a m rest
      | [] => .wait (if waits then s else (s.addCnt t (0x150 + q)).openEmpty t (2 ^ q)) 5
    if waits then go
    else noFiller s t .channel (s.g t ga) <| orTrap (s.checkOwn t a 64 64 .channel (s.g t ga)) go

/-- CH.TRY (R113). -/
def execChTry (t : Nat) (gd ga gb : Reg) (s : State) : Host.Outcome State Fault Refusal :=
  s.run t 4 (.chTry t gd ga gb) fun s =>
    let q := fld (s.g t ga) 3 0
    let a := (s.g t gb).toNat
    noFiller s t .channel (s.g t ga) <| orTrap (s.checkOwn t a 64 64 .channel (s.g t ga)) <|
      match s.queue t q with
      | m :: rest => s.chTake t gd q a m rest
      | [] => doneG s t gd (BitVec.allOnes 64)

/-- The lowest masked queue that holds a message, searching from `start` and round. -/
def State.chFind (s : State) (t mask start : Nat) : Option Nat :=
  ((List.range 16).map fun i => (start + i) % 16).find? fun q => natBit mask q && !(s.queue t q).isEmpty

/-- The common part of the two CH.SELECT instructions (R113, R176, R177). -/
def chSelect (i : Instr) (t : Nat) (gd ga : Reg) (start : State → Nat) (note : State → Nat → State) (s : State) :
    Host.Outcome State Fault Refusal :=
  s.run t 4 i fun s =>
    let mask := fld (s.g t ga) 15 0
    let waits := (s.tile t).ctx.wait.isSome
    let go : TRes :=
      match s.chFind t mask (start s) with
      | some q => doneG (note s q) t gd (BitVec.ofNat 64 q)
      | none => .wait (if waits then s else (s.addCnt t 0x163).openEmpty t mask) 5
    if waits then go
    else noFiller s t .channel (s.g t ga) <| if mask == 0 then .trap .channel (BitVec.ofNat 64 mask) else go

def execChSelectP (t : Nat) (gd ga : Reg) (s : State) : Host.Outcome State Fault Refusal :=
  chSelect (.chSelectP t gd ga) t gd ga (fun _ => 0) (fun s _ => s) s

/-- CH.SELECT.R: the search starts after the queue it last chose. -/
def execChSelectR (t : Nat) (gd ga : Reg) (s : State) : Host.Outcome State Fault Refusal :=
  chSelect (.chSelectR t gd ga) t gd ga (fun s => (s.tile t).sel)
    (fun s q => s.setTile t { s.tile t with sel := (q + 1) % 16 }) s

end Sys2Proof.Machine
end

