-- ==== Sys2Proof/Machine/Flags.lean ====
section
/-! DEFINITION. The status words units write: each field the condition its table names. -/
namespace Sys2Proof.Machine

/-- The drain status word (R57). -/
def drainStatus (ovf : Nat) (replayOvf satFinal nanSeen : Bool) (shift : Nat) : Word :=
  BitVec.ofNat 64 (satAt ovf 0xFFFF * 2 ^ 16 + replayOvf.toNat * 2 ^ 8 + satFinal.toNat * 2 ^ 7 + nanSeen.toNat * 2 ^ 6
    + shift % 4)

/-- The DMA status word (R143). -/
def dmaStatus (ovf lost code : Nat) : Word :=
  BitVec.ofNat 64 (satAt ovf 0xFFFF * 2 ^ 16 + satAt lost 0xFF * 2 ^ 8 + code % 16)

end Sys2Proof.Machine
end

