-- ==== Sys2Proof/Machine/Num.lean ====
section
/-! DEFINITION. Numbers (chapter 03): decoding of every format, correctly rounded conversion, exact arithmetic on dyadic
values, the block encoders, the matrix accumulator, FP32 and 16-bit arithmetic of the vector engine and the MSA. -/
namespace Sys2Proof
namespace Machine

/-- A decoded value: finite (-1)^s x m x 2^e, an infinity, or NaN. -/
inductive Val where
  | fin (s : Bool) (m : Nat) (e : Int)
  | inf (s : Bool)
  | nan
  deriving DecidableEq, Repr

/-- The shape of a floating format (R41): exponent bits, mantissa bits, bias, whether it has infinities, whether it has a
NaN. -/
structure FShape where
  eb : Nat
  mb : Nat
  bias : Int
  hasInf : Bool
  hasNan : Bool

def shapeOf : Fmt → Option FShape
  | .e4m3 => some ⟨4, 3, 7, false, true⟩
  | .e5m2 => some ⟨5, 2, 15, true, true⟩
  | .mxfp4 => some ⟨2, 1, 1, false, false⟩
  | .bf16 => some ⟨8, 7, 127, true, true⟩
  | .fp16 => some ⟨5, 10, 15, true, true⟩
  | .fp32 => some ⟨8, 23, 127, true, true⟩
  | _ => none

/-- The format code of R107, if not reserved. -/
def fmtOfCode : Nat → Option Fmt
  | 0 => some .e4m3 | 1 => some .e5m2 | 2 => some .mxfp4 | 3 => some .int8 | 4 => some .int4 | 5 => some .bf16
  | 6 => some .fp16 | 7 => some .fp32 | 8 => some .int32 | 9 => some .mxint8 | 10 => some .sq8 | _ => none

end Machine

/-- Element size in bits. -/
def Fmt.bits : Fmt → Nat
  | .e4m3 | .e5m2 | .int8 | .mxint8 | .sq8 => 8
  | .mxfp4 | .int4 => 4
  | .bf16 | .fp16 => 16
  | .fp32 | .int32 => 32

def Fmt.isBlock : Fmt → Bool
  | .mxfp4 | .mxint8 | .sq8 => true
  | _ => false

def Fmt.isInt : Fmt → Bool
  | .int8 | .int4 | .int32 => true
  | _ => false

/-- Bytes that `n` elements take, 4-bit elements packed two to a byte (R39). -/
def Fmt.bytes (f : Fmt) (n : Nat) : Nat := Machine.cdiv (f.bits * n) 8

namespace Machine

/-- The canonical NaN (R42). -/
def canonNan : Fmt → Nat
  | .e4m3 => 0x7F | .e5m2 => 0x7E | .bf16 => 0x7FC0 | .fp16 => 0x7E00 | .fp32 => 0x7FC00000 | _ => 0

/-- Decodes a floating code (R38, R41). -/
def decodeShape (h : FShape) (c : Nat) : Val :=
  let s := (c / 2 ^ (h.eb + h.mb)) % 2 == 1
  let x := (c / 2 ^ h.mb) % 2 ^ h.eb
  let f := c % 2 ^ h.mb
  if h.hasInf && x == 2 ^ h.eb - 1 then (if f == 0 then .inf s else .nan)
  else if h.hasNan && !h.hasInf && x == 2 ^ h.eb - 1 && f == 2 ^ h.mb - 1 then .nan
  else if x == 0 then .fin s f (1 - h.bias - h.mb)
  else .fin s (2 ^ h.mb + f) ((x : Int) - h.bias - h.mb)

/-- The value of an integer. -/
def Val.ofInt (i : Int) : Val := .fin (decide (i < 0)) i.natAbs 0

/-- Decodes an element code, with the block's scale code for a block format (R43 to R46). -/
def decode (f : Fmt) (scale c : Nat) : Val :=
  match f with
  | .int8 => Val.ofInt (signedOf 8 c)
  | .int4 => Val.ofInt (signedOf 4 c)
  | .int32 => Val.ofInt (signedOf 32 c)
  | .mxfp4 =>
    if scale == 0xFF then .nan
    else match decodeShape ⟨2, 1, 1, false, false⟩ (c % 16) with
      | .fin s m e => .fin s m (e + (scale : Int) - 127)
      | v => v
  | .mxint8 =>
    if scale == 0xFF then .nan
    else .fin (decide (signedOf 8 c < 0)) (signedOf 8 c).natAbs ((scale : Int) - 127 - 6)
  | .sq8 =>
    if scale == 0xFF then .nan
    else if (c / 32) % 8 == 0 then .fin false (c % 32) ((scale : Int) - 127 - 11)
    else .fin false (32 + c % 32) (((c / 32) % 8 : Nat) - 7 - 5 + (scale : Int) - 127)
  | .e4m3 => decodeShape ⟨4, 3, 7, false, true⟩ c
  | .e5m2 => decodeShape ⟨5, 2, 15, true, true⟩ c
  | .bf16 => decodeShape ⟨8, 7, 127, true, true⟩ c
  | .fp16 => decodeShape ⟨5, 10, 15, true, true⟩ c
  | .fp32 => decodeShape ⟨8, 23, 127, true, true⟩ c

/-- Rounding modes: to nearest even, toward zero, stochastic with 16 random bits (R56). -/
inductive Rnd where
  | rne | rtz | sr (r : Nat)
  deriving DecidableEq, Repr

/-- `n` / 2^`sh` rounded to an integer. -/
def roundShift (r : Rnd) (n sh : Nat) : Nat :=
  let q := n / 2 ^ sh
  let rem := n % 2 ^ sh
  match r with
  | .rtz => q
  | .rne => if sh == 0 then q else if 2 * rem > 2 ^ sh || (2 * rem == 2 ^ sh && q % 2 == 1) then q + 1 else q
  | .sr x => (n * 2 ^ 16 + (x % 65536) * 2 ^ sh) / 2 ^ (sh + 16)

/-- m x 2^e rounded to a multiple of 2^q, as the multiple's factor. -/
def roundAt (r : Rnd) (m : Nat) (e q : Int) : Nat :=
  if e ≥ q then m * 2 ^ ((e - q).toNat : Nat) else roundShift r m (q - e).toNat

/-- The smallest quantum exponent of a shape (that of its subnormals). -/
def FShape.qmin (h : FShape) : Int := 1 - h.bias - h.mb

/-- Largest finite code, without sign. -/
def FShape.maxCode (h : FShape) : Nat :=
  if h.hasInf then (2 ^ h.eb - 1) * 2 ^ h.mb - 1
  else if h.hasNan then 2 ^ (h.eb + h.mb) - 2
  else 2 ^ (h.eb + h.mb) - 1

/-- Rounds m x 2^e to the shape with no upper limit: significand factor and quantum exponent. -/
def roundTo (h : FShape) (r : Rnd) (m : Nat) (e : Int) : Nat × Int :=
  if m == 0 then (0, h.qmin)
  else
    let q := max ((Nat.log2 m : Int) + e - h.mb) h.qmin
    let k := roundAt r m e q
    if k == 2 ^ (h.mb + 1) then (2 ^ h.mb, q + 1) else (k, q)

/-- The code, without sign, of a factor and quantum, if it is within the finite range. -/
def codeOf (h : FShape) (k : Nat) (q : Int) : Option Nat :=
  let c : Int := if k < 2 ^ h.mb then k else (k : Int) - 2 ^ h.mb + (q - h.qmin + 1) * 2 ^ h.mb
  if c > h.maxCode then none else some c.toNat

/-- Encodes a value in a floating format (R47): its code and whether the conversion overflowed. `sat`: saturate. R47 calls MXINT8 to
FP32 exact; its code -128 under scale code 254 is -2^128, beyond FP32, and overflows here as any such value (DESIGN CHOICE, assumption
log 70). -/
def encodeF (f : Fmt) (h : FShape) (r : Rnd) (sat : Bool) (v : Val) : Nat × Bool :=
  let sg (s : Bool) (c : Nat) := if s then c + 2 ^ (h.eb + h.mb) else c
  match v with
  | .nan => (canonNan f, false)
  | .inf s =>
    if sat then (sg s h.maxCode, true)
    else if h.hasInf then (sg s ((2 ^ h.eb - 1) * 2 ^ h.mb), false)
    else (canonNan f, true)
  | .fin s m e =>
    let kq := roundTo h r m e
    match codeOf h kq.1 kq.2 with
    | some c => (sg s c, false)
    | none =>
      if sat || r == .rtz then (sg s h.maxCode, true)
      else if h.hasInf then (sg s ((2 ^ h.eb - 1) * 2 ^ h.mb), true)
      else (canonNan f, true)

/-- Encodes an integer format from x x 2^k (R47): RNE, clamped, NaN gives 0. -/
def encodeI (bits : Nat) (k : Int) (v : Val) : Nat × Bool :=
  let hi : Int := 2 ^ (bits - 1) - 1
  let lo : Int := -(2 ^ (bits - 1))
  let cut (i : Int) : Nat × Bool :=
    if i > hi then (hi.toNat, true) else if i < lo then ((lo + 2 ^ bits).toNat, true)
    else ((if i < 0 then i + 2 ^ bits else i).toNat, false)
  match v with
  | .nan => (0, false)
  | .inf s => cut (if s then lo - 1 else hi + 1)
  | .fin s m e =>
    let n : Int := roundAt .rne m (e + k) 0
    cut (if s then -n else n)

/-- Encodes a value in a non-block format. -/
def encode (f : Fmt) (r : Rnd) (sat : Bool) (k : Int) (v : Val) : Nat × Bool :=
  match shapeOf f with
  | some h => encodeF f h r sat v
  | none => encodeI f.bits k v

/-- Whether a conversion saturates by R47's rows: FP8 saturates unless non-saturating is selected. -/
def satByRow (f : Fmt) (nsat : Bool) : Bool :=
  match f with
  | .e4m3 | .e5m2 => !nsat
  | _ => false

/-! Exact arithmetic. -/

/-- The signed significand of a finite value. -/
def sgnd (s : Bool) (m : Nat) : Int := if s then -(m : Int) else m

/-- Exact sum of m1 x 2^e1 and m2 x 2^e2. -/
def dyAdd (m1 : Int) (e1 : Int) (m2 : Int) (e2 : Int) : Int × Int :=
  if e1 ≤ e2 then (m1 + m2 * (2 : Int) ^ (e2 - e1).toNat, e1) else (m1 * (2 : Int) ^ (e1 - e2).toNat + m2, e2)

/-- Compares |m1 x 2^e1| with |m2 x 2^e2|. -/
def dyCmp (m1 : Int) (e1 : Int) (m2 : Int) (e2 : Int) : Ordering :=
  let d := (dyAdd m1 e1 (-m2) e2).1
  if d < 0 then .lt else if d == 0 then .eq else .gt

def Val.neg : Val → Val
  | .fin s m e => .fin (!s) m e
  | .inf s => .inf (!s)
  | .nan => .nan

def Val.isZero : Val → Bool
  | .fin _ m _ => m == 0
  | _ => false

/-- Exact product; zero times infinity is NaN. -/
def Val.mul : Val → Val → Val
  | .nan, _ => .nan
  | _, .nan => .nan
  | .inf s, .inf t => .inf (s != t)
  | .inf s, .fin t m _ => if m == 0 then .nan else .inf (s != t)
  | .fin s m _, .inf t => if m == 0 then .nan else .inf (s != t)
  | .fin s m e, .fin t n f => .fin (s != t) (m * n) (e + f)

/-- Exact sum, with IEEE 754 signs of zero under RNE. -/
def Val.add : Val → Val → Val
  | .nan, _ => .nan
  | _, .nan => .nan
  | .inf s, .inf t => if s == t then .inf s else .nan
  | .inf s, _ => .inf s
  | _, .inf t => .inf t
  | .fin s m e, .fin t n f =>
    let r := dyAdd (sgnd s m) e (sgnd t n) f
    if r.1 == 0 then .fin (s && t && m == 0 && n == 0) 0 e else .fin (decide (r.1 < 0)) r.1.natAbs r.2

/-- The integer square root, by `fuel` bits. -/
def isqrtGo (n : Nat) : Nat → Nat → Nat
  | 0, acc => acc
  | k + 1, acc => let t := acc + 2 ^ k; isqrtGo n k (if t * t ≤ n then t else acc)

def isqrt (n : Nat) : Nat := isqrtGo n (Nat.log2 n / 2 + 1) 0

/-- Quotient with a sticky last bit, exact enough for any format here. -/
def Val.div : Val → Val → Val
  | .nan, _ => .nan
  | _, .nan => .nan
  | .inf _, .inf _ => .nan
  | .inf s, .fin t _ _ => .inf (s != t)
  | .fin s _ _, .inf t => .fin (s != t) 0 0
  | .fin s m e, .fin t n f =>
    if n == 0 then (if m == 0 then .nan else .inf (s != t))
    else
      let sh := 64 + Nat.log2 n
      let q := m * 2 ^ sh / n
      let st := if m * 2 ^ sh % n == 0 then 0 else 1
      .fin (s != t) (2 * q + st) (e - f - sh - 1)

/-- Square root with a sticky last bit. -/
def Val.sqrt : Val → Val
  | .nan => .nan
  | .inf s => if s then .nan else .inf false
  | .fin s m e =>
    if m == 0 then .fin s 0 e
    else if s then .nan
    else
      let sh : Nat := 128 + (if e % 2 == 0 then 0 else 1)
      let n := m * 2 ^ sh
      let r := isqrt n
      .fin false (2 * r + (if r * r == n then 0 else 1)) ((e - sh) / 2 - 1)

/-! Working formats of the vector engine and the MSA (R63, R65). -/

/-- Rounds a value to a floating format with RNE, IEEE overflow. -/
def toFmt (f : Fmt) (v : Val) : Nat := (encode f .rne false 0 v).1

def fAdd (f : Fmt) (a b : Nat) : Nat := toFmt f ((decode f 0 a).add (decode f 0 b))
def fSub (f : Fmt) (a b : Nat) : Nat := toFmt f ((decode f 0 a).add (decode f 0 b).neg)
def fMul (f : Fmt) (a b : Nat) : Nat := toFmt f ((decode f 0 a).mul (decode f 0 b))
def fFma (f : Fmt) (a b c : Nat) : Nat := toFmt f (((decode f 0 a).mul (decode f 0 b)).add (decode f 0 c))
def fDiv (f : Fmt) (a b : Nat) : Nat := toFmt f ((decode f 0 a).div (decode f 0 b))
def fSqrt (f : Fmt) (a : Nat) : Nat := toFmt f (decode f 0 a).sqrt

/-- FP32 sum of two patterns, RNE (R65). -/
def add32 (a b : BitVec 32) : BitVec 32 := BitVec.ofNat 32 (fAdd .fp32 a.toNat b.toNat)
def mul32 (a b : BitVec 32) : BitVec 32 := BitVec.ofNat 32 (fMul .fp32 a.toNat b.toNat)
def sub32 (a b : BitVec 32) : BitVec 32 := BitVec.ofNat 32 (fSub .fp32 a.toNat b.toNat)
def div32 (a b : BitVec 32) : BitVec 32 := BitVec.ofNat 32 (fDiv .fp32 a.toNat b.toNat)
def sqrt32 (a : BitVec 32) : BitVec 32 := BitVec.ofNat 32 (fSqrt .fp32 a.toNat)
def fma32 (a b c : BitVec 32) : BitVec 32 := BitVec.ofNat 32 (fFma .fp32 a.toNat b.toNat c.toNat)
def neg32 (a : BitVec 32) : BitVec 32 := a ^^^ 0x80000000#32

/-- Whether an FP32 pattern is NaN or infinite. -/
def nonfinite32 (a : BitVec 32) : Bool := (a.toNat / 2 ^ 23) % 256 == 255

/-- Order of two values that are not NaN. -/
def Val.lt : Val → Val → Bool
  | .fin s m e, .fin t n f => dyCmp (sgnd s m) e (sgnd t n) f == .lt
  | .inf s, .inf t => s && !t
  | .inf s, .fin _ _ _ => s
  | .fin _ _ _, .inf t => !t
  | _, _ => false

def Val.eqv : Val → Val → Bool
  | .fin s m e, .fin t n f => dyCmp (sgnd s m) e (sgnd t n) f == .eq
  | .inf s, .inf t => s == t
  | _, _ => false

def Val.isNan : Val → Bool
  | .nan => true
  | _ => false

def Val.isNeg : Val → Bool
  | .fin s _ _ => s
  | .inf s => s
  | .nan => false

/-! The matrix accumulator (R51 to R54). -/

/-- Keeps the 24 most significant bits of m x 2^e, dropping toward minus infinity (R52). -/
def accTrunc (m : Int) (e : Int) : Int × Int :=
  if m == 0 then (0, 0)
  else
    let n := Nat.log2 m.natAbs
    if n ≤ 23 then (m * (2 : Int) ^ (23 - n), e - (23 - n : Nat))
    else
      let k := m.fdiv ((2 : Int) ^ (n - 23))
      if k.natAbs == 2 ^ 24 then (k / 2, e + (n - 23 : Nat) + 1) else (k, e + (n - 23 : Nat))

/-- One addition into a floating accumulator (R52, R54). -/
def Acc.addF (a : Acc) (p : Val) : Acc :=
  match p with
  | .nan => { a with nan := true }
  | .inf s =>
    let a' := if s then { a with ninf := true } else { a with pinf := true }
    { a' with nan := a'.nan || (a'.pinf && a'.ninf) }
  | .fin s m e =>
    let t := dyAdd a.m a.e (sgnd s m) e
    let k := accTrunc t.1 t.2
    { a with m := k.1, e := k.2 }

/-- Adds a chain's value with its marks into an accumulator. -/
def Acc.join (a b : Acc) : Acc :=
  let t := dyAdd a.m a.e b.m b.e
  let k := accTrunc t.1 t.2
  let pi := a.pinf || b.pinf
  let ni := a.ninf || b.ninf
  { a with m := k.1, e := k.2, pinf := pi, ninf := ni, nan := a.nan || b.nan || (pi && ni) }

/-- One addition into an integer accumulator (R58): clamps and marks. -/
def Acc.addI (a : Acc) (i : Int) : Acc :=
  let s := a.m + i
  if s > 2 ^ 31 - 1 then { a with m := 2 ^ 31 - 1, sat := true }
  else if s < -(2 ^ 31) then { a with m := -(2 ^ 31), sat := true }
  else { a with m := s }

/-- The value a floating accumulator drains (R54). -/
def Acc.val (a : Acc) : Val :=
  if a.nan then .nan else if a.pinf then .inf false else if a.ninf then .inf true
  else .fin (decide (a.m < 0)) a.m.natAbs a.e

/-- The debug record of an accumulator (R69). Where infinities of both signs arrived SIGN is 1 (DESIGN CHOICE, log 66). -/
def Acc.record (integer : Bool) (a : Acc) : Nat :=
  if integer then 2 ^ 63 + (if a.sat then 2 ^ 60 else 0) + (a.m % 2 ^ 32).toNat
  else
    (if a.nan then 2 ^ 62 else 0) + (if a.pinf || a.ninf then 2 ^ 61 else 0)
      + (if (if a.pinf || a.ninf then a.ninf else decide (a.m < 0)) then 2 ^ 34 else 0)
      + (if a.m == 0 then 0 else (a.e + 534).toNat * 2 ^ 24) + a.m.natAbs

/-- Halves an integer operand `k` times at once, to nearest even (R59). -/
def halve (k : Nat) (x : Int) : Int :=
  let n : Int := roundShift .rne x.natAbs k
  if x < 0 then -n else n

/-! Block encoders (R48, R49). -/

/-- floor(log2) of m x 2^e, m not zero. -/
def flog2 (m : Nat) (e : Int) : Int := (Nat.log2 m : Int) + e

/-- The largest of the finite magnitudes of a list of values, as (m, e); m = 0 when all are zero. -/
def amaxOf : List Val → Nat × Int
  | [] => (0, 0)
  | .fin _ m e :: r => let b := amaxOf r; if dyCmp b.1 b.2 m e == .lt then (m, e) else b
  | _ :: r => amaxOf r

def anyNonfinite (vs : List Val) : Bool :=
  vs.any fun v => match v with | .fin _ _ _ => false | _ => true

def clampE (e : Int) : Nat := if e < 0 then 0 else if e > 254 then 254 else e.toNat

/-- The value of an E3M5 code before scaling. -/
def e3m5 (c : Nat) : Nat × Int := if c / 32 == 0 then (c % 32, -11) else (32 + c % 32, ((c / 32 : Nat) : Int) - 12)

/-- The smallest E3M5 code whose scaled square is not below m x 2^e (R48: up of the exact root). -/
def sq8Up (scale : Nat) (m : Nat) (e : Int) : Option Nat :=
  (List.range 256).find? fun c =>
    let r := e3m5 c
    dyCmp (r.1 * r.1 : Nat) (2 * r.2 + 2 * ((scale : Int) - 127)) (m : Int) e != .lt

/-- A block of FP32 values encoded (R48): scale, element codes, overflowed elements, negative v counted. Overflow (R47) is a
finite input beyond the format's largest finite value, which only MXINT8 at its largest scale meets, or an infinite input;
an element clamped under its block's scale is none (DEDUCED, log 58). In a non-finite SQ8 block the finite
negative v are counted and minus infinity is not (DESIGN CHOICE, log 58). -/
def encodeBlock (f : Fmt) (vs : List Val) : Nat × List Nat × Nat × Nat :=
  let neg := match f with | .sq8 => (vs.filter fun v => v.isNeg && !v.isZero).length | _ => 0
  if anyNonfinite vs then
    (0xFF, vs.map fun _ => 0, (vs.filter fun v => match v with | .inf _ => true | _ => false).length,
      (vs.filter fun v => match f, v with | .sq8, .fin s m _ => s && m != 0 | _, _ => false).length)
  else
    let ws := match f with
      | .sq8 => vs.map fun v => if v.isNeg then Val.fin false 0 0 else v
      | _ => vs
    let am := amaxOf ws
    if am.1 == 0 then (0, vs.map fun _ => 0, 0, neg)
    else
      match f with
      | .mxfp4 =>
        let sc := clampE (flog2 am.1 am.2 - 2 + 127)
        let h : FShape := ⟨2, 1, 1, false, false⟩
        let qs := ws.map fun v => match v with
          | .fin s m e => encodeF .mxfp4 h .rne true (.fin s m (e - ((sc : Int) - 127)))
          | _ => (0, false)
        (sc, qs.map (·.1), 0, 0)
      | .mxint8 =>
        let sc := clampE (flog2 am.1 am.2 + 127)
        let qs := ws.map fun v => match v with
          | .fin s m e =>
            let n : Nat := roundAt .rne m (e - ((sc : Int) - 127) + 6) 0
            let k := satAt n 127
            ((if s && k != 0 then 256 - k else k), decide (n > 127))
          | _ => (0, false)
        (sc, qs.map (·.1), if sc == 254 then (qs.filter (·.2)).length else 0, 0)
      | _ =>
        let e0 := clampE ((flog2 am.1 am.2).fdiv 2 + 127)
        let sc := match sq8Up e0 am.1 am.2 with | some _ => e0 | none => e0 + 1
        let qs := ws.map fun v => match v with
          | .fin _ m e => (sq8Up sc m e).getD 255
          | _ => 0
        (sc, qs, 0, neg)

/-! Feature-map compression (R88 to R90). -/

/-- The elements of a list in runs of `n`. -/
def chunksGo {α : Type} (n : Nat) : Nat → List α → List (List α)
  | 0, _ => []
  | _ + 1, [] => []
  | k + 1, x :: xs => ((x :: xs).take n) :: chunksGo n k ((x :: xs).drop n)

def chunks {α : Type} (n : Nat) (l : List α) : List (List α) := chunksGo n l.length l

/-- Pads a list to a multiple of `n`. -/
def padTo {α : Type} (n : Nat) (d : α) (l : List α) : List α := l ++ List.replicate (roundUp l.length n - l.length) d

/-- Encodes a block of 64 values with `b` bits an element: header and element field (R88, R89). -/
def fmcEncode (b : Nat) (vs : List Val) : Nat × Nat :=
  let pack (ms : List Nat) : Nat := leFold ms
  if anyNonfinite vs then (0xFF * 2 ^ 56, 0)
  else
    let am := amaxOf vs
    if am.1 == 0 then
      ((List.range 16).foldl (fun a g => a + 7 * 2 ^ (3 * g)) 0,
        pack (vs.map fun v => if v.isNeg then 2 ^ (b - 1) else 0))
    else
      let t := max (flog2 am.1 am.2) (-127)
      let groups := chunks 4 vs
      let ds := groups.map fun g =>
        let gm := amaxOf g
        if gm.1 == 0 then 7 else min 7 (t - flog2 gm.1 gm.2).toNat
      let els := (groups.zip ds).flatMap fun (g, d) =>
        let q := t - d + 2 - b
        g.map fun v => match v with
          | .fin s m e => min (2 ^ (b - 1) - 1) (roundAt .rne m e q) + (if s then 2 ^ (b - 1) else 0)
          | _ => 0
      ((t + 127).toNat * 2 ^ 56 + ((List.range 16).zip ds).foldl (fun a p => a + p.2 * 2 ^ (3 * p.1)) 0, pack els)
where
  leFold (ms : List Nat) : Nat := ms.foldr (fun x a => x + 2 ^ b * a) 0

/-- Decodes a compressed block to 64 values (R89). -/
def fmcDecode (b hdr els : Nat) : List Val :=
  let ec : Nat := (hdr / 2 ^ 56) % 256
  (List.range 64).map fun i =>
    if ec == 0xFF then .nan
    else
      let d : Nat := (hdr / 2 ^ (3 * (i / 4))) % 8
      let x : Nat := (els / 2 ^ (b * i)) % 2 ^ b
      .fin (x / 2 ^ (b - 1) == 1) (x % 2 ^ (b - 1)) ((ec : Int) - 127 - (d : Int) + 2 - (b : Int))

end Machine
end Sys2Proof
end

