-- ==== Sys2Proof/Machine/Operands.lean ====
section
/-! DEFINITION. Operand forms: the MMA fields and array sets (R70, R71, R108, R109), the DMA descriptor and its extents
(R137 to R139), sets of address ranges against an area (R435). -/
namespace Sys2Proof.Machine

/-! Matrix operands. -/

/-- A column block of a gang mode: its depth chain's arrays (none above in G1), its number for addressing, its first
column there, and whether NMASK1 masks it (R71, R81). -/
structure Chain where
  upper : Option Nat
  lower : Nat
  unit : Nat
  col0 : Nat
  n1 : Bool
  deriving DecidableEq, Repr

/-- The chains an array set names in a gang mode, if the set is valid for it (R71, R109). -/
def chainsOf (gang aset : Nat) : Option (List Chain) :=
  match gang with
  | 0 =>
    if aset == 0 then none
    else some (((List.range 4).filter (natBit aset ·)).map fun a => ⟨none, a, a, 0, false⟩)
  | 1 =>
    if aset == 0 || aset > 3 then none
    else some (((List.range 2).filter (natBit aset ·)).map fun p => ⟨some (2 * p), 2 * p + 1, p, 0, false⟩)
  | _ => if aset == 1 then some [⟨some 0, 1, 0, 0, false⟩, ⟨some 2, 3, 0, 64, true⟩] else none

def Chain.arrays (c : Chain) : List Nat :=
  match c.upper with
  | some u => [u, c.lower]
  | none => [c.lower]

/-- Every array a list of chains names. -/
def chainArrays (cs : List Chain) : List Nat := cs.flatMap Chain.arrays

/-- Elements per cell and slot, slots, element bytes read at an address (R70). -/
def perCell : Fmt → Nat
  | .mxfp4 | .int4 => 2
  | _ => 1

def slotsOf : Fmt → Nat
  | .bf16 => 8
  | _ => 16

def elemSize : Fmt → Nat
  | .bf16 => 2
  | _ => 1

/-- Depth of a slot in one array, and in the gang mode (R70). -/
def depth1 (f : Fmt) : Nat := 64 * perCell f
def depthOf (f : Fmt) (gang : Nat) : Nat := if gang == 0 then depth1 f else 2 * depth1 f

/-- Formats the arrays multiply (R50, R80), and the pairs of them. -/
def arrayFmt : Fmt → Bool
  | .e4m3 | .e5m2 | .mxfp4 | .bf16 | .int8 | .int4 => true
  | _ => false

def pairOk (l s : Fmt) : Bool :=
  l == s || ((l == .e4m3 || l == .e5m2) && (s == .e4m3 || s == .e5m2))

/-- Where an array lists slot `sl` of a format, and the bytes of a cell's 128 bits that the slot takes: a BF16 slot those of the
8-bit slots 2 sl and 2 sl + 1 (R70, DEDUCED, assumption log 66). -/
def slotKey (f : Fmt) (sl : Nat) : Nat := if f == .bf16 then 16 + sl else sl
def keyBytes (k : Nat) : List Nat := if k < 16 then [k] else [2 * (k - 16), 2 * (k - 16) + 1]

/-- Slots of one array that share no bit of a cell with `ks`. -/
def keepSlots {α : Type} (t : Tab α) (ks : List Nat) : Tab α :=
  t.filter fun kv => !(keyBytes kv.1).any (ks.flatMap keyBytes).contains

/-- The address of element (k, n) of slot `sl` of a load, with its nibble for a 4-bit format (R74), the low bits of a 64-bit
sum (R92). -/
def loadAddr (o : MmaOp) (sl k n : Nat) : Nat :=
  let kk := sl * depthOf o.fmt o.gang + k
  (if perCell o.fmt == 2 then o.base + n * o.s2 + kk / 2 else o.base + kk * o.s1 + n * o.s2) % 2 ^ 64

/-- The address of the scale of element (k, n) (R74). -/
def loadScaleAddr (o : MmaOp) (sl k n : Nat) : Nat :=
  o.scaleBase + n * o.scaleStride + (sl * depthOf o.fmt o.gang + k) / 32

/-- The address of element `k` of vector `v` of a stream, and of its scale (R75). -/
def streamAddr (o : MmaOp) (v k : Nat) : Nat :=
  (o.base + v * o.s1 + (if perCell o.fmt == 2 then k / 2 else k * elemSize o.fmt)) % 2 ^ 64
def streamScaleAddr (o : MmaOp) (v k : Nat) : Nat := o.scaleBase + v * o.scaleStride + k / 32

/-- The address of row `i` (from ROW0) of unit `u` of a drain (R84, R92). -/
def drainAddr (o : MmaOp) (u i : Nat) : Nat := (o.base + u * o.s1 + i * o.s2) % 2 ^ 64

/-- Output columns a row of a drain writes for one unit, and the unit's number (R84). -/
def drainUnits (gang aset : Nat) : List (Nat × List Nat) :=
  match gang with
  | 0 => ((List.range 4).filter (natBit aset ·)).map fun a => (a, [a])
  | 1 => ((List.range 2).filter (natBit aset ·)).map fun p => (p, [2 * p + 1])
  | _ => [(0, [1, 3])]

/-- The lowest byte of a set of ranges (address, length) outside [lo, hi), if any (R435). -/
def outsideRanges (lo hi : Nat) : List (Nat × Nat) → Option Nat
  | [] => none
  | (a, n) :: r =>
    let here := if n == 0 then none else if a < lo || a ≥ hi then some a else if a + n > hi then some hi else none
    match here, outsideRanges lo hi r with
    | some x, some y => some (min x y)
    | some x, none => some x
    | none, y => y

/-! The DMA descriptor (R137). -/

structure Dma where
  kind : Nat := 0
  sfmt : Nat := 0
  dfmt : Nat := 0
  fmc32 : Bool := false
  rtz : Bool := false
  nsat : Bool := false
  src : Nat := 0
  dst : Nat := 0
  cnt2 : Nat := 0
  cnt1 : Nat := 0
  len0 : Nat := 0
  ss2 : Int := 0
  ss1 : Int := 0
  ds2 : Int := 0
  ds1 : Int := 0
  aux : Word := 0
  sc2 : Int := 0
  sc1 : Int := 0
  deriving DecidableEq, Repr

def dmaOf (ws : List Word) : Dma :=
  let w (i : Nat) : Word := wordAt ws i
  { kind := fld (w 0) 63 60, sfmt := fld (w 0) 59 56, dfmt := fld (w 0) 55 52, fmc32 := bitOf (w 0) 51,
    rtz := bitOf (w 0) 50, nsat := bitOf (w 0) 49, src := fld (w 1) 47 0, dst := fld (w 2) 47 0,
    cnt2 := fld (w 3) 63 48, cnt1 := fld (w 3) 47 32, len0 := fld (w 3) 31 0,
    ss2 := signedOf 32 (fld (w 4) 63 32), ss1 := signedOf 32 (fld (w 4) 31 0),
    ds2 := signedOf 32 (fld (w 5) 63 32), ds1 := signedOf 32 (fld (w 5) 31 0),
    aux := w 6, sc2 := signedOf 32 (fld (w 7) 63 32), sc1 := signedOf 32 (fld (w 7) 31 0) }

/-- The conversion pairs of R47. -/
def convPair (a b : Fmt) : Bool :=
  match a, b with
  | .e4m3, .fp32 | .e5m2, .fp32 | .bf16, .fp32 | .fp16, .fp32 | .int32, .fp32 => true
  | .int8, .fp32 | .int8, .bf16 | .int8, .fp16 | .int4, .fp32 | .int4, .bf16 | .int4, .fp16 => true
  | .fp32, .bf16 | .fp32, .fp16 | .fp32, .e5m2 | .bf16, .e5m2 | .fp16, .e5m2 | .fp32, .e4m3 | .bf16, .e4m3
  | .fp16, .e4m3 => true
  | .e4m3, .e5m2 | .e5m2, .e4m3 | .bf16, .fp16 | .fp16, .bf16 | .fp32, .int8 | .fp32, .int4 => true
  | .mxfp4, .fp32 | .mxint8, .fp32 | .sq8, .fp32 | .mxfp4, .bf16 | .mxint8, .bf16 | .sq8, .bf16 => true
  | .fp32, .mxfp4 | .fp32, .mxint8 | .fp32, .sq8 => true
  | _, _ => false

end Sys2Proof.Machine
end

