-- ==== Sys2Proof/Machine/Pantry.lean ====
section
/-! DEFINITION. The Pantry's slots and views (R272 to R276), and the credit of ingest streams (R256). -/
namespace Sys2Proof.Machine

def mdlPan : Nat := 0x10000

/-- The entry of ingest stream `st` in Meridian-A's window (R258). -/
def ingOff (st : Nat) : Nat := 0x800000 + st * 0x40

def State.strm (s : State) (st : Nat) : Stream := s.streams.val {} st
def State.setStrm (s : State) (st : Nat) (x : Stream) : State := { s with streams := s.streams.put st x }

/-- Sends a CREDIT carrying ALLOW to the source of the stream's most recent datagram, if one is known (R256). -/
def State.sendCredit (s : State) (st : Nat) : State :=
  let x := s.strm st
  match x.peer with
  | none => s
  | some (port, src, sp) => (s.setStrm st { x with lastSent := x.allow }).emit (.credit port src sp st x.allow)

/-- ALLOW set; a CREDIT goes once it has advanced by 16 since the last (R256). -/
def State.setAllow (s : State) (st v : Nat) : State :=
  let x := s.strm st
  let s := s.setStrm st { x with allow := v % 2 ^ 48 }
  if v ≥ x.lastSent + 16 then s.sendCredit st else s

def State.pCfg (s : State) : Word := s.rg dieMdl mdlPan
def State.pEn (s : State) : Bool := bitOf s.pCfg 63
def State.pPart (s : State) : Nat := fld s.pCfg 62 60
def State.nSlot (s : State) : Nat := fld s.pCfg 44 32
def State.slotSize (s : State) : Nat := fld s.pCfg 31 0
def State.pData (s : State) : Nat := s.rf dieMdl (mdlPan + 8) 47 0

def State.slotOf (s : State) (i : Nat) : PSlot := s.mdl.slots.val {} i

/-- Slots in a state, of those configured. -/
def State.slotsIn (s : State) (st : SlotState) : Nat := ((List.range s.nSlot).filter fun i => (s.slotOf i).st == st).length

/-- The low-water alarm after READY has changed (R275); ALARM stands until the alarm re-arms (assumption log 24). -/
def State.pantryAlarm (s : State) : State :=
  let r := s.slotsIn .ready
  let hi := s.rf dieMdl (mdlPan + 0x20) 44 32
  let lo := s.rf dieMdl (mdlPan + 0x20) 12 0
  if lo == 0 then s
  else if r ≥ hi then { s with mdl := { s.mdl with armed := true, alarm := false } }
  else if s.mdl.armed && r < lo then
    (({ s with mdl := { s.mdl with armed := false, alarm := true } }).setRb dieMdl (mdlPan + 0x30) 0 true).reportX
      0x019 0 (some s.pPart)
  else s

def State.setSlot (s : State) (i : Nat) (x : PSlot) : State := { s with mdl := { s.mdl with slots := s.mdl.slots.put i x } }

/-- A slot taken from READY. -/
def State.pantryTake (s : State) (i : Nat) : State :=
  let s := s.setSlot i { s.slotOf i with st := .taken }
  ({ s with mdl := { s.mdl with readyOrder := s.mdl.readyOrder.erase i } }).pantryAlarm

def State.updDma (s : State) (t tag : Nat) (f : DmaXfer → DmaXfer) : State :=
  let x := s.tile t
  s.setTile t { x with dma := x.dma.map fun d => if d.tag == tag then f d else d }

/-- A slot becomes READY (R273): the transfer that has waited longest in NEXT_WAIT is granted the earliest. -/
def State.pantryReady (s : State) (i : Nat) : State :=
  let s := s.setSlot i { s.slotOf i with st := .ready }
  let s := ({ s with mdl := { s.mdl with readyOrder := s.mdl.readyOrder ++ [i] } }).pantryAlarm
  match s.mdl.waiters, s.mdl.readyOrder with
  | (t, tag) :: w, j :: _ =>
    let s := { s with mdl := { s.mdl with waiters := w } }
    ((s.pantryTake j).updDma t tag fun d => { d with waiting := false, slot := some j }).rephase t
  | _, _ => s

/-! A finished sample's slot (R264, R272). -/

/-- The header words of a slot (R272). -/
def slotHeader (x : Sample) (seq : Nat) (o : SlotOut) : List Word :=
  [BitVec.ofNat 64 (x.index * 2 ^ 16 + x.stream * 2 ^ 8 + o.status),
   BitVec.ofNat 64 (o.payload.length * 2 ^ 32 + seq),
   BitVec.ofNat 64 (o.dims.1 * 2 ^ 32 + o.dims.2.1),
   BitVec.ofNat 64 (o.dims.2.2 * 2 ^ 32 + o.fmt * 2 ^ 12 + o.layout * 2 ^ 8 + x.slow.toNat * 2 + o.trunc.toNat),
   BitVec.ofNat 64 (x.partner * 2 ^ 16),
   x.lambda.setWidth 64,
   BitVec.ofNat 64 (x.hdr.d0 * 2 ^ 32 + x.hdr.d1),
   1]

/-- The FREE slot a finished sample is put in: the lowest-numbered one. DESIGN CHOICE (assumption log 68): R264 and R273 give the order
of becoming READY and no slot number. -/
def State.freeSlot (s : State) : Option Nat :=
  if s.pEn then (List.range s.nSlot).find? fun i => (s.slotOf i).st == .free else none

/-- Writes a sample's slot, payload then header, and makes it READY; SEQ counts the stream's slots as they become ready. -/
def State.putInSlot (s : State) (i : Nat) (x : Sample) (o : SlotOut) : State :=
  let y := s.streams.val {} x.stream
  let s := { s with streams := s.streams.put x.stream { y with seq := (y.seq + 1) % 2 ^ 32 } }
  let s := s.setSlot i { st := .filling, stream := x.stream }
  let a := s.pData + i * s.slotSize
  let s := s.writeDram s.pPart (a + 64) (o.payload.map some)
  let s := s.writeDram s.pPart a ((bytesOf (slotHeader x y.seq o)).map some)
  (s.addRg dieMdl (mdlPan + (if o.status == 0 then 0x38 else if o.status == 7 then 0x48 else 0x40)) 1).pantryReady i

/-- The finished sample that has waited longest takes a FREE slot, if there is one (R264). -/
def State.landNext (s : State) : State :=
  match s.mdl.landing, s.freeSlot with
  | (x, o) :: r, some i => ({ s with mdl := { s.mdl with landing := r } }).putInSlot i x o
  | _, _ => s

def State.landGo : Nat → State → State
  | 0, s => s
  | k + 1, s => State.landGo k s.landNext

/-- A finished sample takes its slot, after those that wait for one. -/
def State.landSlot (s : State) (x : Sample) (o : SlotOut) : State :=
  ({ s with mdl := { s.mdl with landing := s.mdl.landing ++ [(x, o)] } }).landNext

/-- A taken slot freed: its stream's ALLOW advances by one (R256, R273), and a finished sample that waits is put in it. -/
def State.pantryFree (s : State) (i : Nat) : State :=
  let st := (s.slotOf i).stream
  let s := s.setSlot i {}
  (s.setAllow st ((s.strm st).allow + 1)).landNext

/-! The slot window: its views begin at the headers (R273); below them lie Mandoline's registers (log 59). -/

def panLo : Nat := 0x300A10000000
def panHi : Nat := 0x300B00000000
def panHeader : Nat := 0x300A10000000
def panNext : Nat := 0x300A20000000
def panWait : Nat := 0x300A30000000
def panTake : Nat := 0x300A80000000

/-- A view of the window that holds an extent (R273). -/
inductive PView where
  | header | next | nextWait
  | take (slot : Nat)
  deriving DecidableEq, Repr

/-- The view an extent of `n` bytes from `a` lies in; none where it leaves its view or spans two slots. -/
def State.pView (s : State) (a n : Nat) : Option PView :=
  let sz := s.slotSize
  if panHeader ≤ a && a + n ≤ panHeader + 64 * s.nSlot then some .header
  else if panNext ≤ a && a + n ≤ panNext + sz then some .next
  else if panWait ≤ a && a + n ≤ panWait + sz then some .nextWait
  else if panTake ≤ a && sz > 0 && a + n ≤ panTake + ((a - panTake) / sz + 1) * sz && (a - panTake) / sz < s.nSlot then
    some (.take ((a - panTake) / sz))
  else none

/-- `n` bytes of the window from `a`, for a transfer that took slot `i`: the slot's bytes in DRAM; headers copied, those of
slots neither READY nor TAKEN as zeros. Lost bytes are `none`, and the Pantry reports its stream (R143, R291). -/
def State.readPantry (s : State) (req : Nat) (slot : Option Nat) (a n : Nat) : List (Option Byte) × Nat × State :=
  match slot with
  | some i =>
    let off := if a ≥ panTake then (a - panTake) % s.slotSize else if a ≥ panWait then a - panWait else a - panNext
    let r := s.readDram req (s.pData + i * s.slotSize + off) n
    (r.1, r.2.1, if r.2.1 > 0 then r.2.2.reportX 0x028 (s.slotOf i).stream (some s.pPart) else r.2.2)
  | none =>
    let rec go (k : Nat) (s : State) (a n : Nat) : List (Option Byte) × Nat × State :=
      match k with
      | 0 => ([], 0, s)
      | k + 1 =>
        if n == 0 then ([], 0, s)
        else
          let i := (a - panHeader) / 64
          let o := (a - panHeader) % 64
          let c := min n (64 - o)
          let st := (s.slotOf i).st
          let r : List (Option Byte) × Nat × State :=
            if st == .ready || st == .taken then s.readDram req (s.pData + i * s.slotSize + o) c
            else (List.replicate c (some 0), 0, s)
          let s1 := if r.2.1 > 0 then r.2.2.reportX 0x028 (s.slotOf i).stream (some s.pPart) else r.2.2
          let q := go k s1 (a + c) (n - c)
          (r.1 ++ q.1, r.2.1 + q.2.1, q.2.2)
    go (n / 64 + 2) s a n

end Sys2Proof.Machine
end

