-- ==== Sys2Proof/Machine/Dma.lean ====
section
/-! DEFINITION. Bulk copies: descriptor checks, extents, tags, transfers and their status (R106, R137 to R144). -/
namespace Sys2Proof.Machine

/-! Shapes. -/

/-- Bytes of a compressed block, and element bits in it (R88). -/
def Dma.blk (d : Dma) : Nat := if d.fmc32 then 32 else 64
def Dma.fmcBits (d : Dma) : Nat := if d.fmc32 then 3 else 7

def fmtAt (c : Nat) : Fmt := (fmtOfCode c).getD .fp32

/-- Bytes a row reads and writes, padding included (R138, R139). -/
def Dma.srcRow (d : Dma) : Nat :=
  match d.kind with
  | 0 => d.len0
  | 1 => 0
  | 4 => cdiv d.len0 64 * d.blk
  | _ => (fmtAt d.sfmt).bytes d.len0

def Dma.dstRow (d : Dma) : Nat :=
  match d.kind with
  | 0 | 1 => d.len0
  | 3 => cdiv d.len0 64 * d.blk
  | _ => if (fmtAt d.dfmt).isBlock then (fmtAt d.dfmt).bytes (roundUp d.len0 32) else (fmtAt d.dfmt).bytes d.len0

def Dma.srcBlock (d : Dma) : Bool := d.kind == 2 && (fmtAt d.sfmt).isBlock
def Dma.dstBlock (d : Dma) : Bool := d.kind == 2 && (fmtAt d.dfmt).isBlock
def Dma.scaleRow (d : Dma) : Nat := cdiv d.len0 32
def Dma.scaleBase (d : Dma) : Nat := fld d.aux 47 0

/-- The address of row `j` of plane `i` from a base and strides (R137). -/
def rowAt (base : Nat) (s2 s1 : Int) (i j : Nat) : Int := (base : Int) + i * s2 + j * s1

/-- The extent of rows: lowest address and length (R139). -/
def extentOf (d : Dma) (base : Nat) (s2 s1 : Int) (n : Nat) : Int × Nat :=
  let c := [rowAt base s2 s1 0 0, rowAt base s2 s1 (d.cnt2 - 1) 0, rowAt base s2 s1 0 (d.cnt1 - 1),
    rowAt base s2 s1 (d.cnt2 - 1) (d.cnt1 - 1)]
  let lo := c.foldl (fun a b => if b < a then b else a) (rowAt base s2 s1 0 0)
  let hi := c.foldl (fun a b => if b > a then b else a) (rowAt base s2 s1 0 0)
  (lo, (hi - lo).toNat + n)

def Dma.srcExts (d : Dma) : List (Int × Nat) :=
  if d.kind == 1 then []
  else [extentOf d d.src d.ss2 d.ss1 d.srcRow]
    ++ (if d.srcBlock then [extentOf d d.scaleBase d.sc2 d.sc1 d.scaleRow] else [])

def Dma.dstExts (d : Dma) : List (Int × Nat) :=
  [extentOf d d.dst d.ds2 d.ds1 d.dstRow]
    ++ (if d.dstBlock then [extentOf d d.scaleBase d.sc2 d.sc1 d.scaleRow] else [])

/-! The checks of R139. -/

def fp8Code (c : Nat) : Bool := c == 0 || c == 1

/-- Whether row starts lie on element boundaries (R138). -/
def onElems (d : Dma) (f : Fmt) (base : Nat) (s2 s1 : Int) : Bool :=
  let n := f.bits / 8
  n ≤ 1 || (base % n == 0 && (d.cnt1 == 1 || s1 % n == 0) && (d.cnt2 == 1 || s2 % n == 0))

/-- Whether a descriptor passes R139's first list. -/
def dmaOk (ws : List Word) : Bool :=
  let d := dmaOf ws
  let w (i : Nat) : Word := wordAt ws i
  let fmt (c : Nat) : Bool := decide (c ≤ 0xA)
  let common := fld (w 0) 48 0 == 0 && fld (w 1) 63 48 == 0 && fld (w 2) 63 48 == 0
    && d.len0 != 0 && d.cnt1 != 0 && d.cnt2 != 0
  let plain := d.sfmt == 0 && d.dfmt == 0 && !d.fmc32 && !d.rtz && !d.nsat && w 7 == 0
  common && match d.kind with
    | 0 => plain && w 6 == 0
    | 1 => plain
    | 2 =>
      fmt d.sfmt && fmt d.dfmt && convPair (fmtAt d.sfmt) (fmtAt d.dfmt) && !d.fmc32
        && (!d.nsat || fp8Code d.dfmt)
        && (if d.srcBlock || d.dstBlock then fld (w 6) 63 48 == 0
            else w 7 == 0 && (if d.sfmt == 7 && (d.dfmt == 3 || d.dfmt == 4) then fld (w 6) 63 8 == 0 else w 6 == 0))
        && onElems d (fmtAt d.sfmt) d.src d.ss2 d.ss1 && onElems d (fmtAt d.dfmt) d.dst d.ds2 d.ds1
    | 3 =>
      (d.sfmt == 5 || fp8Code d.sfmt) && (d.fmc32 || !fp8Code d.sfmt) && d.dfmt == 0 && !d.rtz && !d.nsat && w 6 == 0 && w 7 == 0
        && d.dst % d.blk == 0 && d.ds2 % d.blk == 0 && d.ds1 % d.blk == 0
    | 4 =>
      (d.dfmt == 5 || d.dfmt == 7 || fp8Code d.dfmt) && (d.fmc32 || !fp8Code d.dfmt) && d.sfmt == 0 && !d.rtz && !d.nsat
        && w 6 == 0 && w 7 == 0 && d.src % d.blk == 0 && d.ss2 % d.blk == 0 && d.ss1 % d.blk == 0
    | _ => false

/-- An address as TRAP_VALUE. -/
def addrWord (a : Int) : Word := BitVec.ofInt 64 a

/-- Whether an extent lies wholly within one area its side may use; if not, the trap it calls for, with the lowest address outside
(R139, R209, R274). -/
def State.extCheck (s : State) (t : Nat) (source : Bool) (e : Int × Nat) : Option (Cause × Int) :=
  let p := (s.tile t).part
  if e.1 < 0 then some (.access, e.1)
  else
    let a := e.1.toNat
    let n := e.2
    match spTile a with
    | some u =>
      if u ≥ 768 then some (.access, e.1)
      else if !s.tilePresent u then some (.absentUnit, e.1)
      else if u == t then (s.outsideOwn t a n).map fun b => (.access, (b : Int))
      else if s.partOfTile u != some p then some (.access, e.1)
      else if a + n > spBase u + spSize then some (.access, ((spBase u + spSize : Nat) : Int))
      else none
    | none =>
      if isDram a then (s.dramTrap p a n).map fun b => (b.1, (b.2 : Int))
      else if panLo ≤ a && a < panHi then
        if !s.diePresent dieMdl then some (.absentUnit, e.1)
        else if !source || s.pPart != p then some (.access, e.1)
        else if a + n > panHi then some (.access, (panHi : Int))
        else none
      else some (.access, e.1)

/-- The trap of a request's extents, if some fail: ABSENT_UNIT where one names an absent unit, else ACCESS; of several, the lowest
address that falls outside (R139; assumption log 23). -/
def lowestTrap (fails : List (Cause × Int)) : Option (Cause × Word) :=
  let absent := fails.filter fun f => f.1 == .absentUnit
  match if absent.isEmpty then fails else absent with
  | [] => none
  | f :: r => some (f.1, addrWord (r.foldl (fun a g => min a g.2) f.2))

def State.extsCheck (s : State) (t : Nat) (d : Dma) : Option (Cause × Word) :=
  lowestTrap (((d.srcExts.map fun e => s.extCheck t true e) ++ (d.dstExts.map fun e => s.extCheck t false e)).filterMap id)

/-! Starting a transfer. -/

/-- The source extents that lie in the Pantry window. -/
def Dma.panExts (d : Dma) : List (Nat × Nat) :=
  (d.srcExts.filter fun e => decide ((panLo : Int) ≤ e.1 && e.1 < (panHi : Int))).map fun e => (e.1.toNat, e.2)

/-- A starting transfer asks the Pantry (R273): granted, refused and counted, or left waiting. -/
def State.pantryAsk (s : State) (t : Nat) (x : DmaXfer) : State :=
  let d := dmaOf x.desc
  let refuse (s : State) : State :=
    (s.addRg dieMdl (mdlPan + 0x58) 1).updDma t x.tag fun y => { y with refused := true }
  match d.panExts with
  | [] => s
  | e :: r =>
    let v := s.pView e.1 e.2
    if !s.pEn || v.isNone || r.any (fun f => s.pView f.1 f.2 != v) then refuse s
    else match v with
      | some (.take i) =>
        if (s.slotOf i).st == .ready then (s.pantryTake i).updDma t x.tag fun y => { y with slot := some i } else refuse s
      | some .next =>
        match s.mdl.readyOrder with
        | i :: _ => (s.pantryTake i).updDma t x.tag fun y => { y with slot := some i }
        | [] => refuse s
      | some .nextWait =>
        match s.mdl.readyOrder with
        | i :: _ => (s.pantryTake i).updDma t x.tag fun y => { y with slot := some i, nextWait := true }
        | [] => ({ s with mdl := { s.mdl with waiters := s.mdl.waiters ++ [(t, x.tag)] } }).updDma t x.tag fun y =>
            { y with waiting := true, nextWait := true }
      | _ => s

/-- Starts issued transfers in issue order while fewer than 16 run (R141). -/
def State.dmaKick (s : State) (t : Nat) : State :=
  ((s.tile t).dma.map (·.tag)).foldl (fun s tag =>
    let x := s.tile t
    match x.dma.find? fun d => d.tag == tag with
    | some d =>
      if d.running || d.status.isSome || (x.dma.filter fun e => e.running).length ≥ 16 then s
      else (s.updDma t tag fun e => { e with running := true }).pantryAsk t d
    | none => s) s

/-! Instructions. -/

/-- The first free tag of a Hob's pool at or after `pick`, going round (R144). -/
def State.freeTag (s : State) (hob pick : Nat) : Option Nat :=
  ((List.range 2048).map fun i => hob * 2048 + (pick + i) % 2048).find? fun g => s.tags.all fun h => h.1 != g

/-- DMA.ISSUE (R106, R139); which free tag is lent is the command's operand `pick` (assumption log 25). -/
def execDmaIssue (t : Nat) (gd ga : Reg) (pick : Nat) (s : State) : Host.Outcome State Fault Refusal :=
  s.run t 4 (.dmaIssue t gd ga pick) fun s =>
    let a := (s.g t ga).toNat
    orTrap (s.checkOwn t a 64 64 .dmaDescriptor (s.g t ga)) <| orHold s a 64 <|
      let ws := s.descWords a 8
      let bad : Option (Cause × Word) := if dmaOk ws.1 then s.extsCheck t (dmaOf ws.1) else some (.dmaDescriptor, s.g t ga)
      orTrap bad <|
        if (s.tags.filter fun h => h.2 == t).length ≥ 256 then .trap .dmaTag (BitVec.allOnes 64)
        else match s.freeTag (t / 96) pick with
          | none => .wait s 6
          | some g =>
            let s := ws.2
            let x := s.tile t
            let s := { s.setTile t { x with dma := x.dma ++ [{ tag := g, desc := ws.1 }] } with tags := s.tags ++ [(g, t)] }
            doneG (s.dmaKick t) t gd (BitVec.ofNat 64 g)

/-- Frees a tag: its transfer is forgotten (R144). -/
def State.freeTagOf (s : State) (t g : Nat) : State :=
  let x := s.tile t
  { s.setTile t { x with dma := x.dma.filter fun d => d.tag != g } with tags := s.tags.filter fun h => h.1 != g }

/-- The transfer of a tag that the tile holds. -/
def State.heldXfer (s : State) (t : Nat) (w : Word) : Option DmaXfer :=
  if s.tags.contains (w.toNat, t) then (s.tile t).dma.find? fun d => d.tag == w.toNat else none

/-- DMA.WAIT (R106, R143); a wait on a NEXT_WAIT transfer is idle time (R274). -/
def execDmaWait (t : Nat) (gd ga : Reg) (s : State) : Host.Outcome State Fault Refusal :=
  s.run t 4 (.dmaWait t gd ga) fun s =>
    match s.heldXfer t (s.g t ga) with
    | none => .trap .dmaTag (s.g t ga)
    | some d =>
      match d.status with
      | some w => doneG (s.freeTagOf t d.tag) t gd w
      | none => .wait s (if d.nextWait then 5 else 6)

/-- DMA.POLL (R106, R143). -/
def execDmaPoll (t : Nat) (gd ga : Reg) (s : State) : Host.Outcome State Fault Refusal :=
  s.run t 4 (.dmaPoll t gd ga) fun s =>
    match s.heldXfer t (s.g t ga) with
    | none => .trap .dmaTag (s.g t ga)
    | some d =>
      match d.status with
      | some w => doneG (s.freeTagOf t d.tag) t gd w
      | none => doneG s t gd (BitVec.allOnes 64)

/-! The transfer. -/

/-- Reads `n` source bytes, `bad` the scratchpad's lost units: a lost byte is `none`; the state. -/
def State.dmaRead (s : State) (req : Nat) (slot : Option Nat) (bad : List Nat) (a n : Nat) : List (Option Byte) × State :=
  if panLo ≤ a && a < panHi then let r := s.readPantry req slot a n; (r.1, r.2.2)
  else if isDram a then let r := s.readDram req a n; (r.1, r.2.2)
  else s.readSpDma bad a n

/-- The 64 B units of the lost bytes of a read at `a` (R143). -/
def unitsLost (a : Nat) (bs : List (Option Byte)) : List Nat :=
  ((bs.mapIdx fun i b => match b with
    | some _ => none
    | none => some ((a + i) / 64)).filterMap id).eraseDups

/-- Codes of elements from bytes: `none` where a byte of the element is lost. -/
def elemCodes (f : Fmt) (bs : List (Option Byte)) (n : Nat) : List (Option Nat) :=
  (List.range n).map fun i =>
    if f.bits == 4 then ((bs.getD (i / 2) none).map fun b => if i % 2 == 0 then b.toNat % 16 else b.toNat / 16)
    else
      let k := f.bits / 8
      let own := (bs.drop (k * i)).take k
      if own.all (·.isSome) then some (leNat (own.map (·.getD 0))) else none

/-- Bytes from codes; a byte with a lost element is `none`. -/
def codeBytes (f : Fmt) (cs : List (Option Nat)) : List (Option Byte) :=
  if f.bits == 4 then
    (chunks 2 cs).map fun p => match p with
      | [some a, some b] => some (BitVec.ofNat 8 (a + 16 * b))
      | [some a] => some (BitVec.ofNat 8 a)
      | _ => none
  else
    cs.flatMap fun c => match c with
      | some v => (leBytes (f.bits / 8) v).map some
      | none => List.replicate (f.bits / 8) none

/-- One row converted: element bytes, scale bytes, elements whose conversion overflowed (R47, R48, R138). `sc` are the
source's scale bytes. RND = 1 truncates a floating or INT32 result and has no effect on INT8, INT4 and block targets, whose rows of
R47 give one rounding (DESIGN CHOICE, assumption log 70). -/
def convRow (d : Dma) (bs sc : List (Option Byte)) : List (Option Byte) × List (Option Byte) × Nat :=
  let sf := fmtAt d.sfmt
  let df := fmtAt d.dfmt
  let vals : List (Option Val) := (elemCodes sf bs d.len0).mapIdx fun i c =>
    match c, (if sf.isBlock then sc.getD (i / 32) none else some 0) with
    | some c, some k => some (decode sf k.toNat c)
    | _, _ => none
  if df.isBlock then
    let bl := (chunks 32 (padTo 32 (some (Val.fin false 0 0)) vals)).map fun b =>
      if b.all (·.isSome) then
        let e := encodeBlock df (b.map (·.getD .nan))
        (e.2.1.map some, some (BitVec.ofNat 8 e.1), e.2.2.1)
      else (b.map fun _ => none, none, 0)
    (codeBytes df (bl.flatMap (·.1)), bl.map (·.2.1), (bl.map (·.2.2)).sum)
  else
    let k : Int := signedOf 8 (fld d.aux 7 0)
    let es := vals.map fun v => v.map fun v => encode df (if d.rtz then .rtz else .rne) (satByRow df d.nsat)
      (if df == .int8 || df == .int4 then k else 0) v
    (codeBytes df (es.map fun e => e.map (·.1)), [], (es.filter fun e => match e with | some (_, o) => o | none => false).length)

/-- One row compressed (R88, R89). -/
def encRow (d : Dma) (bs : List (Option Byte)) : List (Option Byte) :=
  let vals := (elemCodes (fmtAt d.sfmt) bs d.len0).map fun c => c.map (decode (fmtAt d.sfmt) 0)
  (chunks 64 (padTo 64 (some (Val.fin false 0 0)) vals)).flatMap fun b =>
    if b.all (·.isSome) then
      let e := fmcEncode d.fmcBits (b.map (·.getD .nan))
      (leBytes 8 e.1 ++ leBytes (d.blk - 8) e.2).map some
    else List.replicate d.blk none

/-- One row decompressed, its overflowed elements counted (R89). -/
def decRow (d : Dma) (bs : List (Option Byte)) : List (Option Byte) × Nat :=
  let df := fmtAt d.dfmt
  let es := (chunks d.blk bs).flatMap fun b =>
    if b.all (·.isSome) then
      let raw := b.map (·.getD 0)
      (fmcDecode d.fmcBits (leNat (raw.take 8)) (leNat (raw.drop 8))).map fun v => some (encode df .rne (satByRow df false) 0 v)
    else List.replicate 64 none
  let es := es.take d.len0
  (codeBytes df (es.map fun e => e.map (·.1)), (es.filter fun e => match e with | some (_, o) => o | none => false).length)

/-- A fill row: the pattern from its byte 0 (R137). -/
def fillRow (d : Dma) : List (Option Byte) :=
  let p := leBytes 8 d.aux.toNat
  (List.range d.len0).map fun i => some (p.getD (i % 8) 0)

/-- Whether a byte address is one the transfer reads. -/
def Dma.reads (d : Dma) (a : Nat) : Bool :=
  d.kind != 1 && ((List.range d.cnt2).any fun i => (List.range d.cnt1).any fun j =>
    let r := rowAt d.src d.ss2 d.ss1 i j
    let k := rowAt d.scaleBase d.sc2 d.sc1 i j
    decide (r ≤ a && (a : Int) < r + d.srcRow) || (d.srcBlock && decide (k ≤ a && (a : Int) < k + d.scaleRow)))

/-- The 64 B scratchpad units lost to a transfer: those with an uncorrectable 16 B unit that its source holds (R127). -/
def State.spLost (s : State) (d : Dma) : List Nat :=
  lostUnits ((s.spErr.filter fun kv => decide (2 ≤ kv.2 && kv.2 < 4) && (List.range 16).any fun i => d.reads (kv.1 * 16 + i)).map (·.1))

/-- A transfer's rows as read and converted, those done last first: the destination and scale-plane address of each with their bytes;
the source units lost; overflows; the state. -/
structure DmaRun where
  rows : List (Int × List (Option Byte) × Int × List (Option Byte)) := []
  lost : List Nat := []
  ovf : Nat := 0

/-- One row read and converted; what it lost is added once for each 64 B unit (R143). -/
def State.dmaRow (s : State) (req : Nat) (slot : Option Nat) (bad : List Nat) (d : Dma) (run : DmaRun) (i j : Nat) : DmaRun × State :=
  let at_ := rowAt d.dst d.ds2 d.ds1 i j
  let sat := rowAt d.scaleBase d.sc2 d.sc1 i j
  if d.kind == 1 then ({ run with rows := (at_, fillRow d, sat, []) :: run.rows }, s)
  else
    let src := (rowAt d.src d.ss2 d.ss1 i j).toNat
    let b := s.dmaRead req slot bad src d.srcRow
    let k := if d.srcBlock then b.2.dmaRead req slot bad sat.toNat d.scaleRow else ([], b.2)
    let out : List (Option Byte) × List (Option Byte) × Nat :=
      match d.kind with
      | 0 => (b.1, [], 0)
      | 2 => convRow d b.1 k.1
      | 3 => (encRow d b.1, [], 0)
      | _ => let q := decRow d b.1; (q.1, [], q.2)
    ({ rows := (at_, out.1, sat, out.2.1) :: run.rows,
       lost := listUnion run.lost (unitsLost src b.1 ++ unitsLost sat.toNat k.1).eraseDups, ovf := run.ovf + out.2.2 }, k.2)

/-- All rows of a transfer. -/
def State.dmaRows (s : State) (req : Nat) (slot : Option Nat) (d : Dma) : DmaRun × State :=
  let bad := s.spLost d
  ((List.range d.cnt2).flatMap fun i => (List.range d.cnt1).map fun j => (i, j)).foldl (fun acc ij =>
    State.dmaRow acc.2 req slot bad d acc.1 ij.1 ij.2) ({}, s)

/-- Whether any source extent meets any destination extent. -/
def Dma.overlaps (d : Dma) : Bool :=
  d.srcExts.any fun e => d.dstExts.any fun f => decide (e.1 < f.1 + f.2 && f.1 < e.1 + e.2)

/-- Overlapped destination bytes end unspecified (R140): free values. -/
def State.blur (s : State) (d : Dma) (a : Nat) (bs : List (Option Byte)) : List (Option Byte) × State :=
  if !d.overlaps then (bs, s)
  else (bs.mapIdx (fun i b => if d.reads (a + i) && b.isSome then some (Config.freeByte (s.freeIdx + i)) else b),
    { s with freeIdx := s.freeIdx + bs.length })

/-- Charges what a transfer moves between dies (R356). -/
def State.dmaNet (s : State) (t req : Nat) (d : Dma) : State :=
  let rows := d.cnt1 * d.cnt2
  let s := if d.kind == 1 then s else s.chargeNet req (hobOf d.src) (t / 96) (rows * d.srcRow)
  s.chargeNet req (t / 96) (hobOf d.dst) (rows * d.dstRow)

/-- Marks a transfer complete; the tag of a tile whose part has ended returns to the pool (R144). -/
def State.dmaFinish (s : State) (t tag : Nat) (w : Word) : State :=
  let s := s.updDma t tag fun d => { d with status := some w, running := false, waiting := false, slot := none }
  let s := if (s.tile t).live then s else s.freeTagOf t tag
  (s.dmaKick t).fillerSettle t

/-- A converted row and its scale plane put at their destinations (R140). -/
def State.dmaPut (s : State) (req : Nat) (d : Dma) (row : Int × List (Option Byte) × Int × List (Option Byte)) : State :=
  let b := s.blur d row.1.toNat row.2.1
  let s := b.2.writeAny req row.1.toNat b.1
  if row.2.2.2.isEmpty then s
  else
    let k := s.blur d row.2.2.1.toNat row.2.2.2
    k.2.writeAny req row.2.2.1.toNat k.1

/-- DMA_TRANSFER_COMPLETE (R138 to R143): every row read, converted and written; a Pantry slot taken becomes free. `flips` are
scratchpad units that have taken a bit error by then (R127; assumption log 65). A tag with no running transfer does nothing. -/
def execDmaTransferComplete (t tag : Nat) (flips : List Nat) (s : State) : Host.Outcome State Fault Refusal :=
  match (s.tile t).dma.find? fun d => d.tag == tag with
  | none => .next s
  | some x =>
    if !x.running || x.waiting || x.status.isSome then .next s
    else if x.refused then .next (s.dmaFinish t tag (dmaStatus 0 0 3))
    else if (dmaOf x.desc).srcExts.any fun e => s.cutPending e.1.toNat e.2 then .next s
    else
      let d := dmaOf x.desc
      let req := (s.tile t).part
      let r := ((s.spFlip flips).dmaNet t req d).dmaRows req x.slot d
      let s := r.1.rows.reverse.foldl (fun s row => s.dmaPut req d row) r.2
      let s := match x.slot with | some i => s.pantryFree i | none => s
      .next (s.dmaFinish t tag (dmaStatus r.1.ovf r.1.lost.length (if r.1.lost.isEmpty then 0 else 1)))

end Sys2Proof.Machine
end

