-- ==== Sys2Proof/Machine/StageLink.lean ====
section
/-! DEFINITION. Stage links (R114, R179 to R194) and the Transit log's records (R213 to R215). -/
namespace Sys2Proof.Machine

/-- Offset of a handle's registers in its Hob's window (R180). -/
def slOff (h : Nat) : Nat := 0x100000 + h % 512 * 0x40
def slHob (h : Nat) : Nat := h / 512

def State.slEnd (s : State) (h : Nat) : SlEnd := s.handles.val {} h
def State.setSlEnd (s : State) (h : Nat) (x : SlEnd) : State := { s with handles := s.handles.put h x }

/-! Settings of an opening. -/

def SlEnd.isOpen (x : SlEnd) : Bool := bitOf x.cfg 63
def SlEnd.recv (x : SlEnd) : Bool := bitOf x.cfg 62
def SlEnd.cut (x : SlEnd) : Bool := bitOf x.cfg 61
def SlEnd.path (x : SlEnd) : Bool := bitOf x.cfg 60
def SlEnd.linkNo (x : SlEnd) : Nat := fld x.cfg 59 55
def SlEnd.depth (x : SlEnd) : Nat := fld x.cfg 54 48
def SlEnd.stage (x : SlEnd) : Nat := fld x.cfg 47 38
def SlEnd.part (x : SlEnd) : Nat := fld x.cfg 37 35
def SlEnd.tileLo (x : SlEnd) : Nat := fld x.cfg 31 22
def SlEnd.tileCnt (x : SlEnd) : Nat := fld x.cfg 21 12
def SlEnd.peer (x : SlEnd) : Nat := fld x.cfg 11 0
def SlEnd.epoch (x : SlEnd) : Nat := fld x.ring 63 48
def SlEnd.base (x : SlEnd) : Nat := fld x.ring 47 0

/-- LENGTH and PHASE of a header (R182). -/
def hdrLen (h : List Word) : Nat := fld (wordAt h 1) 31 0
def hdrPhase (h : List Word) : Nat := fld (wordAt h 0) 15 12

/-- Whether a handle is open for a tile, in a direction (R114). -/
def State.slFor (s : State) (t h : Nat) (recv : Bool) : Bool :=
  let x := s.slEnd h
  x.isOpen && x.recv == recv && x.tileLo ≤ t && t < x.tileLo + x.tileCnt && x.part == (s.tile t).part

def State.slOpenFor (s : State) (t h : Nat) : Bool := s.slFor t h true || s.slFor t h false

/-- Raises SL_MSG (0), SL_STALL (1) or SL_DISC (2). -/
def State.slCount (s : State) (h k n : Nat) : State := s.addRg (slHob h) (slOff h + 0x20 + 8 * k) n

/-- The partition SL_CFG names, whether or not the handle is open. -/
def State.slPartOf (s : State) (h : Nat) : Nat := s.rf (slHob h) (slOff h) 37 35

/-- Whether the traffic of a link is held: by the link itself or by a partner that carries its flows (R320, R322). -/
def State.flowsHeld (s : State) (l : Nat) : Bool :=
  let c := State.carrierGo 24 s false l []
  (c.1 :: c.2).any fun k => s.lkB k 0x10 57

/-- SL_STATE as it reads (R180, R192). -/
def State.slState (s : State) (h : Nat) : Word :=
  let x := s.slEnd h
  let w := s.rg (slHob h) (slOff h + 0x18)
  let cfg := s.rg (slHob h) (slOff h)
  let held := bitOf cfg 60 && s.flowsHeld (fld cfg 59 55)
  BitVec.ofNat 64 (x.credits.length * 2 ^ 32 + x.visible.length * 2 ^ 24 + x.popped.length * 2 ^ 16
    + x.arriving.length * 2 ^ 8 + fld w 2 1 * 2 + held.toNat)

/-! Credits on their way. -/

/-- Returns an entry's credit to the send end, on the package or over a link (R185, R188, R190). At 29 waiting returns an
SLCREDIT cell goes (R307); one of an encrypted link has room for 27 (R324). -/
def State.slFlush (s : State) (l : Nat) : State :=
  let cs := s.linkCredits.val [] l
  if cs.isEmpty then s
  else
    let n := s.cellBytes l / 8
    let s := { s with linkCredits := s.linkCredits.put l (cs.drop n) }
    s.linkSend l { cls := 7, vc := true, payload := bytesOf ((cs.take n).map creditWord), part := ((cs.head?).map (·.part)).getD 8 }

def State.slReturn (s : State) (c : SlCredit) : State :=
  match c.link with
  | none => { s with slCredits := s.slCredits ++ [c] }
  | some l =>
    let cs := s.linkCredits.val [] l ++ [c]
    let s := { s with linkCredits := s.linkCredits.put l cs }
    if cs.length ≥ 29 then s.slFlush l else s

/-! Opening and closing (R180, R181). -/

/-- Marks a push whose entry a closing receive end held. -/
def slMark (h : Nat) (f : SlFlight) : SlFlight :=
  if f.dst == h && f.hdrDone && !f.remoteOut then { f with dropped := true } else f

/-- Discards what a receive end holds, counted here; the credits return (R180, R190). -/
def State.slDiscardHeld (s : State) (h : Nat) : State :=
  let x := s.slEnd h
  let held := x.visible ++ x.popped ++ x.arriving
  let s := s.slCount h 2 held.length
  let s := { s with flights := s.flights.map (slMark h) }
  let s := held.foldl (fun s e => s.slReturn
    { dst := x.peer, idx := e.idx, epoch := x.epoch, disc := true, part := x.part,
      link := if x.path then some x.linkNo else none }) s
  { s with flights := s.flights.filter fun f => !(f.dst == h && f.dropped && !f.remoteIn) }

/-- A write of OPEN = 0: the opening ends (R180). -/
def State.slCloseNow (s : State) (h : Nat) : State :=
  let x := s.slEnd h
  let s := if x.isOpen && x.recv then s.slDiscardHeld h else s
  (s.setSlEnd h {}).setRb (slHob h) (slOff h) 63 false

/-- The checks of R181 on the settings an OPEN = 1 write would take. -/
def State.slOk (s : State) (x : SlEnd) : Bool :=
  let unit := if x.cut then 256 else 4096
  let top := if x.cut then 0x40000 else 0x4000000
  1 ≤ x.depth && x.depth ≤ 64 && decide (x.size > 0) && x.size % unit == 0 && x.size ≤ top
    && x.tileCnt != 0 && (List.range x.tileCnt).all (fun i => s.partOfTile (x.tileLo + i) == some x.part && decide (x.tileLo + i < 768))
    && (!x.path || s.linkPresent x.linkNo)
    && (!x.recv || (x.base % unit == 0 &&
      (if x.cut then (match spTile x.base with
          | some u => s.partOfTile u == some x.part && decide (u < 768) && x.base + x.depth * x.size ≤ spBase u + spSize
          | none => false)
        else s.inDramOf x.part x.base (x.depth * x.size))))

/-- The bits of SL_CFG a write keeps. -/
def slMask : Word := ~~~(maskOf 34 32)

/-- A write of SL_CFG (R180, R181). -/
def State.slWrite (s : State) (h : Nat) (v : Word) : State :=
  let v := v &&& slMask
  let d := slHob h
  let o := slOff h
  let s := s.slCloseNow h
  let s := s.setRg d o (setBit v 63 false)
  if !bitOf v 63 then s
  else
    let x : SlEnd := { cfg := v, ring := s.rg d (o + 8), size := s.rf d (o + 0x10) 31 0 }
    if !s.slOk x then s.setRb d (o + 0x18) 2 true
    else
      let s := ((s.setRg d o v).setRf d (o + 0x18) 2 1 0).setSlEnd h
        { x with credits := if x.recv then [] else List.range x.depth }
      ((s.setRg d (o + 0x20) 0).setRg d (o + 0x28) 0).setRg d (o + 0x30) 0

/-- A write to the window of an absent Hob ends in a bus error (R5). -/
def slWriteCmd (h : Nat) (v : Word) (s : State) : Host.Outcome State Fault Refusal :=
  if !s.diePresent (slHob h) then .next (s.emit .busError) else .next (s.slWrite h v)

/-- SL_OPEN: SL_CFG written with OPEN = 1. -/
def execSlOpen (h : Nat) (v : Word) (s : State) : Host.Outcome State Fault Refusal := slWriteCmd h (setBit v 63 true) s

/-- SL_CLOSE: SL_CFG written with OPEN = 0. -/
def execSlClose (h : Nat) (v : Word) (s : State) : Host.Outcome State Fault Refusal := slWriteCmd h (setBit v 63 false) s

/-! Pushing. -/

/-- The port accepts a push on an open send end with a credit (R185, R187, R191). -/
def State.slPush (s : State) (t h : Nat) (w : List Word) (idx : Nat) (rest : List Nat) : State :=
  let x := s.slEnd h
  let s := (s.setSlEnd h { x with credits := rest, seq := (x.seq + 1) % 2 ^ 32 }).slCount h 0 1
  let hdr := (setFld (wordAt w 0) 9 0 x.stage) :: (setFld (wordAt w 1) 63 32 x.seq) :: w.drop 2
  let f : SlFlight := { src := h, dst := x.peer, link := x.linkNo, remoteOut := x.path, part := x.part, tile := t, idx := idx, seq := x.seq, epoch := x.epoch, cut := x.cut, depth := x.depth, size := x.size, header := hdr, payload := fld (wordAt w 2) 47 0, len := hdrLen w }
  let s := s.chargeNet x.part (t / 96) (if x.path then 8 else slHob x.peer) 64
  if x.path then
    let s := s.linkSend x.linkNo { cls := 0, object := x.peer, offset := idx * 2 ^ 30, part := x.part, payload := hdrPayload hdr x.epoch x.cut x.depth x.size }
    if f.len == 0 then s else { s with flights := s.flights ++ [{ f with hdrDone := true }] }
  else { s with flights := s.flights ++ [f] }

/-- A header's own checks (R182, R184). -/
def hdrOk (w : List Word) (size : Nat) : Bool :=
  fld (wordAt w 0) 11 10 == 0 && fld (wordAt w 2) 63 48 == 0 && wordAt w 3 == 0 && hdrPhase w ≤ 2
    && hdrLen w ≤ size && (hdrPhase w != 2 || hdrLen w == 0)

/-- The trap of a payload that does not lie in the tile's own scratchpad or the partition's DRAM (R4, R184). -/
def State.payOutside (s : State) (t a n : Nat) : Option (Cause × Nat) :=
  if n == 0 then none
  else if isDram a then s.dramTrap (s.tile t).part a n
  else (s.outsideOwn t a n).map fun b => (.access, b)

/-- SQ.PUSH (R14, R94, R114, R183 to R187): the header is read at issue and kept while the push waits; a wait for the header's own
bytes comes first (R193), one for a credit is counted once (R180). -/
def execSqPush (t : Nat) (ga gb : Reg) (s : State) : Host.Outcome State Fault Refusal :=
  s.run t 4 (.sqPush t ga gb) fun s =>
    let h := fld (s.g t ga) 11 0
    let v : Word := BitVec.ofNat 64 h
    let a := (s.g t gb).toNat
    let waits := (s.tile t).ctx.wait.isSome
    let go (s : State) (w : List Word) : TRes :=
      let y := s.tile t
      let keep (s : State) (c : Bool) : State := s.setTile t { y with ctx := { y.ctx with held := w, stalled := c } }
      let counted := waits && y.ctx.stalled
      if s.flights.any fun f => f.src == h && !f.remoteIn && f.done < f.len && !f.dropped then .wait (keep s counted) 6
      else match (s.slEnd h).isOpen && !(s.slEnd h).recv, (s.slEnd h).credits with
        | true, i :: rest => .done (s.slPush t h w i rest)
        | _, _ => .wait ((keep s true).slCount h 1 (if counted then 0 else 1)) 5
    if waits && !(s.tile t).ctx.held.isEmpty then go s (s.tile t).ctx.held
    else noFiller s t .stageLink v <|
      if !s.diePresent (slHob h) then .trap .absentUnit v
      else if !s.slFor t h false then .trap .stageLink v
      else orTrap (s.checkOwn t a 64 64 .stageLink v) <|
       if s.cutPending a 64 then
        let y := s.tile t
        .wait (s.setTile t { y with ctx := { y.ctx with held := [], stalled := false } }) 6
       else
        let r := s.descWords a 8
        if !hdrOk r.1 (s.slEnd h).size then .trap .stageLink v
        else match s.payOutside t (fld (wordAt r.1 2) 47 0) (hdrLen r.1) with
          | some b => .trap b.1 (BitVec.ofNat 64 b.2)
          | none => go r.2 r.1

/-! Arrival (R186, R190, R191, R193). -/

/-- Entries at the front of the arriving list that are ready become visible. -/
def slSettle (x : SlEnd) : List SlEntry → SlEnd
  | [] => { x with arriving := [] }
  | e :: r =>
    if x.cut || e.landed ≥ hdrLen e.header then slSettle { x with visible := x.visible ++ [e] } r
    else { x with arriving := e :: r }

def State.slAdvance (s : State) (h : Nat) : State :=
  let x := s.slEnd h
  s.setSlEnd h (slSettle x x.arriving)

/-- A header is discarded with its payload, counted, its credit returned (R190, R191), for the partition SL_CFG names whether or not the
handle is open. -/
def State.slDiscard (s : State) (i : Nat) (f : SlFlight) : State :=
  let s := s.slCount f.dst 2 1
  let peer := if f.remoteIn then fld (s.rg (slHob f.dst) (slOff f.dst)) 11 0 else f.src
  let s := { s with flights :=
    if f.remoteIn && f.len > 0 then s.flights.set i { f with hdrDone := true, dropped := true } else s.flights.eraseIdx i }
  s.slReturn { dst := peer, idx := f.idx, epoch := f.epoch, disc := true, part := if f.remoteIn then s.slPartOf f.dst else f.part,
               link := if f.remoteIn then some f.link else none }

/-- What the end of a push's payload read may end: a filler task's wait for it, the phase of a wait in SQ.PUSH (R208, R213). -/
def State.settle (s : State) (f : SlFlight) : State := if f.remoteIn then s else (s.fillerSettle f.tile).rephase f.tile

/-- SL_HEADER_ARRIVAL: the header of push `i` reaches its receive end. Headers of one send end arrive in push order
(assumption log 29). -/
def execSlHeaderArrival (i : Nat) (s : State) : Host.Outcome State Fault Refusal :=
  match s.flights[i]? with
  | none => .next s
  | some f =>
    if f.hdrDone || f.remoteOut || (s.flights.take i).any fun e => !e.hdrDone && !e.remoteOut && e.src == f.src && e.remoteIn == f.remoteIn && e.dst == f.dst then
      .next s
    else
      let x := s.slEnd f.dst
      if !x.isOpen || !x.recv || x.epoch != f.epoch then .next ((s.slDiscard i f).settle f)
      else if x.cut != f.cut || x.depth != f.depth || x.size != f.size then
        .next (((s.slDiscard i f).setRb (slHob f.dst) (slOff f.dst + 0x18) 1 true).settle f)
      else
        let s := s.setSlEnd f.dst { x with arriving := x.arriving ++ [{ idx := f.idx, seq := f.seq, header := f.header }] }
        let s := { s with flights := if f.len == 0 then s.flights.eraseIdx i else s.flights.set i { f with hdrDone := true } }
        .next (s.slAdvance f.dst)

/-- Adds landed bytes to an entry held at a receive end. -/
def slLand (idx n : Nat) (x : SlEnd) : SlEnd :=
  let f (e : SlEntry) : SlEntry := if e.idx == idx then { e with landed := e.landed + n } else e
  { x with arriving := x.arriving.map f, visible := x.visible.map f, popped := x.popped.map f }

/-- SL_DATA_ARRIVAL: up to `n` further payload bytes of push `i` are read and written to the landing ring, or sent on their
link in cells (R188, R189, R306). Bytes lost at the source are written as all ones and reported (R291). -/
def execSlDataArrival (i n : Nat) (s : State) : Host.Outcome State Fault Refusal :=
  match s.flights[i]? with
  | none => .next s
  | some f =>
    let left := f.len - f.done
    if !f.hdrDone || left == 0 || n == 0 then .next s
    else if f.remoteOut then
      let k := if n ≥ left then min left (s.cellBytes f.link) else min (n / 8 * 8) (s.cellBytes f.link)
      if k == 0 || s.cutPending (f.payload + f.done) k then .next s
      else
        let r := s.readAny f.part (f.payload + f.done) k
        let s := if r.2.1 then r.2.2.reportX 0x026 f.src (some f.part) else r.2.2
        let s := s.chargeNet f.part (hobOf f.payload) 8 k
        let s := s.linkSend f.link { cls := 1, object := f.dst, offset := f.idx * 2 ^ 30 + f.done / 8, part := f.part, payload := r.1 }
        let s := { s with flights := if f.done + k ≥ f.len then s.flights.eraseIdx i else s.flights.set i { f with done := f.done + k } }
        .next (s.settle f)
    else
      let k := min n left
      let here : Option (List Byte) := if f.remoteIn then (List.range k).mapM fun j => f.bytes.find (f.done + j) else none
      if f.remoteIn && here.isNone || !f.remoteIn && s.cutPending (f.payload + f.done) k then .next s
      else
        let r : List Byte × Bool × State := match here with
          | some bs => (bs, false, s)
          | none => s.readAny f.part (f.payload + f.done) k
        let s := r.2.2
        let flights := if f.done + k ≥ f.len then s.flights.eraseIdx i else s.flights.set i { f with done := f.done + k }
        if f.dropped then .next ({ s with flights := flights })
        else
          let x := s.slEnd f.dst
          let a := x.base + f.idx * x.size + f.done
          let s := if f.remoteIn then s else s.chargeNet f.part (hobOf f.payload) (hobOf a) k
          let s := s.writeAny x.part a (r.1.map some)
          let s := if r.2.1 then s.reportX 0x026 f.dst (some (s.slPartOf f.dst)) else s
          let s := { s with flights := flights }
          .next (((s.setSlEnd f.dst (slLand f.idx k (s.slEnd f.dst))).slAdvance f.dst).settle f)

/-- SL_CREDIT_ARRIVAL: credit `i` reaches its send end, in the order of the releases that freed it (R185, R190). -/
def execSlCreditArrival (i : Nat) (s : State) : Host.Outcome State Fault Refusal :=
  match s.slCredits[i]? with
  | none => .next s
  | some c =>
    if (s.slCredits.take i).any fun e => e.dst == c.dst then .next s
    else
      let s := { s with slCredits := s.slCredits.eraseIdx i }
      let x := s.slEnd c.dst
      if !x.isOpen || x.recv || x.epoch != c.epoch then .next s
      else
        let s := s.setSlEnd c.dst { x with credits := x.credits ++ [c.idx] }
        .next (if c.disc then s.slCount c.dst 2 1 else s)

/-- SL_CREDIT_FLUSH: the returns waiting for link `l` go in an SLCREDIT cell (R307). -/
def execSlCreditFlush (l : Nat) (s : State) : Host.Outcome State Fault Refusal := .next (s.slFlush l)

/-! Popping and releasing. -/

/-- SQ.POP (R13, R114, R183, R186). -/
def execSqPop (t : Nat) (gd ga gb : Reg) (s : State) : Host.Outcome State Fault Refusal :=
  s.run t 4 (.sqPop t gd ga gb) fun s =>
    let h := fld (s.g t ga) 11 0
    let v : Word := BitVec.ofNat 64 h
    let a := (s.g t gb).toNat
    let waits := (s.tile t).ctx.wait.isSome
    let x := s.slEnd h
    let go : TRes :=
      match x.isOpen && x.recv, x.visible with
      | true, e :: rest =>
        let s := s.setSlEnd h { x with visible := rest, popped := x.popped ++ [{ e with tile := t }] }
        let s := s.slCount h 0 1
        let w := e.header.set 2 (setFld (wordAt e.header 2) 47 0 (x.base + e.idx * x.size))
        let s := s.writeSp a (bytesOf w)
        let y := s.tile t
        let ph := hdrPhase e.header
        let tr := { y.transit with
          popped := true, released := false, popHandle := h, popIdx := e.idx,
          popPhase := if ph ≤ 1 then ph else y.transit.popPhase }
        let s := s.setTile t { y with transit := tr }
        doneG (s.setPhase t (s.basePhase t)) t gd (BitVec.ofNat 64 e.idx)
      | _, _ => .wait (s.slCount h 1 (if waits then 0 else 1)) 5
    if waits then go
    else noFiller s t .stageLink v <|
      if !s.diePresent (slHob h) then .trap .absentUnit v
      else if !s.slFor t h true then .trap .stageLink v
      else orTrap (s.checkOwn t a 64 64 .stageLink v) go

/-- The Transit record (R214). -/
def transitRecord (mbid stage : Nat) (first : Bool) (acc : Tab Nat) (seq : Word) : List Word :=
  let step := decide (acc.val 0 2 > 0) || decide (acc.val 0 3 > 0)
  BitVec.ofNat 64 (mbid * 2 ^ 32 + stage * 2 ^ 16 + step.toNat * 2 + first.toNat)
    :: (List.range 6).map (fun i => BitVec.ofNat 64 (acc.val 0 i)) ++ [seq]

/-- Closes a record: written to the ring, the account begun anew (R214, R215). -/
def State.transitClose (s : State) (t mbid : Nat) : State :=
  let d := t / 96
  let s := s.setPhase t (s.tile t).transit.phase
  let x := s.tile t
  let seq := s.rg d (tlOff t + 0x10)
  let n := s.rf d (tlOff t + 8) 63 56
  let a := s.rf d (tlOff t + 8) 47 0 + seq.toNat % 2 ^ n * 64
  let w := transitRecord mbid (s.rf d (tlOff t) 9 0) (seq == 0) x.transit.acc seq
  let s := s.writeDram x.part a ((bytesOf w).map some)
  let y := s.tile t
  (s.setTile t { y with transit := { y.transit with acc := [] } }).addRg d (tlOff t + 0x10) 1

/-- Whether the release of an entry closes the lead tile's record: BACKWARD, or FORWARD on a stage with no inbound backward
link, which is one whose only receive handle open for the tile is this one (assumption log 29). -/
def State.transitCloses (s : State) (t h ph : Nat) : Bool :=
  s.tlEn t && (ph == 1 || (ph == 0 && s.handles.all fun kv => kv.1 == h || !s.slFor t kv.1 true))

/-- SQ.REL (R114, R188, R193, R214). -/
def execSqRel (t : Nat) (ga gb : Reg) (s : State) : Host.Outcome State Fault Refusal :=
  s.run t 4 (.sqRel t ga gb) fun s =>
    let h := fld (s.g t ga) 11 0
    let v : Word := BitVec.ofNat 64 h
    let i := (s.g t gb).toNat
    let x := s.slEnd h
    let waits := (s.tile t).ctx.wait.isSome
    let go : TRes :=
      match x.popped.find? fun e => e.idx == i && e.tile == t with
      | none => if waits then .wait s 6 else .trap .stageLink v
      | some e =>
        if x.cut && e.landed < hdrLen e.header then .wait s 6
        else
          let s := s.setSlEnd h { x with popped := x.popped.filter fun y => y.idx != i }
          let s := s.slReturn { dst := x.peer, idx := i, epoch := x.epoch, part := x.part,
                                link := if x.path then some x.linkNo else none }
          let ph := hdrPhase e.header
          let s := if s.transitCloses t h ph then s.transitClose t (fld (wordAt e.header 0) 63 32) else s
          let y := s.tile t
          let s :=
            if y.transit.popHandle == h && y.transit.popIdx == i then
              let s := s.setTile t { y with transit := { y.transit with released := true } }
              s.setPhase t (s.basePhase t)
            else s
          .done s
    if waits then go
    else noFiller s t .stageLink v <|
      if !s.diePresent (slHob h) then .trap .absentUnit v
      else if !s.slFor t h true then .trap .stageLink v else go

/-- A fence closes every handle of the partition; entries, credits and payloads in flight go, uncounted (R192). -/
def State.slFence (s : State) (p : Nat) : State :=
  let hs := (s.handles.filter fun kv => kv.2.isOpen && kv.2.part == p).map (·.1)
  let s := hs.foldl (fun s h => (s.setSlEnd h {}).setRb (slHob h) (slOff h) 63 false) s
  { s with flights := s.flights.filter fun f => f.part != p && !(f.remoteIn && hs.contains f.dst),
           slCredits := s.slCredits.filter fun c => c.part != p && !hs.contains c.dst,
           linkCredits := s.linkCredits.map fun kv => (kv.1, kv.2.filter fun c => c.part != p) }

end Sys2Proof.Machine
end

