-- ==== Sys2Proof/Machine/Collective.lean ====
section
/-! DEFINITION. Collectives: rounds, contributions, the order of addition, completion and release at the homes, and the RX
instructions that name them (R116, R216 to R230). Sums, DEFER and staging slots lie in the shard areas of DRAM; the state
keeps which 256 B units of them a write has reached. -/
namespace Sys2Proof.Machine

def State.coll (s : State) (h : Nat) : Coll := s.colls.val {} h
def State.setColl (s : State) (h : Nat) (x : Coll) : State := { s with colls := s.colls.put h x }

/-! Settings (R217, R218). -/

def State.rxCfg (s : State) (h : Nat) : Word := s.rg dieMerA (rxOff h)
def State.rxValid (s : State) (h : Nat) : Bool := decide (h < 4096) && bitOf (s.rxCfg h) 63
def State.rxPart (s : State) (h : Nat) : Nat := fld (s.rxCfg h) 62 60
def State.rxByArrival (s : State) (h : Nat) : Bool := bitOf (s.rxCfg h) 59
def State.rxDiscards (s : State) (h : Nat) : Bool := bitOf (s.rxCfg h) 58
def State.rxFmt (s : State) (h : Nat) : Fmt := fmtAt (fld (s.rxCfg h) 57 54)
def State.rxPeriod (s : State) (h : Nat) : Nat := fld (s.rxCfg h) 53 46 + 1
def State.rxSlots (s : State) (h : Nat) : Nat := fld (s.rxCfg h) 45 40
def State.rxGroup (s : State) (h : Nat) : Nat := fld (s.rxCfg h) 39 30
def State.rxApply (s : State) (h : Nat) : Bool := bitOf (s.rxCfg h) 29
def State.rxNshard (s : State) (h : Nat) : Nat := fld (s.rxCfg h) 23 16 + 1
def State.rxLen (s : State) (h : Nat) : Nat := s.rf dieMerA (rxOff h + 8) 31 0
def State.rxResult (s : State) (h : Nat) : Nat := s.rf dieMerA (rxOff h + 0x18) 47 0

/-- Whether the member mask holds `m`. -/
def State.rxMember (s : State) (h m : Nat) : Bool := decide (m < 1024) && s.rb dieMerA (rxOff h + 0x40 + 8 * (m / 64)) (m % 64)

/-- The members, ascending. -/
def State.rxMembers (s : State) (h : Nat) : List Nat := (List.range 1024).filter (s.rxMember h)

/-- Fields of shard `i`'s table entry. -/
def Coll.word (c : Coll) (i j : Nat) : Word := wordAt (c.shards.getD i []) j
def Coll.remote (c : Coll) (i : Nat) : Bool := bitOf (c.word i 0) 63
def Coll.link (c : Coll) (i : Nat) : Nat := fld (c.word i 0) 62 58
def Coll.stack (c : Coll) (i : Nat) : Nat := fld (c.word i 0) 57 53
def Coll.area (c : Coll) (i : Nat) : Nat := fld (c.word i 0) 47 0

/-- The shards whose home is on this package. -/
def Coll.locals (c : Coll) : List Nat := (List.range c.shards.length).filter fun i => !c.remote i

/-- Bytes of a shard's contribution, and of its element. -/
def State.rxBytes (s : State) (h : Nat) : Nat := (s.rxFmt h).bytes (s.rxLen h)
def State.rxElem (s : State) (h : Nat) : Nat := (s.rxFmt h).bits / 8

/-- The 256 B writes of a shard's contribution. -/
def State.rxWrites (s : State) (h : Nat) : Nat := cdiv (s.rxBytes h) 256

/-- First element and number of elements of write `j`. -/
def State.rxSpan (s : State) (h j : Nat) : Nat × Nat :=
  let k := 256 / s.rxElem h
  (j * k, min k (s.rxLen h - j * k))

/-- Buffers of shard `i`: the sum of a round, DEFER, a staging slot (R218, R219). -/
def State.rxSum (s : State) (h i idx : Nat) : Nat := (s.coll h).area i + idx % 2 * (4 * s.rxLen h)
def State.rxDefer (s : State) (h i : Nat) : Nat := (s.coll h).area i + 8 * s.rxLen h
def State.rxSlot (s : State) (h i k : Nat) : Nat := (s.coll h).area i + 12 * s.rxLen h + k * s.rxBytes h

/-! Norms of steps (R240, R241). -/

def State.gstep (s : State) (st : BitVec 16) : GStep := (s.gsteps.find? fun g => g.step == st).getD { step := st }
def State.setGstep (s : State) (g : GStep) : State :=
  { s with gsteps := g :: s.gsteps.filter fun x => x.step != g.step }

/-! Rounds (R219). -/

/-- The distance of a step from OLDEST. -/
def Coll.dist (c : Coll) (step : BitVec 16) : Int := (step - c.oldest).toInt

/-- Whether a step names a round of the collective that an instruction may name. -/
def State.rxStepOk (s : State) (h : Nat) (step : BitVec 16) : Bool :=
  let c := s.coll h
  let d := c.dist step
  let p : Int := (s.rxPeriod h : Nat)
  d != -32768 && d.emod p == 0 && decide ((c.roundIdx : Int) + d.ediv p ≥ 0)

def Coll.round (c : Coll) (step : BitVec 16) : Option Round := c.rounds.find? fun r => r.step == step

def putRound (l : List Round) (r : Round) : List Round := l.map fun x => if x.step == r.step then r else x

def State.setRound (s : State) (h : Nat) (r : Round) : State :=
  let c := s.coll h
  s.setColl h { c with rounds := putRound c.rounds r }

/-- Replaces a contribution by what it has become, or drops it. -/
def State.setContrib (s : State) (h : Nat) (x : Contrib) (y : Option Contrib) : State :=
  let c := s.coll h
  let same (z : Contrib) : Bool := z.order == x.order && z.shard == x.shard
  s.setColl h { c with contribs := match y with
    | some y => c.contribs.map fun z => if same z then y else z
    | none => c.contribs.filter fun z => !same z }

/-- Counts a contribution once for each of what may happen to it. -/
def State.rxOnce (s : State) (h order tag : Nat) (step : BitVec 16) (f : State → State) : State :=
  let c := s.coll h
  let k := (order * 64 + tag, step)
  if c.counted.contains k then s else f (s.setColl h { c with counted := k :: c.counted })

/-! Additions (R65, R222, R238). -/

/-- FP32 codes of `n` elements of a format, widened exactly; a lost element is the canonical NaN. -/
def widen (f : Fmt) (bs : List (Option Byte)) (n : Nat) : List (BitVec 32) :=
  (elemCodes f bs n).map fun c =>
    match c with
    | none => 0x7FC00000#32
    | some x => if f == .fp32 then BitVec.ofNat 32 x else BitVec.ofNat 32 (toFmt .fp32 (decode f 0 x))

def f32Bytes (vs : List (BitVec 32)) : List (Option Byte) := vs.flatMap fun v => (leBytes 4 v.toNat).map some

/-- An uncorrectable error reached an addition or apply of stack `m` (R237, R238). -/
def State.msaMem (s : State) (m p : Nat) (lost : Nat) : State :=
  if lost == 0 then s
  else (s.setRb (m / 3) (msaOff m + 0x10) 0 true).reportX 0x020 m (some p)

/-- Reads `n` FP32 elements as an MSA of stack `m`. -/
def State.msaRead (s : State) (m p a n : Nat) : List (BitVec 32) × State :=
  let r := s.readDram p a (4 * n)
  (widen .fp32 r.1 n, r.2.2.msaMem m p r.2.1)

/-- One write's elements into a buffer: copied where it is the first to reach them, else added. -/
def State.msaAdd (s : State) (m p a : Nat) (first : Bool) (vs : List (BitVec 32)) : State :=
  if first then s.writeDram p a (f32Bytes vs)
  else
    let r := s.msaRead m p a vs.length
    r.2.writeDram p a (f32Bytes (List.zipWith add32 r.1 vs))

/-- Which unit a write of a shard is, among all. -/
def unitKey (i j : Nat) : Nat := i * 2 ^ 22 + j

/-- Adds write `j` of a contribution to a round's sum. -/
def State.rxAddSum (s : State) (h i : Nat) (r : Round) (j : Nat) (bs : List (Option Byte)) : State × Round :=
  let sp := s.rxSpan h j
  let k := unitKey i j
  (s.msaAdd ((s.coll h).stack i) (s.rxPart h) (s.rxSum h i r.idx + 4 * sp.1) (!r.reached.contains k) (widen (s.rxFmt h) bs sp.2),
    { r with reached := if r.reached.contains k then r.reached else k :: r.reached })

/-- A late write (R226): counted once for its contribution, added into DEFER or dropped. -/
def State.rxLate (s : State) (h : Nat) (x : Contrib) (j : Nat) (bs : List (Option Byte)) : State :=
  let s := s.rxOnce h x.order 0 x.step fun s => s.addRg dieMerA (rxOff h + 0x30) 1
  if s.rxDiscards h then s
  else
    let c := s.coll h
    let sp := s.rxSpan h j
    let k := unitKey x.shard j
    let first := !c.deferKeys.contains k
    let s := s.msaAdd (c.stack x.shard) (s.rxPart h) (s.rxDefer h x.shard + 4 * sp.1) first (widen (s.rxFmt h) bs sp.2)
    let c := s.coll h
    let b := (x.shard, x.order)
    s.setColl h { c with
      deferKeys := if first then k :: c.deferKeys else c.deferKeys,
      deferBy := if c.deferBy.contains b then c.deferBy else b :: c.deferBy }

/-- Sums of squares of a completed shard: in ascending order in FP32, and exactly. -/
def sumSquares (i : Nat) (vs : List (BitVec 32)) : SqPart :=
  vs.foldl (fun (p : SqPart) x =>
    let v := add32 p.v (mul32 x x)
    match decode .fp32 0 x.toNat with
    | .fin _ m e =>
      let t := dyAdd p.m p.e ((m * m : Nat) : Int) (2 * e)
      { p with v := v, m := t.1, e := t.2 }
    | _ => { p with v := v, bad := true }) { shard := i }

/-- Completion's last part for one unit of a home's sum (R224 steps 2 and 3). -/
def State.rxFinishUnit (h i : Nat) (r : Round) (s : State) (j : Nat) : State :=
  let c := s.coll h
  let m := c.stack i
  let p := s.rxPart h
  let sp := s.rxSpan h j
  let k := unitKey i j
  let a := s.rxSum h i r.idx + 4 * sp.1
  if c.deferKeys.contains k then
    let d := s.msaRead m p (s.rxDefer h i + 4 * sp.1) sp.2
    d.2.msaAdd m p a (!r.reached.contains k) d.1
  else if r.reached.contains k then s
  else s.writeDram p a (f32Bytes (List.replicate sp.2 0#32))

/-! What homes on other packages and this one's tell each other (R217, R224, R307, assumption logs 16 and 33). -/

/-- The links that lead to the collective's other packages: those of remote homes, and those remote members came by. -/
def State.rxLinks (s : State) (h : Nat) : List Nat :=
  let c := s.coll h
  (((List.range c.shards.length).filter c.remote).map c.link ++ c.vias).eraseDups

/-- Sends a notice (an RSP cell) to the collective's other packages, but for link `but`. -/
def State.rxNotice (s : State) (h hops : Nat) (but : Option Nat) (ws : List Nat) : State :=
  ((s.rxLinks h).filter fun l => but != some l).foldl (fun s l =>
    s.linkSend l { cls := 5, vc := true, payload := unitBytes ws, part := s.rxPart h, hops := hops }) s

/-- Bits of a list of numbers, 64 to a word. -/
def maskWords (n : Nat) (xs : List Nat) : List Nat :=
  (List.range n).map fun w => (List.range 64).foldl (fun a i => if xs.contains (64 * w + i) then a + 2 ^ i else a) 0
def maskBits (ws : List Nat) : List Nat := (List.range (64 * ws.length)).filter fun i => natBit (ws.getD (i / 64) 0) (i % 64)

/-- The completion of a round at a home, told in notices: the late contributions DEFER gave, then what R228 needs of it. -/
def State.rxTell (s : State) (h hops : Nat) (but : Option Nat) (x : Heard) : State :=
  let part (s : State) (i : Nat) : State :=
    s.rxNotice h hops but ([8, h, x.shard, x.step.toNat] ++ (x.deferred.drop (16 * i)).take 16)
  let s := (List.range (cdiv x.deferred.length 16)).foldl part s
  s.rxNotice h hops but ([5, h, x.shard, x.step.toNat, x.cut.toNat + 2 * x.nonfinite.toNat + 4 * x.released.toNat + 8 * x.gnorm.toNat] ++ maskWords 16 x.added)

/-- What a home here says of a round it has completed. -/
def Round.says (r : Round) (i : Nat) (bad : Bool) : Heard :=
  { shard := i, step := r.step, added := (r.added.filter fun x => x.1 == i).map (·.2),
    cut := r.partials.any fun x => x.1 == i, deferred := r.deferred, nonfinite := bad, released := r.released }

/-- Completes a round at shard `i`'s home: DEFER added and cleared, the buffer written (R224). -/
def State.rxFinish (s : State) (h i : Nat) (step : BitVec 16) : State :=
  match (s.coll h).round step with
  | none => s
  | some r =>
    let s := (List.range (s.rxWrites h)).foldl (State.rxFinishUnit h i r) s
    let c := s.coll h
    let m := c.stack i
    let vs := s.msaRead m (s.rxPart h) (s.rxSum h i r.idx) (s.rxLen h)
    let s := vs.2
    let vs := vs.1
    let bad := vs.any nonfinite32
    let s := if bad then s.setRb (m / 3) (msaOff m + 0x10) 2 true else s
    let mine (b : Nat × Nat) : Bool := b.1 == i
    let own := ((c.deferBy.filter mine).map (·.2)).eraseDups
    let r := { r with
      homesDone := i :: r.homesDone, deferred := r.deferred ++ own.filter fun o => !r.deferred.contains o,
      nonfinite := r.nonfinite || bad, sq := if s.rxPart h == 0 then r.sq ++ [sumSquares i vs] else r.sq }
    let c := s.coll h
    let s := s.setColl h { c with
      rounds := putRound c.rounds r, deferKeys := c.deferKeys.filter fun k => k / 2 ^ 22 != i,
      deferBy := c.deferBy.filter fun b => !mine b }
    s.rxTell h 32 none { r.says i bad with deferred := own, gnorm := c.gnorms.contains step }

/-- A staged contribution added whole, its slot freed (R222). -/
def State.rxAddStaged (s : State) (h : Nat) (x : Contrib) (r : Round) : State × Round :=
  let i := x.shard
  let n := s.rxBytes h
  let a := s.rxSlot h i (x.slot.getD 0)
  let go := (List.range (s.rxWrites h)).foldl (fun (acc : State × Round) j =>
    let k := min 256 (n - 256 * j)
    let d := acc.1.readDram (acc.1.rxPart h) (a + 256 * j) k
    let s := d.2.2.msaMem ((acc.1.coll h).stack i) (acc.1.rxPart h) d.2.1
    s.rxAddSum h i acc.2 j d.1) (s, r)
  (go.1.setContrib h x none, { go.2 with added := (i, x.member) :: go.2.added })

/-- Whether all of a contribution's writes have arrived. -/
def State.rxWhole (s : State) (h : Nat) (x : Contrib) : Bool := x.got.length ≥ s.rxWrites h

/-- The staged contribution of a member to a round's shard. -/
def Coll.stagedOf (c : Coll) (i m : Nat) (step : BitVec 16) : Option Contrib :=
  c.contribs.find? fun x => x.shard == i && x.member == m && x.step == step && x.grant == .staged

/-- Adds the staged contributions whose turn has come, in member order (R222); `all` takes every whole one (R225). -/
def State.rxSettleGo (h i : Nat) (all : Bool) : List Nat → State → Round → State × Round
  | [], s, r => (s, r)
  | m :: ms, s, r =>
    if r.added.contains (i, m) then State.rxSettleGo h i all ms s r
    else
      match (s.coll h).stagedOf i m r.step with
      | some x =>
        if s.rxWhole h x then
          let q := s.rxAddStaged h x r
          State.rxSettleGo h i all ms q.1 q.2
        else if all then State.rxSettleGo h i all ms s r else (s, r)
      | none => if all then State.rxSettleGo h i all ms s r else (s, r)

/-- After an addition at a home: staged members in turn, then completion by all-wait (R222, R224). -/
def State.rxSettle (s : State) (h i : Nat) (step : BitVec 16) : State :=
  match (s.coll h).round step with
  | none => s
  | some r =>
    let ms := s.rxMembers h
    let q := State.rxSettleGo h i false ms s r
    let s := q.1.setRound h q.2
    if !q.2.homesDone.contains i && ms.all fun m => q.2.added.contains (i, m) then s.rxFinish h i step else s

/-! Completion of a round, freeing and opening (R219, R224, R227 to R229). -/

/-- The completion word (R228), over every home's shards. A late contribution is one of DEFERRED once, whichever
homes' DEFERs gave it. -/
def State.rxWord (s : State) (h : Nat) (r : Round) : Word :=
  let c := s.coll h
  let l := List.range c.shards.length
  let full := (s.rxMembers h).filter fun m => l.all fun i => r.added.contains (i, m)
  let late := (r.late.map (·.2)).eraseDups
  let part := !r.partials.isEmpty || late.any fun m => l.any fun i => r.added.contains (i, m)
  BitVec.ofNat 64 (r.step.toNat * 2 ^ 48 + full.length * 2 ^ 37 + late.length * 2 ^ 26
    + satAt r.deferred.eraseDups.length 0x3FF * 2 ^ 16 + part.toNat * 2 ^ 7 + r.nonfinite.toNat * 2 ^ 6
    + (c.gnorms.contains r.step).toNat * 2 ^ 5 + r.released.toNat)

/-- Marks as complete each round that every home has completed. Sums of squares stay for P0's norms (R241). -/
def State.rxComplete (h : Nat) (s : State) (r : Round) : State :=
  let c := s.coll h
  if r.complete || !((List.range c.shards.length).all r.homesDone.contains) then s
  else
    let s := s.setColl h { c with
      rounds := putRound c.rounds { r with complete := true },
      words := (c.words ++ [(r.step, s.rxWord h r)]).drop (c.words.length + 1 - 8),
      norms := if s.rxPart h == 0 then c.norms ++ [(r.step, r.released, r.sq)] else c.norms }
    let s := (c.applies.filter fun a => a.step == r.step).foldl (fun s a => s.rephase a.tile) s
    if s.rxApply h && s.alValid (s.rxGroup h) then s.alKick (s.rxGroup h) else s

/-- Whether a step that lay behind one of OLDEST's two values lies ahead of the other: its number comes round again. -/
def comesRound (old new x : BitVec 16) : Bool := decide ((x - old).toInt < 0) && decide ((x - new).toInt ≥ 0)

/-- Frees OLDEST and opens the round after the next (R229). What a step left behind goes when its number comes round again. -/
def State.rxFree (s : State) (h : Nat) : State :=
  let c := s.coll h
  let p := s.rxPeriod h
  let old := c.oldest
  let now := old + BitVec.ofNat 16 p
  let new := old + BitVec.ofNat 16 (2 * p)
  let s := if s.rxPart h == 0 then { s with gsteps := s.gsteps.filter fun g => !comesRound old now g.step } else s
  s.setColl h { c with
    oldest := now, roundIdx := c.roundIdx + 1,
    rounds := (c.rounds.filter fun r => r.step != old) ++ [{ step := new, idx := c.roundIdx + 2 }],
    counted := c.counted.filter fun k => k.2 != new,
    gnorms := c.gnorms.filter fun g => !comesRound old now g,
    norms := c.norms.filter fun n => !comesRound old now n.1,
    normed := c.normed.filter fun g => !comesRound old now g,
    passed := c.passed.filter fun a => a.step != new,
    applies := c.applies.filter fun a => !(a.gone && a.step == old) }

/-- RX.RELEASE at shard `i`'s home (R225). A staged contribution not wholly arrived enters DEFER once the round has
completed (assumption log 32). -/
def State.rxReleaseHome (h : Nat) (step : BitVec 16) (s : State) (i : Nat) : State :=
  match (s.coll h).round step with
  | none => s
  | some r =>
    if r.homesDone.contains i then s
    else
      let ms := s.rxMembers h
      let q := State.rxSettleGo h i true ms s r
      let s := q.1
      let c := s.coll h
      let miss := ms.filter fun m => !q.2.added.contains (i, m)
      let mine (x : Contrib) : Bool := x.shard == i && x.step == step && (x.grant == .direct || x.grant == .staged)
      let cut := (c.contribs.filter fun x => mine x && x.grant == .direct && !x.got.isEmpty).map fun x => (i, x.member)
      let staged := c.contribs.filter fun x => mine x && x.grant == .staged
      let r := { q.2 with late := miss.map (fun m => (i, m)) ++ q.2.late, partials := cut ++ q.2.partials, released := true }
      let late (x : Contrib) : Contrib := if mine x then { x with grant := .late, slot := none } else x
      let s := s.setColl h { c with rounds := putRound c.rounds r, contribs := c.contribs.map late }
      let s := s.rxFinish h i step
      staged.foldl (fun s x =>
        x.got.foldl (fun s j =>
          let d := s.readDram (s.rxPart h) (s.rxSlot h i (x.slot.getD 0) + 256 * j) (min 256 (s.rxBytes h - 256 * j))
          (d.2.2.msaMem (c.stack i) (s.rxPart h) d.2.1).rxLate h x j d.1) s) s

/-- A release of an open round at every home here; it has no effect on a completed one (R227), and on P0 it voids the
step's norm (R240). -/
def State.rxRelease (s : State) (h : Nat) (step : BitVec 16) : State :=
  match (s.coll h).round step with
  | none => s
  | some r => if r.complete then s else (s.coll h).locals.foldl (State.rxReleaseHome h step) s

/-- What a home on another package has said of an open round. One that an RX.GNORM marked there has a norm record to come here too
(R228, R241). -/
def State.rxHear (h : Nat) (s : State) (x : Heard) : State :=
  let c := s.coll h
  match c.round x.step with
  | none => s
  | some r =>
    let late := (s.rxMembers h).filter fun m => !x.added.contains m
    let r := if r.homesDone.contains x.shard then r else { r with
      homesDone := x.shard :: r.homesDone, added := x.added.map (fun m => (x.shard, m)) ++ r.added,
      late := late.map (fun m => (x.shard, m)) ++ r.late, partials := if x.cut then (x.shard, 1024) :: r.partials else r.partials,
      deferred := r.deferred ++ x.deferred.filter fun o => !r.deferred.contains o, nonfinite := r.nonfinite || x.nonfinite,
      released := r.released || x.released }
    s.setColl h { c with
      rounds := putRound c.rounds r, heard := c.heard.filter fun y => !(y.shard == x.shard && y.step == x.step),
      gnorms := if x.gnorm && !c.gnorms.contains x.step then x.step :: c.gnorms else c.gnorms }

/-- Whether OLDEST is to be freed: complete and consumed by no apply here, or by one its group's end discarded (R229, R437). A
package that is no home frees it at completion (assumption log 33). -/
def State.rxFreeable (s : State) (h : Nat) : Bool :=
  let c := s.coll h
  match c.round c.oldest with
  | some r => r.complete && (!s.rxApply h || c.locals.isEmpty || c.applies.any fun a => a.gone && a.step == c.oldest)
  | none => false

/-- Completions, freeing, and held releases whose round has opened, until nothing moves. -/
def State.rxAdvance (h : Nat) : Nat → State → State
  | 0, s => s
  | n + 1, s =>
    let s := (s.coll h).heard.foldl (State.rxHear h) s
    let s := (s.coll h).rounds.foldl (State.rxComplete h) s
    if s.rxFreeable h then State.rxAdvance h n (s.rxFree h)
    else
      let c := s.coll h
      match c.heldRelease.find? fun st => (c.round st).isSome with
      | some st => State.rxAdvance h n ((s.setColl h { c with heldRelease := c.heldRelease.filter fun x => x != st }).rxRelease h st)
      | none =>
        match c.heldFar.find? fun x => (c.round x.1).isSome with
        | some x => State.rxAdvance h n (State.rxReleaseHome h x.1 (s.setColl h { c with heldFar := c.heldFar.erase x }) x.2)
        | none => s

/-! Grants (R220 to R223, R226, R237). -/

/-- Whether contribution `y` of the same member and shard comes before `x` (R220). -/
def Coll.before (c : Coll) (x y : Contrib) : Bool :=
  y.shard == x.shard && y.member == x.member && !(y.order == x.order)
    && (decide (c.dist y.step < c.dist x.step) || (y.step == x.step && decide (y.order < x.order)))

/-- The lowest free staging slot of a shard. -/
def State.rxFreeSlot (s : State) (h i : Nat) : Option Nat :=
  (List.range (s.rxSlots h)).find? fun k => !((s.coll h).contribs.any fun x => x.shard == i && x.slot == some k)

/-- A duplicate (R221): discarded, counted once, reported once by each home's MSA; a remote member is told. -/
def State.rxDup (s : State) (h : Nat) (x : Contrib) : State :=
  let m := (s.coll h).stack x.shard
  let s := s.setContrib h x none
  let s := s.rxOnce h x.order 1 x.step fun s => s.addRg dieMerA (rxOff h + 0x28) 1
  let s := s.rxOnce h x.order (2 + m) x.step fun s =>
    (s.setRb (m / 3) (msaOff m + 0x10) 1 true).reportX 0x01F m (some (s.rxPart h))
  if x.remote then s.linkSend x.via
    { cls := 5, vc := true, payload := unitBytes [1, h, x.shard, x.member, x.step.toNat, noGrant], part := s.rxPart h }
  else s

/-- The lowest grant number that no remote contribution holds, nor one passed on (R307). -/
def State.rxFreeNo (s : State) : Nat :=
  let used (n : Nat) (c : Coll) : Bool := (c.contribs.any fun x => x.no == some n) || c.passed.any fun p => p.no.isSome && p.mine == n
  ((List.range 4095).find? fun n => !(s.colls.any fun kv => used n kv.2)).getD 4094

/-- Lets a contribution in; a remote member's gets a grant number, and the grant goes back by the link its request came by. -/
def State.rxLetIn (s : State) (h : Nat) (x : Contrib) (g : Grant) (slot : Option Nat) : State :=
  let no := if x.remote then some s.rxFreeNo else none
  let s := s.setContrib h x (some { x with grant := g, slot := slot, no := no })
  match no with
  | some n => s.linkSend x.via
      { cls := 5, vc := true, payload := unitBytes [1, h, x.shard, x.member, x.step.toNat, n], part := s.rxPart h }
  | none => s

/-- The home decides on a request it holds: granted in turn, into a slot, late, a duplicate, or held on. -/
def State.rxDecide (h : Nat) (s : State) (x : Contrib) : State :=
  let c := s.coll h
  let i := x.shard
  let m := c.stack i
  if !s.rb (m / 3) (msaOff m) 0 || c.contribs.any (fun y => (y.grant == .waiting || y.grant == .held) && c.before x y) then s
  else if c.dist x.step < 0 then s.rxLetIn h x .late none
  else
    match c.round x.step with
    | none => s
    | some r =>
      if r.seen.contains (i, x.member) then s.rxDup h x
      else
        let mark := { r with seen := (i, x.member) :: r.seen }
        if r.homesDone.contains i then (s.setRound h mark).rxLetIn h x .late none
        else if s.rxByArrival h || (s.rxMembers h).all (fun k => k ≥ x.member || r.added.contains (i, k)) then
          (s.setRound h mark).rxLetIn h x .direct none
        else
          match s.rxFreeSlot h i with
          | some k => (s.setRound h mark).rxLetIn h x .staged (some k)
          | none => s

/-- After anything that may change a decision. -/
def State.rxKick (s : State) (h : Nat) : State :=
  let s := State.rxAdvance h (4 + 3 * ((s.coll h).heldRelease.length + (s.coll h).heldFar.length + (s.coll h).heard.length)) s
  ((s.coll h).contribs.filter fun x => x.grant == .held).foldl (State.rxDecide h) s

/-- The first words of a request for a grant as a class-2 cell carries it; its mark and its contribution's order follow. -/
def askWords (h shard member step : Nat) : List Nat := [0, h, shard, member, step]

/-- A request of a remote member at its home here: `mark` where its RX.GNORM made it, accepted here with it (R240); `o` the order its
own package gave the contribution. -/
def State.rxFarAsk (s : State) (h shard member : Nat) (st : BitVec 16) (mark : Bool) (o via : Nat) : State :=
  let c := s.coll h
  let x : Contrib := { order := o, shard := shard, member := member, step := st, grant := .held, remote := true, via := via, mark := mark }
  let s := s.setColl h { c with
    contribs := c.contribs ++ [x],
    vias := if c.vias.contains via then c.vias else c.vias ++ [via],
    gnorms := if mark && !c.gnorms.contains st then st :: c.gnorms else c.gnorms }
  let s := if mark then s.setGstep { s.gstep st with accepted := true, home := some 0 } else s
  s.rxKick h

/-- RX_GRANT_REQUEST: the agent's request for a shard reaches its home. With no contribution of this package waiting it is
a remote member's, which its cell has brought; a shard homed on another package is asked over its link, and a remote member's
request for one goes on by this package's own shard table with one hop fewer (R217, R323, assumption log 33). A remote home is asked
for a member's later round only after its earlier ones (R220). -/
def execRxGrantRequest (h shard member step : Nat) (s : State) : Host.Outcome State Fault Refusal :=
  let c := s.coll h
  let st := BitVec.ofNat 16 step
  let ask (s : State) (mark : Bool) (o hops : Nat) : State := s.linkSend (c.link shard)
    { cls := 2, object := noGrant, payload := unitBytes (askWords h shard member st.toNat ++ [mark.toNat, o]), part := s.rxPart h, hops := hops }
  if !s.rxValid h || shard ≥ c.shards.length || !s.rxMember h member then .next s
  else
    match c.contribs.find? fun x => x.shard == shard && x.member == member && x.step == st && x.grant == .waiting with
    | some x =>
      if c.remote shard then
        if c.contribs.any fun y => y.grant == .waiting && c.before x y then .next s
        else .next (ask (s.setContrib h x (some { x with grant := .asked })) x.mark x.order 32)
      else .next ((s.setContrib h x (some { x with grant := .held })).rxKick h)
    | none =>
      match s.unitCell 2 (askWords h shard member st.toNat) with
      | none => .next s
      | some cell =>
        let s := s.takeCell cell
        let mark := (unitWords cell).getD 5 0 == 1
        let o := (unitWords cell).getD 6 0
        let v := hopOf cell
        if c.remote shard then
          let p : Passed := { shard := shard, member := member, step := st, link := v.link }
          .next (s.forward v fun n =>
            ask (s.setColl h { c with passed := c.passed ++ [p], vias := if c.vias.contains v.link then c.vias else c.vias ++ [v.link] }) mark o n)
        else if !s.rxStepOk h st then .next s
        else .next (s.rxFarAsk h shard member st mark o v.link)

/-- A grant that came back for a contribution made on another package goes on by the link the request came by. -/
def State.rxPassGrant (s : State) (h shard member : Nat) (st : BitVec 16) (cell : LkCell) : State :=
  let c := s.coll h
  match c.passed.find? fun p => p.shard == shard && p.member == member && p.step == st && p.no.isNone with
  | none => s
  | some p =>
    let n := (unitWords cell).getD 5 0
    let mine := s.rxFreeNo
    let told := if n == noGrant then noGrant else mine
    let kept := if n == noGrant then c.passed.erase p else c.passed.map fun q => if q == p then { q with no := some n, mine := mine } else q
    s.forward (hopOf cell) fun hops => (s.setColl h { c with passed := kept }).linkSend p.link
      { cls := 5, vc := true, payload := unitBytes [1, h, shard, member, st.toNat, told], part := s.rxPart h, hops := hops }

/-- RX_GRANT: the agent reads the shard's bytes once; its writes go to the home here, or, once the grant's notice has come with
its number, in cells over the link. A notice that names no number says that the home discarded the contribution (R221). -/
def execRxGrant (h shard member step : Nat) (s : State) : Host.Outcome State Fault Refusal :=
  let c := s.coll h
  let st := BitVec.ofNat 16 step
  let p := s.rxPart h
  let n := s.rxBytes h
  match c.contribs.find? fun x => x.shard == shard && x.member == member && x.step == st && !x.sent && x.tile.isSome
      && x.grant != .waiting && x.grant != .held with
  | none =>
    match s.unitCell 5 [1, h, shard, member, st.toNat] with
    | some cell => .next ((s.takeCell cell).rxPassGrant h shard member st cell)
    | none => .next s
  | some x =>
    let t := x.tile.getD 0
    if x.grant == .asked then
      match s.unitCell 5 [1, h, shard, member, st.toNat] with
      | none => .next s
      | some cell =>
        let s := s.takeCell cell
        let no := (unitWords cell).getD 5 0
        if no == noGrant then .next (s.setContrib h x none)
        else if s.cutPending x.src n then .next { s with unitIn := cell :: s.unitIn }
        else
          let r := s.readAny p x.src n
          let k := s.cellBytes (c.link shard)
          let s := (List.range (cdiv n k)).foldl (fun s j => s.linkSend (c.link shard)
            { cls := 2, object := no, offset := j * k / 8, payload := (r.1.drop (j * k)).take k, part := p }) (r.2.2.chargeNet p (t / 96) 8 n)
          .next ((s.setContrib h x none).fillerSettle t)
    else if s.cutPending x.src n then .next s
    else
      let r := s.readAny p x.src n
      .next (((r.2.2.chargeNet p (t / 96) (c.stack shard / 3) n).setContrib h x (some { x with sent := true, pend := r.1 })).fillerSettle t)

/-- The cells of granted contribution `no`. -/
def granted (no : Nat) (c : LkCell) : Bool := c.cls == 2 && c.object == no

/-- RACC_WRITE_ARRIVAL: a 256 B write reaches the home, added, staged, or late (R222, R223, R226): of a member here as its agent
read it, of a remote member as the cells of its grant have brought it. Cells of a grant this package passed back go on (R323). -/
def execRaccWriteArrival (h shard member step pos : Nat) (s : State) : Host.Outcome State Fault Refusal :=
  let c := s.coll h
  let st := BitVec.ofNat 16 step
  let n := s.rxBytes h
  let j := pos / 256
  let here (x : Contrib) : Bool := x.shard == shard && x.member == member && x.step == st && (x.sent || x.remote)
    && (x.grant == .direct || x.grant == .staged || x.grant == .late) && !x.got.contains j
  match c.contribs.find? here with
  | none =>
    match c.passed.find? fun p => p.shard == shard && p.member == member && p.step == st && p.no.isSome with
    | some p =>
      if !s.rxValid h || (s.unitCells (granted p.mine)).isEmpty then .next s
      else
        let no := p.no.getD 0
        let cs := s.unitCells (granted p.mine)
        let s := s.dropUnit (granted p.mine)
        .next (s.forward (((cs.head?).map hopOf).getD {}) fun m => cs.foldl (fun s x => s.linkSend (c.link shard)
          { cls := 2, object := no, offset := x.offset, payload := x.payload, part := s.rxPart h, hops := m }) s)
    | none => .next s
  | some x =>
    let k := min 256 (n - pos)
    let data := if x.remote then (x.no.bind fun no => cellsAt (s.unitCells (granted no)) pos k) else some ((x.pend.drop pos).take k)
    match data with
    | none => .next s
    | some bytes =>
      if !s.rxValid h || pos % 256 != 0 || pos ≥ n || c.contribs.any (c.before x) then .next s
      else
        let bs := bytes.map some
        let y := { x with got := j :: x.got }
        let whole := y.got.length ≥ s.rxWrites h
        let s := if whole && x.remote then s.dropUnit (granted (x.no.getD 0)) else s
        match x.grant, c.round st with
        | .direct, some r =>
          let q := s.rxAddSum h shard r j bs
          let r := if whole then { q.2 with added := (shard, member) :: q.2.added } else q.2
          .next ((((q.1.setRound h r).setContrib h x (if whole then none else some y)).rxSettle h shard st).rxKick h)
        | .staged, some _ =>
          let s := s.writeDram (s.rxPart h) (s.rxSlot h shard (x.slot.getD 0) + pos) bs
          .next (((s.setContrib h x (some y)).rxSettle h shard st).rxKick h)
        | _, _ => .next (((s.rxLate h x j bs).setContrib h x (if whole then none else some y)).rxKick h)

/-! What a link brings of a collective that is no request, grant or write: releases and notices (R217, R225, R241). -/

/-- A release from another package for the home of one shard: acted on here, held until its round opens, or sent on; barred once
this package has accepted an RX.GNORM of the step (R17, R240). -/
def State.rxFarRelease (s : State) (h : Nat) (st : BitVec 16) (shard : Nat) (v : Hop) : State :=
  let c := s.coll h
  if !s.rxValid h || shard ≥ c.shards.length then s
  else if c.remote shard then
    s.forward v fun n => s.linkSend (c.link shard)
      { cls := 2, object := noGrant, payload := unitBytes [1, h, st.toNat, shard], part := s.rxPart h, hops := n }
  else if s.rxPart h == 0 && (s.gstep st).accepted then s
  else if decide (c.dist st < 0) then s
  else
    match c.round st with
    | some r =>
      if r.homesDone.contains shard then s
      else
        let s := if s.rxPart h == 0 then s.setGstep { s.gstep st with void := true } else s
        (State.rxReleaseHome h st s shard).rxKick h
    | none =>
      if !s.rxStepOk h st then s
      else
        let s := if s.rxPart h == 0 then s.setGstep { s.gstep st with void := true } else s
        s.setColl h { s.coll h with heldFar := if c.heldFar.contains (st, shard) then c.heldFar else c.heldFar ++ [(st, shard)] }

/-- A package that registers collective `h` with homes on other packages makes itself known to them, so that each tells it of its
completions though none of its members has asked for a grant (R217, R224; assumption log 33). -/
def State.rxJoin (s : State) (h hops : Nat) (but : Option Nat) : State :=
  let c := s.coll h
  let ls := (((List.range c.shards.length).filter c.remote).map c.link).eraseDups
  (ls.filter fun l => but != some l).foldl (fun s l =>
    s.linkSend l { cls := 2, object := noGrant, payload := unitBytes [2, h], part := s.rxPart h, hops := hops }) s

/-- A package beyond link `v` has made itself known: it is told of completions from now on, and the collective's homes further on
hear of it. -/
def State.rxFarJoin (s : State) (h : Nat) (v : Hop) : State :=
  let c := s.coll h
  let s := s.setColl h { c with vias := if c.vias.contains v.link then c.vias else c.vias ++ [v.link] }
  if v.hops == 0 then s else s.rxJoin h (v.hops - 1) (some v.link)

/-- One that came before collective `h` was registered here waits for that. -/
def State.rxJoinIn (s : State) (h : Nat) (c : LkCell) : State :=
  if s.rxValid h then s.rxFarJoin h (hopOf c) else { s with unitIn := s.unitIn ++ [c] }

def joins (h : Nat) (c : LkCell) : Bool := c.cls == 2 && c.object == noGrant && (unitWords c).take 2 == [2, h]

/-- Registration: this package joins the collective's others, and they it. -/
def State.rxMeet (s : State) (h : Nat) : State :=
  let cs := s.unitCells (joins h)
  (cs.foldl (fun s c => s.rxFarJoin h (hopOf c)) (s.dropUnit (joins h))).rxJoin h 32 none

/-- A notice of a completion at another package's home: taken once, and told on to the collective's other packages. -/
def State.rxFarDone (s : State) (h : Nat) (x : Heard) (v : Hop) : State :=
  let c := s.coll h
  let known := decide (c.dist x.step < 0) || c.heard.any (fun y => y.shard == x.shard && y.step == x.step)
    || ((c.round x.step).map fun r => r.homesDone.contains x.shard).getD false
  if !s.rxValid h || x.shard ≥ c.shards.length || !c.remote x.shard || known then s
  else
    let mine (n : Nat × BitVec 16 × List Nat) : Bool := n.1 == x.shard && n.2.1 == x.step
    let x := { x with deferred := (c.notes.filter mine).flatMap (·.2.2) }
    let s := s.setColl h { c with heard := c.heard ++ [x], notes := c.notes.filter fun n => !mine n }
    let s := if v.hops == 0 then s else s.rxTell h (v.hops - 1) (some v.link) x
    s.rxKick h

/-- The global-norm record (R241). -/
def normRecord (st : BitVec 16) (count : Nat) (void : Bool) (n1 n2 : BitVec 32) : List Byte :=
  leBytes 8 (st.toNat * 2 ^ 48 + count * 2 ^ 32 + void.toNat) ++ leBytes 8 (n1.toNat * 2 ^ 32 + n2.toNat) ++ List.replicate 48 0

/-- Writes the record of a step's norm at RX_RESULT, where that is used. -/
def State.rxWriteNorm (s : State) (h : Nat) (st : BitVec 16) (count : Nat) (void : Bool) (n1 n2 : BitVec 32) : State :=
  let a := s.rxResult h
  let s := if a != 0 && s.stackPresent (a / 2 ^ 36) && s.stackPresent ((a + 63) / 2 ^ 36) then
      s.writeDram 0 a ((normRecord st count void n1 n2).map some)
    else s
  let c := s.coll h
  s.setColl h { c with normed := if c.normed.contains st then c.normed else st :: c.normed }

/-- A norm that was formed at the package of a collective's homes: its record is written here, and it is told on. -/
def State.rxFarNorm (s : State) (h : Nat) (st : BitVec 16) (count : Nat) (void : Bool) (n : Nat) (v : Hop) : State :=
  let c := s.coll h
  if !s.rxValid h || s.rxPart h != 0 || !c.locals.isEmpty || c.normed.contains st then s
  else
    let s := if v.hops == 0 then s else s.rxNotice h (v.hops - 1) (some v.link) [6, h, st.toNat, count, void.toNat, n]
    s.rxWriteNorm h st count void (BitVec.ofNat 32 (n / 2 ^ 32)) (BitVec.ofNat 32 n)

/-! Instructions (R116, R219, R220, R225 to R228, R240). -/

/-- The collective and step an RX instruction names. -/
def rxNamed (s : State) (t : Nat) (ga : Reg) (w : Word) (k : Nat → BitVec 16 → TRes) : TRes :=
  let h := fld (s.g t ga) 11 0
  let st : BitVec 16 := w.setWidth 16
  let v : Word := BitVec.ofNat 64 h
  noFiller s t .collective v <|
    if !s.rxValid h || s.rxPart h != (s.tile t).part || !s.rxStepOk h st then .trap .collective v else k h st

/-- Hands member `m`'s contribution to the agent, a record for each shard. -/
def State.rxContribute (s : State) (t h m a : Nat) (st : BitVec 16) (mark : Bool) : State :=
  let c := s.coll h
  let n := s.rxBytes h
  let o := s.rxSeq * 2 ^ 26 + m * 2 ^ 16 + st.toNat
  let new := (List.range (s.rxNshard h)).map fun i =>
    ({ order := o, shard := i, member := m, step := st, tile := some t, src := a + i * n, mark := mark } : Contrib)
  { s.setColl h { c with contribs := c.contribs ++ new } with rxSeq := s.rxSeq + 1 }

def execRxContrib (t : Nat) (gd ga gb gc : Reg) (s : State) : Host.Outcome State Fault Refusal :=
  s.run t 8 (.rxContrib t gd ga gb gc) fun s =>
    rxNamed s t ga (s.g t gc) fun h st =>
      let m := (s.g t gd).toNat
      let a := (s.g t gb).toNat
      if !s.rxMember h m then .trap .collective (BitVec.ofNat 64 h)
      else
        match s.payOutside t a (s.rxNshard h * s.rxBytes h) with
        | some b => .trap b.1 (BitVec.ofNat 64 b.2)
        | none => .done (s.rxContribute t h m a st false)

/-- The package of shard `i`'s home: 0 for this one, else one more than the DEV_ID at the far end of the link that leads there
(DESIGN CHOICE beyond one hop, assumption log 67), or the link itself while that is unknown. -/
def State.rxHomeAt (s : State) (c : Coll) (i : Nat) : Nat :=
  if !c.remote i then 0
  else
    let p := (s.rg (linkDie (c.link i)) (lkOff (c.link i) + 0x18)).toNat
    if p == 0 then 2 ^ 65 + c.link i else p + 1

/-- RX.GNORM (R240): a contribution that marks its round, here and at a home on another package; releases of the step are barred
from then on (R116). -/
def execRxGnorm (t : Nat) (gd ga gb gc : Reg) (s : State) : Host.Outcome State Fault Refusal :=
  s.run t 8 (.rxGnorm t gd ga gb gc) fun s =>
    rxNamed s t ga (s.g t gc) fun h st =>
      let m := (s.g t gd).toNat
      let a := (s.g t gb).toNat
      let c := s.coll h
      let n := s.rxNshard h
      if !s.rxMember h m then .trap .collective (BitVec.ofNat 64 h)
      else if (s.tile t).part != 0 || s.rxFmt h != .fp32 || n < 2 || n &&& (n - 1) != 0 then .trap .gnormRule (BitVec.ofNat 64 h)
      else if (List.range n).any fun i => s.rxHomeAt c i != (s.gstep st).home.getD (s.rxHomeAt c 0) then .trap .collective (BitVec.ofNat 64 h)
      else
        match s.payOutside t a (n * s.rxBytes h) with
        | some b => .trap b.1 (BitVec.ofNat 64 b.2)
        | none =>
          let s := s.rxContribute t h m a st true
          let c := s.coll h
          let s := s.setColl h { c with gnorms := if c.gnorms.contains st then c.gnorms else st :: c.gnorms }
          .done (s.setGstep { s.gstep st with accepted := true, home := some (s.rxHomeAt c 0) })

/-- RX.RELEASE: barred once an RX.GNORM of the step is accepted; of a round not yet open it waits until it opens, and from its
issue it counts as accepted: it voids the step's norm at once (DESIGN CHOICE, assumption log 67). Homes on other packages are
told over their links, shard by shard. -/
def execRxRelease (t : Nat) (ga gb : Reg) (s : State) : Host.Outcome State Fault Refusal :=
  s.run t 8 (.rxRelease t ga gb) fun s =>
    if (s.tile t).ctx.wait.isSome then
      let h := fld (s.g t ga) 11 0
      if (s.coll h).heldRelease.contains ((s.g t gb).setWidth 16) then .wait s 6 else .done s
    else
      rxNamed s t ga (s.g t gb) fun h st =>
        let c := s.coll h
        if s.rxPart h == 0 && (s.gstep st).accepted then .trap .releaseBarred (BitVec.ofNat 64 h)
        else
          let s := ((List.range c.shards.length).filter c.remote).foldl (fun s i => s.linkSend (c.link i)
            { cls := 2, object := noGrant, payload := unitBytes [1, h, st.toNat, i], part := s.rxPart h }) s
          let past := decide (c.dist st < 0) || (match c.round st with | some r => r.complete | none => false)
          if past || c.locals.isEmpty then .done s
          else
            let s := if s.rxPart h == 0 then s.setGstep { s.gstep st with void := true } else s
            if (c.round st).isSome then .done ((s.rxRelease h st).rxKick h)
            else .wait (s.setColl h { c with heldRelease := if c.heldRelease.contains st then c.heldRelease else c.heldRelease ++ [st] }) 6

/-- Whether the norm's record, where the round has one, is written (R241). -/
def State.rxNormed (s : State) (h : Nat) (st : BitVec 16) : Bool :=
  !(s.coll h).gnorms.contains st || (s.coll h).normed.contains st

/-- RX.WAIT (R224, R227, R228). -/
def execRxWait (t : Nat) (gd ga gb : Reg) (s : State) : Host.Outcome State Fault Refusal :=
  s.run t 8 (.rxWait t gd ga gb) fun s =>
    let answer (h : Nat) (st : BitVec 16) : TRes :=
      match (s.coll h).words.reverse.find? fun w => w.1 == st with
      | some w => if s.rxNormed h st then doneG s t gd w.2 else .wait s 2
      | none => .wait s 2
    if (s.tile t).ctx.wait.isSome then answer (fld (s.g t ga) 11 0) ((s.g t gb).setWidth 16)
    else
      rxNamed s t ga (s.g t gb) fun h st =>
        let c := s.coll h
        if c.dist st < 0 && !((c.words.reverse.take 2).any fun w => w.1 == st) then .trap .collective (BitVec.ofNat 64 h)
        else answer h st

/-! Registers as they read (R217, R237). -/

/-- RX_STATE. -/
def State.rxState (s : State) (h : Nat) : Word :=
  let c := s.coll h
  if !s.rxValid h then BitVec.ofNat 64 (c.oldest.toNat * 2 ^ 48 + c.cfgErr.toNat * 2 ^ 47)
  else
    match c.round c.oldest with
    | none => BitVec.ofNat 64 (c.oldest.toNat * 2 ^ 48)
    | some r =>
      BitVec.ofNat 64 (c.oldest.toNat * 2 ^ 48 + c.cfgErr.toNat * 2 ^ 47
        + (c.rounds.filter fun x => !x.complete).length * 2 ^ 38
        + (r.complete && s.rxApply h && c.applyNext == c.oldest).toNat * 2 ^ 37
        + (c.gnorms.contains c.oldest).toNat * 2 ^ 36
        + ((s.rxMembers h).filter fun m => !c.locals.isEmpty && c.locals.all fun i => r.added.contains (i, m)).length)

/-- MSA_STATUS of stack `m`. -/
def State.msaStatus (s : State) (m : Nat) : Word :=
  let mine (c : Coll) : List Nat := c.locals.filter fun i => c.stack i == m
  let live := (s.colls.filter fun kv => s.rxValid kv.1 && !(mine kv.2).isEmpty).map (·.2)
  let todo (c : Coll) (a : Apply) : Bool := !a.gone && (mine c).any fun i => !a.doneShards.contains i
  let rounds := (live.map fun c => (c.rounds.filter fun r => !r.complete).length).sum
  let applies := (live.map fun c => (c.applies.filter (todo c)).length).sum
  BitVec.ofNat 64 (satAt rounds 0xFFFF * 2 ^ 32 + satAt applies 0xFFFF * 2 ^ 16
    + (s.stackState m == 3).toNat * 2 + (live.any fun c => c.applies.any fun a => a.started && todo c a).toNat)

end Sys2Proof.Machine
end

