-- ==== Sys2Proof/Machine/Exchange.lean ====
section
/-! DEFINITION. The expert exchange (R117, R242 to R251). -/
namespace Sys2Proof.Machine

def exDie (h : Nat) : Nat := if h < 64 then dieMerA else dieMerB
def exOff (h : Nat) : Nat := 0x700000 + h % 64 * 0x100

def State.exState (s : State) (h : Nat) : ExState := s.exch.val {} h
def State.setEx (s : State) (h : Nat) (x : ExState) : State := { s with exch := s.exch.put h x }

def State.exCfg (s : State) (h : Nat) : Word := s.rg (exDie h) (exOff h)
def State.exValid (s : State) (h : Nat) : Bool := decide (h < 128) && bitOf (s.exCfg h) 63
def State.exPart (s : State) (h : Nat) : Nat := fld (s.exCfg h) 62 60
def State.exShared (s : State) (h : Nat) : Bool := bitOf (s.exCfg h) 59
def State.exSize (s : State) (h : Nat) : Nat := fld (s.exCfg h) 58 50 * 64
def State.exNexp (s : State) (h : Nat) : Nat := fld (s.exCfg h) 49 38
def State.exEngine (s : State) (h : Nat) : Nat := fld (s.exCfg h) 37 28
def State.exNeng (s : State) (h : Nat) : Nat := fld (s.exCfg h) 27 18 + 1
def State.exLsrc (s : State) (h : Nat) : Nat := fld (s.exCfg h) 17 8

/-- Raises count `k` (0 sent, 1 received, 2 quota drops, 3 capacity drops, 4 no route, 5 orphans). -/
def State.exCount (s : State) (h k : Nat) : State := s.addRg (exDie h) (exOff h + 0x20 + 8 * k) 1

/-! Tables (R243). -/

def exEntry (x : ExState) (e i : Nat) : Word := wordAt (x.experts.getD e []) i
def exValidExpert (x : ExState) (e : Nat) : Bool := bitOf (exEntry x e 0) 63
def exHome (x : ExState) (e : Nat) : Nat := fld (exEntry x e 0) 62 53
def exArea (x : ExState) (e : Nat) : Nat := fld (exEntry x e 0) 47 0
def exQuota (x : ExState) (e : Nat) : Nat := fld (exEntry x e 1) 63 48
def exCap (x : ExState) (e : Nat) : Nat := fld (exEntry x e 1) 15 0
def exValidEngine (x : ExState) (n : Nat) : Bool := bitOf (wordAt x.engines n) 63
def exRemote (x : ExState) (n : Nat) : Bool := bitOf (wordAt x.engines n) 62
def exLink (x : ExState) (n : Nat) : Nat := fld (wordAt x.engines n) 61 57

/-- Bytes of a half of an expert's receive area (R248). -/
def exHalfBytes (size cap : Nat) : Nat := roundUp (64 + cap * size) 4096

/-- The half of expert `e` for a round. -/
def State.exHalfAt (s : State) (h e round : Nat) : Nat :=
  let x := s.exState h
  exArea x e + round % 2 * exHalfBytes (s.exSize h) (exCap x e)

/-- The experts homed at this handle's engine. -/
def ExState.localExperts (x : ExState) : List Nat :=
  (List.range x.experts.length).filter fun e => exValidExpert x e && !exRemote x (exHome x e)

/-- The engines of the exchange. -/
def ExState.engineList (x : ExState) : List Nat := (List.range x.engines.length).filter (exValidEngine x)

/-! Records (R244). -/

def recExpert (w : List Word) : Nat := fld (wordAt w 0) 63 52
def recRound (w : List Word) : Nat := fld (wordAt w 0) 47 32
def recIndex (w : List Word) : Nat := fld (wordAt w 0) 31 0
def recEngine (w : List Word) : Nat := fld (wordAt w 1) 63 54
def recTile (w : List Word) : Nat := fld (wordAt w 1) 53 44

/-- A header with its STATUS. -/
def recWith (w : List Word) (st : Nat) : List Word := w.set 0 (setFld (wordAt w 0) 50 48 st)

/-- A record's words with what the engine writes as it reads it. -/
def recStamp (w : List Word) (engine tile round index st : Nat) : List Word :=
  let a := setFld (setFld (setFld (wordAt w 0) 50 48 st) 47 32 round) 31 0 index
  let b := setFld (setFld (wordAt w 1) 63 54 engine) 53 44 tile
  (w.set 0 a).set 1 b

/-- Sends bytes to engine `n` in cells of class `cls`, `pos` their position in the transfer (R307). -/
def State.exSend (s : State) (h n cls pos : Nat) (bytes : List Byte) (hops : Nat := 32) : State :=
  let x := s.exState h
  let l := exLink x n
  let k := s.cellBytes l
  (List.range (cdiv bytes.length k)).foldl (fun s j =>
    s.linkSend l { cls := cls, vc := cls == 6, object := h, offset := (pos + j * k) / 8,
                   payload := (bytes.drop (j * k)).take k, part := s.exPart h, hops := hops }) s

/-- A notice of the exchange to engine `n` on another package: a kind, the handle, the engine, then what the kind says
(assumption log 16). -/
def State.exNote (s : State) (h n : Nat) (kind : Nat) (ws : List Nat) (hops : Nat := 32) : State :=
  s.linkSend (exLink (s.exState h) n) { cls := 5, vc := true, payload := unitBytes ([kind, h, n] ++ ws), part := s.exPart h, hops := hops }

/-- OFFSET of an end mark, which no position within a dispatch reaches. -/
def markAt : Nat := 2 ^ 35

/-- Sends engine `from_`'s end mark for a round to engine `n`. -/
def State.exSendMark (s : State) (h n from_ round : Nat) (hops : Nat := 32) : State :=
  s.linkSend (exLink (s.exState h) n)
    { cls := 3, object := h, offset := markAt, payload := unitBytes [h, from_, n, round], part := s.exPart h, hops := hops }

/-- Engines of the exchange on other packages. -/
def ExState.farEngines (x : ExState) : List Nat :=
  (List.range x.engines.length).filter fun n => exValidEngine x n && exRemote x n

/-! Rounds at the home (R247, R248). -/

/-- The round that a half of an expert may land (R248). -/
def ExState.landing (x : ExState) (e k : Nat) : Nat := x.freed.val k (2 * e + k)

/-- Whether a round's half is free for it at its expert's home, as this engine knows. -/
def ExState.openRound (x : ExState) (e r : Nat) : Bool := r == x.landing e (r % 2)

def ExState.half (x : ExState) (e r : Nat) : ExHalf :=
  (x.halves.find? fun y => y.expert == e && y.round == r).getD { expert := e, round := r }

def ExState.putHalf (x : ExState) (y : ExHalf) : ExState :=
  { x with halves := y :: x.halves.filter fun z => !(z.expert == y.expert && z.round == y.round) }

/-- Completes an expert's round once every engine's end mark is in: the summary, then the notice. -/
def State.exComplete (s : State) (h e r : Nat) : State :=
  let x := s.exState h
  let y := x.half e r
  if y.complete || !x.openRound e r || !(x.engineList.all fun n => x.marks.contains (n, r)) then s
  else
    let p := s.exPart h
    let a := s.exHalfAt h e r
    let w : Word := BitVec.ofNat 64 (r * 2 ^ 48 + y.count * 2 ^ 16 + satAt y.dropc 0xFFFF)
    let s := s.writeDram p a ((leBytes 8 w.toNat ++ List.replicate 56 0).map some)
    let s := s.setEx h (x.putHalf { y with complete := true })
    s.chPost { sender := 0x3FF, part := p, dest := exEntry x e 2,
               payload := leBytes 8 a ++ leBytes 8 w.toNat ++ List.replicate 48 0 }

/-- Frees a half whose expert has returned every record of its round; origins on other packages are told (R248, assumption log 35). -/
def State.exFreeHalf (s : State) (h e r : Nat) : State :=
  let x := s.exState h
  let s := s.setEx h { x with
    freed := x.freed.put (2 * e + r % 2) ((r + 2) % 65536), halves := x.halves.filter fun z => !(z.expert == e && z.round == r) }
  x.farEngines.foldl (fun s n => s.exNote h n 9 [e, r]) s

/-- Completions and freed halves of an expert. -/
def State.exSettle (h e : Nat) : Nat → State → State
  | 0, s => s
  | n + 1, s =>
    let half (s : State) (k : Nat) : State :=
      let r := (s.exState h).landing e k
      let s := s.exComplete h e r
      let y := (s.exState h).half e r
      if y.complete && y.returned ≥ y.count then s.exFreeHalf h e r else s
    State.exSettle h e n (half (half s 0) 1)

/-- Whether some expert homed here has yet to complete round `r`. -/
def ExState.needsMark (x : ExState) (r : Nat) : Bool :=
  x.localExperts.any fun e => decide ((r + 65536 - x.landing e (r % 2)) % 65536 < 32768) && !(x.half e r).complete

/-- Adds an end mark; a mark is kept while some expert's round wants it. -/
def State.exMark (s : State) (h n r : Nat) : State :=
  let x := s.exState h
  let ms := if x.marks.contains (n, r) then x.marks else (n, r) :: x.marks
  let s := s.setEx h { x with marks := ms.filter fun m => x.needsMark m.2 }
  x.localExperts.foldl (fun s e => State.exSettle h e ((s.exState h).marks.length + 2) s) s

/-- Whether this engine's end mark for a round is due: LSRC tiles have dispatched it and all its records are sent. -/
def State.exMarkDue (s : State) (h r : Nat) : Bool :=
  let x := s.exState h
  x.dispatched.val 0 r ≥ s.exLsrc h && !(x.flight.any fun y => recRound y.hdr == r)

/-- Sends this engine's end marks for a round to the engines on other packages, once due. -/
def State.exMarks (s : State) (h r : Nat) : State :=
  let x := s.exState h
  if x.marksSent.contains r || !s.exMarkDue h r then s
  else
    let s := s.setEx h { x with marksSent := (r :: x.marksSent).take 16 }
    x.farEngines.foldl (fun s n => s.exSendMark h n (s.exEngine h) r) s

/-- Lands a record at its expert's home, or drops it at capacity with a notice to its origin. -/
def State.exLand (s : State) (h : Nat) (rc : ExRec) : State :=
  let x := s.exState h
  let e := recExpert rc.hdr
  let r := recRound rc.hdr
  let y := x.half e r
  if y.count < exCap x e then
    let a := s.exHalfAt h e r + 64 + y.count * s.exSize h
    let s := s.writeDram (s.exPart h) a ((bytesOf rc.hdr ++ rc.payload).map some)
    let s := if rc.lost then s.reportX 0x027 h (some (s.exPart h)) else s
    (s.exCount h 1).setEx h (x.putHalf { y with count := y.count + 1 })
  else
    let s := (s.exCount h 3).setEx h (x.putHalf { y with dropc := y.dropc + 1 })
    let n := recEngine rc.hdr
    if n == s.exEngine h then
      let x := s.exState h
      s.setEx h { x with notices := x.notices ++ [(recTile rc.hdr, r, recIndex rc.hdr)] }
    else s.exNote h n 3 [recTile rc.hdr, r, recIndex rc.hdr]

/-- The cells of handle `h`'s next record or return of a class that began to arrive by link `l`, if all have arrived (R307). -/
def State.exCells (s : State) (h cls l : Nat) : Option (List LkCell) :=
  let cs := s.unitCells fun c => c.cls == cls && c.object == h && c.offset != markAt
  match cs.find? fun c => c.via == l && c.offset * 8 % s.exSize h == 0 with
  | some c => cellChain cs l c.offset (s.exSize h) cs.length
  | none => none

/-- EXCH_RECORD_ARRIVAL: record `i` sent here lands at a home on this package, or leaves over its link; or, `far`, the next record that
link `i` brought lands, or goes on by this package's own table with one hop fewer (R323). A record waits at its origin until the half
it goes to is freed. -/
def execExchRecordArrival (h i : Nat) (far : Bool) (s : State) : Host.Outcome State Fault Refusal :=
  let x := s.exState h
  if !s.exValid h then .next s
  else if !far then
    match x.flight[i]? with
    | none => .next s
    | some rc =>
      let e := recExpert rc.hdr
      let r := recRound rc.hdr
      let s' := s.setEx h { x with flight := x.flight.eraseIdx i }
      if !x.openRound e r then .next s
      else if exRemote x (exHome x e) then
        let s' := if rc.lost then s'.reportX 0x027 h (some (s.exPart h)) else s'
        .next ((s'.exSend h (exHome x e) 3 (recIndex rc.hdr * s.exSize h) (bytesOf rc.hdr ++ rc.payload)).exMarks h r)
      else .next ((s'.exLand h rc).exMarks h r)
  else
    match s.exCells h 3 i with
    | none => .next s
    | some cs =>
      let bytes := (cs.flatMap (·.payload)).take (s.exSize h)
      let s' := s.takeCells cs
      let rc : ExRec := { hdr := wordsOf 8 bytes, payload := bytes.drop 64 }
      let e := recExpert rc.hdr
      let r := recRound rc.hdr
      if !exValidExpert x e then .next s'
      else if exRemote x (exHome x e) then
        .next (s'.forward (((cs.head?).map hopOf).getD {}) fun n => s'.exSend h (exHome x e) 3 (recIndex rc.hdr * s.exSize h) bytes n)
      else if !x.openRound e r || (x.half e r).complete then .next s
      else .next (s'.exLand h rc)

/-- EXCH_END_MARK: engine `engine`'s end mark for a round, bound for engine `dest`, that a cell has brought; or this engine's own for
itself, once it is due. One bound further goes on by this package's own table (R243, R323). A mark waits behind the records that its link,
or another to the same peer, brought before it (R307, R310, R320). -/
def execExchEndMark (h engine round dest : Nat) (s : State) : Host.Outcome State Fault Refusal :=
  let x := s.exState h
  if !s.exValid h || round ≥ 65536 || !exValidEngine x engine then .next s
  else
    match s.unitIn.find? fun c => c.cls == 3 && c.offset == markAt && unitWords c == [h, engine, dest, round] with
    | some c =>
      if (s.unitIn.takeWhile (· != c)).any fun y => y.cls == 3 && y.object == h && (y.via == c.via || s.peerId y.via == s.peerId c.via) && y.offset != markAt then .next s
      else
      let s := s.takeCell c
      if exValidEngine x dest && exRemote x dest then .next (s.forward (hopOf c) fun n => s.exSendMark h dest engine round n)
      else .next (s.exMark h engine round)
    | none =>
      if engine == s.exEngine h && dest == engine && s.exMarkDue h round then .next ((s.exMark h engine round).exMarks h round)
      else .next s

/-! Dispatch and combine (R117, R245, R246, R249, R250). -/

/-- The handle of an EX instruction, valid and of the tile's partition, and its record count. -/
def exNamed (s : State) (t : Nat) (ga gc : Reg) (k : Nat → Nat → TRes) : TRes :=
  let h := fld (s.g t ga) 11 0
  let n := (s.g t gc).toNat
  let v : Word := BitVec.ofNat 64 h
  noFiller s t .exchange v <|
    if !s.exValid h || s.exPart h != (s.tile t).part || n == 0 || n > 65535 then .trap .exchange v else k h n

/-- The case of R246 that an outbound record falls under: 4 ROUTE, 3 NONE, 1 DROP_QUOTA, 0 sent; `sent` counts this
dispatch's records to its expert. -/
def State.exCase (s : State) (h : Nat) (w : List Word) (sent : Nat) : Nat :=
  let x := s.exState h
  let e := recExpert w
  if bitOf (wordAt w 0) 51 || fld (wordAt w 1) 43 0 != 0 then 4
  else if e == 0xFFF then 3
  else if !exValidExpert x e || !exValidEngine x (exHome x e) then 4
  else if !s.exShared h && sent ≥ exQuota x e then 1
  else 0

/-- Reads one outbound record and routes it; the counts of records sent to each expert so far. -/
def State.exOutbound (t h a round : Nat) (acc : State × ExDisp × Tab Nat) (i : Nat) : State × ExDisp × Tab Nat :=
  let s := acc.1
  let d := acc.2.1
  let size := s.exSize h
  let r := s.readAny (s.tile t).part (a + i * size) size
  let s := r.2.2
  let w := wordsOf 8 r.1
  let e := recExpert w
  let k := s.exCase h w (acc.2.2.val 0 e)
  let w := recStamp w (s.exEngine h) t round i k
  let gone := r.2.1 && (r.1.take 64).all (· == 0xFF)
  let d := { d with status := d.status.put i k, hdrs := d.hdrs.put i w, lost := if gone then i :: d.lost else d.lost }
  let x := s.exState h
  match k with
  | 0 =>
    let s := s.chargeNet (s.exPart h) (t / 96) (if exRemote x (exHome x e) then 8 else hobOf (exArea x e)) size
    ((s.setEx h { x with flight := x.flight ++ [{ hdr := w, payload := r.1.drop 64, lost := r.2.1 }] }).exCount h 0, d,
      acc.2.2.put e (acc.2.2.val 0 e + 1))
  | 4 => ((s.exCount h 4).reportX 0x01A h (some (s.exPart h)), d, acc.2.2)
  | 1 => (s.exCount h 2, d, acc.2.2)
  | _ => (s, d, acc.2.2)

/-- Outbound dispatches of a tile, on every handle, that have not been combined (R245; DEDUCED, assumption log 35). -/
def State.exHeld (s : State) (t : Nat) : Nat :=
  (s.exch.map fun kv => (kv.2.disps.filter fun d => d.tile == t && d.dest.isNone).length).sum

/-- EX.DISPATCH. Outbound, it opens the tile's next round and its records are read and routed; else its records are returns,
each read once its origin has issued the combine. A third outbound dispatch waits, as does one of bytes a cut-through entry has yet to
bring (R193). -/
def execExDispatch (t : Nat) (ga gb gc : Reg) (s : State) : Host.Outcome State Fault Refusal :=
  s.run t 8 (.exDispatch t ga gb gc) fun s =>
    exNamed s t ga gc fun h n =>
      let a := (s.g t gb).toNat
      let size := s.exSize h
      match s.payOutside t a (n * size) with
      | some b => .trap b.1 (BitVec.ofNat 64 b.2)
      | none =>
       if s.cutPending a (n * size) then .wait s 6
       else
        let x := s.exState h
        let first := s.readAny (s.tile t).part a 8
        if bitOf (BitVec.ofNat 64 (leNat first.1)) 51 then
          let new := (List.range n).map fun i => ({ tile := t, src := a + i * size } : ExRet)
          let s := if first.2.1 then first.2.2.reportX 0x027 h (some (s.exPart h)) else first.2.2
          .done (s.setEx h { x with returns := x.returns ++ new })
        else if s.exHeld t ≥ 2 then .wait s 6
        else
          let round := x.tileRound.val 0 t
          let q := (List.range n).foldl (State.exOutbound t h a round)
            (s, ({ tile := t, round := round, count := n } : ExDisp), ([] : Tab Nat))
          let s := q.1
          let x := s.exState h
          let s := s.setEx h { x with
            disps := x.disps ++ [q.2.1], tileRound := x.tileRound.put t ((round + 1) % 65536),
            dispatched := (x.dispatched.put round (x.dispatched.val 0 round + 1)).del ((round + 32768) % 65536) }
          .done (s.exMarks h round)

/-- Writes record `i` of a dispatch where its combine wants it; once all are written the dispatch is over. -/
def State.exWrite (s : State) (h : Nat) (d : ExDisp) (i : Nat) (bytes : List Byte) (st : Nat) : State :=
  match d.dest with
  | none => s
  | some a =>
    let s := s.writeAny (s.exPart h) (a + i * s.exSize h) (bytes.map some)
    let x := s.exState h
    let same (y : ExDisp) : Bool := y.tile == d.tile && y.round == d.round
    let upd (y : ExDisp) : ExDisp := if same y then { y with status := y.status.put i st, written := i :: y.written } else y
    s.setEx h { x with disps := (x.disps.map upd).filter fun y => y.written.length < y.count }

/-- A kept record as a combine writes it: its header with its status, every payload byte zero. -/
def State.exKept (s : State) (h : Nat) (d : ExDisp) (i : Nat) : List Byte :=
  bytesOf (recWith (d.hdrs.val [] i) (d.status.val 0 i)) ++ List.replicate (s.exSize h - 64) 0

/-- EX.COMBINE: pairs with the tile's oldest dispatch not yet combined; kept records are written at once. -/
def execExCombine (t : Nat) (ga gb gc : Reg) (s : State) : Host.Outcome State Fault Refusal :=
  s.run t 8 (.exCombine t ga gb gc) fun s =>
    exNamed s t ga gc fun h n =>
      let a := (s.g t gb).toNat
      let x := s.exState h
      match x.disps.find? fun d => d.tile == t && d.dest.isNone with
      | none => .trap .exchange (BitVec.ofNat 64 h)
      | some d =>
        if d.count != n then .trap .exchange (BitVec.ofNat 64 h)
        else
          match s.payOutside t a (n * s.exSize h) with
          | some b => .trap b.1 (BitVec.ofNat 64 b.2)
          | none =>
            let d' := { d with dest := some a }
            let upd (y : ExDisp) : ExDisp := if y.tile == t && y.round == d.round then d' else y
            let asked (a : Nat × Nat × Nat × Nat) : Bool := a.2.1 == t && a.2.2.1 == d.round
            let s := s.setEx h { x with disps := x.disps.map upd, asks := x.asks.filter fun a => !asked a }
            let s := (x.asks.filter asked).foldl (fun s a => s.exNote h a.1 11 [t, d.round, a.2.2.2, 1, s.exEngine h]) s
            let kept := (List.range n).filter fun i => d.status.val 0 i != 0
            .done (kept.foldl (fun s i =>
              let s := s.exWrite h d' i (s.exKept h d' i) (d.status.val 0 i)
              if d.lost.contains i then s.reportX 0x027 h (some (s.exPart h)) else s) s)

/-- Where a drop notice or return finds its dispatch: of the tile and round, the record outstanding. -/
def ExState.outstanding (x : ExState) (t r i : Nat) : Option ExDisp :=
  x.disps.find? fun d => d.tile == t && d.round == r && decide (i < d.count) && d.status.val 0 i == 0

/-- EXCH_DROP_NOTICE: the record takes STATUS 2, DROP_CAP; a combine already issued has it written. A notice from another package is
in a cell; one bound for another engine goes on (R323). -/
def execExchDropNotice (h srcTile round index engine : Nat) (s : State) : Host.Outcome State Fault Refusal :=
  let x := s.exState h
  let k := (srcTile, round, index)
  let cell := s.unitCell 5 [3, h, engine, srcTile, round, index]
  if !s.exValid h || (cell.isNone && !(engine == s.exEngine h && x.notices.contains k)) then .next s
  else
    let s := match cell with | some c => s.takeCell c | none => s.setEx h { x with notices := x.notices.erase k }
    if engine != s.exEngine h then
      if exValidEngine x engine && exRemote x engine then
        .next (s.forward ((cell.map hopOf).getD {}) fun n => s.exNote h engine 3 [srcTile, round, index] n)
      else .next s
    else
      match x.outstanding srcTile round index with
      | none => .next s
      | some d =>
        let d' := { d with status := d.status.put index 2 }
        let upd (y : ExDisp) : ExDisp := if y.tile == d.tile && y.round == d.round then d' else y
        let x := s.exState h
        .next ((s.setEx h { x with disps := x.disps.map upd }).exWrite h d' index (s.exKept h d' index) 2)

/-! Returns (R249). -/

/-- The header words at an address, looked at without a read. -/
def State.peekHdr (s : State) (p a : Nat) : List Word := wordsOf 8 (s.readAny p a 64).1

/-- A return that matches nothing. -/
def State.exOrphan (s : State) (h : Nat) : State := (s.exCount h 5).reportX 0x01B h (some (s.exPart h))

/-- The expert of a return has returned one more record of its round. -/
def State.exReturned (s : State) (h : Nat) (w : List Word) : State :=
  let x := s.exState h
  let e := recExpert w
  let r := recRound w
  if x.halves.any fun y => y.expert == e && y.round == r then
    let y := x.half e r
    State.exSettle h e (x.marks.length + 2) (s.setEx h (x.putHalf { y with returned := y.returned + 1 }))
  else s

/-- A return at its origin: written where its combine wants it, or discarded (R249, R250). -/
def State.exTakeReturn (s : State) (h : Nat) (bytes : List Byte) : State :=
  let w := wordsOf 8 bytes
  if recExpert w == 0xFFF then s.exOrphan h
  else
    match (s.exState h).outstanding (recTile w) (recRound w) (recIndex w) with
    | none => s.exOrphan h
    | some d => s.exWrite h d (recIndex w) (bytesOf (recWith w 0) ++ bytes.drop 64) 5

/-- EXCH_RETURN_ARRIVAL: return `i` of this package is read once its origin tile has issued the combine, and written there
or sent over its link, its origin asked first; or, `far`, the next return that link `i` brought is written, or goes on. -/
def execExchReturnArrival (h i : Nat) (far : Bool) (s : State) : Host.Outcome State Fault Refusal :=
  let x := s.exState h
  let away (n : Nat) : Bool := n != s.exEngine h && exValidEngine x n && exRemote x n
  let size := s.exSize h
  if !s.exValid h then .next s
  else if !far then
    match x.returns[i]? with
    | none => .next s
    | some ret =>
      let w := s.peekHdr (s.exPart h) ret.src
      let s0 := s.setEx h { x with returns := x.returns.eraseIdx i }
      let r := s0.readAny (s.exPart h) ret.src size
      let s1 := if r.2.1 then r.2.2.reportX 0x027 h (some (s.exPart h)) else r.2.2
      if s.cutPending ret.src size then .next s
      else if away (recEngine w) then
        if ret.asked == 0 then
          .next ((s.setEx h { x with returns := x.returns.set i { ret with asked := 1 } }).exNote h (recEngine w) 10
            [s.exEngine h, recExpert w, recTile w, recRound w, recIndex w])
        else if ret.asked == 1 then .next s
        else .next ((s1.exSend h (recEngine w) 6 0 r.1).exReturned h w)
      else
        let d := x.outstanding (recTile w) (recRound w) (recIndex w)
        if recEngine w != s.exEngine h || recExpert w == 0xFFF || d.isNone then .next ((s1.exReturned h w).exOrphan h)
        else if (d.bind (·.dest)).isNone then .next s
        else .next ((s1.exTakeReturn h r.1).exReturned h w)
  else
    match s.exCells h 6 i with
    | none => .next s
    | some cs =>
      let bytes := (cs.flatMap (·.payload)).take size
      let s := s.takeCells cs
      let n := recEngine (wordsOf 8 bytes)
      if away n then .next (s.forward (((cs.head?).map hopOf).getD {}) fun m => s.exSend h n 6 0 bytes m)
      else .next (s.exTakeReturn h bytes)

/-! Notices between engines (R248, R249): a half freed, a return announced, the answer to it (assumption log 35). -/

/-- The answer to a return announced for this engine: discarded as an orphan here, let through, or kept until its combine. -/
def State.exAsked (s : State) (h from_ expert t r i : Nat) : State :=
  let x := s.exState h
  match (if expert == 0xFFF then none else x.outstanding t r i) with
  | none => (s.exOrphan h).exNote h from_ 11 [t, r, i, 0, s.exEngine h]
  | some d =>
    if d.dest.isSome then s.exNote h from_ 11 [t, r, i, 1, s.exEngine h] else s.setEx h { x with asks := x.asks ++ [(from_, t, r, i)] }

/-- A return announced from here to origin `org` may be read, or has been discarded there. -/
def State.exAnswer (s : State) (h org t r i : Nat) (go : Bool) : State :=
  let x := s.exState h
  let named (y : ExRet) : Bool :=
    let w := s.peekHdr (s.exPart h) y.src
    y.asked == 1 && recEngine w == org && recTile w == t && recRound w == r && recIndex w == i
  match x.returns.findIdx? named with
  | none => s
  | some k =>
    match x.returns[k]? with
    | none => s
    | some y =>
      if go then s.setEx h { x with returns := x.returns.set k { y with asked := 2 } }
      else (s.setEx h { x with returns := x.returns.eraseIdx k }).exReturned h (s.peekHdr (s.exPart h) y.src)

/-- A notice that a link brought, but a drop notice: acted on by the engine it names, or sent on. -/
def State.exHear (s : State) (c : LkCell) : State :=
  let ws := unitWords c
  let at_ (i : Nat) : Nat := ws.getD i 0
  let h := at_ 1
  let n := at_ 2
  let x := s.exState h
  if !s.exValid h then s
  else if exValidEngine x n && exRemote x n then s.forward (hopOf c) fun m => s.exNote h n (at_ 0) (ws.drop 3) m
  else if n != s.exEngine h then s
  else if at_ 0 == 9 then
    if x.openRound (at_ 3) (at_ 4) then s.setEx h { x with freed := x.freed.put (2 * at_ 3 + at_ 4 % 2) ((at_ 4 + 2) % 65536) } else s
  else if at_ 0 == 10 then s.exAsked h (at_ 3) (at_ 4) (at_ 5) (at_ 6) (at_ 7)
  else s.exAnswer h (at_ 7) (at_ 3) (at_ 4) (at_ 5) (at_ 6 == 1)

/-! Setting up and ending (R242, R251). -/

def exMask : Word := ~~~(maskOf 7 0)

/-- The checks of a write of VALID = 1, the tables read. -/
def State.exOk (s : State) (h : Nat) (x : ExState) : Bool :=
  let p := s.exPart h
  let size := s.exSize h
  let tab (o n : Nat) : Bool :=
    let b := s.rf (exDie h) (exOff h + o) 47 0
    b % 64 == 0 && s.inDramOf p b n
  let expertOk (e : Nat) : Bool :=
    let v := exValidExpert x e
    fld (exEntry x e 0) 52 48 == 0 && fld (exEntry x e 1) 47 16 == 0 && exEntry x e 3 == 0
      && (exEntry x e 2 &&& (maskOf 63 48 ||| maskOf 31 26 ||| maskOf 15 4)) == 0
      && (!v || exValidEngine x (exHome x e))
      && (!v || exRemote x (exHome x e)
          || (exArea x e % 4096 == 0 && s.inDramOf p (exArea x e) (2 * exHalfBytes size (exCap x e))))
      && (!v || s.exShared h || exQuota x e != 0)
  size ≥ 128 && size ≤ 16384 && s.exNexp h != 0 && s.exLsrc h ≤ 768
    && tab 8 (32 * s.exNexp h) && tab 0x10 (8 * s.exNeng h)
    && ((List.range (s.exNeng h)).all fun n => fld (wordAt x.engines n) 56 0 == 0)
    && (List.range (s.exNexp h)).all expertOk

/-- EX_HANDLE_VALIDATE: a write of EX_CFG with VALID = 1: counts and round numbers are cleared, passed or not (R242). -/
def execExHandleValidate (h : Nat) (v : Word) (s : State) : Host.Outcome State Fault Refusal :=
  if h ≥ 128 || s.exValid h then .next s
  else
    let s := s.setRg (exDie h) (exOff h) (setBit (v &&& exMask) 63 false)
    let s := (List.range 6).foldl (fun s k => s.setRg (exDie h) (exOff h + 0x20 + 8 * k) 0) s
    let p := s.exPart h
    let rd (s : State) (o n : Nat) : List Byte × State :=
      let b := s.rf (exDie h) (exOff h + o) 47 0
      if s.inDramOf p b n then
        let r := s.readAny p b n
        (r.1, r.2.2)
      else ([], s)
    let a := rd s 8 (32 * s.exNexp h)
    let b := rd a.2 0x10 (8 * s.exNeng h)
    let s := b.2
    let x : ExState := { experts := (List.range (s.exNexp h)).map fun e => wordsOf 4 (a.1.drop (32 * e)),
                         engines := wordsOf (s.exNeng h) b.1 }
    if !s.exOk h x then .next (s.setEx h { cfgErr := true })
    else .next ((s.setRb (exDie h) (exOff h) 63 true).setEx h x)

/-- What waits at a link or has come by one for handle `h`: records, end marks, returns and notices. -/
def exOwns (h cls object : Nat) (payload : List Byte) : Bool :=
  ((cls == 3 || cls == 6) && object == h)
    || (cls == 5 && [3, 9, 10, 11].contains ((payWords payload).getD 0 0) && (payWords payload).getD 1 0 == h)

/-- What a link's receive end holds for handle `h` is discarded: a cell its consumer has not taken frees its slot, one that waits for
an earlier SEQ is marked, to free it in its turn. -/
def State.exDropHeld (s : State) (h l : Nat) : State :=
  let k := s.link l
  let mine (bs : List Byte) (c : LkCell) : Bool := c.ty == 0 && exOwns h c.cls c.object bs
  let out := k.reqBuf.filter fun c => mine c.payload c
  let voids := (k.held.filter fun c => mine (s.plainOf l c) c).map (·.seq)
  let s := s.setLink l { k with reqBuf := k.reqBuf.filter fun c => !mine c.payload c, voids := listUnion k.voids voids }
  out.foldl State.freeReq s

/-- Every record, return and combine of a handle is dropped, those at its links too. -/
def State.exDrop (s : State) (h : Nat) : State :=
  let s := (s.dropQueued fun x => exOwns h x.cls x.object x.payload).dropUnit fun c => exOwns h c.cls c.object c.payload
  let s := (s.links.map (·.1)).foldl (fun s l => s.exDropHeld h l) s
  (s.setEx h {}).setRb (exDie h) (exOff h) 63 false

/-- EX_HANDLE_DISCARD: a write of EX_CFG with VALID = 0; on a valid handle the other fields keep their values. -/
def execExHandleDiscard (h : Nat) (v : Word) (s : State) : Host.Outcome State Fault Refusal :=
  if h ≥ 128 then .next s
  else if s.exValid h then .next (s.exDrop h)
  else .next (s.setRg (exDie h) (exOff h) (setBit (v &&& exMask) 63 false))

/-- A fence of partition `p` (R251). -/
def State.exFence (s : State) (p : Nat) : State :=
  ((s.exch.map (·.1)).filter fun h => s.exValid h && s.exPart h == p).foldl State.exDrop s

/-- EX_STATE as it reads: the oldest round that some local expert has not freed. -/
def State.exStateReg (s : State) (h : Nat) : Word :=
  let x := s.exState h
  let rs := x.localExperts.flatMap fun e => [x.landing e 0, x.landing e 1]
  let oldest := rs.foldl (fun a r => if (r + 65536 - a) % 65536 ≥ 32768 then r else a) (rs.headD 0)
  BitVec.ofNat 64 (oldest * 2 ^ 48 + x.cfgErr.toNat * 2 ^ 47)

end Sys2Proof.Machine
end

