-- ==== Sys2Proof/Machine/Orrery.lean ====
section
/-! DEFINITION. The Orrery generator (R267), its counter (R268) and drawing from a stream (R118). -/
namespace Sys2Proof.Machine

/-- The four working words. -/
structure Ow where
  x0 : BitVec 32
  x1 : BitVec 32
  x2 : BitVec 32
  x3 : BitVec 32
  deriving DecidableEq, Repr

def orRa : List Nat := [9, 21, 14, 5, 27, 11, 18, 3, 24, 16]
def orRb : List Nat := [19, 6, 25, 12, 2, 30, 7, 22, 13, 28]

/-- Word `i` of a key, k4 the fifth (R267). -/
def orKey (key : BitVec 128) (i : Nat) : BitVec 32 :=
  let w (j : Nat) : BitVec 32 := (key >>> (32 * j)).setWidth 32
  if i % 5 == 4 then w 0 ^^^ w 1 ^^^ w 2 ^^^ w 3 ^^^ 0x5A17C3E5#32 else w (i % 5)

/-- One round, `r` its number. -/
def orRound (key : BitVec 128) (x : Ow) (r : Nat) : Ow :=
  let x0 := x.x0 + x.x1
  let x1 := x.x1.rotateLeft (orRa.getD r 0) ^^^ x0
  let x2 := x.x2 + x.x3
  let x3 := x.x3.rotateLeft (orRb.getD r 0) ^^^ x2
  if r % 2 == 1 then
    let j := (r + 1) / 2
    ⟨x0 + orKey key j, x3 + orKey key (j + 1), x2 + orKey key (j + 2), x1 + orKey key (j + 3) + BitVec.ofNat 32 j⟩
  else ⟨x0, x3, x2, x1⟩

/-- The 128-bit output of a key and a counter (R267). -/
def orrery (key ctr : BitVec 128) : BitVec 128 :=
  let c (j : Nat) : BitVec 32 := (ctr >>> (32 * j)).setWidth 32
  let x := (List.range 10).foldl (orRound key)
    ⟨c 0 + orKey key 0, c 1 + orKey key 1, c 2 + orKey key 2, c 3 + orKey key 3⟩
  x.x3 ++ x.x2 ++ x.x1 ++ x.x0

/-- A stream: key, counter, offset into the current output (R118). -/
structure OStream where
  key : BitVec 128 := 0
  ctr : BitVec 128 := 0
  off : Nat := 0
  deriving DecidableEq, Repr

/-- The counter with POSITION advanced by one, a carry out of it lost (R118, R268). -/
def orNext (ctr : BitVec 128) : BitVec 128 := (ctr.extractLsb' 64 64) ++ (ctr.setWidth 64 + 1)

/-- Draws 16 bits a step, low bits first (R118). Offsets that are not a multiple of 16 straddle outputs. -/
def OStream.draw16 (o : OStream) : Nat × OStream :=
  let cur := (orrery o.key o.ctr).toNat
  if o.off + 16 < 128 then (cur / 2 ^ o.off % 65536, { o with off := o.off + 16 })
  else
    let have_ := 128 - o.off
    let lo := cur / 2 ^ o.off
    let ctr := orNext o.ctr
    if have_ == 16 then (lo, { o with ctr := ctr, off := 0 })
    else
      let hi := (orrery o.key ctr).toNat % 2 ^ (16 - have_)
      (lo + hi * 2 ^ have_, { o with ctr := ctr, off := 16 - have_ })

/-- `n` draws of 16 bits, first drawn first. -/
def OStream.draws (o : OStream) : Nat → List Nat × OStream
  | 0 => ([], o)
  | n + 1 =>
    let r := o.draw16
    let q := r.2.draws n
    (r.1 :: q.1, q.2)

/-- The stream after `n` draws of 16 bits, without forming them. -/
def OStream.skip (o : OStream) (n : Nat) : OStream :=
  let b := o.off + 16 * n
  { o with ctr := (o.ctr.extractLsb' 64 64) ++ (o.ctr.setWidth 64 + BitVec.ofNat 64 (b / 128)), off := b % 128 }

end Sys2Proof.Machine
end

