-- ==== Sys2Proof/Machine/Real.lean ====
section
/-! DEFINITION. The real functions that R64 promises within a bound, to about 300 bits in fixed point, and the choice of a
result within that bound: a free value where it lies inside, the correctly rounded result elsewhere (assumption log 13). -/
namespace Sys2Proof.Machine

/-- Fraction bits of the fixed point, and of the one that an angle is reduced in. -/
def fxP : Nat := 320
def fxQ : Nat := 480

/-- m x 2^e in fixed point of `p` fraction bits, rounded down. -/
def toFix (p : Nat) (m e : Int) : Int :=
  if 0 ≤ e + p then m * (2 : Int) ^ (e + p).toNat else m.fdiv ((2 : Int) ^ (-(e + p)).toNat)

def fxMul (a b : Int) : Int := (a * b).fdiv ((2 : Int) ^ fxP)
def fxDiv (a b : Int) : Int := (a * (2 : Int) ^ fxP).fdiv b

/-- `pow` / (2k+1), plus or minus the terms after it: the series of the arc tangents of a number whose square (with a sign
that alternates or not) multiplies each power. -/
def arcSeries (next : Int → Int) : Nat → Nat → Int → Int
  | 0, _, _ => 0
  | fuel + 1, k, pow => pow / ((2 * k + 1 : Nat) : Int) + arcSeries next fuel (k + 1) (next pow)

/-- Natural logarithm of 2, twice the area tangent of 1/3. -/
def fxLn2 : Int := 2 * arcSeries (fun p => p / 9) 110 0 ((2 : Int) ^ fxP / 3)

/-- Pi with `fxQ` fraction bits, by Machin's formula. -/
def fxPiQ : Int :=
  16 * arcSeries (fun p => p / (-25)) 110 0 ((2 : Int) ^ fxQ / 5) - 4 * arcSeries (fun p => p / (-57121)) 40 0 ((2 : Int) ^ fxQ / 239)

/-- A term over `n`, times `r` over each number after `n` in steps of `d`, summed. -/
def powSeries (next : Nat → Int → Int) : Nat → Nat → Int → Int
  | 0, _, _ => 0
  | fuel + 1, n, term => term + powSeries next fuel (n + 1) (next (n + 1) term)

/-- e^r, sin r and cos r for a small r. -/
def fxExp (r : Int) : Int := powSeries (fun n t => (fxMul t r) / (n : Int)) 80 0 ((2 : Int) ^ fxP)
def fxSin (r : Int) : Int :=
  powSeries (fun n t => (-(fxMul (fxMul t r) r)) / ((2 * n * (2 * n + 1) : Nat) : Int)) 60 0 r
def fxCos (r : Int) : Int :=
  powSeries (fun n t => (-(fxMul (fxMul t r) r)) / ((2 * n * (2 * n - 1) : Nat) : Int)) 60 0 ((2 : Int) ^ fxP)

/-- Whether |m x 2^e| is at least 2^n. -/
def dyGe (m e : Int) (n : Int) : Bool := m != 0 && decide (n ≤ (Nat.log2 m.natAbs : Int) + e)

/-- e^x, a power of two standing for a value far outside every format. -/
def dyExp (m e : Int) : Int × Int :=
  if dyGe m e 12 then (1, if m < 0 then -5000 else 5000)
  else
    let x := toFix fxP m e
    let k := (2 * x + fxLn2).fdiv (2 * fxLn2)
    (fxExp (x - k * fxLn2), k - fxP)

def dyExp2 (m e : Int) : Int × Int :=
  if dyGe m e 12 then (1, if m < 0 then -5000 else 5000)
  else
    let x := toFix fxP m e
    let k := x.fdiv ((2 : Int) ^ fxP)
    (fxExp (fxMul (x - k * (2 : Int) ^ fxP) fxLn2), k - fxP)

/-- ln x for x > 0. -/
def dyLog (m e : Int) : Int × Int :=
  let n : Int := Nat.log2 m.natAbs
  let y0 := toFix fxP m (-n)
  let up := decide (3 * (2 : Int) ^ (fxP - 1) < y0)
  let y := if up then y0 / 2 else y0
  let k := n + e + if up then 1 else 0
  let z := fxDiv (y - (2 : Int) ^ fxP) (y + (2 : Int) ^ fxP)
  (k * fxLn2 + 2 * arcSeries (fun p => fxMul (fxMul p z) z) 80 0 z, -fxP)

def dyLog2 (m e : Int) : Int × Int := (fxDiv (dyLog m e).1 fxLn2, -fxP)

/-- The same function of -x, for an odd function given for x >= 0. -/
def oddOf (f : Int → Int → Int × Int) (m e : Int) : Int × Int :=
  let r := f (m.natAbs : Int) e
  (if m < 0 then -r.1 else r.1, r.2)

def dyTanh : Int → Int → Int × Int := oddOf fun m e =>
  if dyGe m e 7 then (1, 0)
  else
    let x := dyExp m (e + 1)
    let v := toFix fxP x.1 x.2
    (fxDiv (v - (2 : Int) ^ fxP) (v + (2 : Int) ^ fxP), -fxP)

def dySigmoid (m e : Int) : Int × Int :=
  let x := dyExp (-(m.natAbs : Int)) e
  let d := (2 : Int) ^ fxP + toFix fxP x.1 x.2
  if m < 0 then ((x.1 * (2 : Int) ^ (2 * fxP)).fdiv d, x.2 - fxP) else (fxDiv ((2 : Int) ^ fxP) d, -fxP)

def dyErf : Int → Int → Int × Int := oddOf fun m e =>
  if dyGe m e 4 || decide (9 * (2 : Int) ^ fxP ≤ toFix fxP m e) then (1, 0)
  else
    let x := toFix fxP m e
    let sum := (List.range 420).foldl (fun (a : Int × Int) n =>
      (a.1 + a.2 / ((2 * n + 1 : Nat) : Int), (-(fxMul (fxMul a.2 x) x)) / ((n + 1 : Nat) : Int))) (0, x)
    let rootPi : Int := isqrt ((fxPiQ / (2 : Int) ^ (fxQ - fxP)) * (2 : Int) ^ fxP).toNat
    (fxDiv (2 * sum.1) rootPi, -fxP)

/-- Sine of x plus `q0` quarter turns. -/
def dySin (q0 : Int) (m e : Int) : Int × Int :=
  let x := toFix fxQ m e
  let q := (2 * x).fdiv fxPiQ
  let r := (x - (q * fxPiQ) / 2) / (2 : Int) ^ (fxQ - fxP)
  (match ((q + q0) % 4).toNat with
    | 0 => fxSin r | 1 => fxCos r | 2 => -(fxSin r) | _ => -(fxCos r), -fxP)

/-- What R153 gives operations 0x09 to 0x11 of a finite operand (a logarithm's above zero). -/
def realOp (opc : Nat) (m e : Int) : Int × Int :=
  match opc with
  | 0x09 => dyExp m e
  | 0x0A => dyExp2 m e
  | 0x0B => dyLog m e
  | 0x0C => dyLog2 m e
  | 0x0D => dyTanh m e
  | 0x0E => dySigmoid m e
  | 0x0F => dyErf m e
  | 0x10 => dySin 0 m e
  | _ => dySin 1 m e

/-- The exponent of one ulp of a format at a value. -/
def ulpExp (h : FShape) (v : Int × Int) : Int :=
  if v.1 == 0 then h.qmin else max (flog2 v.1.natAbs v.2 - h.mb) h.qmin

/-- R64's bound of an operation at operand x and exact result v, as (m, e). -/
def boundOf (f : Fmt) (h : FShape) (opc : Nat) (x v : Int × Int) : Int × Int :=
  let u := ulpExp h v
  let wide := f == .fp32
  match opc with
  | 0x07 | 0x08 => (1, u)
  | 0x09 | 0x0A | 0x0B | 0x0C => (if wide then 2 else 1, u)
  | 0x0D | 0x0E | 0x0F => if !wide then (1, u) else if v.1 == 0 || !dyGe v.1 v.2 (-20) then (1, -24) else (4, u)
  | _ =>
    if dyCmp x.1.natAbs x.2 1 15 != .gt then (if wide then 2 else 1, u)
    else (1, if wide then -20 else -9)

/-- Whether a code's value lies within a bound of v, infinity standing for the first power of two past the format. -/
def codeWithin (f : Fmt) (h : FShape) (c : Nat) (v b : Int × Int) : Bool :=
  let near (m e : Int) : Bool :=
    let d := dyAdd m e (-v.1) v.2
    dyCmp d.1.natAbs d.2 b.1 b.2 != .gt
  match decode f 0 c with
  | .fin s m e => near (sgnd s m) e
  | .inf s => near (sgnd s 1) (2 ^ (h.eb - 1))
  | .nan => false

/-- A result of a bounded operation: the free value `c` where R64 allows it, else the exact result correctly rounded; overflow
gives infinity. -/
def bounded (f : Fmt) (opc c : Nat) (x v : Int × Int) : Nat :=
  let r := toFmt f (.fin (decide (v.1 < 0)) v.1.natAbs v.2)
  match shapeOf f, decode f 0 r with
  | some h, .fin _ _ _ => if codeWithin f h c v (boundOf f h opc x v) then c else r
  | _, _ => r

end Sys2Proof.Machine
end

