-- ==== Sys2Proof/Machine/Augment.lean ====
section
/-! DEFINITION. Mandoline's tokenizer and augmentation operators on one sample's values (R265, R266, R268 to R270). -/
namespace Sys2Proof.Machine

/-! UTF-8 (R266, RFC 3629). -/

def contByte (b : Byte) : Bool := b.toNat / 64 == 2

/-- The bytes of the valid character at the head, 0 where there is none. -/
def utf8Len : List Byte → Nat
  | [] => 0
  | b :: r =>
    let x := b.toNat
    let c (i : Nat) : Bool := match r[i]? with | some y => contByte y | none => false
    let n := (r.headD 0).toNat
    if x < 0x80 then 1
    else if 0xC2 ≤ x && x ≤ 0xDF && c 0 then 2
    else if 0xE0 ≤ x && x ≤ 0xEF && c 0 && c 1 && (x != 0xE0 || n ≥ 0xA0) && (x != 0xED || n < 0xA0) then 3
    else if 0xF0 ≤ x && x ≤ 0xF4 && c 0 && c 1 && c 2 && (x != 0xF0 || n ≥ 0x90) && (x != 0xF4 || n < 0x90) then 4
    else 0

def utf8Go : Nat → List Byte → Bool
  | _, [] => true
  | 0, _ => false
  | k + 1, bs => let n := utf8Len bs; n != 0 && utf8Go k (bs.drop n)

/-- Whether bytes are valid UTF-8. -/
def utf8Ok (bs : List Byte) : Bool := utf8Go bs.length bs

/-! Tokenizer (R265, R266). -/

def isPrefix : List Byte → List Byte → Bool
  | [], _ => true
  | a :: l, b :: m => a == b && isPrefix l m
  | _, _ => false

/-- The longest entry at the head of the input: its length and identifier. -/
def longest (dict : List (List Byte × Nat)) (bs : List Byte) : Option (Nat × Nat) :=
  dict.foldl (fun best e =>
    if isPrefix e.1 bs && (match best with | some b => decide (b.1 < e.1.length) | none => true) then some (e.1.length, e.2) else best) none

/-- The matching loop: tokens emitted, and the bytes left. -/
def matchGo (dict : List (List Byte × Nat)) (unk : Nat) (asBytes : Bool) (cap : Nat) :
    Nat → List Byte → List Nat → List Nat × List Byte
  | 0, bs, out => (out, bs)
  | k + 1, bs, out =>
    if bs.isEmpty || out.length ≥ cap then (out, bs)
    else
      match longest dict bs with
      | some (n, id) => matchGo dict unk asBytes cap k (bs.drop n) (out ++ [id])
      | none =>
        let n := utf8Len bs
        matchGo dict unk asBytes cap k (bs.drop (if asBytes || n == 0 then 1 else n)) (out ++ [unk])

/-- The tokens of a sample and whether they were truncated. -/
def tokenize (dict : List (List Byte × Nat)) (unk : Nat) (asBytes : Bool) (cap bos eos : Nat) (bs : List Byte) : List Nat × Bool :=
  let r := matchGo dict unk asBytes cap bs.length bs (if bos == 0xFFFFFFFF then [] else [bos])
  (if eos == 0xFFFFFFFF || r.1.length == cap then r.1 else r.1 ++ [eos], !r.2.isEmpty)

/-- Bytewise order, a shorter list first. -/
def bytesLt : List Byte → List Byte → Bool
  | [], [] => false
  | [], _ :: _ => true
  | _ :: _, [] => false
  | a :: l, b :: m => a.toNat < b.toNat || (a == b && bytesLt l m)

/-- A dictionary record: its entry, if it passes its own checks. -/
def dictRecord (bs : List Byte) : Option (List Byte × Nat) :=
  let n := (bs.getD 64 0).toNat
  let id := leNat (bs.drop 68)
  if bs.length == 72 && 1 ≤ n && n ≤ 64 && ((bs.take 64).drop n).all (· == 0) && (((bs.drop 65).take 3).all (· == 0)) && id < 2 ^ 31
  then some (bs.take n, id) else none

/-- The dictionary of an image, or the first record that fails. -/
def dictGo (i : Nat) (last : Option (List Byte)) : List (List Byte) → Except Nat (List (List Byte × Nat))
  | [] => .ok []
  | r :: rs =>
    match dictRecord r with
    | none => .error i
    | some e =>
      if (match last with | some l => bytesLt l e.1 | none => true) then
        match dictGo (i + 1) (some e.1) rs with
        | .ok d => .ok (e :: d)
        | .error j => .error j
      else .error i

/-! Operator records (R269). -/

def opCode (o : List Word) : Nat := fld (wordAt o 0) 63 56
def opFld (o : List Word) (hi lo : Nat) : Nat := fld (wordAt o 0) hi lo
/-- Parameter P`i`. -/
def opP (o : List Word) (i : Nat) : BitVec 32 := if i % 2 == 0 then (wordAt o (1 + i / 2)).setWidth 32 else (wordAt o (1 + i / 2)).extractLsb' 32 32

def drawing (c : Nat) : Bool := [0x01, 0x04, 0x05, 0x06, 0x12].contains c

/-- Whether an operator fits a kind: images 1 to 3, audio 4 to 6, text 7. -/
def opFits (kind c : Nat) : Bool :=
  if 1 ≤ kind && kind ≤ 3 then 1 ≤ c && c ≤ 7
  else if 4 ≤ kind && kind ≤ 6 then 0x10 ≤ c && c ≤ 0x12
  else c == 0x20

/-- The checks of R269 on a list's body, the shape walked: `spec` once SPECTRO has run. -/
def opsWalk (kind : Nat) : Bool → List (List Word) → Option Bool
  | spec, [] => some spec
  | spec, o :: r =>
    let c := opCode o
    if !opFits kind c then none
    else if c == 0x10 && spec then none
    else if c == 0x11 then (if spec || opFld o 55 48 < 8 || opFld o 55 48 > 12 || opFld o 47 32 == 0 then none else opsWalk kind true r)
    else if c == 0x12 && !spec then none
    else opsWalk kind spec r

/-- Whether a stream's operator list is valid. -/
def opsOk (kind : Nat) (ops : List (List Word)) : Bool :=
  let body := ops.dropLast
  let out := ops.getLastD []
  let fmt := opFld out 55 52
  let lay := opFld out 51 48
  opCode out == 0x3F && !ops.isEmpty && ops.length ≤ 32
    && (ops.filter fun o => drawing (opCode o)).length ≤ 16
    && (match opsWalk kind false body with
        | none => false
        | some spec =>
          if kind == 7 then body.length == 1 && fmt == 8 && lay == 4
          else [0, 1, 5, 6, 7].contains fmt && (if kind ≤ 3 then lay ≤ 1 else if spec then lay == 3 else lay == 2))

/-! Values. -/

def f32Nat (n : Nat) : BitVec 32 := BitVec.ofNat 32 (toFmt .fp32 (.fin false n 0))
def f32Val (x : BitVec 32) : Val := decode .fp32 0 x.toNat

/-- The integer nearest a value (RNE), or below it; 0 for a negative, none for NaN or infinity. -/
def natOf (rne : Bool) (x : BitVec 32) : Option Nat :=
  match f32Val x with
  | .fin s m e => if s then some 0 else if rne then some (roundAt .rne m e 0) else if e ≥ 0 then some (m * 2 ^ e.toNat) else some (m / 2 ^ (-e).toNat)
  | _ => none

/-- The whole number at or below a finite value. -/
def floorOf (x : BitVec 32) : Int :=
  match f32Val x with
  | .fin s m e => if e ≥ 0 then sgnd s m * (2 : Int) ^ e.toNat else (sgnd s m).fdiv ((2 : Int) ^ (-e).toNat)
  | _ => 0

/-- A quotient of whole numbers, correctly rounded. -/
def rat32 (p : Int) (q : Nat) : BitVec 32 := BitVec.ofNat 32 (toFmt .fp32 ((Val.ofInt p).div (Val.ofInt q)))

/-- A real function of a finite operand, correctly rounded (`Real.lean`). -/
def real32 (f : Int → Int → Int × Int) (s : Bool) (m : Nat) (e : Int) : BitVec 32 :=
  let r := f (sgnd s m) e
  BitVec.ofNat 32 (toFmt .fp32 (.fin (decide (r.1 < 0)) r.1.natAbs r.2))

/-- e^x, ln x, sin x and cos x as one operation each (R270). -/
def exp32 (x : BitVec 32) : BitVec 32 :=
  match f32Val x with
  | .fin s m e => real32 dyExp s m e
  | .inf s => if s then 0 else x
  | .nan => x

def ln32 (x : BitVec 32) : BitVec 32 :=
  match f32Val x with
  | .fin s m e => if m == 0 then 0xFF800000 else if s then 0x7FC00000 else real32 dyLog s m e
  | .inf s => if s then 0x7FC00000 else x
  | .nan => x

def trig32 (quarter : Int) (x : BitVec 32) : BitVec 32 :=
  match f32Val x with
  | .fin s m e => real32 (dySin quarter) s m e
  | _ => 0x7FC00000

def pi32 : BitVec 32 := 0x40490FDB
def one32 : BitVec 32 := 0x3F800000
def half32 : BitVec 32 := 0x3F000000

/-- A sum in list order. -/
def sum32 (xs : List (BitVec 32)) : BitVec 32 := xs.foldl add32 0

/-- A draw (R268): `d` the operator's rank among those that draw. -/
def augDraw (key : BitVec 128) (stream d index pos : Nat) : BitVec 32 :=
  let ctr := BitVec.ofNat 128 ((stream * 16 + d) * 2 ^ 112 + index * 2 ^ 64 + pos)
  let k := (orrery key ctr).toNat / 2 ^ 104
  BitVec.ofNat 32 (toFmt .fp32 (.fin false k (-24)))

/-- The value of an image at a row, a column and a channel. -/
def pxOf (m : MediaOut) (r c k : Nat) : Option (BitVec 32) :=
  if r < m.d0 && c < m.d1 && k < m.channels then m.values[(r * m.d1 + c) * m.channels + k]? else none

/-- An image of `h` by `w` from a function of row, column and channel. -/
def ofPx (m : MediaOut) (h w : Nat) (f : Nat → Nat → Nat → BitVec 32) : MediaOut :=
  { m with d0 := h, d1 := w, values := (List.range h).flatMap fun i => (List.range w).flatMap fun j => (List.range m.channels).map fun k => f i j k }

/-- A window of an image at row `y`, column `x`; zeros outside it. -/
def window (m : MediaOut) (y x : Int) (h w : Nat) : MediaOut :=
  ofPx m h w fun i j k =>
    let r := y + (i : Nat)
    let c := x + (j : Nat)
    if r < 0 || c < 0 then 0 else (pxOf m r.toNat c.toNat k).getD 0

/-- Where an output row or column falls in the input: the lower neighbour (edges clamped), the upper one, the weight of the upper. -/
def halfPixel (n out i : Nat) : Nat × Nat × BitVec 32 :=
  let p := sub32 (mul32 (add32 (f32Nat i) half32) (rat32 n out)) half32
  let lo := floorOf p
  let clamp (z : Int) : Nat := min z.toNat (n - 1)
  (clamp lo, clamp (lo + 1), sub32 p (rat32 lo 1))

/-- RESIZE: bilinear, half-pixel centres, edges clamped. -/
def resize (h w : Nat) (m : MediaOut) : MediaOut :=
  let mix (f a b : BitVec 32) : BitVec 32 := add32 (mul32 (sub32 one32 f) a) (mul32 f b)
  ofPx m h w fun i j k =>
    let y := halfPixel m.d0 h i
    let x := halfPixel m.d1 w j
    let at_ (r c : Nat) : BitVec 32 := (pxOf m r c k).getD 0
    mix y.2.2 (mix x.2.2 (at_ y.1 x.1) (at_ y.1 x.2.1)) (mix x.2.2 (at_ y.2.1 x.1) (at_ y.2.1 x.2.1))

/-- Attempts of CROP_RAND. -/
def cropGo (o : List Word) (m : MediaOut) (u : Nat → BitVec 32) : Nat → Nat → MediaOut
  | 0, _ => m
  | n + 1, a =>
    let area := mul32 (f32Nat (m.d0 * m.d1)) (add32 (opP o 0) (mul32 (u (4 * a)) (sub32 (opP o 1) (opP o 0))))
    let l2 := ln32 (opP o 2)
    let ratio := exp32 (add32 l2 (mul32 (u (4 * a + 1)) (sub32 (ln32 (opP o 3)) l2)))
    match natOf true (sqrt32 (mul32 area ratio)), natOf true (sqrt32 (div32 area ratio)) with
    | some w, some h =>
      if w ≤ m.d1 && h ≤ m.d0 then
        let x := (natOf false (mul32 (u (4 * a + 2)) (f32Nat (m.d1 - w + 1)))).getD 0
        let y := (natOf false (mul32 (u (4 * a + 3)) (f32Nat (m.d0 - h + 1)))).getD 0
        window m y x h w
      else cropGo o m u n (a + 1)
    | _, _ => cropGo o m u n (a + 1)

def clamp255 (x : BitVec 32) : BitVec 32 :=
  if (f32Val x).lt (.fin false 0 0) then 0 else if (Val.fin false 255 0).lt (f32Val x) then f32Nat 255 else x

/-- A pixel's Y; a grey pixel is its own. -/
def lumaOf (px : List (BitVec 32)) : BitVec 32 :=
  match px with
  | [r, g, b] => add32 (add32 (mul32 0x3E991687 r) (mul32 0x3F1645A2 g)) (mul32 0x3DE978D5 b)
  | _ => px.headD 0

/-- One pixel's saturation step. -/
def saturate (f : BitVec 32) (px : List (BitVec 32)) : List (BitVec 32) :=
  px.map fun x => clamp255 (add32 (mul32 (sub32 x (lumaOf px)) f) (lumaOf px))

def jitter (o : List Word) (m : MediaOut) (u : Nat → BitVec 32) : MediaOut :=
  let f (i : Nat) : BitVec 32 := add32 0x3F800000 (mul32 (opP o i) (sub32 (mul32 0x40000000 (u i)) 0x3F800000))
  let v1 := m.values.map fun x => clamp255 (mul32 x (f 0))
  let ys := (chunks (max 1 m.channels) v1).map lumaOf
  let mean := div32 (sum32 ys) (f32Nat ys.length)
  let v2 := v1.map fun x => clamp255 (add32 (mul32 (sub32 x mean) (f 1)) mean)
  { m with values := (chunks (max 1 m.channels) v2).flatMap (saturate (f 2)) }

/-- One value by its channel. -/
def perChannel (m : MediaOut) (f : Nat → BitVec 32 → BitVec 32) : MediaOut :=
  { m with values := m.values.mapIdx fun i x => f (i % max 1 m.channels) x }

/-- One mask of TIME_MASK over [channels, frames, bins] values. -/
def timeMask (o : List Word) (u : Nat → BitVec 32) (m : MediaOut) (i : Nat) : MediaOut :=
  let w := (natOf false (mul32 (u (2 * i)) (f32Nat (opFld o 51 32 + 1)))).getD 0
  let st := (natOf false (mul32 (u (2 * i + 1)) (f32Nat (m.d0 - w + 1)))).getD 0
  { m with values := m.values.mapIdx fun k x =>
      let fr := k / max 1 m.d1 % max 1 m.d0
      if st ≤ fr && fr < st + w then opP o 0 else x }

/-- h(t) of RESAMPLE, at a rate ratio's f_c. -/
def sincTap (fc t : BitVec 32) : BitVec 32 :=
  let x := mul32 pi32 (mul32 fc t)
  let sinc := if (f32Val x).isZero then one32 else div32 (trig32 0 x) x
  mul32 sinc (mul32 half32 (add32 one32 (trig32 1 (div32 (mul32 pi32 t) (f32Nat 32)))))

/-- RESAMPLE: each output sample from the 64 input samples about its place; none before the first or after the last. -/
def resample (rate : Nat) (m : MediaOut) : MediaOut :=
  let n := Config.resampleLen m.d0 m.rate rate
  let fc := mul32 (rat32 95 100) (if rate < m.rate then rat32 rate m.rate else one32)
  let tap (c i t : Nat) : BitVec 32 :=
    let k : Int := ((i * m.rate / rate : Nat) : Int) - 31 + (t : Nat)
    let x := if k < 0 || k ≥ m.d0 then 0 else m.values.getD (c * m.d0 + k.toNat) 0
    mul32 x (sincTap fc (rat32 ((i * m.rate : Nat) - k * rate) rate))
  { m with
    d0 := n, rate := rate
    values := (List.range m.channels).flatMap fun c => (List.range n).map fun i => sum32 ((List.range 64).map (tap c i)) }

/-- One bin of a frame's power spectrum: |sum of w(n) x(n) e^(-2 pi i k n / size)| squared, the window Hann's. -/
def powerBin (size k : Nat) (xs : List (BitVec 32)) : BitVec 32 :=
  let turn (j : Nat) : BitVec 32 := mul32 pi32 (rat32 (2 * (j % size) : Nat) size)
  let w := xs.mapIdx fun n x => mul32 x (mul32 half32 (sub32 one32 (trig32 1 (turn n))))
  let re := sum32 (w.mapIdx fun n x => mul32 x (trig32 1 (turn (k * n))))
  let im := sum32 (w.mapIdx fun n x => mul32 x (trig32 0 (turn (k * n))))
  add32 (mul32 re re) (mul32 im im)

/-- SPECTRO: channels, frames, bins. -/
def spectro (size hop mel : Nat) (p0 : BitVec 32) (m : MediaOut) : MediaOut :=
  let frames := Config.spectroFrames m.d0 size hop
  let log (x : BitVec 32) : BitVec 32 := if (Val.fin false 0 0).lt (f32Val p0) then ln32 (add32 x p0) else x
  let frame (c f : Nat) : List (BitVec 32) :=
    let xs := (List.range size).map fun i => if f * hop + i < m.d0 then m.values.getD (c * m.d0 + f * hop + i) 0 else 0
    let ps := (List.range (size / 2 + 1)).map fun k => powerBin size k xs
    if mel == 0 then ps
    else (List.range mel).map fun b => sum32 (ps.mapIdx fun k p => mul32 (Config.melWeight m.rate size mel b k) p)
  { m with
    d0 := frames, d1 := if mel == 0 then size / 2 + 1 else mel
    values := (List.range m.channels).flatMap fun c => (List.range frames).flatMap fun f => (frame c f).map log }

/-- One operator other than MIX, TOKENIZE and OUTPUT, with its draws. -/
def applyOp (o : List Word) (u : Nat → BitVec 32) (m : MediaOut) : MediaOut :=
  let h := opFld o 55 40
  let w := opFld o 39 24
  match opCode o with
  | 0x01 => cropGo o m u 10 0
  | 0x02 => window m (((m.d0 : Int) - h).fdiv 2) (((m.d1 : Int) - w).fdiv 2) h w
  | 0x03 => resize h w m
  | 0x04 =>
    if (f32Val (u 0)).lt (f32Val (opP o 0)) then
      { m with values := (chunks (max 1 (m.d1 * m.channels)) m.values).flatMap fun row => (chunks (max 1 m.channels) row).reverse.flatten }
    else m
  | 0x05 => jitter o m u
  | 0x07 => perChannel m fun k x => div32 (sub32 (div32 x (f32Nat 255)) (opP o (k % 3))) (opP o (3 + k % 3))
  | 0x10 => resample (opFld o 55 32) m
  | 0x11 => spectro (2 ^ opFld o 55 48) (opFld o 47 32) (opFld o 31 16) (opP o 0) m
  | 0x12 => (List.range (opFld o 55 52)).foldl (timeMask o u) m
  | _ => m

/-- Runs operators up to the end or to MIX: the values, the operators left (MIX first), the drawing rank reached. -/
def runOps (key : BitVec 128) (stream index : Nat) : Nat → List (List Word) → MediaOut → MediaOut × List (List Word) × Nat
  | d, [], m => (m, [], d)
  | d, o :: r, m =>
    let c := opCode o
    if c == 0x06 then (m, o :: r, d)
    else runOps key stream index (if drawing c then d + 1 else d) r (applyOp o (augDraw key stream d index) m)

/-- MIX of a sample with its partner, by the pair's lower index (R269, R271): values and lambda. The box has the image's own
aspect; where the partner has no value, one that the spec does not give is taken (assumption log 14). -/
def mixPair (o : List Word) (u : Nat → BitVec 32) (m q : MediaOut) : MediaOut × BitVec 32 :=
  let l := add32 (opP o 0) (mul32 (u 0) (sub32 (opP o 1) (opP o 0)))
  let rest := sub32 one32 l
  let side (n : Nat) : Nat := (natOf true (mul32 (f32Nat n) (sqrt32 rest))).getD 0
  let place (d n b : Nat) : Nat := (natOf false (mul32 (u d) (f32Nat (n - b + 1)))).getD 0
  let h := side m.d0
  let w := side m.d1
  let x0 := place 1 m.d1 w
  let y0 := place 2 m.d0 h
  let px (r c k : Nat) : BitVec 32 :=
    let x := (pxOf m r c k).getD 0
    let y := (pxOf q r c k).getD (Config.mixAbsent x r c k)
    if opFld o 55 55 == 0 then add32 (mul32 l x) (mul32 rest y)
    else if y0 ≤ r && r < y0 + h && x0 ≤ c && c < x0 + w then y else x
  (ofPx m m.d0 m.d1 px, l)

/-- OUTPUT: dimensions and payload (R269, R272). -/
def outputOp (o : List Word) (m : MediaOut) : (Nat × Nat × Nat) × List Byte :=
  let f := fmtAt (opFld o 55 52)
  let lay := opFld o 51 48
  let vs := if lay == 1 then
      (List.range m.channels).flatMap fun k => (List.range (m.d0 * m.d1)).map fun i => m.values.getD (i * m.channels + k) 0
    else m.values
  let bytes := vs.flatMap fun x => leBytes (f.bits / 8) (encode f .rne true 0 (f32Val x)).1
  (match lay with
    | 0 => (m.d0, m.d1, m.channels)
    | 1 => (m.channels, m.d0, m.d1)
    | 2 => (m.channels, m.d0, 1)
    | _ => (m.channels, m.d0, m.d1), bytes)

end Sys2Proof.Machine
end

