-- ==== Sys2Proof/Machine/Codec.lean ====
section
/-! DEFINITION. The entropy codings of the formats R259 names: zlib (RFC 1950, RFC 1951), JPEG scans (ISO/IEC 10918-1) and FLAC
frames (RFC 9639). R259 names the standards and repeats none of them: assumption log 14. -/
namespace Sys2Proof.Machine

/-! Bits. -/

/-- The bits of bytes, each byte's least significant first. -/
def bitsLsb (bs : List Byte) : List Bool := bs.flatMap fun b => (List.range 8).map fun i => b.getLsbD i

/-- The bits of bytes, each byte's most significant first. -/
def bitsMsb (bs : List Byte) : List Bool := bs.flatMap fun b => (List.range 8).map fun i => b.getMsbD i

/-- The next `n` bits as a number, the first the least significant. -/
def takeLsb : Nat → List Bool → Option (Nat × List Bool)
  | 0, bs => some (0, bs)
  | _ + 1, [] => none
  | n + 1, b :: bs => (takeLsb n bs).map fun r => (b.toNat + 2 * r.1, r.2)

/-- The next `n` bits as a number, the first the most significant, after the number `v` read so far. -/
def takeMsb (v : Nat) : Nat → List Bool → Option (Nat × List Bool)
  | 0, bs => some (v, bs)
  | _ + 1, [] => none
  | n + 1, b :: bs => takeMsb (2 * v + b.toNat) n bs

/-- The rest of a bit stream of whole bytes from its next byte on. -/
def byteAlign (bs : List Bool) : List Bool := bs.drop (bs.length % 8)

/-! Canonical prefix codes: how many codes each length has from 1 on, and their symbols in order. -/

/-- Reads one symbol; `code`, `first` and `index` as the lengths before have left them. -/
def symbolGo : List Nat → List Nat → Nat → Nat → Nat → List Bool → Option (Nat × List Bool)
  | [], _, _, _, _, _ => none
  | _, _, _, _, _, [] => none
  | n :: ns, syms, code, first, index, b :: bs =>
    let code := code + b.toNat
    if code < first + n then some (syms.getD (index + (code - first)) 0, bs)
    else symbolGo ns syms (2 * code) (2 * (first + n)) (index + n) bs

def symbolOf (t : List Nat × List Nat) (bs : List Bool) : Option (Nat × List Bool) := symbolGo t.1 t.2 0 0 0 bs

/-- Code space left after the codes of each length, in codes of the last length; none where there are too many. -/
def codeSpace : List Nat → Nat → Option Nat
  | [], left => some left
  | n :: ns, left => if n > 2 * left then none else codeSpace ns (2 * left - n)

/-- The code that gives symbol `i` the length `lens[i]`. -/
def codeOfLengths (lens : List Nat) : List Nat × List Nat :=
  ((List.range' 1 15).map fun l => lens.count l,
   (List.range' 1 15).flatMap fun l => (List.range lens.length).filter fun i => lens.getD i 0 == l)

/-- Whether a code of RFC 1951 is complete; one with a single code of one bit, or with none, is allowed for distances. -/
def codeSound (distance : Bool) (t : List Nat × List Nat) : Bool :=
  codeSpace t.1 1 == some 0 || (distance && (t.2.isEmpty || (t.2.length == 1 && t.1.headD 0 == 1)))

/-! zlib. -/

def lengthBase : List (Nat × Nat) :=
  ((List.range 8).map fun i => (3 + i, 0)) ++ ((List.range 20).map fun i => (3 + (4 + i % 4) * 2 ^ (i / 4 + 1), i / 4 + 1)) ++ [(258, 0)]

def distanceBase : List (Nat × Nat) :=
  ((List.range 4).map fun i => (1 + i, 0)) ++ (List.range 26).map fun i => (1 + (2 + i % 2) * 2 ^ (i / 2 + 1), i / 2 + 1)

/-- Copies `n` bytes from `d` back; the output newest first. -/
def copyBack (d : Nat) : Nat → List Byte → List Byte
  | 0, out => out
  | n + 1, out => copyBack d n (out.getD (d - 1) 0 :: out)

/-- The symbols of a block up to its end; what was put out before a fault stays. -/
def inflateCodes (lit dist : List Nat × List Nat) (window : Nat) : Nat → List Bool → List Byte → Option (List Bool) × List Byte
  | 0, _, out => (none, out)
  | k + 1, bs, out =>
    match symbolOf lit bs with
    | none => (none, out)
    | some (sym, bs) =>
      if sym < 256 then inflateCodes lit dist window k bs (BitVec.ofNat 8 sym :: out)
      else if sym == 256 then (some bs, out)
      else
        match lengthBase[sym - 257]? with
        | none => (none, out)
        | some (base, extra) =>
          match takeLsb extra bs with
          | none => (none, out)
          | some (e, bs) =>
            match symbolOf dist bs with
            | none => (none, out)
            | some (ds, bs) =>
              match distanceBase[ds]? with
              | none => (none, out)
              | some (dbase, dextra) =>
                match takeLsb dextra bs with
                | none => (none, out)
                | some (de, bs) =>
                  if dbase + de > out.length || dbase + de > window then (none, out)
                  else inflateCodes lit dist window k bs (copyBack (dbase + de) (base + e) out)

/-- The code lengths of a dynamic block, `n` of them, newest first. -/
def readLengths (t : List Nat × List Nat) (n : Nat) : Nat → List Bool → List Nat → Option (List Nat × List Bool)
  | 0, _, _ => none
  | k + 1, bs, acc =>
    if acc.length == n then some (acc.reverse, bs)
    else if acc.length > n then none
    else
      match symbolOf t bs with
      | none => none
      | some (sym, bs) =>
        if sym < 16 then readLengths t n k bs (sym :: acc)
        else
          let r := if sym == 16 then (3, 2) else if sym == 17 then (3, 3) else (11, 7)
          if sym == 16 && acc.isEmpty then none
          else
            match takeLsb r.2 bs with
            | none => none
            | some (e, bs) => readLengths t n k bs (List.replicate (r.1 + e) (if sym == 16 then acc.headD 0 else 0) ++ acc)

def lengthOrder : List Nat := [16, 17, 18, 0, 8, 7, 9, 6, 10, 5, 11, 4, 12, 3, 13, 2, 14, 1, 15]

/-- `n` groups of `w` bits. -/
def takeGroups (w : Nat) : Nat → List Bool → Option (List Nat × List Bool)
  | 0, bs => some ([], bs)
  | n + 1, bs =>
    match takeLsb w bs with
    | none => none
    | some (v, bs) => (takeGroups w n bs).map fun r => (v :: r.1, r.2)

/-- The two codes of a dynamic block. -/
def dynamicCodes (bs : List Bool) : Option ((List Nat × List Nat) × (List Nat × List Nat) × List Bool) :=
  match takeLsb 14 bs with
  | none => none
  | some (v, bs) =>
    let hlit := 257 + v % 32
    let hdist := 1 + v / 32 % 32
    match takeGroups 3 (4 + v / 1024) bs with
    | none => none
    | some (ls, bs) =>
      let t := codeOfLengths ((List.range 19).map fun i => ls.getD (lengthOrder.idxOf i) 0)
      if hlit > 286 || !codeSound false t then none
      else
        match readLengths t (hlit + hdist) (hlit + hdist + 1) bs [] with
        | none => none
        | some (lens, bs) =>
          let lit := codeOfLengths (lens.take hlit)
          let dist := codeOfLengths (lens.drop hlit)
          if lens.getD 256 0 == 0 || !codeSound true lit || !codeSound true dist then none else some (lit, dist, bs)

def fixedLit : List Nat × List Nat :=
  codeOfLengths ((List.replicate 144 8) ++ (List.replicate 112 9) ++ (List.replicate 24 7) ++ List.replicate 8 8)
def fixedDist : List Nat × List Nat := codeOfLengths (List.replicate 30 5)

/-- A block that is stored as it is. -/
def inflateStored (bs : List Bool) (out : List Byte) : Option (List Bool) × List Byte :=
  match takeLsb 32 (byteAlign bs) with
  | none => (none, out)
  | some (v, bs) =>
    if v % 65536 + v / 65536 != 65535 then (none, out)
    else
      match takeGroups 8 (v % 65536) bs with
      | none => (none, out)
      | some (xs, bs) => (some bs, (xs.map (BitVec.ofNat 8 ·)).reverse ++ out)

/-- Blocks up to the final one. -/
def inflateBlocks (window : Nat) : Nat → List Bool → List Byte → Option (List Bool) × List Byte
  | 0, _, out => (none, out)
  | k + 1, bs, out =>
    match takeLsb 3 bs with
    | none => (none, out)
    | some (v, bs) =>
      let r := match v / 2 with
        | 0 => inflateStored bs out
        | 1 => inflateCodes fixedLit fixedDist window bs.length bs out
        | 2 =>
          match dynamicCodes bs with
          | none => (none, out)
          | some (lit, dist, bs) => inflateCodes lit dist window bs.length bs out
        | _ => (none, out)
      match r.1 with
      | none => (none, r.2)
      | some bs => if v % 2 == 1 then (some bs, r.2) else inflateBlocks window k bs r.2

def adler32 (bs : List Byte) : Nat :=
  let r := bs.foldl (fun s b => ((s.1 + b.toNat) % 65521, (s.2 + s.1 + b.toNat) % 65521)) (1, 0)
  r.2 * 65536 + r.1

/-- Whether a zlib stream is sound, and what it inflates to before it ends or fails. -/
def inflate (bs : List Byte) : Bool × List Byte :=
  let cmf := beAt bs 0 1
  if bs.length < 6 || cmf % 16 != 8 || cmf / 16 > 7 || beAt bs 0 2 % 31 != 0 || natBit (beAt bs 1 1) 5 then (false, [])
  else
    let r := inflateBlocks (2 ^ (8 + cmf / 16)) bs.length (bitsLsb (bs.drop 2)) []
    let out := r.2.reverse
    match r.1 with
    | none => (false, out)
    | some rest =>
      let n := (byteAlign rest).length / 8
      (decide (4 ≤ n) && beAt bs (bs.length - n) 4 == adler32 out, out)

/-! JPEG: tables, and the coefficients of a block in zigzag order. -/

structure JpegComp where
  id : Nat := 0
  h : Nat := 1
  v : Nat := 1
  tq : Nat := 0
  quant : Option (List Nat) := none
  blocks : List (List Int) := []
  deriving DecidableEq, Repr

structure JpegSt where
  dc : Tab (List Nat × List Nat) := []
  ac : Tab (List Nat × List Nat) := []
  quants : Tab (List Nat) := []
  interval : Nat := 0
  progressive : Bool := false
  d0 : Nat := 0
  d1 : Nat := 0
  comps : List JpegComp := []
  works : List Nat := []
  deriving DecidableEq, Repr

/-- One scan: its components' places with their DC and AC tables, its band of coefficients and their bit positions. -/
structure JpegScan where
  parts : List (Nat × Nat × Nat) := []
  ss : Nat := 0
  se : Nat := 63
  ah : Nat := 0
  al : Nat := 0
  deriving DecidableEq, Repr

/-- What decoding a restart interval carries along: the bits left, each component's last DC value, the run of ended bands. -/
structure JpegRun where
  bits : List Bool := []
  preds : Tab Int := []
  eob : Nat := 0
  deriving DecidableEq, Repr

/-- Natural position of each coefficient of a zigzag sequence. -/
def zigzag : List Nat :=
  (List.range 15).flatMap fun d =>
    ((List.range 8).filter fun i => decide (i ≤ d) && decide (d - i < 8)).map fun i => if d % 2 == 1 then i * 8 + (d - i) else (d - i) * 8 + i

/-- A difference or coefficient of `t` bits. -/
def extendBits (t v : Nat) : Int := if t == 0 then 0 else if v < 2 ^ (t - 1) then (v : Int) - (2 ^ t - 1 : Nat) else v

/-- Reads `t` bits as a signed value. -/
def takeSigned (t : Nat) (bs : List Bool) : Option (Int × List Bool) := (takeMsb 0 t bs).map fun r => (extendBits t r.1, r.2)

/-- The DC difference of a block. -/
def readDc (t : List Nat × List Nat) (bs : List Bool) : Option (Int × List Bool) :=
  match symbolOf t bs with
  | none => none
  | some (n, bs) => if n > 11 then none else takeSigned n bs

/-- The coefficients from `k` to `se` of a block, first seen at bit `al`; the answer ends with the run of ended bands. -/
def readAc (t : List Nat × List Nat) (progressive : Bool) (se al : Nat) : Nat → Nat → List Bool → List Int → Option (List Int × Nat × List Bool)
  | 0, _, _, _ => none
  | f + 1, k, bs, blk =>
    if k > se then some (blk, 0, bs)
    else
      match symbolOf t bs with
      | none => none
      | some (rs, bs) =>
        let r := rs / 16
        if rs % 16 == 0 then
          if r == 15 then readAc t progressive se al f (k + 16) bs blk
          else if !progressive then (if r == 0 then some (blk, 0, bs) else none)
          else (takeMsb 0 r bs).map fun e => (blk, 2 ^ r - 1 + e.1, e.2)
        else if k + r > se then none
        else
          match takeSigned (rs % 16) bs with
          | none => none
          | some (v, bs) => readAc t progressive se al f (k + r + 1) bs (blk.set (k + r) (v * 2 ^ al))

/-- Passes from `k` over `r` zero coefficients to the next one, or to the band's end, and refines those that are not zero. -/
def refinePass (se al : Nat) : Nat → Nat → Nat → List Bool → List Int → Option (Nat × List Bool × List Int)
  | 0, k, _, bs, blk => some (k, bs, blk)
  | f + 1, k, r, bs, blk =>
    let c := blk.getD k 0
    if k > se then some (k, bs, blk)
    else if c == 0 then (if r == 0 then some (k, bs, blk) else refinePass se al f (k + 1) (r - 1) bs blk)
    else
      match takeMsb 0 1 bs with
      | none => none
      | some (b, bs) =>
        let d : Int := if b == 1 && !natBit c.natAbs al then (if c < 0 then -(2 ^ al) else 2 ^ al) else 0
        refinePass se al f (k + 1) r bs (blk.set k (c + d))

/-- The coefficients from `k` to `se` of a block, refined by bit `al`. -/
def refineAc (t : List Nat × List Nat) (se al : Nat) : Nat → Nat → Nat → List Bool → List Int → Option (List Int × Nat × List Bool)
  | 0, _, _, _, _ => none
  | f + 1, k, eob, bs, blk =>
    if k > se then some (blk, eob, bs)
    else if eob > 0 then (refinePass se al 64 k 64 bs blk).map fun p => (p.2.2, eob - 1, p.2.1)
    else
      match symbolOf t bs with
      | none => none
      | some (rs, bs) =>
        let r := rs / 16
        if rs % 16 > 1 then none
        else if rs % 16 == 0 && r < 15 then
          match takeMsb 0 r bs with
          | none => none
          | some (e, bs) => refineAc t se al f k (2 ^ r + e) bs blk
        else
          match (if rs % 16 == 1 then takeMsb 0 1 bs else some (0, bs)) with
          | none => none
          | some (sign, bs) =>
            match refinePass se al 64 k r bs blk with
            | none => none
            | some (k, bs, blk) =>
              if rs % 16 == 1 then
                if k > se then none else refineAc t se al f (k + 1) 0 bs (blk.set k (if sign == 1 then 2 ^ al else -(2 ^ al)))
              else refineAc t se al f (k + 1) 0 bs blk

/-- One block of component `ci` in a scan. -/
def jpegBlock (st : JpegSt) (sc : JpegScan) (ci : Nat) (blk : List Int) (run : JpegRun) : Option (List Int × JpegRun) :=
  let p := (sc.parts.find? fun p => p.1 == ci).getD (ci, 0, 0)
  let ac := st.ac.val ([], []) p.2.2
  let dcDone : Option (List Int × JpegRun) :=
    if sc.ss != 0 then some (blk, run)
    else if sc.ah != 0 then
      (takeMsb 0 1 run.bits).map fun b => (blk.set 0 (blk.getD 0 0 + b.1 * 2 ^ sc.al), { run with bits := b.2 })
    else
      (readDc (st.dc.val ([], []) p.2.1) run.bits).map fun d =>
        let v := run.preds.val 0 ci + d.1
        (blk.set 0 (v * 2 ^ sc.al), { run with bits := d.2, preds := run.preds.put ci v })
  match dcDone with
  | none => none
  | some (blk, run) =>
    let k := max 1 sc.ss
    if sc.se == 0 then some (blk, run)
    else if sc.ah != 0 then
      (refineAc ac sc.se sc.al 65 k run.eob run.bits blk).map fun r => (r.1, { run with eob := r.2.1, bits := r.2.2 })
    else if run.eob > 0 then some (blk, { run with eob := run.eob - 1 })
    else (readAc ac st.progressive sc.se sc.al 65 k run.bits blk).map fun r => (r.1, { run with eob := r.2.1, bits := r.2.2 })

/-- The blocks of a restart interval in turn: whether all decode, the components, how many blocks did. -/
def jpegBlocksGo (st : JpegSt) (sc : JpegScan) : List (Nat × Nat) → JpegRun → List JpegComp → Nat → Bool × List JpegComp × Nat
  | [], _, comps, n => (true, comps, n)
  | (ci, bi) :: rest, run, comps, n =>
    let c := comps.getD ci {}
    match jpegBlock st sc ci (c.blocks.getD bi []) run with
    | none => (false, comps, n)
    | some (blk, run) => jpegBlocksGo st sc rest run (comps.set ci { c with blocks := c.blocks.set bi blk }) (n + 1)

/-- Restart intervals in turn, each with its bytes. -/
def jpegIntervals (st : JpegSt) (sc : JpegScan) : List (List (Nat × Nat)) → List (List Byte) → List JpegComp → Nat → Bool × List JpegComp × Nat
  | [], [], comps, n => (true, comps, n)
  | bs :: rest, d :: ds, comps, n =>
    let r := jpegBlocksGo st sc bs { bits := bitsMsb d } comps n
    if r.1 then jpegIntervals st sc rest ds r.2.1 r.2.2 else r
  | _, _, comps, n => (false, comps, n)

/-- Entropy-coded bytes, unstuffed, cut at restart markers in their order; newest first; and the rest from the next marker on. -/
def jpegCut : Nat → List Byte → Nat → List Byte → List (List Byte) → Option (List (List Byte) × List Byte)
  | 0, _, _, _, _ => none
  | _ + 1, [], _, _, _ => none
  | k + 1, b :: bs, rst, cur, acc =>
    if b != 0xFF then jpegCut k bs rst (b :: cur) acc
    else
      match bs with
      | [] => none
      | m :: r =>
        if m == 0 then jpegCut k r rst (0xFF :: cur) acc
        else if m == 0xFF then jpegCut k bs rst cur acc
        else if m.toNat / 8 == 0xD0 / 8 then
          (if m.toNat % 8 == rst % 8 then jpegCut k r (rst + 1) [] (cur.reverse :: acc) else none)
        else some ((cur.reverse :: acc).reverse, 0xFF :: bs)

/-- Blocks of a component across or down a frame of `n` pixels: whole coding units of `most` blocks a side. -/
def jpegBlocks (n own most : Nat) : Nat := cdiv n (8 * most) * own

def JpegSt.most (st : JpegSt) (f : JpegComp → Nat) : Nat := (st.comps.map f).foldl max 1

/-- The coding units of a scan, each the blocks it has: a scan of one component runs block by block over the component alone. -/
def JpegSt.units (st : JpegSt) (sc : JpegScan) : List (List (Nat × Nat)) :=
  let hm := st.most (·.h)
  let vm := st.most (·.v)
  match sc.parts with
  | [(ci, _, _)] =>
    let c := st.comps.getD ci {}
    let across := jpegBlocks st.d1 c.h hm
    let w := cdiv (cdiv (st.d1 * c.h) hm) 8
    let h := cdiv (cdiv (st.d0 * c.v) vm) 8
    (List.range (w * h)).map fun i => [(ci, i / w * across + i % w)]
  | ps =>
    let w := cdiv st.d1 (8 * hm)
    let h := cdiv st.d0 (8 * vm)
    (List.range (w * h)).map fun i => ps.flatMap fun p =>
      let c := st.comps.getD p.1 {}
      (List.range (c.h * c.v)).map fun j => (p.1, (i / w * c.v + j / c.h) * (w * c.h) + (i % w * c.h + j % c.h))

/-- The header of a scan, if it is sound. -/
def JpegSt.scanOf (st : JpegSt) (p : List Byte) : Option JpegScan :=
  let n := beAt p 0 1
  let parts := (List.range n).map fun i =>
    ((st.comps.findIdx? fun c => c.id == beAt p (1 + 2 * i) 1).getD 255, beAt p (2 + 2 * i) 1 / 16, beAt p (2 + 2 * i) 1 % 16)
  let at_ := 1 + 2 * n
  let sc : JpegScan := { parts := parts, ss := beAt p at_ 1, se := beAt p (at_ + 1) 1, ah := beAt p (at_ + 2) 1 / 16, al := beAt p (at_ + 2) 1 % 16 }
  let area := (parts.map fun q => let c := st.comps.getD q.1 {}; c.h * c.v).sum
  let band := if st.progressive then
      (if sc.ss == 0 then sc.se == 0 else n == 1 && decide (sc.ss ≤ sc.se)) && decide (sc.se ≤ 63) && decide (sc.al ≤ 13) && (sc.ah == 0 || sc.ah == sc.al + 1)
    else sc.ss == 0 && sc.se == 63 && sc.ah == 0 && sc.al == 0
  let tables := parts.all fun q => (sc.ss != 0 || sc.ah != 0 || (st.dc.find q.2.1).isSome) && (sc.se == 0 || (st.ac.find q.2.2).isSome)
  if p.length == 4 + 2 * n && n != 0 && parts.all (fun q => decide (q.1 < st.comps.length)) && (parts.map (·.1)).eraseDups.length == n
      && (n == 1 || decide (area ≤ 10)) && band && tables then some sc else none

/-- A scan's quantisation tables are those in force when its component first appears. -/
def JpegSt.seeQuant (st : JpegSt) (sc : JpegScan) : JpegSt :=
  { st with comps := st.comps.mapIdx fun i c =>
      if (sc.parts.any fun p => p.1 == i) && c.quant.isNone then { c with quant := st.quants.find c.tq } else c }

/-- Decodes a scan; the answer holds the bytes after it. -/
def JpegSt.scan (st : JpegSt) (sc : JpegScan) (bs : List Byte) : Option (List Byte) × JpegSt :=
  let st := st.seeQuant sc
  match jpegCut (bs.length + 1) bs 0 [] [] with
  | none => (none, st)
  | some (datas, rest) =>
    let units := st.units sc
    let groups := (if st.interval == 0 then [units] else chunks st.interval units).map List.flatten
    let r := jpegIntervals st sc groups datas st.comps 0
    (if r.1 then some rest else none, { st with comps := r.2.1, works := st.works ++ [r.2.2] })

/-- Quantisation tables of a segment. -/
def JpegSt.putQuants : Nat → List Byte → JpegSt → Option JpegSt
  | 0, p, st => if p.isEmpty then some st else none
  | k + 1, p, st =>
    let w := beAt p 0 1 / 16
    let i := beAt p 0 1 % 16
    if p.isEmpty then some st
    else if w > 1 || i > 3 || p.length < 1 + 64 * (w + 1) then none
    else
      let t := (List.range 64).map fun j => beAt p (1 + (w + 1) * j) (w + 1)
      if t.contains 0 then none else JpegSt.putQuants k (p.drop (1 + 64 * (w + 1))) { st with quants := st.quants.put i t }

/-- Huffman tables of a segment. -/
def JpegSt.putCodes : Nat → List Byte → JpegSt → Option JpegSt
  | 0, p, st => if p.isEmpty then some st else none
  | k + 1, p, st =>
    let cl := beAt p 0 1 / 16
    let i := beAt p 0 1 % 16
    let counts := (List.range 16).map fun j => beAt p (1 + j) 1
    let t := (counts, ((p.drop 17).take counts.sum).map (·.toNat))
    if p.isEmpty then some st
    else if cl > 1 || i > 3 || p.length < 17 + counts.sum || codeSpace counts 1 == none then none
    else JpegSt.putCodes k (p.drop (17 + counts.sum)) (if cl == 0 then { st with dc := st.dc.put i t } else { st with ac := st.ac.put i t })

/-- The components of a frame header. -/
def JpegSt.frame (st : JpegSt) (m : Nat) (p : List Byte) : JpegSt :=
  let n := beAt p 5 1
  let cs : List JpegComp := (List.range n).map fun i =>
    let hv := if n == 1 then 0x11 else beAt p (7 + 3 * i) 1
    { id := beAt p (6 + 3 * i) 1, h := hv / 16, v := hv % 16, tq := beAt p (8 + 3 * i) 1 }
  let st := { st with progressive := m == 0xC2, d0 := beAt p 1 2, d1 := beAt p 3 2, comps := cs }
  { st with comps := cs.map fun c => { c with
      blocks := List.replicate (jpegBlocks st.d1 c.h (st.most (·.h)) * jpegBlocks st.d0 c.v (st.most (·.v))) (List.replicate 64 0) } }

/-- Segments and scans up to the end of the image: whether all are sound. -/
def jpegSegments : Nat → List Byte → JpegSt → Bool × JpegSt
  | 0, _, st => (false, st)
  | k + 1, bs, st =>
    let m := beAt bs 1 1
    let n := beAt bs 2 2
    let p := (bs.drop 4).take (n - 2)
    let rest := bs.drop (n + 2)
    let go (o : Option JpegSt) : Bool × JpegSt := match o with | some st => jpegSegments k rest st | none => (false, st)
    if bs.length < 2 || beAt bs 0 1 != 0xFF then (false, st)
    else if m == 0xFF then jpegSegments k (bs.drop 1) st
    else if m == 0xD9 then (!st.works.isEmpty && st.comps.all fun c => c.quant.isSome, st)
    else if n < 2 || bs.length < n + 2 || m < 0xC0 || (0xD0 ≤ m && m ≤ 0xD8) then (false, st)
    else if m == 0xDB then go (JpegSt.putQuants 4 p st)
    else if m == 0xC4 then go (JpegSt.putCodes 8 p st)
    else if m == 0xDD then (if p.length == 2 then go (some { st with interval := beAt p 0 2 }) else (false, st))
    else if m == 0xDA then
      match st.scanOf p with
      | none => (false, st)
      | some sc =>
        match st.scan sc rest with
        | (none, st) => (false, st)
        | (some rest, st) => jpegSegments k rest st
    else if m == 0xC0 || m == 0xC1 || m == 0xC2 then (if st.comps.isEmpty then go (some (st.frame m p)) else (false, st))
    else if m ≤ 0xCF && m != 0xCC then (false, st)
    else go (some st)

/-- Whether all data of an image decode, the blocks decoded in each scan, and each component's dequantised coefficients, block by
block in natural order. -/
def jpegScans (bs : List Byte) : Bool × List Nat × List (List Int) :=
  let r := jpegSegments bs.length (bs.drop 2) {}
  (r.1, r.2.works, r.2.comps.map fun c => c.blocks.flatMap fun b =>
    (List.range 64).map fun i => let z := zigzag.idxOf i; b.getD z 0 * ((c.quant.getD []).getD z 0 : Nat))

/-! FLAC. -/

/-- A CRC of `w` bits, most significant bit first, from zero. -/
def crcMsb (w poly : Nat) (bs : List Byte) : Nat :=
  (bitsMsb bs).foldl (fun c b => let top := natBit c (w - 1) != b; (c * 2 % 2 ^ w) ^^^ (if top then poly else 0)) 0

/-- Zeros up to the first one. -/
def takeUnary : List Bool → Option (Nat × List Bool)
  | [] => none
  | true :: bs => some (0, bs)
  | false :: bs => (takeUnary bs).map fun r => (r.1 + 1, r.2)

/-- `n` signed numbers of `w` bits. -/
def takeInts (w : Nat) : Nat → List Bool → Option (List Int × List Bool)
  | 0, bs => some ([], bs)
  | n + 1, bs =>
    match takeMsb 0 w bs with
    | none => none
    | some (v, bs) => (takeInts w n bs).map fun r => ((if w == 0 then 0 else signedOf w v) :: r.1, r.2)

/-- `n` Rice codes of parameter `k`. -/
def takeRice (k : Nat) : Nat → List Bool → Option (List Int × List Bool)
  | 0, bs => some ([], bs)
  | n + 1, bs =>
    match takeUnary bs with
    | none => none
    | some (q, bs) =>
      match takeMsb q k bs with
      | none => none
      | some (v, bs) => (takeRice k n bs).map fun r => ((if v % 2 == 0 then ((v / 2 : Nat) : Int) else -((v / 2 + 1 : Nat) : Int)) :: r.1, r.2)

/-- The partitions of a residual, of these lengths. -/
def ricePartitions (pw : Nat) : List Nat → List Bool → Option (List Int × List Bool)
  | [], bs => some ([], bs)
  | n :: ns, bs =>
    match takeMsb 0 pw bs with
    | none => none
    | some (k, bs) =>
      let part := if k == 2 ^ pw - 1 then (match takeMsb 0 5 bs with | none => none | some (w, bs) => takeInts w n bs) else takeRice k n bs
      match part with
      | none => none
      | some (xs, bs) => (ricePartitions pw ns bs).map fun r => (xs ++ r.1, r.2)

/-- The residual of a subframe of `size` samples after `order` warm-up ones. -/
def flacResidual (size order : Nat) (bs : List Bool) : Option (List Int × List Bool) :=
  match takeMsb 0 6 bs with
  | none => none
  | some (v, bs) =>
    let po := 2 ^ (v % 16)
    if v / 16 > 1 || size % po != 0 || size / po < order then none
    else ricePartitions (4 + v / 16) ((size / po - order) :: List.replicate (po - 1) (size / po)) bs

/-- Samples from residuals by prediction; newest first. -/
def flacPredict (coefs : List Int) (shift : Nat) : List Int → List Int → List Int
  | [], out => out
  | r :: rs, out =>
    let p := ((coefs.zip out).map fun q => q.1 * q.2).sum / (2 ^ shift : Nat)
    flacPredict coefs shift rs ((r + p) :: out)

def fixedCoefs (order : Nat) : List Int := [[], [1], [2, -1], [3, -3, 1], [4, -6, 4, -1]].getD order []

/-- A predicted subframe: warm-up samples, then coefficients where it has its own, then the residual. -/
def flacPredicted (size bps order : Nat) (own : Bool) (bs : List Bool) : Option (List Int × List Bool) :=
  if order > size then none
  else
    match takeInts bps order bs with
    | none => none
    | some (warm, bs) =>
      let cs : Option ((List Int × Nat) × List Bool) :=
        if !own then some ((fixedCoefs order, 0), bs)
        else
          match takeMsb 0 9 bs with
          | none => none
          | some (v, bs) => if v / 32 == 15 || v % 32 ≥ 16 then none else (takeInts (v / 32 + 1) order bs).map fun r => ((r.1, v % 32), r.2)
      match cs with
      | none => none
      | some (c, bs) => (flacResidual size order bs).map fun r => ((flacPredict c.1 c.2 r.1 warm.reverse).reverse, r.2)

/-- A subframe of `size` samples of `bps` bits. -/
def flacSubframe (size bps : Nat) (bs : List Bool) : Option (List Int × List Bool) :=
  match takeMsb 0 8 bs with
  | none => none
  | some (v, bs) =>
    let ty := v / 2 % 64
    match (if v % 2 == 1 then (takeUnary bs).map fun r => (r.1 + 1, r.2) else some (0, bs)) with
    | none => none
    | some (wasted, bs) =>
      let b := bps - wasted
      let r := if ty == 0 then (takeInts b 1 bs).map fun r => (List.replicate size (r.1.headD 0), r.2)
        else if ty == 1 then takeInts b size bs
        else if 8 ≤ ty && ty ≤ 12 then flacPredicted size b (ty - 8) false bs
        else if ty ≥ 32 then flacPredicted size b (ty - 31) true bs
        else none
      if v ≥ 128 || wasted ≥ bps then none else r.map fun r => (r.1.map (· * 2 ^ wasted), r.2)

def flacSubframes (size : Nat) : List Nat → List Bool → Option (List (List Int) × List Bool)
  | [], bs => some ([], bs)
  | b :: r, bs =>
    match flacSubframe size b bs with
    | none => none
    | some (xs, bs) => (flacSubframes size r bs).map fun q => (xs :: q.1, q.2)

/-- Channels from how a frame's two were coded. -/
def flacJoin (asg : Nat) (chs : List (List Int)) : List (List Int) :=
  let a := chs.getD 0 []
  let b := chs.getD 1 []
  match asg with
  | 8 => [a, a.zipWith (· - ·) b]
  | 9 => [a.zipWith (· + ·) b, b]
  | 10 =>
    let mid (p : Int × Int) : Int := 2 * p.1 + p.2 % 2
    [(a.zip b).map fun p => (mid p + p.2) / 2, (a.zip b).map fun p => (mid p - p.2) / 2]
  | _ => chs

/-- Bytes of a frame's coded number by its first byte; none where it is no number. -/
def flacNumLen (b : Nat) : Option Nat :=
  if b < 0x80 then some 1 else if b < 0xC0 then none else if b < 0xE0 then some 2 else if b < 0xF0 then some 3 else if b < 0xF8 then some 4
  else if b < 0xFC then some 5 else if b < 0xFE then some 6 else if b == 0xFE then some 7 else none

/-- One frame of `ch` channels of `depth` bits: its channels, and its length in bytes. -/
def flacFrame (ch depth : Nat) (bs : List Byte) : Option (List (List Int) × Nat) :=
  match flacNumLen (beAt bs 4 1) with
  | none => none
  | some nl =>
    let bc := beAt bs 2 1 / 16
    let rc := beAt bs 2 1 % 16
    let asg := beAt bs 3 1 / 16
    let dc := beAt bs 3 1 / 2 % 8
    let at1 := 4 + nl
    let n1 := if bc == 6 then 1 else if bc == 7 then 2 else 0
    let at2 := at1 + n1 + (if rc == 12 then 1 else if rc == 13 || rc == 14 then 2 else 0)
    let size := match bc with
      | 0 => 0
      | 1 => 192
      | 6 => beAt bs at1 1 + 1
      | 7 => beAt bs at1 2 + 1
      | c => if c < 6 then 144 * 2 ^ c else 2 ^ c
    let nch := if asg < 8 then asg + 1 else 2
    let bps := [depth, 8, 12, 0, 16, 20, 24, 32].getD dc 0
    let side (i : Nat) : Nat := if (asg == 8 && i == 1) || (asg == 9 && i == 0) || (asg == 10 && i == 1) then bps + 1 else bps
    if bs.length < at2 + 1 || beAt bs 0 2 / 2 != 0x7FFC || rc == 15 || size == 0 || asg > 10 || beAt bs 3 1 % 2 != 0 || nch != ch || bps != depth
        || (((bs.drop 5).take (nl - 1)).any fun b => b.toNat / 64 != 2) || crcMsb 8 0x07 (bs.take at2) != beAt bs at2 1 then none
    else
      match flacSubframes size ((List.range nch).map side) (bitsMsb (bs.drop (at2 + 1))) with
      | none => none
      | some (chs, rest) =>
        let n := bs.length - rest.length / 8
        if bs.length < n + 2 || crcMsb 16 0x8005 (bs.take n) != beAt bs n 2 then none else some (flacJoin asg chs, n + 2)

/-- Frames up to the end: whether all decode, and the samples of each channel. -/
def flacGo (ch depth : Nat) : Nat → List Byte → List (List Int) → Bool × List (List Int)
  | 0, bs, out => (bs.isEmpty, out)
  | k + 1, bs, out =>
    if bs.isEmpty then (true, out)
    else
      match flacFrame ch depth bs with
      | none => (false, out)
      | some (chs, n) => flacGo ch depth k (bs.drop n) (out.zipWith (· ++ ·) chs)

/-- Metadata blocks up to the last: where the frames begin. -/
def flacStart : Nat → List Byte → Option (List Byte)
  | 0, _ => none
  | k + 1, bs =>
    let n := beAt bs 1 3
    let t := beAt bs 0 1
    if bs.length < 4 + n || t % 128 == 127 then none else if t ≥ 128 then some (bs.drop (4 + n)) else flacStart k (bs.drop (4 + n))

/-- The frames of a FLAC stream. -/
def flacFrames (bs : List Byte) : Bool × List (List Int) :=
  let v := beAt bs 18 8
  let ch := v / 2 ^ 41 % 8 + 1
  match flacStart bs.length (bs.drop 4) with
  | none => (false, [])
  | some fs => flacGo ch (v / 2 ^ 36 % 32 + 1) fs.length fs (List.replicate ch [])

end Sys2Proof.Machine
end

