-- ==== Sys2Proof/Machine/Decoder.lean ====
section
/-! DEFINITION. Mandoline's decoders (R259, R260): what a sample's headers declare, and the values and the work that its bytes give.
Containers and headers are read byte by byte; entropy-coded data by Codec.lean, but for Opus (`Config`, assumption log 14). -/
namespace Sys2Proof.Machine

/-! Closing statuses (R272). -/

def stOk : Nat := 0
def stIncomplete : Nat := 1
def stFormat : Nat := 2
def stProfile : Nat := 3
def stPixels : Nat := 4
def stRatio : Nat := 5
def stPool : Nat := 6
def stDrop : Nat := 7
def stUtf8 : Nat := 8
def stOvf : Nat := 9

/-- ASCII text at a byte offset. -/
def textAt (bs : List Byte) (i : Nat) (cs : List Char) : Bool := (bs.drop i).take cs.length == cs.map fun c => BitVec.ofNat 8 c.toNat

/-! JPEG. -/

/-- A frame header: SOF0, SOF1 and SOF2 are accepted; what it declares stands where its profile is refused, too (R272). A frame of one
component is not subsampled. -/
def jpegFrame (marker : Nat) (p : List Byte) : Nat × MediaHdr :=
  let nf := beAt p 5 1
  let sides := (List.range nf).map fun i => (beAt p (7 + 3 * i) 1 / 16, beAt p (7 + 3 * i) 1 % 16)
  let comps := if nf == 1 then [(1, 1)] else sides
  let mx (f : Nat × Nat → Nat) : Nat := (comps.map f).foldl max 1
  let d0 := beAt p 1 2
  let d1 := beAt p 3 2
  let blocks := (comps.map fun c => jpegBlocks d1 c.1 (mx (·.1)) * jpegBlocks d0 c.2 (mx (·.2))).sum
  let ids := (List.range nf).map fun i => beAt p (6 + 3 * i) 1
  let h : MediaHdr := { d0 := d0, d1 := d1, channels := nf, comps := comps,
                        workMem := (Config.workMem 1 d0 d1 nf 8).toNat + (if marker == 0xC2 then 2 * 64 * blocks else 0) }
  let bits := beAt p 0 1
  if p.length != 6 + 3 * nf || nf == 0 || sides.any (fun c => c.1 == 0 || c.2 == 0 || c.1 > 4 || c.2 > 4) || ids.eraseDups.length != nf
      || (List.range nf).any (fun i => beAt p (8 + 3 * i) 1 > 3) || (marker == 0xC0 && bits != 8) || (marker == 0xC2 && nf > 4)
      || (marker ≤ 0xC2 && bits != 8 && bits != 12) then (stFormat, {})
  else if marker > 0xC2 || bits != 8 || (nf != 1 && nf != 3) || sides.any (fun c => c.1 > 2 || c.2 > 2) then (stProfile, h)
  else (stOk, h)

/-- Segments up to the frame header; data or the end before it are malformed. -/
def jpegWalk : Nat → List Byte → Nat × MediaHdr
  | 0, _ => (stFormat, {})
  | k + 1, bs =>
    let m := beAt bs 1 1
    let n := beAt bs 2 2
    if bs.length < 4 || beAt bs 0 1 != 0xFF then (stFormat, {})
    else if m == 0xFF then jpegWalk k (bs.drop 1)
    else if n < 2 || bs.length < n + 2 || m < 0xC0 || (0xD0 ≤ m && m ≤ 0xDA) then (stFormat, {})
    else if m == 0xDE || m == 0xC8 then (stProfile, {})
    else if m ≤ 0xCF && m != 0xC4 && m != 0xCC then jpegFrame m ((bs.drop 4).take (n - 2))
    else jpegWalk k (bs.drop (n + 2))

def jpegHdr (bs : List Byte) : Nat × MediaHdr := if beAt bs 0 2 == 0xFFD8 then jpegWalk bs.length (bs.drop 2) else (stFormat, {})

/-- Rows of eight, and columns of eight as rows. -/
def turn8 (xs : List (BitVec 32)) : List (BitVec 32) := (List.range 64).map fun i => xs.getD (i % 8 * 8 + i / 8) 0

/-- One FP32 operation, rounded to nearest even. -/
def fpStep (vs : List (BitVec 32)) (t : FpStep) : BitVec 32 :=
  let x := vs.getD t.a 0
  let y := if t.op < 3 then vs.getD t.b 0 else t.k
  match t.op % 3 with
  | 0 => add32 x y
  | 1 => sub32 x y
  | _ => mul32 x y

/-- The transform of 8 values by the fixed procedure's operations. -/
def idct8 (col : Bool) (xs : List (BitVec 32)) : List (BitVec 32) :=
  let vs := (Config.idctSteps col).foldl (fun vs t => vs ++ [fpStep vs t]) xs
  (List.range 8).map fun i => vs.getD ((Config.idctResults col).getD i 0) 0

/-- The nearest whole number, held to 0 to 255. -/
def byteOf32 (x : BitVec 32) : Nat := min 255 ((natOf true x).getD 0)

/-- A value as the nearest of 0 to 255. -/
def toByte32 (x : BitVec 32) : BitVec 32 := f32Nat (byteOf32 x)

/-- 2^30 cos(k pi / 16). -/
def cos16 (k : Nat) : Int :=
  let q : List Int := [1073741824, 1053110176, 992008094, 892783698, 759250125, 596538995, 410903207, 209476638, 0]
  let j := k % 32
  let j := if j > 16 then 32 - j else j
  if j ≤ 8 then q.getD j 0 else -(q.getD (16 - j) 0)

/-- 2^31 times ISO/IEC 10918-1's transform of 8 values. -/
def exact8 (xs : List Int) : List Int :=
  (List.range 8).map fun x => ((List.range 8).map fun u => (if u == 0 then 759250125 else cos16 ((2 * x + 1) * u)) * xs.getD u 0).sum

/-- The samples that ISO/IEC 10918-1's inverse transform of a block gives, level shift and clamp with it. -/
def exactBlock (zs : List Int) : List Nat :=
  let rows := (chunks 8 zs).flatMap exact8
  let turn (ys : List Int) : List Int := (List.range 64).map fun i => ys.getD (i % 8 * 8 + i / 8) 0
  let all := turn ((chunks 8 (turn rows)).flatMap exact8)
  all.map fun v => min 255 ((v + 257 * 2 ^ 61) / 2 ^ 62).toNat

/-- The inverse transform of a block, row by row and column by column, and the level shift; each sample within one unit of the
standard's (R260). -/
def idctBlock (zs : List Int) : List (BitVec 32) :=
  let pass (col : Bool) (ys : List (BitVec 32)) : List (BitVec 32) :=
    let go (zs : List (BitVec 32)) : List (BitVec 32) := (chunks 8 zs).flatMap (idct8 col)
    if col then turn8 (go (turn8 ys)) else go ys
  let first := Config.idctColumnsFirst
  let mine := (pass (!first) (pass first (zs.map fun z => rat32 z 1))).map fun x => add32 x (f32Nat 128)
  (mine.zip (exactBlock zs)).map fun p =>
    if byteOf32 p.1 ≤ p.2 + 1 && p.2 ≤ byteOf32 p.1 + 1 then p.1 else f32Nat p.2

/-- RGB by the equations of ITU-T T.871, each operation rounded as they are written. -/
def rgbOf (y cb cr : BitVec 32) : List (BitVec 32) :=
  let b := sub32 cb (f32Nat 128)
  let r := sub32 cr (f32Nat 128)
  let k (p : Nat) : BitVec 32 := rat32 p 1000
  let g := add32 (mul32 (mul32 (k 114) (k 1772)) b) (mul32 (mul32 (k 299) (k 1402)) r)
  [add32 y (mul32 (k 1402) r), sub32 y (div32 g (k 587)), add32 y (mul32 (k 1772) b)].map toByte32

/-- A component's plane at full size. -/
def jpegPlane (h : MediaHdr) (c : Nat × Nat) (coefs : List Int) : List (BitVec 32) :=
  let mx (f : Nat × Nat → Nat) : Nat := (h.comps.map f).foldl max 1
  let across := jpegBlocks h.d1 c.1 (mx (·.1))
  let blocks := (chunks 64 coefs).map idctBlock
  let at_ (r k : Nat) : BitVec 32 := (blocks.getD (r / 8 * across + k / 8) []).getD (r % 8 * 8 + k % 8) 0
  let rows := 8 * jpegBlocks h.d0 c.2 (mx (·.2))
  let plane := (List.range rows).flatMap fun r => (List.range (8 * across)).map fun k => at_ r k
  if c.1 == mx (·.1) && c.2 == mx (·.2) then (List.range h.d0).flatMap fun r => (List.range h.d1).map fun k => at_ r k
  else Config.chromaUp h.d0 h.d1 (mx (·.1) / c.1) (mx (·.2) / c.2) plane

def jpegOut (h : MediaHdr) (bs : List Byte) : MediaOut :=
  let r := jpegScans bs
  let planes := h.comps.mapIdx fun i c => jpegPlane h c (r.2.2.getD i [])
  let at_ (i n : Nat) : BitVec 32 := (planes.getD i []).getD n 0
  { ok := r.1, work := r.2.1.sum, d0 := h.d0, d1 := h.d1, channels := h.channels
    values := (List.range (h.d0 * h.d1)).flatMap fun n =>
      if h.channels == 3 then rgbOf (at_ 0 n) (at_ 1 n) (at_ 2 n) else [toByte32 (at_ 0 n)] }

/-! PNG. -/

/-- A critical chunk's kind: 0 IHDR, 1 PLTE, 2 IDAT, 3 another; none for an ancillary chunk. -/
def pngCritical (ty : List Byte) : Option Nat :=
  if textAt ty 0 ['I', 'H', 'D', 'R'] then some 0
  else if textAt ty 0 ['P', 'L', 'T', 'E'] then some 1
  else if textAt ty 0 ['I', 'D', 'A', 'T'] then some 2
  else if bitOf ((ty.headD 0).setWidth 64) 5 then none else some 3

/-- Chunks up to IEND, each a type and data: whether all have sound CRCs. -/
def pngChunks : Nat → List Byte → List (List Byte × List Byte) × Bool
  | 0, _ => ([], false)
  | k + 1, bs =>
    let n := beAt bs 0 4
    let ty := (bs.drop 4).take 4
    let data := (bs.drop 8).take n
    if bs.length < 12 + n || (crc32 (ty ++ data)).toNat != beAt bs (8 + n) 4 then ([], false)
    else if textAt ty 0 ['I', 'E', 'N', 'D'] then ([], n == 0)
    else let r := pngChunks k (bs.drop (12 + n)); ((ty, data) :: r.1, r.2)

/-- Whether the chunks stand as ISO/IEC 15948 orders them: each critical one known, IHDR once and first, one palette at most, of sound
length, before the data and for no grey image, none missing where it is needed; the data's chunks in a row. -/
def pngOrder (ct depth : Nat) (cs : List (List Byte × List Byte)) : Bool :=
  let ks := cs.map fun c => pngCritical c.1
  let palettes := (cs.filter fun c => pngCritical c.1 == some 1).map (·.2.length)
  let from_ := ks.dropWhile (· != some 2)
  let datas := from_.takeWhile (· == some 2)
  ks.head? == some (some 0) && ks.count (some 0) == 1 && ks.count (some 3) == 0 && palettes.length ≤ 1
    && palettes.all (fun n => n % 3 == 0 && 3 ≤ n && n ≤ 768 && (ct != 3 || n ≤ 3 * 2 ^ depth))
    && (ct != 3 || palettes.length == 1) && ((ct != 0 && ct != 4) || palettes.isEmpty)
    && !from_.contains (some 1) && !datas.isEmpty && !(from_.drop datas.length).contains (some 2)

def pngSignature : Nat := 0x89504E470D0A1A0A

/-- The bit depths of a colour type, its channels in the file and those delivered. -/
def pngType (ct : Nat) : List Nat × Nat × Nat :=
  match ct with
  | 0 => ([1, 2, 4, 8, 16], 1, 1)
  | 2 => ([8, 16], 3, 3)
  | 3 => ([1, 2, 4, 8], 1, 3)
  | 4 => ([8, 16], 2, 1)
  | 6 => ([8, 16], 4, 3)
  | _ => ([], 0, 0)

/-- IHDR stands first; its data from byte 16. -/
def pngHdr (bs : List Byte) : Nat × MediaHdr :=
  let depth := beAt bs 24 1
  let t := pngType (beAt bs 25 1)
  let d0 := beAt bs 20 4
  let d1 := beAt bs 16 4
  if bs.length < 33 || beAt bs 0 8 != pngSignature || beAt bs 8 4 != 13 || !textAt bs 12 ['I', 'H', 'D', 'R']
      || (crc32 ((bs.drop 12).take 17)).toNat != beAt bs 29 4 || !t.1.contains depth || beAt bs 26 2 != 0 || beAt bs 28 1 > 1
  then (stFormat, {})
  else (stOk, { jpeg := false, d0 := d0, d1 := d1, channels := t.2.2, depth := depth, workMem := (Config.workMem 2 d0 d1 t.2.2 depth).toNat })

/-- The Paeth predictor. -/
def paeth (a b c : Nat) : Nat :=
  let p : Int := (a : Int) + b - c
  let d (x : Nat) : Nat := (p - x).natAbs
  if d a ≤ d b && d a ≤ d c then a else if d b ≤ d c then b else c

/-- One scanline unfiltered, newest byte first; `up` the line above as far as it has been passed, newest first. -/
def unfilter (ft bpp : Nat) : List Byte → List Byte → List Byte → List Byte → List Byte
  | _, [], _, out => out
  | prev, x :: xs, up, out =>
    let a := (out.getD (bpp - 1) 0).toNat
    let b := (prev.headD 0).toNat
    let c := (up.getD (bpp - 1) 0).toNat
    let p := match ft with | 0 => 0 | 1 => a | 2 => b | 3 => (a + b) / 2 | _ => paeth a b c
    unfilter ft bpp (prev.drop 1) xs (prev.headD 0 :: up) (BitVec.ofNat 8 (x.toNat + p) :: out)

/-- Scanlines of `len` bytes, each after its filter type; none where a type is unknown or data run out. -/
def pngRows (bpp len : Nat) : Nat → List Byte → List Byte → Option (List (List Byte) × List Byte)
  | 0, _, bs => some ([], bs)
  | n + 1, prev, bs =>
    let ft := beAt bs 0 1
    if bs.length < 1 + len || ft > 4 then none
    else
      let row := (unfilter ft bpp prev ((bs.drop 1).take len) [] []).reverse
      (pngRows bpp len n row (bs.drop (1 + len))).map fun r => (row :: r.1, r.2)

/-- Passes as first column, first row and steps. -/
def pngPasses (interlaced : Bool) : List (Nat × Nat × Nat × Nat) :=
  if interlaced then [(0, 0, 8, 8), (4, 0, 8, 8), (0, 4, 4, 8), (2, 0, 4, 4), (0, 2, 2, 4), (1, 0, 2, 2), (0, 1, 1, 2)] else [(0, 0, 1, 1)]

/-- The scanlines of each pass. -/
def pngPassRows (h : MediaHdr) (bits : Nat) : List (Nat × Nat × Nat × Nat) → List Byte → Option (List (List (List Byte)))
  | [], _ => some []
  | p :: ps, bs =>
    let w := cdiv (h.d1 - p.1) p.2.2.1
    let n := if w == 0 then 0 else cdiv (h.d0 - p.2.1) p.2.2.2
    match pngRows (max 1 (bits / 8)) (cdiv (w * bits) 8) n [] bs with
    | none => none
    | some r => (pngPassRows h bits ps r.2).map fun q => r.1 :: q

/-- Sample `k` of a scanline. -/
def pngSample (depth k : Nat) (row : List Byte) : Nat :=
  if depth == 16 then beAt row (2 * k) 2
  else if depth == 8 then beAt row k 1
  else beAt row (k * depth / 8) 1 / 2 ^ (8 - depth - k * depth % 8) % 2 ^ depth

/-- A value as 8 bits: 16 by RNE(v / 257), fewer by the whole multiple. -/
def to8 (depth v : Nat) : Nat := if depth == 16 then (2 * v + 257) / 514 else v * 255 / (2 ^ depth - 1)

/-- A pixel's delivered channels; none where its palette has no such entry. -/
def pngPixel (ct depth : Nat) (plte row : List Byte) (c : Nat) : Option (List Nat) :=
  let n := (pngType ct).2.1
  if ct == 3 then
    let i := pngSample depth c row
    if 3 * i + 3 ≤ plte.length then some ((List.range 3).map fun k => beAt plte (3 * i + k) 1) else none
  else some ((List.range (pngType ct).2.2).map fun k => to8 depth (pngSample depth (n * c + k) row))

def pngOut (h : MediaHdr) (bs : List Byte) : MediaOut :=
  let cs := pngChunks bs.length (bs.drop 8)
  let data := (cs.1.filter fun c => textAt c.1 0 ['I', 'D', 'A', 'T']).flatMap (·.2)
  let plte := ((cs.1.find? fun c => textAt c.1 0 ['P', 'L', 'T', 'E']).map (·.2)).getD []
  let ct := beAt bs 25 1
  let z := inflate data
  let passes := pngPasses (beAt bs 28 1 == 1)
  let base : MediaOut := { ok := false, work := cdiv z.2.length 64, d0 := h.d0, d1 := h.d1, channels := h.channels }
  if !cs.2 || !pngOrder ct h.depth cs.1 || !z.1 then base
  else
    match pngPassRows h ((pngType ct).2.1 * h.depth) passes z.2 with
    | none => base
    | some rows =>
      let px (r c : Nat) : Option (List Nat) :=
        match passes.findIdx? fun p => p.1 ≤ c && p.2.1 ≤ r && (c - p.1) % p.2.2.1 == 0 && (r - p.2.1) % p.2.2.2 == 0 with
        | none => none
        | some i =>
          let p := passes.getD i (0, 0, 1, 1)
          pngPixel ct h.depth plte ((rows.getD i []).getD ((r - p.2.1) / p.2.2.2) []) ((c - p.1) / p.2.2.1)
      let all := (List.range (h.d0 * h.d1)).map fun n => px (n / max 1 h.d1) (n % max 1 h.d1)
      { base with ok := all.all Option.isSome, values := all.flatMap fun o => (o.getD []).map f32Nat }

/-! Audio: an output's values plane by plane, its work 64 samples of a channel. -/

def audioWork (ch n : Nat) : Nat := ch * cdiv n 64

/-- Whether an FP32 value lies in [-1, 1). -/
def audioFits (x : BitVec 32) : Bool :=
  (f32Val x).lt (.fin false 1 0) && ((Val.fin true 1 0).lt (f32Val x) || (Val.fin true 1 0).eqv (f32Val x))

/-- A value of an audio sample as it is delivered, in [-1, 1) (R259). -/
def audioVal (x : BitVec 32) : BitVec 32 :=
  if audioFits x then x else if audioFits (Config.audioClip x) then Config.audioClip x else 0

/-- An integer sample of `bits`. -/
def audioInt (bits : Nat) (z : Int) : BitVec 32 := audioVal (rat32 z (2 ^ (bits - 1)))

/-- RIFF chunks: the first of a name, its data as far as they are there, and its stated length. -/
def riffFind (name : List Char) : Nat → List Byte → Option (List Byte × Nat)
  | 0, _ => none
  | k + 1, bs =>
    let n := leAt bs 4 4
    if bs.length < 8 then none
    else if textAt bs 0 name then some ((bs.drop 8).take n, n)
    else riffFind name k (bs.drop (8 + n + n % 2))

def wavFmt (bs : List Byte) : Option (List Byte) := (riffFind ['f', 'm', 't', ' '] bs.length (bs.drop 12)).map (·.1)
def wavData (bs : List Byte) : Option (List Byte × Nat) := riffFind ['d', 'a', 't', 'a'] bs.length (bs.drop 12)

/-- The coding of a WAV file; an extensible one names it later. -/
def wavTag (f : List Byte) : Nat := if leAt f 0 2 == 0xFFFE then leAt f 24 2 else leAt f 0 2

def wavHdr (bs : List Byte) : Nat × MediaHdr :=
  if !textAt bs 0 ['R', 'I', 'F', 'F'] || !textAt bs 8 ['W', 'A', 'V', 'E'] then (stFormat, {})
  else
    match wavFmt bs, wavData bs with
    | some f, some d =>
      let ch := leAt f 2 2
      let bits := leAt f 14 2
      let n := d.2 / (ch * (bits / 8))
      let h : MediaHdr := { image := false, jpeg := false, d0 := n, d1 := ch, channels := ch, depth := bits, rate := leAt f 4 4,
                            workMem := (Config.workMem 4 n 1 ch bits).toNat }
      if f.length < 16 || ch == 0 then (stFormat, {})
      else if !((wavTag f == 1 && [8, 16, 24, 32].contains bits) || (wavTag f == 3 && bits == 32)) then (stProfile, h)
      else (stOk, h)
    | _, _ => (stFormat, {})

def wavOut (h : MediaHdr) (bs : List Byte) : MediaOut :=
  let f := (wavFmt bs).getD []
  let d := ((wavData bs).getD ([], 0)).1
  let b := h.depth / 8
  let have_ := d.length / (max 1 (h.channels * b))
  let val (c i : Nat) : BitVec 32 :=
    let v := leAt d ((i * h.channels + c) * b) b
    if wavTag f == 3 then audioVal (BitVec.ofNat 32 v)
    else audioInt h.depth (if h.depth == 8 then (v : Int) - 128 else signedOf h.depth v)
  { ok := h.d0 ≤ have_, work := audioWork h.channels (min h.d0 have_), d0 := h.d0, d1 := h.channels, channels := h.channels, rate := h.rate
    values := (List.range h.channels).flatMap fun c => (List.range h.d0).map fun i => val c i }

/-- STREAMINFO stands first. -/
def flacHdr (bs : List Byte) : Nat × MediaHdr :=
  let v := beAt bs 18 8
  let ch := v / 2 ^ 41 % 8 + 1
  let depth := v / 2 ^ 36 % 32 + 1
  let n := v % 2 ^ 36
  let h : MediaHdr := { image := false, jpeg := false, declared := n != 0, d0 := n, d1 := ch, channels := ch, depth := depth,
                        rate := v / 2 ^ 44, workMem := (Config.workMem 5 n 1 ch depth).toNat }
  if bs.length < 42 || !textAt bs 0 ['f', 'L', 'a', 'C'] || beAt bs 4 1 % 128 != 0 || beAt bs 5 3 != 34 then (stFormat, {})
  else if depth < 8 || depth > 24 then (stProfile, h)
  else (stOk, h)

/-- The planes of an audio output; the length is the first plane's. -/
def planesOut (h : MediaHdr) (ok : Bool) (ps : List (List (BitVec 32))) : MediaOut :=
  let n := (ps.headD []).length
  { ok := ok && ps.length == h.channels && ps.all (fun p => p.length == n) && (!h.declared || n == h.d0)
    work := audioWork h.channels n, d0 := n, d1 := h.channels, channels := h.channels, rate := h.rate, values := ps.flatten }

def flacOut (h : MediaHdr) (bs : List Byte) : MediaOut :=
  let r := flacFrames bs
  planesOut h r.1 (r.2.map fun p => p.map (audioInt h.depth))

/-- OpusHead in the first Ogg page. -/
def opusHdr (bs : List Byte) : Nat × MediaHdr :=
  let p := bs.drop (27 + beAt bs 26 1)
  let ch := beAt p 9 1
  if !textAt bs 0 ['O', 'g', 'g', 'S'] || !textAt p 0 ['O', 'p', 'u', 's', 'H', 'e', 'a', 'd'] || p.length < 19 || ch == 0 then (stFormat, {})
  else
    let h : MediaHdr := { image := false, jpeg := false, declared := false, d1 := ch, channels := ch, depth := 32, rate := 48000,
                          workMem := (Config.workMem 6 0 1 ch 32).toNat }
    if beAt p 18 1 != 0 then (stProfile, h) else if ch > 2 then (stFormat, {}) else (stOk, h)

def opusOut (h : MediaHdr) (bs : List Byte) : MediaOut :=
  let r := Config.opusPackets bs
  planesOut h r.1 (r.2.map fun p => p.map audioVal)

/-! Every kind (R258): an IMAGE stream's decoder is chosen by signature. -/

def decoderKind (kind : Nat) (bs : List Byte) : Nat := if kind != 3 then kind else if beAt bs 0 2 == 0xFFD8 then 1 else 2

/-- What a sample's headers declare, with the status that a fault of R259 in them gives. -/
def mediaHdr (kind : Nat) (bs : List Byte) : Nat × MediaHdr :=
  match decoderKind kind bs with
  | 1 => jpegHdr bs
  | 2 => pngHdr bs
  | 4 => wavHdr bs
  | 5 => flacHdr bs
  | _ => opusHdr bs

/-- What decoding a sample gives. -/
def mediaOut (kind : Nat) (h : MediaHdr) (bs : List Byte) : MediaOut :=
  match decoderKind kind bs with
  | 1 => jpegOut h bs
  | 2 => pngOut h bs
  | 4 => wavOut h bs
  | 5 => flacOut h bs
  | _ => opusOut h bs

end Sys2Proof.Machine
end

