-- ==== Sys2Proof/Machine/Media.lean ====
section
/-! DEFINITION. Ingest, decoding and the Pantry's filling (R255 to R264, R271 to R279). -/
namespace Sys2Proof.Machine

/-! Settings of a stream (R258) and of a port. -/

def State.ingCfg (s : State) (st : Nat) : Word := s.rg dieMerA (ingOff st)
def State.ingEn (s : State) (st : Nat) : Bool := decide (st < 256) && bitOf (s.ingCfg st) 63
def State.ingPart (s : State) (st : Nat) : Nat := fld (s.ingCfg st) 62 60
def State.ingKind (s : State) (st : Nat) : Nat := fld (s.ingCfg st) 59 56
def State.ingShare (s : State) (st : Nat) : Nat := fld (s.ingCfg st) 51 40
def State.ingBase (s : State) (st : Nat) : Nat := s.rf dieMerA (ingOff st + 8) 47 0
def State.ingEntry (s : State) (st : Nat) : Nat := s.rf dieMerA (ingOff st + 0x10) 63 32
def State.ingDepth (s : State) (st : Nat) : Nat := s.rf dieMerA (ingOff st + 0x10) 15 0
def State.ingHard (s : State) (st : Nat) : Nat := let l := fld (s.ingCfg st) 31 0; if l == 0 then 2 ^ 32 - 1 else l

/-- Raises ING_SRECV (0), ING_SOVER (1) or ING_SINCOMP (2). -/
def State.ingCount (s : State) (st k : Nat) : State := s.addRg dieMerA (ingOff st + 0x28 + 8 * k) 1

def portDie (port : Nat) : Nat := if port == 0 then dieMerA else dieMerB
def ingPort : Nat := 0x810000
def State.portDrop (s : State) (port : Nat) : State := s.addRg (portDie port) (ingPort + 0x28) 1

/-- MAX_INPUT, MAX_PIXELS, MAX_SAMPLES, REASM_US (R276). -/
def State.maxInput (s : State) : Nat := s.rf dieMdl (mdlPan + 0x80) 31 0
def State.maxPixels (s : State) : Nat := s.rf dieMdl (mdlPan + 0x80) 63 32
def State.maxSamples (s : State) : Nat := s.rf dieMdl (mdlPan + 0x88) 31 0
def State.reasmUs (s : State) : Nat := s.rf dieMdl (mdlPan + 0x88) 63 32
def State.augKey (s : State) : BitVec 128 := (s.rg dieMdl (mdlPan + 0x98)) ++ (s.rg dieMdl (mdlPan + 0x90))

/-! Samples. -/

def State.sample (s : State) (st index : Nat) : Option Sample := s.samples.find? fun x => x.stream == st && x.index == index
def State.setSample (s : State) (x : Sample) : State :=
  { s with samples := s.samples.map fun y => if y.stream == x.stream && y.index == x.index then x else y }

/-- A sample that is over: its index is remembered, for fragments that come after the close. -/
def State.endSample (s : State) (x : Sample) : State :=
  let y := s.strm x.stream
  let s := s.setStrm x.stream { y with finished := x.index :: y.finished }
  { s with samples := s.samples.filter fun z => !(z.stream == x.stream && z.index == x.index) }

/-- The bytes of a sample as far as they have come. -/
def Sample.bytes (x : Sample) : List Byte := (List.range x.total).map fun i => x.got.val 0 i
def Sample.whole (x : Sample) : Bool := x.got.length ≥ x.total

/-- A REJ_, DROP_ or SLOT_OVF closure is reported (R263). -/
def State.mediaReport (s : State) (st status : Nat) : State :=
  if status < 2 then s else s.reportX 0x018 st (some (s.ingPart st))

/-- A finished sample, closed or not, goes to its slot (R264, R272). -/
def State.putSlot (s : State) (x : Sample) (o : SlotOut) : State :=
  let o := if o.payload.length > s.slotSize - 64 then { status := stOvf } else o
  ((s.endSample x).mediaReport x.stream o.status).landSlot x o

/-- A RAW sample lands whole in its ring entry, then its notice goes (R278). -/
def State.landRaw (s : State) (x : Sample) (status : Nat) : State :=
  let st := x.stream
  let p := s.ingPart st
  let size := s.ingEntry st
  let status := if status == stOk && x.total > size then stOvf else status
  let seq := (s.strm st).seq
  let a := s.ingBase st + 64 + x.adm % s.ingDepth st * size
  let w0 : Word := BitVec.ofNat 64 (x.index * 2 ^ 16 + st * 2 ^ 8 + status)
  let sent := wordsOf 8 (x.bytes ++ List.replicate (64 - x.total) 0)
  let w1 : Word := BitVec.ofNat 64 (fld (wordAt sent 1) 63 32 * 2 ^ 32 + seq)
  let bytes := if status == stOk then bytesOf (((sent.set 0 w0).set 1 w1).set 7 (wordAt sent 7 ||| 1)) ++ x.bytes.drop 64
    else bytesOf (slotHeader { x with hdr := { x.hdr with d0 := x.total, d1 := 0 } } seq { status := status })
  let s := s.setStrm st { s.strm st with seq := (seq + 1) % 2 ^ 32 }
  let s := ((s.endSample x).mediaReport st status).writeDram p a (bytes.map some)
  s.chPost { sender := 0x3FF, part := p, dest := s.rg dieMerA (ingOff st + 0x18),
             payload := leBytes 8 a ++ leBytes 8 w0.toNat ++ List.replicate 48 0 }

/-! Operators, MIX and the end of a sample (R264, R269 to R271). -/

/-- Runs a sample's operators from where it stands: it finishes, or stands at MIX with its values. -/
def State.runSample (s : State) (x : Sample) (m : MediaOut) : Sample × Option SlotOut :=
  let ops := (s.strm x.stream).ops
  let d := ((ops.take x.pos).filter fun o => drawing (opCode o)).length
  let r := runOps s.augKey x.stream x.index d (ops.drop x.pos).dropLast m
  if r.2.1.isEmpty then
    let o := ops.getLastD []
    let q := outputOp o r.1
    ({ x with pos := ops.length, out := {} },
      some { dims := q.1, fmt := opFld o 55 52, layout := opFld o 51 48, payload := q.2 })
  else ({ x with pos := ops.length - 1 - r.2.1.length, out := r.1, stage := .mixWait }, none)

/-- Puts a sample where its operators have brought it. -/
def State.settleSample (s : State) (r : Sample × Option SlotOut) : State :=
  match r.2 with
  | some o => s.putSlot r.1 o
  | none => s.setSample r.1

/-- The other sample of a pair (R271). -/
def pairOf (index : Nat) : Nat := if index % 2 == 0 then index + 1 else index - 1

/-- Whether a sample at MIX goes on unmixed (R271): its partner is over, or was not admitted by the time 2 x SHARE later samples were. -/
def State.unmixed (s : State) (x : Sample) : Bool :=
  let y := s.strm x.stream
  let last := x.adm + 2 * s.ingShare x.stream
  y.finished.contains (pairOf x.index)
    || (match s.sample x.stream (pairOf x.index) with
        | none => decide (y.admitted > last)
        | some q => q.stage != .mixWait && decide (q.adm > last))

/-- Sends on, past MIX, each sample of a stream whose wait there is over. -/
def State.mixAbandonGo (st : Nat) : Nat → State → State
  | 0, s => s
  | k + 1, s =>
    match s.samples.find? fun x => x.stream == st && x.stage == .mixWait && s.unmixed x with
    | none => s
    | some x => State.mixAbandonGo st k (s.settleSample (s.runSample { x with pos := x.pos + 1, stage := .decoding } x.out))

def State.mixAbandon (s : State) (st : Nat) : State := State.mixAbandonGo st (33 * s.samples.length) s

/-- Closes a sample with a status: a slot or an entry with LENGTH 0 (R264). A text sample declares its input bytes (R272). -/
def State.closeSample (s : State) (x : Sample) (status : Nat) : State :=
  let x := if s.ingKind x.stream == 7 then { x with hdr := { x.hdr with d0 := x.total, d1 := 0 } } else x
  if s.ingKind x.stream == 0 then s.landRaw x status else (s.putSlot x { status := status }).mixAbandon x.stream

/-! Datagrams (R255 to R257). -/

def dgType (d : Dgram) : Nat := fld d.w0 55 48
def dgStream (d : Dgram) : Nat := fld d.w0 47 40
def dgOff (d : Dgram) : Nat := fld d.w0 31 0
def dgIndex (d : Dgram) : Nat := fld d.w1 63 16
def dgLen (d : Dgram) : Nat := fld d.w1 15 0
def dgTotal (d : Dgram) : Nat := fld d.w2 63 32

/-- The one's complement sum of bytes taken two at a time, most significant first. -/
def onesSum : List Byte → Nat
  | [] => 0
  | [a] => a.toNat * 256
  | a :: b :: r => a.toNat * 256 + b.toNat + onesSum r

/-- Whether a datagram's UDP checksum fails, over the pseudo-header, the UDP header and the payload. IPv4 may leave it zero (R255). -/
def checksumBad (d : Dgram) : Bool :=
  let n := 8 + 32 + d.payload.length
  let ip := beBytes (if d.v6 then 16 else 4)
  let sum := onesSum (ip d.src ++ ip d.dst ++ beBytes 4 n ++ beBytes 4 17 ++ beBytes 2 d.srcPort ++ beBytes 2 d.dstPort ++ beBytes 2 n
    ++ beBytes 2 d.checksum ++ [d.w0, d.w1, d.w2, d.w3].flatMap (fun w => beBytes 8 w.toNat) ++ d.payload)
  if d.checksum == 0 then d.v6 else sum == 0 || sum % 65535 != 0

/-- Whether the port takes traffic of the datagram's IP version. -/
def State.portTakes (s : State) (port : Nat) (v6 : Bool) : Bool :=
  let c := s.rg (portDie port) ingPort
  port < 2 && bitOf c 63 && (if v6 then bitOf c 61 else bitOf c 62)

/-- The drops of R255. -/
def State.dgBad (s : State) (port : Nat) (d : Dgram) : Bool :=
  d.fragmented || checksumBad d || d.dstPort != s.rf (portDie port) ingPort 15 0
    || fld d.w0 63 56 != 1 || fld d.w0 39 32 != 0 || fld d.w2 31 0 != 0 || d.w3 != 0
    || dgLen d != d.payload.length || d.payload.length > 8960 || !s.ingEn (dgStream d)
    || (match dgType d with
        | 0 => dgTotal d == 0 || dgTotal d > s.maxInput || dgOff d + dgLen d > dgTotal d
        | 2 => dgOff d != 0 || d.w1 != 0 || dgTotal d != 0
        | _ => true)

/-- Bytes of a fragment into a sample; those already here stay. -/
def Sample.fill (x : Sample) (off : Nat) (bs : List Byte) : Sample :=
  { x with got := (bs.zipIdx off).foldl (fun t b => if (t.find b.2).isSome then t else t.put b.2 b.1) x.got }

/-- CONSUMED of a RAW ring is read and ALLOW becomes CONSUMED + DEPTH (R279). -/
def State.readConsumed (s : State) (st : Nat) : State :=
  let r := s.readAny (s.ingPart st) (s.ingBase st) 8
  let s := if r.2.1 then r.2.2.reportX 0x028 st (some (s.ingPart st)) else r.2.2
  s.setAllow st (leNat r.1 + s.ingDepth st)

/-- A fragment goes into its sample: a RAW sample that is whole with it lands (R278), a decoded one is ready for its decoder. -/
def State.fillIn (s : State) (x : Sample) (d : Dgram) : State :=
  let x := x.fill (dgOff d) d.payload
  if !x.whole || x.stage != .reassembly then s.setSample x
  else if s.ingKind x.stream == 0 then s.landRaw x stOk
  else s.setSample { x with stage := .ready }

/-- A DATA datagram that passed (R256, R257). Where a RAW ring is full the port first reads how far the program has come (R279). -/
def State.dataIn (s : State) (port : Nat) (d : Dgram) : State :=
  let st := dgStream d
  let i := dgIndex d
  let s := s.setStrm st { s.strm st with peer := some (port, d.src, d.srcPort) }
  match s.sample st i with
  | some x => if x.total != dgTotal d then s.ingCount st 1 else s.fillIn x d
  | none =>
    if (s.strm st).finished.contains i then s.portDrop port
    else if (s.strm st).barred.contains i then s.ingCount st 1
    else
      let s := if s.ingKind st == 0 && (s.strm st).seen ≥ (s.strm st).allow then s.readConsumed st else s
      let y := s.strm st
      if y.seen ≥ y.allow then (s.setStrm st { y with seen := y.seen + 1, barred := i :: y.barred }).ingCount st 1
      else
        let x : Sample := { stream := st, index := i, adm := y.admitted, total := dgTotal d, port := port, opened := s.now (portDie port) }
        let s := (s.setStrm st { y with seen := y.seen + 1, admitted := y.admitted + 1 }).ingCount st 0
        (({ s with samples := s.samples ++ [x] }).fillIn x d).mixAbandon st

/-- A datagram reaches a port: dropped under R255, or taken by its type. -/
def State.datagram (s : State) (port : Nat) (d : Dgram) : State :=
  if !s.portTakes port d.v6 then s
  else if s.dgBad port d then s.portDrop port
  else if dgType d == 2 then
    let st := dgStream d
    (s.setStrm st { s.strm st with peer := some (port, d.src, d.srcPort) }).sendCredit st
  else s.dataIn port d

/-- DATA. -/
def execData (port : Nat) (d : Dgram) (s : State) : Host.Outcome State Fault Refusal := .next (s.datagram port d)

/-- PROBE (R256): answered at once with one CREDIT. -/
def execProbe (port : Nat) (d : Dgram) (s : State) : Host.Outcome State Fault Refusal := .next (s.datagram port d)

/-- ING_CREDIT_TIMER. -/
def execIngCreditTimer (st : Nat) (s : State) : Host.Outcome State Fault Refusal :=
  if s.ingEn st then .next (s.sendCredit st) else .next s

/-- ING_ADDRESS_RESOLUTION: the port answers for its own addresses. -/
def execIngAddressResolution (port : Nat) (v6 : Bool) (addr : Nat) (s : State) : Host.Outcome State Fault Refusal :=
  let d := portDie port
  let own := if v6 then (s.rg d (ingPort + 0x18)).toNat * 2 ^ 64 + (s.rg d (ingPort + 0x20)).toNat else s.rf d (ingPort + 0x10) 31 0
  if s.portTakes port v6 && addr == own then .next (s.emit (.addressAnswer port addr)) else .next s

/-- REASM_TIMEOUT: REASM_US after its first datagram, a sample not complete closes INCOMPLETE (R257). -/
def execReasmTimeout (st index : Nat) (s : State) : Host.Outcome State Fault Refusal :=
  match s.sample st index with
  | none => .next s
  | some x =>
    let age := (s.now (portDie x.port) + 2 ^ 64 - x.opened) % 2 ^ 64
    if x.stage != .reassembly || age < 1000 * s.reasmUs then .next s
    else .next ((s.ingCount st 2).closeSample x stIncomplete)

/-! Decoding (R259 to R263). -/

/-- The work budget of a sample (R262). -/
def State.workBudget (s : State) (st : Nat) : Nat :=
  let mult := s.rf dieMerA (ingOff st + 0x10) 63 48
  let least := s.rf dieMerA (ingOff st + 0x10) 31 0
  let w := (s.strm st).works
  max least (if w.length ≥ 256 then cdiv (mult * w.sum) 256 else mult * least)

/-- The first check of R259 or R261 that a sample's headers fail. `n` samples or pixels, of `ch` channels. -/
def State.sizeFails (s : State) (x : Sample) (image : Bool) (n ch depth : Nat) : Option Nat :=
  if n > (if image then s.maxPixels else s.maxSamples) then some stPixels
  else if n * ch * cdiv depth 8 > 2048 * x.total then some stRatio else none

def State.headerFails (s : State) (x : Sample) (h : MediaHdr) : Option Nat :=
  if !h.image && (h.channels > 8 || h.rate < 8000 || h.rate > 192000) then some stProfile
  else if h.declared && (h.d0 == 0 || (h.image && h.d1 == 0)) then some stFormat
  else
    match (if h.declared then s.sizeFails x h.image (if h.image then h.d0 * h.d1 else h.d0) h.channels h.depth else none) with
    | some k => some k
    | none => if h.workMem > s.rf dieMdl (mdlPan + 0x18) 39 0 then some stPool else none

/-- DECODE_START: a whole sample's headers are checked before any buffer is allocated; a text sample enters the tokenizer,
once no dictionary load is under way (R265, R266). -/
def execDecodeStart (st index : Nat) (s : State) : Host.Outcome State Fault Refusal :=
  match s.sample st index with
  | none => .next s
  | some x =>
    let k := s.ingKind st
    if x.stage != .ready || k == 0 || !s.joinOpen dieMerB then .next s
    else if k == 7 then
      let x := { x with stage := .decoding, hdr := { d0 := x.total, d1 := 0 } }
      if s.mdl.loading then .next s
      else if s.mdl.dict.isNone then .next (s.closeSample x stProfile)
      else if !s.rb dieMdl 0x10108 62 && !utf8Ok x.bytes then .next (s.closeSample x stUtf8)
      else .next (s.setSample x)
    else
      let h := mediaHdr k x.bytes
      let x := { x with stage := .decoding, hdr := h.2, budget := s.workBudget st }
      if h.1 != stOk then .next (s.closeSample x h.1)
      else
        match s.headerFails x h.2 with
        | some e => .next (s.closeSample x e)
        | none => .next (s.setSample x)

/-- The decoder kind a sample is on: JPEG, PNG, audio. -/
def decoderOf (h : MediaHdr) : Nat := if !h.image then 2 else if h.jpeg then 0 else 1

/-- Whether a sample at its budget moves: on an ordinary decoder, its kind's slow one with room in its queue of 64. -/
def State.slowRoom (s : State) (x : Sample) : Bool :=
  !x.slow && s.ingKind x.stream != 7 &&
    decide ((s.samples.filter fun y => y.slow && y.stage == .decoding && decoderOf y.hdr == decoderOf x.hdr).length < 64)

def State.moveSlow (s : State) (x : Sample) : State := (s.setSample { x with slow := true }).addRg dieMdl (mdlPan + 0x50) 1

/-- What decoding a sample comes to (R259, R261): its status and its values. Where no length was declared, a running output past a
limit closes it there, with the work of as much. -/
def State.decodeOf (s : State) (x : Sample) : Nat × MediaOut :=
  let r := mediaOut (s.ingKind x.stream) x.hdr x.bytes
  let most := min s.maxSamples (2048 * x.total / max 1 (r.channels * cdiv x.hdr.depth 8))
  if !x.hdr.declared && r.d0 > most then
    ((s.sizeFails x false (most + 1) r.channels x.hdr.depth).getD stRatio, { r with work := audioWork r.channels (most + 1) })
  else (if r.ok then stOk else stFormat, r)

/-- Whether a sample of some work moves to its kind's slow decoder: the work reaches its budget there is room for, and the limit not
before (R262, R263). -/
def State.mustMove (s : State) (x : Sample) (work : Nat) : Bool :=
  x.budget ≤ work && x.budget < s.ingHard x.stream && s.slowRoom x

/-- SLOW_DECODER_MOVE (R262): at its budget, a sample on an ordinary decoder moves. -/
def execSlowDecoderMove (st index : Nat) (s : State) : Host.Outcome State Fault Refusal :=
  match s.sample st index with
  | none => .next s
  | some x => if x.stage == .decoding && s.mustMove x (s.decodeOf x).2.work then .next (s.moveSlow x) else .next s

/-- DROP_LIMIT (R263): the work reaches HARD_LIMIT, on whichever decoder holds the sample. -/
def execDropLimit (st index : Nat) (s : State) : Host.Outcome State Fault Refusal :=
  match s.sample st index with
  | none => .next s
  | some x =>
    let w := (s.decodeOf x).2.work
    if x.stage == .decoding && s.ingKind st != 7 && w ≥ s.ingHard st && !s.mustMove x w then .next (s.closeSample x stDrop) else .next s

/-- What decoding makes of a sample: closed, moved, or with its values; the work of a completed one is kept. -/
def State.decoded (s : State) (x : Sample) : State × Option (Sample × MediaOut) :=
  let d := s.decodeOf x
  if s.mustMove x d.2.work then (s.moveSlow x, none)
  else if d.2.work ≥ s.ingHard x.stream then (s.closeSample x stDrop, none)
  else if d.1 != stOk then (s.closeSample x d.1, none)
  else
    let x := if x.hdr.declared then x else { x with hdr := { x.hdr with d0 := d.2.d0, d1 := d.2.channels } }
    let y := s.strm x.stream
    (s.setStrm x.stream { y with works := (d.2.work :: y.works).take 256 }, some (x, d.2))

/-- The tokens of a text sample as its slot's contents (R266). -/
def State.tokens (s : State) (x : Sample) : SlotOut :=
  let o := (s.strm x.stream).ops.headD []
  let c := s.rg dieMdl 0x10108
  let r := tokenize (s.mdl.dict.getD []) (fld c 31 0) (bitOf c 62) (opFld o 55 32) (fld (wordAt o 1) 31 0) (fld (wordAt o 1) 63 32) x.bytes
  { dims := (r.1.length, 1, 1), fmt := 8, layout := 4, trunc := r.2, payload := r.1.flatMap (leBytes 4) }

/-- SAMPLE_COMPLETE: a decoded sample runs its operators to its slot or to MIX; one that waits at MIX goes on unmixed once its wait
is over. A RAW sample has landed with its last fragment (R278). -/
def execSampleComplete (st index : Nat) (s : State) : Host.Outcome State Fault Refusal :=
  match s.sample st index with
  | none => .next s
  | some x =>
    if !s.joinOpen dieMerB then .next s
    else
      match x.stage with
      | .reassembly => .next s
      | .ready => .next s
      | .mixWait => .next (s.mixAbandon st)
      | .decoding =>
        if s.ingKind st == 7 then .next (s.putSlot x (s.tokens x))
        else
          match s.decoded x with
          | (s', none) => .next s'
          | (s', some y) => .next ((s'.settleSample (s'.runSample y.1 y.2)).mixAbandon st)

/-- MIX_PARTNER_ARRIVAL: a sample reaching MIX meets its waiting partner; both go on mixed, the one that waited first. -/
def execMixPartnerArrival (st index : Nat) (s : State) : Host.Outcome State Fault Refusal :=
  match s.sample st index, s.sample st (pairOf index) with
  | some x, some p =>
    if p.stage != .mixWait || (x.stage != .decoding && x.stage != .mixWait) || s.ingKind st == 7 || !s.joinOpen dieMerB then .next s
    else
      match (if x.stage == .decoding then s.decoded x else (s, some (x, x.out))) with
      | (s', none) => .next s'
      | (s', some y) =>
        let w := if x.stage == .decoding then (s'.runSample y.1 y.2).1 else x
        if w.stage != .mixWait || w.pos != p.pos then .next s
        else
          let ops := (s'.strm st).ops
          let o := ops.getD w.pos []
          let d := ((ops.take w.pos).filter fun o => drawing (opCode o)).length
          let u := augDraw s'.augKey st d (min w.index p.index)
          let a := mixPair o u p.out w.out
          let b := mixPair o u w.out p.out
          let s' := s'.setSample w
          let s' := s'.settleSample (s'.runSample { p with pos := p.pos + 1, partner := w.index, lambda := a.2, stage := .decoding } a.1)
          .next (s'.settleSample (s'.runSample { w with pos := w.pos + 1, partner := p.index, lambda := b.2, stage := .decoding } b.1))
  | _, _ => .next s

/-! The Pantry on and off (R276, R277). -/

def pantryMask : Word := ~~~(maskOf 59 45)

def State.pantryOk (s : State) (v : Word) : Bool :=
  let p := fld v 62 60
  let n := fld v 44 32
  let z := fld v 31 0
  let d := s.pData
  let w := s.rf dieMdl (mdlPan + 0x10) 47 0
  let wn := s.rf dieMdl (mdlPan + 0x18) 39 0
  16 ≤ n && n ≤ 4096 && z % 4096 == 0 && 4096 ≤ z && z ≤ 0x10000000 && n * z ≤ 0x80000000
    && d % 4096 == 0 && w % 4096 == 0 && wn % 4096 == 0 && s.inDramOf p d (n * z) && s.inDramOf p w wn

/-- PANTRY_ENABLE: a write of PANTRY_CFG with EN = 1. -/
def execPantryEnable (v : Word) (s : State) : Host.Outcome State Fault Refusal :=
  if !s.diePresent dieMdl then .next (s.emit .busError)
  else if s.pEn then .next s
  else
    let v := v &&& pantryMask
    let ok := s.pantryOk v
    let s := s.setRg dieMdl mdlPan (setBit v 63 ok)
    .next (State.landGo s.mdl.landing.length { s with mdl := { s.mdl with cfgErr := !ok, slots := [], readyOrder := [] } })

/-- Every slot FREE; transfers that wait or were granted stop (R276, R277). -/
def State.pantryClear (s : State) : State :=
  let stop (d : DmaXfer) : DmaXfer := if d.waiting || d.slot.isSome then { d with refused := true, waiting := false, slot := none } else d
  { s with
    tiles := s.tiles.map fun kv => (kv.1, { kv.2 with dma := kv.2.dma.map stop }),
    mdl := { s.mdl with slots := [], readyOrder := [], waiters := [] } }

/-- PANTRY_DISABLE: a write of PANTRY_CFG with EN = 0; while it was enabled its other fields keep their values. -/
def execPantryDisable (v : Word) (s : State) : Host.Outcome State Fault Refusal :=
  if !s.diePresent dieMdl then .next (s.emit .busError)
  else if s.pEn then .next (s.pantryClear.pantryAlarm.setRb dieMdl mdlPan 63 false)
  else .next (s.setRg dieMdl mdlPan (setBit (v &&& pantryMask) 63 false))

/-! Streams on and off (R258). -/

def ingMask : Word := ~~~(maskOf 55 52)

/-- The operator list of a stream about to be enabled. -/
def State.readOps (s : State) (p st n : Nat) : List (List Word) × State :=
  let b := s.ingBase st
  if b % 32 != 0 || !s.inDramOf p b (32 * n) then ([], s)
  else
    let r := s.readAny p b (32 * n)
    ((List.range n).map fun i => wordsOf 4 (r.1.drop (32 * i)), if r.2.1 then r.2.2.reportX 0x028 st (some p) else r.2.2)

/-- SHARE of the enabled decoded streams together. -/
def State.shareSum (s : State) : Nat :=
  ((List.range 256).map fun k => if s.ingEn k && s.ingKind k != 0 then s.ingShare k else 0).sum

def State.streamOk (s : State) (st : Nat) (v : Word) (ops : List (List Word)) : Bool :=
  let p := fld v 62 60
  let kind := fld v 59 56
  let share := fld v 51 40
  if kind > 7 then false
  else if kind == 0 then
    s.ingDepth st != 0 && s.ingEntry st != 0 && s.ingEntry st % 4096 == 0
      && s.ingBase st % 4096 == 0 && s.inDramOf p (s.ingBase st) (64 + s.ingDepth st * s.ingEntry st)
  else
    s.diePresent dieMdl && p == s.pPart && share != 0 && s.shareSum + share ≤ s.nSlot && opsOk kind ops

/-- ING_STREAM_ENABLE: a write of ING_SCFG with EN = 1. -/
def execIngStreamEnable (st : Nat) (v : Word) (s : State) : Host.Outcome State Fault Refusal :=
  if st ≥ 256 || s.ingEn st then .next s
  else
    let v := v &&& ingMask
    let kind := fld v 59 56
    let r := if kind == 0 || kind > 7 || !s.diePresent dieMdl then ([], s) else s.readOps (fld v 62 60) st (fld v 39 32)
    let s := r.2
    if s.streamOk st v r.1 then
      let allow := if kind == 0 then s.ingDepth st else fld v 51 40
      .next ((s.setRg dieMerA (ingOff st) (setBit v 63 true)).setStrm st { allow := allow, ops := r.1 })
    else
      let s := if !s.diePresent dieMdl then s.addRg dieMerA (ingPort + 0x30) 1 else s
      let v := if kind > 7 then setFld v 59 56 (s.ingKind st) else v
      .next ((s.setRg dieMerA (ingOff st) (setBit v 63 false)).setStrm st { s.strm st with cfgErr := true })

/-- The samples of a stream are discarded and it is off. -/
def State.streamOff (s : State) (st : Nat) : State :=
  let s := (s.setRb dieMerA (ingOff st) 63 false).setStrm st { s.strm st with peer := none }
  { s with samples := s.samples.filter fun x => x.stream != st }

/-- ING_STREAM_DISABLE: a write of ING_SCFG with EN = 0. A reserved KIND is not taken: the field keeps its value (R10). -/
def execIngStreamDisable (st : Nat) (v : Word) (s : State) : Host.Outcome State Fault Refusal :=
  if st ≥ 256 then .next s
  else
    let v := if fld v 59 56 > 7 then setFld v 59 56 (s.ingKind st) else v
    .next ((if s.ingEn st then s.streamOff st else s).setRg dieMerA (ingOff st) (setBit (v &&& ingMask) 63 false))

/-- RAW_CONSUMED_POLL: ALLOW becomes CONSUMED + DEPTH (R279). -/
def execRawConsumedPoll (st : Nat) (s : State) : Host.Outcome State Fault Refusal :=
  if !s.ingEn st || s.ingKind st != 0 then .next s else .next (s.readConsumed st)

/-- A fence of partition `p` at Mandoline (R277). Transfers from the window end with the partition's own. -/
def State.mediaFence (s : State) (p : Nat) : State :=
  if s.pPart != p || !s.diePresent dieMdl then s
  else
    let s := (List.range 256).foldl (fun s st => if s.ingEn st && s.ingKind st != 0 then s.streamOff st else s) s
    State.pantryAlarm { s with mdl := { s.mdl with slots := [], readyOrder := [], waiters := [], landing := [] } }

/-! The dictionary (R265). -/

/-- TOK_DICT_LOAD: a write of TOK_CFG with LOAD = 1. -/
def execTokDictLoad (v : Word) (s : State) : Host.Outcome State Fault Refusal :=
  if !s.diePresent dieMdl then .next (s.emit .busError)
  else
    let s := s.setRg dieMdl 0x10108 (v &&& ~~~(maskOf 63 63 ||| maskOf 61 51))
    .next { s with mdl := { s.mdl with loading := true } }

/-- TOK_DICT_LOAD_COMPLETE: once the text samples in the tokenizer are done, every record is checked. -/
def execTokDictLoadComplete (s : State) : Host.Outcome State Fault Refusal :=
  if !s.mdl.loading || !s.joinOpen dieMerB || s.samples.any (fun x => x.stage == .decoding && s.ingKind x.stream == 7) then .next s
  else
    let n := s.rf dieMdl 0x10108 50 32
    let b := s.rf dieMdl 0x10100 47 0
    let ok := b % 8 == 0 && 1 ≤ n && n ≤ 262144 && s.inDramOf s.pPart b (72 * n)
    let r := if ok then s.readAny s.pPart b (72 * n) else ([], false, s)
    let s := if r.2.1 then r.2.2.reportX 0x028 0 (some s.pPart) else r.2.2
    match (if ok then dictGo 0 none (chunks 72 r.1) else .error 0) with
    | .ok d => .next (({ s with mdl := { s.mdl with loading := false, dict := some d } }).setRg dieMdl 0x10110 2)
    | .error i => .next (({ s with mdl := { s.mdl with loading := false, dict := none } }).setRg dieMdl 0x10110 (BitVec.ofNat 64 (i * 2 ^ 32 + 1)))

/-! Registers as they read. -/

/-- ING_SSTATE. -/
def State.ingState (s : State) (st : Nat) : Word :=
  BitVec.ofNat 64 ((s.strm st).allow * 2 ^ 16 + (s.strm st).cfgErr.toNat * 2 ^ 15)

/-- ING_SPARAM: what is reserved depends on the stream's KIND (R10, R258). -/
def State.ingParam (s : State) (st : Nat) : Word :=
  let v := s.rg dieMerA (ingOff st + 0x10)
  if s.ingKind st == 0 then v &&& ~~~(maskOf 31 16) else v &&& ~~~(maskOf 47 32)

/-- PANTRY_STATE. -/
def State.pantryState (s : State) : Word :=
  BitVec.ofNat 64 (s.mdl.alarm.toNat * 2 ^ 63 + s.mdl.cfgErr.toNat * 2 ^ 62 + s.slotsIn .ready * 2 ^ 48
    + s.slotsIn .taken * 2 ^ 32 + s.slotsIn .free)

end Sys2Proof.Machine
end

