-- ==== Sys2Proof/Machine/Optimizer.lean ====
section
/-! DEFINITION. The optimizer apply at the memory-side adders, its commit by the Almanac, the Sextan global norm, setting up
and ending a collective, the end of an Almanac group (R200, R217, R218, R231 to R241, R437). -/
namespace Sys2Proof.Machine

/-! RX.APPLY (R231, R232). -/

/-- A descriptor's fields (R231). -/
def apAlg (d : List Word) : Nat := fld (wordAt d 0) 63 60
def apWfmtCode (d : List Word) : Nat := fld (wordAt d 0) 59 56
def apWfmt (d : List Word) : Fmt := fmtAt (apWfmtCode d)
def apWexp (d : List Word) : Int := signedOf 8 (fld (wordAt d 0) 55 48)
def apClip (d : List Word) : Bool := bitOf (wordAt d 0) 47
def apHi (d : List Word) (i : Nat) : BitVec 32 := (wordAt d i).extractLsb' 32 32
def apLo (d : List Word) (i : Nat) : BitVec 32 := (wordAt d i).setWidth 32

/-- No reserved code and no reserved bit. -/
def apOk (d : List Word) : Bool :=
  apAlg d ≤ 1 && [0, 1, 2, 5].contains (apWfmtCode d) && fld (wordAt d 0) 46 0 == 0 && fld (wordAt d 5) 63 32 == 0
    && wordAt d 6 == 0 && wordAt d 7 == 0

/-- Bytes of `n` working elements in a format, scales included. -/
def workBytes (f : Fmt) (n : Nat) : Nat := if f == .mxfp4 then n / 2 + n / 32 else f.bytes n

/-- RX.APPLY: accepted when it passes its checks; the MSAs take it later (R94, R232). -/
def execRxApply (t : Nat) (ga gb gc : Reg) (s : State) : Host.Outcome State Fault Refusal :=
  s.run t 8 (.rxApply t ga gb gc) fun s =>
    let a := (s.g t gb).toNat
    let hv : Word := BitVec.ofNat 64 (fld (s.g t ga) 11 0)
    noFiller s t .collective hv <|
    orTrap (s.checkOwn t a 64 64 .access (s.g t gb)) <| orHold s a 64 <|
      let r := s.descWords a 8
      rxNamed r.2 t ga (s.g t gc) fun h st =>
        let s := r.2
        let d := r.1
        let c := s.coll h
        let g := s.rxGroup h
        let bad : TRes := .trap .collective (BitVec.ofNat 64 h)
        if !apOk d || !s.rxApply h || c.locals.length != s.rxNshard h || st != c.applyNext then bad
        else if apClip d && ((s.tile t).part != 0 || s.rxResult h == 0) then bad
        else if !s.alValid g || s.alPart g != (s.tile t).part then .trap .almanac (BitVec.ofNat 64 g)
        else if s.alCommitter g != 1 then bad
        else if (List.range (s.rxNshard h)).any fun i => s.alBytes (s.alFirst g + i) < workBytes (apWfmt d) (s.rxLen h) then bad
        else
          let p : Int := (s.rxPeriod h : Nat)
          let x : Apply := { order := s.rxSeq, tile := t, step := st, idx := ((c.roundIdx : Int) + (c.dist st).ediv p).toNat, desc := d }
          .done (State.alKick { s.setColl h { c with applies := c.applies ++ [x], applyNext := st + BitVec.ofNat 16 (s.rxPeriod h) } with
                    rxSeq := s.rxSeq + 1 } g |>.rephase t)

/-! The apply (R16, R200, R233 to R236). -/

/-- The factor on each sum: GSCALE, clipped by the norm where asked (R233). A norm that makes the quotient NaN gives
min(1, NaN), which the spec does not state: a free value (assumption log 34). -/
def State.apFactor (s : State) (d : List Word) (norm : BitVec 32) : BitVec 32 × State :=
  let q := div32 (apLo d 5) norm
  if (decode .fp32 0 q.toNat).isNan then (BitVec.ofNat 32 (Config.freeWord s.freeIdx).toNat, { s with freeIdx := s.freeIdx + 1 })
  else
    let m := if (decode .fp32 0 q.toNat).lt (decode .fp32 0 0x3F800000) then q else 0x3F800000#32
    (mul32 (apHi d 3) m, s)

/-- MSA_APPLY_START: the oldest apply of the collective's group, once its collective is complete (its norm formed, where it clips), a
mirror has caught up and the staging buffer is free (R16, R200, R241, R361). -/
def execMsaApplyStart (h : Nat) (s : State) : Host.Outcome State Fault Refusal :=
  let g := s.rxGroup h
  if !s.rxValid h then .next s
  else
    match s.alNextApply g with
    | none => .next s
    | some x =>
      let a := x.2
      if x.1 != h then .next s
      else if !s.alStagingFree g then .next (s.alKick g)
      else
        let norm := ((s.gstep a.step).formed.map (·.1)).getD 0
        let f := if apClip a.desc && !(s.gstep a.step).void then s.apFactor a.desc norm else (apHi a.desc 3, s)
        let s := if apClip a.desc && (s.gstep a.step).void then f.2.reportX 0x01E h (some (s.rxPart h)) else f.2
        let c := s.coll h
        let upd (x : Apply) : Apply := if x.order == a.order then { x with started := true, factor := f.1 } else x
        let s := s.setGroup g { s.group g with author := some (h, apAlg a.desc != 1) }
        .next (((s.setColl h { c with applies := c.applies.map upd }).rephase a.tile).alKick g)

/-- A plane of block-format values: elements and scales. -/
def planeVals (f : Fmt) (el sc : List (Option Byte)) (n : Nat) : List Val :=
  (List.range n).map fun i =>
    match el.getD i none, sc.getD (i / 32) none with
    | some e, some k => decode f k.toNat e.toNat
    | _, _ => .nan

/-- What the arithmetic of one element gives before the encoders. -/
structure ApElem where
  keep : Bool := false
  m : Val := .nan
  v : Val := .nan

def v32 (x : Val) : BitVec 32 := BitVec.ofNat 32 (toFmt .fp32 x)
def val32 (x : BitVec 32) : Val := decode .fp32 0 x.toNat

/-- The moments of one element (R233, R234): `f` the factor, `sum` the sum element, `m1`, `m2` the stored moments. -/
def apMoments (d : List Word) (f sum : BitVec 32) (m1 m2 : Val) : ApElem :=
  let one := 0x3F800000#32
  let v := mul32 (v32 m2) (v32 m2)
  let g := mul32 sum f
  let beta1 := apHi d 1
  let beta2 := apLo d 2
  if nonfinite32 g then { keep := true, m := m1, v := val32 v }
  else if apAlg d == 0 then
    { m := val32 (fma32 (sub32 one beta1) g (mul32 beta1 (v32 m1)))
      v := val32 (fma32 (sub32 one beta2) (mul32 g g) (mul32 beta2 v)) }
  else { m := val32 (fma32 beta1 (v32 m1) g), v := val32 v }

/-- The new master weight of an element that is not kept, from the moments as stored. -/
def apMaster (d : List Word) (w : BitVec 32) (mh sh : Val) : BitVec 32 :=
  let u := if apAlg d == 0 then div32 (mul32 (v32 mh) (apLo d 4)) (fma32 (v32 sh) (apHi d 4) (apHi d 2)) else v32 mh
  let e := fma32 (apLo d 3) w u
  fma32 (neg32 (apLo d 1)) e w

/-- A value scaled by 2^k. -/
def Val.scale2 (v : Val) (k : Int) : Val :=
  match v with
  | .fin s m e => .fin s m (e + k)
  | v => v

/-- One block of 32 elements: new master weights, moment codes and scales, working codes and scale, elements kept. -/
structure ApBlock where
  master : List (BitVec 32) := []
  e1 : List Nat := []
  s1 : Nat := 0
  e2 : List Nat := []
  s2 : Nat := 0
  work : List Nat := []
  ws : Nat := 0
  kept : Nat := 0

/-- One block of an apply (R236, R237). DESIGN CHOICE (assumption log 58): the negative v that its SQ8 moment meets are counted nowhere,
since no status word of the MSA has a field for them. -/
def apBlock (d : List Word) (f : BitVec 32) (sums ws : List (BitVec 32)) (m1 m2 : List Val) : ApBlock :=
  let es := (List.range ws.length).map fun i => apMoments d f (sums.getD i 0) (m1.getD i .nan) (m2.getD i .nan)
  let b1 := encodeBlock .mxint8 (es.map (·.m))
  let b2 := encodeBlock .sq8 (es.map (·.v))
  let new := (List.range ws.length).map fun i =>
    let w := ws.getD i 0
    if (es.getD i {}).keep then w
    else apMaster d w (decode .mxint8 b1.1 (b1.2.1.getD i 0)) (decode .sq8 b2.1 (b2.2.1.getD i 0))
  let wv := new.map fun w => (val32 w).scale2 (apWexp d)
  let bw := encodeBlock .mxfp4 wv
  let work := if apWfmt d == .mxfp4 then bw.2.1 else wv.map fun v => (encode (apWfmt d) .rne true 0 v).1
  { master := new, e1 := b1.2.1, s1 := b1.1, e2 := b2.2.1, s2 := b2.1, work := work, ws := bw.1,
    kept := (es.filter (·.keep)).length }

def byteList (l : List Nat) : List (Option Byte) := l.map fun x => some (BitVec.ofNat 8 x)

/-- Block `b` of shard `i`: read, computed and written, to `work` for the working weights; the elements kept. -/
def State.apBlockAt (h i sum work : Nat) (a : Apply) (acc : State × Nat) (b : Nat) : State × Nat :=
  let s := acc.1
  let c := s.coll h
  let p := s.rxPart h
  let m := c.stack i
  let l := s.rxLen h
  let master := fld (c.word i 1) 47 0
  let mo1 := fld (c.word i 2) 47 0
  let mo2 := fld (c.word i 3) 47 0
  let r0 := s.msaRead m p (sum + 128 * b) 32
  let r1 := r0.2.msaRead m p (master + 128 * b) 32
  let rd (s : State) (x n : Nat) : List (Option Byte) × State :=
    let q := s.readDram p x n
    (q.1, q.2.2.msaMem m p q.2.1)
  let e1 := rd r1.2 (mo1 + 32 * b) 32
  let k1 := rd e1.2 (mo1 + l + b) 1
  let e2 := rd k1.2 (mo2 + 32 * b) 32
  let k2 := rd e2.2 (mo2 + l + b) 1
  let o := apBlock a.desc a.factor r0.1 r1.1 (planeVals .mxint8 e1.1 k1.1 32) (planeVals .sq8 e2.1 k2.1 32)
  let s := ((k2.2.writeDram p (master + 128 * b) (f32Bytes o.master)).writeDram p (mo1 + 32 * b) (byteList o.e1)).writeDram p
    (mo1 + l + b) (byteList [o.s1])
  let s := if apAlg a.desc == 0 then
      (s.writeDram p (mo2 + 32 * b) (byteList o.e2)).writeDram p (mo2 + l + b) (byteList [o.s2])
    else s
  let f := apWfmt a.desc
  let s := s.writeDram p (work + f.bytes 32 * b) (codeBytes f (o.work.map some))
  (if f == .mxfp4 then s.writeDram p (work + l / 2 + b) (byteList [o.ws]) else s, acc.2 + o.kept)

/-- MSA_APPLY_BLOCK_DONE: the home of a shard has applied it and written its working weights into block FIRST + `shard` of
the staging buffer; it reports the block. With the last shard every sum element is read, and the round is freed (R229). -/
def execMsaApplyBlockDone (h shard : Nat) (s : State) : Host.Outcome State Fault Refusal :=
  let c := s.coll h
  match c.applies.find? fun a => a.started && !a.gone && !a.doneShards.contains shard with
  | none => .next s
  | some a =>
    if !s.rxValid h || shard ≥ c.shards.length then .next s
    else
      let g := s.rxGroup h
      let b := s.alFirst g + shard
      let work := s.alBuffer g b ((s.group g).current + 1).toNat
      let r := (List.range (s.rxLen h / 32)).foldl (State.apBlockAt h shard (s.rxSum h shard a.idx) work a) (s, 0)
      let s := r.1.addRg dieMerA (rxOff h + 0x38) r.2
      let s := { s with blockReports := s.blockReports ++ [(g, b)] }
      let c := s.coll h
      let a' := { a with doneShards := shard :: a.doneShards }
      let upd (x : Apply) : Apply := if x.order == a.order then a' else x
      let s := s.setColl h { c with applies := c.applies.map upd }
      .next (if a'.doneShards.length ≥ c.shards.length && (s.coll h).oldest == a.step then (s.rxFree h).rxKick h else s)

/-- Ends the apply of a group whose blocks are all reported. -/
def Coll.endApply (c : Coll) : Coll :=
  { c with applies := c.applies.filter fun a => !(a.started && !a.gone && a.doneShards.length ≥ c.shards.length) }

/-- ALMANAC_BLOCK_REPORT: WRITTEN counts the report; at NBLK the Almanac commits the version (R200). -/
def execAlmanacBlockReport (i : Nat) (s : State) : Host.Outcome State Fault Refusal :=
  match s.blockReports[i]? with
  | none => .next s
  | some (g, b) =>
    let s := { s with blockReports := s.blockReports.eraseIdx i }
    let x := s.group g
    let w := if x.written.contains b then x.written else x.written ++ [b]
    let s := s.setGroup g { x with written := w }
    if w.length < s.alNblk g then .next s
    else
      let s := s.alAdvance g
      let fin (kv : Nat × Coll) : Nat × Coll := if s.rxGroup kv.1 == g && s.rxApply kv.1 then (kv.1, kv.2.endApply) else kv
      let s := { s with colls := s.colls.map fin }
      .next (s.alKick g)

/-- AL_GROUP_END (R437): a write of VALID = 0; applies of the group are discarded and the rounds they consumed are freed
once complete. -/
def execAlGroupEnd (g : Nat) (v : Word) (s : State) : Host.Outcome State Fault Refusal :=
  if g ≥ 1024 then .next s
  else if !s.alValid g then .next ((s.setRg dieMerA (alOff g) (s.alEndWord g v)).setGroup g { s.group g with cfgErr := false })
  else
    let hs := (s.colls.filter fun kv => s.rxValid kv.1 && s.rxApply kv.1 && s.rxGroup kv.1 == g).map (·.1)
    let s := s.alEndGroup g v
    .next (hs.foldl (fun s h =>
      let c := (s.coll h).endApply
      let gone (a : Apply) : Apply := { a with gone := true }
      c.applies.foldl (fun s a => s.rephase a.tile) ((s.setColl h { c with applies := c.applies.map gone }).rxKick h)) s)

/-! The Sextan global norm (R240, R241). -/

/-- The P0 collectives of this package with a round at a step. -/
def State.gnormColls (s : State) (st : BitVec 16) : List Nat :=
  (s.colls.map (·.1)).filter fun h => s.rxValid h && s.rxPart h == 0 && !(s.coll h).locals.isEmpty && s.rxStepOk h st

/-- The completed round's share, if the round has completed. -/
def State.gnormPart (s : State) (h : Nat) (st : BitVec 16) : Option (Bool × List SqPart) :=
  ((s.coll h).norms.reverse.find? fun n => n.1 == st).map (·.2)

/-- Whether `x` lies within `num` x 2^-24 of the exact sum m x 2^e. -/
def withinRel (x : BitVec 32) (m e : Int) (num : Nat) : Bool :=
  match val32 x with
  | .fin s k q =>
    let d := dyAdd (sgnd s k) q (-m) e
    dyCmp (d.1.natAbs : Int) (d.2 + 24) (m * (num : Int)) e != .gt
  | _ => false

/-- The largest log2 of a shard count and LEN / 64 over collectives: the bound's factor (R241). -/
def State.gnormBound (s : State) (hs : List Nat) : Nat :=
  hs.foldl (fun a h => max a (s.rxLen h / 64 + 72 + Nat.log2 (s.rxNshard h) + hs.length)) 0

/-- GNORM_FORM: once every P0 round of the step has completed. `norm2` is the sum of squares in the order things completed,
taken where it lies within R241's bound of the exact sum; else the exact sum rounded stands, which does. Each collective that received
RX.GNORM has its record written here, and its other packages are told; a collective marked after the norm was formed gets the same. -/
def execGnormForm (step : Nat) (norm2 : BitVec 32) (s : State) : Host.Outcome State Fault Refusal :=
  let st := BitVec.ofNat 16 step
  let gs := s.gstep st
  let hs := s.gnormColls st
  let ps := hs.map fun h => s.gnormPart h st
  if !gs.accepted || hs.isEmpty || (gs.formed.isNone && !ps.all (·.isSome)) then .next s
  else
    let void := gs.void || ps.any fun p => (p.map (·.1)).getD false
    let parts := ps.flatMap fun p => (p.map (·.2)).getD []
    let asc := parts.foldl (fun a p => add32 a p.v) 0#32
    let ex := parts.foldl (fun (a : Int × Int) p => dyAdd a.1 a.2 p.m p.e) (0, 0)
    let near := v32 (if ex.1 < 0 then .fin true ex.1.natAbs ex.2 else .fin false ex.1.natAbs ex.2)
    let n2 := if parts.any (·.bad) then asc else if withinRel norm2 ex.1 ex.2 (s.gnormBound hs) then norm2 else near
    let n2 := if void then BitVec.ofNat 32 (Config.freeWord s.freeIdx).toNat else n2
    let n1 := if void then BitVec.ofNat 32 (Config.freeWord (s.freeIdx + 1)).toNat else sqrt32 n2
    let new := gs.formed.isNone
    let n := gs.formed.getD (n1, n2)
    let void := if new then void else gs.void
    let s := if new && void then { s with freeIdx := s.freeIdx + 2 } else s
    let s := s.setGstep { gs with void := void, formed := some n }
    let tell (s : State) (h : Nat) : State :=
      if (s.coll h).gnorms.contains st && !(s.coll h).normed.contains st then
        (s.rxWriteNorm h st hs.length void n.1 n.2).rxNotice h 32 none
          [6, h, st.toNat, hs.length, void.toNat, n.1.toNat * 2 ^ 32 + n.2.toNat]
      else s
    let kick (s : State) (h : Nat) : State := if s.rxApply h && s.alValid (s.rxGroup h) then s.alKick (s.rxGroup h) else s
    .next (hs.foldl kick (hs.foldl tell s))

/-! Setting up and ending (R217, R218, R239). -/

def rxMask : Word := ~~~(maskOf 28 24)

/-- Whether `n` bytes at `a` lie wholly in stack `m` and in the DRAM of partition `p`. -/
def State.inStack (s : State) (p m a n : Nat) : Bool :=
  s.stackPresent m && a / 2 ^ 36 == m && (a + n - 1) / 2 ^ 36 == m && s.inDramOf p a n

/-- The checks of one shard's entry (R218). `zero`: the state addresses must be 0. -/
def State.shardOk (s : State) (h p : Nat) (zero : Bool) (w : List Word) : Bool :=
  let l := s.rxLen h
  let at_ (i : Nat) : Nat := fld (wordAt w i) 47 0
  let m := fld (wordAt w 0) 57 53
  fld (wordAt w 0) 52 48 == 0 && ((List.range 3).all fun i => fld (wordAt w (i + 1)) 63 48 == 0)
    && (!zero || (List.range 3).all fun i => wordAt w (i + 1) == 0)
    && (if bitOf (wordAt w 0) 63 then decide (fld (wordAt w 0) 62 58 < 24)
        else fld (wordAt w 0) 62 58 == 0 && at_ 0 % 4096 == 0
          && s.inStack p m (at_ 0) (12 * l + s.rxSlots h * s.rxBytes h)
          && (zero || (s.inStack p m (at_ 1) (4 * l) && s.inStack p m (at_ 2) (l + l / 32) && s.inStack p m (at_ 3) (l + l / 32))))

/-- Whether the collective's registers, already written, pass the checks of R217 and R218, its table `tab` read from the partition's
DRAM (a table that cannot be read fails: DEDUCED, assumption log 67). -/
def State.rxOk (s : State) (h : Nat) (tab : List (List Word)) : Bool :=
  let p := s.rxPart h
  let base := s.rf dieMerA (rxOff h + 0x10) 47 0
  let n := s.rxNshard h
  let local_ := (tab.filter fun w => !bitOf (wordAt w 0) 63).length
  let g := s.rxGroup h
  !(s.rxMembers h).isEmpty && s.inDramOf p base (32 * n)
    && tab.all (s.shardOk h p (!s.rxApply h || local_ == 0))
    && (!s.rxApply h || local_ == 0
        || (local_ == n && s.alValid g && s.alNblk g == n
            && (List.range n).all fun i => s.alBytes (s.alFirst g + i) ≥ workBytes .mxfp4 (s.rxLen h)))

/-- What a write of RX_CFG leaves in it, VALID 0: a reserved FMT keeps what it held (R10). -/
def State.rxCfgWord (s : State) (h : Nat) (v : Word) : Word :=
  let w := setBit (v &&& rxMask) 63 false
  if [0, 1, 5, 7].contains (fld v 57 54) then w else setFld w 57 54 (fld (s.rxCfg h) 57 54)

/-- A P0 collective registered anew from step `b` on has rounds that no norm formed before covers: those steps' norms are formed again
(R241; DEDUCED, assumption log 67). -/
def State.gnormAgain (s : State) (b : BitVec 16) : State :=
  { s with gsteps := s.gsteps.map fun g => if decide ((g.step - b).toInt < 0) then g else { g with formed := none } }

/-- RX_COLLECTIVE_VALIDATE: a write of RX_CFG with VALID = 1: OLDEST and the counts are set, passed or not (R217). -/
def execRxCollectiveValidate (h : Nat) (v : Word) (s : State) : Host.Outcome State Fault Refusal :=
  if h ≥ 4096 || s.rxValid h then .next s
  else
    let s := s.setRg dieMerA (rxOff h) (s.rxCfgWord h v)
    let s := [0x28, 0x30, 0x38].foldl (fun s o => s.setRg dieMerA (rxOff h + o) 0) s
    let b : BitVec 16 := v.setWidth 16
    let p := s.rxPart h
    let n := s.rxNshard h
    let base := s.rf dieMerA (rxOff h + 0x10) 47 0
    let r := if s.inDramOf p base (32 * n) then s.readAny p base (32 * n) else ([], false, s)
    let tab := (List.range n).map fun i => wordsOf 4 (r.1.drop (32 * i))
    let s := r.2.2
    if !s.rxOk h tab then .next (s.setColl h { cfgErr := true, oldest := b })
    else
      let s := (s.setRb dieMerA (rxOff h) 63 true).setColl h
        { shards := tab, oldest := b, applyNext := b,
          rounds := [{ step := b, idx := 0 }, { step := b + BitVec.ofNat 16 (s.rxPeriod h), idx := 1 }] }
      .next ((if p == 0 then s.gnormAgain b else s).rxMeet h)

/-- A cell of the units that concerns collective `h`: a request, release or notice of it, a write of a grant its home gave. -/
def Coll.ownsCell (c : Coll) (h : Nat) (x : LkCell) : Bool :=
  (x.cls == 5 && [1, 5, 6, 8].contains ((unitWords x).getD 0 0) && (unitWords x).getD 1 0 == h)
    || (x.cls == 2 && x.object == noGrant && (unitWords x).getD 1 0 == h && !joins h x)
    || (x.cls == 2 && (c.contribs.any (fun y => y.no == some x.object) || c.passed.any fun y => y.no.isSome && y.mine == x.object))

/-- Everything a collective holds is dropped; an apply under way commits nothing of its group (R20, R239). The norms of steps go with
the last P0 collective (assumption log 67). -/
def State.rxDrop (s : State) (h : Nat) : State :=
  let c := s.coll h
  let g := s.rxGroup h
  let under := c.applies.any fun a => a.started && !a.gone
  let s := s.dropUnit (c.ownsCell h)
  let s := (s.setColl h { oldest := c.oldest }).setRb dieMerA (rxOff h) 63 false
  let s := if s.colls.any fun kv => s.rxValid kv.1 && s.rxPart kv.1 == 0 then s else { s with gsteps := [] }
  if s.rxApply h && !c.applies.isEmpty && s.alValid g then
    let x := s.group g
    let s := if under then
        { s.setGroup g { x with written := [] } with blockReports := s.blockReports.filter fun r => r.1 != g }
      else s
    s.alKick g
  else s

/-- RX_COLLECTIVE_DISCARD: a write of RX_CFG with VALID = 0. -/
def execRxCollectiveDiscard (h : Nat) (v : Word) (s : State) : Host.Outcome State Fault Refusal :=
  if h ≥ 4096 then .next s
  else
    let w := s.rxCfgWord h v
    if s.rxValid h then .next ((s.rxDrop h).setRg dieMerA (rxOff h) w)
    else .next (s.setRg dieMerA (rxOff h) w)

/-- A fence of partition `p` (R239): its collectives lose VALID, with all they hold; P0's norms are dropped. -/
def State.rxFence (s : State) (p : Nat) : State :=
  let hs := (s.colls.map (·.1)).filter fun h => s.rxValid h && s.rxPart h == p
  let s := hs.foldl State.rxDrop s
  if p == 0 then { s with gsteps := [] } else s

end Sys2Proof.Machine
end

