-- ==== Sys2Proof/Machine/Records.lean ====
section
/-! DEFINITION. Blobs and completion records of the management protocol (R410, R413, R415): their completion. -/
namespace Sys2Proof.Machine

def State.crec (s : State) (id : Nat) : Option CRec := s.mgmt.recs.find id
def State.setCrec (s : State) (id : Nat) (r : CRec) : State := { s with mgmt := { s.mgmt with recs := s.mgmt.recs.put id r } }

/-- Releases one hold; a blob freed while held goes with its last (R415). -/
def State.releaseBlob (s : State) (b : Nat) : State :=
  match s.mgmt.blobs.find b with
  | none => s
  | some x =>
    let y := { x with holds := x.holds - 1 }
    { s with mgmt := { s.mgmt with
        blobs := if y.holds == 0 && y.freed then s.mgmt.blobs.del b else s.mgmt.blobs.put b y } }

/-- A long operation completes: its record is written, its holds are released (R413, R415). -/
def State.completeOp (s : State) (id result reason detail : Nat) : State :=
  match s.crec id with
  | none => s
  | some r =>
    if r.done then s
    else
      let s := s.setCrec id { r with done := true, result := result, reason := reason, detail := detail,
                                     duration := (s.now dieMerA + 2 ^ 64 - r.start) % 2 ^ 64 }
      r.blobs.foldl State.releaseBlob s

/-- The operations with code `op` on a target that have not completed. -/
def State.openOps (s : State) (op target : Nat) : List Nat :=
  (s.mgmt.recs.filter fun kv => kv.2.op == op && kv.2.target == target && !kv.2.done).map (·.1)

/-- Completes every open operation `op` on a target with the result its record carries. -/
def State.completeOps (s : State) (op target : Nat) : State :=
  (s.openOps op target).foldl (fun s id =>
    match s.crec id with
    | some r => s.completeOp id r.result r.reason r.detail
    | none => s) s

/-- Marks what the open operations `op` on a target will end with. -/
def State.markOps (s : State) (op target result reason : Nat) : State :=
  (s.openOps op target).foldl (fun s id =>
    match s.crec id with
    | some r => if r.reason == 0 then s.setCrec id { r with result := result, reason := reason } else s
    | none => s) s

end Sys2Proof.Machine
end

