-- ==== Sys2Proof/Machine/L1.lean ====
section
/-! DEFINITION. The L1 data cache and its prefetcher (R129 to R136), CACHE's work (R104). -/
namespace Sys2Proof.Machine

def lineOf (a : Nat) : Nat := a / 128 * 128

def L1.find (c : L1) (line : Nat) : Option L1Line := c.lines.find? fun l => l.addr == line

/-- Moves a line to the front, as the most recently used. -/
def L1.touch (c : L1) (l : L1Line) : L1 := { c with lines := l :: c.lines.filter fun x => x.addr != l.addr }

/-- The dirty bytes of a line, as runs to write: offset and byte. -/
def L1Line.dirty (l : L1Line) : Tab Byte := (l.bytes.filter fun kv => kv.2.dirty).map fun kv => (kv.1, kv.2.v)

/-- Hands a line's dirty bytes of tile `t` to DRAM (R130, R356). -/
def State.writeBack (s : State) (t : Nat) (l : L1Line) : State :=
  let req := (s.tile t).part
  let d := l.dirty
  let s := s.chargeNet req (t / 96) (hobOf l.addr) d.length
  let lo := d.filter fun kv => kv.1 < 64
  let hi := (d.filter fun kv => kv.1 ≥ 64).map fun kv => (kv.1 - 64, kv.2)
  let s := if lo.isEmpty then s else s.writeCw req (l.addr / 64) lo
  if hi.isEmpty then s else s.writeCw req (l.addr / 64 + 1) hi

/-- Takes a place for a line in its set: a full set evicts one of its 8 lines, which one the spec does not give
(assumption log 12). -/
def State.l1Place (s : State) (t : Nat) (l : L1Line) : State :=
  let x := s.tile t
  let set := x.l1.lines.filter fun y => y.addr / 128 % 64 == l.addr / 128 % 64 && y.addr != l.addr
  if set.length < 8 then s.setTile t { x with l1 := x.l1.touch l }
  else
    let v := set.getD (Config.l1Victim s.freeIdx % set.length) {}
    let s := { s with freeIdx := s.freeIdx + 1 }
    let s := s.writeBack t v
    let x := s.tile t
    let c : L1 := { x.l1 with lines := x.l1.lines.filter fun y => y.addr != v.addr }
    s.setTile t { x with l1 := c.touch l }

/-- The bytes of [o, o + n) of a line, if all are valid; lost ones read all ones (R291). -/
def L1Line.read (l : L1Line) (o n : Nat) : Option (List Byte) :=
  if (List.range n).all fun i => (l.bytes.find (o + i)).isSome then
    some ((List.range n).map fun i =>
      let b := l.bytes.val {} (o + i)
      if b.lost then 0xFF else b.v)
  else none

def sameP4K (a b : Nat) : Bool := a / 4096 == b / 4096

/-- Starts a prefetch: in the page of the access that caused it, for a line not held nor being filled, while fewer than 40
slots are taken (R131, R135). -/
def L1.prefetch (c : L1) (cause : Nat) (a : Int) : L1 :=
  if a < 0 then c
  else
    let n := a.toNat
    if sameP4K cause n && (c.find n).isNone && c.fills.all (fun f => f.1 != n) && decide (c.fills.length < 40) then
      { c with fills := c.fills ++ [(n, true)] }
    else c

/-- Up to 4 lines ahead of line `a` at stride `d`. -/
def L1.ahead (c : L1) (a : Nat) (d : Int) : L1 :=
  [1, 2, 3, 4].foldl (fun c k => c.prefetch a ((a : Int) + d * k)) c

/-- Whether `a` lies at a stride a tracker may take from its last miss (R134). -/
def strideOk (last a : Nat) : Bool :=
  let d : Int := (a : Int) - last
  d != 0 && decide (d.natAbs ≤ 1920) && sameP4K last a

/-- What the trackers make of a demand read miss of line `a` (R134, R135). Which unconfirmed tracker a miss falls to is the
model's (assumption log 12): the most recently used that it continues, else the least recently used. -/
def L1.miss (c : L1) (a : Nat) : L1 :=
  let on (tr : Tracker) : Bool := tr.confirmed && decide ((tr.last : Int) + tr.stride = a)
  let near (tr : Tracker) : Bool := !tr.confirmed && strideOk tr.last a
  let put (old : Option Tracker) (new : Tracker) : List Tracker :=
    new :: (match old with
      | some o => c.trackers.erase o
      | none => if c.trackers.length < 8 then c.trackers else c.trackers.dropLast)
  match c.trackers.find? on with
  | some tr => { c with trackers := put (some tr) { tr with last := a } }.ahead a tr.stride
  | none =>
    match c.trackers.find? near with
    | some tr =>
      let d : Int := (a : Int) - tr.last
      if tr.run ≥ 2 && tr.stride == d then
        { c with trackers := put (some tr) { last := a, stride := d, run := 3, confirmed := true } }.ahead a d
      else { c with trackers := put (some tr) { last := a, stride := d, run := 2 } }
    | none => { c with trackers := put none { last := a, run := 1 } }

/-- Whether line `a` is one of the up to 4 that a confirmed tracker keeps ahead. -/
def Tracker.leads (tr : Tracker) (a : Nat) : Bool :=
  tr.confirmed && [1, 2, 3, 4].any fun k => decide ((tr.last : Int) + tr.stride * k = a)

/-- One new prefetch ahead of line `a` at stride `d`: the nearest of the 4 lines that is neither held nor being filled. -/
def L1.refill (c : L1) (a : Nat) (d : Int) : L1 :=
  let wanting (k : Int) : Bool :=
    let n := ((a : Int) + d * k).toNat
    decide (0 ≤ (a : Int) + d * k) && (c.find n).isNone && c.fills.all fun f => f.1 != n
  match ([1, 2, 3, 4] : List Int).find? wanting with
  | some k => c.prefetch a ((a : Int) + d * k)
  | none => c

/-- The demand stream has used the prefetched line `a`: the tracker that leads to it moves there and starts one new prefetch (R135),
whatever of the lines before it was held already or was not used. -/
def L1.follow (c : L1) (a : Nat) : L1 :=
  match c.trackers.find? fun tr => tr.leads a with
  | some tr => ({ c with trackers := { tr with last := a } :: c.trackers.erase tr }).refill a tr.stride
  | none => c

/-- The first use of a prefetched line that is held. -/
def L1.used (c : L1) (l : L1Line) : L1 :=
  let c := c.touch { l with pf := false }
  if l.pf then c.follow l.addr else c

/-- A demand for a line not (wholly) held: joins a fill, using a prefetch still on its way, takes a slot, or waits for one (R131,
R135). -/
def L1.demand (c : L1) (line : Nat) (first : Bool) : L1 :=
  match c.fills.find? fun f => f.1 == line with
  | some f =>
    let c := { c with fills := c.fills.map fun f => if f.1 == line then (f.1, false) else f }
    if f.2 then c.follow line else c
  | none =>
    let c := if c.fills.length < 48 then { c with fills := c.fills ++ [(line, false)] } else c
    if first then c.miss line else c

/-- A demand read of `n` bytes within one line: the bytes on a hit, else the state with the miss taken. -/
def State.l1Load (s : State) (t a n : Nat) (first : Bool) : Option (List Byte) × State :=
  let x := s.tile t
  let line := lineOf a
  let go : Option (L1Line × List Byte) := do
    let l ← x.l1.find line
    let b ← l.read (a % 128) n
    pure (l, b)
  match go with
  | some (l, b) => (some b, s.setTile t { x with l1 := x.l1.used l })
  | none => (none, s.setTile t { x with l1 := x.l1.demand line first })

/-- A store of bytes within one line: the line is taken without reading, its bytes valid and dirty (R130). -/
def State.l1Store (s : State) (t a : Nat) (bs : List Byte) : State :=
  let line := lineOf a
  let l := ((s.tile t).l1.find line).getD { addr := line }
  let put (tab : Tab L1Byte) (ib : Nat × Byte) : Tab L1Byte := tab.put ib.1 { v := ib.2, dirty := true }
  let tab := ((List.range bs.length).zip bs).foldl (fun tab ib => put tab (a % 128 + ib.1, ib.2)) l.bytes
  s.l1Place t { l with bytes := tab }

/-- CACHE on the lines that hold any byte of [a, a + n) (R104). -/
def State.cacheOp (s : State) (t a n : Nat) (wb inv : Bool) : State :=
  let hit (l : L1Line) : Bool := decide (l.addr < a + n) && decide (a < l.addr + 128)
  let x := s.tile t
  let ls := x.l1.lines.filter hit
  let s := if wb then ls.foldl (fun s l => s.writeBack t l) s else s
  let clean (l : L1Line) : L1Line := { l with bytes := l.bytes.map fun kv => (kv.1, { kv.2 with dirty := false }) }
  let y := s.tile t
  let lines :=
    if inv then y.l1.lines.filter fun l => !hit l
    else y.l1.lines.map fun l => if hit l then clean l else l
  s.setTile t { y with l1 := { y.l1 with lines := lines } }

/-- The whole cache written back and invalidated (R207). -/
def State.l1Flush (s : State) (t : Nat) : State :=
  let x := s.tile t
  let s := x.l1.lines.foldl (fun s l => s.writeBack t l) s
  s.setTile t { s.tile t with l1 := {} }

/-- A fill of a line (R130): it merges under the bytes stored meanwhile; the halves it could not read are marked lost
where it would have supplied them. -/
def State.l1FillNow (s : State) (t line : Nat) (pf : Bool) : State :=
  let r := s.readDram (s.tile t).part line 128
  let s := r.2.2.chargeNet (s.tile t).part (hobOf line) (t / 96) 128
  let x := s.tile t
  let s := s.setTile t { x with l1 := { x.l1 with fills := x.l1.fills.filter fun g => g.1 != line } }
  let old := ((s.tile t).l1.find line).getD { addr := line }
  let tab := ((List.range 128).zip r.1).foldl (fun (tab : Tab L1Byte) ib =>
    if (tab.find ib.1).isSome then tab
    else tab.put ib.1 (match ib.2 with | some b => { v := b } | none => { lost := true })) old.bytes
  s.l1Place t { old with bytes := tab, pf := pf }

/-- One byte of DRAM through the L1 as a recipe's gather reads it (R129, R131, R156): a miss is filled; the prefetcher does
not watch it (R134). -/
def State.l1Gather (s : State) (t a : Nat) : L1Byte × State :=
  let line := lineOf a
  let held (s : State) : Option L1Byte := ((s.tile t).l1.find line).bind fun l => l.bytes.find (a % 128)
  match held s, (s.tile t).l1.find line with
  | some b, some l =>
    let x := s.tile t
    (b, s.setTile t { x with l1 := x.l1.touch l })
  | _, _ =>
    let s := s.l1FillNow t line false
    ((held s).getD {}, s)

/-- L1_LINE_FILL_COMPLETE (R130). A line that is not being filled does nothing (assumption log 4). -/
def execL1LineFillComplete (t line : Nat) (s : State) : Host.Outcome State Fault Refusal :=
  match (s.tile t).l1.fills.find? fun f => f.1 == line with
  | none => .next s
  | some f => .next (s.l1FillNow t line f.2)

end Sys2Proof.Machine
end

