-- ==== Sys2Proof/Machine/Vec.lean ====
section
/-! DEFINITION. The vector engine (R63, R64, R148 to R164): recipe checks at issue, a run's arithmetic, its outputs and its
status word. -/
namespace Sys2Proof.Machine

/-! The descriptor (R150 to R152). -/

structure VStream where
  kind : Nat := 0
  fmtc : Nat := 0
  link : Nat := 0
  base : Nat := 0
  rstride : Int := 0
  tlen : Nat := 0
  qexp : Int := 0
  scaleBase : Nat := 0
  rsv : Bool := false
  deriving DecidableEq, Repr

structure VStep where
  opc : Nat := 0
  sa : Nat := 0x3F
  sb : Nat := 0x3F
  sc : Nat := 0x3F
  out : Nat := 0
  imm : Nat := 0
  rsv : Bool := false
  deriving DecidableEq, Repr

structure Recipe where
  wmode : Nat := 0
  nsteps : Nat := 0
  rows : Nat := 0
  len : Nat := 0
  ins : List VStream := []
  outs : List VStream := []
  consts : List Nat := []
  steps : List VStep := []
  rsv : Bool := false
  deriving DecidableEq, Repr

def vstreamOf (a b c : Word) : VStream :=
  { kind := fld a 63 60, fmtc := fld a 59 56, link := fld a 55 51, base := fld a 47 0,
    rstride := signedOf 32 (fld b 63 32), tlen := fld b 31 0, qexp := signedOf 8 (fld c 55 48),
    scaleBase := fld c 47 0, rsv := fld a 50 48 != 0 || fld c 63 56 != 0 }

def vstepOf (w : Word) : VStep :=
  { opc := fld w 63 56, sa := fld w 55 50, sb := fld w 49 44, sc := fld w 43 38, out := fld w 37 36,
    imm := fld w 31 0, rsv := fld w 35 32 != 0 }

/-- The recipe that descriptor words spell. -/
def recipeOf (ws : List Word) : Recipe :=
  let w (i : Nat) : Word := wordAt ws i
  let st (i : Nat) : VStream := vstreamOf (w i) (w (i + 1)) (w (i + 2))
  let n := fld (w 0) 61 57
  { wmode := fld (w 0) 63 62, nsteps := n, rows := fld (w 1) 63 32, len := fld (w 1) 31 0,
    ins := [st 2, st 5, st 8, st 11], outs := [st 14, st 17],
    consts := (List.range 8).map fun i => fld (w (20 + i)) 31 0,
    steps := (List.range n).map fun k => vstepOf (w (28 + k)),
    rsv := fld (w 0) 56 0 != 0 || (List.range 8).any fun i => fld (w (20 + i)) 63 32 != 0 }

/-- The working format (R63). -/
def Recipe.wf (r : Recipe) : Fmt := match r.wmode with | 0 => .fp32 | 1 => .bf16 | _ => .fp16

def Recipe.inp (r : Recipe) (i : Nat) : VStream := r.ins.getD i {}
def Recipe.outp (r : Recipe) (i : Nat) : VStream := r.outs.getD i {}
def Recipe.step (r : Recipe) (k : Nat) : VStep := r.steps.getD (k - 1) {}
def VStream.fmt (v : VStream) : Fmt := fmtAt v.fmtc

/-- How many operands an operation takes (R153), none for a reserved code. -/
def vArity (opc : Nat) : Option Nat :=
  if [0x01, 0x02, 0x03, 0x05, 0x18, 0x19, 0x1C, 0x20, 0x21, 0x22, 0x30].contains opc then some 2
  else if [0x04, 0x23].contains opc then some 3
  else if opc == 0x24 then some 0
  else if opc == 6 || (7 ≤ opc && opc ≤ 0x11) || [0x1A, 0x1B, 0x25, 0x31, 0x38, 0x39, 0x3A, 0x3F].contains opc then
    some 1
  else none

def isRed (opc : Nat) : Bool := opc == 0x38 || opc == 0x39 || opc == 0x3A

/-- Selectors (R152). -/
inductive VSel where
  | input (i : Nat) | const (i : Nat) | res (k : Nat) | off | bad
  deriving DecidableEq, Repr

def vselOf (k sel : Nat) : VSel :=
  if sel < 4 then .input sel
  else if 8 ≤ sel && sel < 16 then .const (sel - 8)
  else if 0x11 ≤ sel && sel ≤ 0x18 then (if k > sel - 0x10 then .res (k - (sel - 0x10)) else .bad)
  else if sel == 0x3F then .off else .bad

/-- Whether a used selector of step `k` is one an operation may read (R160). -/
def Recipe.selOk (r : Recipe) (k sel : Nat) : Bool :=
  match vselOf k sel with
  | .input i => let d := (r.inp i).kind; d != 0 && d != 3 && d != 4
  | .const _ => true
  | .res j => !isRed (r.step j).opc
  | _ => false

/-- SHUF's pattern and parameter (R155). -/
def shufOk (imm : Nat) : Bool :=
  let p := imm / 256 % 256
  match imm % 256 with
  | 0 => 1 ≤ p && p ≤ 5
  | 1 | 4 => p < 32
  | 2 | 3 => p == 0
  | _ => false

def Recipe.stepOk (r : Recipe) (k : Nat) : Bool :=
  let st := r.step k
  !st.rsv && st.out != 3 && (st.opc != 0x31 || shufOk st.imm) &&
  (match vArity st.opc with
    | none => false
    | some n =>
      let use (i sel : Nat) : Bool := if i < n then r.selOk k sel else sel == 0x3F
      use 0 st.sa && use 1 st.sb && use 2 st.sc) &&
  (if st.out == 0 then true
   else (r.outp (st.out - 1)).kind != 0 && ((r.outp (st.out - 1)).kind == 2) == isRed st.opc)

/-- Whether an input kind, its format and its link stand (R151, R158, R160). -/
def perRowFmt (c : Nat) : Bool := [0, 1, 3, 5, 6, 7].contains c
def rowFmt (c : Nat) : Bool := c ≤ 10 && c != 8

/-- The steps that read input `i`. -/
def Recipe.readers (r : Recipe) (i : Nat) : List Nat :=
  ((List.range r.nsteps).map (· + 1)).filter fun k =>
    let st := r.step k
    st.sa == i || st.sb == i || st.sc == i

def Recipe.linkStepOk (r : Recipe) (k : Nat) : Bool := 1 ≤ k && k ≤ r.nsteps && !isRed (r.step k).opc

/-- Whether input `i` is one R160 lets run. A KIND of the wrong side, and an EXPAND whose LINK names no step though no step reads the
input, are taken as invalid too (DEDUCED, assumption log 26). -/
def Recipe.inOk (r : Recipe) (i : Nat) : Bool :=
  let v := r.inp i
  !v.rsv && match v.kind with
  | 0 => true
  | 1 => rowFmt v.fmtc
  | 2 => perRowFmt v.fmtc
  | 3 | 4 => v.fmtc == 8
  | 5 => perRowFmt v.fmtc && v.link < 4 && (r.inp v.link).kind == 3
  | 6 => perRowFmt v.fmtc && v.link < 4 && (r.inp v.link).kind == 4
  | 7 => perRowFmt v.fmtc && r.linkStepOk v.link && (r.readers i).all fun k => decide (v.link < k)
  | _ => false

/-- Whether output `o` is one R160 lets run; a KIND of the wrong side is taken as invalid (DEDUCED, assumption log 26). -/
def Recipe.outOk (r : Recipe) (o : Nat) : Bool :=
  let v := r.outp o
  let writers := ((List.range r.nsteps).map (· + 1)).filter fun k => (r.step k).out == o + 1
  !v.rsv && (if v.kind == 0 then true
    else writers.length == 1 && (v.qexp == 0 || v.fmtc == 3 || v.fmtc == 4) &&
      match v.kind with
      | 1 => rowFmt v.fmtc
      | 2 => perRowFmt v.fmtc
      | 8 => perRowFmt v.fmtc && r.linkStepOk v.link
      | _ => false)

/-- R160's checks. Fields that R150 gives as otherwise 0 and R160 does not list are not checked (assumption log 26). -/
def Recipe.ok (r : Recipe) : Bool :=
  !r.rsv && r.wmode != 3 && 1 ≤ r.nsteps && r.nsteps ≤ 24
    && 1 ≤ r.rows && r.rows ≤ 16777216 && 1 ≤ r.len && r.len ≤ 16777216
    && (List.range 4).all r.inOk && (List.range 2).all r.outOk
    && ((List.range r.nsteps).map (· + 1)).all r.stepOk

/-! Extents (R139, R160). -/

def VStream.size (v : VStream) : Nat := v.fmt.bits / 8

/-- Bytes of a row of elements, an output's padding included. -/
def Recipe.rowBytes (r : Recipe) (v : VStream) (out : Bool) : Nat :=
  match v.kind with
  | 1 => if out && v.fmt.isBlock then v.fmt.bytes (roundUp r.len 32) else v.fmt.bytes r.len
  | 2 => v.size
  | 3 => 4 * r.len
  | 4 => 4
  | 6 => v.size * r.len
  | _ => v.tlen * v.size

/-- The extent of `n` rows from a base: lowest address and length. -/
def rowsExt (base : Nat) (stride : Int) (n bytes : Nat) : Int × Nat :=
  let last : Int := (base : Int) + ((n - 1 : Nat) : Int) * stride
  let lo : Int := if last < base then last else base
  let hi : Int := if last < base then base else last
  (lo, (hi - lo).toNat + bytes)

def Recipe.elemExt (r : Recipe) (v : VStream) (out : Bool) : Int × Nat :=
  match v.kind with
  | 5 | 7 | 8 => (v.base, r.rowBytes v out)
  | 6 => if v.tlen == 0 then (v.base, 0) else rowsExt v.base v.rstride v.tlen (r.rowBytes v out)
  | _ => rowsExt v.base v.rstride r.rows (r.rowBytes v out)

def Recipe.scaleExt (r : Recipe) (v : VStream) : List (Int × Nat) :=
  if v.kind == 1 && v.fmt.isBlock then [(v.scaleBase, r.rows * cdiv r.len 32)] else []

/-- Every extent that must lie in the tile's own scratchpad. -/
def Recipe.ownExts (r : Recipe) (status : Nat) : List (Int × Nat) :=
  (r.ins.flatMap fun v =>
    if v.kind == 0 || v.kind == 5 || v.kind == 6 then [] else r.elemExt v false :: r.scaleExt v)
  ++ (r.outs.flatMap fun v => if v.kind == 0 then [] else r.elemExt v true :: r.scaleExt v)
  ++ [((status : Int), 8)]

/-- The lowest byte of an extent outside [lo, hi). -/
def outsideExt (lo hi : Nat) (e : Int × Nat) : Option Int :=
  if e.2 == 0 then none
  else if e.1 < lo || e.1 ≥ hi then some e.1
  else if e.1 + e.2 > hi then some hi else none

def minOpt (a b : Option Int) : Option Int :=
  match a, b with
  | some x, some y => some (if x < y then x else y)
  | some x, none => some x
  | none, y => y

/-- The trap of a gather table that does not lie in the tile's own scratchpad or the partition's DRAM (R4, R156, R160). -/
def State.tableCheck (s : State) (t : Nat) (e : Int × Nat) : Option (Cause × Int) :=
  if e.2 == 0 then none
  else if e.1 < 0 then some (.access, e.1)
  else
    let a := e.1.toNat
    if isDram a then (s.dramTrap (s.tile t).part a e.2).map fun b => (b.1, (b.2 : Int))
    else (s.outsideOwn t a e.2).map fun b => (.access, (b : Int))

/-- R160's area checks: the lowest address outside, over every extent; ABSENT_UNIT where a table names an absent stack. -/
def State.recipeArea (s : State) (t : Nat) (r : Recipe) (status : Nat) : Option (Cause × Word) :=
  let w := s.ownArea t
  let own := (r.ownExts status).foldl (fun o e => minOpt o (outsideExt w.1 w.2 e)) none
  let tabs := (r.ins.filter fun v => v.kind == 5 || v.kind == 6).map fun v => s.tableCheck t (r.elemExt v false)
  lowestTrap (((own.map fun a => (.access, a)) :: tabs).filterMap id)

/-- VEC.RUN (R112, R150, R160). -/
def execVecRun (t : Nat) (ga gb : Reg) (s : State) : Host.Outcome State Fault Refusal :=
  s.run t 8 (.vecRun t ga gb) fun s =>
    let a := (s.g t ga).toNat
    let v := s.g t ga
    orTrap (s.checkOwn t a 224 64 .recipe v) <| orHold s a 224 <|
      let n := fld (wordAt (s.descWords a 1).1 0) 61 57
      if n == 0 || n > 24 then .trap .recipe v
      else orTrap (s.checkOwn t a (224 + 8 * n) 64 .recipe v) <| orHold s a (224 + 8 * n) <|
        let d := s.descWords a (28 + n)
        let r := recipeOf d.1
        if !r.ok then .trap .recipe v
        else orTrap (s.recipeArea t r (s.g t gb).toNat) <|
          if (s.tile t).vecq.length ≥ 4 then .wait s 6
          else
            let x := d.2.tile t
            .done (d.2.setTile t { x with vecq := x.vecq ++ [{ desc := d.1, status := (s.g t gb).toNat }] })

/-! Arithmetic (R63, R64, R153, R154): values are codes of the working format. -/

structure VFlags where
  idx : Bool := false
  inv : Bool := false
  ovf : Bool := false
  dz : Bool := false
  lost : Bool := false
  deriving DecidableEq, Repr

def Val.isInf : Val → Bool
  | .inf _ => true
  | _ => false

/-- The smaller (`lo`) or larger of two values, NaN if either is, with R154's order of zeros. -/
def pickMin (lo : Bool) (a b : Val) : Val :=
  if a.isNan || b.isNan then .nan
  else if a.lt b then (if lo then a else b)
  else if b.lt a then (if lo then b else a)
  else if a.isNeg == lo then a else b

def Val.abs : Val → Val
  | .fin _ m e => .fin false m e
  | .inf _ => .inf false
  | .nan => .nan

def Val.withSign (s : Bool) : Val → Val
  | .fin _ m e => .fin s m e
  | .inf _ => .inf s
  | .nan => .nan

/-- The sign of a code, NaN included. -/
def signBit (f : Fmt) (c : Nat) : Bool := c / 2 ^ (f.bits - 1) % 2 == 1

/-- Where a bounded operation's operand is invalid (R64): the result is the canonical NaN. -/
def boundedInvalid (opc : Nat) (a : Val) : Bool :=
  match a with
  | .nan => true
  | .inf s => opc == 0x10 || opc == 0x11 || (s && (opc == 0x0B || opc == 0x0C))
  | .fin s m _ => s && m != 0 && (opc == 0x0B || opc == 0x0C)

/-- The code of the working format in an opaque choice. -/
def modeNum (f : Fmt) : Nat := match f with | .fp32 => 0 | .bf16 => 1 | _ => 2

/-- Reciprocal and reciprocal root: in FP32 any result within one ulp, in 16 bits correctly rounded (R64, assumption log 13). -/
def recipOp (f : Fmt) (opc a : Nat) (v : Val) : Nat :=
  match f, v with
  | .fp32, .fin s m e => if m == 0 then toFmt f v else bounded f opc (Config.vecBounded opc 0 a % 2 ^ 32) (0, 0) (sgnd s m, e)
  | _, _ => toFmt f v

/-- What operations 0x09 to 0x11 give of an operand that is no NaN and not invalid: the limits at the infinities, minus infinity
for the logarithm of zero, else a result within R64's bound. -/
def realResult (f : Fmt) (opc a : Nat) (v : Val) : Nat :=
  match v with
  | .nan => canonNan f
  | .inf s => toFmt f (match opc with
    | 0x09 | 0x0A => if s then .fin false 0 0 else .inf false
    | 0x0E => .fin false (if s then 0 else 1) 0
    | 0x0D | 0x0F => .fin s 1 0
    | _ => .inf s)
  | .fin s m e =>
    if m == 0 && (opc == 0x0B || opc == 0x0C) then toFmt f (.inf true)
    else bounded f opc (Config.vecBounded opc (modeNum f) a % 2 ^ f.bits) (sgnd s m, e) (realOp opc (sgnd s m) e)

def oneOr0 (f : Fmt) (b : Bool) : Nat := if b then toFmt f (.fin false 1 0) else 0

/-- The result of a step at one position, from its operands' codes; PERM, SHUF and the reductions are formed elsewhere. -/
def vecOp (f : Fmt) (opc imm r e a b c : Nat) : Nat :=
  let A := decode f 0 a
  let B := decode f 0 b
  let C := decode f 0 c
  match opc with
  | 0x01 => fAdd f a b
  | 0x02 => fSub f a b
  | 0x03 => fMul f a b
  | 0x04 => fFma f a b c
  | 0x05 => fDiv f a b
  | 0x06 => fSqrt f a
  | 0x07 => recipOp f opc a ((Val.fin false 1 0).div A)
  | 0x08 => recipOp f opc a ((Val.fin false 1 0).div A.sqrt)
  | 0x18 => toFmt f (pickMin true A B)
  | 0x19 => toFmt f (pickMin false A B)
  | 0x1A => toFmt f A.abs
  | 0x1B => toFmt f A.neg
  | 0x1C => toFmt f (A.withSign (signBit f b))
  | 0x20 => oneOr0 f (A.eqv B)
  | 0x21 => oneOr0 f (A.lt B)
  | 0x22 => oneOr0 f (A.lt B || A.eqv B)
  | 0x23 => if C.isZero then toFmt f B else toFmt f A
  | 0x24 => oneOr0 f (decide ((e : Int) - (r : Int) ≤ signedOf 32 imm))
  | 0x25 => oneOr0 f A.isNan
  | 0x3F => toFmt f A
  | _ =>
    if boundedInvalid opc A then canonNan f else realResult f opc a A

/-- The flags a step's result raises (R161, assumption log 27). -/
def vecFlags (f : Fmt) (opc : Nat) (ops : List Nat) (res : Nat) (fl : VFlags) : VFlags :=
  let vs := ops.map (decode f 0)
  let v := decode f 0 res
  { fl with
    inv := fl.inv || (v.isNan && !vs.any Val.isNan),
    ovf := fl.ovf || (v.isInf && vs.all fun x => !x.isNan && !x.isInf),
    dz := fl.dz || (match opc with
      | 0x05 => vs.any Val.isZero
      | 0x07 | 0x08 | 0x0B => (vs.getD 0 .nan).isZero
      | _ => false) }

/-- SHUF's source position (R155). -/
def shufPos (imm i : Nat) : Nat :=
  let p := imm / 256 % 256
  match imm % 256 with
  | 0 => i ^^^ (2 ^ p - 1)
  | 1 => (i + p) % 32
  | 2 => 16 * (i % 2) + i / 2
  | 3 => 2 * (i % 16) + i / 16
  | _ => p

/-- PERM's source position from operand B: an integer 0 to 31. -/
def permPos (f : Fmt) (b : Nat) : Option Nat :=
  match decode f 0 b with
  | .fin s m e =>
    if m == 0 then some 0
    else if s || e > 8 then none
    else
      let n : Nat := if e ≥ 0 then m * 2 ^ e.toNat else m / 2 ^ (-e).toNat
      if (if e ≥ 0 then true else m % 2 ^ (-e).toNat == 0) && n < 32 then some n else none
  | _ => none

/-! Reductions (R159). -/

/-- One halving of R159's tree of partial sums. -/
def pairUp : List Nat → List Nat
  | a :: b :: r => fAdd .fp32 a b :: pairUp r
  | l => l

/-- RSUM over a row: 64 partial sums, then the tree. -/
def rsum (f : Fmt) (xs : List Nat) : Nat :=
  let p := ((List.range xs.length).zip xs).foldl (fun (p : List Nat) ix =>
    p.set (ix.1 % 64) (fAdd .fp32 (p.getD (ix.1 % 64) 0) (toFmt .fp32 (decode f 0 ix.2)))) (List.replicate 64 0)
  (pairUp (pairUp (pairUp (pairUp (pairUp (pairUp p)))))).headD 0

/-- RMAX and RMIN over a row. -/
def rpick (f : Fmt) (lo : Bool) : List Nat → Val
  | [] => .nan
  | [x] => decode f 0 x
  | x :: xs => pickMin lo (decode f 0 x) (rpick f lo xs)

/-- A reduction's value. -/
def reduce (f : Fmt) (opc : Nat) (xs : List Nat) : Val :=
  if opc == 0x38 then decode .fp32 0 (rsum f xs) else rpick f (opc == 0x3A) xs

def redFlags (f : Fmt) (xs : List Nat) (v : Val) (fl : VFlags) : VFlags :=
  let vs := xs.map (decode f 0)
  { fl with inv := fl.inv || (v.isNan && !vs.any Val.isNan),
            ovf := fl.ovf || (v.isInf && vs.all fun x => !x.isNan && !x.isInf) }

/-! A run. -/

/-- What a run carries from group to group: state (the L1 moves with gathers), flags, elements consumed by each EXPAND
input. -/
structure VRun where
  s : State
  fl : VFlags := {}
  used : List Nat := [0, 0, 0, 0]

/-- Codes of elements at an address of the scratchpad, in their storage format. -/
def State.spElem (s : State) (a n : Nat) : Nat := leNat (Mem.readN s.mem a n)

/-- An input element as the working format (R149). -/
def toWork (w f : Fmt) (scale c : Nat) : Nat := toFmt w (decode f scale c)

/-- An element of a ROW input. -/
def State.rowElem (s : State) (r : Recipe) (v : VStream) (row e : Nat) : Nat :=
  let a := ((v.base : Int) + row * v.rstride).toNat
  let f := v.fmt
  let raw := if f.bits == 4 then s.spElem (a + e / 2) 1 else s.spElem (a + e * v.size) v.size
  let c := if f.bits == 4 then (if e % 2 == 0 then raw % 16 else raw / 16 % 16) else raw
  toWork r.wf f (if f.isBlock then s.spElem (v.scaleBase + row * cdiv r.len 32 + e / 32) 1 else 0) c

/-- The signed index at (row, e) of an INDEX or INDEX_PR input. -/
def State.idxAt (s : State) (v : VStream) (row e : Nat) : Int :=
  let a := ((v.base : Int) + row * v.rstride).toNat
  signedOf 32 (s.spElem (if v.kind == 3 then a + 4 * e else a) 4)

/-- A gathered element at an address: through the scratchpad or the L1; lost data reads as NaN (R156). -/
def VRun.fetch (x : VRun) (t : Nat) (w f : Fmt) (a : Nat) : Nat × VRun :=
  let n := f.bits / 8
  if isDram a then
    let q := (List.range n).foldl (fun (acc : List L1Byte × State) i =>
      let b := acc.2.l1Gather t (a + i)
      (acc.1 ++ [b.1], b.2)) ([], x.s)
    if q.1.any (·.lost) then (canonNan w, { x with s := q.2, fl := { x.fl with lost := true } })
    else (toWork w f 0 (leNat (q.1.map (·.v))), { x with s := q.2 })
  else (toWork w f 0 (x.s.spElem a n), { x with s := x.s.meetBytes ((List.range n).map (a + ·)) })

/-- One element of a gather (R151, R156). -/
def VRun.gather (x : VRun) (t : Nat) (r : Recipe) (v : VStream) (row e : Nat) : Nat × VRun :=
  let i := x.s.idxAt (r.inp v.link) row e
  if i < 0 || i ≥ v.tlen then (0, { x with fl := { x.fl with idx := true } })
  else
    let a : Int := if v.kind == 5 then (v.base : Int) + i * v.size else (v.base : Int) + i * v.rstride + (e * v.size : Nat)
    x.fetch t r.wf v.fmt a.toNat

/-- Threads a run through a list of positions. -/
def VRun.mapM (f : VRun → Nat → Nat × VRun) : VRun → List Nat → List Nat × VRun
  | x, [] => ([], x)
  | x, e :: es =>
    let y := f x e
    let z := VRun.mapM f y.2 es
    (y.1 :: z.1, z.2)

/-- The values of an input at the positions `es` of a row; an EXPAND input is filled by its LINK step. -/
def VRun.input (x : VRun) (t : Nat) (r : Recipe) (i row : Nat) (es : List Nat) : List Nat × VRun :=
  let v := r.inp i
  match v.kind with
  | 1 => (es.map fun e => x.s.rowElem r v row e, x)
  | 2 =>
    let c := toWork r.wf v.fmt 0 (x.s.spElem ((v.base : Int) + row * v.rstride).toNat v.size)
    (es.map fun _ => c, x)
  | 5 | 6 => VRun.mapM (fun x e => x.gather t r v row e) x es
  | _ => (es.map fun _ => 0, x)

/-- An EXPAND input's values where its LINK step's results hold (R158). -/
def VRun.expand (x : VRun) (r : Recipe) (i : Nat) (pred : List Nat) : List Nat × VRun :=
  let v := r.inp i
  VRun.mapM (fun x p =>
    if (decode r.wf 0 p).isZero then (0, x)
    else
      let k := x.used.getD i 0
      let x := { x with used := x.used.set i (k + 1) }
      if k ≥ v.tlen then (0, { x with fl := { x.fl with idx := true } })
      else (toWork r.wf v.fmt 0 (x.s.spElem (v.base + k * v.size) v.size),
        { x with s := x.s.meetBytes ((List.range v.size).map (v.base + k * v.size + ·)) })) x pred

/-- The values a selector names. -/
def selVals (r : Recipe) (k sel : Nat) (ins res : List (List Nat)) (n : Nat) : List Nat :=
  match vselOf k sel with
  | .input i => ins.getD i []
  | .const i => List.replicate n (toFmt r.wf (decode .fp32 0 (r.consts.getD i 0)))
  | .res j => res.getD (j - 1) []
  | _ => List.replicate n 0

/-- One step over a group of up to 32 positions starting at `e0`. -/
def groupStep (r : Recipe) (k row e0 n : Nat) (ins res : List (List Nat)) (fl : VFlags) : List Nat × VFlags :=
  let st := r.step k
  let f := r.wf
  let as := selVals r k st.sa ins res n
  let bs := selVals r k st.sb ins res n
  let cs := selVals r k st.sc ins res n
  let at_ (l : List Nat) (i : Nat) : Nat := l.getD i 0
  if isRed st.opc then (as, fl)
  else if st.opc == 0x31 then ((List.range n).map fun i => at_ as (shufPos st.imm i), fl)
  else if st.opc == 0x30 then
    ((List.range n).map (fun i => match permPos f (at_ bs i) with | some j => at_ as j | none => canonNan f),
      { fl with inv := fl.inv || (List.range n).any fun i => (permPos f (at_ bs i)).isNone })
  else
    let ar := (vArity st.opc).getD 0
    let out := (List.range n).map fun i => vecOp f st.opc st.imm row (e0 + i) (at_ as i) (at_ bs i) (at_ cs i)
    (out, (List.range n).foldl (fun fl i =>
      vecFlags f st.opc ([at_ as i, at_ bs i, at_ cs i].take ar) (at_ out i) fl) fl)

/-- The EXPAND inputs that step `k` supplies. -/
def VRun.fillExpand (r : Recipe) (k : Nat) (pred : List Nat) (x : VRun) (ins : List (List Nat)) : List (List Nat) × VRun :=
  (List.range 4).foldl (fun (acc : List (List Nat) × VRun) i =>
    if (r.inp i).kind == 7 && (r.inp i).link == k then
      let q := acc.2.expand r i pred
      (acc.1.set i q.1, q.2)
    else acc) (ins, x)

/-- Every step over one group: each step's results. -/
def VRun.group (x : VRun) (t : Nat) (r : Recipe) (row e0 n : Nat) : List (List Nat) × VRun :=
  let es := (List.range n).map (e0 + ·)
  let q := (List.range 4).foldl (fun (acc : List (List Nat) × VRun) i =>
    let v := acc.2.input t r i row es
    (acc.1 ++ [v.1], v.2)) ([], x)
  let z := (List.range r.nsteps).foldl (fun (acc : List (List Nat) × List (List Nat) × VRun) k0 =>
    let k := k0 + 1
    let g := groupStep r k row e0 n acc.1 acc.2.1 acc.2.2.fl
    let y := VRun.fillExpand r k g.1 { acc.2.2 with fl := g.2 } acc.1
    (y.1, acc.2.1 ++ [g.1], y.2)) (q.1, [], q.2)
  (z.2.1, z.2.2)

/-- A whole row: each step's results along it, in lane groups of 32 (R155). -/
def VRun.row (x : VRun) (t : Nat) (r : Recipe) (row : Nat) : List (List Nat) × VRun :=
  (List.range (cdiv r.len 32)).foldl (fun (acc : List (List Nat) × VRun) g =>
    let n := min 32 (r.len - 32 * g)
    let q := acc.2.group t r row (32 * g) n
    (if acc.1.isEmpty then q.1 else (acc.1.zip q.1).map fun p => p.1 ++ p.2, q.2)) ([], x)

/-! Outputs. -/

/-- A piece of output: which output, where, its bytes. -/
structure VPiece where
  o : Nat := 0
  addr : Nat := 0
  bytes : List Byte := []
  deriving DecidableEq, Repr

/-- What the outputs have gathered: pieces, elements whose conversion overflowed, negative v, positions selected. -/
structure VOut where
  pieces : List VPiece := []
  ovf : Nat := 0
  neg : Nat := 0
  count : Nat := 0
  deriving DecidableEq, Repr

def encOut (v : VStream) (x : Val) : Nat × Bool := encode v.fmt .rne (satByRow v.fmt false) v.qexp x

/-- A ROW output's row (R149, R151). -/
def rowOut (v : VStream) (o len row : Nat) (xs : List Val) (acc : VOut) : VOut :=
  let a := ((v.base : Int) + row * v.rstride).toNat
  if v.fmt.isBlock then
    let bl := (chunks 32 (padTo 32 (Val.fin false 0 0) xs)).map (encodeBlock v.fmt)
    let cs := bl.flatMap fun b => b.2.1
    { acc with
      pieces := acc.pieces ++ [⟨o, a, (codeBytes v.fmt (cs.map some)).map (·.getD 0)⟩,
        ⟨o, v.scaleBase + row * cdiv len 32, bl.map fun b => BitVec.ofNat 8 b.1⟩],
      ovf := acc.ovf + (bl.map fun b => b.2.2.1).sum, neg := acc.neg + (bl.map fun b => b.2.2.2).sum }
  else
    let es := xs.map (encOut v)
    { acc with pieces := acc.pieces ++ [⟨o, a, (codeBytes v.fmt (es.map fun e => some e.1)).map (·.getD 0)⟩],
               ovf := acc.ovf + (es.filter (·.2)).length }

/-- One output's share of a row, from each step's results along it (R151, R157, R159). -/
def outRow (r : Recipe) (o row : Nat) (res : List (List Nat)) (acc : VOut) (fl : VFlags) : VOut × VFlags :=
  let v := r.outp o
  match (List.range r.nsteps).find? fun k => (r.step (k + 1)).out == o + 1 with
  | none => (acc, fl)
  | some k =>
    let xs := res.getD k []
    match v.kind with
    | 1 => (rowOut v o r.len row (xs.map (decode r.wf 0)) acc, fl)
    | 2 =>
      let y := reduce r.wf (r.step (k + 1)).opc xs
      let e := encOut v y
      ({ acc with pieces := acc.pieces ++ [⟨o, ((v.base : Int) + row * v.rstride).toNat, leBytes v.size e.1⟩],
                  ovf := acc.ovf + e.2.toNat }, redFlags r.wf xs y fl)
    | _ =>
      let keep := ((xs.zip (res.getD (v.link - 1) [])).filter fun p => !(decode r.wf 0 p.2).isZero).map (·.1)
      let es := (keep.take (v.tlen - acc.count)).map fun c => encOut v (decode r.wf 0 c)
      ({ acc with
         pieces := acc.pieces ++ [⟨o, v.base + acc.count * v.size, es.flatMap fun e => leBytes v.size e.1⟩],
         ovf := acc.ovf + (es.filter (·.2)).length, count := acc.count + keep.length }, fl)

/-- Reductions that write no output still raise flags. -/
def idleReds (r : Recipe) (res : List (List Nat)) (fl : VFlags) : VFlags :=
  (List.range r.nsteps).foldl (fun fl k =>
    let st := r.step (k + 1)
    if isRed st.opc && st.out == 0 then
      let xs := res.getD k []
      redFlags r.wf xs (reduce r.wf st.opc xs) fl
    else fl) fl

/-- The whole run: outputs as pieces, what it carried. Each output keeps its own COMPRESS count. -/
def Recipe.run (r : Recipe) (t : Nat) (s : State) : VOut × VOut × VRun :=
  (List.range r.rows).foldl (fun (acc : VOut × VOut × VRun) row =>
    let q := acc.2.2.row t r row
    let a := outRow r 0 row q.1 acc.1 q.2.fl
    let b := outRow r 1 row q.1 acc.2.1 a.2
    (a.1, b.1, { q.2 with fl := idleReds r q.1 b.2 })) ({}, {}, { s := s })

/-! Overlaps (R163). -/

/-- The byte ranges an input's rows take: element rows and scale rows. -/
def Recipe.inRanges (r : Recipe) (v : VStream) : List (Nat × Nat) :=
  match v.kind with
  | 0 => []
  | 5 | 7 => [(v.base, r.rowBytes v false)]
  | 6 => (List.range v.tlen).map fun (k : Nat) => (((v.base : Int) + (k : Int) * v.rstride).toNat, r.rowBytes v false)
  | _ => (List.range r.rows).flatMap fun (k : Nat) =>
      (((v.base : Int) + (k : Int) * v.rstride).toNat, r.rowBytes v false)
        :: (if v.kind == 1 && v.fmt.isBlock then [(v.scaleBase + k * cdiv r.len 32, cdiv r.len 32)] else [])

/-- Whether output `o` overwrites input `i` in place, exactly. -/
def Recipe.inPlace (r : Recipe) (i o : Nat) : Bool :=
  let v := r.inp i
  let w := r.outp o
  v.kind == 1 && w.kind == 1 && v.base == w.base && v.fmtc == w.fmtc && v.rstride == w.rstride
    && (!v.fmt.isBlock || v.scaleBase == w.scaleBase)

def inRange (a : Nat) (g : Nat × Nat) : Bool := decide (g.1 ≤ a) && decide (a < g.1 + g.2)

/-- Whether byte `a` of piece `n` overlaps what the run reads, other than in place, or another piece. -/
def Recipe.overlapped (r : Recipe) (ps : List VPiece) (n : Nat) (p : VPiece) (a : Nat) : Bool :=
  ((List.range 4).any fun i => !r.inPlace i p.o && (r.inRanges (r.inp i)).any (inRange a))
  || ((List.range ps.length).zip ps).any fun q => q.1 != n && inRange a (q.2.addr, q.2.bytes.length)

/-- The bytes of a piece as they end, an overlapped one a free value. -/
def Recipe.blur (r : Recipe) (ps : List VPiece) (n : Nat) (p : VPiece) (idx : Nat) : List Byte :=
  p.bytes.mapIdx fun i b => if r.overlapped ps n p (p.addr + i) then Config.freeByte (idx + p.addr + i) else b

/-- COUNT (R157, R161): of the COMPRESS output; a free value where both outputs are COMPRESS. -/
def Recipe.countOf (r : Recipe) (a b idx : Nat) : Nat :=
  if (r.outp 0).kind == 8 && (r.outp 1).kind == 8 then (Config.freeWord idx).toNat else a + b

/-- The status word (R161). COUNT keeps its low 32 bits where more positions are selected (DESIGN CHOICE, assumption log 70). -/
def vecStatus (count ovf neg : Nat) (fl : VFlags) (code : Nat) : Word :=
  BitVec.ofNat 64 (count % 2 ^ 32 * 2 ^ 32 + satAt ovf 0xFFFF * 2 ^ 16 + satAt neg 0xFF * 2 ^ 8 + fl.idx.toNat * 2 ^ 7
    + fl.inv.toNat * 2 ^ 6 + fl.ovf.toNat * 2 ^ 5 + fl.dz.toNat * 2 ^ 4 + code % 16)

/-- What a run reads from its own scratchpad, besides gathers and packed runs, meets its error state (R127). -/
def State.meetInputs (s : State) (r : Recipe) : State :=
  if s.spErr.isEmpty then s
  else s.meetBytes ((r.ins.filter fun v => v.kind != 5 && v.kind != 6 && v.kind != 7).flatMap fun v =>
    (r.inRanges v).flatMap fun g => (List.range g.2).map (g.1 + ·))

/-- VEC_RUN_COMPLETE (R148 to R163): the oldest accepted run takes its effect, its status word last. With none accepted,
or with a byte it reads still owed to a cut-through entry (R193), nothing happens. -/
def execVecRunComplete (t : Nat) (s : State) : Host.Outcome State Fault Refusal :=
  match (s.tile t).vecq with
  | [] => .next s
  | v :: rest =>
    let r := recipeOf v.desc
    if !s.handles.isEmpty && r.ins.any (fun v => (r.inRanges v).any fun g => s.cutPending g.1 g.2) then .next s
    else
    let z := r.run t (s.meetInputs r)
    let s := z.2.2.s
    let ps := z.1.pieces ++ z.2.1.pieces
    let idx := s.freeIdx
    let s := ((List.range ps.length).zip ps).foldl (fun s np =>
      s.writeSp np.2.addr (r.blur ps np.1 np.2 idx)) { s with freeIdx := s.freeIdx + 1 }
    let fl := z.2.2.fl
    let s := s.writeSp v.status (leBytes 8
      (vecStatus (r.countOf z.1.count z.2.1.count idx) (z.1.ovf + z.2.1.ovf) (z.1.neg + z.2.1.neg) fl fl.lost.toNat).toNat)
    .next ((s.setTile t { s.tile t with vecq := rest }).fillerSettle t)

/-- A fence stops the tile's runs (R164): the running one may have written any part of its outputs, each byte by a free
value; every status word holds CODE 2, and 0 in every other field (DESIGN CHOICE, assumption log 70). -/
def State.vecFence (s : State) (t : Nat) : State :=
  match (s.tile t).vecq with
  | [] => s
  | v :: rest =>
    let r := recipeOf v.desc
    let z := r.run t s
    let idx := s.freeIdx
    let s := (z.1.pieces ++ z.2.1.pieces).foldl (fun s p =>
      s.writeAny (s.tile t).part p.addr (p.bytes.mapIdx fun i b =>
        if Config.freeByte (idx + p.addr + i) = 0 then none else some b)) { s with freeIdx := s.freeIdx + 1 }
    let s := (v :: rest).foldl (fun s w => s.writeSp w.status (leBytes 8 2)) s
    s.setTile t { s.tile t with vecq := [] }

end Sys2Proof.Machine
end

