-- ==== Sys2Proof/Machine/Partition.lean ====
section
/-! DEFINITION. The partition table and a job's life (R349 to R353, R436, R438), what a fence discards (R20), the key slots a
placement loads (R379). -/
namespace Sys2Proof.Machine

/-! The table (R349, R350). -/

/-- The groups PART_TILES_LO and PART_TILES_HI name. -/
def State.tileRegs (s : State) (p : Nat) : Nat :=
  (s.rg dieMerA (partOff p + 8)).toNat + s.rf dieMerA (partOff p + 0x10) 31 0 * 2 ^ 64

def State.setTileRegs (s : State) (p groups : Nat) : State :=
  (s.setRg dieMerA (partOff p + 8) (BitVec.ofNat 64 groups)).setRg dieMerA (partOff p + 0x10)
    (BitVec.ofNat 64 (groups / 2 ^ 64 % 2 ^ 32))

/-- Whether every group named may be held by partition `p` (R349). -/
def State.groupsOk (s : State) (p groups : Nat) : Bool :=
  (List.range 96).all fun j =>
    !natBit groups j
    || (s.groupServes j
        && (List.range 8).all fun q => q == p || !((s.part q).valid && natBit (s.part q).groups j))

/-- A write of VALID = 1. -/
def State.partValid (s : State) (p : Nat) : State :=
  let x := s.part p
  let g := s.tileRegs p
  let ok := s.groupsOk p g
  if x.valid then
    if x.st == .idle then
      if ok then s.setPart p { x with groups := g, cfgErr := false }
      else (s.setPart p { x with cfgErr := true }).setTileRegs p x.groups
    else s
  else if ok then s.setPart p { x with valid := true, st := .idle, groups := g, cfgErr := false }
  else s.setPart p { x with cfgErr := true }

/-- Erases a partition's key slots: no key reads what was written (R350, R380). -/
def State.eraseKey (s : State) (p : Nat) : State :=
  let r := s.freshKeyId
  r.2.setPart p { r.2.part p with keyId := r.1 }

/-- A write of VALID = 0. -/
def State.partInvalid (s : State) (p : Nat) : State :=
  let x := s.part p
  if x.st == .idle then
    (s.setPart p { x with valid := false, st := .empty, groups := 0, refused := false, debug := false }).eraseKey p
  else s.setPart p { x with refused := true }

def execPartValidate (p : Nat) (_v : Word) (s : State) : Host.Outcome State Fault Refusal := .next (s.partValid p)
def execPartInvalidate (p : Nat) (_v : Word) (s : State) : Host.Outcome State Fault Refusal := .next (s.partInvalid p)

/-- PART_CFG and PART_JOB as they read. -/
def State.partCfg (s : State) (p : Nat) : Word :=
  let x := s.part p
  BitVec.ofNat 64 (x.valid.toNat * 2 ^ 63 + pstateCode x.st * 2 ^ 60 + (x.debug).toNat * 2 ^ 59 + x.filler.toNat * 2 ^ 58
    + x.cfgErr.toNat * 2 ^ 57 + x.refused.toNat * 2 ^ 56)

def State.partJob (s : State) (p : Nat) : Word := BitVec.ofNat 64 ((s.part p).job * 2 ^ 32)

/-! Placement. -/

/-- The state a tile is set to when a job is placed on it (R436, R174, R176); a tile the image gives no code has its part
end at once (R438). -/
def State.placeTile (p : Nat) (s : State) (t : Nat) : State :=
  let x := s.tile t
  let y := { x with queues := [] }
  let disc := x.advanceEpochs
  let s := s.clearSp t
  let s := ((s.setRg (t / 96) (trapOff t + 8) 0).setRg (t / 96) (trapOff t + 0x10) 0).setRg (t / 96) (trapOff t + 0x18) 0
  let code := (s.part p).env.job.tiles.any fun e => e.1 == t
  let s := s.setTile t { y with
    live := false, part := p, job := (s.part p).job, debug := (s.part p).debug, ctx := {}, saved := none, deadline := 0,
    ending := false, arrays := [], l1 := {}, epoch := disc.epoch, closed := false, counts := [], wd := [], sel := 0 }
  if code then s else s.stopTile t

/-- The control software loads FC_TSEV from the image, none above S3 (R389). -/
def State.loadTsev (s : State) (p : Nat) : State :=
  (s.part p).env.job.tsev.foldl (fun s e =>
    if e.1 < 6 then s.setRg dieMerA (fcTsevOff p e.1) (BitVec.ofNat 64 (min e.2 3)) else s) s

def State.resetTsev (s : State) (p : Nat) : State :=
  (List.range 6).foldl (fun s n => s.setRg dieMerA (fcTsevOff p n) (BitVec.ofNat 64 (sevReset n))) s

/-- A start enters PLACING (R351, R379): key slots, DEBUG, the state of every tile. `job` is its number. -/
def State.place (s : State) (p job : Nat) (env : Envelope) : State :=
  let r := s.freshKeyId
  let s := r.2.setPart p { r.2.part p with
    st := .placing, job := job, debug := env.debug, filler := false, env := env
    keyId := if env.memKeySupplied then suppliedKeyId env.memKey else r.1 }
  let s := s.loadTsev p
  (s.part p).tiles.foldl (State.placeTile p) s

/-! The end of a job. -/

/-- The transfers of a fenced tile stop: an unspecified part of a running one's destination is written, and the tags return
(R143, R144). -/
def State.dmaFence (s : State) (t : Nat) : State :=
  let x := s.tile t
  let s := (x.dma.filter fun d => d.running && !d.waiting && !d.refused && d.status.isNone).foldl (fun s d =>
    let r := s.dmaRows x.part d.slot (dmaOf d.desc)
    let idx := r.2.freeIdx
    let some_ (a : Nat) (bs : List (Option Byte)) : List (Option Byte) :=
      bs.mapIdx fun i b => if Config.freeByte (idx + a + i) = 0 then none else b
    r.1.rows.reverse.foldl (fun s row =>
      let s := s.writeAny x.part row.1.toNat (some_ row.1.toNat row.2.1)
      if row.2.2.2.isEmpty then s else s.writeAny x.part row.2.2.1.toNat (some_ row.2.2.1.toNat row.2.2.2))
      { r.2 with freeIdx := idx + 1 }) s
  let s := { s with tags := s.tags.filter fun g => g.2 != t }
  s.setTile t { s.tile t with dma := [] }

/-- Everything one tile has in flight discarded, a filler task with the rest (R359), and its part ended (R20, R164, R172). -/
def State.fenceTile (s : State) (t : Nat) : State :=
  let s := (s.dmaFence t).vecFence t
  let x := s.tile t
  let s := s.setTile t { x with mmaq := [], queues := [], saved := none, ctx := x.saved.getD x.ctx, ending := false }
  let s := { s with msgs := s.msgs.filter fun m => m.sender != t }
  s.stopTile t

/-- A FENCE of a partition (R20, R351): work in flight is discarded everywhere. A version its mirrored groups committed and the mirror
lacks is copied again from its start (R204, R205). -/
def State.fence (s : State) (p : Nat) : State :=
  let s := s.setPart p { s.part p with st := .fenced, filler := false }
  let s := State.fwSettle { s with msgs := s.msgs.filter fun m => m.part != p }
  let s := (s.part p).tiles.foldl State.fenceTile s
  let s := s.clearFillers p
  let s := s.slFence p
  let gs := (s.groups.map (·.1)).filter fun g => s.alValid g && s.alPart g == p
  let s := gs.foldl State.alFence s
  let s := ((s.rxFence p).exFence p).mediaFence p
  let drop (kv : Nat × Link) : Nat × Link := (kv.1, { kv.2 with txq := kv.2.txq.filterMap (fencedItem p) })
  let hold (kv : Nat × List RegWait) : Nat × List RegWait := if kv.1 / 32 % 8 == p then (kv.1, []) else kv
  let s := { s with links := s.links.map drop, regWaits := s.regWaits.map hold }
  gs.foldl State.alCopy ((s.partEvent p 2).markOps 0x10 p 2 1)

/-- A fence command or a fault's fence: only in PLACING, RUNNING or ENDING (R353, R392). -/
def State.fenceIf (s : State) (p : Nat) : State :=
  match (s.part p).st with
  | .placing | .running | .ending => s.fence p
  | _ => s

/-- A stop (R353): in PLACING or RUNNING the job's tiles end. -/
def State.stopJob (s : State) (p : Nat) : State :=
  match (s.part p).st with
  | .placing => (s.enterEnding p 1 true).markOps 0x10 p 2 1
  | .running => s.enterEnding p 1 true
  | _ => s

/-- A job's end completes: the partition is IDLE, and the operations waiting for it complete (R351, R389, R411). -/
def State.toIdle (s : State) (p : Nat) : State :=
  let s := s.setPart p { s.part p with st := .idle, debug := false }
  (((s.resetTsev p).completeOps 0x10 p).completeOps 0x11 p).completeOps 0x12 p

/-- Bytes at rising addresses gathered into writes that each lie in one 64 B codeword. -/
def imageWrites : List (Nat × Byte) → List (Nat × List Byte)
  | [] => []
  | (a, b) :: r =>
    match imageWrites r with
    | (g, bs) :: q => if g == a + 1 && g % 64 != 0 then (a, b :: bs) :: q else (a, [b]) :: (g, bs) :: q
    | [] => [(a, [b])]

/-- Places the image's bytes in the partition's frames and its tiles' scratchpads (R351, R379), a whole codeword or unit as one write. -/
def State.loadImage (s : State) (p : Nat) (bs : List (Nat × Byte)) : State :=
  (imageWrites bs).foldl (fun s w =>
    if isDram w.1 then (if s.owner w.1 == p then s.storeCw p (w.1 / 64) (updFrom (w.1 % 64) (w.2.map some)) else s)
    else match spTile w.1 with
      | some t => if natBit (s.part p).groups (t / 8) then s.writeSp w.1 w.2 else s
      | none => s) s

/-- A tile starts at the entry the image gives (R436), on the 4-byte boundary that an instruction lies on (R96; DESIGN CHOICE, assumption
log 22); a tile retired or fenced meanwhile starts no job (R346, R387). -/
def State.startTile (p : Nat) (s : State) (e : Nat × Nat) : State :=
  if natBit (s.part p).groups (e.1 / 8) && s.tilePresent e.1 && s.groupServes (e.1 / 8) then
    let x := s.tile e.1
    let tr := x.transit
    let tr := if tr.ended then { tr with since := s.now (e.1 / 96), ended := false } else tr
    s.setTile e.1 { x with live := true, ctx := { pc := BitVec.ofNat 48 (e.2 / 4 * 4) }, transit := tr }
  else s

/-- PLACING_COMPLETE (R379, R438): a chunk or digest that fails fences; TENANT_DATA is written before any tile starts. -/
def execPlacingComplete (p : Nat) (s : State) : Host.Outcome State Fault Refusal :=
  let x := s.part p
  if x.st != .placing then .next s
  else if !x.env.chunksOk || !x.env.digestOk then .next ((s.markOps 0x10 p 2 3).fence p)
  else
    let s := s.loadImage p x.env.job.load
    let s := match x.tiles with
      | t :: _ => s.writeSp (spBase t) ((List.range 256).map fun i => x.env.tenantData.getD i 0)
      | [] => s
    let s := x.env.job.tiles.foldl (State.startTile p) s
    let s := (s.setPart p { s.part p with st := .running }).completeOps 0x10 p
    .next (if x.tiles.any fun t => (s.tile t).live then s else s.enterEnding p 0 true)

/-- Whether the requests of partition `p` that went beyond its tiles' units have completed too (R121, R351): contributions wholly
arrived at their homes, applies and commits made, exchange records landed, accesses no longer waiting at a regulator. -/
def State.requestsDone (s : State) (p : Nat) : Bool :=
  (s.colls.all fun kv => s.rxPart kv.1 != p
    || (kv.2.contribs.all (fun x => x.tile.isNone || s.rxWhole kv.1 x) && kv.2.applies.all fun a => a.gone))
  && (s.groups.all fun kv => s.alPart kv.1 != p || kv.2.commits.isEmpty)
  && (s.exch.all fun kv => s.exPart kv.1 != p || kv.2.flight.isEmpty)
  && s.regWaits.all fun kv => kv.1 / 32 % 8 != p || kv.2.isEmpty

/-- ENDING_COMPLETE: once every accepted request has completed (R351). -/
def execEndingComplete (p : Nat) (s : State) : Host.Outcome State Fault Refusal :=
  let x := s.part p
  if x.st == .ending && x.tiles.all s.unitsIdle && s.requestsDone p then .next (s.toIdle p) else .next s

/-- FENCE_COMPLETE: once every discard has completed (R351). -/
def execFenceComplete (p : Nat) (s : State) : Host.Outcome State Fault Refusal :=
  if (s.part p).st == .fenced then .next (s.toIdle p) else .next s

/-- TILE_RESET: the control software resets a tile. A running part ends, which advances its epochs; at any other time they advance
(R168, R174; DEDUCED, assumption log 41). -/
def execTileReset (t : Nat) (s : State) : Host.Outcome State Fault Refusal :=
  .next (if !s.tilePresent t then s
    else if (s.tile t).live then s.tileEnded t false else s.setTile t (s.tile t).advanceEpochs)

end Sys2Proof.Machine
end

