-- ==== Sys2Proof/Machine/Fault.lean ====
section
/-! DEFINITION. The fault collector (chapter 18): lines and paths, severities and scopes, records, clearing, ERR_N. -/
namespace Sys2Proof.Machine

/-! The collector's registers (R397). -/

def fcOff : Nat := 0x1200000

/-- BOOT_STATUS.PHASE (R407): 0 ROM, 1 ROT, 2 DIE, 3 OS, 4 READY, 5 RECOVERY, 6 STOPPED. -/
def State.phase (s : State) : Nat := s.rf dieMerA 0x3000 63 60
def State.setBootPhase (s : State) (n : Nat) : State := s.setRf dieMerA 0x3000 63 60 n

/-- The collector runs from the DIE stage on (boot timeline of chapter 19). -/
def State.collectorRuns (s : State) : Bool := s.pins.powered && [2, 3, 4, 6].contains s.phase

def State.stopped (s : State) : Bool := s.rb dieMerA (fcOff + 8) 62

/-- Highest severity among the records (FC_STATUS.MAXSEV). -/
def State.maxSev (s : State) : Nat := s.recs.foldl (fun a kv => max a kv.2.sev) 0

/-- What lets ERR_N be high besides the driver's refresh (R396). -/
def State.errnClear (s : State) : Bool :=
  s.collectorRuns && !s.stopped && (s.recs.all fun kv => kv.2.sev < s.rf dieMerA fcOff 2 0)

/-- Whether the ERR_N driver was refreshed in the last 100 µs of Meridian-A's counter; else it lapses and lets the pin go (R396, R424,
R425). -/
def State.errnFresh (s : State) : Bool := s.pins.errnDriven && decide ((s.now dieMerA + 2 ^ 64 - s.pins.errnAt) % 2 ^ 64 ≤ 100000)

/-- ERR_N reads high. -/
def State.errnHigh (s : State) : Bool := s.errnFresh && s.errnClear

/-- FC_STATUS as it reads. -/
def State.fcStatus (s : State) : Word :=
  BitVec.ofNat 64 ((!s.errnHigh).toNat * 2 ^ 63 + s.rf dieMerA (fcOff + 8) 62 60 * 2 ^ 60 + s.maxSev * 2 ^ 48 + s.recs.length)

/-- The words of record `r` (R394); a free one is zero. -/
def State.fcRec (s : State) (r : Nat) : List Word :=
  match s.recs.find r with
  | none => [0, 0, 0, 0]
  | some x =>
    [BitVec.ofNat 64 (x.src * 2 ^ 54 + x.sev * 2 ^ 51 + x.cond.toNat * 2 ^ 50 + x.active.toNat * 2 ^ 49 + x.fenced.toNat * 2 ^ 48
      + (match x.part with | some p => 2 ^ 47 + p * 2 ^ 44 | none => 0) + x.count * 2 ^ 28 + x.inst % 4096),
     BitVec.ofNat 64 (x.job * 2 ^ 32), BitVec.ofNat 64 x.firstNs, x.value]

/-! Scopes and actions. -/

/-- Whether a partition owns a frame in stack `m`. -/
def State.ownsIn (s : State) (p m : Nat) : Bool :=
  let lo := ctlAddr (m / 3) (ownOff m 0)
  s.stackPresent m && (s.regs.any fun kv => decide (lo ≤ kv.1) && decide (kv.1 < lo + 0x4000)
    && (List.range 16).any fun i => fld kv.2 (4 * i + 3) (4 * i) == p)

/-- Whether a partition holds tiles of die `d`. -/
def State.tilesOn (s : State) (p d : Nat) : Bool :=
  decide (d < 8) && (s.part p).valid && (List.range 12).any fun j => natBit (s.part p).groups (12 * d + j)

/-- The partitions in a report's scope (R391). -/
def State.scope (s : State) (r : Report) : List Nat :=
  let all := List.range 8
  if r.src < 0x10 then r.part.toList
  else if r.src < 0x14 then
    all.filter fun p => s.tilesOn p r.inst || (decide (r.inst < 8) && (List.range 3).any fun j => s.ownsIn p (3 * r.inst + j))
  else if [0x21, 0x24, 0x25].contains r.src then all.filter fun p => s.ownsIn p (r.inst / 16)
  else if [0x1F, 0x20, 0x22, 0x23].contains r.src then all.filter fun p => s.ownsIn p r.inst
  else if 0x30 ≤ r.src then r.linkParts
  else if r.src == 0x1C || r.src == 0x1D then [s.alPart r.inst]
  else if r.src == 0x1A || r.src == 0x1B || r.src == 0x27 then [s.exPart r.inst]
  else if r.src == 0x1E then [s.rxPart r.inst]
  else if r.src == 0x26 then [(s.slEnd r.inst).part]
  else if r.src == 0x15 then [s.rf dieMerA (0xE00000 + 16 * r.inst) 62 60]
  else if r.src == 0x18 || r.src == 0x28 then [s.ingPart r.inst]
  else if r.src == 0x19 then [s.pPart]
  else []

/-- Whether a fence acts on a partition's state (R392). -/
def State.fenceable (s : State) (p : Nat) : Bool :=
  (s.part p).st == .placing || (s.part p).st == .running || (s.part p).st == .ending

/-- The partitions a report fences: in scope, running the job it carries, in a state that can be fenced (R392). -/
def State.toFence (s : State) (r : Report) : List Nat :=
  (s.scope r).filter fun p => s.fenceable p && r.jobs.contains (p, (s.part p).job)

def State.setDieFenced (s : State) (d : Nat) : State := s.setRb dieMerA 0x1010 d true

/-- Whether a report fences its die (R387). -/
def fencesDie (r : Report) : Bool := r.src == 0x11 && (decide (r.inst < 8) || r.inst == dieMdl || r.inst == dieGuest)

/-- An S4 report stops the package (R393). -/
def State.stopPackage (s : State) : State :=
  let s := (List.range 8).foldl State.fenceIf s
  let s := ((s.tiles.filter fun kv => kv.2.live).map (·.1)).foldl State.stopTile s
  (s.setRb dieMerA (fcOff + 8) 62 true).setBootPhase 6

/-- The record a report adds to, a free one, or the one it replaces (R394). -/
def State.recFor (s : State) (r : Report) : Option (Nat × Bool) :=
  match s.recs.find? fun kv => kv.2.src == r.src && kv.2.inst == r.inst with
  | some kv => some (kv.1, true)
  | none =>
    match (List.range 256).find? fun i => (s.recs.find i).isNone with
    | some i => some (i, false)
    | none =>
      if r.sev < 2 then none
      else
        let low := s.recs.filter fun kv => kv.2.sev < 2
        match low with
        | [] => none
        | kv :: rest => some ((rest.foldl (fun a b => if b.2.order < a.2.order then b else a) kv).1, false)

/-- Stores or coalesces a report (R394); a new record of S1 or above sets PENDING and interrupts (R388). -/
def State.storeReport (s : State) (r : Report) (fenced : Bool) : State :=
  match s.recFor r with
  | none => s.addRg dieMerA (fcOff + 0x18) 1
  | some (i, true) =>
    let x := s.recs.val {} i
    { s with recs := s.recs.put i { x with
        count := satAt (x.count + 1) 0xFFFF, fenced := x.fenced || fenced, active := x.active || (r.cond && !r.ended) } }
  | some (i, false) =>
    let x : FcRec := { src := r.src, inst := r.inst, sev := r.sev, cond := r.cond, active := r.cond && !r.ended, fenced := fenced, part := r.part, job := r.job, count := 1, firstNs := s.now dieMerA, value := r.value, order := s.recOrder }
    let s := { s with recs := s.recs.put i x, recOrder := s.recOrder + 1 }
    if r.sev ≥ 1 then
      let s := s.setRb dieMerA (fcOff + 8) 60 true
      if s.rb dieMerA fcOff 8 then s.emit .faultInterrupt else s
    else s

/-- A report applied (R388): the record, then what its severity calls for. -/
def State.applyReport (s : State) (r : Report) : State :=
  let fen := if r.sev == 4 then (List.range 8).filter s.fenceable else if r.sev == 3 then s.toFence r else []
  let die := decide (r.sev ≥ 3) && fencesDie r
  let s := s.storeReport r (!fen.isEmpty || die)
  let s := fen.foldl State.fenceIf s
  let s := if die then s.setDieFenced r.inst else s
  if r.sev == 4 then s.stopPackage else s

/-- Whether a die's whole path is broken (R386). -/
def State.pathDead (s : State) (d : Nat) : Bool := s.brokenLines.contains (d, 2 ^ 64 - 1)

/-- The line by which a report leaves its unit (R385). -/
def Report.line (r : Report) : Nat := Config.faultLine r.die r.src r.inst

/-- Whether a report that has not come by its line yet can come no more: its line is broken, or its die's whole path (R385, R386). -/
def State.unheard (s : State) (r : Report) : Bool :=
  !r.forwarded && (s.pathDead r.die || s.brokenLines.contains (r.die, r.line))

/-- FAULT_REPORT: report number `i` on its way reaches the collector, unless its line or its die's path is broken (R385, R386, R388). -/
def execFaultReport (i : Nat) (s : State) : Host.Outcome State Fault Refusal :=
  match s.reports[i]? with
  | none => .next s
  | some r =>
    if !s.collectorRuns || s.unheard r then .next s
    else .next ({ s with reports := s.reports.eraseIdx i }.applyReport r)

/-! Lines and paths (R385, R386). -/

/-- A die's path declared broken: FC_PATH, and PATH_BROKEN with the line number, or all ones for the whole path. -/
def State.breakPath (s : State) (d line : Nat) : State :=
  if !s.diePresent d then s
  else
    let had := s.rb dieMerA (fcOff + 0x20) d
    let s := { s with brokenLines := if s.brokenLines.contains (d, line) then s.brokenLines else s.brokenLines ++ [(d, line)] }
    if had then s
    else
      let s := (s.setRb dieMerA (fcOff + 0x20) d true).report 0x11 d none (BitVec.ofNat 64 line)
      { s with reports := s.reports.map fun r => if r.src == 0x11 && r.inst == d then { r with forwarded := true } else r }

/-- A line breaks. -/
def State.breakLine (s : State) (d line : Nat) : State :=
  if s.brokenLines.contains (d, line) then s else s.breakPath d line

/-- FC_LINE_WORD: with every pair valid the word, report number `i` of a unit on that line, is accepted and forwarded, if every pair has
returned to the spacer since the word before; an invalid pair breaks the line (R385). -/
def execFcLineWord (d line : Nat) (rails : List (Bool × Bool)) (i : Nat) (s : State) : Host.Outcome State Fault Refusal :=
  if s.brokenLines.contains (d, line) then .next s
  else if rails.any fun b => b.1 && b.2 then .next (s.breakLine d line)
  else if rails.all fun b => !b.1 && !b.2 then .next { s with lineUp := s.lineUp.filter (· != (d, line)) }
  else if (rails.all fun b => b.1 != b.2) && !s.lineUp.contains (d, line) then
    let t := { s with lineUp := s.lineUp ++ [(d, line)] }
    match s.reports[i]? with
    | some r => .next (if r.die == d && r.line == line then { t with reports := s.reports.set i { r with forwarded := true } } else t)
    | none => .next t
  else .next s

def execFcLineWordTimeout (d line : Nat) (s : State) : Host.Outcome State Fault Refusal := .next (s.breakLine d line)
def execFcLineSilence (d line : Nat) (s : State) : Host.Outcome State Fault Refusal := .next (s.breakLine d line)

/-- FC_LINE_TEST_WORD: a line that sends is not silent. -/
def execFcLineTestWord (d line : Nat) (s : State) : Host.Outcome State Fault Refusal :=
  .next (if s.diePresent d && !s.brokenLines.contains (d, line) then s.emit (.testWord d line) else s)

/-- FC_HEARTBEAT: the path is heard; nothing else changes. -/
def execFcHeartbeat (_d : Nat) (s : State) : Host.Outcome State Fault Refusal := .next s

def execFcPathTimeout (d : Nat) (s : State) : Host.Outcome State Fault Refusal := .next (s.breakPath d (2 ^ 64 - 1))

/-! Clearing (R395) and ERR_N (R396). -/

/-- Whether a record may be cleared. -/
def FcRec.clears (x : FcRec) : Bool := x.sev != 4 && !(x.cond && x.active)

/-- A clear naming one record. -/
def State.clearRecord (s : State) (r : Nat) : State :=
  match s.recs.find r with
  | none => s
  | some x => if x.clears then { s with recs := s.recs.del r } else s.setRb dieMerA (fcOff + 8) 61 true

def State.clearAll (s : State) : State := { s with recs := s.recs.filter fun kv => !kv.2.clears }

def execFcClearRecord (r : Nat) (s : State) : Host.Outcome State Fault Refusal := .next (s.clearRecord r)
def execFcClearAll (s : State) : Host.Outcome State Fault Refusal := .next s.clearAll

/-- ERRN_REFRESH: a running collector refreshes the driver; the level is what R396 says. -/
def execErrnRefresh (s : State) : Host.Outcome State Fault Refusal :=
  if s.collectorRuns then
    let s := { s with pins := { s.pins with errnDriven := true, errnAt := s.now dieMerA } }
    .next (s.emit (.errN s.errnHigh))
  else .next s

end Sys2Proof.Machine
end

