-- ==== Sys2Proof/Machine/Link.lean ====
section
/-! DEFINITION. Chip-to-chip links (chapter 14): training, cells, acknowledgement and retransmission, retraining, link state,
reroute and hold, and the reference endpoint. -/
namespace Sys2Proof.Machine

/-! Registers (R325). -/

/-- LK_STATUS.STATE: 0 DOWN, 1 DETECT, 2 EQ, 3 LANE, 4 ALIGN, 5 IDENT, 6 ACTIVE, 7 RETRAIN. -/
def State.lkState (s : State) (l : Nat) : Nat := s.lkF l 0x10 63 60
def State.setLkState (s : State) (l n : Nat) : State := s.setLkF l 0x10 63 60 n
def State.lkEn (s : State) (l : Nat) : Bool := s.lkB l 0 63
def State.lkEvent (s : State) (l bit : Nat) : State := s.setLkB l 0x28 bit true

/-- LK_TX (0) to LK_NOROUTE (11). -/
def State.lkCount (s : State) (l k n : Nat) : State := s.addRg (linkDie l) (lkOff l + 0x40 + 8 * k) n

/-- A change of a link's record. -/
def State.upLink (s : State) (l : Nat) (f : Link → Link) : State := s.setLink l (f (s.link l))

/-- Links that transmit: the package is powered and not stopped (R393). -/
def State.lkRuns (s : State) (l : Nat) : Bool := s.linkPresent l && s.pins.powered && !s.rb dieMerA 0x1200008 62

/-! Cells (R306). -/

def target (c : LkCell) : Nat := c.object % 4096 * 2 ^ 36 + c.offset % 2 ^ 36

def cellWord0 (c : LkCell) : Word :=
  BitVec.ofNat 64 (c.ty * 2 ^ 60 + c.vc.toNat * 2 ^ 59 + c.enc.toNat * 2 ^ 58 + c.hops % 64 * 2 ^ 52 + c.seq % 4096 * 2 ^ 40
    + c.len % 256 * 2 ^ 32 + c.cls % 16 * 2 ^ 28 + target c / 2 ^ 20)

def cellWord1 (c : LkCell) : Word :=
  BitVec.ofNat 64 (c.ack % 4096 * 2 ^ 52 + c.sack.toNat * 2 ^ 20 + target c % 2 ^ 20)

/-- Bytes 0x00 to 0xFB of a cell. -/
def cellHead (c : LkCell) : List Byte :=
  leBytes 8 (cellWord0 c).toNat ++ leBytes 8 (cellWord1 c).toNat ++ (c.payload ++ List.replicate (232 - c.payload.length) 0).take 232
    ++ leBytes 4 (c.crReq % 65536 * 65536 + c.crRsp % 65536)

/-- A cell with the CRC of its bytes. -/
def sealCell (c : LkCell) : LkCell := { c with crc := crc32 (cellHead c) }

/-- A message as payload words 0 to 3 of a LINKCTL cell, and read from them (R316). -/
def ctlPayload (m : LkMsg) : List Byte :=
  bytesOf [BitVec.ofNat 64 (m.msg * 2 ^ 56 + m.arg % 256 * 2 ^ 48), m.devId,
    BitVec.ofNat 64 (m.epoch.toNat * 2 ^ 32 + m.link % 32 * 2 ^ 27 + m.failed % 32 * 2 ^ 22), BitVec.ofNat 64 (m.finalAck % 4096 * 2 ^ 52)]

def ctlRead (c : LkCell) : LkMsg :=
  let ws := wordsOf 4 c.payload
  let w (i : Nat) : Word := wordAt ws i
  { msg := fld (w 0) 63 56, arg := fld (w 0) 55 48, devId := w 1, epoch := (w 2).extractLsb' 32 32, link := fld (w 2) 31 27,
    failed := fld (w 2) 26 22, finalAck := fld (w 3) 63 52 }

/-- SACK of a receiver: bit i for cell ACK + 1 + i. -/
def sackOf (k : Link) : BitVec 32 :=
  BitVec.ofNat 32 ((List.range 32).foldl (fun a i => natSet a i (k.held.any fun c => seqDiff c.seq k.ack == 1 + i)) 0)

/-- The acknowledgement and credit fields current now; ACK_HOLD freezes the first two (R306, R328). -/
def Link.stamp (k : Link) (c : LkCell) : LkCell :=
  let a := k.refHold.getD (k.ack, sackOf k)
  { c with ack := a.1, sack := a.2, crReq := k.freedReq, crRsp := k.freedRsp }

/-! The reference endpoint's capture (R329). -/

/-- One capture record, in frames of the control cores. -/
def State.capture (s : State) (l : Nat) (c : LkCell) (flags : Nat) : State :=
  let n := s.lkF l 0x110 63 56
  if (s.link l).refEp && s.lkB l 0x100 63 && 8 ≤ n && n ≤ 24 then
    let h := (s.rg (linkDie l) (lkOff l + 0x130)).toNat
    let ns := (s.now (linkDie l) + 2 ^ 64 - (s.link l).refStart) % 2 ^ 64
    let rec4 := [BitVec.ofNat 64 ns, cellWord0 c, cellWord1 c, BitVec.ofNat 64 (h % 2 ^ 32 * 2 ^ 32 + flags)]
    let s := s.writeDram 8 (s.lkF l 0x110 47 0 + h % 2 ^ n * 32) ((bytesOf rec4).map some)
    s.addRg (linkDie l) (lkOff l + 0x130) 1
  else s

/-- Messages that need no answer any more, on whichever link they are repeated. -/
def State.dropCtl (s : State) (f : LkMsg → Bool) : State :=
  { s with links := s.links.map fun kv => (kv.1, { kv.2 with ctlOpen := kv.2.ctlOpen.filter fun m => !f m }) }

/-! Reroute and return (R320, R321): whose cells a link carries. -/

/-- Whether a link still carries cells of a failed link. -/
def Link.carries (k : Link) (f : Nat) : Bool := (k.txq.any fun x => x.home.contains f) || k.replay.any fun r => r.home.contains f

/-- The flows of returned links move back once every rerouted cell of theirs is acknowledged, whichever link carries it (R321). -/
def State.flowsBack (s : State) : State :=
  (List.range 24).foldl (fun s f =>
    let k := s.link f
    match k.carriedBy with
    | none => s
    | some p =>
      if !k.returning || (List.range 24).any (fun q => (s.link q).carries f) then s
      else
        let s := (s.setLink f { k with carriedBy := none, returning := false }).setLkB f 0x10 56 false
        let s := s.dropCtl fun m => m.msg == 6 && m.failed == f
        if (List.range 24).any fun g => (s.link g).carriedBy == some p then s else s.setLkB p 0x10 55 false) s

/-! Link state (R318). -/

/-- Cells in a link's replay and receive buffers, and entries in its crossing from the network. -/
def Link.cells (k : Link) : Nat := k.replay.length + k.held.length + k.reqBuf.length + k.txq.length

/-- A new state of a link's send direction: SEQ and the counts of cells sent zero, the replay buffer empty. -/
def Link.freshSend (k : Link) : Link :=
  { k with nextSeq := 0, replay := [], retx := [], sentReq := 0, sentRsp := 0, peerReq := 0, peerRsp := 0, firings := 0, ivCount := 0 }

/-- A new state of a link's receive direction: ACK and the counts of slots freed zero, the receive buffers empty. -/
def Link.freshRecv (k : Link) : Link :=
  { k with ack := 0, held := [], reqBuf := [], voids := [], rxCount := 0, freedReq := 0, freedRsp := 0, urgent := false,
           closed := false, asked := false }

/-- A new link state: SEQ, ACK and credit counts zero, the link layer's buffers empty. -/
def Link.fresh (k : Link) : Link := { k.freshSend.freshRecv with ackFirst := false, parts := [] }

/-- REQ cells of a link that wait in another's buffer since a reroute belong to its old state: they free no slot of the new one (R314,
R320). -/
def State.agedReq (s : State) (l : Nat) : State :=
  { s with links := s.links.map fun kv =>
      (kv.1, { kv.2 with reqBuf := kv.2.reqBuf.map fun c => if c.via == l then { c with old := true } else c }) }

/-- A new state of a link's receive direction (R318, R321). -/
def State.freshRecv (s : State) (l : Nat) : State := (s.upLink l Link.freshRecv).agedReq l

/-- A new state of both directions. -/
def State.freshLink (s : State) (l : Nat) : State := (s.upLink l Link.fresh).agedReq l

/-- Begins a new link state; what the old one held is counted lost and reported, and the crossing resynchronises (R34, R318). No
encryption is agreed in it yet (R325). -/
def State.newLinkState (s : State) (l : Nat) : State :=
  let n := (s.link l).cells
  let t := if n == 0 then s else ((s.lkCount l 9 n).lkEvent l 4).reportX 0x31 l none
  (((t.upLink l fun k => { k with txq := [] }).freshLink l).crossReset (1024 + l)).flowsBack.setLkB l 0x10 54 false

/-- The traffic of a link ends its hold (R322). -/
def State.endHold (s : State) (l : Nat) : State :=
  if s.lkB l 0x10 57 then (s.setLkB l 0x10 57 false).endCond 0x32 l else s

/-! Reroute, hold and return (R319 to R322). -/

/-- Whether link `p` is ACTIVE and its IDENT reported the same peer as link `l`'s. -/
def State.partnerOk (s : State) (l p : Nat) : Bool :=
  decide (p < 24) && p != l && s.linkPresent p && s.lkState p == 6
    && s.rg (linkDie p) (lkOff p + 0x18) == s.rg (linkDie l) (lkOff l + 0x18)

/-- A LINKCTL message of this end (R316). -/
def State.lkMsg (s : State) (l msg arg failed : Nat) : LkMsg :=
  { msg := msg, arg := arg, devId := s.devId, epoch := s.lkEpoch l, link := l, failed := failed }

/-- Offers a message to a link, once, or until it is answered. -/
def State.lkTell (s : State) (l : Nat) (m : LkMsg) (repeated : Bool) : State :=
  s.upLink l fun k => { k with ctl := k.ctl ++ [m], ctlOpen := if repeated then k.ctlOpen ++ [m] else k.ctlOpen }

/-- Whether a link carries traffic: cells sent or received in its link state, or waiting; or flows still to come back. -/
def Link.busy (k : Link) : Bool :=
  !k.replay.isEmpty || !k.txq.isEmpty || !k.parts.isEmpty || k.sentReq != 0 || k.sentRsp != 0 || k.returning

/-- Starts a reroute to the partner (R320, step 1). -/
def State.askReroute (s : State) (l : Nat) : State :=
  let p := (s.link l).downPartner
  if (s.link p).ctlOpen.any fun m => m.msg == 4 && m.failed == l then s else s.lkTell p (s.lkMsg p 4 0 l) true

/-- A LINKCTL cell goes out with the acknowledgement and credit fields current now (R306, R309, R316, R329). -/
def State.lkSay (s : State) (l : Nat) (m : LkMsg) : State :=
  let c := sealCell ((s.link l).stamp { ty := 2, hops := 0, len := 32 + m.frag.length, payload := ctlPayload m ++ m.frag })
  (s.emit (.cell l c)).capture l c 0

/-- A link holds: reported once per hold (R322). -/
def State.hold (s : State) (l : Nat) : State :=
  if s.lkB l 0x10 57 then s else ((s.setLkB l 0x10 57 true).lkEvent l 6).reportX 0x32 l none

/-- The send direction of a link that goes DOWN: rerouted or held, by the PARTNER of that event (R319, R322, R325, R326). Flows
that its partner carries for it go on there; those on their way back go through the rule again. -/
def State.downRule (s : State) (l : Nat) : State :=
  let p := (s.link l).downPartner
  if ((s.link l).carriedBy.isSome && !(s.link l).returning) || !(s.link l).busy then s
  else if !(s.link l).refEp && s.partnerOk l p then s.askReroute l
  else
    let other := !(s.link l).refEp && p < 24 && p != l && s.linkPresent p && s.lkState p == 6
    (if other then s.lkEvent l 7 else s).hold l

/-- A link that is DOWN or reset ends the reroutes it was asked for: those links hold. -/
def State.dropAsked (s : State) (l : Nat) : State :=
  let asked := ((s.link l).ctlOpen.filter fun m => m.msg == 4).map (·.failed)
  asked.foldl State.hold (s.upLink l fun k => { k with ctl := [], cap := 8, ctlOpen := [] })

/-- A link goes DOWN, or a training attempt fails (R304, R313); PARTNER and MIRROR are those of this event (R325). -/
def State.goDown (s : State) (l : Nat) : State :=
  let was := s.lkState l
  let s := ((s.setLkState l 0).lkEvent l 0).upLink l fun k => { k with firings := 0, downPartner := s.lkF l 0 59 55, mirror := s.lkB l 0 60 }
  let s := s.dropAsked l
  if was ≥ 6 then s.downRule l else s

/-- Payload pieces that fit a link's cells (R306, R320, R324); OFFSET stands still in classes that give it none (R307). -/
def splitItem (n : Nat) (x : TxItem) : List TxItem :=
  if n == 0 then [x]
  else
    match chunks n x.payload with
    | [] => [x]
    | ps => ps.mapIdx fun i b => { x with payload := b, offset := if x.cls == 5 || x.cls == 7 then x.offset else x.offset + i * (n / 8) }

/-- The failed link's cells go to the partner as new cells, ahead of its further traffic (R320, step 3); MIRROR cells stay where the
partner is no mirror link (R323). -/
def State.handOver (s : State) (f p final : Nat) : State :=
  let k := s.link f
  let n := seqDiff final ((k.replay.head?.map (·.cell.seq)).getD k.nextSeq)
  let old := (k.replay.drop (min n k.replay.length)).map fun r =>
    ({ cls := r.cell.cls, vc := r.cell.vc, object := r.cell.object, offset := r.cell.offset, hops := r.cell.hops, payload := r.plain,
       part := r.part, home := r.home } : TxItem)
  let stays (x : TxItem) : Bool := x.cls == 4 && !(s.link p).mirror
  let go := (old ++ k.txq).filter fun x => !stays x
  let s := s.setLink f { k with replay := [], retx := [], txq := (old ++ k.txq).filter stays, carriedBy := some p, returning := false }
  let s := s.upLink p fun q => { q with
    txq := q.txq ++ go.map fun x => { x with home := x.home ++ [f] }
    ctlOpen := q.ctlOpen.filter fun m => !(m.msg == 4 && m.failed == f), parts := listUnion q.parts k.parts }
  ((s.setLkB f 0x10 56 true).setLkB p 0x10 55 true).endHold f

/-- This end's number of the link its peer calls `n`, on the peer that link `l` leads to. -/
def State.peerLink (s : State) (l n : Nat) : Option Nat :=
  (List.range 24).find? fun f => s.linkPresent f && s.lkF f 0x10 41 37 == n
    && s.rg (linkDie f) (lkOff f + 0x18) == s.rg (linkDie l) (lkOff l + 0x18)

/-! Training (R303 to R305). -/

def goodCount (m : BitVec 9) : Nat := ((List.range 9).filter fun i => m.getLsbD i).length

/-- The width code that a number of good lanes and a cap allow: 0 x1 to 3 x8. -/
def widthFor (good cap : Nat) : Option Nat := [3, 2, 1, 0].find? fun w => 2 ^ w ≤ good && 2 ^ w ≤ cap

/-- Lane tests: LK_LANES and the width; none when it falls below MIN_WIDTH or no lane is good (R303). -/
def State.laneTest (s : State) (l : Nat) (tx rx : BitVec 9) : Option Nat × State :=
  let bad := (s.link l).refBadLanes
  let tx := tx &&& ~~~bad
  let rx := rx &&& ~~~bad
  let s := (s.setLkF l 0x20 63 55 tx.toNat).setLkF l 0x20 54 46 rx.toNat
  let w := widthFor (min (goodCount tx) (goodCount rx)) (s.link l).cap
  let s := s.upLink l fun k => { k with cap := 8, refBadLanes := 0 }
  match w with
  | some v => (if v ≥ s.lkF l 0 54 53 then some v else none, s)
  | none => (none, s)

/-- Coefficients stored in the training record at the end of a successful training (R305, R344). -/
def State.storeCoeffs (s : State) (l : Nat) : State :=
  let r := s.draw
  r.2.train fun t => { t with linkCoeffs := t.linkCoeffs.put l (Config.freeWord r.1), goodLanes := t.goodLanes.put l (s.lkF l 0x20 63 46) }

/-- DETECT: training frames on all lanes; REFEP takes effect (R304, R326). A package that is stopped sends none: its link stays DOWN
(R393). -/
def State.enterDetect (s : State) (l : Nat) : State :=
  if s.lkRuns l then ((s.setLkState l 1).upLink l fun k => { k with refEp := s.lkB l 0 61 }).emit (.frames l) else s.setLkState l 0

def lkCfgMask : Word := maskOf 63 53 ||| maskOf 47 32

/-- A write of LK_CFG: ENC and REFEP take writes only while EN is 0 (R325). -/
def State.lkCfgWrite (s : State) (l : Nat) (v : Word) : State :=
  let old := s.rg (linkDie l) (lkOff l)
  let w := v &&& lkCfgMask
  s.setRg (linkDie l) (lkOff l) (if bitOf old 63 then setFld w 62 61 (fld old 62 61) else w)

/-- LK_ENABLE. MIRROR applies as a link is enabled, and from then on at DOWN events (R325; assumption log 49). -/
def execLkEnable (l : Nat) (v : Word) (s : State) : Host.Outcome State Fault Refusal :=
  if !s.linkPresent l then .next s
  else
    let was := s.lkEn l
    let s := s.lkCfgWrite l (setBit v 63 true)
    .next (if was then s else (s.upLink l fun k => { k with mirror := s.lkB l 0 60 }).enterDetect l)

/-- LK_DISABLE: the link state ends, the link goes DOWN, and a new epoch is drawn (R318). -/
def execLkDisable (l : Nat) (v : Word) (epoch : BitVec 32) (s : State) : Host.Outcome State Fault Refusal :=
  if !s.linkPresent l then .next s
  else
    let s := (s.lkCfgWrite l (setBit v 63 false)).newLinkState l
    .next ((if s.lkState l == 0 then s else s.goDown l).setLkF l 0x20 31 0 epoch.toNat)

/-- LK_CTL_RESET (R318): from DETECT where the link is enabled. -/
def execLkCtlReset (l : Nat) (epoch : BitVec 32) (s : State) : Host.Outcome State Fault Refusal :=
  if !s.linkPresent l then .next s
  else
    let s := (s.newLinkState l).setLkF l 0x20 31 0 epoch.toNat
    let s := s.dropAsked l
    .next (if s.lkEn l then s.enterDetect l else s)

/-- LK_DETECT_REPEAT: frames again; a link DOWN with EN = 1 begins again at DETECT (R304). -/
def execLkDetectRepeat (l : Nat) (s : State) : Host.Outcome State Fault Refusal :=
  .next (if s.lkRuns l && s.lkEn l && s.lkState l < 2 then s.enterDetect l else s)

/-- LK_PEER_DETECTED. -/
def execLkPeerDetected (l : Nat) (s : State) : Host.Outcome State Fault Refusal :=
  .next (if s.lkRuns l && s.lkEn l && s.lkState l < 2 then
    (if s.lkState l == 0 then s.enterDetect l else s).setLkState l 2 else s)

/-- LK_EQ_DONE: cold where the training record holds no coefficients for the link, or when they failed (R305). -/
def execLkEqDone (l : Nat) (storedOk : Bool) (s : State) : Host.Outcome State Fault Refusal :=
  .next (if s.linkPresent l && s.lkState l == 2 then
    (s.setLkB l 0x10 53 (!((s.trainRec.linkCoeffs.find l).isSome && storedOk))).setLkState l 3 else s)

/-- LK_LANE_DONE. -/
def execLkLaneDone (l : Nat) (tx rx : BitVec 9) (s : State) : Host.Outcome State Fault Refusal :=
  if !s.linkPresent l || s.lkState l != 3 then .next s
  else
    let r := s.laneTest l tx rx
    match r.1 with
    | some w => .next ((r.2.setLkF l 0x10 59 58 w).setLkState l 4)
    | none => .next (r.2.goDown l)

/-- Offers a string of bytes to the peer in IDENT cells of 200 B each, once and in order (R381). -/
def State.lkSendParts (s : State) (l : Nat) (bs : List Byte) : State :=
  (chunks 200 bs).foldl (fun s b => s.lkTell l { s.lkMsg l 1 (s.lkB l 0 62).toNat 0 with frag := b } false) s

/-- LK_ALIGN_DONE: IDENT is sent and repeated until answered (R304, R316); where the link encrypts, the identity quote with the
encapsulation key goes with it, and what the peer sends of its own is gathered anew (R381). -/
def execLkAlignDone (l : Nat) (s : State) : Host.Outcome State Fault Refusal :=
  .next (if s.linkPresent l && s.lkState l == 4 then
    let s := (s.setLkState l 5).lkTell l (s.lkMsg l 1 (s.lkB l 0 62).toNat 0) true
    let s := s.upLink l fun k => { k with identIn := [] }
    if s.lkB l 0 62 && s.rotState == 1 then s.lkSendParts l s.rot.idQuote else s
  else s)

/-- LK_TRAIN_TIMEOUT: every state from EQ to IDENT, and RETRAIN (R304, R313). -/
def execLkTrainTimeout (l : Nat) (s : State) : Host.Outcome State Fault Refusal :=
  .next (if s.linkPresent l && ((2 ≤ s.lkState l && s.lkState l ≤ 5) || s.lkState l == 7) then s.goDown l else s)

/-- What the peer's ACK, SACK and credit counts do (R312, R314). -/
def Link.takeAck (k : Link) (c : LkCell) : Link :=
  let first := (k.replay.head?.map (·.cell.seq)).getD k.nextSeq
  let d := seqDiff c.ack first
  let n := if d ≤ k.replay.length then d else 0
  let rest := k.replay.drop n
  let at_ (r : Replay) : Nat := seqDiff r.cell.seq c.ack
  let rest := rest.map fun r => if 1 ≤ at_ r && at_ r ≤ 32 && c.sack.getLsbD (at_ r - 1) then { r with arrived := true } else r
  let top := (List.range 32).foldl (fun a i => if c.sack.getLsbD i then i + 1 else a) 0
  let missing (r : Replay) : Bool := decide (at_ r < top) && !r.arrived && !r.sackRetx
  { k with
    replay := rest.map fun r => if missing r then { r with sackRetx := true } else r,
    retx := (k.retx.filter fun q => rest.any fun r => r.cell.seq == q && !r.arrived) ++ ((rest.filter missing).map (·.cell.seq)).filter fun q => !k.retx.contains q,
    firings := if n > 0 then 0 else k.firings, peerReq := c.crReq, peerRsp := c.crRsp }

def wireBad (c : LkCell) : Bool := c.fecBad || c.crc != crc32 (cellHead c)

/-- FEC codewords that ended with a cell (R325). -/
def State.fecCount (s : State) (l : Nat) (c : LkCell) : State := (s.lkCount l 6 c.fecCorr).lkCount l 7 c.fecUncorr

/-- A cell that is damaged: counted, captured as it came (R308, R329). -/
def State.rxDamaged (s : State) (l : Nat) (c : LkCell) : State :=
  ((s.lkCount l 5 1).upLink l fun k => { k with damagedWin := k.damagedWin + 1 }).capture l c 3

/-- A LINKCTL cell arrives, in IDENT or later: damaged, or captured; in ACTIVE it brings its acknowledgement and credit fields like any
other (R306, R308, R312, R329). The answer says whether its message is heard. -/
def State.lkHear (s : State) (l : Nat) (c : LkCell) : Bool × State :=
  if !s.lkRuns l || s.lkState l < 5 then (false, s)
  else
    let s := s.fecCount l c
    if wireBad c then (false, s.rxDamaged l c)
    else
      let s := s.capture l c 1
      (true, if s.lkState l == 6 then (s.upLink l fun k => k.takeAck c).flowsBack else s)

/-- A link becomes ACTIVE: links that hold for it as their partner reroute, or, where it leads to another package, note a bad partner
(R319); its own flows return, copies start (R204, R320 to R322). -/
def State.activeRule (s : State) (l : Nat) : State :=
  let s := (List.range 24).foldl (fun s f =>
    if s.linkPresent f && s.lkB f 0x10 57 && (s.link f).downPartner == l && !(s.link f).refEp && s.lkState f != 6 then
      (if s.partnerOk f l then s.askReroute f else if f == l then s else s.lkEvent f 7)
    else s) s
  let s := match (s.link l).carriedBy with
    | some p =>
      if (s.link l).returning then s
      else
        let q := (State.carrierGo 24 s false p []).1
        (s.upLink l fun k => { k with returning := true }).lkTell q (s.lkMsg q 6 0 l) true
    | none => s
  let s := s.flowsBack
  if (s.link l).mirror then s.alCopyAll else s

/-! Retraining (R315, R317). -/

def State.widthLanes (s : State) (l : Nat) : Nat := 2 ^ s.lkF l 0x10 59 58

/-- RETRAIN entered: the requests end with it. -/
def State.enterRetrain (s : State) (l cap : Nat) : State :=
  ((s.setLkState l 7).lkEvent l 1).upLink l fun k =>
    { k with cap := min k.cap cap, ctl := k.ctl.filter fun m => m.msg != 2, ctlOpen := k.ctlOpen.filter fun m => m.msg != 2 }

/-- Asks for a retrain; one under way is joined (R315, R317). -/
def State.askRetrain (s : State) (l cap : Nat) : State :=
  if s.lkState l == 6 && !((s.link l).ctlOpen.any fun m => m.msg == 2) then
    (s.lkTell l (s.lkMsg l 2 cap 0) true).upLink l fun k => { k with cap := cap }
  else s

/-- LK_CTL_RETRAIN: the control software's request may raise the width (R303). -/
def execLkCtlRetrain (l : Nat) (s : State) : Host.Outcome State Fault Refusal :=
  .next (if s.lkRuns l then s.askRetrain l 8 else s)

/-- LK_RETRAIN_DONE: back to ACTIVE with sequence state kept; a lower width is reported (R315). -/
def execLkRetrainDone (l : Nat) (tx rx : BitVec 9) (s : State) : Host.Outcome State Fault Refusal :=
  if !s.linkPresent l || s.lkState l != 7 then .next s
  else
    let was := s.lkF l 0x10 59 58
    let r := s.laneTest l tx rx
    match r.1 with
    | none => .next (r.2.goDown l)
    | some w =>
      let s := ((r.2.setLkF l 0x10 59 58 w).setLkState l 6).setLkB l 0x10 53 false
      let s := (s.storeCoeffs l).activeRule l
      .next (if w < was then (s.lkEvent l 3).reportX 0x30 l none else s)

/-- RETRAIN_REQ from the peer (R317). -/
def execRetrainReq (l : Nat) (c : LkCell) (s : State) : Host.Outcome State Fault Refusal :=
  let m := ctlRead c
  match s.lkHear l c with
  | (false, s) => .next s
  | (true, s) =>
    if s.lkState l == 7 then .next (s.upLink l fun k => { k with cap := min k.cap m.arg })
    else if s.lkState l != 6 then .next s
    else if (s.link l).ctlOpen.any fun o => o.msg == 2 then
      let lead := if s.devId == m.devId then decide (l < m.link) else decide (s.devId.toNat < m.devId.toNat)
      if lead then .next ((s.lkSay l (s.lkMsg l 3 0 0)).enterRetrain l m.arg)
      else
        .next (((s.upLink l fun k => { k with ctl := k.ctl.filter fun o => o.msg != 2, ctlOpen := k.ctlOpen.filter fun o => o.msg != 2, cap := min k.cap m.arg }).lkCount l 8 1).lkEvent l 2)
    else .next ((s.lkSay l (s.lkMsg l 3 0 0)).enterRetrain l m.arg)

/-- RETRAIN_GO from the leader. -/
def execRetrainGo (l : Nat) (c : LkCell) (s : State) : Host.Outcome State Fault Refusal :=
  match s.lkHear l c with
  | (heard, s) => .next (if heard && s.lkState l == 6 then s.enterRetrain l 8 else s)

/-- LK_RETRAIN_REQ_TIMEOUT: carried out alone. -/
def execLkRetrainReqTimeout (l : Nat) (s : State) : Host.Outcome State Fault Refusal :=
  .next (if s.lkState l == 6 && (s.link l).ctlOpen.any (fun m => m.msg == 2) then s.enterRetrain l 8 else s)

/-- LOSS_OF_ALIGNMENT: the peer entered RETRAIN alone and this end follows (R317). -/
def execLossOfAlignment (l : Nat) (s : State) : Host.Outcome State Fault Refusal :=
  .next (if s.lkState l == 6 then s.enterRetrain l (s.widthLanes l) else s)

/-- LK_DAMAGE_LIMIT: more damaged cells in the window than DMG_LIMIT (R315). -/
def execLkDamageLimit (l : Nat) (s : State) : Host.Outcome State Fault Refusal :=
  let lim := s.lkF l 0 47 32
  .next (if s.lkRuns l && lim != 0 && (s.link l).damagedWin > lim then
    (s.upLink l fun k => { k with damagedWin := 0 }).askRetrain l (s.widthLanes l) else s)

/-- LK_LANE_FEC_LIMIT (R315). -/
def execLkLaneFecLimit (l _lane : Nat) (s : State) : Host.Outcome State Fault Refusal :=
  .next (if s.lkRuns l then s.askRetrain l (s.widthLanes l) else s)

/-- LK_FEC_LOCK_LOSS (R313). -/
def execLkFecLockLoss (l : Nat) (s : State) : Host.Outcome State Fault Refusal :=
  .next (if s.linkPresent l && s.lkState l == 6 then s.goDown l else s)

/-- LK_AUTH_LIMIT: more than 16 tag failures in the window (R324). -/
def execLkAuthLimit (l : Nat) (s : State) : Host.Outcome State Fault Refusal :=
  .next (if s.linkPresent l && s.lkState l == 6 && (s.link l).authWin > 16 then
    ((s.upLink l fun k => { k with authWin := 0 }).goDown l).reportX 0x33 l none else s)

/-! IDENT (R318, R324, R381). -/

/-- A link back with both epochs unchanged resumes (R318), each direction for itself: one whose cells were handed over begins anew
(R321), at the receiver once RETURN said so; a receiver whose answer the sender did not take goes on from its ACK (assumption log 49). -/
def State.sameEpochs (s : State) (l : Nat) : State :=
  let k := s.link l
  let s := if k.carriedBy.isSome && !k.returning then s.upLink l Link.freshSend else s
  let s := if k.closed && !k.asked then s.freshRecv l else s
  s.upLink l fun k => { k with ackFirst := true, closed := false }

/-- Whether a peer's identity quote verifies (R376, R381): its lengths, the endorsement under Suelm's key, the signature under the endorsed
device key, DEV_ID of that key and of the IDENT, KIND 0, NONCE zero, and the encapsulation key's digest. -/
def State.quoteValid (s : State) (dev : Word) (q : List Byte) : Bool :=
  let body := q.take 256
  let pub := (q.drop 5652).take 60
  q.length == 10564 && hssVerify otsW8 15 15 s.romKey pub ((q.drop 5712).take 3284)
    && hssVerify otsW4 20 10 pub body ((q.drop 256).take 5396)
    && leAt body 8 8 == dev.toNat && beNat ((sha256 pub).take 8) == dev.toNat && leAt body 5 1 == 0 && leAt body 0x18 32 == 0
    && (body.drop 0x38).take 32 == sha256 (q.drop 8996)

/-- What an IDENT cell brings of the key agreement (R381): the peer's quote in 200 B parts, then its 1,568 B ciphertext. With the quote
whole and verified a secret is encapsulated to its key and sent; with the ciphertext the peer's secret is there. None where the quote
fails, or where this end does not trust what it measures (`trusted`). -/
def State.agree (s : State) (l : Nat) (dev : Word) (part : List Byte) (trusted : Bool) : Option State :=
  let had := (s.link l).identIn
  let got := had ++ part
  let s := s.upLink l fun k => { k with identIn := got }
  if had.length < 10564 && 10564 ≤ got.length then
    if !(trusted && s.quoteValid dev (got.take 10564)) then none
    else
      let r := s.draw
      let e := kemEncaps ((got.take 10564).drop 8996) ((leBytes 64 (Config.freeKey r.1).toNat).take 32)
      some ((r.2.upLink l fun k => { k with secretOut := e.1 }).lkSendParts l e.2)
  else if had.length < 12132 && 12132 ≤ got.length then
    some (s.upLink l fun k => { k with secretIn := kemDecaps s.kemD s.kemZ ((got.drop 10564).take 1568) })
  else some s

/-- The peer is identified: the link state resumes or begins, and the link is ACTIVE. What units offered before the first IDENT, or after
a reroute, stays (R318, R321). -/
def State.identified (s : State) (l : Nat) (m : LkMsg) : State :=
  let k := s.link l
  let empty := k.replay.isEmpty && k.held.isEmpty && k.reqBuf.isEmpty
  let s := if k.seenEpoch == some (s.lkEpoch l, m.epoch) then s.sameEpochs l
    else if empty && k.seenEpoch.isNone then s.freshLink l
    else s.newLinkState l
  let s := s.setRg (linkDie l) (lkOff l + 0x18) m.devId
  let s := ((s.setLkF l 0x10 41 37 m.link).setLkF l 0x10 31 0 m.epoch.toNat).setLkB l 0x10 54 (s.lkB l 0 62)
  let s := s.upLink l fun k => { k with seenEpoch := some (s.lkEpoch l, m.epoch), ctlOpen := k.ctlOpen.filter fun o => o.msg != 1 }
  let s := ((s.setLkState l 6).storeCoeffs l).endHold l
  (s.dropCtl fun o => o.msg == 4 && o.failed == l).activeRule l

/-- IDENT from the peer. In ACTIVE it is a repeat, and is answered. Where both ends encrypt, the key agreement runs in IDENT (R324, R381):
the link waits for all its parts, but where its state resumes, which keeps its keys; a setting that differs, an identity that is not READY,
or a quote that fails, fails IDENT. -/
def execIdent (l : Nat) (c : LkCell) (trusted : Bool) (s : State) : Host.Outcome State Fault Refusal :=
  let m := ctlRead c
  match s.lkHear l c with
  | (false, s) => .next s
  | (true, s) =>
    if s.lkState l == 6 then .next (if c.len > 32 then s else s.lkTell l (s.lkMsg l 1 (s.lkB l 0 62).toNat 0) false)
    else if s.lkState l != 5 then .next s
    else
      let fail (s : State) : State := (s.lkEvent l 5).goDown l
      if s.lkB l 0 62 != (m.arg % 2 == 1) then .next (fail s)
      else if !s.lkB l 0 62 then .next (s.identified l m)
      else if s.rotState != 1 then .next (fail s)
      else if s.lkB l 0x10 54 && (s.link l).seenEpoch == some (s.lkEpoch l, m.epoch) then .next (s.identified l m)
      else
        match s.agree l m.devId ((c.payload.take c.len).drop 32) trusted with
        | none => .next (fail s)
        | some s => .next (if (s.link l).identIn.length < 12132 then s else s.identified l m)

/-! Reroute messages (R320, R321). -/

/-- REROUTE_REQ, on the partner: cells held above ACK are discarded, deliverable ones stand before all that arrives rerouted. -/
def execRerouteReq (l : Nat) (c : LkCell) (s : State) : Host.Outcome State Fault Refusal :=
  let m := ctlRead c
  match s.lkHear l c with
  | (heard, s) =>
    if !heard || s.lkState l != 6 then .next s
    else
      match s.peerLink l m.failed with
      | none => .next s
      | some f =>
        let k := s.link f
        let n := k.held.length
        let s := if n == 0 then s else (s.lkCount f 9 n).lkEvent f 4
        let s := s.setLink f { k with held := [], reqBuf := [], closed := true, asked := true }
        let s := s.upLink l fun q => { q with reqBuf := q.reqBuf ++ k.reqBuf }
        .next (s.lkTell l { s.lkMsg l 5 0 f with finalAck := k.ack } false)

/-- REROUTE_STATE: the answer to this end's request. -/
def execRerouteState (l : Nat) (c : LkCell) (s : State) : Host.Outcome State Fault Refusal :=
  let m := ctlRead c
  match s.lkHear l c with
  | (heard, s) =>
    if !heard || s.lkState l != 6 then .next s
    else
      match s.peerLink l m.failed with
      | some f =>
        if (s.link l).ctlOpen.any fun o => o.msg == 4 && o.failed == f then .next (s.handOver f l m.finalAck) else .next s
      | none => .next s

/-- RETURN from the peer: the failed link's cells were handed over, so its receive direction here begins anew, at its IDENT if that is
still to come (R321). -/
def execLinkReturn (l : Nat) (c : LkCell) (s : State) : Host.Outcome State Fault Refusal :=
  let m := ctlRead c
  match s.lkHear l c with
  | (heard, s) =>
    if !heard || s.lkState l != 6 then .next s
    else
      match s.peerLink l m.failed with
      | none => .next s
      | some f =>
        if !(s.link f).asked then .next s
        else if (s.link f).closed then .next (s.upLink f fun k => { k with asked := false })
        else .next (s.freshRecv f)

/-- LK_LINKCTL_REPEAT: messages unanswered for 1 µs go again (R316). -/
def execLkLinkctlRepeat (l : Nat) (s : State) : Host.Outcome State Fault Refusal :=
  .next (s.upLink l fun k => { k with ctl := k.ctl ++ k.ctlOpen.filter fun m => !k.ctl.contains m })

/-! Sending (R309 to R314). -/

/-- Whether an item's partition must wait for its link regulator (R356). -/
def State.lkShort (s : State) (l p : Nat) : Bool :=
  let r := linkReg l
  decide (p < 8) && s.rb r.1 (regOff p r.2) 63 && decide (s.rf r.1 (regOff p r.2 + 8) 31 0 < 256)

/-- Whether a virtual channel has a receive slot at the peer (R314). -/
def Link.credit (k : Link) (rsp : Bool) : Bool :=
  if rsp then decide ((k.sentRsp + 65536 - k.peerRsp) % 65536 < 512) else decide ((k.sentReq + 65536 - k.peerReq) % 65536 < 512)

/-- Whether a link may send an item now: not of its own flows while they return, nor MIRROR cells over no mirror link (R321, R323). -/
def Link.sends (k : Link) (x : TxItem) : Bool := !(k.returning && x.home.isEmpty) && (x.cls != 4 || k.mirror)

/-- The first item of a virtual channel whose partition need not wait. -/
def State.nextItem (s : State) (l : Nat) (rsp : Bool) : Option Nat :=
  let q := (s.link l).txq
  if (s.link l).refEp || (s.link l).replay.length ≥ 2048 || !(s.link l).credit rsp
      || (s.crossing (1024 + l)).resync then none
  else (List.range q.length).find? fun i => match q[i]? with
    | some x => x.vc == rsp && (s.link l).sends x && !s.lkShort l x.part
    | none => false

/-- WAIT_SEEN of the partitions that wait. -/
def State.noteWaits (s : State) (l : Nat) : State :=
  let r := linkReg l
  (List.range 8).foldl (fun s p =>
    if s.lkShort l p && (s.link l).txq.any fun x => x.part == p then s.setRb r.1 (regOff p r.2 + 8) 63 true else s) s

/-- One record of the script: action, count, argument; none when a reserved field is set (R328). -/
def scriptRec (a b : Word) : Option (Nat × Nat × Nat) :=
  if fld b 63 32 != 0 || fld a 63 60 == 0 || fld a 63 60 > 7 || (fld a 63 60 == 7 && fld b 31 0 > 8) then none
  else some (fld a 63 60, fld a 59 0, fld b 31 0)

/-- Applies the script's records whose count is reached; answers whether the cell is dropped, whether damaged (R328). -/
def State.scriptGo (l count : Nat) : Nat → State → Bool × Bool → (Bool × Bool) × State
  | 0, s, f => (f, s)
  | n + 1, s, f =>
    let k := s.link l
    if !s.lkB l 0x100 63 || s.lkB l 0x100 61 || k.refPos ≥ s.lkF l 0x100 47 40 then (f, s)
    else
      let r := s.readDram 8 (s.lkF l 0x108 47 0 + 16 * k.refPos) 16
      let ws := wordsOf 2 (onesFor r.1)
      let s := r.2.2
      match scriptRec (wordAt ws 0) (wordAt ws 1) with
      | none => (f, s.setLkB l 0x100 61 true)
      | some (act, c, arg) =>
        if c < k.refLast then (f, s.setLkB l 0x100 61 true)
        else if c > count then (f, s)
        else
          let s := s.upLink l fun k => { k with refPos := k.refPos + 1, refLast := c }
          let hit := c == count
          let g := match act with
            | 1 => ((f.1 || hit, f.2), s)
            | 2 => ((f.1, f.2 || hit), s)
            | 3 => (f, s.upLink l fun k => { k with refHold := some (k.ack, sackOf k) })
            | 4 => (f, s.upLink l fun k => { k with refAckBad := arg })
            | 5 => (f, s.askRetrain l 8)
            | 6 => (f, s.askRetrain l arg)
            | _ => (f, s.upLink l fun k => { k with refBadLanes := k.refBadLanes ||| BitVec.ofNat 9 (2 ^ arg) })
          State.scriptGo l count n g.2 g.1

/-- Puts a cell on the wire; `drop` and `bad` are the script's doing. -/
def State.wire (s : State) (l : Nat) (c : LkCell) (retx drop bad : Bool) : State :=
  if drop then s
  else
    let c := sealCell c
    let c := if bad then { c with crc := ~~~c.crc } else c
    (s.emit (.cell l c)).capture l c (retx.toNat * 8 + bad.toNat * 2)

/-! Encryption (R324). The key of each direction is agreed for its link state; the IV is the sender's EPOCH and the cell's number. -/

/-- The additional authenticated data of a cell: word 0 of its header and TARGET[19:0], little-endian (assumption log 71). -/
def cellAad (c : LkCell) : List Byte := leBytes 8 (cellWord0 c).toNat ++ leBytes 3 (target c % 2 ^ 20)

/-- A cell's payload as ciphertext and tag, under a key and IV. -/
def encCell (key iv : List Byte) (c : LkCell) : LkCell :=
  let d := { c with payload := gcmCtr key iv (fixLen 216 c.payload) }
  { d with payload := d.payload ++ gcmTag key iv (cellAad d) d.payload }

/-- Whether a DATA or TEST cell's tag fails, or it is encrypted where the link is not, or the reverse. -/
def State.tagBad (s : State) (l : Nat) (c : LkCell) : Bool :=
  (c.ty == 0 || c.ty == 3)
    && (c.enc != s.lkB l 0x10 54
      || (c.enc && c.payload.drop 216 != gcmTag (s.recvKey l) (ivOf (s.peerEpoch l) ((s.link l).cellNo c)) (cellAad c) (fixLen 216 c.payload)))

/-- The partitions a DATA cell belongs to that is sent: an SLCREDIT cell to those of its returns (R391). -/
def itemParts (x : TxItem) : List Nat :=
  if x.cls == 7 then ((wordsOf (x.payload.length / 8) x.payload).map fun w => fld w 51 48).eraseDups.filter (· < 8)
  else if x.part < 8 then [x.part] else []

/-- Sends a new DATA or TEST cell: SEQ, replay place, credit, charge (R309, R314, R356). -/
def State.sendNew (s : State) (l ty : Nat) (x : TxItem) : State :=
  let k := s.link l
  let enc := s.lkB l 0x10 54
  let c : LkCell := { ty := ty, vc := x.vc, enc := enc, hops := x.hops, seq := k.nextSeq, len := x.payload.length, cls := x.cls, object := x.object, offset := x.offset, payload := x.payload }
  let c := k.stamp (if enc then encCell (s.sendKey l) (ivOf (s.lkEpoch l) k.ivCount) c else c)
  let s := if ty == 0 then s.charge x.part (linkReg l) 256 else s
  let s := s.setLink l { k with
    nextSeq := (k.nextSeq + 1) % 4096, ivCount := k.ivCount + 1,
    replay := k.replay ++ [{ cell := c, plain := x.payload, part := x.part, home := x.home }],
    sentReq := if x.vc then k.sentReq else (k.sentReq + 1) % 65536,
    sentRsp := if x.vc then (k.sentRsp + 1) % 65536 else k.sentRsp,
    refCount := k.refCount + 1,
    parts := if ty == 0 then listUnion k.parts (itemParts x) else k.parts }
  let s := s.lkCount l 0 1
  if k.refEp then
    let r := State.scriptGo l (k.refCount + 1) 256 s (false, false)
    r.2.wire l c false r.1.1 r.1.2
  else s.wire l c false false false

/-- Sends a waiting item's next cell; what its cells have no room for stays in its place (R306). -/
def State.sendItem (s : State) (l i : Nat) (x : TxItem) : State :=
  match splitItem (s.cellBytes l) x with
  | [] => s
  | p :: rest => (s.upLink l fun k => { k with txq := k.txq.take i ++ rest ++ k.txq.drop (i + 1) }).sendNew l 0 p

/-- Sends an ACK cell (R311). -/
def State.sendAck (s : State) (l : Nat) : State :=
  let k := s.link l
  let bad := k.refAckBad > 0
  let s := s.setLink l { k with urgent := false, ackFirst := false, refAckBad := k.refAckBad - 1 }
  s.wire l (k.stamp { ty := 1, hops := 0 }) false false bad

/-- The payload of TEST cell `n` (R327). -/
def testPayload (key : BitVec 128) (l n : Nat) : List Byte :=
  ((List.range 15).flatMap fun j =>
    leBytes 16 (orrery key (BitVec.ofNat 128 ((0xF000 + l) * 2 ^ 112 + n % 2 ^ 48 * 2 ^ 64 + j))).toNat).take 232

def State.refKey (s : State) (l : Nat) : BitVec 128 := (s.rg (linkDie l) (lkOff l + 0x120)) ++ (s.rg (linkDie l) (lkOff l + 0x118))

/-- The generator's offer in this slot: RATE of every 256 (R327). -/
def State.testOffer (s : State) (l : Nat) : Option TxItem × State :=
  let k := s.link l
  let rate := s.lkF l 0x100 55 48
  if !k.refEp || !s.lkB l 0x100 63 then (none, s)
  else
    let due := (k.refSlot + 1) * rate / 256 > k.refSlot * rate / 256
    let s := s.setLink l { k with refSlot := k.refSlot + 1 }
    let vc := s.lkB l 0x100 62
    if due && k.replay.length < 2048 && k.credit vc then
      (some { cls := 0xF, vc := vc, offset := k.refN % 2 ^ 36, payload := (testPayload (s.refKey l) l k.refN).take (s.cellBytes l), part := 8 },
        s.upLink l fun k => { k with refN := k.refN + 1 })
    else (none, s)

/-! Receiving (R308, R310, R312). -/

/-- The collective that grant number `n` was given in, here or passed on (R307). -/
def State.grantColl (s : State) (n : Nat) : Option Nat :=
  (s.colls.find? fun kv => (kv.2.contribs.any fun x => x.no == some n) || kv.2.passed.any fun p => p.no.isSome && p.mine == n).map (·.1)

/-- The partitions a received DATA cell belongs to: its handle's, collective's, group's or grant's, a notice's by its kind, an SLCREDIT
cell's by each return (R307, R391). -/
def State.cellParts (s : State) (c : LkCell) : List Nat :=
  let sl (h : Nat) : List Nat := if (s.slEnd h).isOpen then [(s.slEnd h).part] else []
  let rx (h : Nat) : List Nat := if s.rxValid h then [s.rxPart h] else []
  let ex (h : Nat) : List Nat := if s.exValid h then [s.exPart h] else []
  let al (g : Nat) : List Nat := if s.alValid g then [s.alPart g] else []
  let at_ (i : Nat) : Nat := (unitWords c).getD i 0
  match c.cls with
  | 0 | 1 => sl c.object
  | 2 => if c.object == noGrant then rx (at_ 1) else ((s.grantColl c.object).map rx).getD []
  | 3 | 6 => ex c.object
  | 4 => al c.object
  | 5 => match at_ 0 with
    | 1 | 5 | 6 | 8 => rx (at_ 1)
    | 3 | 9 | 10 | 11 => ex (at_ 1)
    | 4 => al (at_ 1)
    | _ => []
  | 7 => (((wordsOf (c.payload.length / 8) c.payload).map creditOf).flatMap fun r => sl r.dst).eraseDups
  | _ => []

/-- A STAGE_HDR payload as the header of a push on its way in. -/
def flightOf (l : Nat) (c : LkCell) : SlFlight :=
  let ws := wordsOf 9 c.payload
  let w := wordAt ws 8
  { link := l, dst := c.object, remoteIn := true, part := 8, idx := c.offset / 2 ^ 30, seq := fld (wordAt ws 1) 63 32, epoch := fld w 63 48, cut := bitOf w 47, depth := fld w 46 40, size := fld w 31 0, header := ws.take 8, len := fld (wordAt ws 1) 31 0, tile := 768 }

/-- STAGE_DATA bytes kept with the push they belong to, whichever link brings them (R320). -/
def landBytes (c : LkCell) (f : SlFlight) : SlFlight :=
  if f.remoteIn && f.dst == c.object && f.idx == c.offset / 2 ^ 30 then
    { f with bytes := (c.payload.mapIdx fun i b => (c.offset % 2 ^ 30 * 8 + i, b)).foldl (fun t e => t.put e.1 e.2) f.bytes }
  else f

/-- A stage link's credit return: taken, or passed on where it names a receive end whose peer is reached over a link (R323). -/
def State.creditIn (v : Hop) (s : State) (c : SlCredit) : State :=
  let x := s.slEnd c.dst
  if x.isOpen && x.recv && x.path then
    s.forward v fun n => s.linkSend x.linkNo
      { cls := 7, vc := true, hops := n, part := x.part, payload := bytesOf [creditWord { c with dst := x.peer, part := x.part }] }
  else { s with slCredits := s.slCredits ++ [c] }

/-- A notice's unit hears it, or keeps it for the command that reads it (R307; assumption log 16 gives the words). -/
def State.noticeIn (s : State) (c : LkCell) : State :=
  let ws := unitWords c
  let at_ (i : Nat) : Nat := ws.getD i 0
  let st := BitVec.ofNat 16 (at_ 3)
  match at_ 0 with
  | 1 | 4 => { s with unitIn := s.unitIn ++ [c] }
  | 3 => if s.exValid (at_ 1) then { s with unitIn := s.unitIn ++ [c] } else s
  | 5 => s.rxFarDone (at_ 1) { shard := at_ 2, step := st, added := maskBits (ws.drop 5), cut := natBit (at_ 4) 0,
                               nonfinite := natBit (at_ 4) 1, released := natBit (at_ 4) 2, gnorm := natBit (at_ 4) 3 } (hopOf c)
  | 6 => s.rxFarNorm (at_ 1) (BitVec.ofNat 16 (at_ 2)) (at_ 3) (at_ 4 == 1) (at_ 5) (hopOf c)
  | 8 => s.setColl (at_ 1) { s.coll (at_ 1) with notes := (s.coll (at_ 1)).notes ++ [(at_ 2, st, ws.drop 4)] }
  | 9 | 10 | 11 => s.exHear c
  | _ => s

/-- Hands a cell to its unit (R307, R323, R326, R327); one of an exchange handle that is not valid is discarded (R242, R251). A STAGE cell that names a send end with a link goes on there, to its peer;
a MIRROR cell travels on mirror links only. -/
def State.deliver (s : State) (l : Nat) (c : LkCell) : State :=
  let k := s.link l
  if c.ty == 3 then
    if c.payload.take c.len == (testPayload (s.refKey l) l c.offset).take c.len then s else s.addRg (linkDie l) (lkOff l + 0x128) 1
  else if k.refEp then s.lkCount l 11 1
  else
    let ps := s.cellParts c
    let s := s.upLink l fun k => { k with parts := listUnion k.parts ps }
    let x := s.slEnd c.object
    if c.cls ≤ 1 && x.isOpen && !x.recv && x.path then
      s.forward (hopOf c) fun n => s.linkSend x.linkNo
        { cls := c.cls, object := x.peer, offset := c.offset, hops := n, part := x.part, payload := c.payload }
    else
      match c.cls with
      | 0 => { s with flights := s.flights ++ [flightOf l c] }
      | 1 => { s with flights := s.flights.map (landBytes c) }
      | 2 =>
        let w := unitWords c
        if c.object == noGrant && w.getD 0 0 == 1 then s.rxFarRelease (w.getD 1 0) (BitVec.ofNat 16 (w.getD 2 0)) (w.getD 3 0) (hopOf c)
        else if c.object == noGrant && w.getD 0 0 == 2 then s.rxJoinIn (w.getD 1 0) c
        else { s with unitIn := s.unitIn ++ [c] }
      | 3 | 6 => if s.exValid c.object then { s with unitIn := s.unitIn ++ [c] } else s
      | 4 => if k.mirror && s.alValid c.object && s.alCommitter c.object == 2 then { s with unitIn := s.unitIn ++ [c] } else s.lkCount l 11 1
      | 5 => s.noticeIn c
      | 7 => ((wordsOf (c.payload.length / 8) c.payload).map creditOf).foldl (State.creditIn (hopOf c)) s
      | _ => s.lkCount l 11 1

/-- Whether a cell's consumer has stalled: a version copy waits for its group's staging buffer (R201, R310). -/
def State.consumerStalls (s : State) (c : LkCell) : Bool :=
  c.ty == 0 && c.cls == 4 && s.alValid c.object && s.alCommitter c.object == 2 && !s.alStagingFree c.object

/-- Deliverable REQ cells go to their consumers in order until one stalls; each frees its slot on the link it came by (R310, R314). -/
def State.drainGo (l : Nat) : Nat → State → State
  | 0, s => s
  | n + 1, s =>
    match (s.link l).reqBuf with
    | [] => s
    | c :: r =>
      if s.consumerStalls c then s
      else
        let s := s.upLink l fun k => { k with reqBuf := r }
        let s := s.freeReq c
        State.drainGo l n (s.deliver c.via c)

def State.drainReq (s : State) (l : Nat) : State := State.drainGo l (s.link l).reqBuf.length s

/-- Cells that became deliverable: RSP cells go to their units, REQ cells to their buffer, in SEQ order (R310, R314). -/
def State.deliverGo (l : Nat) : Nat → State → State
  | 0, s => s
  | n + 1, s =>
    let k := s.link l
    match k.held.find? fun c => c.seq == k.ack with
    | none => s
    | some c =>
      let d := { c with payload := s.plainOf l c, via := l, old := false }
      let k := { k with held := k.held.filter fun x => x.seq != c.seq, ack := (k.ack + 1) % 4096, rxCount := k.rxCount + 1 }
      let gone := k.voids.contains c.seq
      let k := { k with voids := k.voids.filter (· != c.seq) }
      if c.vc then
        let s := s.setLink l { k with freedRsp := (k.freedRsp + 1) % 65536 }
        State.deliverGo l n (if gone then s else s.deliver l d)
      else if gone then State.deliverGo l n (s.setLink l { k with freedReq := (k.freedReq + 1) % 65536 })
      else State.deliverGo l n (s.setLink l { k with reqBuf := k.reqBuf ++ [d] })

/-- An intact DATA or TEST cell: accepted, or a duplicate. A cell beyond the next one after all that arrived shows a new gap;
one that lets ACK pass cells held above it has filled one (R310, R311). A link closed by a reroute accepts none (R320). -/
def State.rxSeqCell (s : State) (l : Nat) (c : LkCell) : State :=
  let k := s.link l
  let d := seqDiff c.seq k.ack
  if k.closed then s.capture l c 1
  else if d < 2048 && !(k.held.any fun x => x.seq == c.seq) then
    let next := k.held.foldl (fun n x => max n (seqDiff x.seq k.ack + 1)) 0
    let filled := d == 0 && k.held.any fun x => seqDiff x.seq k.ack == 1
    let s := (s.setLink l { k with held := k.held ++ [c], urgent := k.urgent || decide (d > next) }).lkCount l 1 1
    let s := ((State.deliverGo l (k.held.length + 1) s).drainReq l).capture l c 1
    if filled then s.upLink l fun k => { k with urgent := true } else s
  else ((s.setLink l { k with urgent := true }).lkCount l 4 1).capture l c 5

/-- A cell arrives on a link. In IDENT, before this end is ACTIVE, it is captured and not accepted: its sender repeats it (R313, R329). -/
def State.rxCell (s : State) (l : Nat) (c : LkCell) : State :=
  if !s.lkRuns l || s.lkState l < 5 || s.lkState l == 7 then s
  else if s.lkState l == 5 then
    if wireBad c then (s.fecCount l c).rxDamaged l c else (s.fecCount l c).capture l c 1
  else
    let s := s.fecCount l c
    if wireBad c then s.rxDamaged l c
    else if s.tagBad l c then
      (((s.lkCount l 10 1).lkEvent l 5).upLink l fun k => { k with authWin := k.authWin + 1 }).rxDamaged l c
    else
      let s := (s.upLink l fun k => k.takeAck c).flowsBack
      if c.ty == 0 || c.ty == 3 then s.rxSeqCell l c
      else
        let s := s.capture l c 1
        if c.ty > 3 then s.lkCount l 11 1 else s

def execLkDataCellRx (l : Nat) (c : LkCell) (s : State) : Host.Outcome State Fault Refusal := .next (s.rxCell l c)
def execLkAckCellRx (l : Nat) (c : LkCell) (s : State) : Host.Outcome State Fault Refusal := .next (s.rxCell l c)

/-! Cell slots and timers (R309, R311, R313). -/

/-- LK_CELL_SLOT: the first of R309 that is ready. A link whose state is resumed sends its ACK before all else (R318); what the crossing
has counted by now can be sent (R32); in IDENT only IDENT messages go. -/
def execLkCellSlot (l : Nat) (s : State) : Host.Outcome State Fault Refusal :=
  if !s.lkRuns l then .next s
  else
    let s := (s.crossTake (1024 + l)).drainReq l
    let k := s.link l
    if s.lkState l == 5 then
      match k.ctl.find? fun m => m.msg == 1 with
      | some m => .next ((s.setLink l { k with ctl := k.ctl.erase m }).lkSay l m)
      | none => .next s
    else if s.lkState l != 6 then .next s
    else if k.ackFirst then .next (s.sendAck l)
    else
      match k.retx with
      | q :: rest =>
        let s := s.setLink l { k with retx := rest }
        match k.replay.find? fun r => r.cell.seq == q with
        | some r => .next ((s.lkCount l 2 1).wire l (k.stamp r.cell) true false false)
        | none => .next s
      | [] =>
        match k.ctl with
        | m :: rest => .next ((s.setLink l { k with ctl := rest }).lkSay l m)
        | [] =>
          if k.urgent then .next (s.sendAck l)
          else
            let s := s.noteWaits l
            let take (i : Nat) : State := match k.txq[i]? with | some x => s.sendItem l i x | none => s
            match s.nextItem l true with
            | some i => .next (take i)
            | none =>
              match s.nextItem l false with
              | some i => .next (take i)
              | none =>
                let o := s.testOffer l
                match o.1 with
                | some x => .next (o.2.sendNew l 3 x)
                | none => .next o.2

/-- LK_IDLE_ACK_TIMER (R311). -/
def execLkIdleAckTimer (l : Nat) (s : State) : Host.Outcome State Fault Refusal :=
  .next (if s.lkRuns l && s.lkState l == 6 then s.sendAck l else s)

/-- LK_RETX_TIMEOUT (R313). -/
def execLkRetxTimeout (l : Nat) (s : State) : Host.Outcome State Fault Refusal :=
  let k := s.link l
  if !s.linkPresent l || s.lkState l != 6 then .next s
  else
    match k.replay with
    | [] => .next s
    | r :: _ =>
      let s := s.lkCount l 3 1
      if k.firings + 1 ≥ 8 then .next (s.goDown l)
      else .next (s.setLink l { k with firings := k.firings + 1, retx := if k.retx.contains r.cell.seq then k.retx else k.retx ++ [r.cell.seq] })

/-! The reference endpoint's commands (R327, R328, R330). -/

def refCtlMask : Word := maskOf 63 62 ||| maskOf 55 40

/-- LK_REF_START: every count restarts, and script records of COUNT 0 apply (R328). -/
def execLkRefStart (l : Nat) (v : Word) (s : State) : Host.Outcome State Fault Refusal :=
  if !s.linkPresent l then .next s
  else
    let d := linkDie l
    let s := s.setRg d (lkOff l + 0x100) (setBit (v &&& refCtlMask) 63 true)
    let s := (s.setRg d (lkOff l + 0x128) 0).setRg d (lkOff l + 0x130) 0
    let s := s.upLink l fun k => { k with
      refN := 0, refSlot := 0, refCount := 0, refPos := 0, refLast := 0, refHold := none, refAckBad := 0, refStart := s.now d }
    .next (if (s.link l).refEp then (State.scriptGo l 0 256 s (false, false)).2 else s)

/-- LK_REF_ACK_HOLD_END: the current ACK and SACK are sent again. -/
def execLkRefAckHoldEnd (l : Nat) (s : State) : Host.Outcome State Fault Refusal :=
  .next (s.upLink l fun k => { k with refHold := none })

/-- LK_STATUS as it reads: PARTNER_OK is what R319 tests. -/
def State.lkStatus (s : State) (l : Nat) : Word :=
  setBit (s.rg (linkDie l) (lkOff l + 0x10)) 36 (s.partnerOk l (s.lkF l 0 59 55))

end Sys2Proof.Machine
end

