-- ==== Sys2Proof/Machine/Die.lean ====
section
/-! DEFINITION. Die-to-die modules, die resets, the guest-die firewall, tile retirement and the test port (chapter 15). -/
namespace Sys2Proof.Machine

/-! Modules (R331 to R339). -/

def State.setD2dState (s : State) (d m n : Nat) : State := s.setRf d (d2dOff m) 63 61 n
def State.d2dEvent (s : State) (d m bit : Nat) : State := s.setRb d (d2dOff m + 0x10) bit true

/-- A die is fenced, with its report (R334, R336). -/
def State.fenceDie (s : State) (d : Nat) : State :=
  if s.dieFenced d then s else (s.setDieFenced d).reportX 0x12 d none

/-- What follows from a module that is down for good (R336). -/
def State.moduleLost (s : State) (d e : Nat) : State :=
  let mer (x : Nat) : Bool := x == dieMerA || x == dieMerB
  if mer d && mer e then
    if (List.range 4).all fun i => s.d2dState dieMerA (16 + i) == 4 then s.reportX 0x13 dieMerA none else s
  else if d < 8 && e < 8 then s
  else s.fenceDie (if mer d then e else d)

/-- PKG_FEAT as it reads: over every die present and not fenced (R333). -/
def State.pkgFeatReg (s : State) : Word :=
  BitVec.ofNat 64 (s.pkgFeat ((List.range 12).foldl (fun a d => natSet a d (s.diePresent d && !s.dieFenced d)) 0))

/-- One end commits: width, rate, lane map (R334, R335). WIDTH_DROP is set where the width falls below the last one committed, x64 at
first (R339); a retrain without a reset that lowers it reports (R338). -/
def State.d2dCommit (r : D2dResult) (s : State) (e : Nat × Nat) : State :=
  let o := d2dOff e.2
  let drop := r.x32 && !s.rb e.1 o 60
  let kept := s.d2dKeep.contains (e.1 * 32 + e.2)
  let s := ((((s.setRf e.1 o 63 61 3).setRb e.1 o 60 r.x32).setRb e.1 o 59 (!bitOf s.pkgFeatReg 0)).setRf e.1 o 58 56 0).setRg e.1 (o + 0x30) (if r.x32 then r.repaired &&& maskOf 31 0 else r.repaired)
  let s := { s with d2dKeep := s.d2dKeep.filter fun x => x != e.1 * 32 + e.2 }
  let s := s.train fun t => { t with moduleRepairs := t.moduleRepairs.put (e.1 * 32 + e.2) (s.rg e.1 (o + 0x30)) }
  let s := if drop then s.d2dEvent e.1 e.2 1 else s
  if drop && kept then s.reportX 0x14 (e.1 * 32 + e.2) none else s

/-- One end sees a disagreement and trains from scratch again, or fails at the third in a row (R336). -/
def State.d2dDisagree (s : State) (e : Nat × Nat) : State :=
  let o := d2dOff e.2
  let n := min 3 (s.rf e.1 o 58 56 + 1)
  let s := ((s.d2dEvent e.1 e.2 2).setRf e.1 o 58 56 n).setRf e.1 o 63 61 (if n ≥ 3 then 4 else 1)
  if n ≥ 3 then s.d2dEvent e.1 e.2 0 else s

/-- D2D_TRAIN_RESULT. -/
def execD2dTrainResult (d m : Nat) (own peer ownBack peerBack : D2dResult) (s : State) : Host.Outcome State Fault Refusal :=
  match s.module d m with
  | none => .next s
  | some e =>
    if s.d2dState d m ≥ 3 then .next s
    else if own == peer && ownBack == own && peerBack == peer then .next ((s.d2dCommit own (d, m)).d2dCommit own e)
    else
      let s := (s.d2dDisagree (d, m)).d2dDisagree e
      .next (if s.d2dState d m == 4 then s.moduleLost d e.1 else s)

/-- A retrain without a reset keeps the retry state (R338). -/
def State.d2dRetrain (s : State) (d m : Nat) : State :=
  match s.module d m with
  | none => s
  | some e =>
    if s.d2dState d m != 3 then s
    else
      let s := (s.setD2dState d m 1).setD2dState e.1 e.2 1
      { s with d2dKeep := listUnion s.d2dKeep [d * 32 + m, e.1 * 32 + e.2] }

/-- D2D_CTL.RETRAIN; on an absent die a bus error (R5). -/
def execD2dCtlRetrain (d m : Nat) (s : State) : Host.Outcome State Fault Refusal :=
  .next (if s.diePresent d then s.d2dRetrain d m else s.emit .busError)

/-- D2D_CRC_LIMIT: more than 64 errors in 1 ms. The adapter of the other end replays at least each flit that failed (R331); how many
more of both is open (assumption log 43). -/
def execD2dCrcLimit (d m : Nat) (s : State) : Host.Outcome State Fault Refusal :=
  match s.module d m with
  | none => .next s
  | some e =>
    if s.d2dState d m == 3 then
      let r := s.draw
      let q := r.2.draw
      let n := 65 + (Config.freeWord r.1).toNat % 65536
      .next (((q.2.addRg d (d2dOff m + 0x18) n).addRg e.1 (d2dOff e.2 + 0x20) (n + (Config.freeWord q.1).toNat % 65536)).d2dRetrain d m)
    else .next s

/-! Die resets (R337) and crossings (R34). -/

/-- A module of a die that leaves reset trains from scratch, one that was down too (R335); its crossing queue must resynchronise. -/
def State.resetModule (s : State) (mer der m : Nat) : State :=
  let run := s.rf mer (d2dOff (20 + m)) 58 56
  let s := ((s.setD2dState mer (20 + m) 1).setD2dState der m 1).setRf der (d2dOff m) 58 56 run
  { s.crossReset (mer * 32 + 20 + m) with
           d2dKeep := s.d2dKeep.filter fun x => x != mer * 32 + 20 + m && x != der * 32 + m }

/-- Every register of a die at its reset value, its supply at the 0.60 V a die starts with (R30). -/
def State.resetRegs (s : State) (d : Nat) : State :=
  { s with regs := s.regs.filter fun kv => kv.1 < ctlAddr d 0 || ctlAddr (d + 1) 0 ≤ kv.1, govs := s.govs.del d }

/-- RESET_GUEST: the requests still in the firewall and crossings are counted in D2D_LOST; how they divide between the two
modules is open (assumption log 43). -/
def execResetGuest (lost : Nat) (s : State) : Host.Outcome State Fault Refusal :=
  if !s.diePresent dieGuest then .next s
  else
    let r := s.draw
    let a := (Config.freeWord r.1).toNat % (lost + 1)
    let s := (r.2.addRg dieMerA (d2dOff 20 + 0x28) a).addRg dieMerA (d2dOff 21 + 0x28) (lost - a)
    let s := (s.resetRegs dieGuest).setRb dieMerA 0x1018 2 false
    .next ((s.resetModule dieMerA dieGuest 0).resetModule dieMerA dieGuest 1)

/-- Whether some decoded stream is enabled. -/
def State.decodedStream (s : State) : Bool := (List.range 256).any fun st => s.ingEn st && s.ingKind st != 0

/-- RESET_MDL: refused while a sample may be in Mandoline. -/
def execResetMdl (s : State) : Host.Outcome State Fault Refusal :=
  if !s.diePresent dieMdl then .next s
  else if bitOf s.pCfg 63 || s.decodedStream then .next (s.setRb dieMerA 0x1018 2 true)
  else
    let s := ({ s with mdl := {} }.resetRegs dieMdl).setRb dieMerA 0x1018 2 false
    .next ((s.resetModule dieMerB dieMdl 0).resetModule dieMerB dieMdl 1)

/-- CROSSING_RESYNC_DONE: traffic through the queue resumes; through a module's once it has committed (R34, R335). Numbers from 1024
on are the links' queues. -/
def execCrossingResyncDone (q : Nat) (s : State) : Host.Outcome State Fault Refusal :=
  .next (if (s.crossing q).resync && (q ≥ 1024 || s.d2dState (q / 32) (q % 32) == 3) then s.crossResume q else s)

/-! The firewall (R340 to R342). -/

/-- The bit of an operation in OPS. -/
def opBit : FwOp → Nat
  | .read => 2
  | .write => 1
  | .msg => 0

/-- Whether [a, a + n) lies wholly in window `w`. -/
def State.fwHolds (s : State) (w a n : Nat) : Bool :=
  let base := s.rf dieMerA (fwOff w) 47 0
  s.rb dieMerA (fwOff w) 63 && decide (base ≤ a) && decide (a + n ≤ base + s.rf dieMerA (fwOff w + 8) 35 0 * 4096)

/-- Drops a request (R340): counted, the first recorded, reported. -/
def State.fwDrop (s : State) (op : FwOp) (a w : Nat) : State :=
  let s := s.addRg dieMerA 0xE00400 1
  let s := if s.rb dieMerA 0xE00408 60 then s
    else s.setRg dieMerA 0xE00408 (BitVec.ofNat 64 (2 ^ (61 + opBit op) + 2 ^ 60 + a % 2 ^ 48))
  let s := s.reportX 0x15 w none
  match op with
  | .read => s.emit .guestError
  | _ => s

/-- Whether the window's partition holds what the request reaches: frames, or a tile's scratchpad (assumption log 44). -/
def State.fwOwned (s : State) (p a n : Nat) : Bool :=
  if isDram a then s.inDramOf p a n
  else match spTile a with
    | some t => s.tilePresent t && (s.part p).valid && natBit (s.part p).groups (t / 8) && decide (a + n ≤ spBase t + spSize)
    | none => false

/-- An admitted request takes effect; a message stays under way until its slot frees. -/
def State.fwServe (s : State) (w p : Nat) (op : FwOp) (a n : Nat) (bs : List Byte) : State :=
  match op with
  | .read =>
    if isDram a then
      let r := s.readDram p a n
      if r.2.1 > 0 then r.2.2.emit .guestError else r.2.2.emit (.guestData (onesFor r.1))
    else let r := s.readSp a n; r.2.emit (.guestData r.1)
  | .write => s.writeAny p a ((bs.take n).map some)
  | .msg => s.chPost { sender := 0x3FE, win := some w, part := p, dest := BitVec.ofNat 64 a, payload := (bs ++ List.replicate 64 0).take 64 }

/-- FW_GUEST_REQUEST. For a message `a` is the destination word of R113, and its extent the first 64 B of the destination
tile's scratchpad (assumption log 44). -/
def execFwGuestRequest (op : FwOp) (a n : Nat) (bs : List Byte) (s : State) : Host.Outcome State Fault Refusal :=
  if !s.diePresent dieGuest || s.dieFenced dieGuest || !s.joinOpen dieMerA then .next s
  else
    let at_ := match op with | .msg => spBase (a / 2 ^ 16 % 1024) | _ => a
    let len := match op with | .msg => 64 | _ => n
    match (List.range 64).find? fun w => s.fwHolds w at_ len && s.rb dieMerA (fwOff w) (57 + opBit op) with
    | none => .next (s.fwDrop op at_ (((List.range 64).find? fun w => s.fwHolds w at_ 1).getD 0))
    | some w =>
      let p := s.rf dieMerA (fwOff w) 62 60
      if s.fwOwned p at_ len then .next (s.fwServe w p op a n bs)
      else
        let s := if isDram at_ && s.stackPresent (at_ / 2 ^ 36) then s.memRefuse p at_ else s
        .next (s.fwDrop op at_ w)

/-- FW_WIN_WRITE (R342): it completes once every request admitted under the window has; without a guest die ignored. -/
def execFwWinWrite (n w : Nat) (v : Word) (s : State) : Host.Outcome State Fault Refusal :=
  .next (if s.diePresent dieGuest then { s with fwHeld := s.fwHeld ++ [(n, w, v)] }.fwSettle else s)

/-! Retirement (R346). -/

/-- The physical position of a tile, as Hob x 104 + position (R343); none for a lost index. -/
def State.posOf (s : State) (t : Nat) : Option Nat :=
  let p := s.positions.val (t / 96 * 104 + t % 96) t
  if p < lostPos then some p else none

/-- Retires a tile: its group leaves placement, and the signed copy names its position; a lost index has none. -/
def State.retireTile (s : State) (t : Nat) : State :=
  if s.tilePresent t then
    match s.posOf t with
    | none => s
    | some p =>
      let s := (s.setRb dieMerA (repLostOff (t / 96)) (t % 96 / 8) true).reportX 0x16 (t / 96) none
      s.newRepair fun c => { c with retired := listUnion c.retired [p] }
  else s

def execRepRetireWrite (v : Word) (s : State) : Host.Outcome State Fault Refusal := .next (s.retireTile (fld v 9 0))

/-! The test port (R347, R348). -/

/-- Whether the port takes instructions: powered, and not held in Test-Logic-Reset by TRST_N, which its pull-down does while nothing
drives it (R426). TDO is driven only while data is shifted out, as an `Out.tdo`. -/
def State.tapOpen (s : State) : Bool := s.pins.powered && s.pins.trstN

/-- Loads an instruction that only a held RESET_N admits. -/
def State.tapLoad (s : State) (i : TapIr) : State := if s.pins.resetN then { s with tap := .bypass } else { s with tap := i }

/-- A die's IDCODE. -/
def State.idcodeOf (s : State) (d : Nat) : BitVec 32 :=
  if d == dieGuest then BitVec.ofNat 32 (Config.guestIdcode.toNat * 2 ^ 12 + Config.jedec.toNat * 2 + 1)
  else
    let part := if d < 8 then 0xA510 else if d < 10 then 0xA520 else 0xA530
    BitVec.ofNat 32 (s.rf d 0x1000 55 52 * 2 ^ 28 + part * 2 ^ 12 + Config.jedec.toNat * 2 + 1)

/-- The dies of the chain in its order, from TDI to TDO: those present and not dropped by TAP_CHAIN. -/
def State.tapDies (s : State) : List Nat :=
  [8, 0, 1, 2, 3, 4, 5, 6, 7, 9, 10, 11].filter fun d => s.diePresent d && s.rb dieMerA 0xF00100 d

def execBypass (s : State) : Host.Outcome State Fault Refusal := .next (if s.tapOpen then { s with tap := .bypass } else s)
def execIdcode (s : State) : Host.Outcome State Fault Refusal :=
  .next (if s.tapOpen then { s with tap := .idcode }.emit (.tdo (s.tapDies.map s.idcodeOf)) else s)
def execSamplePreload (s : State) : Host.Outcome State Fault Refusal := .next (if s.tapOpen then s.tapLoad .samplePreload else s)
def execExtest (s : State) : Host.Outcome State Fault Refusal := .next (if s.tapOpen then s.tapLoad .extest else s)
def execClamp (s : State) : Host.Outcome State Fault Refusal := .next (if s.tapOpen then s.tapLoad .clamp else s)
def execHighz (s : State) : Host.Outcome State Fault Refusal := .next (if s.tapOpen then s.tapLoad .highz else s)

/-- A link's keys erased: one that encrypts cannot go on, its link state ends and it goes DOWN (R318, R380). -/
def State.eraseLinkKey (s : State) (l : Nat) : State :=
  if s.linkPresent l && s.lkB l 0x10 54 then
    let s := (s.newLinkState l).upLink l fun k => { k with secretOut := [], secretIn := [], identIn := [], seenEpoch := none }
    if s.lkState l == 0 then s else s.goDown l
  else s

/-- TEST_UNLOCK: every memory and link key erased first (R348, R380). -/
def execTestUnlock (sigOk : Bool) (s : State) : Host.Outcome State Fault Refusal :=
  if !sigOk || !s.pins.powered || !s.pins.resetN then .next s
  else
    let s := (List.range 8).foldl State.eraseKey s
    let r := s.freshKeyId
    let s := { r.2 with rot := { r.2.rot with ccKeyId := r.1 } }
    .next (((List.range 24).foldl State.eraseLinkKey s).setRotState 5)

end Sys2Proof.Machine
end

