-- ==== Sys2Proof/Machine/Filler.lean ====
section
/-! DEFINITION. Filler rings and tasks (R207 to R212). -/
namespace Sys2Proof.Machine

def FilRing.named (r : FilRing) (hob base : Nat) : Bool := r.hob == hob && r.base == base

/-- The BASE a tile's FIL_RING names. -/
def State.filBase (s : State) (t : Nat) : Nat := s.rf (t / 96) (filOff t + 8) 47 0

/-- The ring a tile shares. -/
def State.filRing (s : State) (t : Nat) : Option FilRing := s.rings.find? fun r => r.named (t / 96) (s.filBase t)

/-- Drops the rings that no enabled tile of their Hob names (R211). -/
def State.filDrop (s : State) : State :=
  let kept (r : FilRing) : Bool := (List.range 96).any fun i =>
    s.rb r.hob (filOff i) 63 && s.rf r.hob (filOff i + 8) 47 0 == r.base
  { s with rings := s.rings.filter kept }

def filMask : Word := maskOf 63 61 ||| maskOf 31 0

/-- A write of FIL_CTL (R211): EN = 1 starts the ring that no enabled tile names, with this tile's LOG2N; with another
LOG2N than its ring's the write is ignored. -/
def State.filWrite (s : State) (t : Nat) (v : Word) : State :=
  let v := v &&& filMask
  let d := t / 96
  if !bitOf v 63 then (s.setRg d (filOff t) v).filDrop
  else
    let n := s.rf d (filOff t + 8) 63 56
    match s.filRing t with
    | some r => if r.log2n != n then s else s.setRg d (filOff t) v
    | none =>
      (s.setRg d (filOff t) v).filDrop |> fun s =>
        { s with rings := s.rings ++ [{ hob := d, base := s.filBase t, log2n := n }] }

/-- FIL_CTL_WRITE; the window of an absent die answers with a bus error (R5). -/
def execFilCtlWrite (t : Nat) (v : Word) (s : State) : Host.Outcome State Fault Refusal :=
  if !s.tilePresent t then .next (s.emit .busError) else .next (s.filWrite t v)

/-- FIL_IDX as it reads through a tile. -/
def State.filIdx (s : State) (t : Nat) : Word :=
  match s.filRing t with
  | some r => r.tail ++ r.head
  | none => 0

/-- Whether the primary waits where a task may run, with nothing present that would end its wait (R207). -/
def State.mayFill (s : State) (t : Nat) : Bool :=
  let x := s.tile t
  match x.ctx.wait with
  | some (.sqPop _ _ ga _) =>
    let e := s.slEnd (fld (x.ctx.reg ga) 11 0)
    !(e.isOpen && e.recv) || e.visible.isEmpty
  | some (.chRecv _ _ _ _) | some (.chSelectP _ _ _) | some (.chSelectR _ _ _) =>
    s.rb (t / 96) (filOff t) 62 && (s.chFind t x.waitMask 0).isNone
  | _ => false

/-- The context a task starts in (R208). -/
def taskCtx (primary : Ctx) (entry : Nat) (arg : Word) (vec : Nat) : Ctx :=
  let c : Ctx := { g := [(1, arg)], pc := BitVec.ofNat 48 entry, csr := [(0x10, BitVec.ofNat 64 vec &&& maskOf 47 2)] }
  [0x30, 0x31, 0x32, 0x33, 0x34].foldl (fun c n => c.setCs n (primary.cs n)) c

/-- FILLER_TASK_START (R207, R208, R212): the record at HEAD is taken; with BOUND zero it is not run. Where a condition of
R207 fails no task starts. -/
def execFillerTaskStart (t : Nat) (s : State) : Host.Outcome State Fault Refusal :=
  let x := s.tile t
  let d := t / 96
  let clear := x.arrays.all fun kv => kv.2.cls == .clear
  match s.filRing t with
  | none => .next s
  | some r =>
    if !x.live || x.saved.isSome || !s.rb d (filOff t) 63 || !s.mayFill t || r.head == r.tail || !s.unitsIdle t
        || (s.rb d (filOff t) 61 && !clear) then .next s
    else
      let a := r.base + r.head.toNat % 2 ^ r.log2n * 32
      let q := s.readDram x.part a 32
      let w := wordsOf 4 (onesFor q.1)
      let take (y : FilRing) : FilRing := if y.named d r.base then { y with head := y.head + 1 } else y
      let s := { q.2.2 with rings := q.2.2.rings.map take }
      let bound := fld (wordAt w 3) 31 0
      if bound == 0 then .next s
      else
        let s := s.l1Flush t
        let y := s.tile t
        let us := min bound (s.rf d (filOff t) 31 0)
        let c := taskCtx y.ctx (fld (wordAt w 0) 47 2 * 4) (wordAt w 1) (fld (wordAt w 2) 47 0)
        let s := s.setTile t { y with saved := some y.ctx, ctx := c, deadline := s.now d + 1000 * us }
        .next (s.setPhase t 4)

/-- FILLER_BOUND_EXPIRY (R210): a task that has reached its bound ends; the overrun is reported. -/
def execFillerBoundExpiry (t : Nat) (s : State) : Host.Outcome State Fault Refusal :=
  let x := s.tile t
  if x.saved.isNone || x.ending || s.now (t / 96) < x.deadline then .next s
  else .next ((s.tileReportX 0x004 t).fillerEnd t)

end Sys2Proof.Machine
end

