-- ==== Sys2Proof/Machine/LoadStore.lean ====
section
/-! DEFINITION. Loads and stores (R103), CACHE (R104), FENCE (R105). -/
namespace Sys2Proof.Machine

/-- Where an address of a load or store leads; what it may not reach, with the cause and the address of R124. -/
inductive Reach where
  | own | remote | dram
  | bad (c : Cause) (at_ : Nat)
  deriving DecidableEq, Repr

/-- R103, R281, R209: the areas a tile's loads and stores may name, and the cause of each other address; an access that runs out of its
area has the lowest address outside (R435). -/
def State.reach (s : State) (t a n : Nat) : Reach :=
  let x := s.tile t
  if a ≥ 0x300000000000 then .bad (if a < 0x300C00000000 then .controlSpace else .access) a
  else match spTile a with
    | some u =>
      if u ≥ 768 then .bad .access a
      else if !s.tilePresent u then .bad .absentUnit a
      else if u == t then (match s.outsideOwn t a n with
        | some b => .bad .access b
        | none => .own)
      else if s.partOfTile u != some x.part then .bad .access a
      else if a + n > spBase u + spSize then .bad .access (spBase u + spSize)
      else .remote
    | none =>
      if isDram a then
        match s.dramTrap x.part a n with
        | some b => .bad b.1 b.2
        | none => .dram
      else .bad .access a

/-- The checks of a load or store at effective address `ea` of `n` bytes, in the order of assumption log 23. -/
def State.checkLs (s : State) (t : Nat) (ea : Word) (n : Nat) (k : Reach → TRes) : TRes :=
  if fld ea 63 48 != 0 then .trap .access ea
  else match s.reach t ea.toNat n with
    | .bad c b => .trap c (BitVec.ofNat 64 b)
    | r => if ea.toNat % n != 0 then .trap .misaligned ea else k r

/-- A load of `n` bytes, extended by `ext` (R103). One that waits, for its miss or for a cut-through unit (R193), has been
checked already (R120). -/
def loadOp (i : Instr) (t : Nat) (gd ga : Reg) (imm : BitVec 16) (n : Nat) (ext : Nat → Word) (s : State) :
    Host.Outcome State Fault Refusal :=
  s.run t 4 i fun s =>
    let ea := effAddr (s.g t ga) imm
    let go (r : Reach) : TRes :=
      let a := ea.toNat
      match r with
      | .dram =>
        let q := s.l1Load t a n (s.tile t).ctx.wait.isNone
        match q.1 with
        | some bs => doneG q.2 t gd (ext (leNat bs))
        | none => .wait q.2 6
      | _ =>
        if s.cutPending a n then .wait s 6
        else
          let q := s.readSp a n
          let u := (spTile a).getD t
          doneG (q.2.chargeNet (s.tile t).part (u / 96) (t / 96) n) t gd (ext (leNat q.1))
    if (s.tile t).ctx.wait.isSome then go (if isDram ea.toNat then .dram else .own) else s.checkLs t ea n go

/-- A store of the low `n` bytes of gd (R103). -/
def storeOp (i : Instr) (t : Nat) (gd ga : Reg) (imm : BitVec 16) (n : Nat) (s : State) :
    Host.Outcome State Fault Refusal :=
  s.run t 4 i fun s =>
    let ea := effAddr (s.g t ga) imm
    s.checkLs t ea n fun r =>
      let a := ea.toNat
      let bs := leBytes n (s.g t gd).toNat
      match r with
      | .dram => .done (s.l1Store t a bs)
      | _ => .done ((s.writeSp a bs).chargeNet (s.tile t).part (t / 96) ((spTile a).getD t / 96) n)

/-- Zero and sign extension of the low `n` bytes. -/
def zext64 (v : Nat) : Word := BitVec.ofNat 64 v
def sext64 (n v : Nat) : Word := (BitVec.ofNat (8 * n) v).signExtend 64

def execLdB (t : Nat) (gd ga : Reg) (imm : BitVec 16) (s : State) := loadOp (.ldB t gd ga imm) t gd ga imm 1 (sext64 1) s
def execLdBu (t : Nat) (gd ga : Reg) (imm : BitVec 16) (s : State) := loadOp (.ldBu t gd ga imm) t gd ga imm 1 zext64 s
def execLdH (t : Nat) (gd ga : Reg) (imm : BitVec 16) (s : State) := loadOp (.ldH t gd ga imm) t gd ga imm 2 (sext64 2) s
def execLdHu (t : Nat) (gd ga : Reg) (imm : BitVec 16) (s : State) := loadOp (.ldHu t gd ga imm) t gd ga imm 2 zext64 s
def execLdW (t : Nat) (gd ga : Reg) (imm : BitVec 16) (s : State) := loadOp (.ldW t gd ga imm) t gd ga imm 4 (sext64 4) s
def execLdWu (t : Nat) (gd ga : Reg) (imm : BitVec 16) (s : State) := loadOp (.ldWu t gd ga imm) t gd ga imm 4 zext64 s
def execLdD (t : Nat) (gd ga : Reg) (imm : BitVec 16) (s : State) := loadOp (.ldD t gd ga imm) t gd ga imm 8 zext64 s
def execStB (t : Nat) (gd ga : Reg) (imm : BitVec 16) (s : State) := storeOp (.stB t gd ga imm) t gd ga imm 1 s
def execStH (t : Nat) (gd ga : Reg) (imm : BitVec 16) (s : State) := storeOp (.stH t gd ga imm) t gd ga imm 2 s
def execStW (t : Nat) (gd ga : Reg) (imm : BitVec 16) (s : State) := storeOp (.stW t gd ga imm) t gd ga imm 4 s
def execStD (t : Nat) (gd ga : Reg) (imm : BitVec 16) (s : State) := storeOp (.stD t gd ga imm) t gd ga imm 8 s

/-- CACHE: the range must lie in the partition's DRAM; a length of zero does nothing (R104). -/
def cacheInstr (i : Instr) (t : Nat) (ga gb : Reg) (wb inv : Bool) (s : State) : Host.Outcome State Fault Refusal :=
  s.run t 4 i fun s =>
    let a := (s.g t ga).toNat
    let n := (s.g t gb).toNat
    if n == 0 then .done s
    else match s.dramTrap (s.tile t).part a n with
      | some b => .trap b.1 (BitVec.ofNat 64 b.2)
      | none => .done (s.cacheOp t a n wb inv)

def execCacheWb (t : Nat) (ga gb : Reg) (s : State) := cacheInstr (.cacheWb t ga gb) t ga gb true false s
def execCacheInv (t : Nat) (ga gb : Reg) (s : State) := cacheInstr (.cacheInv t ga gb) t ga gb false true s
def execCacheWbinv (t : Nat) (ga gb : Reg) (s : State) := cacheInstr (.cacheWbinv t ga gb) t ga gb true true s

/-- FENCE: waits until every class set in FN has reached its point (R105, R213). -/
def execFence (t : Nat) (fn : BitVec 9) (s : State) : Host.Outcome State Fault Refusal :=
  s.run t 4 (.fence t fn) fun s =>
    if s.fencePassed t fn.toNat then .done s else .wait s (s.fencePhase t fn.toNat)

end Sys2Proof.Machine
end

