-- ==== Sys2Proof/Machine/Memory.lean ====
section
/-! DEFINITION. The memory stacks' commands: reads and writes at a controller, correction windows, scrub, refresh tiers,
channel health, map-out and frame ownership (chapter 13), and the bandwidth regulators (R356, R357). -/
namespace Sys2Proof.Machine

/-! Accesses and the regulators they wait at. -/

/-- Whether [a, a + n) lies in stacks that this variant has (R281). -/
def State.dramHere (s : State) (a n : Nat) : Bool :=
  decide (a + n ≤ dramTop) && s.stackPresent (a / 2 ^ 36) && (n == 0 || s.stackPresent ((a + n - 1) / 2 ^ 36))

/-- Codewords an access touches. -/
def cwCount (a n : Nat) : Nat := if n == 0 then 0 else (a + n - 1) / 64 - a / 64 + 1

/-- The charge of an access's codeword number `k` (R356): 64 B, or 128 B for a partial write. -/
def cwCharge (w : RegWait) (k : Nat) : Nat :=
  let lo := (w.addr / 64 + k) * 64
  if w.write && !(decide (w.addr ≤ lo) && decide (lo + 64 ≤ w.addr + w.len)) then 128 else 64

/-- A codeword's errors as a read finds them, bit for bit of the codeword (R288): those it already has and the new ones (assumption
log 38). -/
def State.hit (s : State) (cw pat : Nat) : State :=
  let e := s.cwErr.val 0 cw ^^^ (pat % 2 ^ 640)
  if pat % 2 ^ 640 == 0 then s else { s with cwErr := if e == 0 then s.cwErr.del cw else s.cwErr.put cw e }

/-- Serves a read codeword by codeword (R291): bytes, none where lost. -/
def State.serveGo (req : Nat) : Nat → State → Nat → Nat → List (Option Byte) × State
  | 0, s, _, _ => ([], s)
  | k + 1, s, a, n =>
    if n == 0 then ([], s)
    else
      let o := a % 64
      let c := min n (64 - o)
      let r := s.serveCw req (a / 64)
      let here := match r.1 with
        | some bs => ((bs.drop o).take c).map some
        | none => List.replicate c none
      let rest := State.serveGo req k r.2 (a + c) (n - c)
      (here ++ rest.1, rest.2)

/-- Serves a write codeword by codeword. -/
def State.storeGo (req : Nat) : Nat → State → Nat → List Byte → State
  | 0, s, _, _ => s
  | k + 1, s, a, bs =>
    if bs.isEmpty then s
    else
      let o := a % 64
      let c := 64 - o
      State.storeGo req k (s.storeCw req (a / 64) (updFrom o ((bs.take c).map some))) (a + min bs.length c) (bs.drop c)

/-- Whether any byte of [a, a + n) lies in its stack's hole (R283). -/
def State.anyHole (s : State) (a n : Nat) : Bool :=
  n != 0 && (s.inHole a || s.inHole (a + n - 1))

/-- An access performed once admitted. A control core's access to the hole ends in a bus error, as its read of lost data does (R283,
R291). -/
def State.serveAccess (s : State) (req : Nat) (w : RegWait) : State :=
  let k := cwCount w.addr w.len
  if req == 8 && s.anyHole w.addr w.len then s.emit .busError
  else if w.write then s.storeGo req k w.addr w.data
  else
    let r := (s.hit (w.addr / 64) w.errs).serveGo req k w.addr w.len
    if req == 8 && r.1.any (·.isNone) then r.2.emit .busError else r.2.emit (.dramData r.1)

/-- Admits the requests waiting at a regulator in arrival order while its tokens last (R356); `k` bounds the codewords. -/
def State.admitGo (d p i : Nat) : Nat → State → State
  | 0, s => s
  | k + 1, s =>
    match s.regWaits.val [] (regKey d p i) with
    | [] => s
    | w :: rest =>
      if w.paid ≥ cwCount w.addr w.len then
        State.admitGo d p i k ({ s with regWaits := s.regWaits.put (regKey d p i) rest }.serveAccess p w)
      else
        let c := cwCharge w w.paid
        let t := s.rf d (regOff p i + 8) 31 0
        if s.rb d (regOff p i) 63 then
          if t ≥ c then
            let s := s.setRf d (regOff p i + 8) 31 0 (t - c)
            State.admitGo d p i k { s with regWaits := s.regWaits.put (regKey d p i) ({ w with paid := w.paid + 1 } :: rest) }
          else s.setRb d (regOff p i + 8) 63 true
        else
          State.admitGo d p i k { s with regWaits := s.regWaits.put (regKey d p i) ({ w with paid := cwCount w.addr w.len } :: rest) }

def State.admitAll (s : State) (d p i : Nat) : State :=
  State.admitGo d p i ((s.regWaits.val [] (regKey d p i)).map fun w => cwCount w.addr w.len + 2).sum s

/-- An access as it arrives: through the requester's regulator of the stack, if it is a partition's (R356). -/
def State.access (s : State) (req : Nat) (w : RegWait) : Host.Outcome State Fault Refusal :=
  if !s.dramHere w.addr w.len then .fault .absentAddress
  else if req < 8 then
    let r := stackReg (w.addr / 2 ^ 36)
    let q := s.regWaits.val [] (regKey r.1 req r.2)
    .next ({ s with regWaits := s.regWaits.put (regKey r.1 req r.2) (q ++ [w]) }.admitAll r.1 req r.2)
  else .next (s.serveAccess req w)

def execDramRead (req a n errs : Nat) (s : State) : Host.Outcome State Fault Refusal :=
  s.access req { addr := a, len := n, errs := errs }

def execDramWrite (req a : Nat) (bs : List Byte) (s : State) : Host.Outcome State Fault Refusal :=
  s.access req { write := true, addr := a, len := bs.length, data := bs }

/-- REG_TOKEN_CREDIT: rate x time, up to the burst; a fraction of a byte stands over to the next credit, and what runs owe is paid first
(R356; assumption logs 19 and 39). -/
def execRegTokenCredit (mer p i n : Nat) (s : State) : Host.Outcome State Fault Refusal :=
  let d := dieMerA + mer
  let o := regOff p i
  let w := s.regOwed.val (0, 0) (regKey d p i)
  let gain := s.rf d o 51 32 * n + w.2
  let t := s.rf d (o + 8) 31 0 + (gain / 1000 - w.1)
  let s := { s with regOwed := s.regOwed.put (regKey d p i) (w.1 - gain / 1000, gain % 1000) }
  .next ((s.setRf d (o + 8) 31 0 (satAt t (s.rf d o 31 0))).admitAll d p i)

/-- A write of REG_CFG (R357): with EN = 0 nothing is owed any more. -/
def execRegCfgWrite (mer p i : Nat) (v : Word) (s : State) : Host.Outcome State Fault Refusal :=
  let d := dieMerA + mer
  let o := regOff p i
  let rate := if fld v 51 32 == 0 then 1 else fld v 51 32
  let burst := max 256 (min 16777216 (fld v 31 0))
  let s := s.setRg d o (BitVec.ofNat 64 ((bitOf v 63).toNat * 2 ^ 63 + rate * 2 ^ 32 + burst))
  let s := if bitOf v 63 then s else { s with regOwed := s.regOwed.del (regKey d p i) }
  .next ((s.setRf d (o + 8) 31 0 (satAt (s.rf d (o + 8) 31 0) burst)).admitAll d p i)

/-! Windows, scrub and refresh. -/

def execCeWindowRoll (m c : Nat) (s : State) : Host.Outcome State Fault Refusal :=
  .next (if s.stackPresent m then s.setRg (m / 3) (chOff m c + 0x18) 0 else s)

/-- One codeword of a channel that answers met by scrub (R293): corrected and written back, still under the key it was written under, or
reported and left. -/
def State.scrubCw (s : State) (cw : Nat) : State :=
  let a := cw * 64
  if s.inHole a || s.chState (a / 2 ^ 36) (s.chanOf a) == 2 then s
  else match s.decodeCw cw with
    | none => s.memUe a
    | some r =>
      let e := s.cwErr.val 0 cw
      let mem := if e == r.1 then s.mem else Mem.writeN s.mem a (s.plainAs (s.cwKey.val 0 cw) cw (e ^^^ r.1))
      if e == 0 then s else { s.memFixed a r.1 with mem := mem, cwErr := s.cwErr.del cw }

/-- Codewords of one channel: 4 GiB in units of 64 B. -/
def channelCws : Nat := 4 * gib / 64

/-- A FAILED channel met by scrub: every codeword of it is lost and counted (R291, R293, R297); one report stands for those of the pass,
which would coalesce (assumption log 38). -/
def State.scrubFailed (s : State) (m c : Nat) : State :=
  if s.rb (m / 3) (memOff m) c && s.chState m c == 2 then
    ((s.addRg (m / 3) (chOff m c + 0x10) channelCws).setRb (m / 3) (memOff m + 0x18) 1 true).reportX 0x21 (m * 16 + c) none
  else s

/-- SCRUB_PASS: `found` adds codewords with the symbols newly in error; every codeword known to err is met, and every FAILED channel of
the interleave (assumption log 38). -/
def execScrubPass (m : Nat) (found : List (Nat × Nat)) (s : State) : Host.Outcome State Fault Refusal :=
  if s.stackPresent m && s.stackState m == 1 && s.rf (m / 3) (memOff m + 8) 31 24 != 0 then
    let mine (cw : Nat) : Bool := cw * 64 / 2 ^ 36 == m
    let s := (found.filter fun x => mine x.1).foldl (fun s x => s.hit x.1 x.2) s
    let s := ((s.cwErr.filter fun kv => mine kv.1).map (·.1)).foldl State.scrubCw s
    .next ((List.range 16).foldl (fun s c => s.scrubFailed m c) s)
  else .next s

def tierFor (temp : Nat) : Nat := if temp > 105 then 3 else if temp > 95 then 2 else if temp > 85 then 1 else 0

/-- REFRESH_TIER_SAMPLE (R294). -/
def execRefreshTierSample (m temp : Nat) (s : State) : Host.Outcome State Fault Refusal :=
  if !s.stackPresent m then .next s
  else
    let d := m / 3
    let s := s.setRf d (memOff m) 63 56 temp
    let n := tierFor temp
    if n > s.rf d (memOff m) 55 54 then
      let s := (s.setRf d (memOff m) 55 54 n).setRb d (memOff m + 0x18) 2 true
      .next (if n == 3 then (s.setRb d (memOff m + 0x18) 3 true).reportX 0x23 m none else s)
    else .next s

/-- REFRESH_TIER_DOWN: one tier, where the last reading lies below the level that leaves it (R294). -/
def execRefreshTierDown (m : Nat) (s : State) : Host.Outcome State Fault Refusal :=
  let d := m / 3
  let t := s.rf d (memOff m) 55 54
  if s.stackPresent m && t > 0 && s.rf d (memOff m) 63 56 < 73 + 10 * t then
    let s := s.setRf d (memOff m) 55 54 (t - 1)
    .next (if t == 3 then s.endCond 0x23 m else s)
  else .next s

/-! Channel health, map-out and ownership. -/

/-- Frames of a stack not unowned (MEM_PEND.OWNED): only listed ownership words can hold an owner. -/
def State.owned (s : State) (m : Nat) : Nat :=
  let lo := ctlAddr (m / 3) (ownOff m 0)
  ((s.regs.filter fun kv => lo ≤ kv.1 && kv.1 < lo + 0x4000).map fun kv =>
    ((List.range 16).filter fun i => fld kv.2 (4 * i + 3) (4 * i) != 15).length).sum

/-- MEM_PEND.CHANNELS. -/
def State.pend (s : State) (m : Nat) : Nat := s.rf (m / 3) (memOff m + 0x20) 15 0

/-- MEM_PEND as read. -/
def State.memPend (s : State) (m : Nat) : Word := BitVec.ofNat 64 (s.owned m * 2 ^ 16 + s.pend m)

/-- The channels that a stack's running remap takes out, as bits. -/
def State.remapping (s : State) (m : Nat) : Nat := s.remaps.val 0 m

/-- A remap of the channels that wait starts once the stack is up and no frame is owned (R298). -/
def State.tryRemap (s : State) (m : Nat) : State :=
  if s.stackState m == 1 && s.pend m != 0 && s.owned m == 0 then
    { s.setRf (m / 3) (memOff m) 53 51 2 with remaps := s.remaps.put m (s.pend m) }
  else s

/-- Requests map-out of channels; one already mapped out is ignored (R298). -/
def State.askMapout (s : State) (m chans : Nat) : State :=
  let ok := (List.range 16).foldl (fun a c => if natBit chans c && s.chState m c != 3 then natSet a c true else a) (s.pend m)
  (s.setRf (m / 3) (memOff m + 0x20) 15 0 ok).tryRemap m

/-- A channel enters FAILED and asks for its own map-out (R297, R298). -/
def State.failChannel (s : State) (m c : Nat) : State :=
  if s.stackPresent m && s.chState m c < 2 && s.rb (m / 3) (memOff m) c then
    (((s.setRf (m / 3) (chOff m c) 63 62 2).endCond 0x24 (m * 16 + c)).reportX 0x25 (m * 16 + c) none).askMapout m (2 ^ c)
  else s

def execChannelPeriodicRetrain (m c : Nat) (ok : Bool) (s : State) : Host.Outcome State Fault Refusal :=
  .next (if ok then s else s.failChannel m c)

def execChannelFailed (m c : Nat) (s : State) : Host.Outcome State Fault Refusal := .next (s.failChannel m c)

/-- MEM_MAPOUT (R298); on the window of an absent Hob a bus error (R5). -/
def execMemMapoutWrite (m : Nat) (v : Word) (s : State) : Host.Outcome State Fault Refusal :=
  .next (if s.stackPresent m then s.askMapout m (fld v 15 0) else s.emit .busError)

/-- The contents of a stack lost: what was written there is under a key no slot holds (R298; assumption log 40). -/
def State.loseStack (s : State) (m : Nat) : State :=
  let r := s.freshKeyId
  let mine (a : Nat) : Bool := a / 2 ^ 36 == m
  let cws := ((r.2.mem.filter fun c => mine c.1).map fun c => c.1 / 64) ++ (r.2.cwKey.filter fun kv => mine (kv.1 * 64)).map (·.1)
  { r.2 with cwKey := cws.foldl (fun t k => t.put k (lostKey r.1)) r.2.cwKey,
             cwErr := r.2.cwErr.filter fun kv => !mine (kv.1 * 64) }

/-- Takes channels out of a stack's interleave; under 8 left the stack is DOWN (R298, R299). -/
def State.mapOut (s : State) (m : Nat) (gone : List Nat) : State :=
  let d := m / 3
  let s := gone.foldl (fun s c =>
    ((s.setRf d (chOff m c) 63 62 3).endCond 0x24 (m * 16 + c)).endCond 0x25 (m * 16 + c)) s
  let s := s.setRf d (memOff m) 15 0 (gone.foldl (fun a c => natSet a c false) (s.rf d (memOff m) 15 0))
  let n := (s.chanList m).length
  let s := s.setRf d (memOff m) 20 16 n
  if n < 8 then (s.setRf d (memOff m) 47 40 0).setRf d (memOff m) 53 51 3
  else (s.setRf d (memOff m) 47 40 (4 * n)).setRf d (memOff m) 53 51 1

/-- REMAP_COMPLETE (R298, R300); a MAPOUT operation completes with it (R411). Channels requested meanwhile wait for the next remap, which
starts at once where no frame is owned (assumption log 40). -/
def execRemapComplete (m : Nat) (s : State) : Host.Outcome State Fault Refusal :=
  if !s.stackPresent m || s.stackState m != 2 then .next s
  else
    let gone := (List.range 16).filter fun c => natBit (s.remapping m) c
    let left := gone.foldl (fun a c => natSet a c false) (s.pend m)
    let s := ((s.loseStack m).mapOut m gone).setRf (m / 3) (memOff m + 0x20) 15 0 left
    let s := { s with remaps := s.remaps.del m }
    let s := s.setRb (m / 3) (memOff m + 0x18) 4 true
    let s := s.completeOps 0x18 m
    .next ((s.newRepair fun c => { c with mapped := listUnion c.mapped (gone.map (m * 16 + ·)) }).tryRemap m)

/-- Frames the stack's interleave holds: the coming one during a remap, none when it is down or its Hob fenced (R283, R299, R387;
assumption log 40). -/
def State.framesOf (s : State) (m : Nat) : Nat :=
  let n := s.healthy m
  if s.stackState m == 3 || s.dieFenced (m / 3) then 0
  else if s.stackState m == 2 then
    let k := ((s.chanList m).filter fun c => !natBit (s.remapping m) c).length
    if k < 8 then 0 else k * 2048
  else n * 2048

/-- MEM_OWN_WRITE: ignored whole for a reserved code or an owner in the hole (R301); a remap may start (R298). On the window of an
absent Hob a bus error (R5). -/
def execMemOwnWrite (m w : Nat) (v : Word) (s : State) : Host.Outcome State Fault Refusal :=
  if !s.stackPresent m then .next (s.emit .busError)
  else
    let code (i : Nat) : Nat := fld v (4 * i + 3) (4 * i)
    let bad := (List.range 16).any fun i =>
      (decide (code i > 8) && code i != 15) || (code i != 15 && decide (16 * w + i ≥ s.framesOf m))
    if bad then .next (s.setRb (m / 3) (memOff m + 0x18) 5 true)
    else .next ((s.setRg (m / 3) (ownOff m w) v).tryRemap m)

end Sys2Proof.Machine
end

