-- ==== Sys2Proof/Machine/Pace.lean ====
section
/-! DEFINITION. The pace governors and the package power loop (chapter 02). -/
namespace Sys2Proof.Machine

def paceOff : Nat := 0x2000

/-- Whether the governors run: while the collector does, from the DIE stage on, which chapter 02 leaves open (DESIGN CHOICE, assumption log 62);
stopped, a die's supply stays where it is (R393). -/
def State.governs (s : State) (d : Nat) : Bool := s.collectorRuns && !s.stopped && s.diePresent d

def State.gov (s : State) (d : Nat) : Gov := s.govs.val {} d

/-- Applies a supply, in half millivolts; VCORE shows whole millivolts (assumption log 45). -/
def State.setSupply (s : State) (d half : Nat) : State :=
  { s.setRf d (paceOff + 8) 25 16 (half / 2) with govs := s.govs.put d { s.gov d with half := half } }

/-- One step of 2.5 mV toward a level, both in half millivolts (R24). -/
def stepToward (now goal : Nat) : Nat := if now < goal then min (now + 5) goal else max (now - 5) goal

/-- A supply in half millivolts held within 600 to 850 mV (R23). -/
def heldSupply (half : Nat) : Nat := max 1200 (min 1700 half)

/-- A level above the supply `half`, at it, or below it, in half millivolts: at least a step of 2.5 mV away, unless `at_`, and
otherwise free (R24; assumption log 45). -/
def levelUp (half gap : Nat) : Nat := half + 5 + 5 * gap
def levelDown (half gap : Nat) : Nat := half - (5 + 5 * gap)

/-- The pace of a number of laps in the 1 us of a pass, in 10^6 handshakes per second (R22). -/
def paceOfLaps (d laps : Nat) : Nat := laps * Config.lapNum d / (Config.lapDen d + 1)

/-- The level that meets PACE_TARGET (R24, R25): above the supply while the measured pace lies below the target. -/
def targetLevel (d measured target half : Nat) : Nat :=
  if measured < target then levelUp half (Config.levelGap 0 d measured target half)
  else if target < measured then levelDown half (Config.levelGap 0 d measured target half)
  else half

/-- The highest level that keeps the junction below PACE_TJ_LIMIT (R24): below the supply once the limit is reached. -/
def thermalLevel (d tj limit half : Nat) : Nat :=
  if tj < limit then half + 5 * Config.levelGap 1 d tj limit half
  else levelDown half (Config.levelGap 1 d tj limit half)

/-- The highest level that keeps the die within its share of the package cap (R24); none before a first division. -/
def capLevel (d power : Nat) (share : Option Nat) (half : Nat) : Option Nat :=
  match share with
  | none => none
  | some w => some (if power ≤ w then half + 5 * Config.levelGap 2 d power w half
      else levelDown half (Config.levelGap 2 d power w half))

/-- A pass reads the replica's lap count (R22, R28, R32): the laps since the last pass, and the passes without one. -/
def Gov.sampleLaps (g : Gov) (gray : BitVec 16) : Gov :=
  { g with laps := gray, stall := if grayNew g.laps gray == 0 then g.stall + 1 else 0 }

/-- The hottest junction as a pass accepts it (R33); the last one shown stays where no two samples agree. -/
def State.acceptTj (s : State) (d : Nat) (tjs : List Nat) : State :=
  match sampledTwice tjs with
  | some tj => s.setRf d (paceOff + 8) 15 8 tj
  | none => s

/-- The supply follows the lowest of the three levels, clamped (R23 to R25), and PACE_STATUS and PACE_EVENTS show what acted: a
limit whose level is the lowest, where the level applied lies below the one that meets the target, which is taken before the clamp, so
that a limit above 0.85 V may be shown beside AT_CEILING. Where both limits have the lowest level, both are shown (DESIGN CHOICE,
assumption log 62). -/
def State.paceStep (s : State) (d measured : Nat) : State :=
  let g := s.gov d
  let o := paceOff + 8
  let target := s.rf d paceOff 15 0
  let goalT := targetLevel d measured target g.half
  let goalJ := thermalLevel d (s.rf d o 15 8) (s.rf d (paceOff + 0x10) 7 0) g.half
  let goalC := (capLevel d g.power g.share g.half).getD (max goalT goalJ)
  let low := min goalT (min goalJ goalC)
  let goal := heldSupply low
  let half := heldSupply (stepToward g.half goal)
  let ceil := half == 1700 && decide (measured < target)
  let floor := half == 1200 && decide (target < measured)
  let below := decide (goal < goalT)
  let thermal := below && goalJ == low && decide (goalJ < goalT)
  let cap := below && goalC == low && decide (goalC < goalT)
  let s := s.setSupply d half
  let s := (s.setRf d o 47 32 measured).setRf d o 3 0 (ceil.toNat * 8 + floor.toNat * 4 + thermal.toNat * 2 + cap.toNat)
  let ev := s.rf d (paceOff + 0x18) 2 0
  s.setRf d (paceOff + 0x18) 2 0
    ((natBit ev 2 || cap).toNat * 4 + (natBit ev 1 || thermal).toNat * 2 + (natBit ev 0 || ceil).toNat)

/-- PACE_LOOP_PASS (R22 to R25): `gray` is the sample of the replica's lap count, `tjs` the samples of the hottest junction
sensor, `powerW` the die's power. While REPLICA_FAIL is set, and once the count has stood still for 16 passes, the supply
stays; TJ is refreshed (R28; assumption log 62). -/
def execPaceLoopPass (d : Nat) (gray : BitVec 16) (tjs : List Nat) (powerW : Nat) (s : State) : Host.Outcome State Fault Refusal :=
  if !s.governs d then .next s
  else
    let s := s.acceptTj d tjs
    let measured := paceOfLaps d (grayNew (s.gov d).laps gray)
    let s := { s with govs := s.govs.put d ((s.gov d).sampleLaps gray) }
    if s.rb d (paceOff + 0x18) 3 || decide (16 ≤ (s.gov d).stall) then .next s
    else .next (State.paceStep { s with govs := s.govs.put d { s.gov d with power := powerW } } d measured)

/-- REPLICA_FAIL (R28): after 16 passes without a lap the die is held at 0.70 V and reported. -/
def execReplicaFail (d : Nat) (s : State) : Host.Outcome State Fault Refusal :=
  if !s.governs d || s.rb d (paceOff + 0x18) 3 || decide ((s.gov d).stall < 16) then .next s
  else .next (((s.setSupply d 1400).setRb d (paceOff + 0x18) 3 true).reportX 0x10 d none)

/-! The package loop (R27). -/

/-- Divides `n` W among dies in order, each to what `f` gives it of what is left, the last to all that is left. -/
def divideW (f : Nat → Nat) : List Nat → Nat → List (Nat × Nat)
  | [], _ => []
  | [d], n => [(d, n)]
  | d :: e :: r, n => (d, min (f d) n) :: divideW f (e :: r) (n - min (f d) n)

/-- A die whose replica has failed: its share is charged at its last measured power (R28). -/
def State.charged (s : State) (d : Nat) : Bool := s.rb d (paceOff + 0x18) 3

/-- The sum of the dies' last measured powers. -/
def State.packageW (s : State) : Nat := ((List.range 12).map fun d => (s.gov d).power).sum

/-- Whether the package may draw more than its cap: excursion time is left and it draws no more than 5.0 kW (R27). -/
def State.mayExceed (s : State) : Bool := decide (0 < s.rf dieMerA 0x2108 47 32) && decide (s.packageW ≤ 5000)

/-- What the loop divides: the cap, or what it lets the package draw above it, up to 5.0 kW (R27; assumption log 63). -/
def State.budgetW (s : State) : Nat :=
  let cap := s.rf dieMerA 0x2100 15 0
  if s.mayExceed then max cap (min 5000 (Config.excursionW cap (s.rf dieMerA 0x2108 47 32))) else cap

/-- The part of that which falls to each die which takes cap changes: what the charged dies leave of it, divided. -/
def State.baseShares (s : State) : List (Nat × Nat) :=
  let dies := (List.range 12).filter s.diePresent
  let fixed := ((dies.filter s.charged).map fun d => (s.gov d).power).sum
  divideW (Config.capShare s.budgetW) (dies.filter fun d => !s.charged d) (s.budgetW - fixed)

/-- A die that draws less than its share gives up the remainder to the dies that are limited (PACE_STATUS.CAP_LIMITED), where there
are any. -/
def State.giveUp (s : State) (base : List (Nat × Nat)) : List (Nat × Nat) :=
  let limited := (base.map (·.1)).filter fun d => s.rb d (paceOff + 8) 0
  if limited.isEmpty then base
  else
    let spare := (base.map fun x => if limited.contains x.1 then 0 else x.2 - (s.gov x.1).power).sum
    let more := divideW (Config.spareShare spare) limited spare
    base.map fun x => if limited.contains x.1 then (x.1, x.2 + Tab.val more 0 x.1) else (x.1, min x.2 (s.gov x.1).power)

/-- Sets the shares: while the package may draw more than its cap what some give up goes to others; else every die is held to its own
share of the cap (R27; assumption logs 45 and 63). -/
def State.redivide (s : State) : State :=
  let base := s.baseShares
  (if s.mayExceed then s.giveUp base else base).foldl (fun s x =>
    { s with govs := s.govs.put x.1 { s.gov x.1 with share := some x.2 } }) s

/-- PKG_POWER_REDIVISION (R27): every 100 us the halves exchange the dies' powers and divide the cap again. Excursion time is taken
in whole steps of 100 us, for each division that finds the sum of the powers above the cap (assumption log 63). -/
def execPkgPowerRedivision (powers : List (Nat × Nat)) (avg : Nat) (s : State) : Host.Outcome State Fault Refusal :=
  if !s.governs dieMerA then .next s
  else
    let s := powers.foldl (fun s x =>
      if s.diePresent x.1 && !s.charged x.1 then { s with govs := s.govs.put x.1 { s.gov x.1 with power := x.2 } } else s) s
    let s := s.setRf dieMerA 0x2108 15 0 avg
    let s := if s.packageW > s.rf dieMerA 0x2100 15 0 then s.setRf dieMerA 0x2108 47 32 (s.rf dieMerA 0x2108 47 32 - 100) else s
    .next s.redivide

/-- EXCURSION_EXHAUSTED (R27): every die is held to its share from here on. -/
def execExcursionExhausted (s : State) : Host.Outcome State Fault Refusal :=
  .next (if s.governs dieMerA then (s.setRf dieMerA 0x2108 47 32 0).redivide else s)

/-- EXCURSION_WINDOW_END (R27). -/
def execExcursionWindowEnd (s : State) : Host.Outcome State Fault Refusal :=
  .next (if s.governs dieMerA then s.setRf dieMerA 0x2108 47 32 5000 else s)

end Sys2Proof.Machine
end

