-- ==== Sys2Proof/Machine/Power.lean ====
section
/-! DEFINITION. Power, reset and boot (chapter 19: R398 to R407, with R334, R343, R345, R363 to R372, R430, R431). -/
namespace Sys2Proof.Machine

/-! Power and reset (R398 to R403, R430). -/

/-- The cold state (R403): everything at reset but the eMMC, the pins, what was sent and what waits. Numbers of keys and free
values go on, so that no later one equals an earlier. -/
def State.cold (s : State) : State :=
  { pending := s.pending, variant := s.variant, romKey := s.romKey, guestId := s.guestId, caps := s.caps,
    emmc := { s.emmc with writing := none }, pins := { s.pins with errnDriven := false }, freeIdx := s.freeIdx,
    out := s.out, rot := { nextKeyId := s.rot.nextKeyId } }

/-- Power removed from every die, with the eMMC writes under way completed (R402): the next power-up is cold. -/
def State.powerDown (s : State) : State :=
  let t := s.cold
  { t with pins := { t.pins with pwrOk := false, powered := false, released := false, counting := false, okNs := 0 } }

/-- Power lost without warning: a write under way is torn (R405). -/
def State.powerLoss (s : State) : State := { s with emmc := s.emmc.torn }.powerDown

def State.setPins (s : State) (f : Pins → Pins) : State := { s with pins := f s.pins }

def execPwrEnRise (s : State) : Host.Outcome State Fault Refusal := .next (s.setPins fun p => { p with pwrEn := true })

/-- RAILS_IN_REGULATION: PWR_OK rises; the dies are powered and held in reset until RESET_N rises. The local counters start: the
reference clocks are stable (R35, R400; assumption log 64). -/
def execRailsInRegulation (s : State) : Host.Outcome State Fault Refusal :=
  let p := s.pins
  if p.pwrEn && p.inputOn && !p.tripped && !p.powered then
    .next (s.cold.setPins fun p => { p with pwrOk := true, powered := true, released := false, counting := true, okNs := 0 })
  else .next s

/-- EMMC_RST_N, which the package drives: low while RESET_N is low (R427). -/
def Pins.emmcRstN (p : Pins) : Bool := p.powered && p.resetN

/-- RESET_N_RISE: ignored before PWR_OK has been high for 1 ms, whatever RESET_N did meanwhile; else the boot ROM starts, each link with a
new epoch (R318, R400). The counters that a reset held at zero run (R401); the ADDR pins are read (R428). -/
def execResetNRise (epochs : List (Nat × Nat)) (s : State) : Host.Outcome State Fault Refusal :=
  let was := s.pins.resetN
  let s := s.setPins fun p => { p with resetN := true, addr := p.strap }
  if was || !s.pins.pwrOk || s.pins.released || decide (s.pins.okNs < 1000000) then .next s
  else
    let s := s.setPins fun p => { p with released := true, counting := true, risenAt := s.now dieMerA }
    .next ((List.range 24).foldl (fun s l =>
      if s.linkPresent l then
        match epochs.find? fun e => e.1 == l with
        | some e => s.setLkF l 0x20 31 0 e.2
        | none => let r := s.draw; r.2.setLkF l 0x20 31 0 (Config.freeWord r.1).toNat
      else s) s)

/-- RESET_N_FALL: a power cycle of the dies; their counters stand at zero until RESET_N rises (R401). -/
def execResetNFall (s : State) : Host.Outcome State Fault Refusal :=
  let s := s.setPins fun p => { p with resetN := false }
  .next (if s.pins.pwrOk then s.cold.setPins fun p => { p with released := false, counting := false } else s)

/-- PWR_EN_FALL (R402). -/
def execPwrEnFall (s : State) : Host.Outcome State Fault Refusal :=
  let s := s.setPins fun p => { p with pwrEn := false, tripped := false }
  .next (if s.pins.powered then s.powerDown else s)

/-- INPUT_OUT_OF_RANGE (R399): below 42 V or above 58 V power goes at once. -/
def execInputOutOfRange (mv : Nat) (s : State) : Host.Outcome State Fault Refusal :=
  let s := s.setPins fun p => { p with vin := mv }
  if mv < 42000 || mv > 58000 then
    let s := s.setPins fun p => { p with inputOn := false }
    .next (if s.pins.powered then s.powerLoss else s)
  else .next s

/-- INPUT_ABOVE_TURN_ON (R398). -/
def execInputAboveTurnOn (mv : Nat) (s : State) : Host.Outcome State Fault Refusal :=
  .next (s.setPins fun p => { p with vin := mv, inputOn := p.inputOn || (mv > 45000 && mv ≤ 58000) })

/-- THERMAL_TRIP (R430): off until PWR_EN is lowered and raised; no record. -/
def execThermalTrip (d : Nat) (s : State) : Host.Outcome State Fault Refusal :=
  if s.pins.powered && s.diePresent d then .next (s.powerLoss.setPins fun p => { p with tripped := true }) else .next s

/-- CONVERTER_OVERTEMP (R431): the input is removed. -/
def execConverterOvertemp (s : State) : Host.Outcome State Fault Refusal :=
  let s := s.setPins fun p => { p with inputOn := false }
  .next (if s.pins.powered then s.powerLoss else s)

/-! Boot (R363 to R372). -/

/-- Copy `i` (0 A, 1 B) of component `c` (1 ROT, 2 DIE, 3 OS), byte for byte: manifest, signature, image (R370). -/
def State.fwCopy (s : State) (c i : Nat) : List Byte := s.emmc.copies.val [] (c * 2 + i)

/-- Where a copy's image begins. -/
def fwHead : Nat := 3348

/-- Fields of a manifest (R370): LENGTH, SVN, IMAGE. -/
def fwLength (x : List Byte) : Nat := leAt x 8 4
def fwSvn (x : List Byte) : Nat := leAt x 6 2
def fwHash (x : List Byte) : List Byte := (x.drop 0x10).take 32

/-- Whether a copy of component `c` verifies: its fields, Suelm's signature over bytes 0x00 to 0x3F, and its image's hash (R370, R371). -/
def State.fwGood (s : State) (c : Nat) (x : List Byte) : Bool :=
  leAt x 0 4 == 0xA5F1 && leAt x 4 2 == c && leAt x 0x0C 4 == 0 && leAt x 0x30 16 == 0 && decide (fwHead + fwLength x ≤ x.length)
    && hssVerify otsW8 15 15 s.romKey (x.take 64) ((x.drop 64).take 3284)
    && sha256 ((x.drop fwHead).take (fwLength x)) == fwHash x

/-- Whether a copy is accepted (R371). -/
def State.fwOk (s : State) (c : Nat) (x : List Byte) : Bool := s.fwGood c x && decide (fwSvn x ≥ s.emmc.minSvn.val 0 c)

/-- The copy that runs: of the accepted ones the higher SVN, A on a tie. `readable` speaks of the eMMC's data, not of these copies: R345 has
a package boot with its eMMC unreadable (DEDUCED, assumption log 71). -/
def State.fwPick (s : State) (c : Nat) : Option Nat :=
  let a := s.fwCopy c 0
  let b := s.fwCopy c 1
  match s.fwOk c a, s.fwOk c b with
  | true, true => some (if fwSvn b > fwSvn a then 1 else 0)
  | true, false => some 0
  | false, true => some 1
  | false, false => none

/-- Runs a component: its measurement, SHA-256 over its manifest, and SVN shown (R371, R384). -/
def State.fwRun (s : State) (c i : Nat) : State :=
  let x := (s.fwCopy c i).take 64
  let m := wordsOf 4 (sha256 x)
  let s := { s with rot := { s.rot with running := s.rot.running.put c x, runCopy := s.rot.runCopy.put c i } }
  let s := (List.range 4).foldl (fun s w => s.setRg dieMerA (0x4040 + 8 * (4 * (c - 1) + w)) (wordAt m w)) s
  s.setRf dieMerA 0x4010 (63 - 16 * c) (48 - 16 * c) (fwSvn x)

/-- Whether the boot is under way, in a phase. -/
def State.booting (s : State) (ph : Nat) : Bool := s.pins.powered && s.pins.released && s.phase == ph

def State.recover (s : State) : State := s.setBootPhase 5

/-- The root secret that a reading of the PUF yields with one of the two helper copies, checked against the value stored with it (R363;
its check value is the secret's SHA-256, DESIGN CHOICE, assumption log 71). -/
def State.pufSecret (s : State) (reading : List Byte) : Option (List Byte) :=
  if !s.emmc.readable then none
  else ((List.range 2).map fun i => (Config.pufSecret reading (s.emmc.helper.getD i []), s.emmc.check.getD i [])).find? (fun x =>
    sha256 x.1 == x.2) |>.map (·.1)

/-- Enrolment, at the first-ever power-up (R363): the helper data and check value written twice, the RPMB key programmed (R366). -/
def State.enrol (s : State) (reading : List Byte) : State :=
  let h := Config.pufHelper reading
  let k := Config.pufSecret reading h
  let s := { s.setRb dieMerA 0x3000 55 true with rot := { s.rot with secret := k } }
  { s with emmc := { s.emmc with
      enrolled := true, helper := [h, h], check := [sha256 k, sha256 k], rpmbKey := s.derive labRpmb 32 } }

/-- STATE reads NO_PUF, but in UNLOCKED, which lasts until power is removed (R363, R380). -/
def State.noPuf (s : State) : State := if s.rotState == 5 then s else s.setRotState 2

/-- BOOT_ROM_DONE: the PUF as the ROM reads it, enrolled at the first-ever power-up (R363); the ROT copies (R371, R372). -/
def execBootRomDone (reading : List Byte) (s : State) : Host.Outcome State Fault Refusal :=
  if !s.booting 0 || s.rot.runCopy.find 1 != none then .next s
  else
    let s := if s.emmc.enrolled then
        (match s.pufSecret reading with
        | some k => { s with rot := { s.rot with secret := k } }
        | none => s.noPuf)
      else if s.emmc.readable then s.enrol reading
      else s.noPuf
    match s.fwPick 1 with
    | none => .next s.recover
    | some i => .next ((s.fwRun 1 i).setBootPhase 1)

/-- DEV_ID: the first 8 bytes of SHA-256 over the public key, read big-endian (R365). -/
def devIdOf (pub : List Byte) : Word := BitVec.ofNat 64 (beNat ((sha256 pub).take 8))

/-- The public key shown, and DEV_ID (R365, R384). -/
def State.showKey (s : State) (pub : List Byte) : State :=
  let ws := wordsOf 8 (fixLen 64 pub)
  let s := (List.range 8).foldl (fun s w => s.setRg dieMerA (0x4100 + 8 * w) (wordAt ws w)) s
  { s.setRg dieMerA 0x4008 (devIdOf pub) with rot := { s.rot with pubKey := pub } }

/-- The level-0 tree's upper nodes: from the cache where its HMAC verifies, else by computing the whole tree, at enrolment or again
(R368). The endorsement is kept at enrolment. -/
def State.openCache (s : State) : State :=
  if s.emmc.readable && s.emmc.cacheMac == s.cacheMac s.emmc.cache && !s.emmc.cache.isEmpty then s.showKey (s.pubKeyOf (s.emmc.cache.getD 0 []))
  else
    let nodes := s.l0Nodes
    let pub := s.pubKeyOf (nodes.getD 0 [])
    let first := s.rb dieMerA 0x3000 55
    let s := if first then s else s.setRb dieMerA 0x3000 51 true
    let s := if s.emmc.readable then s.emmcWrite .cache { s.emmc with
        cache := nodes, cacheMac := s.cacheMac nodes, endorsement := if first then Config.endorse pub else s.emmc.endorsement } else s
    s.showKey pub

/-- REV, NETVER of a die's capability word (R333). -/
def State.dieRev (s : State) (d : Nat) : Nat := s.rf d 0x1000 55 48
def State.dieNet (s : State) (d : Nat) : Nat := s.rf d 0x1000 47 40

/-- Whether a Hob or Mandoline runs with a Meridian (R334). -/
def State.withMer (s : State) (d mer : Nat) : Bool :=
  let r := s.dieRev d
  let m := s.dieRev mer
  (r == 0x10 && m == 0x10) || (d == dieMdl && r == 0x10 && m == 0x11) || (d < 8 && r == 0x11 && (m == 0x10 || m == 0x11))

/-- Each pair of joined dies judged in the order of R334: the Meridian pair, each Hob and its ring, Mandoline, the guest. -/
def State.judgeDies (s : State) : State :=
  if !(s.dieRev dieMerA / 16 == s.dieRev dieMerB / 16 && s.dieNet dieMerA == s.dieNet dieMerB) then
    s.reportX 0x13 dieMerA none
  else
    let s := (List.range 8).foldl (fun s k =>
      if s.diePresent k && !(s.withMer k dieMerA && s.withMer k dieMerB) then s.fenceDie k else s) s
    let s := (List.range 8).foldl (fun s k =>
      match s.module k 5 with
      | some e =>
        if s.dieNet k == s.dieNet e.1 then s
        else (((s.setD2dState k 5 4).setD2dState e.1 e.2 4).d2dEvent k 5 0).d2dEvent e.1 e.2 0
      | none => s) s
    let s := if s.diePresent dieMdl && !s.withMer dieMdl dieMerB then s.fenceDie dieMdl else s
    if s.diePresent dieGuest && !(s.dieNet dieGuest == s.dieNet dieMerA && s.rb dieGuest 0x1000 1) then s.fenceDie dieGuest else s

/-- The identity of this power-up (R365 to R369, R375): one level-0 leaf, whose index is BOOT, its tree, the identity quote. -/
def State.identity (s : State) : State :=
  if s.rot.secret.isEmpty then s
  else
    let s := s.openCache
    if s.rotState == 5 then s
    else
      let r := s.takeLeaf
      match r.1 with
      | none => r.2
      | some n =>
        let r := (((r.2.setRf dieMerA rotOff 31 12 n).setRf dieMerA rotOff 11 0 2048).setRotState 1).signOne
        match r.1 with
        | none => r.2
        | some k => { r.2 with rot := { r.2.rot with idQuote := r.2.quoteOf k (r.2.quoteBody 0 k 0xFF []) } }

/-- The control cores' key of this power-up: derived from the root secret; without one a fresh draw (R364; assumption log 71); none once UNLOCKED (R380). -/
def State.ccKey (s : State) : State :=
  if s.rotState == 5 then s
  else if s.rot.secret.isEmpty then
    let r := s.freshKeyId
    { r.2 with rot := { r.2.rot with ccKeyId := r.1 } }
  else { s with rot := { s.rot with ccKeyId := suppliedKeyId (BitVec.ofNat 512 (leNat (s.derive (labCc s.rotBoot) 64))) } }

/-- ROT_STAGE_DONE: identity, the control cores' key, the DIE copies; the collector runs from here (R364, R371). `rpmbOk`: whether the
RPMB block took its write and read back (R366). -/
def execRotStageDone (rpmbOk : Bool) (s : State) : Host.Outcome State Fault Refusal :=
  if !s.booting 1 then .next s
  else
    let s := { s with emmc := { s.emmc with rpmbOk := rpmbOk } }.identity.ccKey
    match s.fwPick 2 with
    | none => .next s.recover
    | some i => .next ((s.fwRun 2 i).setBootPhase 2).judgeDies

/-- The channels MAPPED_OUT, as stack x 16 + channel (R344). -/
def State.mappedOut (s : State) : List Nat :=
  ((List.range 24).filter s.stackPresent).flatMap fun m => ((List.range 16).filter fun c => s.chState m c == 3).map (m * 16 + ·)

/-- MEM_TRAINING_DONE (R299, R300): `failed` channels, and those the signed copy names, which are not tried, are MAPPED_OUT; what a valid
copy lacks is added to it (R344). A channel trains from scratch where the training record holds no settings for it or they failed
verification (`unverified`). -/
def execMemTrainingDone (failed unverified : List (Nat × Nat)) (s : State) : Host.Outcome State Fault Refusal :=
  if !s.collectorRuns || s.phase != 2 then .next s
  else
    let known := (s.repairCopy.map (·.mapped)).getD []
    let one (s : State) (m : Nat) : State :=
      if s.stackPresent m && s.stackState m == 0 then
        let gone := (List.range 16).filter fun c => failed.contains (m, c) || known.contains (m * 16 + c)
        (s.setRf (m / 3) (memOff m) 15 0 0xFFFF).mapOut m gone
      else s
    let tried := (((List.range 24).filter s.stackPresent).flatMap fun m => (List.range 16).map (m * 16 + ·)).filter fun c => !known.contains c
    let held := s.trainRec.chanSettings
    let warm := tried.all fun c => (held.find c).isSome && !unverified.contains (c / 16, c % 16)
    let s := (List.range 24).foldl one (if warm then s else s.setRb dieMerA 0x3000 54 true)
    let r := s.draw
    let s := r.2.train fun t => { t with chanSettings :=
      (tried.filter fun c => !failed.contains (c / 16, c % 16)).foldl (fun u c => u.put c (Config.freeWord (r.1 + c))) t.chanSettings }
    let s := { s with freeIdx := s.freeIdx + 384 }
    let s := if s.repairCopy.isSome then s.newRepair fun c => { c with mapped := listUnion c.mapped s.mappedOut } else s
    .next ((List.range 24).foldl (fun s m => if s.stackPresent m then s.tryRemap m else s) s)

/-- Logical tiles from the bad positions (R343): index i is the i-th good position; indices without one are lost. -/
def State.mapTiles (s : State) (bad : List Nat) : State :=
  let one (s : State) (k : Nat) : State :=
    if !s.diePresent k then s
    else
      let good := (List.range 104).filter fun i => !bad.contains (k * 104 + i)
      let g := good.length
      let pos := (List.range 96).foldl (fun t i => match good[i]? with
        | some j => if i == j then t else t.put (k * 96 + i) (k * 104 + j)
        | none => t.put (k * 96 + i) lostPos) s.positions
      let lost := (List.range 12).foldl (fun a j => natSet a j (decide (8 * j + 7 ≥ g))) 0
      { s.setRg dieMerA (repLostOff k) (BitVec.ofNat 64 ((g - 96) * 2 ^ 24 + lost)) with positions := pos }
  let s := (List.range 8).foldl one { s with positions := [] }
  let spares := ((List.range 8).filter s.diePresent).map fun k => s.rf dieMerA (repLostOff k) 31 24
  s.setRf dieMerA 0xF00000 7 0 (spares.foldl min 8)

/-- The repair source reported for Hobs (R345). -/
def State.reportHobs (s : State) (hobs : List Nat) : State := hobs.foldl (fun s k => s.reportX 0x16 k none) s

/-- SELF_TEST_DONE: the positions found defective (Hob, position) reconciled with the signed copy (R345). -/
def execSelfTestDone (found : List (Nat × Nat)) (s : State) : Host.Outcome State Fault Refusal :=
  if !s.collectorRuns || s.reconciled then .next s
  else
    let here := (found.filter fun f => s.diePresent f.1 && f.1 < 8).map fun f => f.1 * 104 + f.2
    let hobs := (List.range 8).filter s.diePresent
    let s := { s with reconciled := true }
    let full (src : Nat) (s : State) : State := ((s.setRf dieMerA 0xF00000 63 62 src).setRb dieMerA 0x3000 52 true).mapTiles here
    let afresh (s : State) : State := s.newRepair fun _ => { devId := s.devId, defects := here, mapped := s.mappedOut }
    if !s.emmc.readable then .next ((full 3 s).reportX 0x17 0 none)
    else
      match s.repairCopy with
      | some c =>
        let new := here.filter fun x => !c.defects.contains x && !c.retired.contains x
        if new.isEmpty then .next ((s.setRf dieMerA 0xF00000 63 62 0).mapTiles (c.defects ++ c.retired))
        else
          let s := (s.setRf dieMerA 0xF00000 63 62 1).mapTiles (listUnion (c.defects ++ c.retired) new)
          let s := s.newRepair fun c => { c with defects := listUnion c.defects new }
          .next (s.reportHobs (hobs.filter fun k => new.any fun x => x / 104 == k))
      | none =>
        let s := afresh (full 2 s)
        .next (if s.rb dieMerA 0x3000 55 then s else s.reportHobs hobs)

/-- OS_IMAGE_VERIFIED: read into M0 once memory is trained (R371, R372). -/
def execOsImageVerified (s : State) : Host.Outcome State Fault Refusal :=
  if !s.booting 2 || s.stackState 0 != 1 then .next s
  else
    match s.fwPick 3 with
    | none => .next s.recover
    | some i => .next ((s.fwRun 3 i).setBootPhase 3)

/-- READY (R406): ELAPSED_MS from RESET_N's rise, on Meridian-A's counter (R407). -/
def execReady (s : State) : Host.Outcome State Fault Refusal :=
  if s.booting 3 && s.reconciled then
    .next ((s.setBootPhase 4).setRf dieMerA 0x3000 31 0 ((s.now dieMerA + 2 ^ 64 - s.pins.risenAt) % 2 ^ 64 / 1000000))
  else .next s

/-- BOOT_STATUS as it reads: COLD_LINK while some link's last training was cold (R407). -/
def State.bootStatus (s : State) : Word :=
  setBit (s.rg dieMerA 0x3000) 53 ((List.range 24).any fun l => s.linkPresent l && s.lkB l 0x10 53)

end Sys2Proof.Machine
end

