-- ==== Sys2Proof/Machine/Mgmt.lean ====
section
/-! DEFINITION. The management protocol (chapter 19: R408 to R417): requests, blobs, long operations, quotes (R374, R375) and
envelopes (R378). -/
namespace Sys2Proof.Machine

/-! Addresses (R408). -/

/-- The port's MAC address: 0x02 and bits [39:0] of DEV_ID. -/
def State.mgmtMac (s : State) : Nat := 0x02 * 2 ^ 40 + fld s.devId 39 0

/-- The IPv6 link-local address formed from that MAC. -/
def State.linkLocal (s : State) : Nat :=
  let d := fld s.devId 39 0
  0xFE80 * 2 ^ 112 + (d / 2 ^ 24) * 2 ^ 40 + 0xFFFE * 2 ^ 24 + d % 2 ^ 24

/-- The stored IPv4 and IPv6 addresses: bytes 0 to 3 and 4 to 19 of what NET_SET wrote (assumption log 46). -/
def State.ipv4 (s : State) : Nat := leNat ((s.netBytes.take 4).reverse)
def State.ipv6 (s : State) : Nat := leNat (((s.netBytes.drop 4).take 16).reverse)

/-- Whether an address is the port's own. -/
def State.ownV4 (s : State) (a : Nat) : Bool := !s.netBytes.isEmpty && a == s.ipv4
def State.ownV6 (s : State) (a : Nat) : Bool := a == s.linkLocal || (!s.netBytes.isEmpty && a == s.ipv6)

/-- Whether a datagram is the management protocol's: UDP to port 23,841 at an own address; the port carries nothing else. -/
def State.mgmtMine (s : State) (r : MgmtReq) : Bool :=
  !r.tcp && r.dstPort == 0x5D21 && (if r.v6 then s.ownV6 r.dst else s.ownV4 r.dst)

/-- Whether the port is up: from the ROT stage. -/
def State.mgmtUp (s : State) : Bool := s.pins.powered && s.pins.released && s.phase != 0

/-- MGMT_ADDRESS_RESOLUTION: kind 0 ARP, 1 neighbour solicitation, 2 ICMP echo. -/
def execMgmtAddressResolution (kind addr : Nat) (s : State) : Host.Outcome State Fault Refusal :=
  let mine := match kind with | 0 => s.ownV4 addr | 1 => s.ownV6 addr | _ => s.ownV4 addr || s.ownV6 addr
  .next (if s.mgmtUp && mine then s.emit (.mgmtAddress addr s.mgmtMac) else s)

/-! Requests and responses (R409). -/

def stAccepted : Nat := 1
def stNotReady : Nat := 2
def stUnknownId : Nat := 3
def stBadRequest : Nat := 4
def stNotInPhase : Nat := 5
def stBusy : Nat := 6

def reqTag (r : MgmtReq) : Nat := fld r.w0 31 0
def reqKey (r : MgmtReq) : Nat × Nat × Nat := (r.src, r.srcPort, reqTag r)

/-- A response: status, command number, ARG0, body. -/
def respOf (op : Nat) (r : MgmtReq) (st cmd : Nat) (arg0 : Word) (body : List Byte) : MgmtResp :=
  { w0 := BitVec.ofNat 64 (2 ^ 56 + 2 ^ 48 + op * 2 ^ 40 + st * 2 ^ 32 + reqTag r),
    w1 := BitVec.ofNat 64 (cmd * 2 ^ 32 + body.length * 2 ^ 16), arg0 := arg0, body := body }

/-- Sends a response to the request's source. -/
def State.reply (s : State) (r : MgmtReq) (x : MgmtResp) : State := s.emit (.mgmt r.src r.srcPort x)

/-- Keeps an executed request's response among the last 1,024 (R414). -/
def State.remember (s : State) (r : MgmtReq) (x : MgmtResp) : State :=
  let l := s.mgmt.seen ++ [(reqKey r, x)]
  { s with mgmt := { s.mgmt with seen := l.drop (l.length - 1024) } }

/-- A header's own checks, the request bits its operation gives no meaning to, and the body's length (R409). -/
def reqOk (op : Nat) (r : MgmtReq) (m0 m1 : Word) (body : Nat → Bool) : Bool :=
  fld r.w0 63 32 == 2 ^ 24 + op * 2 ^ 8 && fld r.w1 63 32 == 0 && fld r.w1 15 0 == 0 && fld r.w1 31 16 == r.body.length
    && body r.body.length && r.arg0 &&& ~~~m0 == 0 && r.arg1 &&& ~~~m1 == 0

/-- The phases of R411's column. -/
inductive Phases where
  | a | c | r | w | v
  deriving DecidableEq, Repr

/-- Whether an operation may run now. JOB_START and PART_SET run in STOPPED too, to be refused (R411). -/
def State.inPhase (s : State) : Phases → Bool
  | .a => decide (s.phase ≥ 1)
  | .c => s.collectorRuns
  | .r | .w => s.phase == 4 || s.phase == 6
  | .v => s.phase == 5

/-- What every request goes through: the port takes its own datagrams from the ROT stage on; a repeat gets its stored response (R414); bad
and untimely requests are answered, under the OP they carry, and change nothing. -/
def mgmt (op : Nat) (ph : Phases) (m0 m1 : Word) (body : Nat → Bool) (more : State → Bool) (r : MgmtReq)
    (f : State → State × MgmtResp) (s : State) : Host.Outcome State Fault Refusal :=
  if !s.mgmtUp || !s.mgmtMine r then .next s
  else match s.mgmt.seen.find? fun e => e.1 == reqKey r with
    | some e => .next (s.reply r e.2)
    | none =>
      if !(reqOk op r m0 m1 body && more s) then .next (s.reply r (respOf (fld r.w0 47 40) r stBadRequest 0 0 []))
      else if !s.inPhase ph then .next (s.reply r (respOf op r stNotInPhase 0 0 []))
      else
        let x := f s
        .next ((x.1.remember r x.2).reply r x.2)

def noBody (n : Nat) : Bool := n == 0
def always (_ : State) : Bool := true
def m64 : Word := BitVec.allOnes 64

/-- An immediate operation's answer. -/
def imm (op : Nat) (r : MgmtReq) (st : Nat) (s : State) : State × MgmtResp := (s, respOf op r st 0 0 [])

/-! Blobs (R411, R415). -/

def State.blobBytes (s : State) : Nat := (s.mgmt.blobs.map fun kv => kv.2.size).sum
def State.setBlobs (s : State) (b : Tab Blob) : State := { s with mgmt := { s.mgmt with blobs := b } }

/-- Opens a blob, for the operation whose output it is (or 0): none beyond 64 blobs or 32 GiB. -/
def State.openBlob (s : State) (size madeBy : Nat) : Option (Nat × State) :=
  if s.mgmt.blobs.length ≥ 64 || s.blobBytes + size > 2 ^ 35 then none
  else
    let id := ((List.range 65).find? fun i => i ≥ 1 && (s.mgmt.blobs.find i).isNone).getD 65
    some (id, { s.setBlobs (s.mgmt.blobs.put id { size := size, salt := s.freeIdx, madeBy := madeBy }) with freeIdx := s.freeIdx + size })

/-- Frees a blob, deferred while it is held. -/
def State.freeBlob (s : State) (b : Nat) : State :=
  match s.mgmt.blobs.find b with
  | none => s
  | some x => s.setBlobs (if x.holds == 0 then s.mgmt.blobs.del b else s.mgmt.blobs.put b { x with freed := true })

/-- Bytes of a blob; unwritten ones are free values. -/
def Blob.read (x : Blob) (o n : Nat) : List Byte :=
  (List.range n).map fun i => x.bytes.val (Config.freeByte (x.salt + o + i)) (o + i)

/-- All bytes of the blob of a number. -/
def State.blobData (s : State) (b : Nat) : List Byte := match s.mgmt.blobs.find b with
  | some x => x.read 0 x.size
  | none => []

/-- A body of data (R409). -/
def dataBody (n : Nat) : Bool := decide (n ≤ 8192)

def execBlobOpen (r : MgmtReq) (s : State) : Host.Outcome State Fault Refusal :=
  mgmt 0x08 .r m64 0 noBody (fun _ => 1 ≤ r.arg0.toNat && r.arg0.toNat ≤ 2 ^ 34) r (fun s =>
    match s.openBlob r.arg0.toNat 0 with
    | some b => (b.2, respOf 0x08 r 0 0 (BitVec.ofNat 64 b.1) [])
    | none => imm 0x08 r stBusy s) s

/-- The blob a request names, if its extent lies in it or no such blob is open. -/
def inBlob (b o n : Nat) (s : State) : Bool :=
  match s.mgmt.blobs.find b with
  | some x => decide (o + n ≤ x.size)
  | none => true

def execBlobWrite (r : MgmtReq) (s : State) : Host.Outcome State Fault Refusal :=
  let b := fld r.arg0 15 0
  mgmt 0x09 .r (maskOf 15 0) m64 dataBody (inBlob b r.arg1.toNat r.body.length) r (fun s =>
    match s.mgmt.blobs.find b with
    | none => imm 0x09 r stUnknownId s
    | some x =>
      if x.holds > 0 then imm 0x09 r stBusy s
      else
        let bytes := (r.body.mapIdx fun i v => (r.arg1.toNat + i, v)).foldl (fun t e => t.put e.1 e.2) x.bytes
        imm 0x09 r 0 (s.setBlobs (s.mgmt.blobs.put b { x with bytes := bytes }))) s

def execBlobRead (r : MgmtReq) (s : State) : Host.Outcome State Fault Refusal :=
  let b := fld r.arg0 15 0
  let n := fld r.arg0 47 32
  mgmt 0x0A .r (maskOf 47 32 ||| maskOf 15 0) m64 noBody (fun s => 1 ≤ n && n ≤ 8192 && inBlob b r.arg1.toNat n s) r (fun s =>
    match s.mgmt.blobs.find b with
    | none => imm 0x0A r stUnknownId s
    | some x => (s, respOf 0x0A r 0 0 0 (x.read r.arg1.toNat n))) s

def execBlobFree (r : MgmtReq) (s : State) : Host.Outcome State Fault Refusal :=
  let b := fld r.arg0 15 0
  mgmt 0x0B .r (maskOf 15 0) 0 noBody always r (fun s =>
    match s.mgmt.blobs.find b with
    | none => imm 0x0B r stUnknownId s
    | some _ => imm 0x0B r 0 (s.freeBlob b)) s

/-! Status and records (R412, R413). -/

/-- Words in network byte order. -/
def netBytes (ws : List Nat) : List Byte := ws.flatMap (beBytes 8)

/-- PARTS: VALID, then STATE, four bits a partition. -/
def State.partsWord (s : State) : Nat :=
  ((List.range 8).map fun p => ((s.part p).valid.toNat * 8 + pstateCode (s.part p).st) * 16 ^ p).sum

def execStatus (r : MgmtReq) (s : State) : Host.Outcome State Fault Refusal :=
  mgmt 0x01 .a 0 0 noBody always r (fun s =>
    (s, respOf 0x01 r 0 0 0 (netBytes [
      s.phase * 2 ^ 60 + variantCode s.variant * 2 ^ 32 + s.rf dieMerA 0x3000 31 0, (s.rg dieMerA rotOff).toNat, s.devId.toNat,
      (if s.collectorRuns then s.fcStatus.toNat else 0), s.partsWord, (s.rg dieMerA 0x2108).toNat,
      s.mgmt.blobs.length * 2 ^ 16 + s.mgmt.recs.length, 0]))) s

/-- The record of a completed operation. -/
def recBytes (id : Nat) (x : CRec) : List Byte :=
  netBytes [id * 2 ^ 32 + x.op * 2 ^ 24 + x.result * 2 ^ 16 + x.reason * 2 ^ 8 + x.detail,
    x.job * 2 ^ 32 + x.part * 2 ^ 24 + x.outBlob, x.outLen * 2 ^ 32, x.duration, 0, 0, 0, 0]

def execResultRead (r : MgmtReq) (s : State) : Host.Outcome State Fault Refusal :=
  mgmt 0x02 .a m64 0 noBody always r (fun s =>
    match s.crec r.arg0.toNat with
    | none => imm 0x02 r stUnknownId s
    | some x => if x.done then (s, respOf 0x02 r 0 0 0 (recBytes r.arg0.toNat x)) else imm 0x02 r stNotReady s) s

def execResultAck (r : MgmtReq) (s : State) : Host.Outcome State Fault Refusal :=
  mgmt 0x03 .a m64 0 noBody always r (fun s =>
    match s.crec r.arg0.toNat with
    | none => imm 0x03 r stUnknownId s
    | some x =>
      if x.done then
        let own := (s.mgmt.blobs.val {} x.outBlob).madeBy == r.arg0.toNat
        let s := if x.outBlob == 0 || !own then s else s.freeBlob x.outBlob
        imm 0x03 r 0 { s with mgmt := { s.mgmt with recs := s.mgmt.recs.del r.arg0.toNat } }
      else imm 0x03 r stNotReady s) s

/-! Long operations (R410, R415). -/

/-- A long operation accepted: its record, its holds, then what it starts; BUSY with 256 records held. Blobs that do not exist
or are shorter than needed make it complete REFUSED. -/
def longOp (op : Nat) (r : MgmtReq) (x : CRec) (blobs : List (Nat × Nat)) (f : Nat → State → State) (s : State) :
    State × MgmtResp :=
  if s.mgmt.recs.length ≥ 256 then imm op r stBusy s
  else
    let id := s.mgmt.nextCmd
    let ok := blobs.all fun b => match s.mgmt.blobs.find b.1 with
      | some y => decide (b.2 ≤ y.size)
      | none => false
    let held := if ok then (blobs.map (·.1)).eraseDups else []
    let hold (t : Tab Blob) (b : Nat) : Tab Blob := match t.find b with
      | some y => t.put b { y with holds := y.holds + 1 }
      | none => t
    let s := { s with mgmt := { s.mgmt with
        nextCmd := id + 1, recs := s.mgmt.recs.put id { x with op := op, req := r, start := s.now dieMerA, blobs := held },
        blobs := held.foldl hold s.mgmt.blobs } }
    let s := if ok then f id s else s.completeOp id 1 9 0
    (s, respOf op r stAccepted id 0 [])

/-- The key of an envelope: derived from the secret its ciphertext decapsulates to, under label ENV and header bytes 0x00 to 0x1F (R377). -/
def State.envKey (s : State) (e : List Byte) : List Byte :=
  kdf (kemDecaps s.kemD s.kemZ ((e.drop 0x20).take 1568)) (labEnv ++ e.take 0x20) 32

/-- The image stream opened: whether every chunk's tag verifies, and the plain bytes. A chunk is 1 MiB of ciphertext, the last what is
left, with its 16 B tag behind it; its number, from 0, is the IV (R379; assumption log 71). -/
def openImage (key img : List Byte) : Bool × List Byte :=
  let n := 2 ^ 20 + 16
  let pieces := (groupsOf n ((img.length + n - 1) / n) img).mapIdx fun i p => (beBytes 12 i, p.take (p.length - 16), p.drop (p.length - 16))
  (pieces.all fun p => gcmTag key p.1 [] p.2.1 == p.2.2, pieces.flatMap fun p => gcmCtr key p.1 p.2.1)

/-- An envelope's 2,128 bytes and an image stream as the root of trust opens them (R377, R379). -/
def State.openEnv (s : State) (e img : List Byte) : Envelope :=
  let key := s.envKey e
  let iv := List.replicate 12 0
  let ct := (e.drop 0x640).take 512
  let body := gcmCtr key iv ct
  let flags := leAt body 0 4
  let image := (body.drop 8).take 32
  let plain := openImage ((body.drop 0x28).take 32) img
  { kind := leAt e 4 4, devId := BitVec.ofNat 64 (leAt e 8 8), boot := leAt e 0x10 4, leaf := leAt e 0x14 4, part := leAt e 0x18 1,
    tagOk := leAt e 0 4 == 1 && gcmTag key iv (e.take 0x640) ct == (e.drop 0x840).take 16,
    reservedOk := leAt e 0x19 7 == 0 && flags / 4 == 0 && leAt body 4 4 == 0 && leAt body 0x188 120 == 0,
    debug := flags % 2 == 1, memKeySupplied := flags / 2 % 2 == 1, memKey := BitVec.ofNat 512 (leAt body 0x48 64),
    image := BitVec.ofNat 256 (beNat image), tenantData := (body.drop 0x88).take 256,
    chunksOk := plain.1, digestOk := sha256 plain.2 == image, job := Config.jobImage plain.2 }

/-- The checks of R378 in their order: REASON and DETAIL of the first that fails. Check 3 is of the partition's state (STATE); with it
the partition must still serve (GROUPS, R387), and a second filler finds no place (R359). Reasons: 1 STATE, 2 ENVELOPE, 6 GROUPS. -/
def State.envCheck (s : State) (p : Nat) (filler : Bool) (e : Envelope) : Option (Nat × Nat) :=
  let x := s.part p
  if !(e.devId == s.devId && e.boot == s.rotBoot && e.part == p && s.rot.quotes.contains (e.leaf, e.part)) then some (2, 1)
  else if s.rot.usedLeaves.contains e.leaf then some (2, 2)
  else if (e.kind == 1) != filler || e.kind > 1 then some (2, 3)
  else if x.st != (if filler then PState.running else PState.idle) || (filler && x.filler) then some (1, 0)
  else if !filler && !s.groupsOk p x.groups then some (6, 0)
  else if !(e.tagOk && e.reservedOk) then some (2, 4)
  else if filler && !(x.env.job.allowsFiller && x.env.job.filWin && e.memKeySupplied && suppliedKeyId e.memKey == x.keyId
      && e.debug == x.debug) then some (2, 5)
  else none

/-- A filler job admitted (R359, R379): its image checked and placed; a tile's BOUND_MAX bounds its tasks. -/
def State.startFiller (s : State) (p id : Nat) (e : Envelope) : State :=
  let tooLong := (s.part p).tiles.any fun t => s.rb (t / 96) (filOff t) 63 && decide (e.job.fillerBound > s.rf (t / 96) (filOff t) 31 0)
  if tooLong then s.completeOp id 1 1 0
  else if !e.chunksOk || !e.digestOk then (s.completeOp id 2 3 0).fenceIf p
  else ((s.loadImage p e.job.load).setPart p { s.part p with filler := true }).completeOp id 0 0 0

/-- JOB_START runs: refused when stopped, without an identity, or where the envelope or the partition's state does not let it (R352, R378,
R393); the LEAF stays usable only after checks 1 and 3. -/
def State.jobStart (s : State) (p : Nat) (filler : Bool) (e : Envelope) (id : Nat) : State :=
  if s.phase == 6 then s.completeOp id 1 4 0
  else if s.rotState != 1 then s.completeOp id 1 5 0
  else
    match s.envCheck p filler e with
    | some (why, n) =>
      let keeps := why != 2 || n == 1 || n == 3
      let s := if keeps then s else { s with rot := { s.rot with usedLeaves := listUnion s.rot.usedLeaves [e.leaf] } }
      s.completeOp id 1 why n
    | none =>
      let s := { s with rot := { s.rot with usedLeaves := s.rot.usedLeaves ++ [e.leaf] } }
      if filler then s.startFiller p id e else s.place p id e

def execJobStart (r : MgmtReq) (s : State) : Host.Outcome State Fault Refusal :=
  let p := fld r.arg0 2 0
  mgmt 0x10 .w (maskOf 32 32 ||| maskOf 2 0) (maskOf 31 0) noBody always r (fun s =>
    longOp 0x10 r { target := p, part := p, job := s.mgmt.nextCmd }
      (if s.phase == 6 then [] else [(fld r.arg1 31 16, 2128), (fld r.arg1 15 0, 0)])
      (fun id s => s.jobStart p (bitOf r.arg0 32) (s.openEnv (s.blobData (fld r.arg1 31 16)) (s.blobData (fld r.arg1 15 0))) id) s) s

/-- A stop or a fence completes at IDLE; at once where it has no effect (R353). -/
def State.endNow (s : State) (p op : Nat) (id : Nat) : State :=
  match (s.part p).st with
  | .empty => s.completeOp id 1 1 0
  | .idle => s.completeOps op p
  | _ => s

def execJobStop (r : MgmtReq) (s : State) : Host.Outcome State Fault Refusal :=
  let p := fld r.arg0 2 0
  mgmt 0x11 .r (maskOf 2 0) 0 noBody always r (fun s =>
    longOp 0x11 r { target := p, part := p } [] (fun id s => (s.stopJob p).endNow p 0x11 id) s) s

def execJobFence (r : MgmtReq) (s : State) : Host.Outcome State Fault Refusal :=
  let p := fld r.arg0 2 0
  mgmt 0x12 .r (maskOf 2 0) 0 noBody always r (fun s =>
    longOp 0x12 r { target := p, part := p } [] (fun id s => (s.fenceIf p).endNow p 0x12 id) s) s

/-- A big-endian word of a body. -/
def bodyWord (bs : List Byte) (i : Nat) : Nat := leNat ((bs.drop (8 * i)).take 8).reverse

/-- PART_SET runs: the control software writes the groups, then VALID (R349, R350). -/
def State.partSetOp (s : State) (p : Nat) (valid : Bool) (lo hi : Nat) (id : Nat) : State :=
  if s.phase == 6 then s.completeOp id 1 4 0
  else if !((s.part p).st == .empty || (s.part p).st == .idle) then s.completeOp id 1 1 0
  else
    let s := s.setTileRegs p (lo + hi % 2 ^ 32 * 2 ^ 64)
    if valid then
      let s := s.partValid p
      if (s.part p).cfgErr then s.completeOp id 1 6 0 else s.completeOp id 0 0 0
    else if (s.part p).st == .idle then (s.partInvalid p).completeOp id 0 0 0
    else (s.partInvalid p).completeOp id 1 1 0

def execPartSet (r : MgmtReq) (s : State) : Host.Outcome State Fault Refusal :=
  let p := fld r.arg0 2 0
  mgmt 0x14 .w (maskOf 8 8 ||| maskOf 2 0) 0 (fun n => n == 16) always r (fun s =>
    longOp 0x14 r { target := p, part := p } []
      (fun id s => s.partSetOp p (bitOf r.arg0 8) (bodyWord r.body 0) (bodyWord r.body 1) id) s) s

/-- MAPOUT (R298): at once where no channel is left to remove, refused where the stack is down. -/
def execMapout (r : MgmtReq) (s : State) : Host.Outcome State Fault Refusal :=
  let m := fld r.arg0 4 0
  mgmt 0x18 .r (maskOf 4 0) (maskOf 15 0) noBody (fun s => s.stackPresent m) r (fun s =>
    longOp 0x18 r { target := m } [] (fun id s =>
      if s.stackState m == 3 then s.completeOp id 1 1 0
      else
        let t := s.askMapout m (fld r.arg1 15 0)
        if (List.range 16).all fun c => !bitOf r.arg1 c || t.chState m c == 3 then t.completeOp id 0 0 0 else t) s) s

def execRetire (r : MgmtReq) (s : State) : Host.Outcome State Fault Refusal :=
  mgmt 0x19 .r (maskOf 9 0) 0 noBody (fun s => s.tilePresent (fld r.arg0 9 0)) r (fun s =>
    longOp 0x19 r { target := fld r.arg0 9 0 } [] (fun _ s => s) s) s

def execQuote (r : MgmtReq) (s : State) : Host.Outcome State Fault Refusal :=
  let p := fld r.arg0 7 0
  mgmt 0x20 .r (maskOf 7 0) 0 (fun n => n == 32) (fun _ => p < 8 || p == 0xFF) r (fun s =>
    longOp 0x20 r { target := p, part := p } [] (fun _ s => s) s) s

/-- POWER_CAP: clamped as R31 says. -/
def execPowerCap (r : MgmtReq) (s : State) : Host.Outcome State Fault Refusal :=
  mgmt 0x21 .r m64 0 noBody always r (fun s =>
    imm 0x21 r 0 (s.setRg dieMerA 0x2100 (BitVec.ofNat 64 (max 1000 (min 4200 r.arg0.toNat))))) s

def execRecordsRead (r : MgmtReq) (s : State) : Host.Outcome State Fault Refusal :=
  let a := r.arg0.toNat
  let n := r.arg1.toNat
  mgmt 0x22 .c m64 m64 noBody (fun _ => 1 ≤ n && n ≤ 256 && a + n ≤ 256) r (fun s =>
    (s, respOf 0x22 r 0 0 0 ((List.range n).flatMap fun i => bytesOf (s.fcRec (a + i))))) s

def execRecordsClear (r : MgmtReq) (s : State) : Host.Outcome State Fault Refusal :=
  mgmt 0x23 .c (maskOf 8 0) 0 noBody always r (fun s =>
    imm 0x23 r 0 (if bitOf r.arg0 8 then s.clearAll else s.clearRecord (fld r.arg0 7 0))) s

def compOk (r : MgmtReq) (_ : State) : Bool := 1 ≤ r.arg0.toNat && r.arg0.toNat ≤ 3

/-- FW_UPLOAD: a blob shorter than the copy its manifest declares is too short (R370, R415). -/
def execFwUpload (r : MgmtReq) (s : State) : Host.Outcome State Fault Refusal :=
  let b := fld r.arg1 15 0
  mgmt 0x28 .r m64 (maskOf 15 0) noBody (compOk r) r (fun s =>
    longOp 0x28 r { target := r.arg0.toNat } [(b, fwHead + fwLength ((s.blobData b).take 64))] (fun _ s => s) s) s

def execSvnCommit (r : MgmtReq) (s : State) : Host.Outcome State Fault Refusal :=
  mgmt 0x29 .r m64 0 noBody (compOk r) r (fun s => longOp 0x29 r { target := r.arg0.toNat } [] (fun _ s => s) s) s

def execNetSet (r : MgmtReq) (s : State) : Host.Outcome State Fault Refusal :=
  mgmt 0x2A .r 0 0 (fun n => n == 32) always r (fun s => longOp 0x2A r {} [] (fun _ s => s) s) s

/-! Recovery (R416). -/

/-- The copy a recovery writes: the one that failed, B when both did; fixed for the power-up by the first write. -/
def State.recoverCopy (s : State) (c : Nat) : Option Nat :=
  match s.rot.recoverTo.find c with
  | some i => some i
  | none =>
    if !s.fwOk c (s.fwCopy c 1) then some 1 else if !s.fwOk c (s.fwCopy c 0) then some 0 else none

/-- Bytes put into a region at an offset; what lies between its end and the offset is free. -/
def State.patch (s : State) (old : List Byte) (o : Nat) (bs : List Byte) : List Byte :=
  let gap := (List.range (o - old.length)).map fun i => Config.freeByte (s.freeIdx + i)
  (old ++ gap).take o ++ bs ++ old.drop (o + bs.length)

/-- RECOVER_WRITE: data at an offset of the eMMC region of the failed copy. That no copy runs before it is verified, R372 and R371 see to
at the next power-up, and RECOVER_COMMIT before (R416; DEDUCED, assumption log 71). -/
def execRecoverWrite (r : MgmtReq) (s : State) : Host.Outcome State Fault Refusal :=
  let c := r.arg0.toNat
  mgmt 0x30 .v m64 m64 dataBody (compOk r) r (fun s =>
    match s.recoverCopy c with
    | none => imm 0x30 r 7 s
    | some i =>
      if !s.emmc.readable then imm 0x30 r 7 s
      else
        let x := s.patch (s.fwCopy c i) r.arg1.toNat r.body
        let s := s.emmcWrite (.copy (c * 2 + i)) { s.emmc with copies := s.emmc.copies.put (c * 2 + i) x }
        imm 0x30 r 0 { s with freeIdx := s.freeIdx + r.arg1.toNat, rot := { s.rot with recoverTo := s.rot.recoverTo.put c i } }) s

def execRecoverCommit (r : MgmtReq) (s : State) : Host.Outcome State Fault Refusal :=
  mgmt 0x31 .v m64 m64 noBody (compOk r) r (fun s => longOp 0x31 r { target := r.arg0.toNat } [] (fun _ s => s) s) s

/-- POWER_OFF: fences, then power goes until PWR_EN is lowered and raised; its completion is never read. -/
def execPowerOff (r : MgmtReq) (s : State) : Host.Outcome State Fault Refusal :=
  match mgmt 0x3E .a 0 0 noBody always r (fun s => longOp 0x3E r {} [] (fun _ s => s) s) s with
  | .next t =>
    if t.mgmt.nextCmd == s.mgmt.nextCmd then .next t
    else .next ((((List.range 8).foldl State.fenceIf t).powerDown).setPins fun p => { p with tripped := true })
  | o => o

/-! The work of a long operation (R410). -/

/-- A challenge quote signed into its blob (R374, R375). -/
def State.quoteWork (s : State) (id : Nat) (x : CRec) : State :=
  if s.rotState != 1 || s.rotLeft == 0 then s.completeOp id 1 5 0
  else if (s.openBlob 10564 id).isNone then s.completeOp id 1 9 0
  else
    let r := s.signOne
    match r.1 with
    | none => r.2.completeOp id 1 5 0
    | some leaf =>
      let s := r.2
      let bytes := s.quoteOf leaf (s.quoteBody 1 leaf x.part x.req.body)
      match s.openBlob 10564 id with
      | none => s.completeOp id 1 9 0
      | some b =>
        let s := b.2.setBlobs (b.2.mgmt.blobs.put b.1 { b.2.mgmt.blobs.val {} b.1 with bytes := bytes.mapIdx fun i v => (i, v) })
        let s := { s with rot := { s.rot with quotes := s.rot.quotes ++ [(leaf, x.part)] } }
        (s.setCrec id { x with outBlob := b.1, outLen := 10564 }).completeOp id 0 0 0

/-- What verification of a copy finds: REASON SIGNATURE, SVN, or nothing (R371). -/
def State.fwReason (s : State) (c : Nat) (x : List Byte) : Option Nat :=
  if !s.fwGood c x then some 7 else if fwSvn x < s.emmc.minSvn.val 0 c then some 8 else none

/-- An upload over the copy that is not running. -/
def State.uploadWork (s : State) (id : Nat) (x : CRec) : State :=
  let img := s.blobData (fld x.req.arg1 15 0)
  match s.fwReason x.target img with
  | some n => s.completeOp id 1 n 0
  | none =>
    if !s.emmc.readable then s.completeOp id 1 10 0
    else
      let k := x.target * 2 + (1 - s.rot.runCopy.val 0 x.target)
      (s.emmcWrite (.copy k) { s.emmc with copies := s.emmc.copies.put k img }).completeOp id 0 0 0

/-- A component's minimum raised to the running copy's SVN (R373). -/
def State.svnWork (s : State) (id : Nat) (x : CRec) : State :=
  if !s.rpmbOwn then s.completeOp id 1 10 0
  else
    let n := max (s.emmc.minSvn.val 0 x.target) (fwSvn (s.rot.running.val [] x.target))
    { s with emmc := { s.emmc with minSvn := s.emmc.minSvn.put x.target n } }.completeOp id 0 0 0

def State.netWork (s : State) (id : Nat) (x : CRec) : State :=
  if s.emmc.readable then (s.netWrite x.req.body).completeOp id 0 0 0 else s.completeOp id 1 10 0

/-- A recovered copy's first LENGTH bytes read back and verified (R416). -/
def State.commitWork (s : State) (id : Nat) (x : CRec) : State :=
  match s.recoverCopy x.target with
  | none => s.completeOp id 0 0 0
  | some i =>
    match s.fwReason x.target ((s.fwCopy x.target i).take x.req.arg1.toNat) with
    | some n => s.completeOp id 1 n 0
    | none => s.completeOp id 0 0 0

/-- The tile, component or settings that an operation's work is on, where such operations run in order of acceptance (R417). -/
def CRec.unit (x : CRec) : Option (Nat × Nat) :=
  if x.op == 0x19 then some (1, x.target)
  else if x.op == 0x28 || x.op == 0x29 || x.op == 0x31 then some (2, x.target)
  else if x.op == 0x2A then some (3, 0)
  else none

/-- Whether an operation waits for one accepted earlier on its unit. -/
def State.opWaits (s : State) (id : Nat) (x : CRec) : Bool :=
  x.unit.isSome && s.mgmt.recs.any fun kv => decide (kv.1 < id) && !kv.2.done && kv.2.unit == x.unit

/-- LONG_OPERATION_COMPLETE: the work of an accepted operation that no other event completes, in order of acceptance on its unit.
`rpmbOk`: whether the RPMB block takes a write that it needs (R366). -/
def execLongOperationComplete (id : Nat) (rpmbOk : Bool) (s : State) : Host.Outcome State Fault Refusal :=
  match s.crec id with
  | none => .next s
  | some x =>
    let t := { s with emmc := { s.emmc with rpmbOk := rpmbOk } }
    if x.done || s.opWaits id x then .next s
    else if x.op == 0x19 then .next ((t.retireTile x.target).completeOp id 0 0 0)
    else if x.op == 0x20 then .next (t.quoteWork id x)
    else if x.op == 0x28 then .next (t.uploadWork id x)
    else if x.op == 0x29 then .next (t.svnWork id x)
    else if x.op == 0x2A then .next (t.netWork id x)
    else if x.op == 0x31 then .next (t.commitWork id x)
    else .next s

end Sys2Proof.Machine
end

