-- ==== Sys2Proof/Machine/Mma.lean ====
section
/-! DEFINITION. The matrix cluster: loads, streams, drains, the halved-scale repeat (R57 to R62, R70 to R86, R108 to R111). -/
namespace Sys2Proof.Machine

def Tile.arr (x : Tile) (a : Nat) : MArr := x.arrays.val {} a
def Tile.setArr (x : Tile) (a : Nat) (m : MArr) : Tile := { x with arrays := x.arrays.put a m }

/-- The tile's Orrery stream as its CSRs hold it (R118, R119). -/
def Ctx.orStream (c : Ctx) : OStream :=
  { key := c.cs 0x31 ++ c.cs 0x30, ctr := c.cs 0x33 ++ c.cs 0x32, off := fld (c.cs 0x34) 6 0 }

/-- The context with its stream moved on; only counter and offset move. -/
def Ctx.setOrStream (c : Ctx) (o : OStream) : Ctx :=
  ((c.setCs 0x32 (o.ctr.setWidth 64)).setCs 0x33 (o.ctr.extractLsb' 64 64)).setCs 0x34 (BitVec.ofNat 64 o.off)

/-! Issue (R76 to R80). -/

/-- Arrays a chain list names whose class is not clear and whose last load was in another gang mode (R80). -/
def badMode (x : Tile) (cs : List Chain) (gang : Nat) : Bool :=
  (chainArrays cs).any fun a => (x.arr a).iCls != .clear && (x.arr a).iMode != gang

/-- Applies `f` to each named array. -/
def Tile.mapArrays (x : Tile) (as : List Nat) (f : MArr → MArr) : Tile :=
  as.foldl (fun x a => x.setArr a (f (x.arr a))) x

def mmaOperand (m : BitVec 32) : TRes := .trap .mmaOperand (m.setWidth 64)

/-- The common start of an MMA instruction: filler tasks, illegal words, the queue (R77), the array set and, for loads, streams and
drains but not debug drains, the gang mode of R80. -/
def mmaStart (s : State) (t : Nat) (xop : Nat) (gd ga gb gc : Reg) (m : BitVec 32) (k : List Chain → TRes) : TRes :=
  if s.inFiller t && !s.rb (t / 96) (filOff t) 61 then mmaOperand m
  else if mmaIllegal xop gd.toNat gb.toNat gc.toNat m then .trap .illegal (wordX 0x30 xop gd ga gb gc)
  else if (s.tile t).mmaq.length ≥ 16 then .wait s 6
  else match chainsOf (wordFld m 31 30) (wordFld m 29 26) with
    | none => mmaOperand m
    | some cs => if xop != 3 && badMode (s.tile t) cs (wordFld m 31 30) then mmaOperand m else k cs

/-- Accepts an operation. -/
def State.mmaAccept (s : State) (t : Nat) (o : MmaOp) (as : List Nat) (f : MArr → MArr) : State :=
  let x := ((s.tile t).mapArrays (chainArrays ((chainsOf o.gang o.aset).getD [])) fun a => { a with gated := false }).mapArrays as f
  s.setTile t { x with mmaq := x.mmaq ++ [o] }

/-- The slots a load fills, as its arrays list them. -/
def MmaOp.keys (o : MmaOp) : List Nat :=
  if o.kind == .load then (List.range o.cnt).map fun i => slotKey o.fmt (o.slot + i) else [slotKey o.fmt o.slot]

/-- The arrays to whose accumulators a stream adds: those of a chain with some column that its mask leaves on (R79, R82). -/
def MmaOp.addsTo (o : MmaOp) (cs : List Chain) : List Nat :=
  chainArrays (cs.filter fun c => (if c.n1 then o.nm1 else o.nm0) != 0)

/-- The byte ranges of a load, scales included (R74). -/
def loadRanges (o : MmaOp) (cs : List Chain) : List (Nat × Nat) :=
  let cols := cs.flatMap fun c => (List.range 64).map fun j => 64 * c.unit + c.col0 + j
  (List.range o.cnt).flatMap fun i => cols.flatMap fun n =>
    (List.range (depthOf o.fmt o.gang)).flatMap fun k =>
      let e := (loadAddr o (o.slot + i) k n, elemSize o.fmt)
      if o.fmt == .mxfp4 && k % 32 == 0 then [e, (loadScaleAddr o (o.slot + i) k n, 1)] else [e]

/-- The byte ranges of a stream (R75). -/
def streamRanges (o : MmaOp) : List (Nat × Nat) :=
  (List.range o.cnt).flatMap fun v =>
    (List.range (depthOf o.fmt o.gang)).flatMap fun k =>
      let e := (streamAddr o v k, elemSize o.fmt)
      if o.fmt == .mxfp4 && k % 32 == 0 then [e, (streamScaleAddr o v k, 1)] else [e]

/-- The byte ranges a drain writes, its status word last (R84). -/
def drainRanges (o : MmaOp) : List (Nat × Nat) :=
  ((drainUnits o.gang o.aset).flatMap fun u =>
    (List.range o.rows).map fun i => (drainAddr o u.1 i, 64 * u.2.length * o.fmt.bytes 1))
  ++ [(o.status, 8)]

/-- The first ranges outside the tile's own scratchpad as its context may use it. -/
def State.outsideSet (s : State) (t : Nat) (rs : List (Nat × Nat)) : Option Nat :=
  outsideRanges (s.ownArea t).1 (s.ownArea t).2 rs

/-- MMA.LOAD (R74, R79, R80, R108). -/
def execMmaLoad (t : Nat) (ga gb gc : Reg) (mod : BitVec 32) (s : State) : Host.Outcome State Fault Refusal :=
  s.run t 8 (.mmaLoad t ga gb gc mod) fun s => mmaStart s t 0 0 ga gb gc mod fun cs =>
    match fmtOfCode (wordFld mod 16 13) with
    | none => mmaOperand mod
    | some f =>
      let o : MmaOp := { kind := .load, gang := wordFld mod 31 30, aset := wordFld mod 29 26, slot := wordFld mod 25 22, cnt := wordFld mod 21 17, fmt := f, base := (s.g t ga).toNat, s1 := fld (s.g t gb) 31 0, s2 := fld (s.g t gb) 63 32, scaleBase := fld (s.g t gc) 47 0, scaleStride := fld (s.g t gc) 63 48 }
      let as := chainArrays cs
      if !arrayFmt f || o.cnt == 0 || o.cnt > 16 || o.slot + o.cnt > slotsOf f then mmaOperand mod
      else if f.isInt && as.any fun a => ((s.tile t).arr a).iCls != .clear then mmaOperand mod
      else match s.outsideSet t (loadRanges o cs) with
        | some b => .trap .access (BitVec.ofNat 64 b)
        | none =>
          .done (s.mmaAccept t o as fun a => { a with
            iMode := o.gang, iSlots := o.keys.foldl (fun tab k => tab.put k (f, o.gang)) (keepSlots a.iSlots o.keys) })

/-- MMA.STREAM (R75, R79 to R81, R108). -/
def execMmaStream (t : Nat) (gd ga gb gc : Reg) (mod : BitVec 32) (s : State) : Host.Outcome State Fault Refusal :=
  s.run t 8 (.mmaStream t gd ga gb gc mod) fun s => mmaStart s t 1 gd ga gb gc mod fun cs =>
    match fmtOfCode (wordFld mod 21 18) with
    | none => mmaOperand mod
    | some f =>
      let x := s.tile t
      let o : MmaOp := { kind := .stream, gang := wordFld mod 31 30, aset := wordFld mod 29 26, slot := wordFld mod 25 22, cnt := (s.g t gd).toNat, fmt := f, base := (s.g t ga).toNat, s1 := (s.g t gb).toNat, scaleBase := fld (s.g t gc) 47 0, scaleStride := fld (s.g t gc) 63 48, row0 := wordFld mod 17 12, rows := wordFld mod 11 5, km0 := x.ctx.cs 0x20, km1 := x.ctx.cs 0x21, nm0 := x.ctx.cs 0x22, nm1 := x.ctx.cs 0x23 }
      let as := chainArrays cs
      let cls : AccClass := if f.isInt then .integer else .floating
      let loaded (a : Nat) : Bool :=
        (x.arr a).iMode == o.gang && (match (x.arr a).iSlots.find (slotKey f o.slot) with
          | some (lf, g) => g == o.gang && pairOk lf f
          | none => false)
      if !arrayFmt f || o.slot ≥ slotsOf f || o.rows == 0 || o.row0 + o.rows > 64 || o.cnt == 0 || o.cnt > 4096 then
        mmaOperand mod
      else if !as.all loaded then mmaOperand mod
      else if as.any fun a => (x.arr a).iCls != .clear && (x.arr a).iCls != cls then mmaOperand mod
      else match s.outsideSet t (streamRanges o) with
        | some b => .trap .access (BitVec.ofNat 64 b)
        | none => .done (s.mmaAccept t o (o.addsTo cs) fun a => { a with iCls := cls })

/-- Output formats of a drain for a class (R110). -/
def drainFmtOk (c : AccClass) (f : Fmt) : Bool :=
  match f with
  | .bf16 | .fp16 | .fp32 => true
  | .e4m3 | .e5m2 => c != .integer
  | .int32 => c != .floating
  | _ => false

/-- MMA.DRAIN (R79, R80, R84, R110); SR reserves its random bits at issue (R118). -/
def execMmaDrain (t : Nat) (ga gb gc : Reg) (mod : BitVec 32) (s : State) : Host.Outcome State Fault Refusal :=
  s.run t 8 (.mmaDrain t ga gb gc mod) fun s => mmaStart s t 2 0 ga gb gc mod fun cs =>
    match fmtOfCode (wordFld mod 25 22) with
    | none => mmaOperand mod
    | some f =>
      let x := s.tile t
      let st := x.ctx.orStream
      let o : MmaOp := { kind := .drain, gang := wordFld mod 31 30, aset := wordFld mod 29 26, fmt := f, base := (s.g t ga).toNat, s1 := fld (s.g t gb) 63 32, s2 := fld (s.g t gb) 31 0, status := (s.g t gc).toNat, row0 := wordFld mod 17 12, rows := wordFld mod 11 5, rnd := wordFld mod 21 20, nsat := natBit mod.toNat 19, key := st.key, ctr := st.ctr, off := st.off }
      if o.rows == 0 || o.row0 + o.rows > 64 then mmaOperand mod
      else if !cs.all (fun c => drainFmtOk (x.arr c.lower).iCls f) then mmaOperand mod
      else match s.outsideSet t (drainRanges o) with
        | some b => .trap .access (BitVec.ofNat 64 b)
        | none =>
          if o.base % 64 != 0 || o.s1 % 64 != 0 || o.s2 % 64 != 0 || o.status % 8 != 0 then mmaOperand mod
          else
            let all := o.row0 == 0 && o.rows == 64
            let s := s.mmaAccept t o (chainArrays cs) fun a => if all then { a with iCls := .clear } else a
            let n := cs.length * 64 * o.rows
            let y := s.tile t
            .done (if o.rnd == 2 then s.setTile t { y with ctx := y.ctx.setOrStream (st.skip n) } else s)

/-! Effects. -/

/-- One array's slot as a load fills it, each loaded integer halved `shift` times (R59, R74). `upper`: the array is the
upper one of its pair; `n0` its first column. -/
def State.fillSlot (s : State) (o : MmaOp) (sl n0 : Nat) (second : Bool) (shift : Nat) : Slot :=
  let d := depth1 o.fmt
  let k0 := if second then d else 0
  let code (k n : Nat) : Int :=
    let a := loadAddr o sl (k0 + k) n
    let raw := leNat (Mem.readN s.mem a (elemSize o.fmt))
    let c := if perCell o.fmt == 2 then (if (k0 + k) % 2 == 0 then raw % 16 else raw / 16 % 16) else raw
    match o.fmt with
    | .int8 => halve shift (signedOf 8 c)
    | .int4 => halve shift (signedOf 4 c)
    | _ => c
  { fmt := o.fmt, gang := o.gang, src := o,
    elems := (List.range d).flatMap fun k => (List.range 64).map fun j => (k * 64 + j, code k (n0 + j)),
    scales := if o.fmt == .mxfp4 then
        (List.range (d / 32)).flatMap fun b => (List.range 64).map fun j =>
          (b * 64 + j, (Mem.read s.mem (loadScaleAddr o sl (k0 + 32 * b) (n0 + j))).toNat)
      else [] }

/-- A loaded element's value at local depth `k`, column `j`. -/
def Slot.valAt (sl : Slot) (k j : Nat) : Val :=
  match sl.fmt with
  | .int8 | .int4 => Val.ofInt (sl.elems.val 0 (k * 64 + j))
  | f => decode f (sl.scales.val 0 (k / 32 * 64 + j)) (sl.elems.val 0 (k * 64 + j)).toNat

/-- A streamed element: (k of vector v) as its format's value. -/
def State.streamVal (s : State) (o : MmaOp) (v k : Nat) : Val :=
  let raw := leNat (Mem.readN s.mem (streamAddr o v k) (elemSize o.fmt))
  let c := if perCell o.fmt == 2 then (if k % 2 == 0 then raw % 16 else raw / 16 % 16) else raw
  decode o.fmt (if o.fmt == .mxfp4 then (Mem.read s.mem (streamScaleAddr o v k)).toNat else 0) c

def Val.toInt : Val → Int
  | .fin s m e => sgnd s (m * 2 ^ e.toNat)
  | _ => 0

/-- The chain of R72 through one array: products of its active rows in ascending reduction index. -/
def chainThrough (sl : Slot) (per : Nat) (mask : Word) (vals : List Val) (j : Nat) (p : Acc) : Acc :=
  ((List.range vals.length).zip vals).foldl (fun p kv =>
    if bitOf mask (kv.1 / per) then p.addF ((sl.valAt kv.1 j).mul kv.2) else p) p

/-- The exact integer chain sum (R73). -/
def chainInt (sl : Slot) (per : Nat) (mask : Word) (vals : List Val) (j : Nat) : Int :=
  ((List.range vals.length).zip vals).foldl (fun p kv =>
    if bitOf mask (kv.1 / per) then p + (sl.elems.val 0 (kv.1 * 64 + j)) * kv.2.toInt else p) 0

/-- A stream's additions on one chain, given its arrays (upper first, if any): the lower array's accumulators after. -/
def State.streamChain (s : State) (o : MmaOp) (c : Chain) (up : Option MArr) (lo : MArr) : Tab Acc :=
  let per := perCell o.fmt
  let d := depth1 o.fmt
  let nm := if c.n1 then o.nm1 else o.nm0
  let kmLo := if c.upper.isSome then o.km1 else o.km0
  let key := slotKey o.fmt o.slot
  let slLo := lo.slots.val {} key
  (List.range o.cnt).foldl (fun acc v =>
    let vUp := (List.range d).map fun k => s.streamVal o v k
    let vLo := if up.isSome then (List.range d).map fun k => s.streamVal o v (d + k) else vUp
    let row := o.row0 + v % o.rows
    (List.range 64).foldl (fun acc j =>
      if !bitOf nm j then acc
      else
        let i := row * 64 + j
        let old := acc.val {} i
        if o.fmt.isInt then
          let top := match up with | some u => chainInt (u.slots.val {} key) per o.km0 vUp j | none => 0
          acc.put i (old.addI (top + chainInt slLo per kmLo vLo j))
        else
          let top := match up with
            | some u => chainThrough (u.slots.val {} key) per o.km0 vUp j {}
            | none => {}
          acc.put i (old.join (chainThrough slLo per kmLo vLo j top))) acc) lo.acc

/-- A stream on every chain it names: accumulators, class, and the record a repeat replays (R60, R72, R75, R79). -/
def State.streamEffect (s : State) (t : Nat) (o : MmaOp) (cs : List Chain) : State :=
  cs.foldl (fun s c =>
    let x := s.tile t
    let up := c.upper.map x.arr
    let lo := x.arr c.lower
    let acc := s.streamChain o c up lo
    let cls : AccClass := if o.fmt.isInt then .integer else .floating
    let note (a : MArr) : MArr := { a with nStreams := a.nStreams + 1, streams := if a.streams.length < 16 then a.streams ++ [o] else a.streams }
    let x := x.mapArrays (o.addsTo [c]) fun a => { a with cls := cls }
    let x := if (x.arr c.lower).cls == .clear then x else x.mapArrays c.arrays note
    s.setTile t (x.setArr c.lower { x.arr c.lower with acc := acc })) s

/-- A load on every array it names (R74): the arrays' mode, the slots filled. -/
def State.loadEffect (s : State) (t : Nat) (o : MmaOp) (cs : List Chain) : State :=
  let fill (a : MArr) (n0 : Nat) (second : Bool) : MArr :=
    { a with mode := o.gang,
             slots := (List.range o.cnt).foldl (fun tab i =>
               tab.put (slotKey o.fmt (o.slot + i)) (s.fillSlot o (o.slot + i) n0 second 0)) (keepSlots a.slots o.keys) }
  let x := cs.foldl (fun x c =>
    let n0 := 64 * c.unit + c.col0
    let x := match c.upper with | some u => x.setArr u (fill (x.arr u) n0 false) | none => x
    x.setArr c.lower (fill (x.arr c.lower) n0 c.upper.isSome)) (s.tile t)
  s.setTile t x

/-- The first bytes of the scratchpad ranges a repeat of a chain's tile reads: those of the loads that last filled its streams' slots,
as far as this chain's columns go, and those of the streams (R59, R61). -/
def repeatReads (x : Tile) (c : Chain) : List Nat :=
  let streams := (x.arr c.lower).streams
  let loads := (streams.map (·.slot)).eraseDups.map fun sl => { ((x.arr c.lower).slots.val {} sl).src with slot := sl, cnt := 1 }
  (loads.flatMap fun o => loadRanges o [c]).map (·.1) ++ (streams.flatMap streamRanges).map (·.1)

/-- Repeats the tile of a chain once with `shift` halvings: accumulators cleared, every slot its streams read reloaded from
the source of the load that last filled it, every stream replayed (R59); what it reads again meets its error state again (R127). -/
def State.repeatChain (s : State) (t : Nat) (c : Chain) (shift : Nat) : State :=
  let s := s.meetBytes (repeatReads (s.tile t) c)
  let x := s.tile t
  let streams := (x.arr c.lower).streams
  let used := (streams.map (·.slot)).eraseDups
  let reload (a : MArr) (second : Bool) : MArr :=
    { a with slots := used.foldl (fun tab sl =>
        let src := (tab.val {} sl).src
        tab.put sl (s.fillSlot src sl (64 * c.unit + c.col0) second shift)) a.slots }
  let x := match c.upper with | some u => x.setArr u (reload (x.arr u) false) | none => x
  let x := x.setArr c.lower { reload (x.arr c.lower) c.upper.isSome with acc := [], shift := shift }
  let s := s.setTile t x
  streams.foldl (fun s o =>
    let y := s.tile t
    let acc := s.streamChain o c (c.upper.map y.arr) (y.arr c.lower)
    s.setTile t (y.setArr c.lower { y.arr c.lower with acc := acc })) s

def satIn (x : Tile) (cs : List Chain) : Bool :=
  cs.any fun c => (x.arr c.lower).cls == .integer && (x.arr c.lower).acc.any fun kv => kv.2.sat

/-- The loop of R59, `k` halvings left: the state, SHIFT, SAT_FINAL. -/
def State.repeatLoop (t : Nat) (cs : List Chain) : Nat → State → Nat → State × Nat × Bool
  | k, s, shift =>
    if !satIn (s.tile t) cs then (s, shift, false)
    else match k with
      | 0 => (s, shift, true)
      | k + 1 =>
        let ints := cs.filter fun c => ((s.tile t).arr c.lower).cls == .integer
        State.repeatLoop t cs k (ints.foldl (fun s c => s.repeatChain t c (shift + 1)) s) (shift + 1)

/-- One output element: its code and whether its conversion overflowed (R56, R59). `r` the 16 random bits of SR. -/
def drainElem (o : MmaOp) (integer : Bool) (shift r : Nat) (a : Acc) : Nat × Bool :=
  let rnd : Rnd := match o.rnd with | 0 => .rne | 1 => .rtz | _ => .sr r
  if o.fmt == .int32 then (((if a.m < 0 then a.m + 2 ^ 32 else a.m) % 2 ^ 32).toNat, false)
  else
    let v := if integer then (match Val.ofInt a.m with | .fin s m e => Val.fin s m (e + shift) | w => w) else a.val
    encode o.fmt rnd (satByRow o.fmt o.nsat) 0 v

/-- The accumulators a drain reads, in its element order: unit, row counted from 0, array, column (R84). -/
def drainOrder (o : MmaOp) : List (Nat × Nat × Nat × Nat) :=
  (drainUnits o.gang o.aset).flatMap fun u => (List.range o.rows).flatMap fun i => u.2.flatMap fun a =>
    (List.range 64).map fun j => (u.1, i, a, j)

/-- Writes a drain's rows, each whole: `n` elements of `b` bytes a row (R84). -/
def State.drainRows (s : State) (o : MmaOp) (n : Nat) (es : List (Nat × Bool)) : State :=
  let rows := (drainUnits o.gang o.aset).flatMap fun u => (List.range o.rows).map fun i => (u.1, i)
  (rows.zip (chunks n es)).foldl (fun s p =>
    s.writeSp (drainAddr o p.1.1 p.1.2) (p.2.flatMap fun e => leBytes (o.fmt.bytes 1) e.1)) s

/-- A drain's effect (R57, R59, R62, R79, R84). The 16 streams of R60 are counted for each array, and where one array of a tile has
more the tile is not repeated (DESIGN CHOICE, assumption log 66). SHIFT counts the halvings under the accumulators drained, so a
later part of a tile that was repeated drains with the SHIFT of the first (DEDUCED from R57, assumption log 66). -/
def State.drainEffect (s : State) (t : Nat) (o : MmaOp) (cs : List Chain) : State :=
  let x := s.tile t
  let shift0 := (cs.map fun c => (x.arr c.lower).shift).foldl max 0
  let wide := cs.any fun c => (x.arr c.lower).cls == .integer && decide ((x.arr c.lower).nStreams > 16)
  let sat0 := satIn x cs
  let r : State × Nat × Bool := if sat0 && wide then (s, 0, true) else State.repeatLoop t cs (3 - shift0) s shift0
  let s := r.1
  let shift := r.2.1
  let x := s.tile t
  let ord := drainOrder o
  let rs := if o.rnd == 2 then (({ key := o.key, ctr := o.ctr, off := o.off } : OStream).draws ord.length).1 else ord.map fun _ => 0
  let es := (ord.zip rs).map fun p =>
    let a := x.arr p.1.2.2.1
    drainElem o (a.cls == .integer) (if sat0 && wide then 0 else a.shift) p.2 (a.acc.val {} ((o.row0 + p.1.2.1) * 64 + p.1.2.2.2))
  let nan := ord.any fun p => ((x.arr p.2.2.1).acc.val {} ((o.row0 + p.2.1) * 64 + p.2.2.2)).nan
  let s := s.drainRows o (if o.gang == 2 then 128 else 64) es
  let all := o.row0 == 0 && o.rows == 64
  let clear (m : MArr) : MArr :=
    { m with acc := m.acc.filter fun kv => kv.1 / 64 < o.row0 || o.row0 + o.rows ≤ kv.1 / 64 }
  let done (m : MArr) : MArr := if all then { m with cls := .clear, streams := [], nStreams := 0, shift := 0 } else m
  let y := (s.tile t).mapArrays (cs.map (·.lower)) clear
  let s := s.setTile t (y.mapArrays (chainArrays cs) done)
  let s := s.writeSp o.status (leBytes 8 (drainStatus (es.filter (·.2)).length (sat0 && wide) r.2.2 nan shift).toNat)
  if r.2.2 then s.tileReportX 0x001 t else s

/-! Completion, in an order R76 and R84 allow. -/

/-- Whether queued operation `i` must wait for the earlier `j` on the arrays they share: operations on one array take effect
in issue order, but a load and a stream of other slots may run at the same time (R76, R84). -/
def mmaAfter (i j : MmaOp) : Bool :=
  let ai := chainArrays ((chainsOf i.gang i.aset).getD [])
  let aj := chainArrays ((chainsOf j.gang j.aset).getD [])
  (ai.any aj.contains) &&
    (decide (ai.length > 1) ||
      (match i.kind, j.kind with
        | .load, .stream | .stream, .load => (i.keys.flatMap keyBytes).any (j.keys.flatMap keyBytes).contains
        | _, _ => true))

/-- Takes operation `i` of a kind out of the queue when nothing earlier holds it back and no byte it reads is still owed to a
cut-through entry (R193), and gives its effect. -/
def State.mmaComplete (s : State) (t i : Nat) (kind : MmaKind) (reads : MmaOp → List Chain → List (Nat × Nat))
    (f : State → MmaOp → List Chain → State) : Host.Outcome State Fault Refusal :=
  let x := s.tile t
  match x.mmaq[i]? with
  | none => .next s
  | some o =>
    let cs := (chainsOf o.gang o.aset).getD []
    if o.kind != kind || (x.mmaq.take i).any (mmaAfter o) then .next s
    else if !s.handles.isEmpty && (reads o cs).any (fun r => s.cutPending r.1 r.2) then .next s
    else
      let s := s.setTile t { x with mmaq := x.mmaq.eraseIdx i }
      .next ((f s o cs).fillerSettle t)

def execMmaLoadComplete (t i : Nat) (s : State) : Host.Outcome State Fault Refusal :=
  s.mmaComplete t i .load loadRanges fun s o cs => (s.meetBytes ((loadRanges o cs).map (·.1))).loadEffect t o cs

def execMmaStreamComplete (t i : Nat) (s : State) : Host.Outcome State Fault Refusal :=
  s.mmaComplete t i .stream (fun o _ => streamRanges o) fun s o cs => (s.meetBytes ((streamRanges o).map (·.1))).streamEffect t o cs

/-- The accumulators a debug drain reads, as (array, index): R84's order for those the gang mode uses, then the upper arrays'
(R86). -/
def debugOrder (o : MmaOp) (cs : List Chain) : List (Nat × Nat) :=
  ((drainUnits o.gang o.aset).flatMap fun u => (List.range 64).flatMap fun row => u.2.flatMap fun a =>
      (List.range 64).map fun j => (a, row * 64 + j))
    ++ ((cs.filterMap (·.upper)).flatMap fun a => (List.range 4096).map fun i => (a, i))

/-- A debug drain's effect (R69, R86): raw records, nothing converted, cleared or marked. MODE is 0 where the class is clear
(DESIGN CHOICE, assumption log 66). -/
def State.debugEffect (s : State) (t : Nat) (o : MmaOp) (cs : List Chain) : State :=
  let x := s.tile t
  s.writeSp o.base ((debugOrder o cs).flatMap fun p =>
    leBytes 8 (Acc.record ((x.arr p.1).cls == .integer) ((x.arr p.1).acc.val {} p.2)))

/-- MMA_DRAIN_COMPLETE (R84, R86): operation `i`, a drain or a debug drain. -/
def execMmaDrainComplete (t i : Nat) (s : State) : Host.Outcome State Fault Refusal :=
  if ((s.tile t).mmaq[i]?).map (·.kind) == some MmaKind.debug then
    s.mmaComplete t i .debug (fun _ _ => []) fun s o cs => s.debugEffect t o cs
  else s.mmaComplete t i .drain (fun _ _ => []) fun s o cs => s.drainEffect t o cs

/-- MMA.DRAIN.DBG (R68, R77, R94, R111): only in debug mode; accepted like any MMA operation, acting once every earlier
operation on its arrays has. A filler task that may not use the arrays traps MMA_OPERAND by R209 before DEBUG_ONLY is asked (DESIGN
CHOICE, assumption log 66). -/
def execMmaDrainDbg (t : Nat) (ga : Reg) (mod : BitVec 32) (s : State) : Host.Outcome State Fault Refusal :=
  s.run t 8 (.mmaDrainDbg t ga mod) fun s =>
    if s.inFiller t && !s.rb (t / 96) (filOff t) 61 then mmaOperand mod
    else if mmaIllegal 3 0 0 0 mod then .trap .illegal (wordX 0x30 3 0 ga 0 0)
    else if !(s.tile t).debug then .trap .debugOnly 0
    else mmaStart s t 3 0 ga 0 0 mod fun cs =>
      let o : MmaOp := { kind := .debug, gang := wordFld mod 31 30, aset := wordFld mod 29 26, base := (s.g t ga).toNat, rows := 64 }
      match s.outsideOwn t o.base (8 * (debugOrder o cs).length) with
      | some b => .trap .access (BitVec.ofNat 64 b)
      | none =>
        if o.base % 64 != 0 then mmaOperand mod else .done (s.mmaAccept t o [] fun a => a)

/-- ARRAY_GATE (R83): an array with no operation queued gates its supply. -/
def execArrayGate (t a : Nat) (s : State) : Host.Outcome State Fault Refusal :=
  let x := s.tile t
  let busy := x.mmaq.any fun o => (chainArrays ((chainsOf o.gang o.aset).getD [])).contains a
  if !s.tilePresent t || a ≥ 4 || busy then .next s
  else .next (s.setTile t (x.setArr a { x.arr a with gated := true }))

/-- MMA_STATE (R81). In G2 and G4 an upper array shows its pair's mode and the lower array's class (R79). -/
def Tile.mmaState (x : Tile) : Word :=
  BitVec.ofNat 64 ((List.range 4).foldl (fun w a =>
    let m := x.arr a
    let busy := x.mmaq.any fun o => (chainArrays ((chainsOf o.gang o.aset).getD [])).contains a
    let cls := match m.cls with | .clear => 0 | .floating => 1 | .integer => 2
    w + (m.mode * 64 + cls * 16 + busy.toNat * 8 + m.gated.toNat * 4) * 2 ^ (8 * a)) 0)

end Sys2Proof.Machine
end

