-- ==== Sys2Proof/Machine/Smb.lean ====
section
/-! DEFINITION. The SMBus port (R428): what each command code reads. -/
namespace Sys2Proof.Machine

/-- The port answers from the DIE phase onward; in RECOVERY, where DIE firmware runs (assumption log 47). -/
def State.smbAnswers (s : State) : Bool :=
  s.pins.powered && ([2, 3, 4, 6].contains s.phase || (s.phase == 5 && (s.rot.running.find 2).isSome))

/-- The port's address, by the pins as RESET_N's rise found them. -/
def State.smbAddr (s : State) : Nat := 0x58 + s.pins.addr

/-- What a read carries of a content of `n` bytes, the low byte first: a Read Byte its first, a Read Word two (the second of a content of
one byte is free), a Block Read their number and all. -/
def smbData (q : SmbReq) (n v free : Nat) : List Byte :=
  match q.kind with
  | 0 => leBytes 1 v
  | 1 => if n < 2 then [BitVec.ofNat 8 v, Config.freeByte free] else leBytes 2 v
  | _ => BitVec.ofNat 8 n :: leBytes n v

/-- A read's bytes, with SMBus 3.1's packet error code where the master asks for one: a CRC-8 over the whole transfer. -/
def smbBytes (q : SmbReq) (code n v free : Nat) : List Byte :=
  let d := smbData q n v free
  if q.pec then d ++ [BitVec.ofNat 8 (crcMsb 8 0x07 ([BitVec.ofNat 8 (2 * q.addr), BitVec.ofNat 8 code, BitVec.ofNat 8 (2 * q.addr + 1)] ++ d))] else d

/-- A read of command `code`, whose content is `n` bytes; the address is not acknowledged before the port answers, and another device's
address is not this port's. -/
def State.smbAnswer (s : State) (q : SmbReq) (code n v : Nat) : State :=
  if q.addr != s.smbAddr then s
  else if !s.smbAnswers then s.emit .smbNack
  else { s.emit (.smbRead (smbBytes q code n v s.freeIdx)) with freeIdx := s.freeIdx + (if q.kind == 1 && n < 2 then 1 else 0) }

/-- A transfer to this port that it does not acknowledge. -/
def State.smbRefuse (s : State) (q : SmbReq) : State := if q.addr == s.smbAddr then s.emit .smbNack else s

/-- The hottest junction sensor of a die (PACE_STATUS.TJ). -/
def State.junction (s : State) (d : Nat) : Nat := s.rf d 0x2008 15 8

/-- The hottest sensor and the refresh tier of a stack (MEM_STATUS). -/
def State.stackTemp (s : State) (m : Nat) : Nat := s.rf (m / 3) (memOff m) 63 56
def State.stackTier (s : State) (m : Nat) : Nat := s.rf (m / 3) (memOff m) 55 54

/-- The stacks whose sensors the port reports: present and not DOWN. -/
def State.stacksUp (s : State) : List Nat := (List.range 24).filter fun m => s.stackPresent m && s.stackState m != 3

def State.dies (s : State) : List Nat := (List.range 12).filter s.diePresent

/-- SMB_JUNCTION_MAX (command 0x01). -/
def execSmbJunctionMax (q : SmbReq) (s : State) : Host.Outcome State Fault Refusal :=
  .next (s.smbAnswer q 1 1 (s.dies.foldl (fun a d => max a (s.junction d)) 0))

/-- SMB_STACK_MAX (command 0x02). -/
def execSmbStackMax (q : SmbReq) (s : State) : Host.Outcome State Fault Refusal :=
  .next (s.smbAnswer q 2 1 (s.stacksUp.foldl (fun a m => max a (s.stackTemp m)) 0))

/-- SMB_POWER (command 0x03): PKG_POWER_STATUS.POWER. -/
def execSmbPower (q : SmbReq) (s : State) : Host.Outcome State Fault Refusal := .next (s.smbAnswer q 3 2 (s.rf dieMerA 0x2108 15 0))

/-- SMB_VOLTAGE (command 0x04), in 10 mV. -/
def execSmbVoltage (q : SmbReq) (s : State) : Host.Outcome State Fault Refusal := .next (s.smbAnswer q 4 2 (s.pins.vin / 10))

/-- The flags of command 0x05. -/
def State.smbFlags (s : State) : Nat :=
  (s.phase == 4).toNat + (!s.errnHigh).toNat * 2 + s.stopped.toNat * 4
    + (s.dies.any fun d => s.rf d 0x2008 1 0 != 0).toNat * 8
    + (s.stacksUp.any fun m => decide (s.stackTier m ≥ 1)).toNat * 16 + (s.stacksUp.any fun m => s.stackTier m == 3).toNat * 32

/-- SMB_FLAGS (command 0x05). -/
def execSmbFlags (q : SmbReq) (s : State) : Host.Outcome State Fault Refusal := .next (s.smbAnswer q 5 1 s.smbFlags)

/-- SMB_DIE_JUNCTION (command 0x10 + d): a code that names no die is not listed. -/
def execSmbDieJunction (q : SmbReq) (d : Nat) (s : State) : Host.Outcome State Fault Refusal :=
  if d ≥ 12 then .next (s.smbRefuse q)
  else .next (s.smbAnswer q (0x10 + d) 1 (if s.diePresent d then s.junction d else 0xFF))

/-- SMB_STACK_SENSOR (command 0x20 + m). -/
def execSmbStackSensor (q : SmbReq) (m : Nat) (s : State) : Host.Outcome State Fault Refusal :=
  if m ≥ 24 then .next (s.smbRefuse q)
  else .next (s.smbAnswer q (0x20 + m) 1 (if s.stacksUp.contains m then s.stackTemp m else 0xFF))

/-- SMB_WRITE_NACK: a write beyond the command byte, or an unlisted command, changes nothing. -/
def execSmbWriteNack (q : SmbReq) (_cmd : Nat) (_bytes : List Byte) (s : State) : Host.Outcome State Fault Refusal :=
  .next (s.smbRefuse q)

end Sys2Proof.Machine
end

