-- ==== Sys2Proof/Machine/Registers.lean ====
section
/-! DEFINITION. REGISTER_WRITE (R10, R434): a control-software write to any register of control space, block by block. A
register whose write has a row of its own acts as that row does. A write to a field or register that is read-only changes
nothing; an offset at which the spec gives no register is refused by name. -/
namespace Sys2Proof.Machine

/-- Stores the writable fields `m` of a register; its other bits stay. -/
def State.putRw (s : State) (d off : Nat) (m v : Word) : State := s.setRg d off ((s.rg d off &&& ~~~m) ||| (v &&& m))

/-- Clears the bits of `m` that are written 1 (W1C). -/
def State.putW1c (s : State) (d off : Nat) (m v : Word) : State := s.setRg d off (s.rg d off &&& ~~~(v &&& m))

/-- What a write of a register the spec does not give answers. -/
def noRegister : Host.Outcome State Fault Refusal := .refused .unlistedRegister

/-- The pace block every die carries (R22 to R28), its capability word and its modules' blocks (R333, R339). DESIGN
CHOICE (assumption log 62): REPLICA_FAIL's condition ends when software clears its bit; R28 does not say when it ends. -/
def commonWrite (d off : Nat) (v : Word) (s : State) : Host.Outcome State Fault Refusal :=
  if off == 0x1000 || off == 0x2008 then .next s
  else if off == 0x2000 then .next (s.setRf d off 15 0 (max 700 (min 1300 (fld v 15 0))))
  else if off == 0x2010 then .next (s.setRf d off 7 0 (max 60 (min 100 (fld v 7 0))))
  else if off == 0x2018 then
    let s' := s.putW1c d off (maskOf 3 0) v
    .next (if s.rb d off 3 && !s'.rb d off 3 then s'.endCond 0x10 d else s')
  else
    let m := (off - 0xD00000) / 0x100
    let o := (off - 0xD00000) % 0x100
    if off < 0xD00000 || (modulePeer s.variant d m).isNone then noRegister
    else if o == 8 then (if bitOf v 0 then execD2dCtlRetrain d m s else .next s)
    else if o == 0x10 then .next (s.putW1c d off (maskOf 2 0) v)
    else if o ≤ 0x30 then .next s
    else noRegister

/-! A Hob's blocks. -/

/-- A stage-link handle's registers (R180). -/
def slRegWrite (d i o : Nat) (v : Word) (s : State) : Host.Outcome State Fault Refusal :=
  let h := d * 512 + i
  let off := 0x100000 + i * 0x40 + o
  if o == 0 then (if bitOf v 63 then execSlOpen h v s else execSlClose h v s)
  else if o == 8 then .next (s.setRg d off v)
  else if o == 0x10 then .next (s.putRw d off (maskOf 31 0) v)
  else if o ≤ 0x30 then .next s
  else noRegister

/-- The filler registers of tile `t` (R211): TAIL is the ring's. -/
def filRegWrite (t o : Nat) (v : Word) (s : State) : Host.Outcome State Fault Refusal :=
  let d := t / 96
  if o == 0 then execFilCtlWrite t v s
  else if o == 8 then .next (s.putRw d (filOff t + 8) (maskOf 63 56 ||| maskOf 47 0) v).filDrop
  else if o == 0x10 then
    let base := s.filBase t
    let tail (r : FilRing) : FilRing := if r.named d base then { r with tail := BitVec.ofNat 32 (fld v 63 32) } else r
    .next { s with rings := s.rings.map tail }
  else .next (s.putRw d (filOff t + 0x18) (maskOf 31 0) v)

/-- A write of TL_CTL: setting EN starts a new account (R213 to R215). -/
def State.tlWrite (s : State) (t : Nat) (v : Word) : State :=
  let d := t / 96
  let s' := s.putRw d (tlOff t) (maskOf 63 63 ||| maskOf 9 0) v
  if bitOf v 63 && !s.tlEn t then
    let x := s'.tile t
    (s'.setTile t { x with transit := { phase := s.waitPhase t, since := s.now d } }).setRg d (tlOff t + 0x10) 0
  else s'

/-- The Transit-log registers of tile `t` (R215). -/
def tlRegWrite (t o : Nat) (v : Word) (s : State) : Host.Outcome State Fault Refusal :=
  if o == 0 then .next (s.tlWrite t v)
  else if o == 8 then .next (s.putRw (t / 96) (tlOff t + 8) (maskOf 63 56 ||| maskOf 47 0) v)
  else if o == 0x10 then .next s
  else noRegister

/-- An MSA block (R237): with EN set again, waiting grants go on. -/
def msaRegWrite (d j o : Nat) (v : Word) (s : State) : Host.Outcome State Fault Refusal :=
  let off := 0x600000 + j * 0x40 + o
  if o == 0 then
    let s := s.putRw d off 1 v
    .next ((s.colls.map (·.1)).foldl State.rxKick s)
  else if o == 8 then .next s
  else if o == 0x10 then .next (s.putW1c d off (maskOf 2 0) v)
  else noRegister

/-- A memory block (R301). -/
def memRegWrite (d j o : Nat) (v : Word) (s : State) : Host.Outcome State Fault Refusal :=
  let m := 3 * d + j
  if o == 0 || o == 0x20 then .next s
  else if o == 8 then .next (s.putRw d (memOff m + 8) (maskOf 63 24) v)
  else if o == 0x10 then execMemMapoutWrite m v s
  else if o == 0x18 then .next (s.putW1c d (memOff m + 0x18) (maskOf 5 0) v)
  else if 0x100 ≤ o && o < 0x300 then .next s
  else noRegister

/-- A write within a Hob's window. -/
def hobWrite (d off : Nat) (v : Word) (s : State) : Host.Outcome State Fault Refusal :=
  if 0x100000 ≤ off && off < 0x108000 then slRegWrite d ((off - 0x100000) / 0x40) (off % 0x40) v s
  else if 0x400000 ≤ off && off < 0x400C00 then filRegWrite (d * 96 + (off - 0x400000) / 0x20) (off % 0x20) v s
  else if 0x500000 ≤ off && off < 0x500C00 then tlRegWrite (d * 96 + (off - 0x500000) / 0x20) (off % 0x20) v s
  else if 0x580000 ≤ off && off < 0x580C00 then .next s
  else if 0x600000 ≤ off && off < 0x6000C0 then msaRegWrite d ((off - 0x600000) / 0x40) (off % 0x40) v s
  else if 0x900000 ≤ off && off < 0x903000 then memRegWrite d ((off - 0x900000) / 0x1000) (off % 0x1000) v s
  else if 0xA00000 ≤ off && off < 0xA0C000 then
    execMemOwnWrite (3 * d + (off - 0xA00000) / 0x4000) ((off - 0xA00000) % 0x4000 / 8) v s
  else commonWrite d off v s

/-! Blocks of both Meridians. -/

/-- An exchange handle's registers (R242): the table bases take writes while VALID is 0. -/
def exRegWrite (h o : Nat) (v : Word) (s : State) : Host.Outcome State Fault Refusal :=
  if o == 0 then (if bitOf v 63 then execExHandleValidate h v s else execExHandleDiscard h v s)
  else if o ≤ 0x10 then .next (if s.exValid h then s else s.putRw (exDie h) (exOff h + o) (maskOf 47 0) v)
  else if o ≤ 0x48 then .next s
  else noRegister

/-- An ingest port's registers (R258). -/
def portRegWrite (d o : Nat) (v : Word) (s : State) : Host.Outcome State Fault Refusal :=
  if o == 0 then .next (s.putRw d ingPort (maskOf 63 61 ||| maskOf 15 0) v)
  else if o == 8 then .next (s.putRw d (ingPort + 8) (maskOf 47 0) v)
  else if o == 0x10 then .next (s.putRw d (ingPort + 0x10) (maskOf 31 0) v)
  else if o ≤ 0x20 then .next (s.setRg d (ingPort + o) v)
  else if o ≤ 0x30 then .next s
  else noRegister

/-- A link's registers (R325, R330). An epoch this row does not carry is a free value. -/
def lkRegWrite (l o : Nat) (v : Word) (s : State) : Host.Outcome State Fault Refusal :=
  let d := linkDie l
  let e : BitVec 32 := (Config.freeWord s.freeIdx).setWidth 32
  let s1 := { s with freeIdx := s.freeIdx + 1 }
  if o > 0x130 || (0x28 < o && o < 0x40) || (0x98 < o && o < 0x100) then noRegister
  else if !s.linkPresent l then .next s
  else if o == 0 then
    (if bitOf v 63 then execLkEnable l v s
     else execLkDisable l v e s1)
  else if o == 8 then
    (if bitOf v 0 then execLkCtlReset l e s1 else if bitOf v 1 then execLkCtlRetrain l s else .next s)
  else if o == 0x28 then .next (s.putW1c d (lkOff l + o) (maskOf 7 0) v)
  else if o == 0x100 then
    (if bitOf v 63 then execLkRefStart l v s else .next (s.putRw d (lkOff l + o) refCtlMask v))
  else if o == 0x108 then .next (s.putRw d (lkOff l + o) (maskOf 47 0) v)
  else if o == 0x110 then .next (s.putRw d (lkOff l + o) (maskOf 63 56 ||| maskOf 47 0) v)
  else if o == 0x118 || o == 0x120 then .next (s.setRg d (lkOff l + o) v)
  else .next s

/-- A regulator's registers (R357). -/
def regRegWrite (d p i o : Nat) (v : Word) (s : State) : Host.Outcome State Fault Refusal :=
  if i ≥ 25 then noRegister
  else if o == 0 then execRegCfgWrite (d - dieMerA) p i v s
  else .next (s.putW1c d (regOff p i + 8) (maskOf 63 63) v)

/-- A write within a Meridian's window, outside Meridian-A's own blocks. -/
def merWrite (d off : Nat) (v : Word) (s : State) : Host.Outcome State Fault Refusal :=
  if 0x700000 ≤ off && off < 0x704000 then
    exRegWrite ((d - dieMerA) * 64 + (off - 0x700000) / 0x100) (off % 0x100) v s
  else if 0x810000 ≤ off && off < 0x810100 then portRegWrite d (off - 0x810000) v s
  else if 0xC00000 ≤ off && off < 0xC0C000 then
    lkRegWrite ((d - dieMerA) * 12 + (off - 0xC00000) / 0x1000) (off % 0x1000) v s
  else if 0x1100000 ≤ off && off < 0x1101000 then
    regRegWrite d ((off - 0x1100000) / 0x200) (off % 0x200 / 0x10) (off % 0x10) v s
  else commonWrite d off v s

/-! Meridian-A's own blocks. -/

/-- An Almanac group's registers (R196). -/
def alRegWrite (g o : Nat) (v : Word) (s : State) : Host.Outcome State Fault Refusal :=
  if o == 0 then (if bitOf v 63 then execAlGroupValidate g v s else execAlGroupEnd g v s)
  else if o ≤ 0x48 then .next s
  else noRegister

/-- A weight block's registers, which ignore writes while their group is valid (R196). -/
def albRegWrite (b o : Nat) (v : Word) (s : State) : Host.Outcome State Fault Refusal :=
  if (s.alGroupOf b).isSome then .next s
  else if o == 0 then .next (s.putRw dieMerA (albOff b) (maskOf 63 54 ||| maskOf 47 0) v)
  else .next (s.setRg dieMerA (albOff b + 8) v)

/-- A collective's registers (R217): all but RX_CFG take writes only while VALID is 0. -/
def rxRegWrite (h o : Nat) (v : Word) (s : State) : Host.Outcome State Fault Refusal :=
  let put (m : Word) : Host.Outcome State Fault Refusal :=
    .next (if s.rxValid h then s else s.putRw dieMerA (rxOff h + o) m v)
  if o == 0 then (if bitOf v 63 then execRxCollectiveValidate h v s else execRxCollectiveDiscard h v s)
  else if o == 8 then put (maskOf 31 0)
  else if o ≤ 0x18 then put (maskOf 47 0)
  else if o < 0x40 then .next s
  else if o < 0xC0 then put (maskOf 63 0)
  else noRegister

/-- An ingest stream's registers (R258): all but ING_SCFG take writes only while EN is 0. -/
def ingRegWrite (st o : Nat) (v : Word) (s : State) : Host.Outcome State Fault Refusal :=
  let put (m : Word) : Host.Outcome State Fault Refusal :=
    .next (if s.ingEn st then s else s.putRw dieMerA (ingOff st + o) m v)
  if o == 0 then (if bitOf v 63 then execIngStreamEnable st v s else execIngStreamDisable st v s)
  else if o == 8 then put (maskOf 47 0)
  else if o ≤ 0x18 then put (maskOf 63 0)
  else .next s

/-- The firewall's registers (R340, R342); FW_LAST re-arms when SEEN is written 1. -/
def fwRegWrite (o : Nat) (v : Word) (s : State) : Host.Outcome State Fault Refusal :=
  if o < 0x400 then execFwWinWrite (o / 0x10) (o % 0x10 / 8) v s
  else if o == 0x400 then .next s
  else if o == 0x408 then .next (if bitOf v 60 then s.setRg dieMerA 0xE00408 0 else s)
  else noRegister

/-- A partition's registers (R349): the tile groups take writes in EMPTY and IDLE. -/
def partRegWrite (p o : Nat) (v : Word) (s : State) : Host.Outcome State Fault Refusal :=
  let free := (s.part p).st == .empty || (s.part p).st == .idle
  if o == 0 then (if bitOf v 63 then execPartValidate p v s else execPartInvalidate p v s)
  else if o == 8 then .next (if free then s.setRg dieMerA (partOff p + 8) v else s)
  else if o == 0x10 then .next (if free then s.putRw dieMerA (partOff p + 0x10) (maskOf 31 0) v else s)
  else if o == 0x18 then .next s
  else if o == 0x20 then .next (s.putW1c dieMerA (partOff p + 0x20) (maskOf 2 0) v)
  else noRegister

/-- The collector's registers (R389, R394, R397). IRQ_EN set while PENDING is 1 raises the fault interrupt, as PENDING does while IRQ_EN
is 1 (R388). -/
def fcRegWrite (o : Nat) (v : Word) (s : State) : Host.Outcome State Fault Refusal :=
  let sev := fld v 2 0
  if o == 0 then
    let m := if sev == 0 then 1 else if sev > 4 then 4 else sev
    let raised := bitOf v 8 && !s.rb dieMerA fcOff 8 && s.rb dieMerA (fcOff + 8) 60
    let s := (s.setRb dieMerA fcOff 8 (bitOf v 8)).setRf dieMerA fcOff 2 0 m
    .next (if raised then s.emit .faultInterrupt else s)
  else if o == 8 then .next (s.putW1c dieMerA (fcOff + 8) (maskOf 61 60) v)
  else if o == 0x10 then (if bitOf v 8 then execFcClearAll s else execFcClearRecord (fld v 7 0) s)
  else if o ≤ 0x20 then .next s
  else if 0x1000 ≤ o && o < 0x3000 then
    let n := (o - 0x1000) / 8
    .next (if decide (n < 16) || !sevListed n || n == 0x13 || decide (sev > 4) then s else s.setRf dieMerA (fcOff + o) 2 0 sev)
  else if 0x4000 ≤ o && o < 0x4400 then
    .next (if decide ((o - 0x4000) / 8 % 16 ≥ 6) || decide (sev > 4) then s else s.setRf dieMerA (fcOff + o) 2 0 sev)
  else if 0x8000 ≤ o && o < 0xA000 then .next s
  else noRegister

/-- Meridian-A's single registers: capabilities, die control, package pace, boot, root of trust, repair, test. -/
def merASingle (off : Nat) (v : Word) (s : State) : Host.Outcome State Fault Refusal :=
  if off ≤ 0x20 || off == 0x1008 || off == 0x1010 || off == 0x2108 || off == 0x3000 then .next s
  else if off == 0x1018 then
    let k := (Config.freeWord s.freeIdx).toNat
    match (if bitOf v 1 then execResetGuest k { s with freeIdx := s.freeIdx + 1 } else .next s) with
    | .next s' => if bitOf v 0 then execResetMdl s' else .next s'
    | r => r
  else if off == 0x2100 then .next (s.setRf dieMerA off 15 0 (max 1000 (min 4200 (fld v 15 0))))
  else if 0x4000 ≤ off && off < 0x4140 && (off ≤ 0x4010 || (0x4040 ≤ off && off < 0x40A0) || 0x4100 ≤ off) then .next s
  else if 0xF00000 ≤ off && off < 0xF00048 then .next s
  else if off == 0xF00048 then execRepRetireWrite v s
  else if off == 0xF00100 then .next (s.putRw dieMerA off (maskOf 11 0) v)
  else merWrite dieMerA off v s

/-- A write within Meridian-A's window. -/
def merAWrite (off : Nat) (v : Word) (s : State) : Host.Outcome State Fault Refusal :=
  if 0x200000 ≤ off && off < 0x220000 then alRegWrite ((off - 0x200000) / 0x80) (off % 0x80) v s
  else if 0x300000 ≤ off && off < 0x310000 then albRegWrite ((off - 0x300000) / 0x10) (off % 0x10) v s
  else if 0x600000 ≤ off && off < 0x700000 then rxRegWrite ((off - 0x600000) / 0x100) (off % 0x100) v s
  else if 0x800000 ≤ off && off < 0x804000 then ingRegWrite ((off - 0x800000) / 0x40) (off % 0x40) v s
  else if 0xE00000 ≤ off && off < 0xE01000 then fwRegWrite (off - 0xE00000) v s
  else if 0x1000000 ≤ off && off < 0x1000200 then partRegWrite ((off - 0x1000000) / 0x40) (off % 0x40) v s
  else if 0x1200000 ≤ off && off < 0x120A000 then fcRegWrite (off - 0x1200000) v s
  else merASingle off v s

/-! Mandoline's blocks. -/

/-- The Pantry's, the decoders' and the tokenizer's registers (R261, R265, R276). -/
def mdlWrite (off : Nat) (v : Word) (s : State) : Host.Outcome State Fault Refusal :=
  let put (m : Word) : Host.Outcome State Fault Refusal := .next (s.putRw dieMdl off m v)
  if off < 0x10000 || off ≥ 0x10118 then commonWrite dieMdl off v s
  else
    let o := off - 0x10000
    if o == 0 then (if bitOf v 63 then execPantryEnable v s else execPantryDisable v s)
    else if o == 8 || o == 0x10 then (if s.pEn then .next s else put (maskOf 47 0))
    else if o == 0x18 then (if s.pEn then .next s else put (maskOf 39 0))
    else if o == 0x20 then .next (s.putRw dieMdl off (maskOf 44 32 ||| maskOf 12 0) v).pantryAlarm
    else if o == 0x30 then .next (s.putW1c dieMdl off 1 v)
    else if o ≤ 0x58 then .next s
    else if 0x80 ≤ o && o ≤ 0x98 then put (maskOf 63 0)
    else if o == 0x100 then put (maskOf 47 0)
    else if o == 0x108 then (if bitOf v 63 then execTokDictLoad v s else put (maskOf 62 62 ||| maskOf 50 0))
    else if o == 0x110 then .next s
    else noRegister

/-- REGISTER_WRITE: the window of an absent die answers with a bus error (R5). The guest die carries the blocks that every
die has, and the rest of its window belongs to a third party. -/
def execRegisterWrite (d off : Nat) (v : Word) (s : State) : Host.Outcome State Fault Refusal :=
  if !s.diePresent d then .next (s.emit .busError)
  else if off % 8 != 0 then noRegister
  else if d < 8 then hobWrite d off v s
  else if d == dieMerA then merAWrite off v s
  else if d == dieMerB then merWrite d off v s
  else if d == dieMdl then mdlWrite off v s
  else
    match commonWrite d off v s with
    | .refused _ => .refused .guestWindow
    | r => r

end Sys2Proof.Machine
end

