-- ==== Sys2Proof/Machine/Scalar.lean ====
section
/-! DEFINITION. Scalar and branch instructions (R99 to R102), the illegal instruction (R97). -/
namespace Sys2Proof.Machine

/-- An ALU instruction: gd := op(ga, gb). -/
def aluOp (i : Instr) (t : Nat) (gd ga gb : Reg) (op : Word → Word → Word) (s : State) : Host.Outcome State Fault Refusal :=
  s.run t 4 i fun s => doneG s t gd (op (s.g t ga) (s.g t gb))

/-- An immediate instruction: gd := op(ga). -/
def immOp (i : Instr) (t : Nat) (gd ga : Reg) (op : Word → Word) (s : State) : Host.Outcome State Fault Refusal :=
  s.run t 4 i fun s => doneG s t gd (op (s.g t ga))

def bit64 (b : Bool) : Word := if b then 1 else 0

/-- Signed quotient rounded toward zero, all ones on zero (R99, R100). -/
def divS (a b : Word) : Word := if b = 0 then BitVec.allOnes 64 else a.sdiv b
def divU (a b : Word) : Word := if b = 0 then BitVec.allOnes 64 else a / b
/-- Signed remainder with the sign of the dividend; the dividend on zero. -/
def remS (a b : Word) : Word := if b = 0 then a else a.srem b
def remU (a b : Word) : Word := if b = 0 then a else a % b

/-- High halves of products (R99). -/
def mulHighS (a b : Word) : Word := BitVec.ofInt 64 ((a.toInt * b.toInt) / 2 ^ 64)
def mulHighU (a b : Word) : Word := BitVec.ofNat 64 (a.toNat * b.toNat / 2 ^ 64)

def popCount (a : Word) : Word := BitVec.ofNat 64 ((List.range 64).filter fun i => bitOf a i).length

/-- Zeros above the highest set bit; 64 for zero. -/
def leadZeros (a : Word) : Word :=
  if a = 0 then 64 else BitVec.ofNat 64 (63 - Nat.log2 a.toNat)

/-- Zeros below the lowest set bit; 64 for zero. -/
def trailZeros (a : Word) : Word :=
  BitVec.ofNat 64 (((List.range 64).find? fun i => bitOf a i).getD 64)

def execAdd (t : Nat) (gd ga gb : Reg) (s : State) := aluOp (.add t gd ga gb) t gd ga gb (fun a b => a + b) s
def execSub (t : Nat) (gd ga gb : Reg) (s : State) := aluOp (.sub t gd ga gb) t gd ga gb (fun a b => a - b) s
def execAnd (t : Nat) (gd ga gb : Reg) (s : State) := aluOp (.and t gd ga gb) t gd ga gb (fun a b => a &&& b) s
def execOr (t : Nat) (gd ga gb : Reg) (s : State) := aluOp (.or t gd ga gb) t gd ga gb (fun a b => a ||| b) s
def execXor (t : Nat) (gd ga gb : Reg) (s : State) := aluOp (.xor t gd ga gb) t gd ga gb (fun a b => a ^^^ b) s
def execSll (t : Nat) (gd ga gb : Reg) (s : State) :=
  aluOp (.sll t gd ga gb) t gd ga gb (fun a b => a <<< (b.toNat % 64)) s
def execSrl (t : Nat) (gd ga gb : Reg) (s : State) :=
  aluOp (.srl t gd ga gb) t gd ga gb (fun a b => a >>> (b.toNat % 64)) s
def execSra (t : Nat) (gd ga gb : Reg) (s : State) :=
  aluOp (.sra t gd ga gb) t gd ga gb (fun a b => a.sshiftRight (b.toNat % 64)) s
def execSlt (t : Nat) (gd ga gb : Reg) (s : State) := aluOp (.slt t gd ga gb) t gd ga gb (fun a b => bit64 (a.slt b)) s
def execSltu (t : Nat) (gd ga gb : Reg) (s : State) := aluOp (.sltu t gd ga gb) t gd ga gb (fun a b => bit64 (a.ult b)) s
def execMin (t : Nat) (gd ga gb : Reg) (s : State) :=
  aluOp (.min t gd ga gb) t gd ga gb (fun a b => if a.slt b then a else b) s
def execMax (t : Nat) (gd ga gb : Reg) (s : State) :=
  aluOp (.max t gd ga gb) t gd ga gb (fun a b => if a.slt b then b else a) s
def execMinu (t : Nat) (gd ga gb : Reg) (s : State) :=
  aluOp (.minu t gd ga gb) t gd ga gb (fun a b => if a.ult b then a else b) s
def execMaxu (t : Nat) (gd ga gb : Reg) (s : State) :=
  aluOp (.maxu t gd ga gb) t gd ga gb (fun a b => if a.ult b then b else a) s
def execMul (t : Nat) (gd ga gb : Reg) (s : State) := aluOp (.mul t gd ga gb) t gd ga gb (fun a b => a * b) s
def execMulh (t : Nat) (gd ga gb : Reg) (s : State) := aluOp (.mulh t gd ga gb) t gd ga gb mulHighS s
def execMulhu (t : Nat) (gd ga gb : Reg) (s : State) := aluOp (.mulhu t gd ga gb) t gd ga gb mulHighU s
def execDiv (t : Nat) (gd ga gb : Reg) (s : State) := aluOp (.div t gd ga gb) t gd ga gb divS s
def execDivu (t : Nat) (gd ga gb : Reg) (s : State) := aluOp (.divu t gd ga gb) t gd ga gb divU s
def execRem (t : Nat) (gd ga gb : Reg) (s : State) := aluOp (.rem t gd ga gb) t gd ga gb remS s
def execRemu (t : Nat) (gd ga gb : Reg) (s : State) := aluOp (.remu t gd ga gb) t gd ga gb remU s
def execPopc (t : Nat) (gd ga : Reg) (s : State) := immOp (.popc t gd ga) t gd ga popCount s
def execClz (t : Nat) (gd ga : Reg) (s : State) := immOp (.clz t gd ga) t gd ga leadZeros s
def execCtz (t : Nat) (gd ga : Reg) (s : State) := immOp (.ctz t gd ga) t gd ga trailZeros s

def execAddi (t : Nat) (gd ga : Reg) (imm : BitVec 16) (s : State) :=
  immOp (.addi t gd ga imm) t gd ga (fun a => a + imm.signExtend 64) s
def execAndi (t : Nat) (gd ga : Reg) (imm : BitVec 16) (s : State) :=
  immOp (.andi t gd ga imm) t gd ga (fun a => a &&& imm.setWidth 64) s
def execOri (t : Nat) (gd ga : Reg) (imm : BitVec 16) (s : State) :=
  immOp (.ori t gd ga imm) t gd ga (fun a => a ||| imm.setWidth 64) s
def execXori (t : Nat) (gd ga : Reg) (imm : BitVec 16) (s : State) :=
  immOp (.xori t gd ga imm) t gd ga (fun a => a ^^^ imm.setWidth 64) s
def execSlti (t : Nat) (gd ga : Reg) (imm : BitVec 16) (s : State) :=
  immOp (.slti t gd ga imm) t gd ga (fun a => bit64 (a.slt (imm.signExtend 64))) s
def execSltiu (t : Nat) (gd ga : Reg) (imm : BitVec 16) (s : State) :=
  immOp (.sltiu t gd ga imm) t gd ga (fun a => bit64 (a.ult (imm.signExtend 64))) s
def execSlli (t : Nat) (gd ga : Reg) (sh : BitVec 6) (s : State) :=
  immOp (.slli t gd ga sh) t gd ga (fun a => a <<< sh.toNat) s
def execSrli (t : Nat) (gd ga : Reg) (sh : BitVec 6) (s : State) :=
  immOp (.srli t gd ga sh) t gd ga (fun a => a >>> sh.toNat) s
def execSrai (t : Nat) (gd ga : Reg) (sh : BitVec 6) (s : State) :=
  immOp (.srai t gd ga sh) t gd ga (fun a => a.sshiftRight sh.toNat) s
def execLi (t : Nat) (gd : Reg) (imm : BitVec 16) (s : State) :=
  immOp (.li t gd imm) t gd 0 (fun _ => imm.signExtend 64) s
def execShori (t : Nat) (gd ga : Reg) (imm : BitVec 16) (s : State) :=
  immOp (.shori t gd ga imm) t gd ga (fun a => a <<< 16 ||| imm.setWidth 64) s

/-- pc + 4 x OFF as a 64-bit sum (R92, R102). -/
def branchTo {n : Nat} (pc : BitVec 48) (off : BitVec n) : Word := pc.setWidth 64 + BitVec.ofInt 64 (4 * off.toInt)

/-- Goes on at a target, if it is an address of 48 bits; else traps with ACCESS and has no effect (R92). -/
def jumpTo (s : State) (a : Word) : TRes := if fld a 63 48 != 0 then .trap .access a else .goto s (a.setWidth 48)

/-- A branch: taken or past (R102). -/
def branchOp (i : Instr) (t : Nat) (ga gb : Reg) (off : BitVec 16) (c : Word → Word → Bool) (s : State) :
    Host.Outcome State Fault Refusal :=
  s.run t 4 i fun s => if c (s.g t ga) (s.g t gb) then jumpTo s (branchTo (s.tile t).ctx.pc off) else .done s

def execBeq (t : Nat) (ga gb : Reg) (off : BitVec 16) (s : State) :=
  branchOp (.beq t ga gb off) t ga gb off (fun a b => a == b) s
def execBne (t : Nat) (ga gb : Reg) (off : BitVec 16) (s : State) :=
  branchOp (.bne t ga gb off) t ga gb off (fun a b => a != b) s
def execBlt (t : Nat) (ga gb : Reg) (off : BitVec 16) (s : State) :=
  branchOp (.blt t ga gb off) t ga gb off (fun a b => a.slt b) s
def execBge (t : Nat) (ga gb : Reg) (off : BitVec 16) (s : State) :=
  branchOp (.bge t ga gb off) t ga gb off (fun a b => !a.slt b) s
def execBltu (t : Nat) (ga gb : Reg) (off : BitVec 16) (s : State) :=
  branchOp (.bltu t ga gb off) t ga gb off (fun a b => a.ult b) s
def execBgeu (t : Nat) (ga gb : Reg) (off : BitVec 16) (s : State) :=
  branchOp (.bgeu t ga gb off) t ga gb off (fun a b => !a.ult b) s

def execJ (t : Nat) (off : BitVec 26) (s : State) :=
  s.run t 4 (.j t off) fun s => jumpTo s (branchTo (s.tile t).ctx.pc off)

/-- The address after a 4-byte instruction, as JAL and JR write it. -/
def linkOf (pc : BitVec 48) : Word := (pc + 4).setWidth 64

def execJal (t : Nat) (off : BitVec 26) (s : State) :=
  s.run t 4 (.jal t off) fun s =>
    let pc := (s.tile t).ctx.pc
    jumpTo (s.setG t 31 (linkOf pc)) (branchTo pc off)

/-- JR reads its target before it writes gd (assumption log 21); a target above 48 bits traps with ACCESS (R92). -/
def execJr (t : Nat) (gd ga : Reg) (s : State) :=
  s.run t 4 (.jr t gd ga) fun s =>
    let a := s.g t ga
    if fld a 63 48 != 0 then .trap .access a
    else if fld a 1 0 != 0 then .trap .misaligned a
    else .goto (s.setG t gd (linkOf (s.tile t).ctx.pc)) (a.setWidth 48)

/-- ILLEGAL (R97): the words at the pc are illegal ones; nothing but the trap. Words that are not illegal cannot raise it
(assumption log 4). -/
def execIllegalOpcode (t : Nat) (w0 w1 : BitVec 32) (s : State) : Host.Outcome State Fault Refusal :=
  if illegalWords w0 w1 then s.run t (wordLen w0) (.illegalOpcode t w0 w1) fun _ => .trap .illegal (w0.setWidth 64)
  else .next s

end Sys2Proof.Machine
end

