-- ==== Sys2Proof/Machine/System.lean ====
section
/-! DEFINITION. Control and status registers (R81, R119, R176, R194), traps by instruction and HALT (R123), random numbers
(R118). -/
namespace Sys2Proof.Machine

/-- CH_QSTAT_q (R176). -/
def State.qstat (s : State) (t q : Nat) : Word :=
  BitVec.ofNat 64 ((s.tile t).epoch.toNat * 2 ^ 48 + (s.queue t q).length)

/-- CH_WD_q as the running context sees it: the endpoint's for a primary, a context's own for a filler task
(assumption log 30). -/
def State.watchReg (s : State) (t n : Nat) : Word := if s.inFiller t then (s.tile t).ctx.cs n else s.cnt t n

/-- The handle SL_SEL names. -/
def State.slSel (s : State) (t : Nat) : Nat := fld ((s.tile t).ctx.cs 0x200) 11 0

/-- A count of the selected handle; with a handle not open for the tile the spec gives no value: a free value
(assumption log 30). -/
def State.slView (s : State) (t n : Nat) : Word :=
  let h := s.slSel t
  if !s.slOpenFor t h then Config.freeWord s.freeIdx
  else match n with
    | 0x201 => s.rg (slHob h) (slOff h + 0x20)
    | 0x202 => s.rg (slHob h) (slOff h + 0x28)
    | 0x203 => s.rg (slHob h) (slOff h + 0x30)
    | _ => s.slState h

/-- The value of CSR `n`; none for a number not listed. -/
def State.csrRead (s : State) (t n : Nat) : Option Word :=
  let x := s.tile t
  if n == 0 then some (BitVec.ofNat 64 (t / 96 * 2 ^ 16 + t))
  else if n == 1 then some (BitVec.ofNat 64 x.part)
  else if n == 2 then some (bit64 x.debug)
  else if n == 8 then some (BitVec.ofNat 64 (s.now (t / 96)))
  else if 0x10 ≤ n && n ≤ 0x14 then some (x.ctx.cs n)
  else if 0x20 ≤ n && n ≤ 0x23 then some (x.ctx.cs n)
  else if n == 0x24 then some x.mmaState
  else if 0x30 ≤ n && n ≤ 0x34 then some (x.ctx.cs n)
  else if 0x100 ≤ n && n < 0x110 then some (s.qstat t (n - 0x100))
  else if 0x110 ≤ n && n < 0x140 then some (s.cnt t n)
  else if 0x140 ≤ n && n < 0x150 then some (s.watchReg t n)
  else if 0x150 ≤ n && n < 0x164 then some (s.cnt t n)
  else if n == 0x200 then some (x.ctx.cs n)
  else if 0x201 ≤ n && n ≤ 0x204 then some (s.slView t n)
  else none
where
  bit64 (b : Bool) : Word := if b then 1 else 0

/-- The bits a write of CSR `n` keeps; none for an RO register. -/
def csrMask (n : Nat) : Option Word :=
  if n == 0x10 || n == 0x11 then some (maskOf 47 2)
  else if 0x20 ≤ n && n ≤ 0x23 then some (BitVec.allOnes 64)
  else if 0x30 ≤ n && n ≤ 0x33 then some (BitVec.allOnes 64)
  else if n == 0x34 then some (maskOf 6 0)
  else if 0x140 ≤ n && n < 0x150 then some (maskOf 63 62 ||| maskOf 31 0)
  else if n == 0x200 then some (maskOf 11 0)
  else none

/-- A write of CSR `n`; none where it traps (R119, R194). FIRED of CH_WD_q clears where 1 is written. -/
def State.csrWrite (s : State) (t n : Nat) (v : Word) : Option State :=
  match csrMask n with
  | none => none
  | some m =>
    if n == 0x200 && !s.slOpenFor t (fld v 11 0) then none
    else if 0x140 ≤ n && n < 0x150 then
      let fired := bitOf (s.watchReg t n) 32 && !bitOf v 32
      let w := setBit (v &&& m) 32 fired
      if s.inFiller t then
        let x := s.tile t
        some (s.setTile t { x with ctx := x.ctx.setCs n w })
      else some (s.setCnt t n w)
    else
      let x := s.tile t
      some (s.setTile t { x with ctx := x.ctx.setCs n (v &&& m) })

/-- One CSR instruction: the value written, if any, from the register's and ga's; gd takes the old value. -/
def csrOp (i : Instr) (t : Nat) (gd ga : Reg) (num : BitVec 12) (new : Option (Word → Word → Word)) (s : State) :
    Host.Outcome State Fault Refusal :=
  s.run t 4 i fun s =>
    let n := num.toNat
    let bad : TRes := .trap .csr (BitVec.ofNat 64 n)
    match s.csrRead t n with
    | none => bad
    | some old =>
      let s0 := if 0x201 ≤ n then { s with freeIdx := s.freeIdx + 1 } else s
      match new with
      | none => doneG s0 t gd old
      | some f =>
        match s0.csrWrite t n (f old (s.g t ga)) with
        | none => bad
        | some s' => doneG s' t gd old

def execCsrRd (t : Nat) (gd : Reg) (num : BitVec 12) (s : State) : Host.Outcome State Fault Refusal :=
  csrOp (.csrRd t gd num) t gd 0 num none s
def execCsrWr (t : Nat) (ga : Reg) (num : BitVec 12) (s : State) : Host.Outcome State Fault Refusal :=
  csrOp (.csrWr t ga num) t 0 ga num (some fun _ a => a) s
def execCsrSwap (t : Nat) (gd ga : Reg) (num : BitVec 12) (s : State) : Host.Outcome State Fault Refusal :=
  csrOp (.csrSwap t gd ga num) t gd ga num (some fun _ a => a) s
def execCsrSet (t : Nat) (gd ga : Reg) (num : BitVec 12) (s : State) : Host.Outcome State Fault Refusal :=
  csrOp (.csrSet t gd ga num) t gd ga num (some fun o a => o ||| a) s
def execCsrClr (t : Nat) (gd ga : Reg) (num : BitVec 12) (s : State) : Host.Outcome State Fault Refusal :=
  csrOp (.csrClr t gd ga num) t gd ga num (some fun o a => o &&& ~~~a) s

/-! SYS (R123). -/

def execTrap (t : Nat) (ga : Reg) (s : State) : Host.Outcome State Fault Refusal :=
  s.run t 4 (.trap t ga) fun s => .trap .software (s.g t ga)

/-- TRAP.RET: IN_HANDLER cleared, pc := TRAP_PC; outside a handler it traps with ILLEGAL. -/
def execTrapRet (t : Nat) (s : State) : Host.Outcome State Fault Refusal :=
  s.run t 4 (.trapRet t) fun s =>
    let x := s.tile t
    if !bitOf (x.ctx.cs 0x14) 0 then .trap .illegal (wordA 0x2D 1 0 0 0)
    else
      .goto (s.setTile t { x with ctx := x.ctx.setCs 0x14 (setBit (x.ctx.cs 0x14) 0 false) })
        ((x.ctx.cs 0x11).setWidth 48)

/-- HALT: waits as a FENCE of every class, then ends the tile's part, or the filler task (R208). -/
def execHalt (t : Nat) (s : State) : Host.Outcome State Fault Refusal :=
  s.run t 4 (.halt t) fun s =>
    if !s.fencePassed t 0x1FF then .wait s (s.fencePhase t 0x1FF)
    else if s.inFiller t then .gone (s.fillerEnd t)
    else .gone (s.tileEnded t true)

/-! RNG (R118). -/

/-- The bytes of drawn 16-bit values, low byte first. -/
def drawBytes (l : List Nat) : List Byte := l.flatMap (leBytes 2)

def State.setStream (s : State) (t : Nat) (o : OStream) : State :=
  let x := s.tile t
  s.setTile t { x with ctx := x.ctx.setOrStream o }

/-- RNG.GEN: operands out of range trap with ACCESS. -/
def execRngGen (t : Nat) (ga gb : Reg) (s : State) : Host.Outcome State Fault Refusal :=
  s.run t 4 (.rngGen t ga gb) fun s =>
    let a := (s.g t ga).toNat
    let n := (s.g t gb).toNat
    match s.outsideOwn t a n with
    | some b => .trap .access (BitVec.ofNat 64 b)
    | none =>
      if n % 16 != 0 || n < 16 || n > 65536 || a % 16 != 0 then .trap .access (s.g t ga)
      else
        let r := (s.tile t).ctx.orStream.draws (n / 2)
        .done ((s.setStream t r.2).writeSp a (drawBytes r.1))

/-- RNG.GEN.R: the next 64 bits. -/
def execRngGenR (t : Nat) (gd : Reg) (s : State) : Host.Outcome State Fault Refusal :=
  s.run t 4 (.rngGenR t gd) fun s =>
    let r := (s.tile t).ctx.orStream.draws 4
    doneG (s.setStream t r.2) t gd (BitVec.ofNat 64 (leNat (drawBytes r.1)))

end Sys2Proof.Machine
end

