-- ==== Sys2Proof/Machine/Dispatch.lean ====
section
/-! DEFINITION. The dispatch of commands to their meanings, one arm per constructor. -/
namespace Sys2Proof.Machine

def exec (i : Instr) (s : State) : Host.Outcome State Fault Refusal :=
  match i with
  | .add t gd ga gb => Sys2Proof.Machine.execAdd t gd ga gb s
  | .sub t gd ga gb => Sys2Proof.Machine.execSub t gd ga gb s
  | .and t gd ga gb => Sys2Proof.Machine.execAnd t gd ga gb s
  | .or t gd ga gb => Sys2Proof.Machine.execOr t gd ga gb s
  | .xor t gd ga gb => Sys2Proof.Machine.execXor t gd ga gb s
  | .sll t gd ga gb => Sys2Proof.Machine.execSll t gd ga gb s
  | .srl t gd ga gb => Sys2Proof.Machine.execSrl t gd ga gb s
  | .sra t gd ga gb => Sys2Proof.Machine.execSra t gd ga gb s
  | .slt t gd ga gb => Sys2Proof.Machine.execSlt t gd ga gb s
  | .sltu t gd ga gb => Sys2Proof.Machine.execSltu t gd ga gb s
  | .min t gd ga gb => Sys2Proof.Machine.execMin t gd ga gb s
  | .max t gd ga gb => Sys2Proof.Machine.execMax t gd ga gb s
  | .minu t gd ga gb => Sys2Proof.Machine.execMinu t gd ga gb s
  | .maxu t gd ga gb => Sys2Proof.Machine.execMaxu t gd ga gb s
  | .mul t gd ga gb => Sys2Proof.Machine.execMul t gd ga gb s
  | .mulh t gd ga gb => Sys2Proof.Machine.execMulh t gd ga gb s
  | .mulhu t gd ga gb => Sys2Proof.Machine.execMulhu t gd ga gb s
  | .div t gd ga gb => Sys2Proof.Machine.execDiv t gd ga gb s
  | .divu t gd ga gb => Sys2Proof.Machine.execDivu t gd ga gb s
  | .rem t gd ga gb => Sys2Proof.Machine.execRem t gd ga gb s
  | .remu t gd ga gb => Sys2Proof.Machine.execRemu t gd ga gb s
  | .popc t gd ga => Sys2Proof.Machine.execPopc t gd ga s
  | .clz t gd ga => Sys2Proof.Machine.execClz t gd ga s
  | .ctz t gd ga => Sys2Proof.Machine.execCtz t gd ga s
  | .addi t gd ga imm => Sys2Proof.Machine.execAddi t gd ga imm s
  | .andi t gd ga imm => Sys2Proof.Machine.execAndi t gd ga imm s
  | .ori t gd ga imm => Sys2Proof.Machine.execOri t gd ga imm s
  | .xori t gd ga imm => Sys2Proof.Machine.execXori t gd ga imm s
  | .slti t gd ga imm => Sys2Proof.Machine.execSlti t gd ga imm s
  | .sltiu t gd ga imm => Sys2Proof.Machine.execSltiu t gd ga imm s
  | .slli t gd ga sh => Sys2Proof.Machine.execSlli t gd ga sh s
  | .srli t gd ga sh => Sys2Proof.Machine.execSrli t gd ga sh s
  | .srai t gd ga sh => Sys2Proof.Machine.execSrai t gd ga sh s
  | .li t gd imm => Sys2Proof.Machine.execLi t gd imm s
  | .shori t gd ga imm => Sys2Proof.Machine.execShori t gd ga imm s
  | .beq t ga gb off => Sys2Proof.Machine.execBeq t ga gb off s
  | .bne t ga gb off => Sys2Proof.Machine.execBne t ga gb off s
  | .blt t ga gb off => Sys2Proof.Machine.execBlt t ga gb off s
  | .bge t ga gb off => Sys2Proof.Machine.execBge t ga gb off s
  | .bltu t ga gb off => Sys2Proof.Machine.execBltu t ga gb off s
  | .bgeu t ga gb off => Sys2Proof.Machine.execBgeu t ga gb off s
  | .j t off => Sys2Proof.Machine.execJ t off s
  | .jal t off => Sys2Proof.Machine.execJal t off s
  | .jr t gd ga => Sys2Proof.Machine.execJr t gd ga s
  | .illegalOpcode t w0 w1 => Sys2Proof.Machine.execIllegalOpcode t w0 w1 s
  | .ldB t gd ga imm => Sys2Proof.Machine.execLdB t gd ga imm s
  | .ldBu t gd ga imm => Sys2Proof.Machine.execLdBu t gd ga imm s
  | .ldH t gd ga imm => Sys2Proof.Machine.execLdH t gd ga imm s
  | .ldHu t gd ga imm => Sys2Proof.Machine.execLdHu t gd ga imm s
  | .ldW t gd ga imm => Sys2Proof.Machine.execLdW t gd ga imm s
  | .ldWu t gd ga imm => Sys2Proof.Machine.execLdWu t gd ga imm s
  | .ldD t gd ga imm => Sys2Proof.Machine.execLdD t gd ga imm s
  | .stB t gd ga imm => Sys2Proof.Machine.execStB t gd ga imm s
  | .stH t gd ga imm => Sys2Proof.Machine.execStH t gd ga imm s
  | .stW t gd ga imm => Sys2Proof.Machine.execStW t gd ga imm s
  | .stD t gd ga imm => Sys2Proof.Machine.execStD t gd ga imm s
  | .l1LineFillComplete t line => Sys2Proof.Machine.execL1LineFillComplete t line s
  | .cacheWb t ga gb => Sys2Proof.Machine.execCacheWb t ga gb s
  | .cacheInv t ga gb => Sys2Proof.Machine.execCacheInv t ga gb s
  | .cacheWbinv t ga gb => Sys2Proof.Machine.execCacheWbinv t ga gb s
  | .fence t fn => Sys2Proof.Machine.execFence t fn s
  | .csrRd t gd num => Sys2Proof.Machine.execCsrRd t gd num s
  | .csrWr t ga num => Sys2Proof.Machine.execCsrWr t ga num s
  | .csrSwap t gd ga num => Sys2Proof.Machine.execCsrSwap t gd ga num s
  | .csrSet t gd ga num => Sys2Proof.Machine.execCsrSet t gd ga num s
  | .csrClr t gd ga num => Sys2Proof.Machine.execCsrClr t gd ga num s
  | .trap t ga => Sys2Proof.Machine.execTrap t ga s
  | .trapRet t => Sys2Proof.Machine.execTrapRet t s
  | .halt t => Sys2Proof.Machine.execHalt t s
  | .dmaIssue t gd ga pick => Sys2Proof.Machine.execDmaIssue t gd ga pick s
  | .dmaWait t gd ga => Sys2Proof.Machine.execDmaWait t gd ga s
  | .dmaPoll t gd ga => Sys2Proof.Machine.execDmaPoll t gd ga s
  | .dmaTransferComplete t tag flips => Sys2Proof.Machine.execDmaTransferComplete t tag flips s
  | .mmaLoad t ga gb gc mod => Sys2Proof.Machine.execMmaLoad t ga gb gc mod s
  | .mmaStream t gd ga gb gc mod => Sys2Proof.Machine.execMmaStream t gd ga gb gc mod s
  | .mmaDrain t ga gb gc mod => Sys2Proof.Machine.execMmaDrain t ga gb gc mod s
  | .mmaDrainDbg t ga mod => Sys2Proof.Machine.execMmaDrainDbg t ga mod s
  | .mmaLoadComplete t ix => Sys2Proof.Machine.execMmaLoadComplete t ix s
  | .mmaStreamComplete t ix => Sys2Proof.Machine.execMmaStreamComplete t ix s
  | .mmaDrainComplete t ix => Sys2Proof.Machine.execMmaDrainComplete t ix s
  | .arrayGate t a => Sys2Proof.Machine.execArrayGate t a s
  | .vecRun t ga gb => Sys2Proof.Machine.execVecRun t ga gb s
  | .vecRunComplete t => Sys2Proof.Machine.execVecRunComplete t s
  | .rngGen t ga gb => Sys2Proof.Machine.execRngGen t ga gb s
  | .rngGenR t gd => Sys2Proof.Machine.execRngGenR t gd s
  | .chSend t ga gb => Sys2Proof.Machine.execChSend t ga gb s
  | .chRecv t gd ga gb => Sys2Proof.Machine.execChRecv t gd ga gb s
  | .chTry t gd ga gb => Sys2Proof.Machine.execChTry t gd ga gb s
  | .chSelectP t gd ga => Sys2Proof.Machine.execChSelectP t gd ga s
  | .chSelectR t gd ga => Sys2Proof.Machine.execChSelectR t gd ga s
  | .chMessageArrival ix => Sys2Proof.Machine.execChMessageArrival ix s
  | .chAcceptance ix => Sys2Proof.Machine.execChAcceptance ix s
  | .chDiscardNotice ix => Sys2Proof.Machine.execChDiscardNotice ix s
  | .chRetry ix => Sys2Proof.Machine.execChRetry ix s
  | .chWatchdogFire t q => Sys2Proof.Machine.execChWatchdogFire t q s
  | .sqPush t ga gb => Sys2Proof.Machine.execSqPush t ga gb s
  | .sqPop t gd ga gb => Sys2Proof.Machine.execSqPop t gd ga gb s
  | .sqRel t ga gb => Sys2Proof.Machine.execSqRel t ga gb s
  | .slHeaderArrival ix => Sys2Proof.Machine.execSlHeaderArrival ix s
  | .slDataArrival ix n => Sys2Proof.Machine.execSlDataArrival ix n s
  | .slCreditArrival ix => Sys2Proof.Machine.execSlCreditArrival ix s
  | .slCreditFlush l => Sys2Proof.Machine.execSlCreditFlush l s
  | .slOpen h v => Sys2Proof.Machine.execSlOpen h v s
  | .slClose h v => Sys2Proof.Machine.execSlClose h v s
  | .alGet t gd ga => Sys2Proof.Machine.execAlGet t gd ga s
  | .alGetP t gd ga => Sys2Proof.Machine.execAlGetP t gd ga s
  | .alPin t ga gb => Sys2Proof.Machine.execAlPin t ga gb s
  | .alUnpin t ga gb => Sys2Proof.Machine.execAlUnpin t ga gb s
  | .alCommit t gd ga => Sys2Proof.Machine.execAlCommit t gd ga s
  | .alGroupValidate g v => Sys2Proof.Machine.execAlGroupValidate g v s
  | .alGroupEnd g v => Sys2Proof.Machine.execAlGroupEnd g v s
  | .almanacBlockReport ix => Sys2Proof.Machine.execAlmanacBlockReport ix s
  | .mirrorCopyArrival g ver => Sys2Proof.Machine.execMirrorCopyArrival g ver s
  | .mirrorAck g ver => Sys2Proof.Machine.execMirrorAck g ver s
  | .fillerTaskStart t => Sys2Proof.Machine.execFillerTaskStart t s
  | .fillerBoundExpiry t => Sys2Proof.Machine.execFillerBoundExpiry t s
  | .filCtlWrite t v => Sys2Proof.Machine.execFilCtlWrite t v s
  | .rxContrib t gd ga gb gc => Sys2Proof.Machine.execRxContrib t gd ga gb gc s
  | .rxRelease t ga gb => Sys2Proof.Machine.execRxRelease t ga gb s
  | .rxWait t gd ga gb => Sys2Proof.Machine.execRxWait t gd ga gb s
  | .rxApply t ga gb gc => Sys2Proof.Machine.execRxApply t ga gb gc s
  | .rxGnorm t gd ga gb gc => Sys2Proof.Machine.execRxGnorm t gd ga gb gc s
  | .rxGrantRequest h shard member step => Sys2Proof.Machine.execRxGrantRequest h shard member step s
  | .rxGrant h shard member step => Sys2Proof.Machine.execRxGrant h shard member step s
  | .raccWriteArrival h shard member step pos => Sys2Proof.Machine.execRaccWriteArrival h shard member step pos s
  | .msaApplyStart h => Sys2Proof.Machine.execMsaApplyStart h s
  | .msaApplyBlockDone h shard => Sys2Proof.Machine.execMsaApplyBlockDone h shard s
  | .gnormForm step norm2 => Sys2Proof.Machine.execGnormForm step norm2 s
  | .rxCollectiveValidate h v => Sys2Proof.Machine.execRxCollectiveValidate h v s
  | .rxCollectiveDiscard h v => Sys2Proof.Machine.execRxCollectiveDiscard h v s
  | .exDispatch t ga gb gc => Sys2Proof.Machine.execExDispatch t ga gb gc s
  | .exCombine t ga gb gc => Sys2Proof.Machine.execExCombine t ga gb gc s
  | .exchRecordArrival h ix far => Sys2Proof.Machine.execExchRecordArrival h ix far s
  | .exchDropNotice h srcTile round index engine => Sys2Proof.Machine.execExchDropNotice h srcTile round index engine s
  | .exchEndMark h engine round dest => Sys2Proof.Machine.execExchEndMark h engine round dest s
  | .exchReturnArrival h ix far => Sys2Proof.Machine.execExchReturnArrival h ix far s
  | .exHandleValidate h v => Sys2Proof.Machine.execExHandleValidate h v s
  | .exHandleDiscard h v => Sys2Proof.Machine.execExHandleDiscard h v s
  | .data port d => Sys2Proof.Machine.execData port d s
  | .probe port d => Sys2Proof.Machine.execProbe port d s
  | .ingCreditTimer st => Sys2Proof.Machine.execIngCreditTimer st s
  | .ingAddressResolution port v6 addr => Sys2Proof.Machine.execIngAddressResolution port v6 addr s
  | .reasmTimeout st index => Sys2Proof.Machine.execReasmTimeout st index s
  | .decodeStart st index => Sys2Proof.Machine.execDecodeStart st index s
  | .slowDecoderMove st index => Sys2Proof.Machine.execSlowDecoderMove st index s
  | .dropLimit st index => Sys2Proof.Machine.execDropLimit st index s
  | .sampleComplete st index => Sys2Proof.Machine.execSampleComplete st index s
  | .mixPartnerArrival st index => Sys2Proof.Machine.execMixPartnerArrival st index s
  | .pantryEnable v => Sys2Proof.Machine.execPantryEnable v s
  | .pantryDisable v => Sys2Proof.Machine.execPantryDisable v s
  | .ingStreamEnable st v => Sys2Proof.Machine.execIngStreamEnable st v s
  | .ingStreamDisable st v => Sys2Proof.Machine.execIngStreamDisable st v s
  | .rawConsumedPoll st => Sys2Proof.Machine.execRawConsumedPoll st s
  | .tokDictLoad v => Sys2Proof.Machine.execTokDictLoad v s
  | .tokDictLoadComplete => Sys2Proof.Machine.execTokDictLoadComplete s
  | .dramRead req addr len errs => Sys2Proof.Machine.execDramRead req addr len errs s
  | .dramWrite req addr bytes => Sys2Proof.Machine.execDramWrite req addr bytes s
  | .ceWindowRoll m c => Sys2Proof.Machine.execCeWindowRoll m c s
  | .scrubPass m found => Sys2Proof.Machine.execScrubPass m found s
  | .refreshTierSample m temp => Sys2Proof.Machine.execRefreshTierSample m temp s
  | .refreshTierDown m => Sys2Proof.Machine.execRefreshTierDown m s
  | .channelPeriodicRetrain m c ok => Sys2Proof.Machine.execChannelPeriodicRetrain m c ok s
  | .channelFailed m c => Sys2Proof.Machine.execChannelFailed m c s
  | .memMapoutWrite m v => Sys2Proof.Machine.execMemMapoutWrite m v s
  | .remapComplete m => Sys2Proof.Machine.execRemapComplete m s
  | .memOwnWrite m w v => Sys2Proof.Machine.execMemOwnWrite m w v s
  | .lkEnable l v => Sys2Proof.Machine.execLkEnable l v s
  | .lkDisable l v epoch => Sys2Proof.Machine.execLkDisable l v epoch s
  | .lkCtlRetrain l => Sys2Proof.Machine.execLkCtlRetrain l s
  | .lkCtlReset l epoch => Sys2Proof.Machine.execLkCtlReset l epoch s
  | .lkDetectRepeat l => Sys2Proof.Machine.execLkDetectRepeat l s
  | .lkPeerDetected l => Sys2Proof.Machine.execLkPeerDetected l s
  | .lkEqDone l storedOk => Sys2Proof.Machine.execLkEqDone l storedOk s
  | .lkLaneDone l txGood rxGood => Sys2Proof.Machine.execLkLaneDone l txGood rxGood s
  | .lkAlignDone l => Sys2Proof.Machine.execLkAlignDone l s
  | .lkTrainTimeout l => Sys2Proof.Machine.execLkTrainTimeout l s
  | .lkRetrainDone l txGood rxGood => Sys2Proof.Machine.execLkRetrainDone l txGood rxGood s
  | .ident l c trusted => Sys2Proof.Machine.execIdent l c trusted s
  | .retrainReq l c => Sys2Proof.Machine.execRetrainReq l c s
  | .retrainGo l c => Sys2Proof.Machine.execRetrainGo l c s
  | .rerouteReq l c => Sys2Proof.Machine.execRerouteReq l c s
  | .rerouteState l c => Sys2Proof.Machine.execRerouteState l c s
  | .linkReturn l c => Sys2Proof.Machine.execLinkReturn l c s
  | .lkLinkctlRepeat l => Sys2Proof.Machine.execLkLinkctlRepeat l s
  | .lkRetrainReqTimeout l => Sys2Proof.Machine.execLkRetrainReqTimeout l s
  | .lkCellSlot l => Sys2Proof.Machine.execLkCellSlot l s
  | .lkDataCellRx l c => Sys2Proof.Machine.execLkDataCellRx l c s
  | .lkAckCellRx l c => Sys2Proof.Machine.execLkAckCellRx l c s
  | .lkIdleAckTimer l => Sys2Proof.Machine.execLkIdleAckTimer l s
  | .lkRetxTimeout l => Sys2Proof.Machine.execLkRetxTimeout l s
  | .lkFecLockLoss l => Sys2Proof.Machine.execLkFecLockLoss l s
  | .lkDamageLimit l => Sys2Proof.Machine.execLkDamageLimit l s
  | .lkLaneFecLimit l lane => Sys2Proof.Machine.execLkLaneFecLimit l lane s
  | .lkAuthLimit l => Sys2Proof.Machine.execLkAuthLimit l s
  | .lkRefStart l v => Sys2Proof.Machine.execLkRefStart l v s
  | .lkRefAckHoldEnd l => Sys2Proof.Machine.execLkRefAckHoldEnd l s
  | .d2dTrainResult d m own peer ownBack peerBack => Sys2Proof.Machine.execD2dTrainResult d m own peer ownBack peerBack s
  | .d2dCtlRetrain d m => Sys2Proof.Machine.execD2dCtlRetrain d m s
  | .d2dCrcLimit d m => Sys2Proof.Machine.execD2dCrcLimit d m s
  | .resetGuest lost => Sys2Proof.Machine.execResetGuest lost s
  | .resetMdl => Sys2Proof.Machine.execResetMdl s
  | .crossingResyncDone q => Sys2Proof.Machine.execCrossingResyncDone q s
  | .fwGuestRequest op addr len bytes => Sys2Proof.Machine.execFwGuestRequest op addr len bytes s
  | .fwWinWrite n w v => Sys2Proof.Machine.execFwWinWrite n w v s
  | .repRetireWrite v => Sys2Proof.Machine.execRepRetireWrite v s
  | .bypass => Sys2Proof.Machine.execBypass s
  | .idcode => Sys2Proof.Machine.execIdcode s
  | .samplePreload => Sys2Proof.Machine.execSamplePreload s
  | .extest => Sys2Proof.Machine.execExtest s
  | .clamp => Sys2Proof.Machine.execClamp s
  | .highz => Sys2Proof.Machine.execHighz s
  | .testUnlock sigOk => Sys2Proof.Machine.execTestUnlock sigOk s
  | .partValidate p v => Sys2Proof.Machine.execPartValidate p v s
  | .partInvalidate p v => Sys2Proof.Machine.execPartInvalidate p v s
  | .placingComplete p => Sys2Proof.Machine.execPlacingComplete p s
  | .endingComplete p => Sys2Proof.Machine.execEndingComplete p s
  | .fenceComplete p => Sys2Proof.Machine.execFenceComplete p s
  | .regTokenCredit mer p ix ns => Sys2Proof.Machine.execRegTokenCredit mer p ix ns s
  | .regCfgWrite mer p ix v => Sys2Proof.Machine.execRegCfgWrite mer p ix v s
  | .faultReport ix => Sys2Proof.Machine.execFaultReport ix s
  | .fcLineWord die line rails ix => Sys2Proof.Machine.execFcLineWord die line rails ix s
  | .fcLineWordTimeout die line => Sys2Proof.Machine.execFcLineWordTimeout die line s
  | .fcLineSilence die line => Sys2Proof.Machine.execFcLineSilence die line s
  | .fcLineTestWord die line => Sys2Proof.Machine.execFcLineTestWord die line s
  | .fcHeartbeat die => Sys2Proof.Machine.execFcHeartbeat die s
  | .fcPathTimeout die => Sys2Proof.Machine.execFcPathTimeout die s
  | .fcClearRecord r => Sys2Proof.Machine.execFcClearRecord r s
  | .fcClearAll => Sys2Proof.Machine.execFcClearAll s
  | .errnRefresh => Sys2Proof.Machine.execErrnRefresh s
  | .paceLoopPass die gray tjs powerW => Sys2Proof.Machine.execPaceLoopPass die gray tjs powerW s
  | .replicaFail die => Sys2Proof.Machine.execReplicaFail die s
  | .pkgPowerRedivision powers avg => Sys2Proof.Machine.execPkgPowerRedivision powers avg s
  | .excursionExhausted => Sys2Proof.Machine.execExcursionExhausted s
  | .excursionWindowEnd => Sys2Proof.Machine.execExcursionWindowEnd s
  | .pwrEnRise => Sys2Proof.Machine.execPwrEnRise s
  | .railsInRegulation => Sys2Proof.Machine.execRailsInRegulation s
  | .resetNRise epochs => Sys2Proof.Machine.execResetNRise epochs s
  | .resetNFall => Sys2Proof.Machine.execResetNFall s
  | .pwrEnFall => Sys2Proof.Machine.execPwrEnFall s
  | .inputOutOfRange mv => Sys2Proof.Machine.execInputOutOfRange mv s
  | .thermalTrip die => Sys2Proof.Machine.execThermalTrip die s
  | .converterOvertemp => Sys2Proof.Machine.execConverterOvertemp s
  | .bootRomDone reading => Sys2Proof.Machine.execBootRomDone reading s
  | .rotStageDone rpmbOk => Sys2Proof.Machine.execRotStageDone rpmbOk s
  | .memTrainingDone failed unverified => Sys2Proof.Machine.execMemTrainingDone failed unverified s
  | .selfTestDone found => Sys2Proof.Machine.execSelfTestDone found s
  | .osImageVerified => Sys2Proof.Machine.execOsImageVerified s
  | .ready => Sys2Proof.Machine.execReady s
  | .mgmtAddressResolution kind addr => Sys2Proof.Machine.execMgmtAddressResolution kind addr s
  | .status req => Sys2Proof.Machine.execStatus req s
  | .resultRead req => Sys2Proof.Machine.execResultRead req s
  | .resultAck req => Sys2Proof.Machine.execResultAck req s
  | .blobOpen req => Sys2Proof.Machine.execBlobOpen req s
  | .blobWrite req => Sys2Proof.Machine.execBlobWrite req s
  | .blobRead req => Sys2Proof.Machine.execBlobRead req s
  | .blobFree req => Sys2Proof.Machine.execBlobFree req s
  | .jobStart req => Sys2Proof.Machine.execJobStart req s
  | .jobStop req => Sys2Proof.Machine.execJobStop req s
  | .jobFence req => Sys2Proof.Machine.execJobFence req s
  | .partSet req => Sys2Proof.Machine.execPartSet req s
  | .mapout req => Sys2Proof.Machine.execMapout req s
  | .retire req => Sys2Proof.Machine.execRetire req s
  | .quote req => Sys2Proof.Machine.execQuote req s
  | .powerCap req => Sys2Proof.Machine.execPowerCap req s
  | .recordsRead req => Sys2Proof.Machine.execRecordsRead req s
  | .recordsClear req => Sys2Proof.Machine.execRecordsClear req s
  | .fwUpload req => Sys2Proof.Machine.execFwUpload req s
  | .svnCommit req => Sys2Proof.Machine.execSvnCommit req s
  | .netSet req => Sys2Proof.Machine.execNetSet req s
  | .recoverWrite req => Sys2Proof.Machine.execRecoverWrite req s
  | .recoverCommit req => Sys2Proof.Machine.execRecoverCommit req s
  | .powerOff req => Sys2Proof.Machine.execPowerOff req s
  | .smbJunctionMax q => Sys2Proof.Machine.execSmbJunctionMax q s
  | .smbStackMax q => Sys2Proof.Machine.execSmbStackMax q s
  | .smbPower q => Sys2Proof.Machine.execSmbPower q s
  | .smbVoltage q => Sys2Proof.Machine.execSmbVoltage q s
  | .smbFlags q => Sys2Proof.Machine.execSmbFlags q s
  | .smbDieJunction q d => Sys2Proof.Machine.execSmbDieJunction q d s
  | .smbStackSensor q m => Sys2Proof.Machine.execSmbStackSensor q m s
  | .smbWriteNack q cmd bytes => Sys2Proof.Machine.execSmbWriteNack q cmd bytes s
  | .registerWrite die off v => Sys2Proof.Machine.execRegisterWrite die off v s
  | .inputAboveTurnOn mv => Sys2Proof.Machine.execInputAboveTurnOn mv s
  | .lossOfAlignment l => Sys2Proof.Machine.execLossOfAlignment l s
  | .longOperationComplete cmdId rpmbOk => Sys2Proof.Machine.execLongOperationComplete cmdId rpmbOk s
  | .tileReset t => Sys2Proof.Machine.execTileReset t s

end Sys2Proof.Machine
end

