-- ==== Sys2Proof/Safety.lean ====
section
/-! DEFINITION. What counts as a well-kept state and a safe run, in the terms the statements use. -/
namespace Sys2Proof

/-- All keys of a table lie above `lo` and rise strictly. -/
def Tab.wfFrom {α : Type} : Option Nat → Tab α → Bool
  | _, [] => true
  | lo, (k, _) :: r => (match lo with | none => true | some l => decide (l < k)) && Tab.wfFrom (some k) r

/-- The canonical form of a table: keys strictly rising. -/
def Tab.wf {α : Type} (t : Tab α) : Bool := Tab.wfFrom none t

namespace Machine

/-- The memory and the register space are in canonical form, so that equal contents are equal data. -/
def State.canonical (s : State) : Bool := Mem.wf s.mem && Tab.wf s.regs

/-- Two states are of one part: what is fixed with the part is the same (R1, R2, R333). -/
def State.samePart (s t : State) : Prop := t.variant = s.variant ∧ t.romKey = s.romKey ∧ t.guestId = s.guestId ∧ t.caps = s.caps

/-- The state after `n` steps, where none stops. -/
def State.runs : Nat → State → Option State
  | 0, s => some s
  | n + 1, s =>
    match step s with
    | .next t => State.runs n t
    | _ => none

/-- A run of `n` steps is safe if no step of it stops. -/
def State.safeFor (n : Nat) (s : State) : Bool := (s.runs n).isSome

/-! The terms of the statements about tiles. -/

/-- Tile `t` may run its next instruction, `len` bytes long: its part runs, it waits in none, and the instruction's bytes lie
in its partition's DRAM (R93, R124). -/
def State.ready (s : State) (t len : Nat) : Bool :=
  let x := s.tile t
  x.live && !x.ending && x.ctx.wait.isNone && s.inDramOf x.part x.ctx.pc.toNat len

/-- The state with tile `t`'s pc at `pc` and nothing else changed. -/
def State.atPc (s : State) (t : Nat) (pc : BitVec 48) : State :=
  let x := s.tile t
  s.setTile t { x with ctx := { x.ctx with pc := pc, wait := none } }

/-- The state with tile `t`'s pc moved past an instruction of `len` bytes. -/
def State.past (s : State) (t len : Nat) : State := s.atPc t ((s.tile t).ctx.pc + BitVec.ofNat 48 len)

/-- The state with `v` in register `r` of tile `t`, g0 keeping nothing, and the pc moved on by `len` bytes. -/
def State.result (s : State) (t len : Nat) (r : Reg) (v : Word) : State :=
  let x := s.tile t
  s.setTile t { x with ctx := { x.ctx.setReg r v with pc := x.ctx.pc + BitVec.ofNat 48 len, wait := none } }

/-- An instruction of `len` bytes of tile `t` has completed with `v` in register `r`, g0 keeping nothing: the other registers
are as before, the pc is past it, it waits in nothing. -/
def State.wrote (s t' : State) (t len : Nat) (r : Reg) (v : Word) : Prop :=
  t'.g t r = (if r = 0 then 0 else v) ∧ (∀ q : Reg, q ≠ r → t'.g t q = s.g t q) ∧
    (t'.tile t).ctx.pc = (s.tile t).ctx.pc + BitVec.ofNat 48 len ∧ (t'.tile t).ctx.wait = none

/-- An instruction of `len` bytes of tile `t` has completed and written no register. -/
def State.passed (s t' : State) (t len : Nat) : Prop :=
  (∀ q : Reg, t'.g t q = s.g t q) ∧
    (t'.tile t).ctx.pc = (s.tile t).ctx.pc + BitVec.ofNat 48 len ∧ (t'.tile t).ctx.wait = none

/-- Nothing but tile `t` differs. -/
def State.sameElse (s t' : State) (t : Nat) : Prop :=
  { t' with tiles := s.tiles } = s ∧ ∀ u : Nat, u ≠ t → t'.tile u = s.tile u

/-- A trap of tile `t` would enter its handler: TRAP_VEC names one and none is running (R121). -/
def State.hasHandler (s : State) (t : Nat) : Bool :=
  !bitOf ((s.tile t).ctx.cs 0x14) 0 && (s.tile t).ctx.cs 0x10 != 0

/-- Tile `t` has entered its trap handler (R121): TRAP_PC, TRAP_CAUSE, TRAP_VALUE and TRAP_STATUS are saved, the pc is TRAP_VEC,
and registers, other CSRs, other tiles and everything else are as before. -/
def State.entered (s t' : State) (t len code : Nat) (v : Word) : Prop :=
  let x := (s.tile t).ctx
  let y := (t'.tile t).ctx
  y.pc = (x.cs 0x10).setWidth 48 ∧ y.cs 0x11 = x.pc.setWidth 64 ∧ y.cs 0x12 = BitVec.ofNat 64 code ∧ y.cs 0x13 = v ∧
    y.cs 0x14 = (if len = 8 then 3 else 1) ∧ (∀ n : Nat, n < 0x11 ∨ 0x14 < n → y.cs n = x.cs n) ∧
    (∀ q : Reg, t'.g t q = s.g t q) ∧ y.wait = none ∧ s.sameElse t' t

/-- `n` bytes from `a`, aligned, that tile `t` may load from or store to in its own scratchpad now: inside what its running
context may use, no unit of them in error, and no cut-through byte of them still owed (R103, R127, R193). -/
def State.ownBytes (s : State) (t : Nat) (a : Word) (n : Nat) : Bool :=
  decide (a.toNat < 0x300000000000) && spTile a.toNat == some t && decide (t < 768) && s.tilePresent t
    && (s.outsideOwn t a.toNat n).isNone && decide (a.toNat % n = 0) && decide (s.spErr.val 0 (a.toNat / 16) = 0)
    && !s.cutPending a.toNat n

/-- No bandwidth regulator of partition `p` is on (R356). -/
abbrev State.unregulated (s : State) (p : Nat) : Prop :=
  ∀ i : Nat, i < 25 → s.rb dieMerA (regOff p i) 63 = false ∧ s.rb dieMerB (regOff p i) 63 = false

/-- The codewords of the `n` bytes of DRAM from `a` are served to `p`, on channels that answer, with no error, and stored under their
owner's key or never written. -/
abbrev State.sound (s : State) (p a n : Nat) : Prop :=
  ∀ cw ∈ List.range' (a / 64) ((a + n + 63) / 64 - a / 64),
    s.memRefused p (cw * 64) = false ∧ s.chState (cw * 64 / 2 ^ 36) (s.chanOf (cw * 64)) ≠ 2 ∧ s.cwErr.val 0 cw = 0 ∧
      (s.cwKey.val 0 cw = 0 ∨ s.cwKey.val 0 cw = s.keyOf (s.owner (cw * 64)))

/-- The `n` bytes of DRAM from `a` are taken from `p` as it writes them and read as they stand: no regulator of it is on, and each codeword
is served without error (R288, R295, R356). -/
abbrev State.served (s : State) (p a n : Nat) : Prop :=
  s.canonical = true ∧ s.unregulated p ∧ s.sound p a n ∧ a + n ≤ dramTop

/-- DRAM reads as byte `b` at `a` to partition `p`. -/
def State.dramIs (s : State) (p a : Nat) (b : Byte) : Prop := (s.readDram p a 1).1 = [some b]

/-- `n` bytes from `a`, aligned, that tile `t` may load from or store to in its partition's DRAM (R103, R281). -/
def State.dramBytes (s : State) (t : Nat) (a : Word) (n : Nat) : Bool :=
  isDram a.toNat && (spTile a.toNat).isNone && s.stackPresent (a.toNat / 2 ^ 36) && s.inDramOf (s.tile t).part a.toNat n
    && decide (a.toNat % n = 0)

end Machine
end Sys2Proof
end

