-- ==== Sys2Proof/Certificates/Slice0/Obligations.lean ====
section
/-! DEFINITION. The statements for the provers. -/

open Sys2Proof Sys2Proof.Machine

/-- Reset is canonical. The memory and the register space of the reset state are in canonical form. -/
def Obligations.ResetCanonical : Prop :=
  State.reset.canonical = true

/-- A step runs the command at the front. For every command c and state s, a step of s with c at the front of its
queue is exec of c on s with the rest of the queue. -/
def Obligations.StepRunsFront : Prop :=
  ∀ (c : Instr) (rest : List Instr) (s : State),
    step { s with pending := c :: rest } = exec c { s with pending := rest }

/-- A step on an empty queue is one nanosecond. With nothing waiting, a step answers a next state in which the local
counter of every die of the variant has moved on by one, modulo 2^64, where the package is powered and its counters
have started, the time that PWR_OK has been high has too, up to 1 ms, while it is high, no eMMC write is under way any
more, and every other field is as before. That a step of the empty queue is a nanosecond, and that an eMMC write lasts
until one, are choices of the model (assumption logs 5 and 71); that the counter is 64 bits wide and counts
nanoseconds is R35. -/
def Obligations.StepIdleCounts : Prop :=
  ∀ s : State, s.pending = [] →
    ∃ t, step s = .next t ∧
      { t with ns := s.ns, pins := { t.pins with okNs := s.pins.okNs }, emmc := { t.emmc with writing := s.emmc.writing } } = s ∧
      t.pins.okNs = (if s.pins.pwrOk then min 1000000 (s.pins.okNs + 1) else s.pins.okNs) ∧ t.emmc.writing = none ∧
      ∀ d : Nat, (t.ns.val 0 d) =
        if s.pins.powered && s.pins.counting && decide (d < 12) && s.diePresent d then (s.ns.val 0 d + 1) % 2 ^ 64
        else s.ns.val 0 d

/-- What every step keeps. For every state whose memory and register space are canonical, a step that answers a next
state gives one whose memory and register space are canonical, whose queue is the rest of the queue, and whose
variant, boot ROM key, guest identity and die capability words are the same. -/
def Obligations.EveryStepKeeps : Prop :=
  ∀ s t : State, s.canonical = true → step s = .next t →
    t.canonical = true ∧ t.pending = s.pending.tail ∧ s.samePart t

/-- Sums, logic, shifts, comparisons and bit counts. On a tile that may run its next instruction, ADD, SUB, AND, OR,
XOR, SLL, SRL and SRA complete with gd := ga op gb on 64-bit values, the shift amount being gb[5:0], and the pc 4
bytes on; a write of g0 is discarded; nothing else changes. On a tile that may run its next instruction, SLT, SLTU,
MIN, MAX, MINU, MAXU, POPC, CLZ and CTZ complete with the value the table of R99 gives in gd and the pc 4 bytes on;
nothing else changes. -/
def Obligations.AluRegisterForms : Prop :=
  (∀ (s : State) (t : Nat) (gd ga gb : Reg), s.ready t 4 = true →
    exec (.add t gd ga gb) s = .next (s.result t 4 gd (s.g t ga + s.g t gb)) ∧
    exec (.sub t gd ga gb) s = .next (s.result t 4 gd (s.g t ga - s.g t gb)) ∧
    exec (.and t gd ga gb) s = .next (s.result t 4 gd (s.g t ga &&& s.g t gb)) ∧
    exec (.or t gd ga gb) s = .next (s.result t 4 gd (s.g t ga ||| s.g t gb)) ∧
    exec (.xor t gd ga gb) s = .next (s.result t 4 gd (s.g t ga ^^^ s.g t gb)) ∧
    exec (.sll t gd ga gb) s = .next (s.result t 4 gd (s.g t ga <<< ((s.g t gb).toNat % 64))) ∧
    exec (.srl t gd ga gb) s = .next (s.result t 4 gd (s.g t ga >>> ((s.g t gb).toNat % 64))) ∧
    exec (.sra t gd ga gb) s = .next (s.result t 4 gd ((s.g t ga).sshiftRight ((s.g t gb).toNat % 64)))) ∧
  (∀ (s : State) (t : Nat) (gd ga gb : Reg), s.ready t 4 = true →
    exec (.slt t gd ga gb) s = .next (s.result t 4 gd (if (s.g t ga).toInt < (s.g t gb).toInt then 1 else 0)) ∧
    exec (.sltu t gd ga gb) s = .next (s.result t 4 gd (if (s.g t ga).toNat < (s.g t gb).toNat then 1 else 0)) ∧
    exec (.min t gd ga gb) s = .next (s.result t 4 gd (if (s.g t ga).toInt ≤ (s.g t gb).toInt then s.g t ga else s.g t gb)) ∧
    exec (.max t gd ga gb) s = .next (s.result t 4 gd (if (s.g t ga).toInt ≤ (s.g t gb).toInt then s.g t gb else s.g t ga)) ∧
    exec (.minu t gd ga gb) s = .next (s.result t 4 gd (if (s.g t ga).toNat ≤ (s.g t gb).toNat then s.g t ga else s.g t gb)) ∧
    exec (.maxu t gd ga gb) s = .next (s.result t 4 gd (if (s.g t ga).toNat ≤ (s.g t gb).toNat then s.g t gb else s.g t ga)) ∧
    exec (.popc t gd ga) s = .next (s.result t 4 gd (BitVec.ofNat 64 ((List.range 64).countP fun i => (s.g t ga).getLsbD i))) ∧
    (∀ n : Nat, n ≤ 64 → (∀ i : Nat, 64 - n ≤ i → (s.g t ga).getLsbD i = false) →
      (n = 64 ∨ (s.g t ga).getLsbD (63 - n) = true) →
      exec (.clz t gd ga) s = .next (s.result t 4 gd (BitVec.ofNat 64 n))) ∧
    (∀ n : Nat, n ≤ 64 → (∀ i : Nat, i < n → (s.g t ga).getLsbD i = false) →
      (n = 64 ∨ (s.g t ga).getLsbD n = true) →
      exec (.ctz t gd ga) s = .next (s.result t 4 gd (BitVec.ofNat 64 n))))

/-- Products and quotients. On a tile that may run its next instruction, MUL, MULH, MULHU, DIV, DIVU, REM and REMU
complete with the pc 4 bytes on and nothing else changed. MULH and MULHU give the upper 64 bits of the exact signed
and unsigned product; DIV and REM round toward zero; a division by zero gives all ones as quotient and the dividend as
remainder, and the most negative number divided by -1 gives itself and remainder 0: division never traps (R100). -/
def Obligations.AluProducts : Prop :=
  ∀ (s : State) (t : Nat) (gd ga gb : Reg), s.ready t 4 = true →
    exec (.mul t gd ga gb) s = .next (s.result t 4 gd (BitVec.ofInt 64 ((s.g t ga).toInt * (s.g t gb).toInt))) ∧
    exec (.mulh t gd ga gb) s = .next (s.result t 4 gd (BitVec.ofInt 64 (((s.g t ga).toInt * (s.g t gb).toInt) >>> 64))) ∧
    exec (.mulhu t gd ga gb) s = .next (s.result t 4 gd (BitVec.ofNat 64 (((s.g t ga).toNat * (s.g t gb).toNat) >>> 64))) ∧
    exec (.div t gd ga gb) s = .next (s.result t 4 gd (if s.g t gb = 0 then BitVec.allOnes 64 else BitVec.ofInt 64 ((s.g t ga).toInt.tdiv (s.g t gb).toInt))) ∧
    exec (.divu t gd ga gb) s = .next (s.result t 4 gd (if s.g t gb = 0 then BitVec.allOnes 64 else BitVec.ofNat 64 ((s.g t ga).toNat / (s.g t gb).toNat))) ∧
    exec (.rem t gd ga gb) s = .next (s.result t 4 gd (if s.g t gb = 0 then s.g t ga else BitVec.ofInt 64 ((s.g t ga).toInt.tmod (s.g t gb).toInt))) ∧
    exec (.remu t gd ga gb) s = .next (s.result t 4 gd (if s.g t gb = 0 then s.g t ga else BitVec.ofNat 64 ((s.g t ga).toNat % (s.g t gb).toNat)))

/-- Immediate instructions, branches and jumps. On a tile that may run its next instruction, ADDI, ANDI, ORI, XORI,
SLTI, SLTIU, SLLI, SRLI, SRAI, LI and SHORI complete with the result R101 gives in gd and the pc 4 bytes on: ADDI,
SLTI, SLTIU and LI take IMM16 sign-extended, ANDI, ORI, XORI and SHORI zero-extended; nothing else changes. On a tile
that may run its next instruction, a branch whose comparison holds moves the pc to the address 4 x OFF16 from the
branch, where that has 48 bits, and one whose comparison fails moves it past the branch; J and JAL move it by 4 x
OFF26, JAL with the address after it in g31; JR moves it to ga, with the address after it in gd, where ga is a 48-bit
multiple of 4. Nothing else changes. A branch, J or JAL to an address that does not have 48 bits has no effect but to
enter the trap handler, where there is one not running, with cause ACCESS (0x03) and that address. That JR reads ga
before it writes gd is DEDUCED (assumption log 21). -/
def Obligations.ImmediatesAndBranches : Prop :=
  (∀ (s : State) (t : Nat) (gd ga : Reg) (imm : BitVec 16) (sh : BitVec 6), s.ready t 4 = true →
    exec (.addi t gd ga imm) s = .next (s.result t 4 gd (s.g t ga + BitVec.ofInt 64 imm.toInt)) ∧
    exec (.andi t gd ga imm) s = .next (s.result t 4 gd (s.g t ga &&& BitVec.ofNat 64 imm.toNat)) ∧
    exec (.ori t gd ga imm) s = .next (s.result t 4 gd (s.g t ga ||| BitVec.ofNat 64 imm.toNat)) ∧
    exec (.xori t gd ga imm) s = .next (s.result t 4 gd (s.g t ga ^^^ BitVec.ofNat 64 imm.toNat)) ∧
    exec (.slti t gd ga imm) s = .next (s.result t 4 gd (if (s.g t ga).toInt < imm.toInt then 1 else 0)) ∧
    exec (.sltiu t gd ga imm) s = .next (s.result t 4 gd (if (s.g t ga).toNat < (BitVec.ofInt 64 imm.toInt).toNat then 1 else 0)) ∧
    exec (.slli t gd ga sh) s = .next (s.result t 4 gd (s.g t ga <<< sh.toNat)) ∧
    exec (.srli t gd ga sh) s = .next (s.result t 4 gd (s.g t ga >>> sh.toNat)) ∧
    exec (.srai t gd ga sh) s = .next (s.result t 4 gd ((s.g t ga).sshiftRight sh.toNat)) ∧
    exec (.li t gd imm) s = .next (s.result t 4 gd (BitVec.ofInt 64 imm.toInt)) ∧
    exec (.shori t gd ga imm) s = .next (s.result t 4 gd (BitVec.ofNat 64 (((s.g t ga).toNat * 65536 + imm.toNat) % 2 ^ 64)))) ∧
  (∀ (s : State) (t : Nat) (gd ga gb : Reg) (off : BitVec 16) (o26 : BitVec 26), s.ready t 4 = true →
    let pc := (s.tile t).ctx.pc
    let tgt : Int := pc.toNat + 4 * off.toInt
    let far : Int := pc.toNat + 4 * o26.toInt
    (s.g t ga = s.g t gb → 0 ≤ tgt ∧ tgt < 2 ^ 48 →
      exec (.beq t ga gb off) s = .next (s.atPc t (BitVec.ofInt 48 tgt))) ∧
    (¬(s.g t ga = s.g t gb) → exec (.beq t ga gb off) s = .next (s.atPc t (pc + 4))) ∧
    (s.hasHandler t = true → s.g t ga = s.g t gb → tgt < 0 ∨ 2 ^ 48 ≤ tgt →
      ∃ t', exec (.beq t ga gb off) s = .next t' ∧ s.entered t' t 4 0x03 (BitVec.ofInt 64 tgt)) ∧
    (s.g t ga ≠ s.g t gb → 0 ≤ tgt ∧ tgt < 2 ^ 48 →
      exec (.bne t ga gb off) s = .next (s.atPc t (BitVec.ofInt 48 tgt))) ∧
    (¬(s.g t ga ≠ s.g t gb) → exec (.bne t ga gb off) s = .next (s.atPc t (pc + 4))) ∧
    (s.hasHandler t = true → s.g t ga ≠ s.g t gb → tgt < 0 ∨ 2 ^ 48 ≤ tgt →
      ∃ t', exec (.bne t ga gb off) s = .next t' ∧ s.entered t' t 4 0x03 (BitVec.ofInt 64 tgt)) ∧
    ((s.g t ga).toInt < (s.g t gb).toInt → 0 ≤ tgt ∧ tgt < 2 ^ 48 →
      exec (.blt t ga gb off) s = .next (s.atPc t (BitVec.ofInt 48 tgt))) ∧
    (¬((s.g t ga).toInt < (s.g t gb).toInt) → exec (.blt t ga gb off) s = .next (s.atPc t (pc + 4))) ∧
    (s.hasHandler t = true → (s.g t ga).toInt < (s.g t gb).toInt → tgt < 0 ∨ 2 ^ 48 ≤ tgt →
      ∃ t', exec (.blt t ga gb off) s = .next t' ∧ s.entered t' t 4 0x03 (BitVec.ofInt 64 tgt)) ∧
    ((s.g t gb).toInt ≤ (s.g t ga).toInt → 0 ≤ tgt ∧ tgt < 2 ^ 48 →
      exec (.bge t ga gb off) s = .next (s.atPc t (BitVec.ofInt 48 tgt))) ∧
    (¬((s.g t gb).toInt ≤ (s.g t ga).toInt) → exec (.bge t ga gb off) s = .next (s.atPc t (pc + 4))) ∧
    (s.hasHandler t = true → (s.g t gb).toInt ≤ (s.g t ga).toInt → tgt < 0 ∨ 2 ^ 48 ≤ tgt →
      ∃ t', exec (.bge t ga gb off) s = .next t' ∧ s.entered t' t 4 0x03 (BitVec.ofInt 64 tgt)) ∧
    ((s.g t ga).toNat < (s.g t gb).toNat → 0 ≤ tgt ∧ tgt < 2 ^ 48 →
      exec (.bltu t ga gb off) s = .next (s.atPc t (BitVec.ofInt 48 tgt))) ∧
    (¬((s.g t ga).toNat < (s.g t gb).toNat) → exec (.bltu t ga gb off) s = .next (s.atPc t (pc + 4))) ∧
    (s.hasHandler t = true → (s.g t ga).toNat < (s.g t gb).toNat → tgt < 0 ∨ 2 ^ 48 ≤ tgt →
      ∃ t', exec (.bltu t ga gb off) s = .next t' ∧ s.entered t' t 4 0x03 (BitVec.ofInt 64 tgt)) ∧
    ((s.g t gb).toNat ≤ (s.g t ga).toNat → 0 ≤ tgt ∧ tgt < 2 ^ 48 →
      exec (.bgeu t ga gb off) s = .next (s.atPc t (BitVec.ofInt 48 tgt))) ∧
    (¬((s.g t gb).toNat ≤ (s.g t ga).toNat) → exec (.bgeu t ga gb off) s = .next (s.atPc t (pc + 4))) ∧
    (s.hasHandler t = true → (s.g t gb).toNat ≤ (s.g t ga).toNat → tgt < 0 ∨ 2 ^ 48 ≤ tgt →
      ∃ t', exec (.bgeu t ga gb off) s = .next t' ∧ s.entered t' t 4 0x03 (BitVec.ofInt 64 tgt)) ∧
    (0 ≤ far → far < 2 ^ 48 →
      exec (.j t o26) s = .next (s.atPc t (BitVec.ofInt 48 far)) ∧
      exec (.jal t o26) s = .next ((s.setG t 31 (BitVec.ofNat 64 (pc + 4).toNat)).atPc t (BitVec.ofInt 48 far))) ∧
    (s.hasHandler t = true → far < 0 ∨ 2 ^ 48 ≤ far →
      (∃ t', exec (.j t o26) s = .next t' ∧ s.entered t' t 4 0x03 (BitVec.ofInt 64 far)) ∧
      (∃ t', exec (.jal t o26) s = .next t' ∧ s.entered t' t 4 0x03 (BitVec.ofInt 64 far))) ∧
    ((s.g t ga).toNat < 2 ^ 48 → (s.g t ga).toNat % 4 = 0 →
      exec (.jr t gd ga) s = .next ((s.setG t gd (BitVec.ofNat 64 (pc + 4).toNat)).atPc t (BitVec.ofNat 48 (s.g t ga).toNat))))

/-- Loads from the own scratchpad. A load LD.B, LD.BU, LD.H, LD.HU, LD.W, LD.WU or LD.D of a tile that may run its
next instruction, at an aligned address ga + sign-extended IMM16 in the tile’s own scratchpad whose unit is not in
error and owes no cut-through byte, completes: gd takes the bytes there, little-endian, sign-extended for B, H and W
and zero-extended else, and nothing else of the machine changes. -/
def Obligations.ScratchpadLoads : Prop :=
  ∀ (s : State) (t : Nat) (gd ga : Reg) (imm : BitVec 16), s.ready t 4 = true →
    let ea := s.g t ga + BitVec.ofInt 64 imm.toInt
    let sx (w v : Nat) : Word := (BitVec.ofNat w v).signExtend 64
    let zx (v : Nat) : Word := BitVec.ofNat 64 v
    (s.ownBytes t ea 1 = true → ∃ t', exec (.ldB t gd ga imm) s = .next t' ∧
      s.wrote t' t 4 gd (sx 8 (leNat (Mem.readN s.mem ea.toNat 1))) ∧ s.sameElse t' t) ∧
    (s.ownBytes t ea 1 = true → ∃ t', exec (.ldBu t gd ga imm) s = .next t' ∧
      s.wrote t' t 4 gd (zx (leNat (Mem.readN s.mem ea.toNat 1))) ∧ s.sameElse t' t) ∧
    (s.ownBytes t ea 2 = true → ∃ t', exec (.ldH t gd ga imm) s = .next t' ∧
      s.wrote t' t 4 gd (sx 16 (leNat (Mem.readN s.mem ea.toNat 2))) ∧ s.sameElse t' t) ∧
    (s.ownBytes t ea 2 = true → ∃ t', exec (.ldHu t gd ga imm) s = .next t' ∧
      s.wrote t' t 4 gd (zx (leNat (Mem.readN s.mem ea.toNat 2))) ∧ s.sameElse t' t) ∧
    (s.ownBytes t ea 4 = true → ∃ t', exec (.ldW t gd ga imm) s = .next t' ∧
      s.wrote t' t 4 gd (sx 32 (leNat (Mem.readN s.mem ea.toNat 4))) ∧ s.sameElse t' t) ∧
    (s.ownBytes t ea 4 = true → ∃ t', exec (.ldWu t gd ga imm) s = .next t' ∧
      s.wrote t' t 4 gd (zx (leNat (Mem.readN s.mem ea.toNat 4))) ∧ s.sameElse t' t) ∧
    (s.ownBytes t ea 8 = true → ∃ t', exec (.ldD t gd ga imm) s = .next t' ∧
      s.wrote t' t 4 gd (zx (leNat (Mem.readN s.mem ea.toNat 8))) ∧ s.sameElse t' t)

/-- Loads from DRAM through the L1. A load of a tile that may run its next instruction, at an aligned address in its
partition’s DRAM, completes from an L1 line that holds its bytes, extended as R103 says, and changes nothing outside
the tile; where no line holds them the tile waits in the load, its pc, registers and all memory as before. -/
def Obligations.CachedLoads : Prop :=
  ∀ (s : State) (t : Nat) (gd ga : Reg) (imm : BitVec 16), s.ready t 4 = true →
    let ea := s.g t ga + BitVec.ofInt 64 imm.toInt
    let sx (w v : Nat) : Word := (BitVec.ofNat w v).signExtend 64
    let zx (v : Nat) : Word := BitVec.ofNat 64 v
    (∀ (l : L1Line) (bs : List Byte), (s.tile t).l1.find (lineOf ea.toNat) = some l →
      (l.read (ea.toNat % 128) 1 = some bs → s.dramBytes t ea 1 = true → ∃ t', exec (.ldB t gd ga imm) s = .next t' ∧
        s.wrote t' t 4 gd (sx 8 (leNat bs)) ∧ s.sameElse t' t) ∧
      (l.read (ea.toNat % 128) 1 = some bs → s.dramBytes t ea 1 = true → ∃ t', exec (.ldBu t gd ga imm) s = .next t' ∧
        s.wrote t' t 4 gd (zx (leNat bs)) ∧ s.sameElse t' t) ∧
      (l.read (ea.toNat % 128) 2 = some bs → s.dramBytes t ea 2 = true → ∃ t', exec (.ldH t gd ga imm) s = .next t' ∧
        s.wrote t' t 4 gd (sx 16 (leNat bs)) ∧ s.sameElse t' t) ∧
      (l.read (ea.toNat % 128) 2 = some bs → s.dramBytes t ea 2 = true → ∃ t', exec (.ldHu t gd ga imm) s = .next t' ∧
        s.wrote t' t 4 gd (zx (leNat bs)) ∧ s.sameElse t' t) ∧
      (l.read (ea.toNat % 128) 4 = some bs → s.dramBytes t ea 4 = true → ∃ t', exec (.ldW t gd ga imm) s = .next t' ∧
        s.wrote t' t 4 gd (sx 32 (leNat bs)) ∧ s.sameElse t' t) ∧
      (l.read (ea.toNat % 128) 4 = some bs → s.dramBytes t ea 4 = true → ∃ t', exec (.ldWu t gd ga imm) s = .next t' ∧
        s.wrote t' t 4 gd (zx (leNat bs)) ∧ s.sameElse t' t) ∧
      (l.read (ea.toNat % 128) 8 = some bs → s.dramBytes t ea 8 = true → ∃ t', exec (.ldD t gd ga imm) s = .next t' ∧
        s.wrote t' t 4 gd (zx (leNat bs)) ∧ s.sameElse t' t)) ∧
    (s.dramBytes t ea 1 = true → (∀ l : L1Line, (s.tile t).l1.find (lineOf ea.toNat) = some l → l.read (ea.toNat % 128) 1 = none) →
      ∃ t', exec (.ldB t gd ga imm) s = .next t' ∧ (t'.tile t).ctx.wait = some (.ldB t gd ga imm) ∧ t'.mem = s.mem ∧
        (t'.tile t).ctx.pc = (s.tile t).ctx.pc ∧ ∀ q : Reg, t'.g t q = s.g t q) ∧
    (s.dramBytes t ea 1 = true → (∀ l : L1Line, (s.tile t).l1.find (lineOf ea.toNat) = some l → l.read (ea.toNat % 128) 1 = none) →
      ∃ t', exec (.ldBu t gd ga imm) s = .next t' ∧ (t'.tile t).ctx.wait = some (.ldBu t gd ga imm) ∧ t'.mem = s.mem ∧
        (t'.tile t).ctx.pc = (s.tile t).ctx.pc ∧ ∀ q : Reg, t'.g t q = s.g t q) ∧
    (s.dramBytes t ea 2 = true → (∀ l : L1Line, (s.tile t).l1.find (lineOf ea.toNat) = some l → l.read (ea.toNat % 128) 2 = none) →
      ∃ t', exec (.ldH t gd ga imm) s = .next t' ∧ (t'.tile t).ctx.wait = some (.ldH t gd ga imm) ∧ t'.mem = s.mem ∧
        (t'.tile t).ctx.pc = (s.tile t).ctx.pc ∧ ∀ q : Reg, t'.g t q = s.g t q) ∧
    (s.dramBytes t ea 2 = true → (∀ l : L1Line, (s.tile t).l1.find (lineOf ea.toNat) = some l → l.read (ea.toNat % 128) 2 = none) →
      ∃ t', exec (.ldHu t gd ga imm) s = .next t' ∧ (t'.tile t).ctx.wait = some (.ldHu t gd ga imm) ∧ t'.mem = s.mem ∧
        (t'.tile t).ctx.pc = (s.tile t).ctx.pc ∧ ∀ q : Reg, t'.g t q = s.g t q) ∧
    (s.dramBytes t ea 4 = true → (∀ l : L1Line, (s.tile t).l1.find (lineOf ea.toNat) = some l → l.read (ea.toNat % 128) 4 = none) →
      ∃ t', exec (.ldW t gd ga imm) s = .next t' ∧ (t'.tile t).ctx.wait = some (.ldW t gd ga imm) ∧ t'.mem = s.mem ∧
        (t'.tile t).ctx.pc = (s.tile t).ctx.pc ∧ ∀ q : Reg, t'.g t q = s.g t q) ∧
    (s.dramBytes t ea 4 = true → (∀ l : L1Line, (s.tile t).l1.find (lineOf ea.toNat) = some l → l.read (ea.toNat % 128) 4 = none) →
      ∃ t', exec (.ldWu t gd ga imm) s = .next t' ∧ (t'.tile t).ctx.wait = some (.ldWu t gd ga imm) ∧ t'.mem = s.mem ∧
        (t'.tile t).ctx.pc = (s.tile t).ctx.pc ∧ ∀ q : Reg, t'.g t q = s.g t q) ∧
    (s.dramBytes t ea 8 = true → (∀ l : L1Line, (s.tile t).l1.find (lineOf ea.toNat) = some l → l.read (ea.toNat % 128) 8 = none) →
      ∃ t', exec (.ldD t gd ga imm) s = .next t' ∧ (t'.tile t).ctx.wait = some (.ldD t gd ga imm) ∧ t'.mem = s.mem ∧
        (t'.tile t).ctx.pc = (s.tile t).ctx.pc ∧ ∀ q : Reg, t'.g t q = s.g t q)

/-- Stores to the own scratchpad. A store ST.B, ST.H, ST.W or ST.D of a tile that may run its next instruction, at an
aligned address in the tile’s own scratchpad whose unit is not in error, completes: the low 1, 2, 4 or 8 bytes of gd
stand there little-endian, every other byte of memory, every register, every other tile and everything else is as
before. -/
def Obligations.ScratchpadStores : Prop :=
  ∀ (s : State) (t : Nat) (gd ga : Reg) (imm : BitVec 16), s.canonical = true → s.ready t 4 = true →
    let ea := s.g t ga + BitVec.ofInt 64 imm.toInt
    (s.ownBytes t ea 1 = true → ∃ t', exec (.stB t gd ga imm) s = .next t' ∧ s.passed t' t 4 ∧
      (∀ k : Nat, k < 1 → Mem.read t'.mem (ea.toNat + k) = (s.g t gd).extractLsb' (8 * k) 8) ∧
      (∀ a : Nat, a < ea.toNat ∨ ea.toNat + 1 ≤ a → Mem.read t'.mem a = Mem.read s.mem a) ∧
      (∀ u : Nat, u ≠ t → t'.tile u = s.tile u) ∧ { t' with tiles := s.tiles, mem := s.mem } = s) ∧
    (s.ownBytes t ea 2 = true → ∃ t', exec (.stH t gd ga imm) s = .next t' ∧ s.passed t' t 4 ∧
      (∀ k : Nat, k < 2 → Mem.read t'.mem (ea.toNat + k) = (s.g t gd).extractLsb' (8 * k) 8) ∧
      (∀ a : Nat, a < ea.toNat ∨ ea.toNat + 2 ≤ a → Mem.read t'.mem a = Mem.read s.mem a) ∧
      (∀ u : Nat, u ≠ t → t'.tile u = s.tile u) ∧ { t' with tiles := s.tiles, mem := s.mem } = s) ∧
    (s.ownBytes t ea 4 = true → ∃ t', exec (.stW t gd ga imm) s = .next t' ∧ s.passed t' t 4 ∧
      (∀ k : Nat, k < 4 → Mem.read t'.mem (ea.toNat + k) = (s.g t gd).extractLsb' (8 * k) 8) ∧
      (∀ a : Nat, a < ea.toNat ∨ ea.toNat + 4 ≤ a → Mem.read t'.mem a = Mem.read s.mem a) ∧
      (∀ u : Nat, u ≠ t → t'.tile u = s.tile u) ∧ { t' with tiles := s.tiles, mem := s.mem } = s) ∧
    (s.ownBytes t ea 8 = true → ∃ t', exec (.stD t gd ga imm) s = .next t' ∧ s.passed t' t 4 ∧
      (∀ k : Nat, k < 8 → Mem.read t'.mem (ea.toNat + k) = (s.g t gd).extractLsb' (8 * k) 8) ∧
      (∀ a : Nat, a < ea.toNat ∨ ea.toNat + 8 ≤ a → Mem.read t'.mem a = Mem.read s.mem a) ∧
      (∀ u : Nat, u ≠ t → t'.tile u = s.tile u) ∧ { t' with tiles := s.tiles, mem := s.mem } = s)

/-- Stores to DRAM through the L1. A store of a tile that may run its next instruction, at an aligned address in its
partition’s DRAM, with room in the set of its line, completes: the bytes stand dirty in the L1 line of the address,
memory is as before, and nothing outside the tile changes. -/
def Obligations.CachedStores : Prop :=
  ∀ (s : State) (t : Nat) (gd ga : Reg) (imm : BitVec 16), s.ready t 4 = true →
    let ea := s.g t ga + BitVec.ofInt 64 imm.toInt
    let line := lineOf ea.toNat
    ((s.tile t).l1.lines.filter fun y => y.addr / 128 % 64 == line / 128 % 64 && y.addr != line).length < 8 →
    (s.dramBytes t ea 1 = true → ∃ t', exec (.stB t gd ga imm) s = .next t' ∧ s.passed t' t 4 ∧ t'.mem = s.mem ∧
      (∃ l, (t'.tile t).l1.find line = some l ∧ ∀ k : Nat, k < 1 →
        l.bytes.find (ea.toNat % 128 + k) = some { v := (s.g t gd).extractLsb' (8 * k) 8, dirty := true }) ∧ s.sameElse t' t) ∧
    (s.dramBytes t ea 2 = true → ∃ t', exec (.stH t gd ga imm) s = .next t' ∧ s.passed t' t 4 ∧ t'.mem = s.mem ∧
      (∃ l, (t'.tile t).l1.find line = some l ∧ ∀ k : Nat, k < 2 →
        l.bytes.find (ea.toNat % 128 + k) = some { v := (s.g t gd).extractLsb' (8 * k) 8, dirty := true }) ∧ s.sameElse t' t) ∧
    (s.dramBytes t ea 4 = true → ∃ t', exec (.stW t gd ga imm) s = .next t' ∧ s.passed t' t 4 ∧ t'.mem = s.mem ∧
      (∃ l, (t'.tile t).l1.find line = some l ∧ ∀ k : Nat, k < 4 →
        l.bytes.find (ea.toNat % 128 + k) = some { v := (s.g t gd).extractLsb' (8 * k) 8, dirty := true }) ∧ s.sameElse t' t) ∧
    (s.dramBytes t ea 8 = true → ∃ t', exec (.stD t gd ga imm) s = .next t' ∧ s.passed t' t 4 ∧ t'.mem = s.mem ∧
      (∃ l, (t'.tile t).l1.find line = some l ∧ ∀ k : Nat, k < 8 →
        l.bytes.find (ea.toNat % 128 + k) = some { v := (s.g t gd).extractLsb' (8 * k) 8, dirty := true }) ∧ s.sameElse t' t)

/-- CACHE, line fills and FENCE. On a tile that may run its next instruction: CACHE.INV and CACHE.WBINV of a range in
the partition’s DRAM complete with no L1 line that holds a byte of it; CACHE.WB completes with no dirty byte in such a
line; of an empty range each does nothing. Where no regulator of the partition is on and the lines’ codewords are
served without error, every dirty byte that CACHE.WB and CACHE.WBINV write back is the byte DRAM then reads, and every
other byte of memory is as before. FENCE completes, changing nothing but the pc, when every class it selects has
reached its point, and else waits. The completion of a line fill under way ends that fill and leaves the line in the
L1: under the same conditions each byte that the line did not hold is the one DRAM held, one it held stays, and each
dirty byte of the line that made room for it is the byte DRAM then reads. -/
def Obligations.CacheAndFence : Prop :=
  ∀ (s : State) (t line : Nat) (ga gb : Reg) (fn : BitVec 9),
    let hit (l : L1Line) : Bool :=
      decide (l.addr < (s.g t ga).toNat + (s.g t gb).toNat) && decide ((s.g t ga).toNat < l.addr + 128)
    let p := (s.tile t).part
    let kept : Prop := s.canonical = true ∧ s.unregulated p ∧ ((s.tile t).l1.lines.map (·.addr)).Nodup ∧
      ∀ l ∈ (s.tile t).l1.lines, l.addr % 128 = 0 ∧ l.bytes.wf = true ∧ (∀ b ∈ l.bytes, b.1 < 128) ∧ s.sound p l.addr 128
    let back (t' : State) : Prop := s.g t gb ≠ 0 → kept →
      (∀ l ∈ (s.tile t).l1.lines, hit l = true → ∀ b ∈ l.bytes, b.2.dirty = true → t'.dramIs p (l.addr + b.1) b.2.v) ∧
      (∀ a : Nat, (∀ l ∈ (s.tile t).l1.lines, hit l = true → ∀ b ∈ l.bytes, b.2.dirty = true → l.addr + b.1 ≠ a) →
        Mem.read t'.mem a = Mem.read s.mem a)
    (s.ready t 4 = true → (s.g t gb ≠ 0 → s.dramTrap p (s.g t ga).toNat (s.g t gb).toNat = none) →
      (∃ t', exec (.cacheInv t ga gb) s = .next t' ∧ s.passed t' t 4 ∧ (s.g t gb ≠ 0 → ∀ l ∈ (t'.tile t).l1.lines, hit l = false)
        ∧ (s.g t gb = 0 → t' = s.past t 4) ∧ s.sameElse t' t) ∧
      (∃ t', exec (.cacheWbinv t ga gb) s = .next t' ∧ s.passed t' t 4 ∧ (s.g t gb ≠ 0 → ∀ l ∈ (t'.tile t).l1.lines, hit l = false)
        ∧ (s.g t gb = 0 → t' = s.past t 4) ∧ back t') ∧
      (∃ t', exec (.cacheWb t ga gb) s = .next t' ∧ s.passed t' t 4 ∧
        (s.g t gb ≠ 0 → ∀ l ∈ (t'.tile t).l1.lines, hit l = true → ∀ b ∈ l.bytes, b.2.dirty = false)
        ∧ (s.g t gb = 0 → t' = s.past t 4) ∧ back t')) ∧
    (s.ready t 4 = true → s.fencePassed t fn.toNat = true → exec (.fence t fn) s = .next (s.past t 4)) ∧
    (s.ready t 4 = true → s.fencePassed t fn.toNat = false →
      ∃ t', exec (.fence t fn) s = .next t' ∧ (t'.tile t).ctx.wait = some (.fence t fn) ∧ (t'.tile t).ctx.pc = (s.tile t).ctx.pc) ∧
    (∀ pf : Bool, (s.tile t).l1.fills.find? (fun f => f.1 == line) = some (line, pf) →
      ∃ t', exec (.l1LineFillComplete t line) s = .next t' ∧ (∀ f ∈ (t'.tile t).l1.fills, f.1 ≠ line) ∧
        ((t'.tile t).l1.find line).isSome = true ∧
        (kept → line % 128 = 0 → s.sound p line 128 →
          let old := ((s.tile t).l1.find line).getD { addr := line }
          (∀ l, (t'.tile t).l1.find line = some l → ∀ k : Nat, k < 128 → ∃ b, l.bytes.find k = some b ∧
            (∀ o, old.bytes.find k = some o → b = o) ∧
            (old.bytes.find k = none → b.dirty = false ∧ b.lost = false ∧ s.dramIs p (line + k) b.v)) ∧
          (∀ v ∈ (s.tile t).l1.lines, v.addr ≠ line → (t'.tile t).l1.find v.addr = none →
            ∀ b ∈ v.bytes, b.2.dirty = true → t'.dramIs p (v.addr + b.1) b.2.v)))

/-- CSR reads and writes. On a tile that may run its next instruction, CSR.RD gives gd the value of a listed CSR and
changes nothing else (the counts of a stage-link handle, CSRs 0x201 and above, are in a clause of their own below:
they only leave a free value drawn). CSR.WR, CSR.SWAP, CSR.SET and CSR.CLR of a program-writable CSR (TRAP_VEC,
TRAP_PC, the mask CSRs, the RNG CSRs) store ga, ga, old OR ga and old AND NOT ga within its writable bits, SWAP, SET
and CLR give gd the old value, and every other CSR of the context is as before. A write of a read-only or unlisted CSR
enters the trap handler with cause CSR (0x12) and its number. -/
def Obligations.ControlRegisters : Prop :=
  ∀ (s : State) (t : Nat) (gd ga : Reg) (num : BitVec 12) (old : Word), s.ready t 4 = true →
    let n := num.toNat
    let mask : Word := if n = 0x10 ∨ n = 0x11 then 0x0000FFFFFFFFFFFC else if n = 0x34 then 0x7F else BitVec.allOnes 64
    let own (t' : State) (v : Word) : Prop :=
      (t'.tile t).ctx.cs n = v &&& mask ∧ (∀ m : Nat, m ≠ n → (t'.tile t).ctx.cs m = (s.tile t).ctx.cs m) ∧ s.sameElse t' t
    (s.csrRead t n = some old → n < 0x201 → exec (.csrRd t gd num) s = .next (s.result t 4 gd old)) ∧
    (s.csrRead t n = some old → 0x201 ≤ n →
      exec (.csrRd t gd num) s = .next ({ s with freeIdx := s.freeIdx + 1 }.result t 4 gd old)) ∧
    (n ∈ [0x10, 0x11, 0x20, 0x21, 0x22, 0x23, 0x30, 0x31, 0x32, 0x33, 0x34] →
      (∃ t', exec (.csrWr t ga num) s = .next t' ∧ s.passed t' t 4 ∧ own t' (s.g t ga)) ∧
      (∃ t', exec (.csrSwap t gd ga num) s = .next t' ∧ s.wrote t' t 4 gd ((s.tile t).ctx.cs n) ∧ own t' (s.g t ga)) ∧
      (∃ t', exec (.csrSet t gd ga num) s = .next t' ∧ s.wrote t' t 4 gd ((s.tile t).ctx.cs n) ∧
        own t' ((s.tile t).ctx.cs n ||| s.g t ga)) ∧
      (∃ t', exec (.csrClr t gd ga num) s = .next t' ∧ s.wrote t' t 4 gd ((s.tile t).ctx.cs n) ∧
        own t' ((s.tile t).ctx.cs n &&& ~~~(s.g t ga)))) ∧
    (s.hasHandler t = true → csrMask n = none →
      ∃ t', exec (.csrWr t ga num) s = .next t' ∧ s.entered t' t 4 0x12 (BitVec.ofNat 64 n))

/-- TRAP, ILLEGAL, TRAP.RET and HALT complete, with a handler and without. On a tile that may run its next
instruction: where it has a trap handler not running, TRAP completes by entering it with cause SOFTWARE (0x13) and ga
as value, and words that are no instruction complete by entering it with cause ILLEGAL (0x01) and the first word:
TRAP_PC, TRAP_CAUSE, TRAP_VALUE and TRAP_STATUS are saved, the pc becomes TRAP_VEC, and nothing else changes. In a
handler TRAP.RET completes: IN_HANDLER is clear, the pc is TRAP_PC, and nothing else changes; outside one it enters
the handler with ILLEGAL and its own word. HALT of a tile with nothing outstanding completes: a primary ends the
tile’s part (it no longer runs, its queues are closed, its L1 is empty, and no fault is reported); a filler task ends,
and the primary’s wait goes on where its units are idle, else once they are, no fault being reported. With something
outstanding HALT waits, its pc and registers as before. A TRAP, and words that are no instruction, of a tile below 768
that may run its next instruction and has no handler (TRAP_VEC zero, or in its handler already) complete by halting it
where it is not a filler: TILE_TPC, TILE_TCAUSE and TILE_TVAL take the pc, the cause and the value, its part ends, and
one report of the tile-trap source with the cause code is made; in a filler task they end the task, with one report of
the filler-trap source (0x005). -/
def Obligations.TrapsAndReturn : Prop :=
  (∀ (s : State) (t : Nat) (ga : Reg) (w0 w1 : BitVec 32),
    (s.ready t 4 = true → s.hasHandler t = true →
      ∃ t', exec (.trap t ga) s = .next t' ∧ s.entered t' t 4 0x13 (s.g t ga)) ∧
    (illegalWords w0 w1 = true → s.ready t (wordLen w0) = true → s.hasHandler t = true →
      ∃ t', exec (.illegalOpcode t w0 w1) s = .next t' ∧ s.entered t' t (wordLen w0) 0x01 (BitVec.ofNat 64 w0.toNat)) ∧
    (s.ready t 4 = true → bitOf ((s.tile t).ctx.cs 0x14) 0 = true →
      ∃ t', exec (.trapRet t) s = .next t' ∧ (t'.tile t).ctx.pc = BitVec.ofNat 48 ((s.tile t).ctx.cs 0x11).toNat ∧
        bitOf ((t'.tile t).ctx.cs 0x14) 0 = false ∧ (∀ n : Nat, n ≠ 0x14 → (t'.tile t).ctx.cs n = (s.tile t).ctx.cs n) ∧
        (∀ q : Reg, t'.g t q = s.g t q) ∧ s.sameElse t' t) ∧
    (s.ready t 4 = true → s.hasHandler t = true →
      ∃ t', exec (.trapRet t) s = .next t' ∧ s.entered t' t 4 0x01 (wordA 0x2D 1 0 0 0)) ∧
    (s.ready t 4 = true → s.fencePassed t 0x1FF = true → s.inFiller t = false →
      ∃ t', exec (.halt t) s = .next t' ∧ (t'.tile t).live = false ∧ (t'.tile t).closed = true ∧ (t'.tile t).l1 = {} ∧
        t'.reports = s.reports) ∧
    (∀ c : Ctx, s.ready t 4 = true → s.fencePassed t 0x1FF = true → (s.tile t).saved = some c →
      ∃ t', exec (.halt t) s = .next t' ∧ (t'.tile t).live = true ∧ t'.reports = s.reports ∧ t'.mem = s.mem ∧
        (s.unitsIdle t = true → (t'.tile t).ctx = c ∧ (t'.tile t).saved = none ∧ (t'.tile t).ending = false ∧ (t'.tile t).l1 = {}) ∧
        (s.unitsIdle t = false → (t'.tile t).saved = some c ∧ (t'.tile t).ending = true)) ∧
    (s.ready t 4 = true → s.fencePassed t 0x1FF = false →
      ∃ t', exec (.halt t) s = .next t' ∧ (t'.tile t).ctx.wait = some (.halt t) ∧ (t'.tile t).ctx.pc = (s.tile t).ctx.pc ∧
        (∀ q : Reg, t'.g t q = s.g t q) ∧ t'.mem = s.mem)) ∧
  (∀ (s : State) (t : Nat) (ga : Reg) (w0 w1 : BitVec 32), t < 768 → s.hasHandler t = false →
    (s.ready t 4 = true → s.inFiller t = false →
      ∃ t' r, exec (.trap t ga) s = .next t' ∧ (t'.tile t).live = false ∧
        t'.rg (t / 96) (trapOff t + 0x08) = (s.tile t).ctx.pc.setWidth 64 ∧
        t'.rg (t / 96) (trapOff t + 0x10) = 0x13 ∧ t'.rg (t / 96) (trapOff t + 0x18) = s.g t ga ∧
        t'.reports = s.reports ++ [r] ∧ r.src = 0x000 ∧ r.inst = t ∧ r.value = 0x13) ∧
    (illegalWords w0 w1 = true → s.ready t (wordLen w0) = true → s.inFiller t = false →
      ∃ t' r, exec (.illegalOpcode t w0 w1) s = .next t' ∧ (t'.tile t).live = false ∧
        t'.rg (t / 96) (trapOff t + 0x08) = (s.tile t).ctx.pc.setWidth 64 ∧
        t'.rg (t / 96) (trapOff t + 0x10) = 1 ∧ t'.rg (t / 96) (trapOff t + 0x18) = BitVec.ofNat 64 w0.toNat ∧
        t'.reports = s.reports ++ [r] ∧ r.src = 0x000 ∧ r.inst = t ∧ r.value = 1) ∧
    (s.ready t 4 = true → s.inFiller t = true →
      ∃ t' r, exec (.trap t ga) s = .next t' ∧ (t'.tile t).live = true ∧ t'.mem = s.mem ∧
        (t'.tile t).saved = (if s.unitsIdle t = true then none else (s.tile t).saved) ∧
        t'.reports = s.reports ++ [r] ∧ r.src = 0x005 ∧ r.inst = t ∧ r.value = 0x13) ∧
    (illegalWords w0 w1 = true → s.ready t (wordLen w0) = true → s.inFiller t = true →
      ∃ t' r, exec (.illegalOpcode t w0 w1) s = .next t' ∧ (t'.tile t).live = true ∧ t'.mem = s.mem ∧
        (t'.tile t).saved = (if s.unitsIdle t = true then none else (s.tile t).saved) ∧
        t'.reports = s.reports ++ [r] ∧ r.src = 0x005 ∧ r.inst = t ∧ r.value = 1))

/-- Traps of fetch, alignment and area. Where the tile runs, waits in nothing and has a handler not running: an
instruction whose bytes do not lie in the partition’s DRAM enters it with cause FETCH (0x14) and the pc, shown for an
ALU, an immediate, a branch and a system instruction; on a tile that may run its next instruction a load or store at
an address above 48 bits enters it with cause ACCESS (0x03), one in the control space with CONTROL_SPACE (0x04), and
one misaligned in the partition’s DRAM with MISALIGNED (0x02), each with the address as value. That the area is judged
before the alignment is DEDUCED (assumption log 23). -/
def Obligations.FetchAndAddressTraps : Prop :=
  ∀ (s : State) (t : Nat) (gd ga gb : Reg) (imm : BitVec 16), s.hasHandler t = true →
    let x := s.tile t
    let ea := s.g t ga + BitVec.ofInt 64 imm.toInt
    (x.live = true → x.ending = false → x.ctx.wait = none → s.inDramOf x.part x.ctx.pc.toNat 4 = false →
      (∃ t', exec (.add t gd ga gb) s = .next t' ∧ s.entered t' t 4 0x14 (x.ctx.pc.setWidth 64)) ∧
      (∃ t', exec (.addi t gd ga imm) s = .next t' ∧ s.entered t' t 4 0x14 (x.ctx.pc.setWidth 64)) ∧
      (∃ t', exec (.beq t ga gb imm) s = .next t' ∧ s.entered t' t 4 0x14 (x.ctx.pc.setWidth 64)) ∧
      (∃ t', exec (.halt t) s = .next t' ∧ s.entered t' t 4 0x14 (x.ctx.pc.setWidth 64))) ∧
    (s.ready t 4 = true → 2 ^ 48 ≤ ea.toNat →
      (∃ t', exec (.ldD t gd ga imm) s = .next t' ∧ s.entered t' t 4 0x03 ea) ∧
      (∃ t', exec (.stD t gd ga imm) s = .next t' ∧ s.entered t' t 4 0x03 ea)) ∧
    (s.ready t 4 = true → 0x300000000000 ≤ ea.toNat → ea.toNat < 0x300C00000000 →
      (∃ t', exec (.ldW t gd ga imm) s = .next t' ∧ s.entered t' t 4 0x04 ea) ∧
      (∃ t', exec (.stW t gd ga imm) s = .next t' ∧ s.entered t' t 4 0x04 ea)) ∧
    (s.ready t 4 = true → isDram ea.toNat = true → s.stackPresent (ea.toNat / 2 ^ 36) = true →
      s.inDramOf x.part ea.toNat 8 = true → ea.toNat % 8 ≠ 0 →
      (∃ t', exec (.ldD t gd ga imm) s = .next t' ∧ s.entered t' t 4 0x02 ea) ∧
      (∃ t', exec (.stD t gd ga imm) s = .next t' ∧ s.entered t' t 4 0x02 ea))

/-- DMA instructions and the completion of a transfer. On a tile that may run its next instruction, with no scratchpad
unit in error: DMA.ISSUE of a descriptor that passes the checks of R139, from a tile that holds fewer than 256 tags,
while its Hob has a free tag, completes with a free tag of the Hob’s pool in gd, lent to the tile, and the transfer
taken up with that descriptor. DMA.WAIT and DMA.POLL on a held tag whose transfer is complete give its status word in
gd and free the tag; before that DMA.POLL gives all ones and DMA.WAIT waits. The completion of a running transfer of a
tile whose part runs sets its status word and ends its running, whichever scratchpad units have taken a bit error by
then. Where no unit is in error, sources and destinations do not meet, no two destination rows meet, and none is of a
block format, each destination row then holds: of a copy the bytes of its source row and of a fill the pattern, and of
a conversion, compression or decompression in scratchpad what its row of R47, R88 or R89 makes of the source row. DRAM
is read and written so where no regulator of the partition is on and its codewords are served without error. -/
def Obligations.DmaTransfers : Prop :=
  ∀ (s : State) (t pick tag : Nat) (gd ga : Reg),
    let a := (s.g t ga).toNat
    let ws := (s.descWords a 8).1
    (s.ready t 4 = true → s.spErr = [] → s.checkOwn t a 64 64 .dmaDescriptor (s.g t ga) = none → s.cutPending a 64 = false → dmaOk ws = true →
      s.extsCheck t (dmaOf ws) = none → (s.tags.filter fun h => h.2 == t).length < 256 →
      (∃ g0 : Nat, g0 / 2048 = t / 96 ∧ ∀ h ∈ s.tags, h.1 ≠ g0) →
      ∃ g t', exec (.dmaIssue t gd ga pick) s = .next t' ∧ s.wrote t' t 4 gd (BitVec.ofNat 64 g) ∧ g / 2048 = t / 96 ∧
        (∀ h ∈ s.tags, h.1 ≠ g) ∧ t'.tags = s.tags ++ [(g, t)] ∧ (∃ d ∈ (t'.tile t).dma, d.tag = g ∧ d.desc = ws) ∧
        t'.mem = s.mem) ∧
    (∀ (d : DmaXfer) (w : Word), s.ready t 4 = true → s.heldXfer t (s.g t ga) = some d → d.status = some w →
      (∃ t', exec (.dmaWait t gd ga) s = .next t' ∧ s.wrote t' t 4 gd w ∧ (∀ h ∈ t'.tags, h.1 ≠ d.tag)) ∧
      (∃ t', exec (.dmaPoll t gd ga) s = .next t' ∧ s.wrote t' t 4 gd w ∧ (∀ h ∈ t'.tags, h.1 ≠ d.tag))) ∧
    (∀ d : DmaXfer, s.ready t 4 = true → s.heldXfer t (s.g t ga) = some d → d.status = none →
      exec (.dmaPoll t gd ga) s = .next (s.result t 4 gd (BitVec.allOnes 64)) ∧
      (∃ t', exec (.dmaWait t gd ga) s = .next t' ∧ (t'.tile t).ctx.wait = some (.dmaWait t gd ga) ∧ t'.tags = s.tags)) ∧
    (∀ x : DmaXfer, (s.tile t).dma.find? (fun d => d.tag == tag) = some x → (s.tile t).live = true → (s.tile t).ending = false →
      x.running = true → x.waiting = false → x.status = none → s.handles = [] → ∀ flips : List Nat,
      ∃ t', exec (.dmaTransferComplete t tag flips) s = .next t' ∧
        ∃ d ∈ (t'.tile t).dma, d.tag = tag ∧ d.status.isSome = true ∧ d.running = false) ∧
    (∀ x : DmaXfer, (s.tile t).dma.find? (fun d => d.tag == tag) = some x → (s.tile t).ending = false → x.running = true →
      x.waiting = false → x.status = none → x.refused = false → x.slot = none → s.handles = [] → s.spErr = [] → s.canonical = true →
      let d := dmaOf x.desc
      let p := (s.tile t).part
      let src (i j : Nat) : Nat := (rowAt d.src d.ss2 d.ss1 i j).toNat
      let dst (i j : Nat) : Nat := (rowAt d.dst d.ds2 d.ds1 i j).toNat
      let inSp (a n : Nat) : Prop := 0x200000000000 ≤ a ∧ a + n ≤ 0x300000000000
      let inDram (a n : Nat) : Prop := a + n ≤ dramTop ∧ s.unregulated p ∧ s.sound p a n
      d.kind ≤ 4 → d.dstBlock = false → d.overlaps = false →
      (∀ i : Nat, i < d.cnt2 → ∀ j : Nat, j < d.cnt1 → ∀ k : Nat, k < d.cnt2 → ∀ l : Nat, l < d.cnt1 → (i, j) ≠ (k, l) →
        dst i j + d.dstRow ≤ dst k l ∨ dst k l + d.dstRow ≤ dst i j) →
      (∀ i : Nat, i < d.cnt2 → ∀ j : Nat, j < d.cnt1 →
        (d.kind ≠ 1 → inSp (src i j) d.srcRow ∨ (d.kind = 0 ∧ inDram (src i j) d.srcRow)) ∧
        (d.srcBlock = true → inSp (rowAt d.scaleBase d.sc2 d.sc1 i j).toNat d.scaleRow) ∧
        (inSp (dst i j) d.dstRow ∨ (d.kind ≤ 1 ∧ inDram (dst i j) d.dstRow))) →
      ∃ t', exec (.dmaTransferComplete t tag []) s = .next t' ∧ ∀ i : Nat, i < d.cnt2 → ∀ j : Nat, j < d.cnt1 →
        let bs := (Mem.readN s.mem (src i j) d.srcRow).map some
        let sc := (Mem.readN s.mem (rowAt d.scaleBase d.sc2 d.sc1 i j).toNat d.scaleRow).map some
        (d.kind = 0 → ∀ k : Nat, k < d.len0 → Mem.read t'.mem (dst i j + k) = Mem.read s.mem (src i j + k)) ∧
        (d.kind = 1 → ∀ k : Nat, k < d.len0 → Mem.read t'.mem (dst i j + k) = d.aux.extractLsb' (8 * (k % 8)) 8) ∧
        (d.kind = 2 → Mem.readN t'.mem (dst i j) d.dstRow = onesFor (convRow d bs (if d.srcBlock then sc else [])).1) ∧
        (d.kind = 3 → Mem.readN t'.mem (dst i j) d.dstRow = onesFor (encRow d bs)) ∧
        (d.kind = 4 → Mem.readN t'.mem (dst i j) d.dstRow = onesFor (decRow d bs).1))

/-- Matrix instructions are accepted. On a tile that may run its next 8-byte instruction, whose running context is the
primary or a filler task that may use the arrays, and which has fewer than 16 matrix operations not complete, each
matrix instruction completes by being accepted: an MMA.LOAD, MMA.STREAM or MMA.DRAIN whose words are legal, whose
operands stand within R80 and R110 and whose bytes lie in the tile’s own scratchpad goes to the end of the cluster’s
queue with the operands of its registers and MOD32, as does MMA.DRAIN.DBG in debug mode; each moves the pc past it and
changes no register, no memory and nothing outside the tile. With 16 not complete a legal one waits. -/
def Obligations.MatrixIssue : Prop :=
  (∀ (s : State) (t : Nat) (gd ga gb gc : Reg) (mod : BitVec 32) (cs : List Chain) (f : Fmt),
    s.ready t 8 = true → s.inFiller t = false ∨ s.rb (t / 96) (filOff t) 61 = true → (s.tile t).mmaq.length < 16 →
    chainsOf (wordFld mod 31 30) (wordFld mod 29 26) = some cs → badMode (s.tile t) cs (wordFld mod 31 30) = false →
    let x := s.tile t
    let as := chainArrays cs
    let ld : MmaOp := { kind := .load, gang := wordFld mod 31 30, aset := wordFld mod 29 26, slot := wordFld mod 25 22, cnt := wordFld mod 21 17, fmt := f, base := (s.g t ga).toNat, s1 := (s.g t gb).toNat % 2 ^ 32, s2 := (s.g t gb).toNat / 2 ^ 32, scaleBase := (s.g t gc).toNat % 2 ^ 48, scaleStride := (s.g t gc).toNat / 2 ^ 48 }
    let st : MmaOp := { kind := .stream, gang := wordFld mod 31 30, aset := wordFld mod 29 26, slot := wordFld mod 25 22, cnt := (s.g t gd).toNat, fmt := f, base := (s.g t ga).toNat, s1 := (s.g t gb).toNat, scaleBase := (s.g t gc).toNat % 2 ^ 48, scaleStride := (s.g t gc).toNat / 2 ^ 48, row0 := wordFld mod 17 12, rows := wordFld mod 11 5, km0 := x.ctx.cs 0x20, km1 := x.ctx.cs 0x21, nm0 := x.ctx.cs 0x22, nm1 := x.ctx.cs 0x23 }
    let dr : MmaOp := { kind := .drain, gang := wordFld mod 31 30, aset := wordFld mod 29 26, fmt := f, base := (s.g t ga).toNat, s1 := (s.g t gb).toNat / 2 ^ 32, s2 := (s.g t gb).toNat % 2 ^ 32, status := (s.g t gc).toNat, row0 := wordFld mod 17 12, rows := wordFld mod 11 5, rnd := wordFld mod 21 20, nsat := mod.getLsbD 19, key := x.ctx.orStream.key, ctr := x.ctx.orStream.ctr, off := x.ctx.orStream.off }
    let db : MmaOp := { kind := .debug, gang := wordFld mod 31 30, aset := wordFld mod 29 26, base := (s.g t ga).toNat, rows := 64 }
    (mmaIllegal 0 0 gb.toNat gc.toNat mod = false → fmtOfCode (wordFld mod 16 13) = some f → arrayFmt f = true →
      1 ≤ ld.cnt → ld.cnt ≤ 16 → ld.slot + ld.cnt ≤ slotsOf f → (f.isInt = true → ∀ a ∈ as, (x.arr a).iCls = .clear) →
      s.outsideSet t (loadRanges ld cs) = none →
      ∃ t', exec (.mmaLoad t ga gb gc mod) s = .next t' ∧ (t'.tile t).mmaq = x.mmaq ++ [ld] ∧ s.passed t' t 8 ∧ s.sameElse t' t) ∧
    (mmaIllegal 1 gd.toNat gb.toNat gc.toNat mod = false → fmtOfCode (wordFld mod 21 18) = some f → arrayFmt f = true →
      st.slot < slotsOf f → 1 ≤ st.rows → st.row0 + st.rows ≤ 64 → 1 ≤ st.cnt → st.cnt ≤ 4096 →
      (∀ a ∈ as, (x.arr a).iMode = st.gang ∧ ∃ lf, (x.arr a).iSlots.find (slotKey f st.slot) = some (lf, st.gang) ∧ pairOk lf f = true) →
      (∀ a ∈ as, (x.arr a).iCls = .clear ∨ (x.arr a).iCls = if f.isInt then .integer else .floating) →
      s.outsideSet t (streamRanges st) = none →
      ∃ t', exec (.mmaStream t gd ga gb gc mod) s = .next t' ∧ (t'.tile t).mmaq = x.mmaq ++ [st] ∧ s.passed t' t 8 ∧ s.sameElse t' t) ∧
    (mmaIllegal 2 0 gb.toNat gc.toNat mod = false → fmtOfCode (wordFld mod 25 22) = some f → 1 ≤ dr.rows → dr.row0 + dr.rows ≤ 64 →
      (∀ c ∈ cs, drainFmtOk (x.arr c.lower).iCls f = true) → s.outsideSet t (drainRanges dr) = none →
      dr.base % 64 = 0 → dr.s1 % 64 = 0 → dr.s2 % 64 = 0 → dr.status % 8 = 0 →
      ∃ t', exec (.mmaDrain t ga gb gc mod) s = .next t' ∧ (t'.tile t).mmaq = x.mmaq ++ [dr] ∧ s.passed t' t 8 ∧ s.sameElse t' t) ∧
    (mmaIllegal 3 0 0 0 mod = false → x.debug = true → s.outsideOwn t db.base (8 * (4096 * as.length)) = none → db.base % 64 = 0 →
      ∃ t', exec (.mmaDrainDbg t ga mod) s = .next t' ∧ (t'.tile t).mmaq = x.mmaq ++ [db] ∧ s.passed t' t 8 ∧ s.sameElse t' t)) ∧
  (∀ (s : State) (t : Nat) (gd ga gb gc : Reg) (mod : BitVec 32),
    s.ready t 8 = true → s.inFiller t = false → 16 ≤ (s.tile t).mmaq.length →
    (mmaIllegal 0 0 gb.toNat gc.toNat mod = false →
      ∃ t', exec (.mmaLoad t ga gb gc mod) s = .next t' ∧ (t'.tile t).ctx.wait = some (.mmaLoad t ga gb gc mod) ∧
        (t'.tile t).ctx.pc = (s.tile t).ctx.pc ∧ (t'.tile t).mmaq = (s.tile t).mmaq ∧ t'.mem = s.mem) ∧
    (mmaIllegal 1 gd.toNat gb.toNat gc.toNat mod = false →
      ∃ t', exec (.mmaStream t gd ga gb gc mod) s = .next t' ∧ (t'.tile t).ctx.wait = some (.mmaStream t gd ga gb gc mod) ∧
        (t'.tile t).ctx.pc = (s.tile t).ctx.pc ∧ (t'.tile t).mmaq = (s.tile t).mmaq ∧ t'.mem = s.mem) ∧
    (mmaIllegal 2 0 gb.toNat gc.toNat mod = false →
      ∃ t', exec (.mmaDrain t ga gb gc mod) s = .next t' ∧ (t'.tile t).ctx.wait = some (.mmaDrain t ga gb gc mod) ∧
        (t'.tile t).ctx.pc = (s.tile t).ctx.pc ∧ (t'.tile t).mmaq = (s.tile t).mmaq ∧ t'.mem = s.mem) ∧
    (mmaIllegal 3 0 0 0 mod = false → (s.tile t).debug = true →
      ∃ t', exec (.mmaDrainDbg t ga mod) s = .next t' ∧ (t'.tile t).ctx.wait = some (.mmaDrainDbg t ga mod) ∧
        (t'.tile t).ctx.pc = (s.tile t).ctx.pc ∧ (t'.tile t).mmaq = (s.tile t).mmaq ∧ t'.mem = s.mem))

/-- Matrix operations complete. Where the tile does not end a filler task and no cut-through link is open, the
completion of a queued matrix operation that no earlier one holds back takes it out of the queue: a load fills its
slots on each array it names, with the gang mode; a stream sets the class of each accumulator it adds to; a drain
clears the accumulator rows it read; where no integer accumulator it names is saturated, its range rows do not meet
and lie apart from its status word, each row it writes holds its elements, in order, as R56, R57 and R84 convert the
accumulators, and the status word counts the conversions that overflowed, with NAN where an accumulator was one and
the SHIFT of its arrays; a debug drain changes no array and writes only memory. Loads and streams write no memory.
ARRAY_GATE gates an array of a present tile on which nothing is queued, whose slots, accumulators and everything else
stay as they are, and changes nothing else. -/
def Obligations.MatrixCompletion : Prop :=
  ∀ (s : State) (t i a : Nat) (o : MmaOp) (cs : List Chain),
    let x := s.tile t
    (x.ending = false → x.mmaq[i]? = some o → chainsOf o.gang o.aset = some cs → (x.mmaq.take i).any (mmaAfter o) = false →
      s.handles = [] → s.spErr = [] →
      (o.kind = .load → ∃ t', exec (.mmaLoadComplete t i) s = .next t' ∧ (t'.tile t).mmaq = x.mmaq.eraseIdx i ∧ t'.mem = s.mem ∧
        ∀ c ∈ chainArrays cs, ((t'.tile t).arr c).mode = o.gang ∧
          ∀ k : Nat, k < o.cnt → ∃ sl, ((t'.tile t).arr c).slots.find (slotKey o.fmt (o.slot + k)) = some sl ∧ sl.fmt = o.fmt ∧ sl.gang = o.gang) ∧
      (o.kind = .stream → ∃ t', exec (.mmaStreamComplete t i) s = .next t' ∧ (t'.tile t).mmaq = x.mmaq.eraseIdx i ∧
        t'.mem = s.mem ∧ ∀ c ∈ cs, (if c.n1 then o.nm1 else o.nm0) ≠ 0 →
          ((t'.tile t).arr c.lower).cls = if o.fmt.isInt then .integer else .floating) ∧
      (o.kind = .drain → ∃ t', exec (.mmaDrainComplete t i) s = .next t' ∧ (t'.tile t).mmaq = x.mmaq.eraseIdx i ∧
        ∀ c ∈ cs, ∀ kv ∈ ((t'.tile t).arr c.lower).acc, kv.1 / 64 < o.row0 ∨ o.row0 + o.rows ≤ kv.1 / 64) ∧
      (o.kind = .drain → s.canonical = true → satIn x cs = false →
        let b := o.fmt.bytes 1
        let n := if o.gang = 2 then 128 else 64
        let rows := (drainUnits o.gang o.aset).flatMap fun u => (List.range o.rows).map fun i => (u.1, i)
        let ord := drainOrder o
        let rs := if o.rnd = 2 then (({ key := o.key, ctr := o.ctr, off := o.off } : OStream).draws ord.length).1 else ord.map fun _ => 0
        let acc (p : Nat × Nat × Nat × Nat) : Acc := (x.arr p.2.2.1).acc.val {} ((o.row0 + p.2.1) * 64 + p.2.2.2)
        let es := (ord.zip rs).map fun q =>
          drainElem o ((x.arr q.1.2.2.1).cls == .integer) (x.arr q.1.2.2.1).shift q.2 (acc q.1)
        rows.Pairwise (fun u v =>
          drainAddr o u.1 u.2 + n * b ≤ drainAddr o v.1 v.2 ∨ drainAddr o v.1 v.2 + n * b ≤ drainAddr o u.1 u.2) →
        (∀ u ∈ rows, drainAddr o u.1 u.2 + n * b ≤ o.status ∨ o.status + 8 ≤ drainAddr o u.1 u.2) →
        ∃ t', exec (.mmaDrainComplete t i) s = .next t' ∧ t'.reports = s.reports ∧
          (∀ (r : Nat) (u : Nat × Nat), rows[r]? = some u →
            Mem.readN t'.mem (drainAddr o u.1 u.2) (n * b) = ((es.drop (n * r)).take n).flatMap fun e => leBytes b e.1) ∧
          BitVec.ofNat 64 (leNat (Mem.readN t'.mem o.status 8)) = drainStatus (es.filter (·.2)).length false false
            (ord.any fun p => (acc p).nan) ((cs.map fun c => (x.arr c.lower).shift).foldl max 0)) ∧
      (o.kind = .debug → ∃ t', exec (.mmaDrainComplete t i) s = .next t' ∧ (t'.tile t).mmaq = x.mmaq.eraseIdx i ∧
        (t'.tile t).arrays = x.arrays ∧ { t' with tiles := s.tiles, mem := s.mem } = s)) ∧
    (s.tilePresent t = true → a < 4 → (x.mmaq.all fun q => !(chainArrays ((chainsOf q.gang q.aset).getD [])).contains a) = true →
      ∃ t', exec (.arrayGate t a) s = .next t' ∧ (t'.tile t).arr a = { x.arr a with gated := true } ∧
        (∀ b : Nat, b ≠ a → (t'.tile t).arr b = x.arr b) ∧ s.sameElse t' t)

/-- VEC.RUN and RNG. On a tile that may run its next instruction, with no scratchpad unit in error: VEC.RUN of a
descriptor that passes the checks of R160, with fewer than 4 runs accepted, completes with the run at the end of the
queue and nothing but the tile changed. RNG.GEN of 16 to 65,536 bytes, a multiple of 16, in the tile’s own scratchpad
at a multiple of 16 completes with the next draws of the stream written there, every other byte of memory as before;
RNG.GEN.R completes with the next 64 bits of the stream in gd. The completion of the oldest accepted run takes it from
the queue and leaves in its status word, in the tile’s own scratchpad, a word whose CODE is 0 or 1. -/
def Obligations.VectorAndRandom : Prop :=
  ∀ (s : State) (t : Nat) (gd ga gb : Reg),
    let a := (s.g t ga).toNat
    let n := (s.g t gb).toNat
    let steps := fld (wordAt (s.descWords a 1).1 0) 61 57
    let d := (s.descWords a (28 + steps)).1
    (s.ready t 8 = true → s.spErr = [] → 1 ≤ steps → steps ≤ 24 → s.checkOwn t a (224 + 8 * steps) 64 .recipe (s.g t ga) = none →
      s.cutPending a (224 + 8 * steps) = false →
      (recipeOf d).ok = true → s.recipeArea t (recipeOf d) n = none → (s.tile t).vecq.length < 4 →
      ∃ t', exec (.vecRun t ga gb) s = .next t' ∧ (t'.tile t).vecq = (s.tile t).vecq ++ [{ desc := d, status := n }] ∧
        s.passed t' t 8 ∧ s.sameElse t' t) ∧
    (s.canonical = true → s.ready t 4 = true → s.spErr = [] → s.outsideOwn t a n = none → n % 16 = 0 → 16 ≤ n → n ≤ 65536 →
      a % 16 = 0 →
      ∃ t', exec (.rngGen t ga gb) s = .next t' ∧ s.passed t' t 4 ∧
        Mem.readN t'.mem a n = drawBytes ((s.tile t).ctx.orStream.draws (n / 2)).1 ∧
        (t'.tile t).ctx.orStream = ((s.tile t).ctx.orStream.draws (n / 2)).2 ∧
        ∀ b : Nat, b < a ∨ a + n ≤ b → Mem.read t'.mem b = Mem.read s.mem b) ∧
    (s.ready t 4 = true →
      ∃ t', exec (.rngGenR t gd) s = .next t' ∧
        s.wrote t' t 4 gd (BitVec.ofNat 64 (leNat (drawBytes ((s.tile t).ctx.orStream.draws 4).1))) ∧
        (t'.tile t).ctx.orStream = ((s.tile t).ctx.orStream.draws 4).2 ∧ s.sameElse t' t) ∧
    (∀ (v : VecRun) (rest : List VecRun), s.canonical = true → (s.tile t).vecq = v :: rest → (s.tile t).ending = false →
      s.handles = [] → v.status % 8 = 0 → s.outsideOwn t v.status 8 = none → (s.tile t).saved = none →
      ∃ t', exec (.vecRunComplete t) s = .next t' ∧ (t'.tile t).vecq = rest ∧ leNat (Mem.readN t'.mem v.status 8) % 16 ≤ 1)

/-- Channel instructions. On a tile that may run its next instruction and is not a filler, with no scratchpad unit in
error: CH.SEND of a well-formed destination in the sender’s own partition, with fewer than 4 messages outstanding,
takes up a message with the 64 bytes at gb; with 4 outstanding it waits. CH.RECV and CH.TRY on a queue that holds a
message take the oldest into the scratchpad and give its sender in gd; on an empty queue CH.TRY gives all ones and
CH.RECV waits. CH.SELECT.P gives the lowest masked queue that holds a message, CH.SELECT.R the first from the one
after its last choice, and with none they wait. -/
def Obligations.ChannelInstructions : Prop :=
  ∀ (s : State) (t : Nat) (gd ga gb : Reg), s.ready t 4 = true → s.inFiller t = false → s.spErr = [] →
    let w := s.g t ga
    let b := (s.g t gb).toNat
    let q := w.toNat % 16
    let mask := w.toNat % 65536
    let inOwn : Prop := s.checkOwn t b 64 64 .channel w = none
    let waits (i : Instr) : Prop := ∃ t', exec i s = .next t' ∧ (t'.tile t).ctx.wait = some i ∧
      (t'.tile t).ctx.pc = (s.tile t).ctx.pc ∧ t'.msgs = s.msgs ∧ ∀ k : Nat, t'.queue t k = s.queue t k
    (w.toNat / 2 ^ 48 = 0 → fld w 31 26 = 0 → fld w 15 4 = 0 → destTile w < 768 → s.tilePresent (destTile w) = true →
      s.partOfTile (destTile w) = some (s.tile t).part →
      s.checkOwn t b 64 64 .channel w = none →
      ((s.msgs.filter fun m => m.sender == t).length < 4 → s.cutPending b 64 = false →
        ∃ t' m, exec (.chSend t ga gb) s = .next t' ∧ s.passed t' t 4 ∧ t'.msgs = s.msgs ++ [m] ∧ m.sender = t ∧
          m.part = (s.tile t).part ∧ m.dest = w ∧ m.payload = Mem.readN s.mem b 64 ∧ { t' with tiles := s.tiles, msgs := s.msgs } = s) ∧
      (4 ≤ (s.msgs.filter fun m => m.sender == t).length → waits (.chSend t ga gb))) ∧
    (∀ (m : QMsg) (rest : List QMsg), s.canonical = true → inOwn → s.queue t q = m :: rest → m.payload.length = 64 →
      (∃ t', exec (.chRecv t gd ga gb) s = .next t' ∧ s.wrote t' t 4 gd (BitVec.ofNat 64 m.sender) ∧ t'.queue t q = rest ∧
        Mem.readN t'.mem b 64 = m.payload ∧ ∀ a : Nat, a < b ∨ b + 64 ≤ a → Mem.read t'.mem a = Mem.read s.mem a) ∧
      (∃ t', exec (.chTry t gd ga gb) s = .next t' ∧ s.wrote t' t 4 gd (BitVec.ofNat 64 m.sender) ∧ t'.queue t q = rest ∧
        Mem.readN t'.mem b 64 = m.payload ∧ ∀ a : Nat, a < b ∨ b + 64 ≤ a → Mem.read t'.mem a = Mem.read s.mem a)) ∧
    (inOwn → s.queue t q = [] → waits (.chRecv t gd ga gb) ∧
      exec (.chTry t gd ga gb) s = .next (s.result t 4 gd (BitVec.allOnes 64))) ∧
    (∀ k : Nat, k < 16 → mask.testBit k = true → s.queue t k ≠ [] →
      (∀ j : Nat, j < k → mask.testBit j = true → s.queue t j = []) →
      exec (.chSelectP t gd ga) s = .next (s.result t 4 gd (BitVec.ofNat 64 k))) ∧
    (∀ i k : Nat, i < 16 → (s.tile t).sel < 16 → k = ((s.tile t).sel + i) % 16 → mask.testBit k = true → s.queue t k ≠ [] →
      (∀ j : Nat, j < i → mask.testBit (((s.tile t).sel + j) % 16) = true → s.queue t (((s.tile t).sel + j) % 16) = []) →
      ∃ t', exec (.chSelectR t gd ga) s = .next t' ∧ s.wrote t' t 4 gd (BitVec.ofNat 64 k) ∧ (t'.tile t).sel = (k + 1) % 16 ∧
        s.sameElse t' t) ∧
    (mask ≠ 0 → (∀ k : Nat, k < 16 → mask.testBit k = true → s.queue t k = []) →
      waits (.chSelectP t gd ga) ∧ waits (.chSelectR t gd ga))

/-- Channel messages arrive, are accepted, discarded and retried. A travelling message with no earlier one of its
sender and queue before it, met by a destination whose channels are open under its epoch and whose queue holds fewer
than 8, stands at the end of that queue and is accepted; with 8 held it is refused, once more counted, and no queue
changes; with the channels closed or of another epoch it is discarded. The acceptance of an accepted message and the
notice for a discarded one take it from the sender’s slots. A retry of a refused message with none before it sends it
again. A message arrives only where a path of modules from its sender is up (R332), and what it charges the regulators
is all that changes besides: nothing within a Hob. A watchdog whose open episode, full or empty, is enabled and has
reached its limit sets FIRED and makes one report of its source with the queue. -/
def Obligations.ChannelEvents : Prop :=
  ∀ (s : State) (i : Nat) (m : ChMsg), s.msgs[i]? = some m →
    let d := destTile m.dest
    let q := destQueue m.dest
    (m.phase = .travelling → s.aheadOf i m = [] → (m.sender < 768 → s.reaches m.sender d = true) →
      ((s.tile d).closed = false → (s.tile d).epoch.toNat = destEpoch m.dest → (s.queue d q).length < 8 →
        ∃ t', exec (.chMessageArrival i) s = .next t' ∧
          t'.queue d q = s.queue d q ++ [{ sender := m.sender, payload := m.payload }] ∧
          t'.msgs = s.msgs.set i { m with phase := .accepted } ∧
          (∀ k : Nat, k ≠ q → t'.queue d k = s.queue d k) ∧
          s.sameElse { t' with msgs := s.msgs, regs := s.regs, regOwed := s.regOwed } d ∧
          (m.sender / 96 = d / 96 → t'.regs = s.regs ∧ t'.regOwed = s.regOwed)) ∧
      ((s.tile d).closed = false → (s.tile d).epoch.toNat = destEpoch m.dest → 8 ≤ (s.queue d q).length →
        ∃ t' r, exec (.chMessageArrival i) s = .next t' ∧ t'.msgs = s.msgs.set i r ∧ r.phase = .refused ∧
          r.refusals = m.refusals + 1 ∧ ∀ k : Nat, t'.queue d k = s.queue d k) ∧
      ((s.tile d).closed = true ∨ (s.tile d).epoch.toNat ≠ destEpoch m.dest →
        ∃ t', exec (.chMessageArrival i) s = .next t' ∧ t'.msgs = s.msgs.set i { m with phase := .discarded } ∧
          ∀ k : Nat, t'.queue d k = s.queue d k)) ∧
    (m.phase = .accepted → ∃ t', exec (.chAcceptance i) s = .next t' ∧ t'.msgs.length + 1 = s.msgs.length) ∧
    (m.phase = .discarded → ∃ t', exec (.chDiscardNotice i) s = .next t' ∧ t'.msgs.length + 1 = s.msgs.length) ∧
    (m.phase = .refused → s.aheadOf i m = [] →
      exec (.chRetry i) s = .next { s with msgs := s.msgs.set i { m with phase := .travelling } }) ∧
    (m.phase = .travelling → m.sender < 768 → s.reaches m.sender d = false → exec (.chMessageArrival i) s = .next s) ∧
    (∀ (t k j : Nat) (e : Episode), j = k ∨ j = emptyKey k → (s.tile t).wd.find j = some e → e.reported = false →
      let w := s.cnt t (0x140 + k)
      w.getLsbD (if e.full then 63 else 62) = true → 1 ≤ w.toNat % 2 ^ 32 →
      1000 * (w.toNat % 2 ^ 32) ≤ (s.now (t / 96) + 2 ^ 64 - e.opened) % 2 ^ 64 →
      ∃ t' r, exec (.chWatchdogFire t k) s = .next t' ∧ (t'.cnt t (0x140 + k)).getLsbD 32 = true ∧
        t'.reports = s.reports ++ [r] ∧ r.src = 0x003 ∧ r.inst = t ∧ r.value = BitVec.ofNat 64 k)

/-- SQ.PUSH, SQ.POP and SQ.REL. On a tile that may run its next instruction and is not a filler, with no scratchpad
unit in error: SQ.PUSH on a send handle open for the tile, whose earlier push is finished and whose entry header and
payload pass R182 to R184, takes the oldest credit and counts one push; with no credit it waits and counts a stall.
SQ.POP on an open receive handle with an entry visible takes the oldest, gives its index in gd, counts one, and copies
the entry’s 64-byte header to gb with the entry’s place in its payload address, every other byte of memory staying;
with none it waits. SQ.REL of an entry the tile has popped, whose payload has landed, takes it out of the popped
entries, returns its credit to the send end, on the package or over the handle’s link (in an SLCREDIT cell once 29
wait there), and completes. -/
def Obligations.StageLinkInstructions : Prop :=
  ∀ (s : State) (t : Nat) (gd ga gb : Reg), s.ready t 4 = true → s.inFiller t = false → s.spErr = [] →
    let h := (s.g t ga).toNat % 4096
    let a := (s.g t gb).toNat
    let x := s.slEnd h
    let w := (s.descWords a 8).1
    s.diePresent (slHob h) = true →
    (s.slFor t h false = true → s.checkOwn t a 64 64 .stageLink (BitVec.ofNat 64 h) = none → s.cutPending a 64 = false → hdrOk w x.size = true →
      s.payOutside t (fld (wordAt w 2) 47 0) (hdrLen w) = none →
      (s.flights.all fun f => f.src != h || f.remoteIn || decide (f.len ≤ f.done) || f.dropped) = true →
      (∀ (i : Nat) (rest : List Nat), x.credits = i :: rest →
        ∃ t', exec (.sqPush t ga gb) s = .next t' ∧ s.passed t' t 4 ∧ (t'.slEnd h).credits = rest ∧
          (t'.slEnd h).seq = (x.seq + 1) % 2 ^ 32 ∧ t'.mem = s.mem) ∧
      (x.credits = [] → ∃ t', exec (.sqPush t ga gb) s = .next t' ∧ (t'.tile t).ctx.wait = some (.sqPush t ga gb) ∧
        t'.handles = s.handles ∧ t'.rg (slHob h) (slOff h + 0x28) = s.rg (slHob h) (slOff h + 0x28) + 1)) ∧
    (s.slFor t h true = true → s.checkOwn t a 64 64 .stageLink (BitVec.ofNat 64 h) = none →
      (∀ (e : SlEntry) (rest : List SlEntry), x.visible = e :: rest →
        ∃ t', exec (.sqPop t gd ga gb) s = .next t' ∧ s.wrote t' t 4 gd (BitVec.ofNat 64 e.idx) ∧ (t'.slEnd h).visible = rest ∧
          (t'.slEnd h).popped = x.popped ++ [{ e with tile := t }] ∧
          t'.rg (slHob h) (slOff h + 0x20) = s.rg (slHob h) (slOff h + 0x20) + 1 ∧
          (s.canonical = true → e.header.length = 8 →
            (∀ k : Nat, k < 8 → wordAt (wordsOf 8 (Mem.readN t'.mem a 64)) k =
              if k = 2 then setFld (wordAt e.header 2) 47 0 (x.base + e.idx * x.size) else wordAt e.header k) ∧
            ∀ b : Nat, b < a ∨ a + 64 ≤ b → Mem.read t'.mem b = Mem.read s.mem b)) ∧
      (x.visible = [] → ∃ t', exec (.sqPop t gd ga gb) s = .next t' ∧ (t'.tile t).ctx.wait = some (.sqPop t gd ga gb) ∧
        t'.handles = s.handles)) ∧
    (∀ e : SlEntry, s.slFor t h true = true → (x.popped.find? fun e => e.idx == a && e.tile == t) = some e →
      (x.cut = false ∨ hdrLen e.header ≤ e.landed) →
      ∃ t', exec (.sqRel t ga gb) s = .next t' ∧ s.passed t' t 4 ∧ (t'.slEnd h).popped = x.popped.filter (fun y => y.idx != a) ∧
        (t'.slEnd h).visible = x.visible ∧
        (let c : SlCredit := { dst := x.peer, idx := a, epoch := x.epoch, part := x.part, link := if x.path then some x.linkNo else none }
         let l := x.linkNo
         let wait := s.linkCredits.val [] l ++ [c]
         (x.path = false → t'.slCredits = s.slCredits ++ [c] ∧ t'.linkCredits = s.linkCredits) ∧
         (x.path = true → t'.slCredits = s.slCredits ∧
           t'.linkCredits.val [] l = if wait.length < 29 then wait else wait.drop (s.cellBytes l / 8))))

/-- Stage links open, carry and return. A write of OPEN = 1 to a handle of a present Hob whose settings pass R181
opens it with those settings, a send end with its DEPTH credits, a receive end with none; a write of OPEN = 0 closes
it. A header that arrives in order at an open receive end of its epoch and settings, with its payload still to come,
joins the arriving entries of a handle that is not cut through. One that arrives at an end not open, not receiving or
of another epoch, or whose settings differ, is discarded: counted in SL_DISC, its credit going back marked, of one
pushed on the package to its sender; where only the settings differ MISMATCH is set too. Payload bytes of a push on
the package that arrive are written to the landing ring at the entry, in scratchpad, or in DRAM where no regulator of
the partition is on and the ring is served without error; with the last of them the entry, if it is the oldest still
arriving, becomes visible. A credit that arrives at an open send end of its epoch joins its credits. A flush sends the
returns that wait for a link. -/
def Obligations.StageLinkEvents : Prop :=
  ∀ (s : State) (h i n l : Nat) (v : Word),
    let d := slHob h
    let o := slOff h
    let w := (v ||| 0x8000000000000000) &&& slMask
    let x : SlEnd := { cfg := w, ring := s.rg d (o + 8), size := (s.rg d (o + 0x10)).toNat % 2 ^ 32 }
    (s.diePresent d = true → (s.slEnd h).isOpen = false → s.slOk x = true →
      ∃ t', exec (.slOpen h v) s = .next t' ∧ t'.slEnd h = { x with credits := if x.recv then [] else List.range x.depth } ∧
        t'.rg d o = w ∧ t'.rg d (o + 0x20) = 0 ∧ t'.rg d (o + 0x28) = 0 ∧ t'.rg d (o + 0x30) = 0 ∧ t'.tiles = s.tiles ∧ t'.mem = s.mem) ∧
    (s.diePresent d = true → ∃ t', exec (.slClose h v) s = .next t' ∧ (t'.slEnd h).isOpen = false ∧ t'.rb d o 63 = false ∧ t'.mem = s.mem) ∧
    (∀ f : SlFlight, s.flights[i]? = some f → f.hdrDone = false → f.remoteOut = false → 0 < f.len →
      ((s.flights.take i).all fun e => e.hdrDone || e.remoteOut || e.src != f.src || e.dst != f.dst) = true →
      let y := s.slEnd f.dst
      y.isOpen = true → y.recv = true → y.epoch = f.epoch → y.cut = f.cut → y.depth = f.depth → y.size = f.size → y.cut = false →
      f.len = hdrLen f.header → (∀ e ∈ y.arriving, e.landed < hdrLen e.header) →
      exec (.slHeaderArrival i) s = .next (State.setSlEnd { s with flights := s.flights.set i { f with hdrDone := true } } f.dst
        { y with arriving := y.arriving ++ [{ idx := f.idx, seq := f.seq, header := f.header }] })) ∧
    (∀ f : SlFlight, s.flights[i]? = some f → f.hdrDone = false → f.remoteOut = false →
      ((s.flights.take i).all fun e => e.hdrDone || e.remoteOut || e.src != f.src || e.dst != f.dst) = true →
      let y := s.slEnd f.dst
      let off := y.isOpen = false ∨ y.recv = false ∨ y.epoch ≠ f.epoch
      let other := y.cut ≠ f.cut ∨ y.depth ≠ f.depth ∨ y.size ≠ f.size
      off ∨ other →
      ∃ t', exec (.slHeaderArrival i) s = .next t' ∧ t'.slEnd f.dst = y ∧ t'.mem = s.mem ∧
        t'.rg (slHob f.dst) (slOff f.dst + 0x30) = s.rg (slHob f.dst) (slOff f.dst + 0x30) + 1 ∧
        (¬off → bitOf (t'.rg (slHob f.dst) (slOff f.dst + 0x18)) 1 = true) ∧
        (f.remoteIn = false → t'.flights = s.flights.eraseIdx i ∧ t'.slCredits = s.slCredits ++
          [{ dst := f.src, idx := f.idx, epoch := f.epoch, disc := true, part := f.part, link := none }])) ∧
    (∀ f : SlFlight, s.canonical = true → s.spErr = [] → s.flights[i]? = some f → f.hdrDone = true → f.remoteOut = false → f.remoteIn = false → f.dropped = false →
      0 < n → f.done + n < f.len → isDram (f.payload + f.done) = false → s.cutPending (f.payload + f.done) n = false →
      let y := s.slEnd f.dst
      let a := y.base + f.idx * y.size + f.done
      isDram a = false →
      ∃ t', exec (.slDataArrival i n) s = .next t' ∧ Mem.readN t'.mem a n = Mem.readN s.mem (f.payload + f.done) n ∧
        t'.flights[i]? = some { f with done := f.done + n }) ∧
    (∀ f : SlFlight, s.canonical = true → s.spErr = [] → s.flights[i]? = some f → f.hdrDone = true → f.remoteOut = false → f.remoteIn = false → f.dropped = false →
      0 < n → f.done + n ≤ f.len → isDram (f.payload + f.done) = false → s.cutPending (f.payload + f.done) n = false →
      let y := s.slEnd f.dst
      let a := y.base + f.idx * y.size + f.done
      a + n ≤ dramTop → s.unregulated y.part → s.unregulated f.part → s.sound y.part a n →
      ∃ t', exec (.slDataArrival i n) s = .next t' ∧
        ∀ k : Nat, k < n → t'.dramIs y.part (a + k) (Mem.read s.mem (f.payload + f.done + k))) ∧
    (∀ (f : SlFlight) (e : SlEntry) (r : List SlEntry), s.flights[i]? = some f → f.hdrDone = true → f.remoteOut = false →
      f.remoteIn = false → f.dropped = false → 0 < n → f.done < f.len → f.len ≤ f.done + n →
      s.cutPending (f.payload + f.done) (f.len - f.done) = false →
      let y := s.slEnd f.dst
      y.cut = false → y.arriving = e :: r → e.idx = f.idx → hdrLen e.header ≤ e.landed + (f.len - f.done) →
      (∀ z ∈ y.visible ++ y.popped ++ r, z.idx ≠ f.idx) →
      ∃ t', exec (.slDataArrival i n) s = .next t' ∧ t'.flights = s.flights.eraseIdx i ∧
        ∃ q, (t'.slEnd f.dst).visible = y.visible ++ { e with landed := e.landed + (f.len - f.done) } :: q) ∧
    (∀ c : SlCredit, s.slCredits[i]? = some c → ((s.slCredits.take i).all fun e => e.dst != c.dst) = true →
      (s.slEnd c.dst).isOpen = true → (s.slEnd c.dst).recv = false → (s.slEnd c.dst).epoch = c.epoch →
      ∃ t', exec (.slCreditArrival i) s = .next t' ∧ (t'.slEnd c.dst).credits = (s.slEnd c.dst).credits ++ [c.idx] ∧
        t'.slCredits = s.slCredits.eraseIdx i) ∧
    (∀ c : SlCredit, ∀ r : List SlCredit, s.linkCredits.val [] l = c :: r →
      ∃ t', exec (.slCreditFlush l) s = .next t' ∧ t'.linkCredits.val [] l = (c :: r).drop (s.cellBytes l / 8))

/-- Almanac instructions. On a tile that may run its next instruction and is not a filler, with a block of a valid
group of its own partition: AL.GET gives the current version. AL.GET.P gives it and, where its count is below the
largest, raises that by one, no other count changing. AL.PIN of a held version with such a count raises it by one; of
a version not held it takes the ALMANAC trap. AL.UNPIN of the current version, held with a count above zero and no
commit waiting, lowers its count by one; of the oldest version with a count of one, in a group without a mirror that
holds a newer one, it retires that version; of a version not held, or with a count of zero, it takes the ALMANAC trap.
A block of no valid group, or of another partition’s group, or any of the four in a filler task, takes the ALMANAC
trap with the block’s number. On a tile that may run its next instruction and is not a filler, AL.COMMIT of a valid
group of its own partition that commits by tile, with no commit waiting, makes the version after the current one
current with a count of zero; where at least two buffers are free, and the group has no mirror or a copy to it is
under way, it gives that number in gd at once, and where no more than one is free and the oldest held version has a
count, it waits, the version being current already. A tile that waits in AL.COMMIT goes on with its answer once there
is one, and waits on without one. A group that is not valid, of another partition, or not committed by tiles takes the
ALMANAC trap. -/
def Obligations.AlmanacInstructions : Prop :=
  (∀ (s : State) (t : Nat) (gd ga gb : Reg), s.ready t 4 = true →
    let b := fld (s.g t ga) 11 0
    let v : BitVec 16 := (s.g t gb).setWidth 16
    (∀ g : Nat, s.inFiller t = false → s.alGroupOf b = some g → s.alPart g = (s.tile t).part →
      let x := s.group g
      exec (.alGet t gd ga) s = .next (s.result t 4 gd (x.current.setWidth 64)) ∧
      (x.count x.current < 0xFFFFFFFF →
        ∃ t', exec (.alGetP t gd ga) s = .next t' ∧ s.wrote t' t 4 gd (x.current.setWidth 64) ∧
          (t'.group g).count x.current = x.count x.current + 1 ∧
          ∀ w : BitVec 16, w ≠ x.current → (t'.group g).count w = x.count w) ∧
      (x.holds v = true → x.count v < 0xFFFFFFFF →
        ∃ t', exec (.alPin t ga gb) s = .next t' ∧ s.passed t' t 4 ∧ (t'.group g).count v = x.count v + 1 ∧
          ∀ w : BitVec 16, w ≠ v → (t'.group g).count w = x.count w) ∧
      (v = x.current → 0 < x.count v → x.commits = [] →
        ∃ t', exec (.alUnpin t ga gb) s = .next t' ∧ s.passed t' t 4 ∧ (t'.group g).current = v ∧
          (t'.group g).count v + 1 = x.count v) ∧
      (v = x.oldest → x.oldest ≠ x.current → x.count v = 1 → s.alMirror g = false → x.commits = [] →
        ∃ t', exec (.alUnpin t ga gb) s = .next t' ∧ s.passed t' t 4 ∧ (t'.group g).oldest ≠ v) ∧
      (s.hasHandler t = true → x.holds v = false →
        ∃ t', exec (.alPin t ga gb) s = .next t' ∧ s.entered t' t 4 0x0C (BitVec.ofNat 64 b)) ∧
      (s.hasHandler t = true → x.holds v = false ∨ x.count v = 0 →
        ∃ t', exec (.alUnpin t ga gb) s = .next t' ∧ s.entered t' t 4 0x0C (BitVec.ofNat 64 b))) ∧
    (s.hasHandler t = true →
      (s.inFiller t = true ∨ s.alGroupOf b = none ∨ ∃ g, s.alGroupOf b = some g ∧ s.alPart g ≠ (s.tile t).part) →
      ∀ i ∈ [Instr.alGet t gd ga, .alGetP t gd ga, .alPin t ga gb, .alUnpin t ga gb],
        ∃ t', exec i s = .next t' ∧ s.entered t' t 4 0x0C (BitVec.ofNat 64 b))) ∧
  (∀ (s : State) (t : Nat) (gd ga : Reg),
    let g := fld (s.g t ga) 11 0
    let x := s.group g
    (s.ready t 4 = true → s.inFiller t = false → s.alValid g = true → s.alPart g = (s.tile t).part → s.alCommitter g = 0 →
      x.commits = [] → t < 768 →
      ∃ t', exec (.alCommit t gd ga) s = .next t' ∧ (t'.group g).current = x.current + 1 ∧
        (t'.group g).count (x.current + 1) = 0 ∧
        (x.heldCount + 1 < s.alSlots g → s.alMirror g = false ∨ x.copying ≠ none →
          s.wrote t' t 4 gd ((x.current + 1).setWidth 64) ∧ (t'.group g).commits = []) ∧
        (s.alSlots g ≤ x.heldCount + 1 → 0 < x.count x.oldest → x.answers.find t = none →
          (t'.tile t).ctx.wait = some (.alCommit t gd ga) ∧ (t'.tile t).ctx.pc = (s.tile t).ctx.pc ∧
          ∃ w, (t'.group g).commits = [(t, some w)])) ∧
    (s.ready t 4 = true → s.hasHandler t = true →
      s.inFiller t = true ∨ s.alValid g = false ∨ s.alPart g ≠ (s.tile t).part ∨ s.alCommitter g ≠ 0 →
      ∃ t', exec (.alCommit t gd ga) s = .next t' ∧ s.entered t' t 4 0x0C (BitVec.ofNat 64 g)) ∧
    ((s.tile t).live = true → (s.tile t).ending = false → (s.tile t).ctx.wait = some (.alCommit t gd ga) →
      (∀ w : Word, x.answers.find t = some w →
        ∃ t', exec (.alCommit t gd ga) s = .next t' ∧ s.wrote t' t 4 gd w) ∧
      (x.answers.find t = none →
        ∃ t', exec (.alCommit t gd ga) s = .next t' ∧ (t'.tile t).ctx.wait = some (.alCommit t gd ga) ∧
          (t'.tile t).ctx.pc = (s.tile t).ctx.pc ∧ t'.groups = s.groups)))

/-- Almanac groups are set up, filled by their homes, mirrored and ended. A write of AL_GCFG with VALID of a group
that is not valid sets it up at its initial version with that version’s count zero where the settings pass the checks
of R196, and otherwise leaves VALID 0 with CFG_ERR. On a valid group without a mirror a write without MIRROR changes
nothing of AL_GCFG. A write of VALID 0 drops the versions and counts of a valid group, answers each commit that a tile
still waits for (with its number where it took effect, else with all ones), and, where no collective applies to the
group, leaves VALID 0. A block report counts the block in WRITTEN; with the last block, where no commit waits, the
next version becomes current and WRITTEN is empty again; in a mirrored group that was caught up, with a mirror link in
use, its copy is then under way, MIRRORED as before. A version copy of a mirrored group every byte of which has
arrived becomes current where the staging buffer is free, and before its last byte nothing happens; a copy whose
acknowledgement has arrived is MIRRORED. -/
def Obligations.AlmanacEvents : Prop :=
  ∀ (s : State) (g : Nat) (v : Word), g < 1024 →
    let x := s.group g
    let w := setBit v 63 true &&& alMask
    (s.alValid g = false → s.alOk g w = true →
      ∃ t', exec (.alGroupValidate g v) s = .next t' ∧ t'.alCfg g = w ∧ (t'.group g).current.toNat = fld w 47 32 ∧
        (t'.group g).oldest = (t'.group g).current ∧ (t'.group g).count (t'.group g).current = 0 ∧ t'.mem = s.mem) ∧
    (s.alValid g = false → s.alOk g w = false →
      ∃ t', exec (.alGroupValidate g v) s = .next t' ∧ t'.alValid g = false ∧ (t'.group g).cfgErr = true ∧ t'.mem = s.mem) ∧
    (s.alValid g = true → s.alMirror g = false → bitOf v 60 = false →
      ∃ t', exec (.alGroupValidate g v) s = .next t' ∧ t'.alCfg g = s.alCfg g) ∧
    (s.alValid g = true → ((x.commits.map (·.1)).filter (· < 768)).Nodup →
      ∃ t', exec (.alGroupEnd g v) s = .next t' ∧ (t'.group g).counts = [] ∧ (t'.group g).commits = [] ∧
        (t'.group g).waiting = false ∧
        (∀ c ∈ x.commits, c.1 < 768 → (t'.group g).answers.find c.1 =
          some (match c.2 with | some n => BitVec.ofNat 64 n | none => BitVec.allOnes 64)) ∧
        ((∀ kv ∈ s.colls, s.rxValid kv.1 = true → s.rxApply kv.1 = true → s.rxGroup kv.1 ≠ g) →
          t'.alValid g = false)) ∧
    (∀ i b : Nat, s.blockReports[i]? = some (g, b) →
      let wr := if x.written.contains b then x.written else x.written ++ [b]
      (wr.length < s.alNblk g → exec (.almanacBlockReport i) s =
        .next { s with blockReports := s.blockReports.eraseIdx i, groups := s.groups.put g { x with written := wr } }) ∧
      (s.alNblk g ≤ wr.length → x.commits = [] →
        ∃ t', exec (.almanacBlockReport i) s = .next t' ∧ (t'.group g).current = x.current + 1 ∧ (t'.group g).written = [] ∧
          (t'.group g).count (x.current + 1) = 0 ∧
          (s.alMirror g = true → s.alCommitter g ≠ 2 → x.copying = none → x.mirrored = x.current → s.mirrorLink ≠ none →
            (t'.group g).copying = some (x.current + 1).toNat ∧ (t'.group g).mirrored = x.mirrored))) ∧
    (∀ rs : List (Nat × List Byte), s.alValid g = true → s.alCommitter g = 2 → s.alStagingFree g = true →
      s.copyWhole g (x.current + 1).toNat = some rs →
      ∃ t', exec (.mirrorCopyArrival g (x.current + 1).toNat) s = .next t' ∧ (t'.group g).current = x.current + 1 ∧
        t'.unitIn = s.unitIn.filter fun c => !(c.cls == 4 && c.object == g)) ∧
    (s.alValid g = true → s.alCommitter g = 2 → s.copyWhole g (x.current + 1).toNat = none →
      exec (.mirrorCopyArrival g (x.current + 1).toNat) s = .next s) ∧
    (∀ (ver : Nat) (c : LkCell), s.alValid g = true → x.copying = some ver → s.unitCell 5 [4, g, ver] = some c →
      ∃ t', exec (.mirrorAck g ver) s = .next t' ∧ (t'.group g).mirrored = BitVec.ofNat 16 ver)

/-- Filler tasks, what they may not use, their registers, and the reset of a tile. For a running tile whose FIL_CTL.EN
is set, whose ring holds a record, whose primary waits where a task may run, whose units are idle and whose arrays,
where their check is asked for, are clear: FILLER_TASK_START takes the record at HEAD; with BOUND zero it runs
nothing; otherwise the primary’s context is kept and a context starts at ENTRY (on its 4-byte boundary: the model’s
choice, assumption log 22) with ARG in g1, every other register zero and the trap vector of the record, to end within
BOUND microseconds. Where one of these does not hold, the ring is empty or a task runs already, nothing happens. A
running task that has reached its bound is reported; it ends, and the primary goes on where its units are idle, else
once they are; before its bound nothing happens. In a filler task whose trap handler may be entered, each instruction
of the classes CH, SQ, AL, RX and EX, and where FIL_CTL.MMA is 0 each of the matrix instructions, completes by
entering it, with the cause R209 names and the value R124 gives, and changes nothing else. A write of FIL_CTL through
the window of an absent die answers with a bus error. On a present tile: a write with EN 0 is kept and leaves no ring
that no enabled tile names; a write with EN 1 on a tile that shares a ring is kept where LOG2N is the ring’s and
ignored otherwise; with no ring of its base it starts one, HEAD and TAIL zero. The reset of a present tile completes:
its epochs advance by one and its queues are empty, a part that still ran on it ends, and nothing outside a tile
without a part changes; of an absent one it does nothing. That the reset of a live tile ends its part is DEDUCED
(assumption log 41). -/
def Obligations.FillerTasksAndTileReset : Prop :=
  (∀ (s : State) (t : Nat),
    let x := s.tile t
    (∀ r : FilRing, s.filRing t = some r →
      let w := wordsOf 4 (onesFor (s.readDram x.part (r.base + r.head.toNat % 2 ^ r.log2n * 32) 32).1)
      let bound := fld (wordAt w 3) 31 0
      let took := s.rings.map fun y => if y.named (t / 96) r.base then { y with head := y.head + 1 } else y
      (x.live = true → x.saved = none → s.rb (t / 96) (filOff t) 63 = true → s.mayFill t = true → r.head ≠ r.tail →
        s.unitsIdle t = true → (s.rb (t / 96) (filOff t) 61 = true → ∀ kv ∈ x.arrays, kv.2.cls = .clear) →
        ∃ t', exec (.fillerTaskStart t) s = .next t' ∧ t'.rings = took ∧
          (bound = 0 → t'.tile t = x) ∧
          (bound ≠ 0 → (t'.tile t).saved = some x.ctx ∧ (t'.tile t).ctx.pc = BitVec.ofNat 48 (fld (wordAt w 0) 47 2 * 4) ∧
            t'.g t 1 = wordAt w 1 ∧ (∀ q : Reg, q ≠ 1 → t'.g t q = 0) ∧
            (t'.tile t).ctx.cs 0x10 = BitVec.ofNat 64 (fld (wordAt w 2) 47 0) &&& maskOf 47 2 ∧
            (t'.tile t).ctx.wait = none ∧ (t'.tile t).deadline ≤ s.now (t / 96) + 1000 * bound)) ∧
      (x.saved ≠ none ∨ r.head = r.tail ∨ x.live = false ∨ s.rb (t / 96) (filOff t) 63 = false ∨ s.mayFill t = false ∨
        s.unitsIdle t = false ∨ (s.rb (t / 96) (filOff t) 61 = true ∧ ∃ kv ∈ x.arrays, kv.2.cls ≠ .clear) →
        exec (.fillerTaskStart t) s = .next s)) ∧
    (s.filRing t = none → exec (.fillerTaskStart t) s = .next s) ∧
    (x.saved = none ∨ x.ending = true ∨ s.now (t / 96) < x.deadline → exec (.fillerBoundExpiry t) s = .next s) ∧
    (∀ c : Ctx, x.saved = some c → x.ending = false → x.deadline ≤ s.now (t / 96) →
      ∃ t' r, exec (.fillerBoundExpiry t) s = .next t' ∧ t'.reports = s.reports ++ [r] ∧ r.src = 0x004 ∧ r.inst = t ∧
        (s.unitsIdle t = true → (t'.tile t).ctx = c ∧ (t'.tile t).saved = none ∧ (t'.tile t).ending = false) ∧
        (s.unitsIdle t = false → (t'.tile t).saved = some c ∧ (t'.tile t).ending = true))) ∧
  (∀ (s : State) (t : Nat) (gd ga gb gc : Reg) (m : BitVec 32), s.inFiller t = true → s.hasHandler t = true →
    let traps (len code : Nat) (v : Word) (i : Instr) : Prop := ∃ t', exec i s = .next t' ∧ s.entered t' t len code v
    let h : Word := BitVec.ofNat 64 (fld (s.g t ga) 11 0)
    (s.ready t 4 = true →
      (∀ i ∈ [Instr.chSend t ga gb, .chRecv t gd ga gb, .chTry t gd ga gb, .chSelectP t gd ga, .chSelectR t gd ga],
        traps 4 0x0A (s.g t ga) i) ∧
      (∀ i ∈ [Instr.sqPush t ga gb, .sqPop t gd ga gb, .sqRel t ga gb], traps 4 0x0B h i) ∧
      (∀ i ∈ [Instr.alGet t gd ga, .alGetP t gd ga, .alPin t ga gb, .alUnpin t ga gb, .alCommit t gd ga], traps 4 0x0C h i)) ∧
    (s.ready t 8 = true →
      (∀ i ∈ [Instr.rxContrib t gd ga gb gc, .rxRelease t ga gb, .rxWait t gd ga gb, .rxApply t ga gb gc, .rxGnorm t gd ga gb gc],
        traps 8 0x0D h i) ∧
      (∀ i ∈ [Instr.exDispatch t ga gb gc, .exCombine t ga gb gc], traps 8 0x10 h i) ∧
      (s.rb (t / 96) (filOff t) 61 = false →
        ∀ i ∈ [Instr.mmaLoad t ga gb gc m, .mmaStream t gd ga gb gc m, .mmaDrain t ga gb gc m, .mmaDrainDbg t ga m],
          traps 8 0x06 (m.setWidth 64) i))) ∧
  (∀ (s : State) (t : Nat) (v : Word),
    let d := t / 96
    let n := s.rf d (filOff t + 8) 63 56
    (s.tilePresent t = false → exec (.filCtlWrite t v) s = .next (s.emit .busError)) ∧
    (s.tilePresent t = true → bitOf (v &&& filMask) 63 = false →
      ∃ t', exec (.filCtlWrite t v) s = .next t' ∧ t'.rg d (filOff t) = v &&& filMask ∧ t'.rings ⊆ s.rings ∧
        ∀ r ∈ t'.rings, ∃ i, i < 96 ∧ t'.rb r.hob (filOff i) 63 = true ∧ t'.rf r.hob (filOff i + 8) 47 0 = r.base) ∧
    (s.tilePresent t = true → bitOf (v &&& filMask) 63 = true →
      (∀ r : FilRing, s.filRing t = some r →
        (r.log2n = n → exec (.filCtlWrite t v) s = .next (s.setRg d (filOff t) (v &&& filMask))) ∧
        (r.log2n ≠ n → exec (.filCtlWrite t v) s = .next s)) ∧
      (s.filRing t = none →
        ∃ t', exec (.filCtlWrite t v) s = .next t' ∧ t'.rg d (filOff t) = v &&& filMask ∧
          { hob := d, base := s.filBase t, log2n := n, head := 0, tail := 0 } ∈ t'.rings)) ∧
    (s.tilePresent t = true → ∃ t', exec (.tileReset t) s = .next t' ∧ (t'.tile t).epoch = (s.tile t).epoch + 1 ∧
      (∀ q : Nat, t'.queue t q = []) ∧ ((s.tile t).live = false → s.sameElse t' t) ∧
      ((s.tile t).live = true → (t'.tile t).live = false ∧ (t'.tile t).closed = true ∧ t'.mem = s.mem)) ∧
    (s.tilePresent t = false → exec (.tileReset t) s = .next s))

/-- RX instructions. On a tile that may run its next instruction and is not a filler, with a handle of a valid
collective of its partition and a step of it: RX.CONTRIB of a member, from bytes the tile may read, hands the agent
one contribution for each shard, in shard order, each from its part of those bytes. RX.GNORM does the same on P0 with
FP32 and a power of two of at least two shards, all homed on one package, the one that the step’s norm has already
where another collective set it, and marks its step, which counts as accepted; with homes elsewhere it takes the
COLLECTIVE trap. RX.WAIT gives the completion word of a completed round whose norm, where it has one, is formed, and
otherwise waits. RX.RELEASE is barred for a P0 step whose RX.GNORM was accepted; of a round already freed it changes
no collective; of one not yet open, with shards here, it waits and is held. A handle or step that does not name such a
round takes the COLLECTIVE trap. On a tile that may run its next instruction and is not a filler, with the handle of a
valid collective of its partition (other than P0), all of whose shards are here, and the step of an open round:
RX.RELEASE releases the round at each home in shard order and goes on. At a home that has not completed the round, its
release completes it and marks it released; at one that has, nothing changes. -/
def Obligations.CollectiveInstructions : Prop :=
  (∀ (s : State) (t : Nat) (gd ga gb gc : Reg), s.ready t 8 = true → s.inFiller t = false →
    let h := fld (s.g t ga) 11 0
    let c := s.coll h
    let n := s.rxNshard h
    let m := (s.g t gd).toNat
    let a := (s.g t gb).toNat
    let named (w : Word) : Prop := s.rxValid h = true ∧ s.rxPart h = (s.tile t).part ∧ s.rxStepOk h (w.setWidth 16) = true
    let hands (t' : State) (st : BitVec 16) : Prop := ∃ new : List Contrib, (t'.coll h).contribs = c.contribs ++ new ∧
      new.length = n ∧ ∀ i : Nat, i < n → ∃ x, new[i]? = some x ∧ x.shard = i ∧ x.member = m ∧ x.step = st ∧
        x.tile = some t ∧ x.src = a + i * s.rxBytes h ∧ x.grant = .waiting ∧ x.sent = false
    let stC : BitVec 16 := (s.g t gc).setWidth 16
    let stB : BitVec 16 := (s.g t gb).setWidth 16
    (named (s.g t gc) → s.rxMember h m = true → s.payOutside t a (n * s.rxBytes h) = none →
      (∃ t', exec (.rxContrib t gd ga gb gc) s = .next t' ∧ s.passed t' t 8 ∧ hands t' stC ∧ t'.mem = s.mem ∧ t'.regs = s.regs) ∧
      ((s.tile t).part = 0 → s.rxFmt h = .fp32 → 2 ≤ n → n &&& (n - 1) = 0 →
        (∀ i : Nat, i < n → s.rxHomeAt c i = (s.gstep stC).home.getD (s.rxHomeAt c 0)) →
        ∃ t', exec (.rxGnorm t gd ga gb gc) s = .next t' ∧ s.passed t' t 8 ∧ hands t' stC ∧ stC ∈ (t'.coll h).gnorms ∧
          (t'.gstep stC).accepted = true ∧ t'.mem = s.mem ∧ t'.regs = s.regs)) ∧
    (named (s.g t gc) → s.rxMember h m = true → s.hasHandler t = true → (s.tile t).part = 0 → s.rxFmt h = .fp32 → 2 ≤ n →
      n &&& (n - 1) = 0 → (∃ i, i < n ∧ s.rxHomeAt c i ≠ (s.gstep stC).home.getD (s.rxHomeAt c 0)) →
        ∃ t', exec (.rxGnorm t gd ga gb gc) s = .next t' ∧ s.entered t' t 8 0x0D (BitVec.ofNat 64 h)) ∧
    (named (s.g t gb) →
      (∀ w, (c.words.reverse.find? fun w => w.1 == stB) = some (stB, w) → s.rxNormed h stB = true →
        0 ≤ c.dist stB ∨ stB ∈ (c.words.reverse.take 2).map (·.1) →
        exec (.rxWait t gd ga gb) s = .next (s.result t 8 gd w)) ∧
      (0 ≤ c.dist stB → stB ∉ c.words.map (·.1) ∨ s.rxNormed h stB = false →
        ∃ t', exec (.rxWait t gd ga gb) s = .next t' ∧ (t'.tile t).ctx.wait = some (.rxWait t gd ga gb) ∧
          (t'.tile t).ctx.pc = (s.tile t).ctx.pc ∧ t'.colls = s.colls) ∧
      (s.hasHandler t = true → (s.tile t).part = 0 → (s.gstep stB).accepted = true →
        ∃ t', exec (.rxRelease t ga gb) s = .next t' ∧ s.entered t' t 8 0x0E (BitVec.ofNat 64 h)) ∧
      ((s.tile t).part ≠ 0 ∨ (s.gstep stB).accepted = false → c.dist stB < 0 →
        ∃ t', exec (.rxRelease t ga gb) s = .next t' ∧ s.passed t' t 8 ∧ t'.colls = s.colls) ∧
      ((s.tile t).part ≠ 0 ∨ (s.gstep stB).accepted = false → 0 ≤ c.dist stB → c.round stB = none → c.locals ≠ [] →
        ∃ t', exec (.rxRelease t ga gb) s = .next t' ∧ (t'.tile t).ctx.wait = some (.rxRelease t ga gb) ∧
          stB ∈ (t'.coll h).heldRelease ∧ ((s.tile t).part = 0 → (t'.gstep stB).void = true))) ∧
    (s.hasHandler t = true →
      (¬named (s.g t gc) → ∀ i ∈ [Instr.rxContrib t gd ga gb gc, .rxGnorm t gd ga gb gc],
        ∃ t', exec i s = .next t' ∧ s.entered t' t 8 0x0D (BitVec.ofNat 64 h)) ∧
      (¬named (s.g t gb) → ∀ i ∈ [Instr.rxRelease t ga gb, .rxWait t gd ga gb],
        ∃ t', exec i s = .next t' ∧ s.entered t' t 8 0x0D (BitVec.ofNat 64 h)))) ∧
  ((∀ (s : State) (t : Nat) (ga gb : Reg), s.ready t 8 = true → s.inFiller t = false →
    let h := fld (s.g t ga) 11 0
    let c := s.coll h
    let st : BitVec 16 := (s.g t gb).setWidth 16
    s.rxValid h = true → s.rxPart h = (s.tile t).part → (s.tile t).part ≠ 0 → s.rxStepOk h st = true → 0 ≤ c.dist st →
    c.locals = List.range c.shards.length → c.locals ≠ [] → ∀ r : Round, c.round st = some r → r.complete = false →
      exec (.rxRelease t ga gb) s = .next (((c.locals.foldl (State.rxReleaseHome h st) s).rxKick h).past t 8)) ∧
  (∀ (s : State) (h i : Nat) (st : BitVec 16) (r : Round), (s.coll h).round st = some r →
    (i ∈ r.homesDone → State.rxReleaseHome h st s i = s) ∧
    (i ∉ r.homesDone → ∃ r', ((State.rxReleaseHome h st s i).coll h).round st = some r' ∧ i ∈ r'.homesDone ∧
      r'.released = true)))

/-- An optimizer apply is accepted, taken and carried out. RX.APPLY on a tile that may run its next instruction and is
not a filler, with no scratchpad unit in error, an allowed descriptor, and a collective and Almanac group that R231
and R232 allow, is accepted: its apply stands last, the next apply’s step moves on by one period. The memory-side
adders take the group’s oldest apply once its collective is complete, the group’s mirror, if it has one, holds the
current version, and the staging buffer is free: without clipping its factor is the descriptor’s GSCALE. Until the
buffer is free nothing of the collectives changes. A shard’s home that has applied it reports its block of the staging
buffer; with a shard of the apply still to come, planes apart from one another, no regulator of the partition on and
their codewords served without error, each block of 32 elements of MASTER, MOM1, MOM2 (but for SGDM) and the working
weights then holds what R233 makes of the sum and the old state. -/
def Obligations.OptimizerApply : Prop :=
  (∀ (s : State) (t : Nat) (ga gb gc : Reg), s.ready t 8 = true → s.inFiller t = false → s.spErr = [] →
    let h := fld (s.g t ga) 11 0
    let c := s.coll h
    let n := s.rxNshard h
    let a := (s.g t gb).toNat
    let d := wordsOf 8 (Mem.readN s.mem a 64)
    let st : BitVec 16 := (s.g t gc).setWidth 16
    let g := s.rxGroup h
    s.checkOwn t a 64 64 .access (s.g t gb) = none → s.cutPending a 64 = false → s.rxValid h = true → s.rxPart h = (s.tile t).part →
    s.rxStepOk h st = true → apOk d = true → s.rxApply h = true → c.locals.length = n → st = c.applyNext →
    (apClip d = true → (s.tile t).part = 0 ∧ s.rxResult h ≠ 0) → s.alValid g = true → s.alPart g = (s.tile t).part →
    s.alCommitter g = 1 → (∀ i : Nat, i < n → workBytes (apWfmt d) (s.rxLen h) ≤ s.alBytes (s.alFirst g + i)) →
      ∃ t' x, exec (.rxApply t ga gb gc) s = .next t' ∧ s.passed t' t 8 ∧ (t'.coll h).applies = c.applies ++ [x] ∧
        x.tile = t ∧ x.step = st ∧ x.desc = d ∧ x.started = false ∧
        (t'.coll h).applyNext = st + BitVec.ofNat 16 (s.rxPeriod h) ∧ t'.mem = s.mem ∧
        ((s.group g).commits = [] → t'.regs = s.regs)) ∧
  (∀ (s : State) (h : Nat) (a : Apply), s.rxValid h = true →
    s.alOldestApply (s.rxGroup h) = some (h, a) → a.started = false → s.applyComplete h a = true →
    s.alMirror (s.rxGroup h) = false ∨ (s.group (s.rxGroup h)).mirrored = (s.group (s.rxGroup h)).current →
    (apClip a.desc = false → s.alStagingFree (s.rxGroup h) = true →
      ∃ t', exec (.msaApplyStart h) s = .next t' ∧
        (∀ z ∈ (t'.coll h).applies, z.order = a.order → z.started = true ∧ z.factor = apHi a.desc 3) ∧
        (t'.coll h).applies.length = (s.coll h).applies.length ∧ t'.mem = s.mem) ∧
    (apClip a.desc = false → s.alStagingFree (s.rxGroup h) = false →
      ∃ t', exec (.msaApplyStart h) s = .next t' ∧ t'.colls = s.colls)) ∧
  (∀ (s : State) (h shard : Nat) (a : Apply), s.rxValid h = true → shard < (s.coll h).shards.length →
    (s.coll h).applies.find? (fun a => a.started && !a.gone && !a.doneShards.contains shard) = some a →
      ∃ t', exec (.msaApplyBlockDone h shard) s = .next t' ∧
        t'.blockReports = s.blockReports ++ [(s.rxGroup h, s.alFirst (s.rxGroup h) + shard)] ∧
        (∀ u : Nat, { t'.tile u with transit := (s.tile u).transit } = s.tile u) ∧
        (a.doneShards.length + 1 < (s.coll h).shards.length →
          let p := s.rxPart h
          let n := s.rxLen h
          let at_ (k : Nat) : Nat := fld ((s.coll h).word shard k) 47 0
          let sum := s.rxSum h shard a.idx
          let work := s.alBuffer (s.rxGroup h) (s.alFirst (s.rxGroup h) + shard) ((s.group (s.rxGroup h)).current + 1).toNat
          let f := apWfmt a.desc
          let planes : List (Nat × Nat) := [(sum, 4 * n), (at_ 1, 4 * n), (at_ 2, n + n / 32), (work, workBytes f n)] ++
            (if apAlg a.desc = 0 then [(at_ 3, n + n / 32)] else [])
          (∀ x ∈ planes, s.served p x.1 x.2) → planes.Pairwise (fun x y => x.1 + x.2 ≤ y.1 ∨ y.1 + y.2 ≤ x.1) →
          ∀ b : Nat, b < n / 32 →
            let was (x k : Nat) : List (Option Byte) := (s.readDram p x k).1
            let now (x k : Nat) : List (Option Byte) := (t'.readDram p x k).1
            let o := apBlock a.desc a.factor (widen .fp32 (was (sum + 128 * b) 128) 32) (widen .fp32 (was (at_ 1 + 128 * b) 128) 32)
              (planeVals .mxint8 (was (at_ 2 + 32 * b) 32) (was (at_ 2 + n + b) 1) 32)
              (planeVals .sq8 (was (at_ 3 + 32 * b) 32) (was (at_ 3 + n + b) 1) 32)
            now (at_ 1 + 128 * b) 128 = f32Bytes o.master ∧ now (at_ 2 + 32 * b) 32 = byteList o.e1 ∧
            now (at_ 2 + n + b) 1 = byteList [o.s1] ∧
            (apAlg a.desc = 0 → now (at_ 3 + 32 * b) 32 = byteList o.e2 ∧ now (at_ 3 + n + b) 1 = byteList [o.s2]) ∧
            now (work + f.bytes 32 * b) (f.bytes 32) = codeBytes f (o.work.map some) ∧
            (f = .mxfp4 → now (work + n / 2 + b) 1 = byteList [o.ws])))

/-- Requests, grants and writes of contributions. Of a member of a valid collective: a request for a shard on another
package, once no earlier one of the member for it waits, makes its contribution asked for, and stays where it is
before. A request for a shard here, with no other request held and nothing that could move a round on, is granted
direct where its MSA is enabled, no earlier contribution of the member waits, its round is open and not yet completed
here, it is the member’s first, and additions go by arrival or all lower members are added. A granted contribution
from this package none of whose bytes is still owed to a cut-through entry is read once: for a home here it keeps the
bytes read; for one on another package it leaves once its grant’s notice has come. A write of a contribution in turn,
where no staged one waits and another member is still to come, adds its elements to the round’s sum: the first to
reach its part of the buffer is copied, a later one added in FP32, so that DRAM then reads the sum where no regulator
of the partition is on and the buffer is served without error; it is noted as arrived, and with the last one the
member is added and its contribution over. A late write of a contribution is noted as arrived, and where the
collective discards late ones nothing is added to DEFER; else, of one from this package, its elements are added to
DEFER, the first to reach a part being copied, as DRAM then reads under the same conditions. -/
def Obligations.ContributionsAtTheirHomes : Prop :=
  ∀ (s : State) (h shard member step : Nat) (x : Contrib),
    let c := s.coll h
    let st := BitVec.ofNat 16 step
    let mine (z : Contrib) : Prop := z.order = x.order ∧ z.shard = x.shard
    let still : Prop := (∀ q ∈ c.rounds, q.complete = true ∨ ∃ i, i < c.shards.length ∧ i ∉ q.homesDone) ∧
      s.rxFreeable h = false ∧ c.heldRelease = [] ∧ c.heldFar = [] ∧ c.heard = [] ∧ ∀ z ∈ c.contribs, z.grant ≠ .held
    s.rxValid h = true → shard < c.shards.length → s.rxMember h member = true →
    (c.contribs.find? (fun x => x.shard == shard && x.member == member && x.step == st && x.grant == .waiting) = some x →
      (c.remote shard = true → (∃ y ∈ c.contribs, y.grant = .waiting ∧ c.before x y = true) →
        exec (.rxGrantRequest h shard member step) s = .next s) ∧
      (c.remote shard = true → (∀ y ∈ c.contribs, y.grant = .waiting → c.before x y = false) →
        ∃ t', exec (.rxGrantRequest h shard member step) s = .next t' ∧
        (∀ z ∈ (t'.coll h).contribs, mine z → z.grant = .asked) ∧ t'.mem = s.mem ∧ t'.regs = s.regs) ∧
      (∀ r : Round, c.remote shard = false → c.round st = some r → still →
        (∀ z ∈ c.contribs, mine z → z = x) → c.contribs.Nodup →
        s.rb (c.stack shard / 3) (msaOff (c.stack shard)) 0 = true →
        (∀ y ∈ c.contribs, y.grant = .waiting → c.before x y = false) → 0 ≤ c.dist st →
        (shard, member) ∉ r.seen → shard ∉ r.homesDone →
        (s.rxByArrival h = true ∨ ∀ k ∈ s.rxMembers h, k < member → (shard, k) ∈ r.added) →
        ∃ t', exec (.rxGrantRequest h shard member step) s = .next t' ∧
          (∀ z ∈ (t'.coll h).contribs, mine z → z.grant = .direct) ∧
          (∃ r', (t'.coll h).round st = some r' ∧ (shard, member) ∈ r'.seen) ∧ t'.mem = s.mem ∧ t'.regs = s.regs)) ∧
    (c.contribs.find? (fun x => x.shard == shard && x.member == member && x.step == st && !x.sent && x.tile.isSome
        && x.grant != .waiting && x.grant != .held) = some x → s.cutPending x.src (s.rxBytes h) = false →
      (x.grant = .asked → ∀ cell : LkCell, s.unitCell 5 [1, h, shard, member, st.toNat] = some cell →
        ∃ t', exec (.rxGrant h shard member step) s = .next t' ∧ ∀ z ∈ (t'.coll h).contribs, ¬mine z) ∧
      (x.grant = .asked → s.unitCell 5 [1, h, shard, member, st.toNat] = none → exec (.rxGrant h shard member step) s = .next s) ∧
      (x.grant ≠ .asked → ∃ t', exec (.rxGrant h shard member step) s = .next t' ∧ ∀ z ∈ (t'.coll h).contribs, mine z →
        z.sent = true ∧ z.pend = (s.readAny (s.rxPart h) x.src (s.rxBytes h)).1)) ∧
    (∀ (pos : Nat) (r : Round), pos % 256 = 0 → pos < s.rxBytes h → x.grant = .direct → x.remote = false → c.round st = some r → still →
      c.contribs.find? (fun x => x.shard == shard && x.member == member && x.step == st && (x.sent || x.remote)
        && (x.grant == .direct || x.grant == .staged || x.grant == .late) && !x.got.contains (pos / 256)) = some x →
      (∀ y ∈ c.contribs, c.before x y = false) → (∀ y ∈ c.contribs, y.grant ≠ .staged) → (∀ z ∈ c.contribs, mine z → z = x) →
      (c.rounds.map (·.step)).Nodup → (∃ k ∈ s.rxMembers h, k ≠ member ∧ (shard, k) ∉ r.added) → shard ∉ r.homesDone →
      let key := unitKey shard (pos / 256)
      let sp := s.rxSpan h (pos / 256)
      let a := s.rxSum h shard r.idx + 4 * sp.1
      let p := s.rxPart h
      let vs := widen (s.rxFmt h) (((x.pend.drop pos).take (min 256 (s.rxBytes h - pos))).map some) sp.2
      ∃ t' r', exec (.raccWriteArrival h shard member step pos) s = .next t' ∧ (t'.coll h).round st = some r' ∧
        key ∈ r'.reached ∧
        (x.got.length + 1 < s.rxWrites h → r'.added = r.added ∧ ∀ z ∈ (t'.coll h).contribs, mine z → z.got = pos / 256 :: x.got) ∧
        (s.rxWrites h ≤ x.got.length + 1 → r'.added = (shard, member) :: r.added ∧ ∀ z ∈ (t'.coll h).contribs, ¬mine z) ∧
        (s.canonical = true → s.unregulated p → s.sound p a (4 * sp.2) → a + 4 * sp.2 ≤ dramTop →
          (t'.readDram p a (4 * sp.2)).1 = f32Bytes (if key ∈ r.reached then
            List.zipWith add32 (widen .fp32 (s.readDram p a (4 * sp.2)).1 sp.2) vs else vs))) ∧
    (∀ pos : Nat, pos % 256 = 0 → pos < s.rxBytes h → x.grant = .late → s.rxDiscards h = true → still →
      c.contribs.find? (fun x => x.shard == shard && x.member == member && x.step == st && (x.sent || x.remote)
        && (x.grant == .direct || x.grant == .staged || x.grant == .late) && !x.got.contains (pos / 256)) = some x →
      (∀ y ∈ c.contribs, c.before x y = false) →
      (x.remote = true → ∃ (no : Nat) (bs : List Byte), x.no = some no ∧
        cellsAt (s.unitCells (granted no)) pos (min 256 (s.rxBytes h - pos)) = some bs) →
      ∃ t', exec (.raccWriteArrival h shard member step pos) s = .next t' ∧
        (∀ z ∈ (t'.coll h).contribs, mine z → pos / 256 ∈ z.got) ∧
        (t'.coll h).deferKeys = c.deferKeys ∧ t'.mem = s.mem) ∧
    (∀ pos : Nat, pos % 256 = 0 → pos < s.rxBytes h → x.grant = .late → x.remote = false → s.rxDiscards h = false → still →
      c.contribs.find? (fun x => x.shard == shard && x.member == member && x.step == st && (x.sent || x.remote)
        && (x.grant == .direct || x.grant == .staged || x.grant == .late) && !x.got.contains (pos / 256)) = some x →
      (∀ y ∈ c.contribs, c.before x y = false) →
      let key := unitKey shard (pos / 256)
      let sp := s.rxSpan h (pos / 256)
      let a := s.rxDefer h shard + 4 * sp.1
      let p := s.rxPart h
      let vs := widen (s.rxFmt h) (((x.pend.drop pos).take (min 256 (s.rxBytes h - pos))).map some) sp.2
      ∃ t', exec (.raccWriteArrival h shard member step pos) s = .next t' ∧
        (∀ z ∈ (t'.coll h).contribs, mine z → pos / 256 ∈ z.got) ∧ key ∈ (t'.coll h).deferKeys ∧
        (s.served p a (4 * sp.2) → (t'.readDram p a (4 * sp.2)).1 = f32Bytes (if key ∈ c.deferKeys then
          List.zipWith add32 (widen .fp32 (s.readDram p a (4 * sp.2)).1 sp.2) vs else vs)))

/-- The global norm is formed; a collective is set up and discarded. GNORM_FORM, once an RX.GNORM of the step was
accepted, some P0 collective has homes here, no norm is formed and every P0 round of the step here has completed
without a release: a sum of squares within the bound of R241 of the exact one is the step’s NORM2 and its square root
the norm, and the norm record stands at the RESULT of each collective that marked the step, where that is not zero
and, apart from the other records, is served without error with no regulator on. A write of RX_CFG with VALID of a
collective that is not valid sets CFG_ERR, OLDEST and the three counts (at zero) where the checks fail; where they
pass it sets VALID, and the first two rounds are open at STEP and one period later. A write with VALID 0 leaves VALID
0 and, of a valid collective, nothing of what it held but OLDEST. -/
def Obligations.NormAndCollectiveSetup : Prop :=
  (∀ (s : State) (step : Nat) (norm2 : BitVec 32),
    let st := BitVec.ofNat 16 step
    let hs := s.gnormColls st
    (s.gstep st).accepted = true → (s.gstep st).void = false → (s.gstep st).formed = none →
    hs ≠ [] → (∀ h ∈ hs, ∃ l, s.gnormPart h st = some (false, l) ∧ ∀ p ∈ l, p.bad = false) →
    let parts := hs.flatMap fun h => ((s.gnormPart h st).map (·.2)).getD []
    let ex := parts.foldl (fun (a : Int × Int) p => dyAdd a.1 a.2 p.m p.e) (0, 0)
    withinRel norm2 ex.1 ex.2 (s.gnormBound hs) = true →
      ∃ t', exec (.gnormForm step norm2) s = .next t' ∧ (t'.gstep st).formed = some (sqrt32 norm2, norm2) ∧
        (t'.gstep st).void = false ∧
        ∀ h ∈ hs, st ∈ (s.coll h).gnorms → st ∉ (s.coll h).normed → s.rxResult h ≠ 0 → s.served 0 (s.rxResult h) 64 →
          (∀ k ∈ hs, k ≠ h → s.rxResult k + 64 ≤ s.rxResult h ∨ s.rxResult h + 64 ≤ s.rxResult k) →
          (t'.readDram 0 (s.rxResult h) 64).1 = (normRecord st hs.length false (sqrt32 norm2) norm2).map some) ∧
  (∀ (s : State) (h : Nat) (v : Word), h < 4096 → s.rxValid h = false →
    let s1 := (((s.setRg dieMerA (rxOff h) (s.rxCfgWord h v)).setRg dieMerA (rxOff h + 0x28) 0).setRg dieMerA
      (rxOff h + 0x30) 0).setRg dieMerA (rxOff h + 0x38) 0
    let base := s1.rf dieMerA (rxOff h + 0x10) 47 0
    let n := s1.rxNshard h
    let r := if s1.inDramOf (s1.rxPart h) base (32 * n) then s1.readAny (s1.rxPart h) base (32 * n) else ([], false, s1)
    let tab := (List.range n).map fun i => wordsOf 4 (r.1.drop (32 * i))
    let b : BitVec 16 := v.setWidth 16
    (r.2.2.rxOk h tab = false → ∃ t', exec (.rxCollectiveValidate h v) s = .next t' ∧ (t'.coll h).cfgErr = true ∧
      (t'.coll h).rounds = [] ∧ (t'.coll h).oldest = b ∧ ∀ o ∈ [0x28, 0x30, 0x38], t'.rg dieMerA (rxOff h + o) = 0) ∧
    (r.2.2.rxOk h tab = true → ∃ t', exec (.rxCollectiveValidate h v) s = .next t' ∧ t'.rxValid h = true ∧
      (t'.coll h).shards = tab ∧ (t'.coll h).oldest = b ∧
      (t'.coll h).rounds.map (·.step) = [b, b + BitVec.ofNat 16 (r.2.2.rxPeriod h)])) ∧
  (∀ (s : State) (h : Nat) (v : Word), h < 4096 →
    ∃ t', exec (.rxCollectiveDiscard h v) s = .next t' ∧ t'.rxCfg h = s.rxCfgWord h v ∧ t'.rxValid h = false ∧
      (s.rxValid h = true → t'.coll h = { oldest := (s.coll h).oldest }))

/-- Exchange instructions. On a tile that may run its next instruction and is not a filler, with a valid handle of its
partition, 1 to 65,535 records, and bytes the tile may use, none of them still owed to a cut-through entry:
EX.DISPATCH of an outbound record list, with fewer than two dispatches of the tile, on all handles, without a combine,
stands last among the dispatches under the tile’s next round, and the tile’s round moves on by one; with two it waits.
Of one record in the tile’s own scratchpad with no unit in error, its status is the case of R246 that it falls under,
and it is sent on, its header stamped and its payload as read, in the first case alone. Of returns it hands over one
return for each record. EX.COMBINE of the right count gives the tile’s oldest dispatch without a combine its
destination, and a kept record of a dispatch of one is written there; without such a dispatch it takes the EXCHANGE
trap, as do both with a wrong handle or count. -/
def Obligations.ExchangeInstructions : Prop :=
  ∀ (s : State) (t : Nat) (ga gb gc : Reg), s.ready t 8 = true → s.inFiller t = false →
    let h := fld (s.g t ga) 11 0
    let n := (s.g t gc).toNat
    let a := (s.g t gb).toNat
    let x := s.exState h
    let size := s.exSize h
    let named : Prop := s.exValid h = true ∧ s.exPart h = (s.tile t).part ∧ 1 ≤ n ∧ n ≤ 65535
    let round := x.tileRound.val 0 t
    let back := bitOf (BitVec.ofNat 64 (leNat (s.readAny (s.tile t).part a 8).1)) 51
    (named → s.payOutside t a (n * size) = none → s.cutPending a (n * size) = false →
      (back = false → s.exHeld t < 2 →
        ∃ t' d, exec (.exDispatch t ga gb gc) s = .next t' ∧ s.passed t' t 8 ∧ (t'.exState h).disps = x.disps ++ [d] ∧
          d.tile = t ∧ d.round = round ∧ d.count = n ∧ d.dest = none ∧
          (t'.exState h).tileRound.val 0 t = (round + 1) % 65536 ∧ t'.mem = s.mem ∧
          (n = 1 → isDram a = false → s.spErr = [] →
            let w := wordsOf 8 (Mem.readN s.mem a size)
            d.status.val 0 0 = s.exCase h w 0 ∧
            (s.exCase h w 0 = 0 → (t'.exState h).flight = x.flight ++
              [{ hdr := recStamp w (s.exEngine h) t round 0 0, payload := (Mem.readN s.mem a size).drop 64, lost := false }]) ∧
            (s.exCase h w 0 ≠ 0 → (t'.exState h).flight = x.flight))) ∧
      (back = false → 2 ≤ s.exHeld t →
        ∃ t', exec (.exDispatch t ga gb gc) s = .next t' ∧ (t'.tile t).ctx.wait = some (.exDispatch t ga gb gc) ∧
          (t'.tile t).ctx.pc = (s.tile t).ctx.pc ∧ t'.exch = s.exch) ∧
      (back = true → ∃ t', exec (.exDispatch t ga gb gc) s = .next t' ∧ s.passed t' t 8 ∧
        (t'.exState h).returns = x.returns ++ (List.range n).map (fun i => { tile := t, src := a + i * size }) ∧
        (t'.exState h).disps = x.disps ∧ t'.mem = s.mem) ∧
      (∀ d : ExDisp, x.disps.find? (fun d => d.tile == t && d.dest.isNone) = some d → d.count = n →
        ∃ t', exec (.exCombine t ga gb gc) s = .next t' ∧ s.passed t' t 8 ∧
          (∀ y ∈ (t'.exState h).disps, y.tile = t → y.round = d.round → y.dest = some a) ∧
          (n = 1 → isDram a = false → s.canonical = true → d.status.val 0 0 ≠ 0 →
            Mem.readN t'.mem a (s.exKept h d 0).length = s.exKept h d 0))) ∧
    (s.hasHandler t = true → ¬named → ∀ i ∈ [Instr.exDispatch t ga gb gc, .exCombine t ga gb gc],
      ∃ t', exec i s = .next t' ∧ s.entered t' t 8 0x10 (BitVec.ofNat 64 h)) ∧
    (s.hasHandler t = true → named →
      (∀ d : ExDisp, x.disps.find? (fun d => d.tile == t && d.dest.isNone) = some d → d.count ≠ n) →
      ∃ t', exec (.exCombine t ga gb gc) s = .next t' ∧ s.entered t' t 8 0x10 (BitVec.ofNat 64 h))

/-- Records, drop notices, end marks and returns of the exchange; its handles set up and ended. For a valid handle:
before the half of its expert is free for its round a record stays where it is. Then one sent here for another package
leaves; one whose expert’s home is here lands, its header and payload as they came at the next place of the half (read
back where no regulator is on and the half is served without error), while the half holds fewer than the expert’s
capacity, and otherwise is dropped and counted, with a notice where its origin is this engine. A record that a link
has brought whole, for a home here, lands by the same rules. An end mark that a link has brought to an engine here, or
this engine’s own for itself once it is due, is noted while some expert here has yet to complete its round; one that
waits behind a record of the handle that its link brought before it stays, and another does nothing. A drop notice,
from here or brought by a link, gives an outstanding record of a dispatch without a combine STATUS 2. A return from
this package to its own outstanding record of a combined dispatch is written (in scratchpad with no unit in error, its
header with STATUS 0 and its payload stand at the record’s place in the destination) and noted; before the combine it
stays; with no such record it is an orphan, reported. A write of EX_CFG with VALID of a handle that is not valid sets
CFG_ERR where the checks fail; where they pass it sets VALID, keeps the two tables read and nothing else; its counts
read zero either way. A write with VALID 0 of a valid handle drops everything it held and leaves VALID 0; of one not
valid it is kept with VALID 0. -/
def Obligations.ExchangeEvents : Prop :=
  (∀ (s : State) (h i : Nat), s.exValid h = true →
    let x := s.exState h
    let landed (t' : State) (e r : Nat) (bs : List Byte) : Prop :=
      let a := s.exHalfAt h e r + 64 + (x.half e r).count * s.exSize h
      s.served (s.exPart h) a bs.length → (t'.readDram (s.exPart h) a bs.length).1 = bs.map some
    (∀ rc : ExRec, x.flight[i]? = some rc →
      let e := recExpert rc.hdr
      let r := recRound rc.hdr
      let away := exRemote x (exHome x e)
      (x.openRound e r = false → exec (.exchRecordArrival h i false) s = .next s) ∧
      (away = true → x.openRound e r = true → ∃ t', exec (.exchRecordArrival h i false) s = .next t' ∧
        (t'.exState h).flight = x.flight.eraseIdx i ∧ (t'.exState h).halves = x.halves ∧ t'.mem = s.mem) ∧
      (away = false → x.openRound e r = true → (x.half e r).count < exCap x e →
        ∃ t', exec (.exchRecordArrival h i false) s = .next t' ∧ (t'.exState h).flight = x.flight.eraseIdx i ∧
          (t'.exState h).half e r = { x.half e r with count := (x.half e r).count + 1 } ∧
          (t'.exState h).notices = x.notices ∧ landed t' e r (bytesOf rc.hdr ++ rc.payload)) ∧
      (away = false → x.openRound e r = true → exCap x e ≤ (x.half e r).count →
        ∃ t', exec (.exchRecordArrival h i false) s = .next t' ∧ (t'.exState h).flight = x.flight.eraseIdx i ∧
          (t'.exState h).half e r = { x.half e r with dropc := (x.half e r).dropc + 1 } ∧ t'.mem = s.mem ∧
          (recEngine rc.hdr = s.exEngine h →
            (t'.exState h).notices = x.notices ++ [(recTile rc.hdr, r, recIndex rc.hdr)]))) ∧
    (∀ cs : List LkCell, s.exCells h 3 i = some cs →
      let bs := (cs.flatMap (·.payload)).take (s.exSize h)
      let w := wordsOf 8 bs
      let e := recExpert w
      let r := recRound w
      exValidExpert x e = true → exRemote x (exHome x e) = false → x.openRound e r = true → (x.half e r).complete = false →
      (x.half e r).count < exCap x e →
      ∃ t', exec (.exchRecordArrival h i true) s = .next t' ∧
        (t'.exState h).half e r = { x.half e r with count := (x.half e r).count + 1 } ∧ (t'.exState h).flight = x.flight ∧
        (64 ≤ bs.length → landed t' e r bs)) ∧
    (∀ engine round dest : Nat, round < 65536 → exValidEngine x engine = true →
      let brought (c : LkCell) : Bool := c.cls == 3 && c.offset == markAt && unitWords c == [h, engine, dest, round]
      let behind (c : LkCell) : Bool := (s.unitIn.takeWhile (· != c)).any fun y => y.cls == 3 && y.object == h &&
        (y.via == c.via || s.peerId y.via == s.peerId c.via) && y.offset != markAt
      (∀ c : LkCell, s.unitIn.find? brought = some c → behind c = true → exec (.exchEndMark h engine round dest) s = .next s) ∧
      (∀ c : LkCell, s.unitIn.find? brought = some c → behind c = false → exValidEngine x dest = false ∨ exRemote x dest = false →
        x.needsMark round = true →
        ∃ t', exec (.exchEndMark h engine round dest) s = .next t' ∧ (engine, round) ∈ (t'.exState h).marks) ∧
      (s.unitIn.find? brought = none → engine = s.exEngine h → dest = engine → s.exMarkDue h round = true → x.needsMark round = true →
        ∃ t', exec (.exchEndMark h engine round dest) s = .next t' ∧ (engine, round) ∈ (t'.exState h).marks) ∧
      (s.unitIn.find? brought = none → engine ≠ s.exEngine h ∨ dest ≠ engine ∨ s.exMarkDue h round = false →
        exec (.exchEndMark h engine round dest) s = .next s)) ∧
    (∀ (srcTile round index : Nat) (d : ExDisp), x.outstanding srcTile round index = some d → d.dest = none →
      let n := s.exEngine h
      ((s.unitCell 5 [3, h, n, srcTile, round, index]).isSome = true →
        ∃ t', exec (.exchDropNotice h srcTile round index n) s = .next t' ∧
          (∀ y ∈ (t'.exState h).disps, y.tile = srcTile → y.round = round → y.status.val 0 index = 2) ∧
          (t'.exState h).notices = x.notices ∧ t'.mem = s.mem) ∧
      (s.unitCell 5 [3, h, n, srcTile, round, index] = none → (srcTile, round, index) ∈ x.notices →
        ∃ t', exec (.exchDropNotice h srcTile round index n) s = .next t' ∧
          (∀ y ∈ (t'.exState h).disps, y.tile = srcTile → y.round = round → y.status.val 0 index = 2) ∧
          (t'.exState h).notices = x.notices.erase (srcTile, round, index) ∧ t'.mem = s.mem)) ∧
    (∀ ret : ExRet, x.returns[i]? = some ret → 64 ≤ s.exSize h → s.cutPending ret.src (s.exSize h) = false →
      let w := s.peekHdr (s.exPart h) ret.src
      recEngine w = s.exEngine h → recExpert w ≠ 0xFFF →
      (∀ d : ExDisp, x.outstanding (recTile w) (recRound w) (recIndex w) = some d →
        (d.dest = none → exec (.exchReturnArrival h i false) s = .next s) ∧
        (d.dest ≠ none → ∃ t', exec (.exchReturnArrival h i false) s = .next t' ∧
          (t'.exState h).returns = x.returns.eraseIdx i ∧
          (∀ y ∈ (t'.exState h).disps, y.tile = recTile w → y.round = recRound w →
            y.status.val 0 (recIndex w) = 5 ∧ recIndex w ∈ y.written) ∧
          ∀ a : Nat, d.dest = some a → isDram a = false → s.canonical = true → s.spErr = [] →
            let bs := bytesOf (recWith w 0) ++ (s.readAny (s.exPart h) ret.src (s.exSize h)).1.drop 64
            Mem.readN t'.mem (a + recIndex w * s.exSize h) bs.length = bs)) ∧
      (x.outstanding (recTile w) (recRound w) (recIndex w) = none →
        ∃ t', exec (.exchReturnArrival h i false) s = .next t' ∧ (t'.exState h).returns = x.returns.eraseIdx i ∧
          (t'.exState h).disps = x.disps ∧ ∃ q ∈ t'.reports, q.src = 0x01B ∧ q.inst = h))) ∧
  (∀ (s : State) (h : Nat) (v : Word), h < 128 →
    let s1 := (List.range 6).foldl (fun s k => s.setRg (exDie h) (exOff h + 0x20 + 8 * k) 0)
      (s.setRg (exDie h) (exOff h) (setBit (v &&& exMask) 63 false))
    let p := s1.exPart h
    let rd (s : State) (o n : Nat) : List Byte × State :=
      let b := s.rf (exDie h) (exOff h + o) 47 0
      if s.inDramOf p b n then ((s.readAny p b n).1, (s.readAny p b n).2.2) else ([], s)
    let a := rd s1 8 (32 * s1.exNexp h)
    let b := rd a.2 0x10 (8 * s1.exNeng h)
    let x : ExState := { experts := (List.range (b.2.exNexp h)).map fun e => wordsOf 4 (a.1.drop (32 * e)),
                         engines := wordsOf (b.2.exNeng h) b.1 }
    (s.exValid h = false →
      (b.2.exOk h x = false → ∃ t', exec (.exHandleValidate h v) s = .next t' ∧ t'.exState h = { cfgErr := true } ∧
        ∀ k : Nat, k < 6 → t'.rg (exDie h) (exOff h + 0x20 + 8 * k) = 0) ∧
      (b.2.exOk h x = true → ∃ t', exec (.exHandleValidate h v) s = .next t' ∧ t'.exState h = x ∧ t'.exValid h = true ∧
        ∀ k : Nat, k < 6 → t'.rg (exDie h) (exOff h + 0x20 + 8 * k) = 0)) ∧
    (s.exValid h = true → ∃ t', exec (.exHandleDiscard h v) s = .next t' ∧ t'.exState h = {} ∧ t'.exValid h = false) ∧
    (s.exValid h = false → exec (.exHandleDiscard h v) s =
      .next (s.setRg (exDie h) (exOff h) (setBit (v &&& exMask) 63 false))))

/-- The ingest ports and their streams. A datagram of an IP version the port does not take changes nothing; one R255
drops raises ING_DROP alone. A DATA datagram that passes, of an index not seen before, is admitted while fewer than
ALLOW samples were seen: both counts rise, and, no sample of the stream waiting at MIX, its sample stands with its
admission count, its total and the bytes here (one of a RAW stream that is whole with it has landed and is over: from
64 bytes up it stands at the next entry of the landing ring, its header words 0, 1 and 7 stamped with index, stream,
count and validity, where no regulator is on and the ring is served without error), and the stream’s credits go to its
sender; past ALLOW, which for a RAW stream is first taken anew from CONSUMED, the index is barred, with ING_SOVER
counting. A PROBE that passes is answered with one CREDIT of ALLOW to its sender. The credit timer of an enabled
stream sends a CREDIT to the last sender known. The port answers for its own IPv4 address, and for another not. A
write of ING_SCFG with EN of a stream that is off enables it where the checks pass on the operator list read, with its
first ALLOW, and otherwise leaves EN 0 with CFG_ERR. With EN 0 an enabled stream is off and its samples are gone,
other streams’ samples staying. A sample still in reassembly REASM_US after its first datagram is closed. A poll of an
enabled RAW stream sets ALLOW to the CONSUMED read plus DEPTH, modulo 2^48. -/
def Obligations.IngestPortsAndStreams : Prop :=
  (∀ (s : State) (port : Nat) (d : Dgram),
    let st := dgStream d
    let i := dgIndex d
    let y := s.strm st
    (s.portTakes port d.v6 = false → exec (.data port d) s = .next s ∧ exec (.probe port d) s = .next s) ∧
    (s.portTakes port d.v6 = true → s.dgBad port d = true →
      exec (.data port d) s = .next (s.addRg (portDie port) 0x810028 1) ∧
      exec (.probe port d) s = .next (s.addRg (portDie port) 0x810028 1)) ∧
    (s.portTakes port d.v6 = true → s.dgBad port d = false → dgType d = 0 → s.sample st i = none →
      i ∉ y.finished → i ∉ y.barred →
      (y.seen < y.allow → (∀ z ∈ s.samples, z.stream = st → z.stage ≠ .mixWait) →
        (s.ingKind st ≠ 0 ∨ d.payload.length < dgTotal d → ∃ t' x, exec (.data port d) s = .next t' ∧ t'.samples = s.samples ++ [x] ∧
          x.stream = st ∧ x.index = i ∧ x.adm = y.admitted ∧ x.total = dgTotal d ∧
          (∀ k : Nat, k < d.payload.length → x.got.find (dgOff d + k) = d.payload[k]?) ∧
          (x.stage = .ready ↔ x.total ≤ x.got.length) ∧ (t'.strm st).admitted = y.admitted + 1 ∧ (t'.strm st).seen = y.seen + 1 ∧
          (t'.strm st).peer = some (port, d.src, d.srcPort) ∧ t'.regs = (s.addRg dieMerA (ingOff st + 0x28) 1).regs) ∧
        (s.ingKind st = 0 → d.payload.length = dgTotal d → ∃ t', exec (.data port d) s = .next t' ∧ t'.sample st i = none ∧
          i ∈ (t'.strm st).finished ∧ (t'.strm st).admitted = y.admitted + 1 ∧ (t'.strm st).seen = y.seen + 1 ∧
          (d.payload.length ≤ s.ingEntry st → 64 ≤ d.payload.length →
            let sent := wordsOf 8 d.payload
            let w : List Word := ((sent.set 0 (BitVec.ofNat 64 (i * 2 ^ 16 + st * 2 ^ 8))).set 1
              (BitVec.ofNat 64 (fld (wordAt sent 1) 63 32 * 2 ^ 32 + y.seq))).set 7 (wordAt sent 7 ||| 1)
            let a := s.ingBase st + 64 + y.admitted % s.ingDepth st * s.ingEntry st
            s.served (s.ingPart st) a d.payload.length →
              (t'.readDram (s.ingPart st) a d.payload.length).1 = (bytesOf w ++ d.payload.drop 64).map some))) ∧
      (y.allow ≤ y.seen → s.ingKind st ≠ 0 → ∃ t', exec (.data port d) s = .next t' ∧ t'.samples = s.samples ∧
        i ∈ (t'.strm st).barred ∧ (t'.strm st).admitted = y.admitted ∧ t'.regs = (s.addRg dieMerA (ingOff st + 0x30) 1).regs) ∧
      (y.allow ≤ y.seen → s.ingKind st = 0 → ((s.readConsumed st).strm st).allow ≤ y.seen → ∃ t', exec (.data port d) s = .next t' ∧
        t'.samples = s.samples ∧ i ∈ (t'.strm st).barred ∧ (t'.strm st).admitted = y.admitted ∧
        (t'.strm st).allow = ((s.readConsumed st).strm st).allow)) ∧
    (s.portTakes port d.v6 = true → s.dgBad port d = false → dgType d = 2 →
      ∃ t', exec (.probe port d) s = .next t' ∧ t'.out = s.out ++ [.credit port d.src d.srcPort st y.allow] ∧
        t'.samples = s.samples ∧ t'.regs = s.regs) ∧
    (∀ (k p a b : Nat), s.ingEn k = true → (s.strm k).peer = some (p, a, b) →
      ∃ t', exec (.ingCreditTimer k) s = .next t' ∧ t'.out = s.out ++ [.credit p a b k (s.strm k).allow] ∧ t'.regs = s.regs) ∧
    (∀ addr : Nat, s.portTakes port false = true →
      (addr = s.rf (portDie port) 0x810010 31 0 →
        exec (.ingAddressResolution port false addr) s = .next (s.emit (.addressAnswer port addr))) ∧
      (addr ≠ s.rf (portDie port) 0x810010 31 0 → exec (.ingAddressResolution port false addr) s = .next s))) ∧
  (∀ (s : State) (st : Nat), st < 256 →
    (∀ v : Word, s.ingEn st = false →
      let w := v &&& ingMask
      let kind := fld w 59 56
      let r := if kind == 0 || kind > 7 || !s.diePresent dieMdl then ([], s) else s.readOps (fld w 62 60) st (fld w 39 32)
      (r.2.streamOk st w r.1 = true → ∃ t', exec (.ingStreamEnable st v) s = .next t' ∧ t'.ingCfg st = setBit w 63 true ∧
        (t'.strm st).allow = (if kind = 0 then r.2.ingDepth st else fld w 51 40) ∧ (t'.strm st).ops = r.1) ∧
      (r.2.streamOk st w r.1 = false → ∃ t', exec (.ingStreamEnable st v) s = .next t' ∧ t'.ingEn st = false ∧
        (t'.strm st).cfgErr = true)) ∧
    (∀ v : Word, ∃ t', exec (.ingStreamDisable st v) s = .next t' ∧ t'.ingCfg st =
        setBit ((if 7 < fld v 59 56 then setFld v 59 56 (s.ingKind st) else v) &&& ingMask) 63 false ∧
      (s.ingEn st = true → t'.samples = s.samples.filter fun x => x.stream != st) ∧
      (s.ingEn st = false → t'.samples = s.samples)) ∧
    (∀ (index : Nat) (x : Sample), s.sample st index = some x → x.stage = .reassembly →
      1000 * s.reasmUs ≤ (s.now (portDie x.port) + 2 ^ 64 - x.opened) % 2 ^ 64 →
      ∃ t', exec (.reasmTimeout st index) s = .next t' ∧ t'.sample st index = none ∧ index ∈ (t'.strm st).finished) ∧
    (s.ingEn st = true → s.ingKind st = 0 →
      let r := s.readAny (s.ingPart st) (s.ingBase st) 8
      ∃ t', exec (.rawConsumedPoll st) s = .next t' ∧ (t'.strm st).allow = (leNat r.1 + r.2.2.ingDepth st) % 2 ^ 48))

/-- A sample is decoded, moved, dropped and completed. While Meridian-B’s module to the Mandoline die is up. A whole
sample of a decoded kind whose bytes give headers that fail no check is being decoded, under its stream’s work budget;
one whose headers fail is closed. A text sample is closed with no dictionary loaded, waits while one is loading, and
else is being tokenized. A sample being decoded whose work calls for it moves to the slow decoder; one whose work
reaches its hard limit without a move is dropped and closed; another goes on. A text sample that is tokenized is over,
its tokens put into a slot; a sample whose values stand and whose operators reach the end is over, what they give put
into a slot where no sample of the stream waits at MIX, one that decoding moves or closes being left so; the only
sample of a stream that waits at MIX, its wait over and no later MIX in its list, is over; where no wait is over
nothing changes. A pair that meets at the same MIX is over where no later MIX stands in the list; each that is still
here afterwards has the other as its partner. -/
def Obligations.DecodingOfASample : Prop :=
  ∀ (s : State) (st index : Nat) (x : Sample), s.sample st index = some x → s.joinOpen dieMerB = true →
    let k := s.ingKind st
    let ended (t' : State) : Prop := t'.sample st index = none ∧ index ∈ (t'.strm st).finished
    (x.stage = .ready → k ≠ 0 → k ≠ 7 →
      let hdr := mediaHdr k x.bytes
      let y := { x with stage := .decoding, hdr := hdr.2, budget := s.workBudget st }
      (hdr.1 = stOk → s.headerFails y hdr.2 = none → ∃ t', exec (.decodeStart st index) s = .next t' ∧ t'.sample st index = some y ∧
        t'.mem = s.mem ∧ t'.regs = s.regs) ∧
      (hdr.1 ≠ stOk ∨ s.headerFails y hdr.2 ≠ none → ∃ t', exec (.decodeStart st index) s = .next t' ∧ ended t')) ∧
    (x.stage = .ready → k = 7 →
      (s.mdl.loading = true → exec (.decodeStart st index) s = .next s) ∧
      (s.mdl.loading = false → s.mdl.dict = none → ∃ t', exec (.decodeStart st index) s = .next t' ∧ ended t') ∧
      (s.mdl.loading = false → s.mdl.dict ≠ none → s.rb dieMdl 0x10108 62 = true ∨ utf8Ok x.bytes = true →
        ∃ t' y, exec (.decodeStart st index) s = .next t' ∧ t'.sample st index = some y ∧ y.stage = .decoding)) ∧
    (x.stage = .decoding →
      let work := (s.decodeOf x).2.work
      (s.mustMove x work = true → ∃ t', exec (.slowDecoderMove st index) s = .next t' ∧
        t'.sample st index = some { x with slow := true } ∧ t'.rg dieMdl 0x10050 = s.rg dieMdl 0x10050 + 1) ∧
      (s.mustMove x work = false → exec (.slowDecoderMove st index) s = .next s) ∧
      (k ≠ 7 → s.mustMove x work = false → s.ingHard st ≤ work → ∃ t', exec (.dropLimit st index) s = .next t' ∧ ended t') ∧
      (work < s.ingHard st → exec (.dropLimit st index) s = .next s) ∧
      (k = 7 → exec (.sampleComplete st index) s = .next (s.putSlot x (s.tokens x)) ∧ ended (s.putSlot x (s.tokens x))) ∧
      (∀ s1 : State, k ≠ 7 → s.decoded x = (s1, none) → exec (.sampleComplete st index) s = .next s1) ∧
      (∀ (s1 : State) (y : Sample × MediaOut), k ≠ 7 → s.decoded x = (s1, some y) →
        (s1.runSample y.1 y.2).2.isSome = true → ∃ t', exec (.sampleComplete st index) s = .next t' ∧ ended t') ∧
      (∀ (s1 : State) (y : Sample × MediaOut) (z : Sample) (o : SlotOut), k ≠ 7 → s.decoded x = (s1, some y) →
        s1.runSample y.1 y.2 = (z, some o) → (∀ q ∈ s1.samples, q.stream = st → q.stage ≠ .mixWait) →
        exec (.sampleComplete st index) s = .next (s1.putSlot z o))) ∧
    (x.stage = .mixWait →
      ((∀ z ∈ s.samples, z.stream = st → z.stage = .mixWait → s.unmixed z = false) →
        exec (.sampleComplete st index) s = .next s) ∧
      (s.unmixed x = true → (∀ z ∈ s.samples, z.stream = st → z.stage = .mixWait → z.index = index) →
        (s.runSample { x with pos := x.pos + 1, stage := .decoding } x.out).2.isSome = true →
        ∃ t', exec (.sampleComplete st index) s = .next t' ∧ ended t') ∧
      (∀ p : Sample, k ≠ 7 → s.sample st (pairOf index) = some p → p.stage = .mixWait → p.pos = x.pos →
        ∃ t', exec (.mixPartnerArrival st index) s = .next t' ∧
          ((∀ o ∈ ((s.strm st).ops.drop (x.pos + 1)).dropLast, opCode o ≠ 0x06) →
            ended t' ∧ t'.sample st (pairOf index) = none ∧ pairOf index ∈ (t'.strm st).finished) ∧
          ∀ y ∈ t'.samples, y.stream = st → (y.index = index → y.partner = pairOf index) ∧
            (y.index = pairOf index → y.partner = index)))

/-- The Pantry is enabled and disabled; a filled slot is READY; a dictionary is loaded. With the Mandoline die absent
a write of PANTRY_CFG or TOK_CFG answers with a bus error. With it present: EN sets a Pantry that is off to enabled
where the checks pass, else CFG_ERR, every slot FREE where no finished sample waits for one; EN 0 of an enabled one
clears EN, every slot and the waiting transfers. A payload that fits, put into the lowest FREE slot of an enabled
Pantry with no transfer and no earlier sample waiting, makes it READY, last in order, its header and payload then
standing in the slot, where no regulator is on and the slot is served without error (which of several FREE slots is a
choice of the model, assumption log 68). A dictionary load is under way after TOK_CFG is written; while Meridian-B’s
module to the die is up it completes with the dictionary read, or with none and its error, once no text sample is in
the tokenizer, and not before. -/
def Obligations.PantryAndDictionary : Prop :=
  ∀ (s : State) (v : Word),
    (s.diePresent dieMdl = false → exec (.pantryEnable v) s = .next (s.emit .busError) ∧
      exec (.pantryDisable v) s = .next (s.emit .busError) ∧ exec (.tokDictLoad v) s = .next (s.emit .busError)) ∧
    (s.diePresent dieMdl = true → s.pEn = false →
      s.mdl.landing = [] → ∃ t', exec (.pantryEnable v) s = .next t' ∧ t'.pEn = s.pantryOk (v &&& pantryMask) ∧
        t'.mdl.cfgErr = !s.pantryOk (v &&& pantryMask) ∧ t'.mdl.slots = [] ∧ t'.mdl.readyOrder = [] ∧ t'.mem = s.mem) ∧
    (s.diePresent dieMdl = true → s.pEn = true →
      ∃ t', exec (.pantryDisable v) s = .next t' ∧ t'.pEn = false ∧ t'.mdl.slots = [] ∧ t'.mdl.readyOrder = [] ∧
        t'.mdl.waiters = [] ∧ t'.mem = s.mem) ∧
    (s.diePresent dieMdl = true → ∃ t', exec (.tokDictLoad v) s = .next t' ∧ t'.mdl.loading = true ∧ t'.mem = s.mem) ∧
    (∀ (x : Sample) (o : SlotOut) (i : Nat), o.payload.length ≤ s.slotSize - 64 → s.mdl.waiters = [] → s.pEn = true → s.mdl.landing = [] →
      (List.range s.nSlot).find? (fun i => (s.slotOf i).st == .free) = some i →
      ((s.putSlot x o).slotOf i).st = .ready ∧ ((s.putSlot x o).slotOf i).stream = x.stream ∧
        (s.putSlot x o).mdl.readyOrder = s.mdl.readyOrder ++ [i] ∧
        (let a := s.pData + i * s.slotSize
         s.served s.pPart a (64 + o.payload.length) →
          ((s.putSlot x o).readDram s.pPart a (64 + o.payload.length)).1 =
            (bytesOf (slotHeader x (s.strm x.stream).seq o) ++ o.payload).map some)) ∧
    (s.mdl.loading = true → s.joinOpen dieMerB = true →
      ((∃ x ∈ s.samples, x.stage = .decoding ∧ s.ingKind x.stream = 7) → exec .tokDictLoadComplete s = .next s) ∧
      ((∀ x ∈ s.samples, x.stage = .decoding → s.ingKind x.stream ≠ 7) →
        ∃ t', exec .tokDictLoadComplete s = .next t' ∧ t'.mdl.loading = false ∧
          ((t'.mdl.dict ≠ none ∧ t'.rg dieMdl 0x10110 = 2) ∨ (t'.mdl.dict = none ∧ bitOf (t'.rg dieMdl 0x10110) 0 = true))))

/-- Reads and writes of DRAM at a controller, and the tokens of its regulators. An access any byte of which lies where
no stack is, or on a stack this variant lacks, is the fault absentAddress. A control core’s read inside one codeword
of a frame it owns, on a stack that is up, of a Hob not fenced, on a channel not FAILED, outside the hole, with no
symbol in error and the key the word was written under, gives the bytes in memory and changes nothing else; a
partition’s does the same where its regulator is off and nothing waits there, and, where that is on, with 64 tokens or
more, which it takes, and with fewer it waits there. A control core’s read of a codeword with an error the code
corrects gives the bytes and counts the correction for its channel; with one it does not, a bus error and one report
of MEM_UE. A control core’s write inside such a codeword makes those bytes the memory’s there and leaves every other
byte. A control core’s read of a frame of another owner gives a bus error and one report of MEM_OWN, and no data. A
write of REG_CFG with nothing waiting sets EN as written, RATE with 1 for 0, and BURST held between 256 and
16,777,216, and leaves no more tokens than BURST. A credit of tokens is RATE times the time in microseconds, with what
stood over of the last: its whole bytes pay first what the partition’s runs owe there and then add to the tokens, up
to BURST, the rest stands over, and with nothing waiting nothing else changes. That a run’s overdraft is owed, and
that a fraction stands over, is the model’s reading (assumption logs 19 and 39). -/
def Obligations.DramAccessesAndTokens : Prop :=
  ((∀ (s : State) (req a n e : Nat) (bs : List Byte),
    (s.dramHere a n = false → exec (.dramRead req a n e) s = .fault .absentAddress) ∧
    (s.dramHere a bs.length = false → exec (.dramWrite req a bs) s = .fault .absentAddress)) ∧
  (∀ (s : State) (req a n : Nat) (bs : List Byte), s.dramHere a n = true → 1 ≤ n → a % 64 + n ≤ 64 →
    s.stackState (a / 2 ^ 36) = 1 → s.dieFenced (a / 2 ^ 36 / 3) = false → s.anyHole a n = false → s.chState (a / 2 ^ 36) (s.chanOf (a / 64 * 64)) ≠ 2 →
    (req = 8 → s.owner (a / 64 * 64) ≠ 8 →
      ∃ t' r, exec (.dramRead req a n 0) s = .next t' ∧ t'.out = s.out ++ [.busError] ∧ t'.reports = s.reports ++ [r] ∧
        r.src = 0x022 ∧ r.inst = a / 2 ^ 36 ∧ t'.mem = s.mem) ∧
    (s.owner (a / 64 * 64) = req → s.cwErr.val 0 (a / 64) = 0 →
      s.cwKey.val 0 (a / 64) = 0 ∨ s.cwKey.val 0 (a / 64) = s.keyOf req →
      (req = 8 → exec (.dramRead req a n 0) s = .next (s.emit (.dramData ((Mem.readN s.mem a n).map some)))) ∧
      (req < 8 → s.rb (stackReg (a / 2 ^ 36)).1 (regOff req (stackReg (a / 2 ^ 36)).2) 63 = false →
        s.regWaits.val [] (regKey (stackReg (a / 2 ^ 36)).1 req (stackReg (a / 2 ^ 36)).2) = [] →
        ∃ t', exec (.dramRead req a n 0) s = .next t' ∧ t'.out = s.out ++ [.dramData ((Mem.readN s.mem a n).map some)] ∧
          t'.mem = s.mem ∧ t'.regs = s.regs) ∧
      (req < 8 → s.rb (stackReg (a / 2 ^ 36)).1 (regOff req (stackReg (a / 2 ^ 36)).2) 63 = true →
        s.regWaits.val [] (regKey (stackReg (a / 2 ^ 36)).1 req (stackReg (a / 2 ^ 36)).2) = [] →
        let d := (stackReg (a / 2 ^ 36)).1
        let o := regOff req (stackReg (a / 2 ^ 36)).2
        (64 ≤ s.rf d (o + 8) 31 0 →
          ∃ t', exec (.dramRead req a n 0) s = .next t' ∧ t'.out = s.out ++ [.dramData ((Mem.readN s.mem a n).map some)] ∧
            t'.mem = s.mem ∧ t'.rf d (o + 8) 31 0 = s.rf d (o + 8) 31 0 - 64) ∧
        (s.rf d (o + 8) 31 0 < 64 →
          ∃ t', exec (.dramRead req a n 0) s = .next t' ∧ t'.out = s.out ∧ t'.mem = s.mem ∧ t'.rb d (o + 8) 63 = true ∧
            t'.regWaits.val [] (regKey d req (stackReg (a / 2 ^ 36)).2) = [{ addr := a, len := n }])) ∧
      (req = 8 → bs.length = n → s.canonical = true →
        ∃ t', exec (.dramWrite req a bs) s = .next t' ∧ Mem.readN t'.mem a n = bs ∧
          (∀ x : Nat, x < a ∨ a + n ≤ x → Mem.read t'.mem x = Mem.read s.mem x) ∧ t'.regs = s.regs)) ∧
    (s.owner (a / 64 * 64) = 8 → s.cwKey.val 0 (a / 64) = 0 ∨ s.cwKey.val 0 (a / 64) = s.keyOf 8 →
      let e := s.cwErr.val 0 (a / 64)
      let ch := s.chanOf (a / 64 * 64)
      (rsFix e = some e → e ≠ 0 → ∃ t', exec (.dramRead 8 a n 0) s = .next t' ∧
        t'.out = s.out ++ [.dramData ((Mem.readN s.mem a n).map some)] ∧ t'.mem = s.mem ∧
        (ch < 16 → t'.rg (a / 2 ^ 36 / 3) (chOff (a / 2 ^ 36) ch + 8) = s.rg (a / 2 ^ 36 / 3) (chOff (a / 2 ^ 36) ch + 8) + 1)) ∧
      (rsFix e = none → ∃ t' r, exec (.dramRead 8 a n 0) s = .next t' ∧ t'.out = s.out ++ [.busError] ∧ t'.mem = s.mem ∧
        t'.reports = s.reports ++ [r] ∧ r.src = 0x021 ∧ r.inst = a / 2 ^ 36 * 16 + ch)))) ∧
  (∀ (s : State) (mer p i ns : Nat) (v : Word),
    let d := dieMerA + mer
    let o := regOff p i
    s.regWaits.val [] (regKey d p i) = [] →
    (∃ t', exec (.regCfgWrite mer p i v) s = .next t' ∧ t'.rb d o 63 = bitOf v 63 ∧
      t'.rf d o 51 32 = (if fld v 51 32 = 0 then 1 else fld v 51 32) ∧
      t'.rf d o 31 0 = max 256 (min 16777216 (fld v 31 0)) ∧ t'.rf d (o + 8) 31 0 ≤ t'.rf d o 31 0 ∧
      t'.rf d (o + 8) 31 0 ≤ s.rf d (o + 8) 31 0 ∧ t'.mem = s.mem ∧ t'.out = s.out) ∧
    (let w := s.regOwed.val (0, 0) (regKey d p i)
     let gain := s.rf d o 51 32 * ns + w.2
     exec (.regTokenCredit mer p i ns) s = .next
       ({ s with regOwed := s.regOwed.put (regKey d p i) (w.1 - gain / 1000, gain % 1000) }.setRf d (o + 8) 31 0
         (min (s.rf d (o + 8) 31 0 + (gain / 1000 - w.1)) (s.rf d o 31 0)))))

/-- Correction windows, scrub and refresh tiers of a stack. On a stack of this variant: the end of a correction window
clears its count; on an absent one nothing happens. A scrub pass over a stack that is not up, or with SCRUB_HOURS 0,
does nothing. One over an up stack without a FAILED channel, with one codeword in error, outside the hole and on a
channel not FAILED, removes an error that the code corrects and counts it, and leaves an uncorrectable one in place
and reports it. A temperature sample is kept and raises the refresh tier to the one it calls for, never lowering it;
entering the highest reports STACK_HOT. The tier goes down by one only where the last reading lies below the level
that leaves it. -/
def Obligations.MemoryHealth : Prop :=
  ∀ (s : State) (m : Nat),
    let tier := s.rf (m / 3) (memOff m) 55 54
    (s.stackPresent m = false → ∀ c temp : Nat, exec (.ceWindowRoll m c) s = .next s ∧
      exec (.refreshTierSample m temp) s = .next s ∧ exec (.refreshTierDown m) s = .next s ∧ exec (.scrubPass m []) s = .next s) ∧
    (s.stackPresent m = true →
      (∀ c : Nat, exec (.ceWindowRoll m c) s = .next (s.setRg (m / 3) (chOff m c + 0x18) 0)) ∧
      (∀ found : List (Nat × Nat), s.stackState m ≠ 1 ∨ s.rf (m / 3) (memOff m + 8) 31 24 = 0 →
        exec (.scrubPass m found) s = .next s) ∧
      (∀ cw mask : Nat, s.stackState m = 1 → s.rf (m / 3) (memOff m + 8) 31 24 ≠ 0 → cw * 64 / 2 ^ 36 = m →
        s.cwErr = [(cw, mask)] → mask ≠ 0 → s.inHole (cw * 64) = false → s.chanOf (cw * 64) < 16 →
        (∀ c : Nat, c < 16 → s.chState m c ≠ 2) →
        (rsFix mask = some mask → ∃ t', exec (.scrubPass m []) s = .next t' ∧ t'.cwErr = [] ∧ t'.mem = s.mem ∧
          t'.rg (m / 3) (chOff m (s.chanOf (cw * 64)) + 8) = s.rg (m / 3) (chOff m (s.chanOf (cw * 64)) + 8) + 1) ∧
        (badMask mask = true → ∃ t' r, exec (.scrubPass m []) s = .next t' ∧ t'.cwErr = s.cwErr ∧ t'.mem = s.mem ∧
          t'.reports = s.reports ++ [r] ∧ r.src = 0x021 ∧ r.inst = m * 16 + s.chanOf (cw * 64))) ∧
      (∀ temp : Nat, temp < 256 → ∃ t', exec (.refreshTierSample m temp) s = .next t' ∧
        t'.rf (m / 3) (memOff m) 63 56 = temp ∧ t'.rf (m / 3) (memOff m) 55 54 = max tier (tierFor temp) ∧
        (tier < 3 → 105 < temp → ∃ r, t'.reports = s.reports ++ [r] ∧ r.src = 0x023 ∧ r.inst = m) ∧
        (temp ≤ 105 → t'.reports = s.reports)) ∧
      (0 < tier → s.rf (m / 3) (memOff m) 63 56 < 73 + 10 * tier →
        ∃ t', exec (.refreshTierDown m) s = .next t' ∧ t'.rf (m / 3) (memOff m) 55 54 = tier - 1) ∧
      (tier = 0 ∨ 73 + 10 * tier ≤ s.rf (m / 3) (memOff m) 63 56 → exec (.refreshTierDown m) s = .next s))

/-- Channels fail and are mapped out; frame owners change. A channel of a present stack that is in the interleave and
not yet FAILED becomes FAILED, is reported, and asks for its own map-out; a periodic retraining that succeeds changes
nothing and one that fails does the same. A write of MEM_MAPOUT asks for its channels not yet mapped out; with the
stack up and no frame owned the remap starts at once. A remap completes only while one is under way: the channels it
took are MAPPED_OUT and out of the interleave, what was asked for since stays asked for, and, where that is nothing or
frames are owned, the stack is down exactly where fewer than 8 channels are left, else up. A write of an ownership
word with a reserved code or an owner in the hole sets IGNORED alone; another is kept. A write for an absent stack
ends in a bus error and does nothing else. -/
def Obligations.MapOutAndOwnership : Prop :=
  ∀ (s : State) (m : Nat),
    (s.stackPresent m = true →
      (∀ c : Nat, c < 16 → s.chState m c < 2 → s.rb (m / 3) (memOff m) c = true →
        exec (.channelPeriodicRetrain m c false) s = exec (.channelFailed m c) s ∧
        ∃ t', exec (.channelFailed m c) s = .next t' ∧ t'.chState m c = 2 ∧ natBit (t'.pend m) c = true ∧
          (∃ r ∈ t'.reports, r.src = 0x025 ∧ r.inst = m * 16 + c) ∧ t'.mem = s.mem) ∧
      (∀ c : Nat, exec (.channelPeriodicRetrain m c true) s = .next s) ∧
      (∀ v : Word, ∃ t', exec (.memMapoutWrite m v) s = .next t' ∧
        (∀ c : Nat, c < 16 → bitOf v c = true → s.chState m c ≠ 3 → natBit (t'.pend m) c = true) ∧
        (s.stackState m = 1 → s.owned m = 0 → t'.pend m ≠ 0 → t'.stackState m = 2) ∧ t'.mem = s.mem) ∧
      (s.stackState m = 2 → ∃ t', exec (.remapComplete m) s = .next t' ∧ 
        (∀ c : Nat, c < 16 → natBit (t'.pend m) c = (natBit (s.pend m) c && !natBit (s.remapping m) c)) ∧
        (∀ c : Nat, c < 16 → natBit (s.remapping m) c = true → t'.chState m c = 3 ∧ t'.rb (m / 3) (memOff m) c = false) ∧
        (t'.pend m = 0 ∨ t'.owned m ≠ 0 → t'.stackState m = (if (t'.chanList m).length < 8 then 3 else 1))) ∧
      (s.stackState m ≠ 2 → exec (.remapComplete m) s = .next s) ∧
      (∀ (w : Nat) (v : Word),
        let code (i : Nat) : Nat := fld v (4 * i + 3) (4 * i)
        let bad : Prop := ∃ i, i < 16 ∧ ((8 < code i ∧ code i ≠ 15) ∨ (code i ≠ 15 ∧ s.framesOf m ≤ 16 * w + i))
        (bad → exec (.memOwnWrite m w v) s = .next (s.setRb (m / 3) (memOff m + 0x18) 5 true)) ∧
        (¬bad → ∃ t', exec (.memOwnWrite m w v) s = .next t' ∧ t'.rg (m / 3) (ownOff m w) = v ∧ t'.mem = s.mem))) ∧
    (s.stackPresent m = false → ∀ (w : Nat) (v : Word), exec (.memMapoutWrite m v) s = .next (s.emit .busError) ∧
      exec (.memOwnWrite m w v) s = .next (s.emit .busError) ∧ exec (.remapComplete m) s = .next s)

/-- Training of a link. Each command of training completes. On a link this variant has: enabling one that was off sets
EN and, where the package is powered and not stopped, enters DETECT and sends training frames (else it is DOWN);
enabling one already on keeps its state. Disabling leaves EN 0, the link DOWN, its replay buffer empty and the epoch
drawn. A reset draws the epoch and, where enabled and running, enters DETECT. On a running enabled link below EQ a
repeat enters DETECT with frames, and a peer leads to EQ. From EQ the link enters LANE, COLD being 0 exactly where the
training record that counts holds coefficients for the link and they worked. From LANE it enters ALIGN at the widest
width the good lanes and its cap allow, if MIN_WIDTH admits that, and else goes DOWN. From ALIGN it enters IDENT and
queues its IDENT, repeated until answered, and behind it, where it encrypts and the identity is READY, the bytes of
its identity quote, once. A timeout from EQ to IDENT, or in RETRAIN, brings it DOWN. On an absent link none of them
does anything. -/
def Obligations.LinkTraining : Prop :=
  ∀ (s : State) (l : Nat) (v : Word) (ep : BitVec 32) (tx rx : BitVec 9),
    (s.linkPresent l = false → exec (.lkEnable l v) s = .next s ∧ exec (.lkDisable l v ep) s = .next s ∧
      exec (.lkCtlReset l ep) s = .next s ∧ exec (.lkDetectRepeat l) s = .next s ∧ exec (.lkPeerDetected l) s = .next s ∧
      (∀ ok : Bool, exec (.lkEqDone l ok) s = .next s) ∧ exec (.lkLaneDone l tx rx) s = .next s ∧
      exec (.lkAlignDone l) s = .next s ∧ exec (.lkTrainTimeout l) s = .next s) ∧
    (s.linkPresent l = true →
      (s.lkEn l = false → ∃ t', exec (.lkEnable l v) s = .next t' ∧ t'.lkEn l = true ∧
        t'.lkState l = (if s.lkRuns l then 1 else 0) ∧ t'.out = (if s.lkRuns l then s.out ++ [.frames l] else s.out)) ∧
      (s.lkEn l = true → ∃ t', exec (.lkEnable l v) s = .next t' ∧ t'.lkEn l = true ∧ t'.lkState l = s.lkState l ∧
        t'.links = s.links ∧ t'.out = s.out) ∧
      (∃ t', exec (.lkDisable l v ep) s = .next t' ∧ t'.lkEn l = false ∧ t'.lkState l = 0 ∧ t'.lkEpoch l = ep ∧
        (t'.link l).replay = [] ∧ (t'.link l).nextSeq = 0) ∧
      (∃ t', exec (.lkCtlReset l ep) s = .next t' ∧ t'.lkEpoch l = ep ∧ (t'.link l).replay = [] ∧
        (s.lkEn l = true → t'.lkState l = (if s.lkRuns l then 1 else 0)) ∧ (s.lkEn l = false → t'.lkState l = s.lkState l)) ∧
      (s.lkRuns l = true → s.lkEn l = true → s.lkState l < 2 →
        (∃ t', exec (.lkDetectRepeat l) s = .next t' ∧ t'.lkState l = 1 ∧ t'.out = s.out ++ [.frames l]) ∧
        (∃ t', exec (.lkPeerDetected l) s = .next t' ∧ t'.lkState l = 2)) ∧
      (s.lkState l = 2 → ∀ ok : Bool, ∃ t', exec (.lkEqDone l ok) s = .next t' ∧ t'.lkState l = 3 ∧
        t'.lkB l 0x10 53 = !((s.trainRec.linkCoeffs.find l).isSome && ok)) ∧
      (s.lkState l = 3 →
        let bad := (s.link l).refBadLanes
        let w := widthFor (min (goodCount (tx &&& ~~~bad)) (goodCount (rx &&& ~~~bad))) (s.link l).cap
        (∀ n : Nat, w = some n → s.lkF l 0 54 53 ≤ n →
          ∃ t', exec (.lkLaneDone l tx rx) s = .next t' ∧ t'.lkState l = 4 ∧ t'.lkF l 0x10 59 58 = n) ∧
        ((∀ n : Nat, w = some n → n < s.lkF l 0 54 53) →
          ∃ t', exec (.lkLaneDone l tx rx) s = .next t' ∧ t'.lkState l = 0)) ∧
      (s.lkState l = 4 → ∃ t' m q, exec (.lkAlignDone l) s = .next t' ∧ t'.lkState l = 5 ∧
        (t'.link l).ctl = (s.link l).ctl ++ m :: q ∧ m ∈ (t'.link l).ctlOpen ∧ m.msg = 1 ∧ (∀ o ∈ q, o.msg = 1) ∧
        (q.flatMap fun o => o.frag) = if s.lkB l 0 62 && s.rotState == 1 then s.rot.idQuote else []) ∧
      ((2 ≤ s.lkState l ∧ s.lkState l ≤ 5) ∨ s.lkState l = 7 →
        ∃ t', exec (.lkTrainTimeout l) s = .next t' ∧ t'.lkState l = 0))

/-- Links retrain, and the reference endpoint starts. Each command of retraining completes. On a running ACTIVE link
with no request open, the control software’s retrain, a damage window over its limit and a lane over its FEC limit
each queue a RETRAIN_REQ, for full width in the first case and the present width in the others. RETRAIN entered alone
after the request’s timeout or the peer’s loss of alignment is state 7. An intact request of the peer with none of
one’s own open, and its intact GO, enter RETRAIN, the first with a GO sent. From RETRAIN the link is ACTIVE again at
the widest width allowed, if MIN_WIDTH admits it, a lower one being reported, and else DOWN. Loss of FEC lock, and
more than 16 tag failures in the window, bring an ACTIVE link DOWN, the second with a report. The clauses on reports
are for links that are no mirror links, whose copies may start and report what they read. LK_REF_START on a link this
variant has completes: it sets EN of LK_REF_CTL, clears the generator’s number and its count of cells, and, where no
script record of COUNT 0 can apply (the link is no reference endpoint, or the script has no records), clears both
counts and restarts the script with nothing held; on an absent link it does nothing. The end of an ACK hold lets the
current ACK and SACK go again, and changes nothing else of the state but that link’s record. -/
def Obligations.LinkRetraining : Prop :=
  (∀ (s : State) (l : Nat) (c : LkCell) (tx rx : BitVec 9), s.linkPresent l = true →
    (s.lkRuns l = true → s.lkState l = 6 → (∀ o ∈ (s.link l).ctlOpen, o.msg ≠ 2) →
      (∃ t' q, exec (.lkCtlRetrain l) s = .next t' ∧ (t'.link l).ctl = (s.link l).ctl ++ [q] ∧
        q ∈ (t'.link l).ctlOpen ∧ q.msg = 2 ∧ q.arg = 8 ∧ t'.lkState l = 6) ∧
      (∀ lane : Nat, ∃ t' q, exec (.lkLaneFecLimit l lane) s = .next t' ∧ (t'.link l).ctl = (s.link l).ctl ++ [q] ∧
        q ∈ (t'.link l).ctlOpen ∧ q.msg = 2 ∧ q.arg = s.widthLanes l ∧ t'.lkState l = 6) ∧
      (s.lkF l 0 47 32 ≠ 0 → s.lkF l 0 47 32 < (s.link l).damagedWin →
        ∃ t' q, exec (.lkDamageLimit l) s = .next t' ∧ (t'.link l).ctl = (s.link l).ctl ++ [q] ∧
        q ∈ (t'.link l).ctlOpen ∧ q.msg = 2 ∧ q.arg = s.widthLanes l ∧ t'.lkState l = 6) ∧
      (wireBad c = false → ∃ t' d, exec (.retrainReq l c) s = .next t' ∧ t'.lkState l = 7 ∧
        t'.out = s.out ++ [.cell l d] ∧ d.ty = 2 ∧ (ctlRead d).msg = 3)) ∧
    (s.lkState l = 6 →
      ((∃ o ∈ (s.link l).ctlOpen, o.msg = 2) → ∃ t', exec (.lkRetrainReqTimeout l) s = .next t' ∧ t'.lkState l = 7 ∧
        ∀ o ∈ (t'.link l).ctlOpen, o.msg ≠ 2) ∧
      (∃ t', exec (.lossOfAlignment l) s = .next t' ∧ t'.lkState l = 7) ∧
      (s.lkRuns l = true → wireBad c = false → ∃ t', exec (.retrainGo l c) s = .next t' ∧ t'.lkState l = 7) ∧
      (∃ t', exec (.lkFecLockLoss l) s = .next t' ∧ t'.lkState l = 0) ∧
      (16 < (s.link l).authWin → ∃ t', exec (.lkAuthLimit l) s = .next t' ∧ t'.lkState l = 0 ∧
        ∃ r ∈ t'.reports, r.src = 0x033 ∧ r.inst = l)) ∧
    (s.lkState l = 7 →
      let bad := (s.link l).refBadLanes
      let w := widthFor (min (goodCount (tx &&& ~~~bad)) (goodCount (rx &&& ~~~bad))) (s.link l).cap
      (∀ n : Nat, w = some n → s.lkF l 0 54 53 ≤ n →
        ∃ t', exec (.lkRetrainDone l tx rx) s = .next t' ∧ t'.lkState l = 6 ∧ t'.lkF l 0x10 59 58 = n ∧
          ((s.link l).mirror = false → n < s.lkF l 0x10 59 58 →
            ∃ r, t'.reports = s.reports ++ [r] ∧ r.src = 0x030 ∧ r.inst = l) ∧
          ((s.link l).mirror = false → s.lkF l 0x10 59 58 ≤ n → t'.reports = s.reports)) ∧
      ((∀ n : Nat, w = some n → n < s.lkF l 0 54 53) →
        ∃ t', exec (.lkRetrainDone l tx rx) s = .next t' ∧ t'.lkState l = 0))) ∧
  (∀ (s : State) (l : Nat) (v : Word),
    (s.linkPresent l = false → exec (.lkRefStart l v) s = .next s) ∧
    (s.linkPresent l = true → ∃ t', exec (.lkRefStart l v) s = .next t' ∧ (t'.link l).refCount = 0 ∧ (t'.link l).refN = 0 ∧
      ((s.link l).refEp = false ∨ fld v 47 40 = 0 → t'.lkB l 0x100 63 = true ∧ (t'.link l).refPos = 0 ∧
        t'.rg (linkDie l) (lkOff l + 0x128) = 0 ∧ t'.rg (linkDie l) (lkOff l + 0x130) = 0 ∧ (t'.link l).refHold = none ∧
        t'.mem = s.mem ∧ t'.out = s.out)) ∧
    (∃ t', exec (.lkRefAckHoldEnd l) s = .next t' ∧ (t'.link l).refHold = none ∧ { t' with links := s.links } = s ∧
      ∀ k : Nat, k ≠ l → t'.link k = s.link k))

/-- IDENT, reroute and return messages of a link. Each message completes. On a running link, what words 0 to 3 of an
intact LINKCTL cell say: an IDENT in state IDENT makes the link ACTIVE and records its sender where neither end
encrypts, or where an encrypted link state resumes; one whose encryption disagrees, or that comes while this end’s
identity is not READY, brings it DOWN. Where both encrypt anew, its parts are gathered: the part that completes the
peer’s quote brings the link DOWN unless the quote is trusted and verifies, and then sends a ciphertext to its key;
the part that completes the peer’s ciphertext gives the shared secret and makes the link ACTIVE. In ACTIVE an IDENT
without parts is answered with this end’s own. In ACTIVE, a peer’s request to reroute a link closes that link’s
receiver, drops the cells it holds above ACK, keeps its deliverable ones ahead of this link’s later ones and answers
with its acknowledgement; the peer’s answer to this end’s request hands the failed link’s flows to this one, its
replay buffer empty, MIRROR cells alone staying where this is no mirror link; a RETURN brings its acknowledgement and
credit fields on a link that is no reference endpoint, and the returned link’s receiver, if it was asked to close,
begins anew at once, or at its IDENT where that is still to come. A damaged message is counted and not heard.
Unanswered messages are queued again, each once. -/
def Obligations.LinkMessages : Prop :=
  ∀ (s : State) (l : Nat) (c : LkCell) (trusted : Bool), s.lkRuns l = true →
    let m := ctlRead c
    let had := (s.link l).identIn
    let got := had ++ (c.payload.take c.len).drop 32
    (s.lkState l = 5 → wireBad c = false →
      (s.lkB l 0 62 = (m.arg % 2 == 1) →
        s.lkB l 0 62 = false ∨ (s.rotState = 1 ∧ s.lkB l 0x10 54 = true ∧ (s.link l).seenEpoch = some (s.lkEpoch l, m.epoch)) →
        ∃ t', exec (.ident l c trusted) s = .next t' ∧ t'.lkState l = 6 ∧ t'.rg (linkDie l) (lkOff l + 0x18) = m.devId ∧
          t'.lkF l 0x10 41 37 = m.link) ∧
      (s.lkB l 0 62 ≠ (m.arg % 2 == 1) ∨ (s.lkB l 0 62 = true ∧ s.rotState ≠ 1) →
        ∃ t', exec (.ident l c trusted) s = .next t' ∧ t'.lkState l = 0) ∧
      (s.lkB l 0 62 = true → m.arg % 2 = 1 → s.rotState = 1 →
        s.lkB l 0x10 54 = false ∨ (s.link l).seenEpoch ≠ some (s.lkEpoch l, m.epoch) →
        (got.length < 10564 → ∃ t', exec (.ident l c trusted) s = .next t' ∧ t'.lkState l = 5 ∧ (t'.link l).identIn = got ∧
          (t'.link l).ctl = (s.link l).ctl) ∧
        (had.length < 10564 → 10564 ≤ got.length → got.length < 12132 → ∃ t' n, exec (.ident l c trusted) s = .next t' ∧
          ((trusted && s.quoteValid m.devId (got.take 10564)) = false → t'.lkState l = 0) ∧
          ((trusted && s.quoteValid m.devId (got.take 10564)) = true → t'.lkState l = 5 ∧ (t'.link l).identIn = got ∧
            ∃ q, (t'.link l).ctl = (s.link l).ctl ++ q ∧ (q.flatMap fun o => o.frag) =
              (kemEncaps ((got.take 10564).drop 8996) ((leBytes 64 (Config.freeKey n).toNat).take 32)).2)) ∧
        (10564 ≤ had.length → had.length < 12132 → 12132 ≤ got.length → ∃ t', exec (.ident l c trusted) s = .next t' ∧
          t'.lkState l = 6 ∧ t'.rg (linkDie l) (lkOff l + 0x18) = m.devId ∧
          (t'.link l).secretIn = kemDecaps s.kemD s.kemZ ((got.drop 10564).take 1568)))) ∧
    (5 ≤ s.lkState l → wireBad c = true → ∃ t', exec (.ident l c trusted) s = .next t' ∧ t'.lkState l = s.lkState l ∧
      (t'.link l).damagedWin = (s.link l).damagedWin + 1 ∧ (t'.link l).ctl = (s.link l).ctl) ∧
    (s.lkState l = 6 → wireBad c = false →
      (c.len ≤ 32 → ∃ t' q, exec (.ident l c trusted) s = .next t' ∧ (t'.link l).ctl = (s.link l).ctl ++ [q] ∧ q.msg = 1 ∧
        t'.lkState l = 6) ∧
      (∀ f : Nat, s.peerLink l m.failed = some f → f ≠ l →
        (∃ t' q, exec (.rerouteReq l c) s = .next t' ∧ (t'.link f).closed = true ∧ (t'.link f).asked = true ∧ (t'.link f).held = [] ∧
          (t'.link f).reqBuf = [] ∧ (t'.link l).reqBuf = (s.link l).reqBuf ++ (s.link f).reqBuf ∧
          (t'.link l).ctl = (s.link l).ctl ++ [q] ∧ q.msg = 5 ∧ q.finalAck = (s.link f).ack) ∧
        ((∃ o ∈ (s.link l).ctlOpen, o.msg = 4 ∧ o.failed = f) →
          ∃ t', exec (.rerouteState l c) s = .next t' ∧ (t'.link f).carriedBy = some l ∧ (t'.link f).replay = [] ∧
            (∀ x ∈ (t'.link f).txq, x.cls = 4) ∧ ((s.link l).mirror = true → (t'.link f).txq = []) ∧
            ∀ o ∈ (t'.link l).ctlOpen, ¬(o.msg = 4 ∧ o.failed = f))) ∧
      ((s.link l).refEp = false → ∃ t', exec (.linkReturn l c) s = .next t' ∧ (t'.link l).peerReq = c.crReq ∧
        (t'.link l).peerRsp = c.crRsp ∧ t'.mem = s.mem ∧ t'.out = s.out ∧
        ∀ f : Nat, s.peerLink l m.failed = some f → (s.link f).asked = true → (t'.link f).asked = false ∧
          ((s.link f).closed = false → (t'.link f).ack = 0 ∧ (t'.link f).held = [] ∧ (t'.link f).freedReq = 0) ∧
          ((s.link f).closed = true → (t'.link f).ack = (s.link f).ack))) ∧
    (∃ t', exec (.lkLinkctlRepeat l) s = .next t' ∧ (∀ o ∈ (s.link l).ctlOpen, o ∈ (t'.link l).ctl) ∧
      (t'.link l).ctlOpen = (s.link l).ctlOpen ∧ t'.regs = s.regs ∧ t'.out = s.out)

/-- Cells sent, received and acknowledged. Each command of the cell layer completes. On a running ACTIVE link a slot
first takes what its crossing has counted and hands on what its REQ buffer can; then it sends the ACK that opens a
resumed link state; else the oldest cell asked for again from its replay place; else a control message as a LINKCTL
cell; else an ACK cell that is owed; else, on no reference endpoint, the one waiting item, which has credit, room and
tokens and may go on this link now, as a new DATA cell of the next SEQ with as much payload as a cell carries, kept in
the replay buffer. An intact DATA cell of the SEQ due advances ACK by one, an RSP cell freeing its slot at once and a
REQ cell when its consumer takes it; one of a later SEQ is held, and the first such asks for an ACK; a damaged one is
counted and delivers nothing; a duplicate asks for an ACK. An ACK cell of everything sent empties the replay buffer.
The idle timer sends an ACK cell. A retransmission timeout asks for the oldest cell again, and at its eighth firing
brings the link DOWN. A link not running takes nothing and sends nothing. -/
def Obligations.LinkCells : Prop :=
  ∀ (s : State) (l : Nat) (c : LkCell),
    let k := s.link l
    let s1 := (s.crossTake (1024 + l)).drainReq l
    let k1 := s1.link l
    (s.lkRuns l = false → exec (.lkCellSlot l) s = .next s ∧ exec (.lkDataCellRx l c) s = .next s ∧
      exec (.lkAckCellRx l c) s = .next s ∧ exec (.lkIdleAckTimer l) s = .next s) ∧
    (s.lkRuns l = true → s1.lkState l = 6 →
      (k1.ackFirst = true → ∃ t' d, exec (.lkCellSlot l) s = .next t' ∧ t'.out = s1.out ++ [.cell l d] ∧ d.ty = 1 ∧
        (t'.link l).ackFirst = false ∧ (t'.link l).retx = k1.retx) ∧
      (k1.ackFirst = false →
        (∀ (q : Nat) (rest : List Nat) (r : Replay), k1.retx = q :: rest → (k1.replay.find? fun r => r.cell.seq == q) = some r →
          ∃ t' d, exec (.lkCellSlot l) s = .next t' ∧ t'.out = s1.out ++ [.cell l d] ∧ d.seq = q ∧
            d.payload = r.cell.payload ∧ (t'.link l).retx = rest ∧ (t'.link l).replay = k1.replay) ∧
        (∀ (m : LkMsg) (rest : List LkMsg), k1.retx = [] → k1.ctl = m :: rest →
          ∃ t' d, exec (.lkCellSlot l) s = .next t' ∧ t'.out = s1.out ++ [.cell l d] ∧ d.ty = 2 ∧ d.payload = ctlPayload m ++ m.frag ∧
            (t'.link l).ctl = rest) ∧
        (k1.retx = [] → k1.ctl = [] → k1.urgent = true →
          ∃ t' d, exec (.lkCellSlot l) s = .next t' ∧ t'.out = s1.out ++ [.cell l d] ∧ d.ty = 1 ∧
            d.ack = (k1.refHold.getD (k1.ack, sackOf k1)).1 ∧ (t'.link l).urgent = false) ∧
        (∀ x : TxItem, k1.refEp = false → k1.retx = [] → k1.ctl = [] → k1.urgent = false → k1.txq = [x] →
          s1.lkShort l x.part = false → k1.replay.length < 2048 → k1.credit x.vc = true → k1.sends x = true →
          (s1.crossing (1024 + l)).resync = false →
          ∃ t' d, exec (.lkCellSlot l) s = .next t' ∧ t'.out = s1.out ++ [.cell l d] ∧ d.ty = 0 ∧ d.seq = k1.nextSeq ∧
            d.cls = x.cls ∧ d.object = x.object ∧ d.offset = x.offset ∧
            (s1.lkB l 0x10 54 = false → d.payload = x.payload.take (s1.cellBytes l)) ∧
            (x.payload.length ≤ s1.cellBytes l → (t'.link l).txq = []) ∧
            (t'.link l).nextSeq = (k1.nextSeq + 1) % 4096 ∧ (t'.link l).replay.length = k1.replay.length + 1))) ∧
    (s.lkRuns l = true → s.lkState l = 6 →
      (wireBad c = false → s.tagBad l c = false → c.ty = 0 → k.closed = false → k.held = [] → c.seq = k.ack →
        ∃ t', exec (.lkDataCellRx l c) s = .next t' ∧ (t'.link l).ack = (k.ack + 1) % 4096 ∧ (t'.link l).held = [] ∧
          (c.vc = true → (t'.link l).freedRsp = (k.freedRsp + 1) % 65536) ∧
          (c.vc = false → k.reqBuf = [] → c.cls ≠ 4 →
            (t'.link l).freedReq = (k.freedReq + 1) % 65536 ∧ (t'.link l).reqBuf = [])) ∧
      (wireBad c = false → s.tagBad l c = false → c.ty = 0 → k.closed = false → c.seq ≠ k.ack → seqDiff c.seq k.ack < 2048 →
        (∀ x ∈ k.held, x.seq ≠ c.seq ∧ x.seq ≠ k.ack) →
        ∃ t', exec (.lkDataCellRx l c) s = .next t' ∧ (t'.link l).ack = k.ack ∧ (t'.link l).held = k.held ++ [c] ∧
          (k.held = [] → (t'.link l).urgent = true) ∧ t'.flights = s.flights ∧ t'.unitIn = s.unitIn) ∧
      (wireBad c = true ∨ s.tagBad l c = true →
        ∃ t', exec (.lkDataCellRx l c) s = .next t' ∧ (t'.link l).ack = k.ack ∧ (t'.link l).held = k.held ∧
          (t'.link l).damagedWin = k.damagedWin + 1 ∧ t'.flights = s.flights ∧ t'.unitIn = s.unitIn ∧ t'.slCredits = s.slCredits) ∧
      (wireBad c = false → s.tagBad l c = false → c.ty = 0 → k.closed = false → 2048 ≤ seqDiff c.seq k.ack →
        ∃ t', exec (.lkDataCellRx l c) s = .next t' ∧ (t'.link l).ack = k.ack ∧ (t'.link l).urgent = true ∧
          t'.flights = s.flights ∧ t'.unitIn = s.unitIn ∧ t'.slCredits = s.slCredits) ∧
      (∀ (r : Replay) (rest : List Replay), wireBad c = false → c.ty = 1 → k.replay = r :: rest →
        seqDiff c.ack r.cell.seq = k.replay.length →
        ∃ t', exec (.lkAckCellRx l c) s = .next t' ∧ (t'.link l).replay = [] ∧ (t'.link l).firings = 0 ∧
          (t'.link l).peerReq = c.crReq ∧ (k.refEp = false → t'.mem = s.mem) ∧ t'.out = s.out) ∧
      (∃ t' d, exec (.lkIdleAckTimer l) s = .next t' ∧ t'.out = s.out ++ [.cell l d] ∧ d.ty = 1 ∧ (t'.link l).urgent = false) ∧
      (∀ (r : Replay) (rest : List Replay), k.replay = r :: rest →
        (k.firings + 1 < 8 → ∃ t', exec (.lkRetxTimeout l) s = .next t' ∧ r.cell.seq ∈ (t'.link l).retx ∧
          (t'.link l).firings = k.firings + 1 ∧ t'.lkState l = 6) ∧
        (8 ≤ k.firings + 1 → ∃ t', exec (.lkRetxTimeout l) s = .next t' ∧ t'.lkState l = 0)))

/-- Die-to-die modules train, retrain and fail; dies reset. A training result on a module both of whose dies are
present, whose end is not yet ACTIVE or FAILED: where the two ends agree and read each other back, both are ACTIVE
with the width they agreed, the rate that every die present and in service has, and the repaired lanes shown, and a
retrain without a reset that lowers the width is reported; else the end trains again, or fails at its third
disagreement in a row. A retrain, or more CRC errors than the limit, takes an ACTIVE module’s two ends to TRAINING. A
reset of the guest die counts the requests it lost in D2D_LOST and takes its modules to TRAINING, FAILED ones too; its
crossings resynchronise. A reset of the Mandoline die is refused while the Pantry or a decoded stream is enabled, and
otherwise empties it. A crossing queue that resynchronises no longer does once it is done, a module’s only while its
module is ACTIVE, and no other queue changes. Each of the six commands completes. Without the module or the die
nothing happens, but that a retrain asked of an absent die answers with a bus error. -/
def Obligations.DieModules : Prop :=
  ∀ (s : State) (d m : Nat) (own peer ob pb : D2dResult),
    (s.module d m = none → exec (.d2dTrainResult d m own peer ob pb) s = .next s ∧ exec (.d2dCrcLimit d m) s = .next s ∧
      (s.diePresent d = true → exec (.d2dCtlRetrain d m) s = .next s)) ∧
    (s.diePresent d = false → exec (.d2dCtlRetrain d m) s = .next (s.emit .busError)) ∧
    (∀ e : Nat × Nat, s.module d m = some e →
      (s.d2dState d m < 3 →
        (own = peer → ob = own → pb = peer → ∃ t', exec (.d2dTrainResult d m own peer ob pb) s = .next t' ∧
          t'.d2dState d m = 3 ∧ t'.d2dState e.1 e.2 = 3 ∧ t'.rb d (d2dOff m) 60 = own.x32 ∧ t'.rb e.1 (d2dOff e.2) 60 = own.x32 ∧
          t'.rf d (d2dOff m) 58 56 = 0 ∧ t'.rb d (d2dOff m) 59 = !bitOf s.pkgFeatReg 0 ∧
          t'.rg d (d2dOff m + 0x30) = (if own.x32 then own.repaired &&& maskOf 31 0 else own.repaired) ∧
          (own.x32 = false → t'.reports = s.reports) ∧
          (own.x32 = true → s.rb d (d2dOff m) 60 = false → d * 32 + m ∈ s.d2dKeep →
            ∃ r ∈ t'.reports, r.src = 0x014 ∧ r.inst = d * 32 + m)) ∧
        (own ≠ peer ∨ ob ≠ own ∨ pb ≠ peer → ∃ t', exec (.d2dTrainResult d m own peer ob pb) s = .next t' ∧
          t'.d2dState d m = (if 2 ≤ s.rf d (d2dOff m) 58 56 then 4 else 1))) ∧
      (s.d2dState d m = 3 →
        (∃ t', exec (.d2dCtlRetrain d m) s = .next t' ∧ t'.d2dState d m = 1 ∧ t'.d2dState e.1 e.2 = 1) ∧
        (∃ t', exec (.d2dCrcLimit d m) s = .next t' ∧ t'.d2dState d m = 1 ∧ t'.d2dState e.1 e.2 = 1))) ∧
    (∀ lost : Nat, (s.diePresent dieGuest = false → exec (.resetGuest lost) s = .next s) ∧
      (s.diePresent dieGuest = true → ∃ t', exec (.resetGuest lost) s = .next t' ∧
        t'.rg dieMerA (d2dOff 20 + 0x28) + t'.rg dieMerA (d2dOff 21 + 0x28) =
          s.rg dieMerA (d2dOff 20 + 0x28) + s.rg dieMerA (d2dOff 21 + 0x28) + BitVec.ofNat 64 lost ∧
        t'.d2dState dieMerA 20 = 1 ∧ t'.d2dState dieMerA 21 = 1 ∧ (t'.crossing (dieMerA * 32 + 20)).resync = true ∧
        (t'.crossing (dieMerA * 32 + 21)).resync = true)) ∧
    (s.diePresent dieMdl = false → exec .resetMdl s = .next s) ∧
    (s.diePresent dieMdl = true →
      (s.pEn = true ∨ s.decodedStream = true → exec .resetMdl s = .next (s.setRb dieMerA 0x1018 2 true)) ∧
      (s.pEn = false → s.decodedStream = false → ∃ t', exec .resetMdl s = .next t' ∧ t'.mdl = {} ∧
        t'.d2dState dieMerB 20 = 1 ∧ t'.d2dState dieMerB 21 = 1 ∧ (t'.crossing (dieMerB * 32 + 20)).resync = true ∧
        (t'.crossing (dieMerB * 32 + 21)).resync = true)) ∧
    (∀ q : Nat,
      ((s.crossing q).resync = true → 1024 ≤ q ∨ s.d2dState (q / 32) (q % 32) = 3 →
        ∃ t', exec (.crossingResyncDone q) s = .next t' ∧ (t'.crossing q).resync = false ∧
          (∀ k : Nat, k ≠ q → t'.crossing k = s.crossing k) ∧ { t' with cross := s.cross } = s) ∧
      ((s.crossing q).resync = false ∨ (q < 1024 ∧ s.d2dState (q / 32) (q % 32) ≠ 3) →
        exec (.crossingResyncDone q) s = .next s))

/-- The guest firewall and the retirement of a tile. With a guest die present, not fenced and a crossing up: a read or
write no window holds and allows is dropped, counted and reported, a read with an error, memory unchanged. A read a
window allows of a scratchpad its partition holds, with no unit in error, gives the bytes; a write stores them and no
other, and so in DRAM where no regulator of the partition is on and its codewords are served without error; a message
enters the channels from sender 0x3FE. Without a guest die requests and window writes do nothing; with one a window
write keeps the writable bits, at once where no admitted message of its window is under way, and else once they have
gone. Retiring a present tile that has a position takes its group out and is reported; naming another does nothing. -/
def Obligations.FirewallAndRetirement : Prop :=
  ∀ (s : State) (a n : Nat) (bs : List Byte) (v : Word),
    (s.diePresent dieGuest = false → (∀ op : FwOp, exec (.fwGuestRequest op a n bs) s = .next s) ∧
      ∀ k w : Nat, exec (.fwWinWrite k w v) s = .next s) ∧
    (s.diePresent dieGuest = true → s.fwHeld = [] → ∀ k : Nat,
      ((∀ m ∈ s.msgs, m.win ≠ some k) →
        exec (.fwWinWrite k 0 v) s = .next (s.setRg dieMerA (fwOff k) (v &&& (maskOf 63 57 ||| maskOf 47 12))) ∧
        exec (.fwWinWrite k 1 v) s = .next (s.setRg dieMerA (fwOff k + 8) (v &&& maskOf 35 0))) ∧
      ((∃ m ∈ s.msgs, m.win = some k) → ∀ w : Nat, exec (.fwWinWrite k w v) s = .next { s with fwHeld := [(k, w, v)] })) ∧
    (s.diePresent dieGuest = true → s.dieFenced dieGuest = false → s.joinOpen dieMerA = true →
      let lets (op : FwOp) (x k w : Nat) : Prop :=
        (List.range 64).find? (fun w => s.fwHolds w x k && s.rb dieMerA (fwOff w) (57 + opBit op)) = some w
      (∀ op : FwOp, op ≠ .msg → (∀ w : Nat, ¬lets op a n w) →
        ∃ t' r, exec (.fwGuestRequest op a n bs) s = .next t' ∧ t'.reports = s.reports ++ [r] ∧ r.src = 0x015 ∧
          t'.rg dieMerA 0xE00400 = s.rg dieMerA 0xE00400 + 1 ∧ t'.mem = s.mem ∧
          (op = .read → t'.out = s.out ++ [.guestError])) ∧
      (∀ w : Nat, isDram a = false →
        (lets .read a n w → s.fwOwned (s.rf dieMerA (fwOff w) 62 60) a n = true → s.spErr = [] →
          exec (.fwGuestRequest .read a n bs) s = .next (s.emit (.guestData (Mem.readN s.mem a n)))) ∧
        (lets .write a n w → s.fwOwned (s.rf dieMerA (fwOff w) 62 60) a n = true → bs.length = n → s.canonical = true →
          ∃ t', exec (.fwGuestRequest .write a n bs) s = .next t' ∧ Mem.readN t'.mem a n = bs ∧
            ∀ x : Nat, x < a ∨ a + n ≤ x → Mem.read t'.mem x = Mem.read s.mem x)) ∧
      (∀ w : Nat, isDram a = true →
        let p := s.rf dieMerA (fwOff w) 62 60
        s.fwOwned p a n = true → s.served p a n →
        (lets .read a n w → ∃ t', exec (.fwGuestRequest .read a n bs) s = .next t' ∧
          t'.out = s.out ++ [.guestData (onesFor (s.readDram p a n).1)] ∧ t'.mem = s.mem) ∧
        (lets .write a n w → bs.length = n → ∃ t', exec (.fwGuestRequest .write a n bs) s = .next t' ∧
          (t'.readDram p a n).1 = bs.map some ∧ ∀ x : Nat, x < a ∨ a + n ≤ x → Mem.read t'.mem x = Mem.read s.mem x)) ∧
      (∀ w : Nat, lets .msg (spBase (a / 2 ^ 16 % 1024)) 64 w →
        s.fwOwned (s.rf dieMerA (fwOff w) 62 60) (spBase (a / 2 ^ 16 % 1024)) 64 = true →
        ∃ t' q, exec (.fwGuestRequest .msg a n bs) s = .next t' ∧ t'.msgs = s.msgs ++ [q] ∧ q.sender = 0x3FE ∧ q.win = some w ∧
          q.part = s.rf dieMerA (fwOff w) 62 60 ∧ q.dest = BitVec.ofNat 64 a ∧ t'.mem = s.mem)) ∧
    (let t := fld v 9 0
     (s.tilePresent t = true → (s.posOf t).isSome = true → ∃ t', exec (.repRetireWrite v) s = .next t' ∧
        t'.rb dieMerA (repLostOff (t / 96)) (t % 96 / 8) = true ∧ ∃ r ∈ t'.reports, r.src = 0x016 ∧ r.inst = t / 96) ∧
     (s.tilePresent t = false ∨ s.posOf t = none → exec (.repRetireWrite v) s = .next s))

/-- The test port’s instructions and its unlocking. On a powered package whose TRST_N is high BYPASS and IDCODE are
taken at any time, IDCODE shifting out the identities of the dies in the chain; SAMPLE_PRELOAD, EXTEST, CLAMP and
HIGHZ are taken while RESET_N is low and are BYPASS while it is high. Unpowered, or held in Test-Logic-Reset by
TRST_N, all do nothing. An unlock with a good signature, powered with RESET_N high, gives every partition a new key
number in place of its erased key, brings every link that encrypts DOWN with its keys erased, and leaves the root of
trust UNLOCKED; another does nothing. -/
def Obligations.TestPort : Prop :=
  ∀ s : State,
    (s.tapOpen = true → exec .bypass s = .next { s with tap := .bypass } ∧
      exec .idcode s = .next { s with tap := .idcode, out := s.out ++ [.tdo (s.tapDies.map s.idcodeOf)] } ∧
      exec .samplePreload s = .next { s with tap := if s.pins.resetN = true then .bypass else .samplePreload } ∧
      exec .extest s = .next { s with tap := if s.pins.resetN = true then .bypass else .extest } ∧
      exec .clamp s = .next { s with tap := if s.pins.resetN = true then .bypass else .clamp } ∧
      exec .highz s = .next { s with tap := if s.pins.resetN = true then .bypass else .highz }) ∧
    (s.pins.powered = false ∨ s.pins.trstN = false → exec .bypass s = .next s ∧ exec .idcode s = .next s ∧ exec .samplePreload s = .next s ∧
      exec .extest s = .next s ∧ exec .clamp s = .next s ∧ exec .highz s = .next s) ∧
    (s.pins.powered = false ∨ s.pins.resetN = false → exec (.testUnlock true) s = .next s) ∧
    exec (.testUnlock false) s = .next s ∧
    (s.pins.powered = true → s.pins.resetN = true → ∃ t', exec (.testUnlock true) s = .next t' ∧ t'.rotState = 5 ∧
      (∀ p : Nat, p < 8 → (t'.part p).keyId = 2 * (s.rot.nextKeyId + p)) ∧
      ∀ l : Nat, l < 24 → s.linkPresent l = true → s.lkB l 0x10 54 = true →
        t'.lkState l = 0 ∧ t'.lkB l 0x10 54 = false ∧ (t'.link l).secretOut = [] ∧ (t'.link l).secretIn = [])

/-- Partitions are made valid and emptied; a job’s placement, end and fence complete. A partition not valid whose
groups may be held becomes valid and IDLE with those groups; otherwise CFG_ERR is set and nothing else changes. A
valid one takes new groups that may be held while IDLE, keeps its own with CFG_ERR where they may not, and takes
nothing in another state. An IDLE partition made not valid is EMPTY with its key erased; one in another state keeps
its state and sets REFUSED. A placement whose chunks and digest pass leaves the partition RUNNING where some tile of
it runs, else ENDING, and each tile the image starts, present and in service, runs with its pc at the entry given and
its registers zero; one that fails leaves it FENCED. An ENDING partition whose tiles’ units are all idle and whose
requests beyond them are done, and a FENCED one, become IDLE; each completion in any other state does nothing. -/
def Obligations.PartitionTable : Prop :=
  ∀ (s : State) (p : Nat) (v : Word),
    let x := s.part p
    (x.valid = false → s.groupsOk p (s.tileRegs p) = true → ∃ t', exec (.partValidate p v) s = .next t' ∧
      (t'.part p).valid = true ∧ (t'.part p).st = .idle ∧ (t'.part p).groups = s.tileRegs p ∧ { t' with parts := s.parts } = s) ∧
    (x.valid = false → s.groupsOk p (s.tileRegs p) = false →
      exec (.partValidate p v) s = .next (s.setPart p { x with cfgErr := true })) ∧
    (x.valid = true → x.st = .idle → s.groupsOk p (s.tileRegs p) = true →
      exec (.partValidate p v) s = .next (s.setPart p { x with groups := s.tileRegs p, cfgErr := false })) ∧
    (x.valid = true → x.st = .idle → s.groupsOk p (s.tileRegs p) = false →
      exec (.partValidate p v) s = .next ((s.setPart p { x with cfgErr := true }).setTileRegs p x.groups)) ∧
    (x.valid = true → x.st ≠ .idle → exec (.partValidate p v) s = .next s) ∧
    (x.st = .idle → ∃ t', exec (.partInvalidate p v) s = .next t' ∧ (t'.part p).valid = false ∧ (t'.part p).st = .empty ∧
      (t'.part p).groups = 0 ∧ (t'.part p).keyId = 2 * s.rot.nextKeyId) ∧
    (x.st ≠ .idle → exec (.partInvalidate p v) s = .next (s.setPart p { x with refused := true })) ∧
    (x.st = .placing →
      (x.env.chunksOk = true → x.env.digestOk = true → ∃ t', exec (.placingComplete p) s = .next t' ∧
        (((t'.part p).st = .running ∧ ∃ t ∈ x.tiles, (t'.tile t).live = true) ∨
          ((t'.part p).st = .ending ∧ ∀ t ∈ x.tiles, (t'.tile t).live = false)) ∧
        ∀ e ∈ x.env.job.tiles, (x.env.job.tiles.map (·.1)).Nodup → natBit x.groups (e.1 / 8) = true → s.tilePresent e.1 = true →
          s.groupServes (e.1 / 8) = true →
          (t'.tile e.1).live = true ∧ (t'.tile e.1).ctx = { pc := BitVec.ofNat 48 (e.2 / 4 * 4) }) ∧
      (x.env.chunksOk = false ∨ x.env.digestOk = false → ∃ t', exec (.placingComplete p) s = .next t' ∧
        (t'.part p).st = .fenced)) ∧
    (x.st ≠ .placing → exec (.placingComplete p) s = .next s) ∧
    (x.st = .ending → x.tiles.all s.unitsIdle = true → s.requestsDone p = true → ∃ t', exec (.endingComplete p) s = .next t' ∧
      (t'.part p).st = .idle ∧ (t'.part p).debug = false ∧ t'.tiles = s.tiles ∧ t'.mem = s.mem) ∧
    (x.st ≠ .ending ∨ x.tiles.all s.unitsIdle = false ∨ s.requestsDone p = false → exec (.endingComplete p) s = .next s) ∧
    (x.st = .fenced → ∃ t', exec (.fenceComplete p) s = .next t' ∧ (t'.part p).st = .idle ∧ t'.tiles = s.tiles ∧
      t'.mem = s.mem) ∧
    (x.st ≠ .fenced → exec (.fenceComplete p) s = .next s)

/-- A fault report that reaches the collector is recorded and acted on. A report on its way, with the collector
running, and come by its line already or neither its line nor its die’s path broken: below S3, it adds one to the
count of a record of its source, up to 0xFFFF, or takes the lowest free record with a count of one, its source, value,
partition, job, time and kind, setting PENDING from S1 up and raising the fault interrupt where that is enabled. At S3
every partition it names as to be fenced is FENCED. At S4 the package is stopped. With the collector not running, or
the line or path broken before the report came by it, nothing happens. -/
def Obligations.FaultReportsAreRecorded : Prop :=
  ∀ (s : State) (i : Nat) (r : Report), s.reports[i]? = some r →
    let here (kv : Nat × FcRec) : Bool := kv.2.src == r.src && kv.2.inst == r.inst
    (s.collectorRuns = false ∨
      (r.forwarded = false ∧ (s.pathDead r.die = true ∨ (r.die, r.line) ∈ s.brokenLines)) → exec (.faultReport i) s = .next s) ∧
    (s.collectorRuns = true → (s.pathDead r.die = false ∧ (r.die, r.line) ∉ s.brokenLines) ∨ r.forwarded = true →
      (∀ kv : Nat × FcRec, r.sev < 3 → s.recs.find? here = some kv →
        ∃ t', exec (.faultReport i) s = .next t' ∧ t'.reports = s.reports.eraseIdx i ∧
          (t'.recs.val {} kv.1).count = min ((s.recs.val {} kv.1).count + 1) 0xFFFF ∧ t'.regs = s.regs ∧ t'.parts = s.parts) ∧
      (∀ k : Nat, r.sev < 3 → s.recs.find? here = none → (List.range 256).find? (fun k => (s.recs.find k).isNone) = some k →
        ∃ t' x, exec (.faultReport i) s = .next t' ∧ t'.reports = s.reports.eraseIdx i ∧ t'.recs.find k = some x ∧
          x.src = r.src ∧ x.inst = r.inst ∧ x.sev = r.sev ∧ x.count = 1 ∧ x.value = r.value ∧
          x.part = r.part ∧ x.job = r.job ∧ x.firstNs = s.now dieMerA ∧ x.cond = r.cond ∧ x.active = (r.cond && !r.ended) ∧
          (1 ≤ r.sev → t'.rb dieMerA 0x1200008 60 = true ∧
            t'.out = s.out ++ (if s.rb dieMerA 0x1200000 8 = true then [.faultInterrupt] else [])) ∧
          (r.sev = 0 → t'.regs = s.regs ∧ t'.out = s.out) ∧ t'.parts = s.parts) ∧
      (r.sev = 3 → ∃ t', exec (.faultReport i) s = .next t' ∧
        ∀ p ∈ s.toFence r, (t'.part p).st = .fenced) ∧
      (r.sev = 4 → ∃ t', exec (.faultReport i) s = .next t' ∧ t'.stopped = true ∧ t'.phase = 6))

/-- Fault lines and paths; fault records are cleared; ERR_N. For a present die: a word with both rails of a pair
raised, a word not finished in time, and silence each break a line that was whole, mark the die’s path in FC_PATH and,
the first time, report PATH_BROKEN with the line’s number; a lost heartbeat declares the whole path broken. A word
with every pair valid, on a line that has returned to the spacer since the word before, forwards its report of that
die and line, and no later word is heard until every pair returns to the spacer. A broken line changes nothing more. A
test word on a whole line of a present die is sent; a heartbeat changes nothing. A clear that names an event record
below S4, or a condition record below S4 that is no longer ACTIVE, removes it and no other; one that names a record of
S4, or an ACTIVE condition, sets CLEAR_REFUSED and keeps every record; one that names a free record does nothing. A
clear of all keeps exactly the records that may not be cleared and sets nothing. A refresh of ERR_N by a running
collector drives it high exactly where every record lies below the level that lowers it and the package is not
stopped; more than 100 µs later, without another, the pin is low. Without a running collector nothing happens. -/
def Obligations.FaultLinesAndRecords : Prop :=
  (∀ (s : State) (d line i : Nat) (rails : List (Bool × Bool)),
    (s.diePresent d = true → (d, line) ∉ s.brokenLines →
      ((∃ b ∈ rails, b.1 = true ∧ b.2 = true) → (∃ t', exec (.fcLineWord d line rails i) s = .next t' ∧ (d, line) ∈ t'.brokenLines ∧ t'.rb dieMerA 0x1200020 d = true ∧
        (s.rb dieMerA 0x1200020 d = false → ∃ r ∈ t'.reports, r.src = 0x011 ∧ r.inst = d ∧ r.value = BitVec.ofNat 64 (line) ∧
          r.forwarded = true))) ∧
      (∃ t', exec (.fcLineWordTimeout d line) s = .next t' ∧ (d, line) ∈ t'.brokenLines ∧ t'.rb dieMerA 0x1200020 d = true ∧
        (s.rb dieMerA 0x1200020 d = false → ∃ r ∈ t'.reports, r.src = 0x011 ∧ r.inst = d ∧ r.value = BitVec.ofNat 64 (line) ∧
          r.forwarded = true)) ∧
      (∃ t', exec (.fcLineSilence d line) s = .next t' ∧ (d, line) ∈ t'.brokenLines ∧ t'.rb dieMerA 0x1200020 d = true ∧
        (s.rb dieMerA 0x1200020 d = false → ∃ r ∈ t'.reports, r.src = 0x011 ∧ r.inst = d ∧ r.value = BitVec.ofNat 64 (line) ∧
          r.forwarded = true)) ∧
      (rails ≠ [] → (∀ b ∈ rails, b.1 ≠ b.2) →
        ((d, line) ∈ s.lineUp → exec (.fcLineWord d line rails i) s = .next s) ∧
        ((d, line) ∉ s.lineUp → (∀ r : Report, s.reports[i]? = some r → r.die = d → r.line = line →
          exec (.fcLineWord d line rails i) s = .next { s with
            lineUp := s.lineUp ++ [(d, line)], reports := s.reports.set i { r with forwarded := true } }) ∧
          (∀ r : Report, s.reports[i]? = some r → r.die ≠ d ∨ r.line ≠ line →
            exec (.fcLineWord d line rails i) s = .next { s with lineUp := s.lineUp ++ [(d, line)] }))) ∧
      ((∀ b ∈ rails, b = (false, false)) → ∃ t', exec (.fcLineWord d line rails i) s = .next t' ∧ (d, line) ∉ t'.lineUp ∧
        { t' with lineUp := s.lineUp } = s) ∧
      exec (.fcLineTestWord d line) s = .next (s.emit (.testWord d line))) ∧
    (s.diePresent d = true → (∃ t', exec (.fcPathTimeout d) s = .next t' ∧ (d, 2 ^ 64 - 1) ∈ t'.brokenLines ∧ t'.rb dieMerA 0x1200020 d = true ∧
        (s.rb dieMerA 0x1200020 d = false → ∃ r ∈ t'.reports, r.src = 0x011 ∧ r.inst = d ∧ r.value = BitVec.ofNat 64 (2 ^ 64 - 1) ∧
          r.forwarded = true))) ∧
    ((d, line) ∈ s.brokenLines → exec (.fcLineWord d line rails i) s = .next s ∧ exec (.fcLineWordTimeout d line) s = .next s ∧
      exec (.fcLineSilence d line) s = .next s ∧ exec (.fcLineTestWord d line) s = .next s) ∧
    exec (.fcHeartbeat d) s = .next s) ∧
  (∀ (s : State) (k : Nat),
    (∀ x : FcRec, s.recs.find k = some x →
      (x.sev ≠ 4 → x.cond = false ∨ x.active = false → ∃ t', exec (.fcClearRecord k) s = .next t' ∧ t'.recs.find k = none ∧
        (∀ j : Nat, j ≠ k → t'.recs.find j = s.recs.find j) ∧ { t' with recs := s.recs } = s) ∧
      (x.sev = 4 ∨ (x.cond = true ∧ x.active = true) → exec (.fcClearRecord k) s = .next (s.setRb dieMerA 0x1200008 61 true))) ∧
    (s.recs.find k = none → exec (.fcClearRecord k) s = .next s) ∧
    (∃ t', exec .fcClearAll s = .next t' ∧ { t' with recs := s.recs } = s ∧
      ∀ kv, kv ∈ t'.recs ↔ kv ∈ s.recs ∧ (kv.2.sev = 4 ∨ (kv.2.cond = true ∧ kv.2.active = true))) ∧
    (s.collectorRuns = true → ∃ t' level, exec .errnRefresh s = .next t' ∧ t'.out = s.out ++ [.errN level] ∧
      (level = true ↔ s.stopped = false ∧ ∀ kv ∈ s.recs, kv.2.sev < s.rf dieMerA 0x1200000 2 0) ∧ t'.regs = s.regs ∧
      ∀ u : State, u.pins = t'.pins → 100000 < (u.now dieMerA + 2 ^ 64 - s.now dieMerA) % 2 ^ 64 → u.errnHigh = false) ∧
    (s.collectorRuns = false → exec .errnRefresh s = .next s))

/-- The governor’s pass, a failed replica and the package power loop. Each of the five commands completes. On a die
whose governor runs and whose replica has not failed or stalled for 16 passes, from a supply within 600 to 850 mV: a
pass whose measured pace is above the target, or whose junction has reached its limit, or whose power exceeds its
share, lowers the supply by 2.5 mV but not below 600 mV; one below the target with no limit reached never lowers it,
and one that meets the target with none reached keeps it; in no case does it move by more than 2.5 mV. PACE_STATUS
shows the supply, the pace and the temperature accepted, at the ceiling and at the floor. Where the replica has failed
a pass changes the temperature shown and no supply. A replica whose count has stood still for 16 passes sets the
supply to 0.70 V, marks it and is reported. Where the governor does not run neither changes anything. While the
governors run, a redivision that finds the dies’ powers over the cap takes 100 from the excursion allowance, and
another none; with none left, or above 5.0 kW, each die is held to its own share; exhausting the allowance leaves none
and holds them too, and a new window 5,000. That excursion time is taken in steps of 100 by the sum of the powers is
the model’s choice (assumption log 63), as is what a pass still shows while the replica has failed (assumption log
62). -/
def Obligations.GovernorPasses : Prop :=
  ∀ (s : State) (d : Nat) (gray : BitVec 16) (tjs : List Nat) (w : Nat),
    let half := (s.gov d).half
    let laps := grayNew (s.gov d).laps gray
    let measured := paceOfLaps d laps
    let target := s.rf d 0x2000 15 0
    let tj := (sampledTwice tjs).getD (s.rf d 0x2008 15 8)
    let limited : Prop := s.rf d 0x2010 7 0 ≤ tj ∨ ∃ n, (s.gov d).share = some n ∧ n < w
    (s.governs d = false → exec (.paceLoopPass d gray tjs w) s = .next s ∧ exec (.replicaFail d) s = .next s) ∧
    (s.governs d = true → s.rb d 0x2018 3 = true → exec (.replicaFail d) s = .next s) ∧
    (s.governs d = true → s.rb d 0x2018 3 = true ∨ (laps = 0 ∧ 15 ≤ (s.gov d).stall) → tj < 256 →
      ∃ t', exec (.paceLoopPass d gray tjs w) s = .next t' ∧ (t'.gov d).half = half ∧ t'.rf d 0x2008 15 8 = tj ∧
        t'.rf d 0x2008 25 16 = s.rf d 0x2008 25 16 ∧ (t'.gov d).laps = gray ∧ t'.reports = s.reports) ∧
    (s.governs d = true → s.rb d 0x2018 3 = false → laps ≠ 0 ∨ (s.gov d).stall < 15 → 1200 ≤ half → half ≤ 1700 → tj < 256 →
      ∃ t', exec (.paceLoopPass d gray tjs w) s = .next t' ∧ 1200 ≤ (t'.gov d).half ∧ (t'.gov d).half ≤ 1700 ∧
        (t'.gov d).half ≤ half + 5 ∧ half ≤ (t'.gov d).half + 5 ∧
        (target < measured ∨ limited → (t'.gov d).half = max 1200 (half - 5)) ∧
        (measured < target → ¬limited → half ≤ (t'.gov d).half) ∧ (measured = target → ¬limited → (t'.gov d).half = half) ∧
        t'.rf d 0x2008 25 16 = (t'.gov d).half / 2 ∧ t'.rf d 0x2008 47 32 = measured % 65536 ∧ t'.rf d 0x2008 15 8 = tj ∧
        (t'.rb d 0x2008 3 = true ↔ (t'.gov d).half = 1700 ∧ measured < target) ∧
        (t'.rb d 0x2008 2 = true ↔ (t'.gov d).half = 1200 ∧ target < measured) ∧
        (t'.gov d).power = w ∧ (t'.gov d).laps = gray ∧ t'.tiles = s.tiles) ∧
    (s.governs d = true → s.rb d 0x2018 3 = false →
      ((s.gov d).stall < 16 → exec (.replicaFail d) s = .next s) ∧
      (16 ≤ (s.gov d).stall → ∃ t' r, exec (.replicaFail d) s = .next t' ∧ (t'.gov d).half = 1400 ∧ t'.rb d 0x2018 3 = true ∧
        t'.reports = s.reports ++ [r] ∧ r.src = 0x010 ∧ r.inst = d)) ∧
    (s.governs dieMerA = true →
      let left := s.rf dieMerA 0x2108 47 32
      (∀ (powers : List (Nat × Nat)) (avg : Nat), ∃ t', exec (.pkgPowerRedivision powers avg) s = .next t' ∧
        t'.rf dieMerA 0x2108 47 32 = (if s.rf dieMerA 0x2100 15 0 < t'.packageW then left - 100 else left) ∧
        t'.rf dieMerA 0x2108 15 0 = avg % 65536 ∧
        (t'.rf dieMerA 0x2108 47 32 = 0 ∨ 5000 < t'.packageW → ∀ x ∈ t'.baseShares, (t'.gov x.1).share = some x.2)) ∧
      (∃ t', exec .excursionExhausted s = .next t' ∧ t'.rf dieMerA 0x2108 47 32 = 0 ∧
        ∀ x ∈ t'.baseShares, (t'.gov x.1).share = some x.2) ∧
      (∃ t', exec .excursionWindowEnd s = .next t' ∧ t'.rf dieMerA 0x2108 47 32 = 5000)) ∧
    (s.governs dieMerA = false → (∀ (powers : List (Nat × Nat)) (avg : Nat), exec (.pkgPowerRedivision powers avg) s = .next s) ∧
      exec .excursionExhausted s = .next s ∧ exec .excursionWindowEnd s = .next s)

/-- The governor never sets a supply outside its bounds. Whatever a pass of the governor samples and measures, and
when a replica has failed, both complete, and a supply that either sets lies between 0.60 V and 0.85 V (1,200 to 1,700
half millivolts), as does one shown in whole millivolts between 600 and 850. -/
def Obligations.SupplyStaysInBounds : Prop :=
  ∀ (s : State) (d : Nat) (gray : BitVec 16) (tjs : List Nat) (w : Nat),
    (∃ t', exec (.paceLoopPass d gray tjs w) s = .next t' ∧
      (∀ e : Nat, (t'.gov e).half ≠ (s.gov e).half → 1200 ≤ (t'.gov e).half ∧ (t'.gov e).half ≤ 1700) ∧
      (t'.rf d 0x2008 25 16 ≠ s.rf d 0x2008 25 16 → 600 ≤ t'.rf d 0x2008 25 16 ∧ t'.rf d 0x2008 25 16 ≤ 850)) ∧
    (∃ t', exec (.replicaFail d) s = .next t' ∧
      (∀ e : Nat, (t'.gov e).half ≠ (s.gov e).half → 1200 ≤ (t'.gov e).half ∧ (t'.gov e).half ≤ 1700) ∧
      (t'.rf d 0x2008 25 16 ≠ s.rf d 0x2008 25 16 → 600 ≤ t'.rf d 0x2008 25 16 ∧ t'.rf d 0x2008 25 16 ≤ 850))

/-- A block scale of 0xFF makes every element NaN. In each of the three block formats an element of any code in a
block whose scale code is 0xFF decodes as NaN. -/
def Obligations.BlockScaleNan : Prop :=
  ∀ (f : Fmt) (c : Nat), f ∈ [Fmt.mxfp4, .mxint8, .sq8] → decode f 0xFF c = .nan

/-- Division never traps. On a tile that may run its next instruction DIV, DIVU, REM and REMU complete on every pair
of operands, writing gd and nothing else but the pc. By zero DIV and DIVU give all ones and REM and REMU give ga; the
most negative number divided by -1 gives itself, with remainder 0. -/
def Obligations.DivisionNeverTraps : Prop :=
  ∀ (s : State) (t : Nat) (gd ga gb : Reg), s.ready t 4 = true →
    let a := s.g t ga
    let b := s.g t gb
    ((∃ v, exec (.div t gd ga gb) s = .next (s.result t 4 gd v)) ∧ (∃ v, exec (.divu t gd ga gb) s = .next (s.result t 4 gd v)) ∧
      (∃ v, exec (.rem t gd ga gb) s = .next (s.result t 4 gd v)) ∧ ∃ v, exec (.remu t gd ga gb) s = .next (s.result t 4 gd v)) ∧
    (b = 0 → exec (.div t gd ga gb) s = .next (s.result t 4 gd (BitVec.allOnes 64)) ∧
      exec (.divu t gd ga gb) s = .next (s.result t 4 gd (BitVec.allOnes 64)) ∧
      exec (.rem t gd ga gb) s = .next (s.result t 4 gd a) ∧ exec (.remu t gd ga gb) s = .next (s.result t 4 gd a)) ∧
    (a = 0x8000000000000000 → b = 0xFFFFFFFFFFFFFFFF → exec (.div t gd ga gb) s = .next (s.result t 4 gd a) ∧
      exec (.rem t gd ga gb) s = .next (s.result t 4 gd 0))

/-- Power and reset. Every one of these commands completes. Raising PWR_EN sets its level alone. With PWR_EN and the
input on, not tripped and not powered, the rails coming into regulation raise PWR_OK on a cold package whose dies wait
in reset with their counters running; otherwise nothing happens. Raising RESET_N on a powered package still in reset,
once PWR_OK has been high for 1 ms, releases the dies, each link given an epoch taking it; before that only the level
changes; the ADDR pins are read each time. Lowering RESET_N with PWR_OK makes the dies cold and holds them in reset.
Lowering PWR_EN, an input out of range, a thermal trip and an over-hot converter each remove power from a powered
package, which is cold afterwards; the trip also bars power until PWR_EN falls. An input above the turn-on level is
taken as on. Cold means no register, memory byte or tile record kept from before, and the eMMC as it stood; an input
out of range, a trip and an over-hot converter tear the write that was under way. -/
def Obligations.PowerAndReset : Prop :=
  ∀ s : State,
    let p := s.pins
    let cold (t' : State) : Prop := t'.regs = [] ∧ t'.mem = [] ∧ t'.tiles = [] ∧ t'.parts = [] ∧ t'.emmc = { s.emmc with writing := none }
    let lost (t' : State) : Prop := t'.regs = [] ∧ t'.mem = [] ∧ t'.tiles = [] ∧ t'.parts = [] ∧ t'.emmc = s.emmc.torn
    exec .pwrEnRise s = .next { s with pins := { p with pwrEn := true } } ∧
    (p.pwrEn = true → p.inputOn = true → p.tripped = false → p.powered = false →
      ∃ t', exec .railsInRegulation s = .next t' ∧ t'.pins.pwrOk = true ∧ t'.pins.powered = true ∧ t'.pins.released = false ∧
        t'.pins.counting = true ∧ cold t') ∧
    (p.pwrEn = false ∨ p.inputOn = false ∨ p.tripped = true ∨ p.powered = true → exec .railsInRegulation s = .next s) ∧
    (∀ epochs : List (Nat × Nat),
      (p.resetN = true ∨ p.pwrOk = false ∨ p.released = true ∨ p.okNs < 1000000 →
        exec (.resetNRise epochs) s = .next { s with pins := { p with resetN := true, addr := p.strap } }) ∧
      (p.resetN = false → p.pwrOk = true → p.released = false → 1000000 ≤ p.okNs →
        ∃ t', exec (.resetNRise epochs) s = .next t' ∧
          t'.pins = { p with resetN := true, addr := p.strap, released := true, counting := true, risenAt := s.now dieMerA } ∧
          ∀ l e : Nat, l < 24 → s.linkPresent l = true → epochs.find? (fun x => x.1 == l) = some (l, e) →
            t'.lkEpoch l = BitVec.ofNat 32 e)) ∧
    (p.pwrOk = true → ∃ t', exec .resetNFall s = .next t' ∧ t'.pins.resetN = false ∧ t'.pins.released = false ∧
        t'.pins.counting = false ∧ cold t') ∧
    (p.pwrOk = false → exec .resetNFall s = .next { s with pins := { p with resetN := false } }) ∧
    (p.powered = true → (∃ t', exec .pwrEnFall s = .next t' ∧ t'.pins.powered = false ∧ t'.pins.pwrOk = false ∧ cold t') ∧
      (∃ t', exec .converterOvertemp s = .next t' ∧ t'.pins.powered = false ∧ t'.pins.pwrOk = false ∧ lost t') ∧
      (∀ mv : Nat, mv < 42000 ∨ 58000 < mv → ∃ t', exec (.inputOutOfRange mv) s = .next t' ∧ t'.pins.powered = false ∧ t'.pins.pwrOk = false ∧ lost t') ∧
      ∀ d : Nat, s.diePresent d = true → (∃ t', exec (.thermalTrip d) s = .next t' ∧ t'.pins.powered = false ∧ t'.pins.pwrOk = false ∧ lost t') ∧
        ∃ t', exec (.thermalTrip d) s = .next t' ∧ t'.pins.tripped = true ∧ exec .railsInRegulation t' = .next t') ∧
    (∃ t', exec .pwrEnFall s = .next t' ∧ t'.pins.pwrEn = false ∧ t'.pins.tripped = false) ∧
    (∀ mv : Nat, 45000 < mv → mv ≤ 58000 →
      exec (.inputAboveTurnOn mv) s = .next { s with pins := { p with vin := mv, inputOn := true } })

/-- The stages of a boot. Each stage completes. On a powered package out of reset: each firmware stage, in its phase,
goes on to the next with the copy it picks, of which the component then runs, its SVN and measurement (the SHA-256 of
the manifest’s first 64 bytes) being shown, or to RECOVERY where it accepts neither. On an enrolled package the boot
ROM’s root secret is what the reading of the PUF gives. The boot ROM leads to ROT, ROT to DIE, and the operating
system’s image, once stack 0 is up, to OS. In the DIE phase with the collector running, training leaves no present
stack in TRAINING. A self-test not yet reconciled reconciles the repair map. READY follows OS once the map is
reconciled, with the milliseconds elapsed on Meridian-A’s counter since RESET_N rose, modulo 2^32. Each does nothing
in another phase. -/
def Obligations.BootStages : Prop :=
  ∀ (s : State) (reading : List Byte) (a : Bool) (failed unverified found : List (Nat × Nat)),
    let runs (t' : State) (c : Nat) : Prop := ∀ i, s.fwPick c = some i →
      t'.rot.runCopy.find c = some i ∧ t'.rot.running.find c = some ((s.fwCopy c i).take 64) ∧
      t'.rf dieMerA 0x4010 (63 - 16 * c) (48 - 16 * c) = fwSvn (s.fwCopy c i) % 2 ^ 16 ∧
      ∀ w : Nat, w < 4 → t'.rg dieMerA (0x4040 + 8 * (4 * (c - 1) + w)) = wordAt (wordsOf 4 (sha256 ((s.fwCopy c i).take 64))) w
    (s.booting 0 = true → s.rot.runCopy.find 1 = none →
      ∃ t', exec (.bootRomDone reading) s = .next t' ∧ t'.phase = (if (s.fwPick 1).isSome then 1 else 5) ∧ runs t' 1 ∧
        (∀ k, s.emmc.enrolled = true → s.pufSecret reading = some k → t'.rot.secret = k)) ∧
    (s.booting 0 = false → exec (.bootRomDone reading) s = .next s) ∧
    (s.booting 1 = true → ∃ t', exec (.rotStageDone a) s = .next t' ∧ t'.phase = (if (s.fwPick 2).isSome then 2 else 5) ∧ runs t' 2) ∧
    (s.booting 1 = false → exec (.rotStageDone a) s = .next s) ∧
    (s.collectorRuns = true → s.phase = 2 → ∃ t', exec (.memTrainingDone failed unverified) s = .next t' ∧
      ∀ m : Nat, m < 24 → s.stackPresent m = true → s.stackState m = 0 → t'.stackState m ≠ 0) ∧
    (s.collectorRuns = false ∨ s.phase ≠ 2 → exec (.memTrainingDone failed unverified) s = .next s) ∧
    (s.collectorRuns = true → s.reconciled = false → ∃ t', exec (.selfTestDone found) s = .next t' ∧ t'.reconciled = true) ∧
    (s.collectorRuns = false ∨ s.reconciled = true → exec (.selfTestDone found) s = .next s) ∧
    (s.booting 2 = true → s.stackState 0 = 1 →
      ∃ t', exec .osImageVerified s = .next t' ∧ t'.phase = (if (s.fwPick 3).isSome then 3 else 5) ∧ runs t' 3) ∧
    (s.booting 2 = false ∨ s.stackState 0 ≠ 1 → exec .osImageVerified s = .next s) ∧
    (s.booting 3 = true → s.reconciled = true → ∃ t', exec .ready s = .next t' ∧ t'.phase = 4 ∧
      t'.rf dieMerA 0x3000 31 0 = (s.now dieMerA + 2 ^ 64 - s.pins.risenAt) % 2 ^ 64 / 1000000 % 2 ^ 32) ∧
    (s.booting 3 = false ∨ s.reconciled = false → exec .ready s = .next s)

/-- The SMBus port’s commands. At its own address, while the port answers, each read command completes with the value
R428 names, as a Read Byte or Read Word low byte first or as a Block Read behind its count, followed where asked by
the packet error code of all bytes of the transfer: the hottest junction and the hottest sensor of the stacks that are
up, the power, the input voltage in 10 mV, the flags (the first three being READY, ERR_N low and stopped), and the
sensor of one die or stack, 0xFF where it is absent or, for a stack, DOWN. Before the port answers every one of them
is not acknowledged. A write is never acknowledged. A transfer to another address does nothing. Nothing else changes,
but that the second byte of a word of one byte takes a free value. -/
def Obligations.SystemManagementBus : Prop :=
  ∀ (s : State) (q : SmbReq),
    let read (code n v : Nat) : State := { s.emit (.smbRead (smbBytes q code n v s.freeIdx)) with
      freeIdx := s.freeIdx + (if q.kind = 1 ∧ n < 2 then 1 else 0) }
    (∀ code v : Nat, (q.pec = false → q.kind = 0 → smbBytes q code 1 v s.freeIdx = leBytes 1 v) ∧
      (q.pec = false → q.kind = 1 → (smbBytes q code 2 v s.freeIdx = leBytes 2 v) ∧ (smbBytes q code 1 v s.freeIdx).take 1 = leBytes 1 v) ∧
      (q.pec = false → q.kind = 2 → smbBytes q code 2 v s.freeIdx = BitVec.ofNat 8 2 :: leBytes 2 v) ∧
      (q.pec = true → ∀ n : Nat, smbBytes q code n v s.freeIdx = smbBytes { q with pec := false } code n v s.freeIdx ++
        [BitVec.ofNat 8 (crcMsb 8 0x07 ([BitVec.ofNat 8 (2 * q.addr), BitVec.ofNat 8 code, BitVec.ofNat 8 (2 * q.addr + 1)] ++
          smbBytes { q with pec := false } code n v s.freeIdx))])) ∧
    (s.smbAnswers = true → q.addr = 0x58 + s.pins.addr →
      (∃ v, exec (.smbJunctionMax q) s = .next (read 1 1 v) ∧ (∀ d : Nat, d < 12 → s.diePresent d = true → s.rf d 0x2008 15 8 ≤ v) ∧
        (v = 0 ∨ ∃ d, d < 12 ∧ s.diePresent d = true ∧ s.rf d 0x2008 15 8 = v)) ∧
      (∃ v, exec (.smbStackMax q) s = .next (read 2 1 v) ∧ (∀ m ∈ s.stacksUp, s.rf (m / 3) (memOff m) 63 56 ≤ v) ∧
        (v = 0 ∨ ∃ m ∈ s.stacksUp, s.rf (m / 3) (memOff m) 63 56 = v)) ∧
      exec (.smbPower q) s = .next (read 3 2 (s.rf dieMerA 0x2108 15 0)) ∧ exec (.smbVoltage q) s = .next (read 4 2 (s.pins.vin / 10)) ∧
      (∃ v, exec (.smbFlags q) s = .next (read 5 1 v) ∧ v < 64 ∧ (natBit v 0 = true ↔ s.phase = 4) ∧ natBit v 1 = (!s.errnHigh) ∧
        natBit v 2 = s.stopped) ∧
      (∀ d : Nat, d < 12 → exec (.smbDieJunction q d) s = .next (read (0x10 + d) 1 (if s.diePresent d = true then s.rf d 0x2008 15 8 else 0xFF))) ∧
      (∀ m : Nat, m < 24 → exec (.smbStackSensor q m) s = .next (read (0x20 + m) 1 (if s.stackPresent m = true ∧ s.stackState m ≠ 3 then s.rf (m / 3) (memOff m) 63 56 else 0xFF)))) ∧
    (∀ d m : Nat, ∀ c ∈ [Instr.smbJunctionMax q, .smbStackMax q, .smbPower q, .smbVoltage q, .smbFlags q, .smbDieJunction q d,
        .smbStackSensor q m],
      (s.smbAnswers = false → q.addr = 0x58 + s.pins.addr → exec c s = .next (s.emit .smbNack)) ∧
      (q.addr ≠ 0x58 + s.pins.addr → exec c s = .next s)) ∧
    (∀ (cmd : Nat) (bytes : List Byte), exec (.smbWriteNack q cmd bytes) s =
      .next (if q.addr = 0x58 + s.pins.addr then s.emit .smbNack else s))

/-- Writes of control space by software. A register write to the window of an absent die answers with a bus error and
changes nothing. On a present die: the supply target is held between 700 and 1,300 and the temperature limit between
60 and 100, no other register changing; a write of a status or capability register of R22 to R28 or R333 changes
nothing, and one of PACE_EVENTS clears the marks it writes as one. On Meridian-A the package power cap is held between
1,000 and 4,200, and ERR_N’s level between 1 and 4. An offset that is no multiple of 8 is refused as an unlisted
register, and on the guest die one from 0x3000 to below 0xD00000 as the guest’s own window. -/
def Obligations.RegisterWrites : Prop :=
  ∀ (s : State) (d : Nat) (v : Word),
    (s.diePresent d = false → ∀ off : Nat, exec (.registerWrite d off v) s = .next (s.emit .busError)) ∧
    (s.diePresent d = true →
      exec (.registerWrite d 0x2000 v) s = .next (s.setRf d 0x2000 15 0 (max 700 (min 1300 (fld v 15 0)))) ∧
      exec (.registerWrite d 0x2010 v) s = .next (s.setRf d 0x2010 7 0 (max 60 (min 100 (fld v 7 0)))) ∧
      exec (.registerWrite d 0x1000 v) s = .next s ∧ exec (.registerWrite d 0x2008 v) s = .next s ∧
      (∃ t', exec (.registerWrite d 0x2018 v) s = .next t' ∧ t'.rg d 0x2018 = s.rg d 0x2018 &&& ~~~(v &&& 0xF#64) ∧
        ∀ off : Nat, off ≠ 0x2018 → t'.rg d off = s.rg d off) ∧
      ∀ off : Nat, off % 8 ≠ 0 → exec (.registerWrite d off v) s = .refused .unlistedRegister) ∧
    (s.diePresent dieMerA = true →
      exec (.registerWrite dieMerA 0x2100 v) s = .next (s.setRf dieMerA 0x2100 15 0 (max 1000 (min 4200 (fld v 15 0)))) ∧
      ∃ t', exec (.registerWrite dieMerA 0x1200000 v) s = .next t' ∧ t'.rb dieMerA 0x1200000 8 = bitOf v 8 ∧
        t'.rf dieMerA 0x1200000 2 0 = max 1 (min 4 (fld v 2 0))) ∧
    (s.diePresent dieGuest = true → ∀ off : Nat, off % 8 = 0 → 0x3000 ≤ off → off < 0xD00000 →
      exec (.registerWrite dieGuest off v) s = .refused .guestWindow)

/-- The management port answers repeats and is silent before the ROT stage. Each of the 23 operations, before the ROT
stage, unpowered or in reset, or sent over TCP, to another port or to an address not the port’s own, is dropped; a
request whose source, port and tag are among those kept is answered with the kept response and changes nothing else; a
new one of another version, with a reserved byte set or a body length that is not its body’s is answered with
BAD_REQUEST under its tag, and changes nothing else. The port answers an address request for its own link-local
address with its MAC address once it is up, and before that it does not. -/
def Obligations.ManagementPort : Prop :=
  ∀ (s : State) (r : MgmtReq),
    let up : Prop := s.pins.powered = true ∧ s.pins.released = true ∧ s.phase ≠ 0
    ∀ c ∈ [Instr.status r, .resultRead r, .resultAck r, .blobOpen r, .blobWrite r, .blobRead r, .blobFree r, .jobStart r,
        .jobStop r, .jobFence r, .partSet r, .mapout r, .retire r, .quote r, .powerCap r, .recordsRead r, .recordsClear r,
        .fwUpload r, .svnCommit r, .netSet r, .recoverWrite r, .recoverCommit r, .powerOff r],
      (¬up ∨ r.tcp = true ∨ r.dstPort ≠ 23841 ∨ s.mgmtMine r = false → exec c s = .next s) ∧
      (∀ x, up → s.mgmtMine r = true → s.mgmt.seen.find? (fun e => e.1 == reqKey r) = some x →
        exec c s = .next (s.emit (.mgmt r.src r.srcPort x.2))) ∧
      (up → s.mgmtMine r = true → s.mgmt.seen.find? (fun e => e.1 == reqKey r) = none →
        fld r.w0 63 56 ≠ 1 ∨ fld r.w0 55 48 ≠ 0 ∨ fld r.w1 31 16 ≠ r.body.length →
        ∃ t' q, exec c s = .next t' ∧ t'.out = s.out ++ [.mgmt r.src r.srcPort q] ∧ { t' with out := s.out } = s ∧
          fld q.w0 39 32 = stBadRequest ∧ fld q.w0 31 0 = fld r.w0 31 0 ∧ q.body = []) ∧
      (up → exec (.mgmtAddressResolution 1 s.linkLocal) s = .next (s.emit (.mgmtAddress s.linkLocal (0x02 * 2 ^ 40 + fld s.devId 39 0)))) ∧
      (∀ kind addr : Nat, ¬up → exec (.mgmtAddressResolution kind addr) s = .next s)

/-- Immediate operations of the management port. A new well-formed request, in a phase its operation runs in, is
answered to its source with STATUS 0 and its result: STATUS with the eight words of R412; RESULT_READ with a completed
record’s 64 bytes, and otherwise with UNKNOWN_ID or NOT_READY; RESULT_ACK removes a completed record; POWER_CAP holds
the cap between 1,000 and 4,200; RECORDS_READ gives the words of the records asked for; RECORDS_CLEAR clears as
FC_CLEAR does. -/
def Obligations.ManagementReads : Prop :=
  ∀ (s : State) (r : MgmtReq),
    let asked (op : Nat) (m0 m1 : Word) (body : Nat → Bool) : Prop := s.pins.powered = true ∧ s.pins.released = true ∧
      s.mgmtMine r = true ∧ s.mgmt.seen.find? (fun e => e.1 == reqKey r) = none ∧ reqOk op r m0 m1 body = true
    let answers (t' : State) (st : Nat) (p : MgmtResp → Prop) : Prop :=
      ∃ q, t'.out = s.out ++ [.mgmt r.src r.srcPort q] ∧ fld q.w0 39 32 = st ∧ p q
    let id := r.arg0.toNat
    (asked 0x01 0 0 noBody → s.inPhase .a = true → ∃ t', exec (.status r) s = .next t' ∧
      answers t' 0 (fun q => q.body.length = 64 ∧
        ∀ k : Nat, k < 8 → beAt q.body (8 * k) 8 = [s.phase * 2 ^ 60 + variantCode s.variant * 2 ^ 32 + s.rf dieMerA 0x3000 31 0,
          (s.rg dieMerA rotOff).toNat, s.devId.toNat, (if s.collectorRuns = true then s.fcStatus.toNat else 0), s.partsWord % 2 ^ 64,
          (s.rg dieMerA 0x2108).toNat, (s.mgmt.blobs.length * 2 ^ 16 + s.mgmt.recs.length) % 2 ^ 64, 0].getD k 0) ∧
      t'.regs = s.regs ∧ t'.mem = s.mem) ∧
    (asked 0x02 m64 0 noBody → s.inPhase .a = true →
      (∀ x, s.crec id = some x → x.done = true → ∃ t', exec (.resultRead r) s = .next t' ∧
        answers t' 0 (fun q => q.body = recBytes id x)) ∧
      (∀ x, s.crec id = some x → x.done = false → ∃ t', exec (.resultRead r) s = .next t' ∧ answers t' stNotReady (fun _ => True)) ∧
      (s.crec id = none → ∃ t', exec (.resultRead r) s = .next t' ∧ answers t' stUnknownId (fun _ => True))) ∧
    (asked 0x03 m64 0 noBody → s.inPhase .a = true → ∀ x, s.crec id = some x → x.done = true →
      ∃ t', exec (.resultAck r) s = .next t' ∧ answers t' 0 (fun _ => True) ∧ t'.crec id = none) ∧
    (asked 0x21 m64 0 noBody → s.inPhase .r = true → ∃ t', exec (.powerCap r) s = .next t' ∧ answers t' 0 (fun _ => True) ∧
      t'.rg dieMerA 0x2100 = BitVec.ofNat 64 (max 1000 (min 4200 id))) ∧
    (asked 0x22 m64 m64 noBody → s.inPhase .c = true → 1 ≤ r.arg1.toNat → r.arg1.toNat ≤ 256 → id + r.arg1.toNat ≤ 256 →
      ∃ t', exec (.recordsRead r) s = .next t' ∧
        answers t' 0 (fun q => q.body = (List.range r.arg1.toNat).flatMap fun i => bytesOf (s.fcRec (id + i))) ∧ t'.recs = s.recs) ∧
    (asked 0x23 (maskOf 8 0) 0 noBody → s.inPhase .c = true → ∃ t', exec (.recordsClear r) s = .next t' ∧
      answers t' 0 (fun _ => True) ∧
      t'.recs = (if bitOf r.arg0 8 = true then s.clearAll.recs else (s.clearRecord (fld r.arg0 7 0)).recs))

/-- Blobs of the management port. A new well-formed request in READY or STOPPED is answered to its source: BLOB_OPEN
with room for it opens a blob of the size asked under a free number and gives that, and with 64 open, or beyond 32
GiB, is BUSY; BLOB_WRITE of an open blob that nothing holds puts its body there and keeps the other bytes, and one
past its end is a BAD_REQUEST; BLOB_READ gives the bytes written there; BLOB_FREE of one that nothing holds removes
it, and of one held marks it to be removed. A number that is not open gives UNKNOWN_ID, and a held blob BUSY on a
write. -/
def Obligations.ManagementBlobs : Prop :=
  ∀ (s : State) (r : MgmtReq), s.inPhase .r = true →
    let asked (op : Nat) (m0 m1 : Word) (body : Nat → Bool) : Prop := s.pins.powered = true ∧ s.pins.released = true ∧
      s.mgmtMine r = true ∧ s.mgmt.seen.find? (fun e => e.1 == reqKey r) = none ∧ reqOk op r m0 m1 body = true
    let answers (t' : State) (st : Nat) (p : MgmtResp → Prop) : Prop :=
      ∃ q, t'.out = s.out ++ [.mgmt r.src r.srcPort q] ∧ fld q.w0 39 32 = st ∧ p q
    let b := fld r.arg0 15 0
    let o := r.arg1.toNat
    let n := fld r.arg0 47 32
    (asked 0x08 m64 0 noBody → 1 ≤ r.arg0.toNat → r.arg0.toNat ≤ 2 ^ 34 → s.mgmt.blobs.length < 64 →
      s.blobBytes + r.arg0.toNat ≤ 2 ^ 35 → ∃ t' id x, exec (.blobOpen r) s = .next t' ∧
        answers t' 0 (fun q => q.arg0 = BitVec.ofNat 64 id) ∧ t'.mgmt.blobs.find id = some x ∧ x.size = r.arg0.toNat ∧ x.holds = 0 ∧
        s.mgmt.blobs.find id = none) ∧
    (asked 0x08 m64 0 noBody → 1 ≤ r.arg0.toNat → r.arg0.toNat ≤ 2 ^ 34 →
      64 ≤ s.mgmt.blobs.length ∨ 2 ^ 35 < s.blobBytes + r.arg0.toNat →
      ∃ t', exec (.blobOpen r) s = .next t' ∧ answers t' stBusy (fun _ => True) ∧ t'.mgmt.blobs = s.mgmt.blobs) ∧
    (∀ x, s.mgmt.blobs.find b = some x →
      (asked 0x09 (maskOf 15 0) m64 dataBody → o + r.body.length ≤ x.size →
        (x.holds = 0 → ∃ t' y, exec (.blobWrite r) s = .next t' ∧ answers t' 0 (fun _ => True) ∧ t'.mgmt.blobs.find b = some y ∧
          y.size = x.size ∧ (∀ i : Nat, i < r.body.length → y.bytes.find (o + i) = r.body[i]?) ∧
          ∀ i : Nat, i < o ∨ o + r.body.length ≤ i → y.bytes.find i = x.bytes.find i) ∧
        (0 < x.holds → ∃ t', exec (.blobWrite r) s = .next t' ∧ answers t' stBusy (fun _ => True) ∧ t'.mgmt.blobs = s.mgmt.blobs)) ∧
      (asked 0x0A (maskOf 47 32 ||| maskOf 15 0) m64 noBody → 1 ≤ n → n ≤ 8192 → o + n ≤ x.size →
        ∃ t', exec (.blobRead r) s = .next t' ∧ t'.mgmt.blobs = s.mgmt.blobs ∧ answers t' 0 (fun q => q.body.length = n ∧
          ∀ (i : Nat) (v : Byte), i < n → x.bytes.find (o + i) = some v → q.body[i]? = some v)) ∧
      (asked 0x09 (maskOf 15 0) m64 dataBody → x.size < o + r.body.length →
        ∃ t', exec (.blobWrite r) s = .next t' ∧ answers t' stBadRequest (fun _ => True) ∧ t'.mgmt = s.mgmt) ∧
      (asked 0x0B (maskOf 15 0) 0 noBody → 0 < x.holds →
        ∃ t', exec (.blobFree r) s = .next t' ∧ answers t' 0 (fun _ => True) ∧
          t'.mgmt.blobs.find b = some { x with freed := true }) ∧
      (asked 0x0B (maskOf 15 0) 0 noBody → x.holds = 0 → ∃ t', exec (.blobFree r) s = .next t' ∧ answers t' 0 (fun _ => True) ∧
        t'.mgmt.blobs.find b = none)) ∧
    (s.mgmt.blobs.find b = none →
      (asked 0x09 (maskOf 15 0) m64 dataBody →
        ∃ t', exec (.blobWrite r) s = .next t' ∧ answers t' stUnknownId (fun _ => True) ∧ t'.mgmt.blobs = s.mgmt.blobs) ∧
      (asked 0x0A (maskOf 47 32 ||| maskOf 15 0) m64 noBody → 1 ≤ n → n ≤ 8192 →
        ∃ t', exec (.blobRead r) s = .next t' ∧ answers t' stUnknownId (fun _ => True) ∧ t'.mgmt.blobs = s.mgmt.blobs) ∧
      (asked 0x0B (maskOf 15 0) 0 noBody →
        ∃ t', exec (.blobFree r) s = .next t' ∧ answers t' stUnknownId (fun _ => True) ∧ t'.mgmt.blobs = s.mgmt.blobs))

/-- Long operations of the management port. A new well-formed request, in a phase its operation runs in, with fewer
than 256 records held, completes: it is accepted under the next command number and its record stands under that
number. A JOB_STOP of a RUNNING partition brings it to ENDING and a JOB_FENCE to FENCED; a PART_SET of groups that may
be held makes an EMPTY partition valid and IDLE; a MAPOUT on a stack that is not down asks for the channels not yet
mapped out; a RETIRE, QUOTE, SVN_COMMIT, NET_SET and RECOVER_COMMIT wait for their work, as a FW_UPLOAD does whose
blob holds the copy its manifest declares. A JOB_START of an IDLE partition whose envelope, opened from the blobs it
names, passes the checks places it. A RECOVER_WRITE in RECOVERY writes its data into the copy it recovers, at its
offset, and no other byte of that copy changes. A POWER_OFF removes power until PWR_EN is lowered. The work of an open
RETIRE, QUOTE, FW_UPLOAD, SVN_COMMIT, NET_SET or RECOVER_COMMIT, once no earlier one on its tile, component or
settings is open, completes its record. A QUOTE in READY, with leaves left, the current tree not spent and room for
its blob, gives a blob of 10,564 bytes made by it, and its leaf is noted for its partition and no longer left. A
NET_SET with a readable eMMC keeps its body as the stored settings; a SVN_COMMIT with the eMMC readable and its RPMB
block this package’s and taking the write makes the component’s minimum no less than it was and no less than the
running copy’s; a FW_UPLOAD with a readable eMMC completes with what verification finds of its blob’s bytes, and,
where they pass, replaces the copy that is not running; a RETIRE of a tile with a position takes its group out. A
number with no record, one complete already, or one with such an earlier operation open, changes nothing. -/
def Obligations.LongOperations : Prop :=
  (∀ (s : State) (r : MgmtReq), s.mgmt.recs.length < 256 →
    let asked (op : Nat) (m0 m1 : Word) (body : Nat → Bool) : Prop := s.pins.powered = true ∧ s.pins.released = true ∧
      s.mgmtMine r = true ∧ s.mgmt.seen.find? (fun e => e.1 == reqKey r) = none ∧ reqOk op r m0 m1 body = true
    let id := s.mgmt.nextCmd
    let p := fld r.arg0 2 0
    (s.inPhase .r = true →
      (asked 0x11 (maskOf 2 0) 0 noBody → (s.part p).st = .running → ∃ t' q x, exec (.jobStop r) s = .next t' ∧ t'.out = s.out ++ [.mgmt r.src r.srcPort q] ∧
          fld q.w0 39 32 = stAccepted ∧ q.w1.toNat / 2 ^ 32 = id % 2 ^ 32 ∧ t'.crec id = some x ∧ x.op = 0x11 ∧
          t'.mgmt.nextCmd = id + 1 ∧ (t'.part p).st = .ending) ∧
      (asked 0x12 (maskOf 2 0) 0 noBody → (s.part p).st = .running → ∃ t' q x, exec (.jobFence r) s = .next t' ∧ t'.out = s.out ++ [.mgmt r.src r.srcPort q] ∧
          fld q.w0 39 32 = stAccepted ∧ q.w1.toNat / 2 ^ 32 = id % 2 ^ 32 ∧ t'.crec id = some x ∧ x.op = 0x12 ∧
          t'.mgmt.nextCmd = id + 1 ∧ (t'.part p).st = .fenced) ∧
      (asked 0x14 (maskOf 8 8 ||| maskOf 2 0) 0 (fun n => n == 16) → s.phase ≠ 6 → bitOf r.arg0 8 = true →
        (s.part p).st = .empty → (s.part p).valid = false →
        let g := bodyWord r.body 0 + bodyWord r.body 1 % 2 ^ 32 * 2 ^ 64
        (s.setTileRegs p g).groupsOk p g = true →
        ∃ t' q x, exec (.partSet r) s = .next t' ∧ t'.out = s.out ++ [.mgmt r.src r.srcPort q] ∧
          fld q.w0 39 32 = stAccepted ∧ q.w1.toNat / 2 ^ 32 = id % 2 ^ 32 ∧ t'.crec id = some x ∧ x.op = 0x14 ∧
          t'.mgmt.nextCmd = id + 1 ∧ (t'.part p).valid = true ∧ (t'.part p).st = .idle ∧ (t'.part p).groups = g) ∧
      (asked 0x18 (maskOf 4 0) (maskOf 15 0) noBody → s.stackPresent (fld r.arg0 4 0) = true → s.stackState (fld r.arg0 4 0) ≠ 3 →
        ∃ t' q x, exec (.mapout r) s = .next t' ∧ t'.out = s.out ++ [.mgmt r.src r.srcPort q] ∧
          fld q.w0 39 32 = stAccepted ∧ q.w1.toNat / 2 ^ 32 = id % 2 ^ 32 ∧ t'.crec id = some x ∧ x.op = 0x18 ∧
          t'.mgmt.nextCmd = id + 1 ∧ ∀ c : Nat, c < 16 → bitOf r.arg1 c = true →
          s.chState (fld r.arg0 4 0) c ≠ 3 → natBit (t'.pend (fld r.arg0 4 0)) c = true) ∧
      (asked 0x19 (maskOf 9 0) 0 noBody → s.tilePresent (fld r.arg0 9 0) = true →
        ∃ t' q x, exec (.retire r) s = .next t' ∧ t'.out = s.out ++ [.mgmt r.src r.srcPort q] ∧
          fld q.w0 39 32 = stAccepted ∧ q.w1.toNat / 2 ^ 32 = id % 2 ^ 32 ∧ t'.crec id = some x ∧ x.op = 0x19 ∧
          t'.mgmt.nextCmd = id + 1 ∧ x.done = false ∧ x.target = fld r.arg0 9 0) ∧
      (asked 0x20 (maskOf 7 0) 0 (fun n => n == 32) → fld r.arg0 7 0 < 8 ∨ fld r.arg0 7 0 = 0xFF →
        ∃ t' q x, exec (.quote r) s = .next t' ∧ t'.out = s.out ++ [.mgmt r.src r.srcPort q] ∧
          fld q.w0 39 32 = stAccepted ∧ q.w1.toNat / 2 ^ 32 = id % 2 ^ 32 ∧ t'.crec id = some x ∧ x.op = 0x20 ∧
          t'.mgmt.nextCmd = id + 1 ∧ x.done = false ∧ x.part = fld r.arg0 7 0) ∧
      (asked 0x29 m64 0 noBody → 1 ≤ r.arg0.toNat → r.arg0.toNat ≤ 3 →
        ∃ t' q x, exec (.svnCommit r) s = .next t' ∧ t'.out = s.out ++ [.mgmt r.src r.srcPort q] ∧
          fld q.w0 39 32 = stAccepted ∧ q.w1.toNat / 2 ^ 32 = id % 2 ^ 32 ∧ t'.crec id = some x ∧ x.op = 0x29 ∧
          t'.mgmt.nextCmd = id + 1 ∧ x.done = false ∧ x.target = r.arg0.toNat) ∧
      (asked 0x2A 0 0 (fun n => n == 32) → ∃ t' q x, exec (.netSet r) s = .next t' ∧ t'.out = s.out ++ [.mgmt r.src r.srcPort q] ∧
          fld q.w0 39 32 = stAccepted ∧ q.w1.toNat / 2 ^ 32 = id % 2 ^ 32 ∧ t'.crec id = some x ∧ x.op = 0x2A ∧
          t'.mgmt.nextCmd = id + 1 ∧ x.done = false ∧ x.req = r) ∧
      (∀ b : Blob, asked 0x28 m64 (maskOf 15 0) noBody → 1 ≤ r.arg0.toNat → r.arg0.toNat ≤ 3 →
        s.mgmt.blobs.find (fld r.arg1 15 0) = some b → 3348 + leAt ((s.blobData (fld r.arg1 15 0)).take 64) 8 4 ≤ b.size →
        ∃ t' q x, exec (.fwUpload r) s = .next t' ∧ t'.out = s.out ++ [.mgmt r.src r.srcPort q] ∧
          fld q.w0 39 32 = stAccepted ∧ q.w1.toNat / 2 ^ 32 = id % 2 ^ 32 ∧ t'.crec id = some x ∧ x.op = 0x28 ∧
          t'.mgmt.nextCmd = id + 1 ∧ x.done = false ∧ x.req = r ∧ x.blobs = [fld r.arg1 15 0]) ∧
      (∀ a b : Blob, asked 0x10 (maskOf 32 32 ||| maskOf 2 0) (maskOf 31 0) noBody → s.phase = 4 → bitOf r.arg0 32 = false →
        s.mgmt.blobs.find (fld r.arg1 31 16) = some a → 2128 ≤ a.size → s.mgmt.blobs.find (fld r.arg1 15 0) = some b →
        (s.part p).st = .idle → s.rotState = 1 →
        let e := s.openEnv (s.blobData (fld r.arg1 31 16)) (s.blobData (fld r.arg1 15 0))
        s.envCheck p false e = none →
        ∃ t' q x, exec (.jobStart r) s = .next t' ∧ t'.out = s.out ++ [.mgmt r.src r.srcPort q] ∧
          fld q.w0 39 32 = stAccepted ∧ q.w1.toNat / 2 ^ 32 = id % 2 ^ 32 ∧ t'.crec id = some x ∧ x.op = 0x10 ∧
          t'.mgmt.nextCmd = id + 1 ∧ x.done = false ∧ (t'.part p).st = .placing ∧ (t'.part p).job = id ∧
          (t'.part p).env = e ∧ e.leaf ∈ t'.rot.usedLeaves)) ∧
    (s.phase = 5 → 1 ≤ r.arg0.toNat → r.arg0.toNat ≤ 3 →
      (asked 0x31 m64 m64 noBody → ∃ t' q x, exec (.recoverCommit r) s = .next t' ∧ t'.out = s.out ++ [.mgmt r.src r.srcPort q] ∧
          fld q.w0 39 32 = stAccepted ∧ q.w1.toNat / 2 ^ 32 = id % 2 ^ 32 ∧ t'.crec id = some x ∧ x.op = 0x31 ∧
          t'.mgmt.nextCmd = id + 1 ∧ x.done = false ∧ x.target = r.arg0.toNat) ∧
      (∀ i : Nat, asked 0x30 m64 m64 dataBody → s.recoverCopy r.arg0.toNat = some i → s.emmc.readable = true →
        let was := s.fwCopy r.arg0.toNat i
        let o := r.arg1.toNat
        ∃ t', exec (.recoverWrite r) s = .next t' ∧ t'.rot.recoverTo.find r.arg0.toNat = some i ∧
          (t'.fwCopy r.arg0.toNat i).length = max was.length (o + r.body.length) ∧
          (∀ j : Nat, j < r.body.length → (t'.fwCopy r.arg0.toNat i)[o + j]? = r.body[j]?) ∧
          ∀ j : Nat, j < was.length → j < o ∨ o + r.body.length ≤ j → (t'.fwCopy r.arg0.toNat i)[j]? = was[j]?)) ∧
    (asked 0x3E 0 0 noBody → s.phase ≠ 0 → ∃ t', exec (.powerOff r) s = .next t' ∧ t'.pins.powered = false ∧
      t'.pins.tripped = true ∧ t'.regs = [] ∧ t'.mem = [] ∧ t'.emmc = { s.emmc with writing := none })) ∧
  (∀ (s : State) (id : Nat) (rpmbOk : Bool),
    (s.crec id = none → exec (.longOperationComplete id rpmbOk) s = .next s) ∧
    (∀ x : CRec, s.crec id = some x → x.done = true ∨ s.opWaits id x = true → exec (.longOperationComplete id rpmbOk) s = .next s) ∧
    (∀ x : CRec, s.crec id = some x → x.done = false → s.opWaits id x = false → x.op ∈ [0x19, 0x20, 0x28, 0x29, 0x2A, 0x31] →
      ∃ t' y, exec (.longOperationComplete id rpmbOk) s = .next t' ∧ t'.crec id = some y ∧ y.done = true ∧ y.op = x.op ∧
        (x.op = 0x20 → s.rotState = 1 → 0 < s.rotLeft → s.rot.signed ≠ 1024 → s.mgmt.blobs.length < 64 → s.blobBytes + 10564 ≤ 2 ^ 35 →
          y.result = 0 ∧ y.outLen = 10564 ∧ (s.rot.signed, x.part) ∈ t'.rot.quotes ∧ t'.rotLeft = s.rotLeft - 1 ∧
          ∃ b : Blob, t'.mgmt.blobs.find y.outBlob = some b ∧ b.size = 10564 ∧ b.madeBy = id) ∧
        (x.op = 0x2A → s.emmc.readable = true → t'.netBytes = x.req.body ∧ y.result = 0) ∧
        (x.op = 0x29 → s.emmc.readable = true → rpmbOk = true → s.emmc.rpmbKey = s.derive labRpmb 32 →
          t'.emmc.minSvn.val 0 x.target = max (s.emmc.minSvn.val 0 x.target) (fwSvn (s.rot.running.val [] x.target)) ∧ y.result = 0) ∧
        (x.op = 0x28 → s.emmc.readable = true →
          let img := s.blobData (fld x.req.arg1 15 0)
          let why := s.fwReason x.target img
          y.result = (if why.isSome then 1 else 0) ∧ y.reason = why.getD 0 ∧
            t'.fwCopy x.target (1 - s.rot.runCopy.val 0 x.target) =
              if why.isSome then s.fwCopy x.target (1 - s.rot.runCopy.val 0 x.target) else img) ∧
        (x.op = 0x19 → s.tilePresent x.target = true → (s.posOf x.target).isSome = true →
          t'.rb dieMerA (repLostOff (x.target / 96)) (x.target % 96 / 8) = true ∧ y.result = 0)))
end

