-- ==== Sys2Proof/Laws/Crypto.lean ====
section
/-! SUPPORT. Lengths and inverses of the ciphers; what an envelope sealed for the device opens to. -/

namespace Sys2Proof.Machine

@[simp] theorem xorBytes_length (a b : List Byte) : (xorBytes a b).length = min a.length b.length := by
  simp [xorBytes]

/-- A stream at least as long as the text, applied twice, gives the text back. -/
theorem xorBytes_twice : ∀ (a k : List Byte), a.length ≤ k.length → xorBytes (xorBytes a k) k = a
  | [], _, _ => by simp [xorBytes]
  | _ :: _, [], h => by simp at h
  | x :: a, y :: k, h => by
    have ih := xorBytes_twice a k (by simpa using h)
    simp only [xorBytes, List.zipWith_cons_cons] at ih ⊢
    rw [ih, BitVec.xor_assoc, BitVec.xor_self, BitVec.xor_zero]

theorem groupsOf_length {α : Type} (k : Nat) : ∀ (n : Nat) (l : List α), (groupsOf k n l).length = n
  | 0, _ => rfl
  | n + 1, l => by simp [groupsOf, groupsOf_length k n]

/-- The groups of a list that is long enough are all full. -/
theorem groupsOf_full {α : Type} (k : Nat) : ∀ (n : Nat) (l : List α), k * n ≤ l.length → ∀ g ∈ groupsOf k n l, g.length = k
  | 0, _, _ => by simp [groupsOf]
  | n + 1, l, h => by
    have : k * (n + 1) = k * n + k := Nat.mul_succ k n
    intro g hg
    rcases List.mem_cons.mp hg with rfl | hg
    · simp; omega
    · exact groupsOf_full k n (l.drop k) (by simp; omega) g hg

theorem getD_mem_of_lt {α : Type} {l : List α} {i : Nat} (h : i < l.length) {d : α} : l.getD i d = l[i] := by
  simp [List.getD, h]

/-- Words of four bytes, at least eight of them. -/
def FourByte (ws : List (List Byte)) : Prop := 8 ≤ ws.length ∧ ∀ w ∈ ws, w.length = 4

theorem FourByte.getD {ws : List (List Byte)} (h : FourByte ws) (i : Nat) (hi : i < 8) : (ws.getD i []).length = 4 := by
  rw [getD_mem_of_lt (Nat.lt_of_lt_of_le hi h.1)]
  exact h.2 _ (List.getElem_mem _)

theorem FourByte.fold (f : List (List Byte) → Nat → List Byte) (hf : ∀ ws i, FourByte ws → (f ws i).length = 4) :
    ∀ (is : List Nat) (ws : List (List Byte)), FourByte ws →
      FourByte (is.foldl (fun ws i => f ws i :: ws) ws) ∧ (is.foldl (fun ws i => f ws i :: ws) ws).length = ws.length + is.length
  | [], ws, h => ⟨h, rfl⟩
  | i :: is, ws, h => by
    have h' : FourByte (f ws i :: ws) := ⟨by have := h.1; simp; omega, by
      intro w hw; rcases List.mem_cons.mp hw with rfl | hw
      · exact hf ws i h
      · exact h.2 w hw⟩
    have r := FourByte.fold f hf is _ h'
    refine ⟨r.1, r.2.trans ?_⟩
    simp; omega

theorem flatten_four : ∀ ws : List (List Byte), (∀ w ∈ ws, w.length = 4) → ws.flatten.length = 4 * ws.length
  | [], _ => rfl
  | w :: ws, h => by
    have := flatten_four ws fun x hx => h x (List.mem_cons_of_mem _ hx)
    simp [h w (List.mem_cons_self ..), this]; omega

theorem fixLen_length (n : Nat) (bs : List Byte) : (fixLen n bs).length = n := by simp [fixLen]

/-- There are fifteen round keys of sixteen bytes. -/
theorem aesKeys_full (key : List Byte) : (aesKeys key).length = 15 ∧ ∀ k ∈ aesKeys key, k.length = 16 := by
  unfold aesKeys
  extract_lets sub rcon step
  refine ⟨groupsOf_length .., groupsOf_full _ _ _ ?_⟩
  have start : FourByte (groupsOf 4 8 (fixLen 32 key)).reverse :=
    ⟨by simp [groupsOf_length], fun w hw => groupsOf_full 4 8 _ (by simp [fixLen_length]) w (List.mem_reverse.mp hw)⟩
  have r := FourByte.fold (fun ws i => (step ws i).headD []) (fun ws i h => by
    have h0 := h.getD 0 (by omega)
    have h7 := h.getD 7 (by omega)
    simp only [step, List.headD_cons, xorBytes_length, h7]
    split
    · simp only [xorBytes_length, sub, List.length_map, List.length_append, List.length_drop, List.length_take, h0]; rfl
    · split
      · simp only [sub, List.length_map, h0]; rfl
      · simp only [h0]; rfl) ((List.range 52).map (· + 8)) _ start
  have e : step = fun ws i => (step ws i).headD [] :: ws := by funext ws i; rfl
  rw [e]
  rw [flatten_four _ fun w hw => r.1.2 w (List.mem_reverse.mp hw), List.length_reverse, r.2]
  simp [groupsOf_length]

/-- A block enciphered is sixteen bytes. -/
theorem aesWith_length (key b : List Byte) : (aesWith (aesKeys key) b).length = 16 := by
  obtain ⟨h15, h16⟩ := aesKeys_full key
  unfold aesWith
  match h : aesKeys key with
  | [] => simp [h] at h15
  | k0 :: r =>
    rw [h] at h15 h16
    have hr : r.length = 14 := by simpa using h15
    have h13 : (r.getD 13 []).length = 16 := by
      rw [getD_mem_of_lt (by omega)]
      exact h16 _ (List.mem_cons_of_mem _ (List.getElem_mem _))
    show (xorBytes (shiftRows _) (r.getD 13 [])).length = 16
    rw [xorBytes_length, h13]
    simp [shiftRows]

theorem gcmStream_length (key iv : List Byte) (n : Nat) :
    ((List.range n).flatMap fun i => aesWith (aesKeys key) (iv ++ beBytes 4 (i + 2))).length = 16 * n := by
  induction n with
  | zero => rfl
  | succ n ih => rw [List.range_succ, List.flatMap_append, List.length_append, ih]; simp [aesWith_length]; omega

@[simp] theorem gcmCtr_length (key iv bs : List Byte) : (gcmCtr key iv bs).length = bs.length := by
  simp only [gcmCtr, xorBytes_length, gcmStream_length]; omega

/-- GCM's counter mode is its own inverse. -/
theorem gcmCtr_twice (key iv bs : List Byte) : gcmCtr key iv (gcmCtr key iv bs) = bs := by
  have h : (xorBytes bs ((List.range ((bs.length + 15) / 16)).flatMap fun i =>
      aesWith (aesKeys key) (iv ++ beBytes 4 (i + 2)))).length = bs.length := by
    simp only [xorBytes_length, gcmStream_length]; omega
  simp only [gcmCtr, h]
  exact xorBytes_twice _ _ (by rw [gcmStream_length]; omega)

@[simp] theorem leBytes_length : ∀ n v : Nat, (leBytes n v).length = n
  | 0, _ => rfl
  | n + 1, v => by simp [leBytes, leBytes_length n]

@[simp] theorem gcmTag_length (key iv aad ct : List Byte) : (gcmTag key iv aad ct).length = 16 := by
  simp [gcmTag, aesWith_length, beBytes]

/-! A blob written whole. -/

/-- Bytes at the indices from `k` on. -/
def bytesFrom : Nat → List Byte → Tab Byte
  | _, [] => []
  | k, b :: r => (k, b) :: bytesFrom (k + 1) r

theorem bytesFrom_val (d : Byte) : ∀ (bs : List Byte) (k j : Nat) (h : j < bs.length),
    (bytesFrom k bs).val d (k + j) = bs[j]
  | b :: r, k, 0, _ => by simp [bytesFrom, Tab.val]
  | b :: r, k, j + 1, h => by
    have hj : j < r.length := by simpa using h
    have ih := bytesFrom_val d r (k + 1) j hj
    rw [show k + (j + 1) = k + 1 + j by omega]
    simp only [bytesFrom, Tab.val]
    rw [if_neg (by omega), ih]
    rfl

/-- A blob written whole reads as what was written. -/
theorem read_written (bs : List Byte) (x : Blob) (h : x.bytes = bytesFrom 0 bs) : x.read 0 bs.length = bs := by
  apply List.ext_getElem
  · simp [Blob.read]
  · intro i h1 h2
    have := bytesFrom_val (Config.freeByte (x.salt + 0 + i)) bs 0 i h2
    simp only [Blob.read, List.getElem_map, List.getElem_range, h]
    simpa using this

/-! An envelope sealed for the device. -/

/-- Header `h` and the body sealed under the key that the header's ciphertext gives the device. -/
def State.sealEnv (s : State) (h body : List Byte) : List Byte :=
  let k := s.envKey h
  let iv := List.replicate 12 0
  h ++ (gcmCtr k iv body ++ gcmTag k iv h (gcmCtr k iv body))

/-- What the header and the plain body say of it. -/
def plainEnv (h body : List Byte) : Envelope :=
  { kind := leAt h 4 4, devId := BitVec.ofNat 64 (leAt h 8 8), boot := leAt h 0x10 4, leaf := leAt h 0x14 4, part := leAt h 0x18 1,
    tagOk := leAt h 0 4 == 1,
    reservedOk := leAt h 0x19 7 == 0 && leAt body 0 4 / 4 == 0 && leAt body 4 4 == 0 && leAt body 0x188 120 == 0 }

theorem leAt_append (a b : List Byte) (i n : Nat) (h : i + n ≤ a.length) : leAt (a ++ b) i n = leAt a i n := by
  unfold leAt
  rw [List.drop_append_of_le_length (by omega), List.take_append_of_le_length (by simp; omega)]

theorem sealEnv_length (s : State) (h body : List Byte) : (s.sealEnv h body).length = h.length + body.length + 16 := by
  simp [State.sealEnv]; omega

/-- The checks of a primary job's envelope look at what its header and its plain body say, where it was sealed for the device. -/
theorem envCheck_sealed (s : State) (p : Nat) (h body img : List Byte) (hh : h.length = 0x640) (hb : body.length = 512) :
    s.envCheck p false (s.openEnv (s.sealEnv h body) img) = s.envCheck p false (plainEnv h body) := by
  have key : s.envKey (s.sealEnv h body) = s.envKey h := by
    simp only [State.envKey, State.sealEnv]
    rw [List.drop_append_of_le_length (by omega), List.take_append_of_le_length (by simp; omega),
      List.take_append_of_le_length (by omega)]
  have ct : ((s.sealEnv h body).drop 0x640).take 512 = gcmCtr (s.envKey h) (List.replicate 12 0) body := by
    simp only [State.sealEnv]
    rw [← hh, List.drop_left, List.take_append_of_le_length (by simp [hb])]
    exact List.take_of_length_le (by simp [hb])
  have hd : (s.sealEnv h body).take 0x640 = h := by
    simp only [State.sealEnv]
    rw [← hh, List.take_left]
  have tag : ((s.sealEnv h body).drop 0x840).take 16
      = gcmTag (s.envKey h) (List.replicate 12 0) h (gcmCtr (s.envKey h) (List.replicate 12 0) body) := by
    simp only [State.sealEnv]
    rw [show 0x840 = h.length + (gcmCtr (s.envKey h) (List.replicate 12 0) body).length by simp [hh, hb],
      ← List.drop_drop, List.drop_left, List.drop_left]
    exact List.take_of_length_le (by simp)
  have at_ : ∀ i n, i + n ≤ 0x640 → leAt (s.sealEnv h body) i n = leAt h i n := fun i n hi =>
    leAt_append _ _ _ _ (by omega)
  simp only [State.envCheck, State.openEnv, plainEnv, key, ct, hd, tag, gcmCtr_twice, at_ 4 4 (by omega), at_ 8 8 (by omega),
    at_ 0x10 4 (by omega), at_ 0x14 4 (by omega), at_ 0x18 1 (by omega), at_ 0 4 (by omega), at_ 0x19 7 (by omega), beq_self_eq_true,
    Bool.and_true, Bool.false_and, Bool.false_eq_true, if_false]
  rfl

/-- An envelope sealed for the device, standing whole in a blob, passes the checks that its header and its plain body pass. -/
theorem envCheck_blob {s : State} {m : Mgmt} {p i k : Nat} {h body : List Byte} {x : Blob} (hx : m.blobs.find i = some x)
    (hz : x.size = h.length + body.length + 16) (hy : x.bytes = bytesFrom 0 (s.sealEnv h body)) (hh : h.length = 0x640)
    (hb : body.length = 512) (c : s.envCheck p false (plainEnv h body) = none) :
    ({ s with mgmt := m } : State).envCheck p false
      (({ s with mgmt := m } : State).openEnv (({ s with mgmt := m } : State).blobData i) (({ s with mgmt := m } : State).blobData k)) = none := by
  have e : ({ s with mgmt := m } : State).blobData i = ({ s with mgmt := m } : State).sealEnv h body := by
    simp only [State.blobData, hx]
    rw [hz, ← sealEnv_length s h body]
    exact read_written _ _ hy
  rw [e, envCheck_sealed _ _ _ _ _ hh hb]
  exact c

end Sys2Proof.Machine
end

