-- ==== Sys2Proof/Laws/Mem.lean ====
section
/-! SUPPORT. Laws of the memory: reading after writing, and the canonical form that every memory operation keeps. -/
namespace Sys2Proof.Machine

/-- Below its first key a memory reads zero. -/
theorem Mem.read_below (m : List Host.Cell) (l a : Nat) (h : a ≤ l) (w : Mem.wfFrom (some l) m = true) : Mem.read m a = 0 := by
  induction m generalizing l with
  | nil => rfl
  | cons e r ih =>
    obtain ⟨k, v⟩ := e
    simp only [Mem.wfFrom, Bool.and_eq_true, decide_eq_true_eq] at w
    have : k ≠ a := by omega
    simp only [Mem.read, this, if_false]
    exact ih k (by omega) w.2

theorem Mem.read_write_sameFrom (m : List Host.Cell) (lo : Option Nat) (a : Nat) (b : Byte) (w : Mem.wfFrom lo m = true) :
    Mem.read (Mem.write m a b) a = b := by
  induction m generalizing lo with
  | nil => simp only [Mem.write]; split <;> simp_all [Mem.read]
  | cons e r ih =>
    obtain ⟨k, v⟩ := e
    simp only [Mem.wfFrom, Bool.and_eq_true] at w
    simp only [Mem.write]
    split
    · have : k ≠ a := by omega
      simp only [Mem.read, this, if_false]
      exact ih _ w.2
    · split
      · split
        · next hb => rw [Mem.read_below r k a (by omega) w.2, hb]
        · simp [Mem.read]
      · split
        · next hb =>
          have : k ≠ a := by assumption
          simp only [Mem.read, this, if_false]
          rw [Mem.read_below r k a (by omega) w.2, hb]
        · simp [Mem.read]

/-- The byte written is the byte read. -/
theorem Mem.read_write_same (m : List Host.Cell) (a : Nat) (b : Byte) (w : Mem.wf m = true) :
    Mem.read (Mem.write m a b) a = b := Mem.read_write_sameFrom m none a b w

theorem Mem.read_write_otherFrom (m : List Host.Cell) (lo : Option Nat) (a c : Nat) (b : Byte) (h : c ≠ a)
    (w : Mem.wfFrom lo m = true) : Mem.read (Mem.write m a b) c = Mem.read m c := by
  induction m generalizing lo with
  | nil => simp only [Mem.write]; split <;> simp [Mem.read, Ne.symm h]
  | cons e r ih =>
    obtain ⟨k, v⟩ := e
    simp only [Mem.wfFrom, Bool.and_eq_true] at w
    simp only [Mem.write]
    split
    · simp only [Mem.read, ih _ w.2]
    · split
      · next hk =>
        subst hk
        split
        · simp [Mem.read, Ne.symm h]
        · simp [Mem.read, Ne.symm h]
      · split <;> simp [Mem.read, Ne.symm h]

/-- Every other byte reads as before. -/
theorem Mem.read_write_other (m : List Host.Cell) (a c : Nat) (b : Byte) (h : c ≠ a) (w : Mem.wf m = true) :
    Mem.read (Mem.write m a b) c = Mem.read m c := Mem.read_write_otherFrom m none a c b h w

/-! The canonical form. -/

theorem Mem.wfFrom_weaken (m : List Host.Cell) (lo hi : Nat) (h : lo ≤ hi) (w : Mem.wfFrom (some hi) m = true) :
    Mem.wfFrom (some lo) m = true := by
  cases m with
  | nil => rfl
  | cons e r =>
    simp only [Mem.wfFrom, Bool.and_eq_true, decide_eq_true_eq] at w ⊢
    exact ⟨⟨by omega, w.1.2⟩, w.2⟩

theorem Mem.wfFrom_none (m : List Host.Cell) (lo : Option Nat) (w : Mem.wfFrom lo m = true) : Mem.wfFrom none m = true := by
  cases m with
  | nil => rfl
  | cons e r =>
    simp only [Mem.wfFrom, Bool.and_eq_true] at w ⊢
    exact ⟨⟨trivial, w.1.2⟩, w.2⟩

theorem Mem.wfFrom_lower (m : List Host.Cell) (lo : Option Nat) (k : Nat) (h : ∀ l, lo = some l → l ≤ k)
    (w : Mem.wfFrom (some k) m = true) : Mem.wfFrom lo m = true := by
  cases lo with
  | none => exact Mem.wfFrom_none m _ w
  | some l => exact Mem.wfFrom_weaken m l k (h l rfl) w

theorem Mem.write_wfFrom (m : List Host.Cell) (lo : Option Nat) (a : Nat) (b : Byte) (h : ∀ l, lo = some l → l < a)
    (w : Mem.wfFrom lo m = true) : Mem.wfFrom lo (Mem.write m a b) = true := by
  induction m generalizing lo with
  | nil =>
    simp only [Mem.write]
    split
    · rfl
    · next hb =>
      simp only [Mem.wfFrom, Bool.and_true, Bool.and_eq_true, decide_eq_true_eq]
      refine ⟨?_, hb⟩
      cases lo with
      | none => trivial
      | some l => exact decide_eq_true (h l rfl)
  | cons e r ih =>
    obtain ⟨k, v⟩ := e
    simp only [Mem.wfFrom, Bool.and_eq_true] at w
    simp only [Mem.write]
    split
    · simp only [Mem.wfFrom, Bool.and_eq_true]
      exact ⟨w.1, ih (some k) (fun l hl => by cases hl; assumption) w.2⟩
    · split
      · next hk =>
        split
        · refine Mem.wfFrom_lower r lo k (fun l hl => ?_) w.2
          have := h l hl; omega
        · next hb =>
          simp only [Mem.wfFrom, Bool.and_eq_true, decide_eq_true_eq]
          refine ⟨⟨?_, hb⟩, hk ▸ w.2⟩
          cases lo with
          | none => trivial
          | some l => exact decide_eq_true (h l rfl)
      · split
        · simp only [Mem.wfFrom, Bool.and_eq_true]; exact w
        · next hb =>
          simp only [Mem.wfFrom, Bool.and_eq_true, decide_eq_true_eq]
          refine ⟨⟨?_, hb⟩, ⟨by omega, of_decide_eq_true w.1.2⟩, w.2⟩
          cases lo with
          | none => trivial
          | some l => exact decide_eq_true (h l rfl)

/-- Storing a byte keeps the canonical form. -/
theorem Mem.write_wf (m : List Host.Cell) (a : Nat) (b : Byte) (w : Mem.wf m = true) : Mem.wf (Mem.write m a b) = true :=
  Mem.write_wfFrom m none a b (fun _ h => by cases h) w

/-- Storing bytes keeps the canonical form. -/
theorem Mem.writeN_wf (m : List Host.Cell) (a : Nat) (bs : List Byte) (w : Mem.wf m = true) :
    Mem.wf (Mem.writeN m a bs) = true := by
  induction bs generalizing m a with
  | nil => exact w
  | cons b r ih => exact ih _ _ (Mem.write_wf m a b w)

/-- Bytes outside those stored read as before. -/
theorem Mem.read_writeN_other (m : List Host.Cell) (a c : Nat) (bs : List Byte) (h : c < a ∨ a + bs.length ≤ c)
    (w : Mem.wf m = true) : Mem.read (Mem.writeN m a bs) c = Mem.read m c := by
  induction bs generalizing m a with
  | nil => rfl
  | cons b r ih =>
    simp only [List.length_cons] at h
    rw [Mem.writeN, ih _ _ (by omega) (Mem.write_wf m a b w), Mem.read_write_other m a c b (by omega) w]

theorem Mem.filter_wfFrom (m : List Host.Cell) (lo : Option Nat) (p : Host.Cell → Bool) (w : Mem.wfFrom lo m = true) :
    Mem.wfFrom lo (m.filter p) = true := by
  induction m generalizing lo with
  | nil => rfl
  | cons e r ih =>
    obtain ⟨k, v⟩ := e
    simp only [Mem.wfFrom, Bool.and_eq_true] at w
    simp only [List.filter_cons]
    split
    · simp only [Mem.wfFrom, Bool.and_eq_true]; exact ⟨w.1, ih _ w.2⟩
    · refine Mem.wfFrom_lower _ lo k (fun l hl => ?_) (ih _ w.2)
      subst hl
      exact Nat.le_of_lt (of_decide_eq_true w.1.1)

/-- Dropping listed bytes keeps the canonical form. -/
theorem Mem.filter_wf (m : List Host.Cell) (p : Host.Cell → Bool) (w : Mem.wf m = true) : Mem.wf (m.filter p) = true :=
  Mem.filter_wfFrom m none p w

end Sys2Proof.Machine
end

