-- ==== Sys2Proof/Laws/Tab.lean ====
section
/-! SUPPORT. Laws of sparse tables: reading after writing, and the canonical form. -/
namespace Sys2Proof

theorem Tab.val_put_same {α : Type} (t : Tab α) (d : α) (k : Nat) (v : α) : (t.put k v).val d k = v := by
  induction t with
  | nil => simp [Tab.put, Tab.val]
  | cons e r ih =>
    obtain ⟨k', v'⟩ := e
    simp only [Tab.put]
    split
    · have : k' ≠ k := by omega
      simp [Tab.val, this, ih]
    · split <;> simp [Tab.val]

theorem Tab.val_put_other {α : Type} (t : Tab α) (d : α) (k j : Nat) (v : α) (h : j ≠ k) :
    (t.put k v).val d j = t.val d j := by
  induction t with
  | nil => simp [Tab.put, Tab.val, Ne.symm h]
  | cons e r ih =>
    obtain ⟨k', v'⟩ := e
    simp only [Tab.put]
    split
    · simp [Tab.val, ih]
    · split
      · next hk => simp [Tab.val, hk, Ne.symm h]
      · simp [Tab.val, Ne.symm h]

theorem Tab.find_put_same {α : Type} (t : Tab α) (k : Nat) (v : α) : (t.put k v).find k = some v := by
  induction t with
  | nil => simp [Tab.put, Tab.find]
  | cons e r ih =>
    obtain ⟨k', v'⟩ := e
    simp only [Tab.put]
    split
    · have : k' ≠ k := by omega
      simp [Tab.find, this, ih]
    · split <;> simp [Tab.find]

theorem Tab.find_put_other {α : Type} (t : Tab α) (k j : Nat) (v : α) (h : j ≠ k) : (t.put k v).find j = t.find j := by
  induction t with
  | nil => simp [Tab.put, Tab.find, Ne.symm h]
  | cons e r ih =>
    obtain ⟨k', v'⟩ := e
    simp only [Tab.put]
    split
    · simp [Tab.find, ih]
    · split
      · next hk => simp [Tab.find, hk, Ne.symm h]
      · simp [Tab.find, Ne.symm h]

theorem Tab.put_put {α : Type} (t : Tab α) (k : Nat) (v w : α) : (t.put k v).put k w = t.put k w := by
  induction t with
  | nil => simp [Tab.put]
  | cons e r ih =>
    obtain ⟨k', v'⟩ := e
    simp only [Tab.put]
    split
    · next h => simp [Tab.put, h, ih]
    · split <;> simp [Tab.put]

/-! The canonical form. -/

theorem Tab.wfFrom_weaken {α : Type} (t : Tab α) (lo hi : Nat) (h : lo ≤ hi) (w : Tab.wfFrom (some hi) t = true) :
    Tab.wfFrom (some lo) t = true := by
  cases t with
  | nil => rfl
  | cons e r =>
    simp only [Tab.wfFrom, Bool.and_eq_true, decide_eq_true_eq] at w ⊢
    exact ⟨by omega, w.2⟩

theorem Tab.wfFrom_none {α : Type} (t : Tab α) (lo : Option Nat) (w : Tab.wfFrom lo t = true) : Tab.wfFrom none t = true := by
  cases t with
  | nil => rfl
  | cons e r =>
    simp only [Tab.wfFrom, Bool.and_eq_true] at w ⊢
    exact ⟨trivial, w.2⟩

theorem Tab.put_wfFrom {α : Type} (t : Tab α) (lo : Option Nat) (k : Nat) (v : α) (h : ∀ l, lo = some l → l < k)
    (w : Tab.wfFrom lo t = true) : Tab.wfFrom lo (t.put k v) = true := by
  induction t generalizing lo with
  | nil =>
    cases lo with
    | none => rfl
    | some l => simp [Tab.put, Tab.wfFrom, h l rfl]
  | cons e r ih =>
    obtain ⟨k', v'⟩ := e
    simp only [Tab.wfFrom, Bool.and_eq_true] at w
    simp only [Tab.put]
    split
    · simp only [Tab.wfFrom, Bool.and_eq_true]
      exact ⟨w.1, ih (some k') (fun l hl => by cases hl; assumption) w.2⟩
    · split
      · next hk => subst hk; simp only [Tab.wfFrom, Bool.and_eq_true]; exact w
      · simp only [Tab.wfFrom, Bool.and_eq_true, decide_eq_true_eq]
        refine ⟨?_, by omega, w.2⟩
        cases lo with
        | none => trivial
        | some l => exact decide_eq_true (h l rfl)

/-- Setting an entry keeps a table canonical. -/
theorem Tab.put_wf {α : Type} (t : Tab α) (k : Nat) (v : α) (w : Tab.wf t = true) : Tab.wf (t.put k v) = true :=
  Tab.put_wfFrom t none k v (fun _ h => by cases h) w

theorem Tab.filter_wfFrom {α : Type} (t : Tab α) (lo : Option Nat) (p : Nat × α → Bool) (w : Tab.wfFrom lo t = true) :
    Tab.wfFrom lo (t.filter p) = true := by
  induction t generalizing lo with
  | nil => rfl
  | cons e r ih =>
    obtain ⟨k, v⟩ := e
    simp only [Tab.wfFrom, Bool.and_eq_true] at w
    simp only [List.filter_cons]
    split
    · simp only [Tab.wfFrom, Bool.and_eq_true]; exact ⟨w.1, ih _ w.2⟩
    · have := ih _ w.2
      cases lo with
      | none => exact Tab.wfFrom_none _ _ this
      | some l => exact Tab.wfFrom_weaken _ l k (by simpa using Nat.le_of_lt (of_decide_eq_true w.1)) this

/-- Dropping entries keeps a table canonical. -/
theorem Tab.filter_wf {α : Type} (t : Tab α) (p : Nat × α → Bool) (w : Tab.wf t = true) : Tab.wf (t.filter p) = true :=
  Tab.filter_wfFrom t none p w

end Sys2Proof
end

