-- ==== Sys2Proof/Laws/Keeps.lean ====
section
/-! SUPPORT. What no command changes: the waiting queue it is run with, what is fixed with the part, and the canonical form of
memory and register space. `Keeps c s` says it of a state `s` against a state `c`; every operation of the model keeps it. -/
namespace Sys2Proof.Machine

/-- State `s` has the queue and the part of `c`, and its memory and register space are canonical. -/
structure Keeps (c s : State) : Prop where
  pending : s.pending = c.pending
  variant : s.variant = c.variant
  romKey : s.romKey = c.romKey
  guestId : s.guestId = c.guestId
  caps : s.caps = c.caps
  regs : Tab.wf s.regs = true
  mem : Mem.wf s.mem = true

/-- An outcome keeps it if its next state does. -/
def KeepsO (c : State) (o : Host.Outcome State Fault Refusal) : Prop := ∀ t, o = .next t → Keeps c t

/-- What an instruction's own effect gives keeps it. -/
def KeepsT (c : State) : TRes → Prop
  | .done s => Keeps c s
  | .goto s _ => Keeps c s
  | .trap _ _ => True
  | .wait s _ => Keeps c s
  | .gone s => Keeps c s

theorem keepsO_next (c s : State) : KeepsO c (.next s) = Keeps c s :=
  propext ⟨fun h => h s rfl, fun h _ e => by cases e; exact h⟩
theorem keepsO_fault (c : State) (f : Fault) : KeepsO c (.fault f) = True :=
  propext ⟨fun _ => trivial, fun _ _ e => by cases e⟩
theorem keepsO_refused (c : State) (f : Refusal) : KeepsO c (.refused f) = True :=
  propext ⟨fun _ => trivial, fun _ _ e => by cases e⟩
theorem keepsT_done (c s : State) : KeepsT c (.done s) = Keeps c s := rfl
theorem keepsT_goto (c s : State) (pc : BitVec 48) : KeepsT c (.goto s pc) = Keeps c s := rfl
theorem keepsT_trap (c : State) (k : Cause) (v : Word) : KeepsT c (.trap k v) = True := rfl
theorem keepsT_wait (c s : State) (n : Nat) : KeepsT c (.wait s n) = Keeps c s := rfl
theorem keepsT_gone (c s : State) : KeepsT c (.gone s) = Keeps c s := rfl

theorem keepsO_ite {c : State} {p : Prop} [Decidable p] {a b : Host.Outcome State Fault Refusal}
    (h : p → KeepsO c a) (k : ¬p → KeepsO c b) : KeepsO c (if p then a else b) := by split <;> simp_all
theorem keepsT_ite {c : State} {p : Prop} [Decidable p] {a b : TRes}
    (h : p → KeepsT c a) (k : ¬p → KeepsT c b) : KeepsT c (if p then a else b) := by split <;> simp_all
theorem keeps_ite {c : State} {p : Prop} [Decidable p] {a b : State}
    (h : p → Keeps c a) (k : ¬p → Keeps c b) : Keeps c (if p then a else b) := by split <;> simp_all

theorem keeps_foldl {c : State} {α : Type} {f : State → α → State} {l : List α} {s : State}
    (k : ∀ s a, Keeps c s → Keeps c (f s a)) (h : Keeps c s) : Keeps c (l.foldl f s) := by
  induction l generalizing s with
  | nil => exact h
  | cons a r ih => exact ih (k s a h)

/-- A part of what a fold carries. -/
theorem keeps_foldl_part {c : State} {α β : Type} (π : β → State) {f : β → α → β} {l : List α} {b : β}
    (k : ∀ b a, Keeps c (π b) → Keeps c (π (f b a))) (h : Keeps c (π b)) : Keeps c (π (l.foldl f b)) := by
  induction l generalizing b with
  | nil => exact h
  | cons a r ih => exact ih (k b a h)

/-! A state taken from a pair by its equation. -/

theorem keeps_fst {c s : State} {α : Type} {a : α} {p : State × α} (e : p = (s, a)) (h : Keeps c p.1) : Keeps c s := by
  rw [e] at h; exact h
theorem keeps_snd {c s : State} {α : Type} {a : α} {p : α × State} (e : p = (a, s)) (h : Keeps c p.2) : Keeps c s := by
  rw [e] at h; exact h
theorem keeps_fstIf {c : State} {α : Type} {q : Prop} [Decidable q] {a b : State × α} (h : Keeps c a.1) (k : Keeps c b.1) :
    Keeps c (if q then a else b).1 := by split <;> assumption

/-! A fold that carries a state beside other things. -/
theorem keeps_fold1 {c : State} {α β : Type} {f : State × β → α → State × β} {l : List α} {b : State × β}
    (k : ∀ b a, Keeps c b.1 → Keeps c (f b a).1) (h : Keeps c b.1) : Keeps c (l.foldl f b).1 :=
  keeps_foldl_part (fun b : State × β => b.1) k h
theorem keeps_fold2 {c : State} {α β : Type} {f : β × State → α → β × State} {l : List α} {b : β × State}
    (k : ∀ b a, Keeps c b.2 → Keeps c (f b a).2) (h : Keeps c b.2) : Keeps c (l.foldl f b).2 :=
  keeps_foldl_part (fun b : β × State => b.2) k h
theorem keeps_fold21 {c : State} {α β γ : Type} {f : β × State × γ → α → β × State × γ} {l : List α} {b : β × State × γ}
    (k : ∀ b a, Keeps c b.2.1 → Keeps c (f b a).2.1) (h : Keeps c b.2.1) : Keeps c (l.foldl f b).2.1 :=
  keeps_foldl_part (fun b : β × State × γ => b.2.1) k h
theorem keeps_fold22 {c : State} {α β γ : Type} {f : β × γ × State → α → β × γ × State} {l : List α} {b : β × γ × State}
    (k : ∀ b a, Keeps c b.2.2 → Keeps c (f b a).2.2) (h : Keeps c b.2.2) : Keeps c (l.foldl f b).2.2 :=
  keeps_foldl_part (fun b : β × γ × State => b.2.2) k h
theorem keeps_fold221 {c : State} {α β γ δ : Type} {f : β × γ × State × δ → α → β × γ × State × δ} {l : List α} {b : β × γ × State × δ}
    (k : ∀ b a, Keeps c b.2.2.1 → Keeps c (f b a).2.2.1) (h : Keeps c b.2.2.1) : Keeps c (l.foldl f b).2.2.1 :=
  keeps_foldl_part (fun b : β × γ × State × δ => b.2.2.1) k h
theorem keeps_fold222 {c : State} {α β γ δ : Type} {f : β × γ × δ × State → α → β × γ × δ × State} {l : List α} {b : β × γ × δ × State}
    (k : ∀ b a, Keeps c b.2.2.2 → Keeps c (f b a).2.2.2) (h : Keeps c b.2.2.2) : Keeps c (l.foldl f b).2.2.2 :=
  keeps_foldl_part (fun b : β × γ × δ × State => b.2.2.2) k h
theorem keeps_fold2222 {c : State} {α β γ δ ε : Type} {f : β × γ × δ × ε × State → α → β × γ × δ × ε × State} {l : List α} {b : β × γ × δ × ε × State}
    (k : ∀ b a, Keeps c b.2.2.2.2 → Keeps c (f b a).2.2.2.2) (h : Keeps c b.2.2.2.2) : Keeps c (l.foldl f b).2.2.2.2 :=
  keeps_foldl_part (fun b : β × γ × δ × ε × State => b.2.2.2.2) k h
theorem keeps_fold2221 {c : State} {α β γ δ ε : Type} {f : β × γ × δ × State × ε → α → β × γ × δ × State × ε} {l : List α} {b : β × γ × δ × State × ε}
    (k : ∀ b a, Keeps c b.2.2.2.1 → Keeps c (f b a).2.2.2.1) (h : Keeps c b.2.2.2.1) : Keeps c (l.foldl f b).2.2.2.1 :=
  keeps_foldl_part (fun b : β × γ × δ × State × ε => b.2.2.2.1) k h

/-- A change of other fields alone. -/
theorem keeps_upd (c s : State)
    (cwKey : Tab Nat) (cwErr : Tab Nat) (spErr : Tab Nat) (tiles : Tab Tile) (tags : List (Nat × Nat))
    (msgs : List ChMsg) (handles : Tab SlEnd) (flights : List SlFlight) (slCredits : List SlCredit)
    (linkCredits : Tab (List SlCredit)) (groups : Tab AlGroup) (blockReports : List (Nat × Nat))
    (rings : List FilRing) (colls : Tab Coll) (gsteps : List GStep) (rxSeq : Nat) (exch : Tab ExState)
    (streams : Tab Stream) (samples : List Sample) (mdl : Mandoline) (links : Tab Link) (unitIn : List LkCell)
    (cross : Tab Crossing) (remaps : Tab Nat) (regOwed : Tab (Nat × Nat)) (lineUp : List (Nat × Nat)) (d2dKeep : List Nat)
    (fwHeld : List (Nat × Nat × Word)) (positions : Tab Nat) (tap : TapIr) (parts : Tab Part)
    (regWaits : Tab (List RegWait)) (reports : List Report) (brokenLines : List (Nat × Nat)) (recs : Tab FcRec)
    (recOrder : Nat) (govs : Tab Gov) (reconciled : Bool) (pins : Pins) (ns : Tab Nat) (rot : Rot) (emmc : Emmc)
    (mgmt : Mgmt) (freeIdx : Nat) (out : List Out) :
    Keeps c (State.mk s.pending s.variant s.romKey s.guestId s.caps s.regs s.mem cwKey cwErr spErr tiles tags msgs handles flights slCredits linkCredits groups blockReports rings colls gsteps rxSeq exch streams samples mdl links unitIn cross remaps regOwed lineUp d2dKeep fwHeld positions tap parts regWaits reports brokenLines recs recOrder govs reconciled pins ns rot emmc mgmt freeIdx out) = Keeps c s :=
  propext ⟨fun h => ⟨h.pending, h.variant, h.romKey, h.guestId, h.caps, h.regs, h.mem⟩,
    fun h => ⟨h.pending, h.variant, h.romKey, h.guestId, h.caps, h.regs, h.mem⟩⟩

/-- A change of the memory, to a canonical one, and of other fields. -/
theorem keeps_mem {c s : State} {m : List Host.Cell}
    {cwKey : Tab Nat} {cwErr : Tab Nat} {spErr : Tab Nat} {tiles : Tab Tile} {tags : List (Nat × Nat)}
    {msgs : List ChMsg} {handles : Tab SlEnd} {flights : List SlFlight} {slCredits : List SlCredit}
    {linkCredits : Tab (List SlCredit)} {groups : Tab AlGroup} {blockReports : List (Nat × Nat)}
    {rings : List FilRing} {colls : Tab Coll} {gsteps : List GStep} {rxSeq : Nat} {exch : Tab ExState}
    {streams : Tab Stream} {samples : List Sample} {mdl : Mandoline} {links : Tab Link} {unitIn : List LkCell}
    {cross : Tab Crossing} {remaps : Tab Nat} {regOwed : Tab (Nat × Nat)} {lineUp : List (Nat × Nat)} {d2dKeep : List Nat}
    {fwHeld : List (Nat × Nat × Word)} {positions : Tab Nat} {tap : TapIr} {parts : Tab Part}
    {regWaits : Tab (List RegWait)} {reports : List Report} {brokenLines : List (Nat × Nat)} {recs : Tab FcRec}
    {recOrder : Nat} {govs : Tab Gov} {reconciled : Bool} {pins : Pins} {ns : Tab Nat} {rot : Rot} {emmc : Emmc}
    {mgmt : Mgmt} {freeIdx : Nat} {out : List Out} 
    (h : Keeps c s) (w : Mem.wf m = true) :
    Keeps c (State.mk s.pending s.variant s.romKey s.guestId s.caps s.regs m cwKey cwErr spErr tiles tags msgs handles flights slCredits linkCredits groups blockReports rings colls gsteps rxSeq exch streams samples mdl links unitIn cross remaps regOwed lineUp d2dKeep fwHeld positions tap parts regWaits reports brokenLines recs recOrder govs reconciled pins ns rot emmc mgmt freeIdx out) :=
  ⟨h.pending, h.variant, h.romKey, h.guestId, h.caps, h.regs, w⟩

end Sys2Proof.Machine
end

