-- ==== Sys2Proof/Laws/KeepsRegs.lean ====
section
/-! SUPPORT. Every operation of Regs keeps the queue, the part, and the canonical forms. -/
set_option maxRecDepth 8000
namespace Sys2Proof.Machine

theorem State.setRg_keeps {c : State} {s : State} {d : Nat} {off : Nat} {v : Word} (hk : Keeps c s) : Keeps c
    (State.setRg s d off v) := by
  unfold State.setRg
  exact ⟨hk.pending, hk.variant, hk.romKey, hk.guestId, hk.caps, Tab.put_wf _ _ _ hk.regs, hk.mem⟩

theorem State.addRg_keeps {c : State} {s : State} {d : Nat} {off : Nat} {n : Nat} (hk : Keeps c s) : Keeps c
    (State.addRg s d off n) := by
  unfold State.addRg
  repeat' first
    | with_reducible assumption
    | with_reducible refine keeps_ite (fun _ => ?_) (fun _ => ?_)
    | with_reducible apply State.setRg_keeps
    | split
    | (intro; try intro)

theorem State.crossPut_keeps {c : State} {s : State} {q : Nat} (hk : Keeps c s) : Keeps c (State.crossPut s q) := by
  unfold State.crossPut
  repeat' first
    | with_reducible assumption
    | with_reducible refine keeps_ite (fun _ => ?_) (fun _ => ?_)
    | simp only [keeps_upd]
    | split
    | (intro; try intro)

theorem State.crossReset_keeps {c : State} {s : State} {q : Nat} (hk : Keeps c s) : Keeps c (State.crossReset s q) :=
    by
  unfold State.crossReset
  repeat' first
    | with_reducible assumption
    | with_reducible refine keeps_ite (fun _ => ?_) (fun _ => ?_)
    | simp only [keeps_upd]
    | split
    | (intro; try intro)

theorem State.crossResume_keeps {c : State} {s : State} {q : Nat} (hk : Keeps c s) : Keeps c (State.crossResume s q)
    := by
  unfold State.crossResume
  repeat' first
    | with_reducible assumption
    | with_reducible refine keeps_ite (fun _ => ?_) (fun _ => ?_)
    | simp only [keeps_upd]
    | split
    | (intro; try intro)

theorem State.crossTake_keeps {c : State} {s : State} {q : Nat} (hk : Keeps c s) : Keeps c (State.crossTake s q) := by
  unfold State.crossTake
  repeat' first
    | with_reducible assumption
    | with_reducible refine keeps_ite (fun _ => ?_) (fun _ => ?_)
    | simp only [keeps_upd]
    | split
    | (intro; try intro)

theorem State.draw_keeps {c : State} {s : State} (hk : Keeps c s) : Keeps c (State.draw s).2 := by
  unfold State.draw
  repeat' first
    | with_reducible assumption
    | with_reducible refine keeps_ite (fun _ => ?_) (fun _ => ?_)
    | simp only [keeps_upd]
    | split
    | (intro; try intro)

theorem State.emit_keeps {c : State} {s : State} {o : Out} (hk : Keeps c s) : Keeps c (State.emit s o) := by
  unfold State.emit
  repeat' first
    | with_reducible assumption
    | with_reducible refine keeps_ite (fun _ => ?_) (fun _ => ?_)
    | simp only [keeps_upd]
    | split
    | (intro; try intro)

theorem State.setRf_keeps {c : State} {s : State} {d : Nat} {off : Nat} {hi : Nat} {lo : Nat} {v : Nat} (hk : Keeps c
    s) : Keeps c (State.setRf s d off hi lo v) := by
  unfold State.setRf
  repeat' first
    | with_reducible assumption
    | with_reducible refine keeps_ite (fun _ => ?_) (fun _ => ?_)
    | with_reducible apply State.setRg_keeps
    | split
    | (intro; try intro)

theorem State.satRf_keeps {c : State} {s : State} {d : Nat} {off : Nat} {hi : Nat} {lo : Nat} {n : Nat} (hk : Keeps c
    s) : Keeps c (State.satRf s d off hi lo n) := by
  unfold State.satRf
  repeat' first
    | with_reducible assumption
    | with_reducible refine keeps_ite (fun _ => ?_) (fun _ => ?_)
    | with_reducible apply State.setRf_keeps
    | split
    | (intro; try intro)

theorem State.setRb_keeps {c : State} {s : State} {d : Nat} {off : Nat} {i : Nat} {b : Bool} (hk : Keeps c s) : Keeps
    c (State.setRb s d off i b) := by
  unfold State.setRb
  repeat' first
    | with_reducible assumption
    | with_reducible refine keeps_ite (fun _ => ?_) (fun _ => ?_)
    | with_reducible apply State.setRg_keeps
    | split
    | (intro; try intro)

end Sys2Proof.Machine
end

