-- ==== Sys2Proof/Laws/KeepsReport.lean ====
section
/-! SUPPORT. Every operation of Report keeps the queue, the part, and the canonical forms. -/
set_option maxRecDepth 8000
namespace Sys2Proof.Machine

theorem State.endCond_keeps {c : State} {s : State} {src : Nat} {inst : Nat} (hk : Keeps c s) : Keeps c (State.endCond
    s src inst) := by
  unfold State.endCond
  repeat' first
    | with_reducible assumption
    | with_reducible refine keeps_ite (fun _ => ?_) (fun _ => ?_)
    | simp only [keeps_upd]
    | split
    | (intro; try intro)

theorem State.report_keeps {c : State} {s : State} {src : Nat} {inst : Nat} {part : Option Nat} {value : Word} (hk :
    Keeps c s) : Keeps c (State.report s src inst part value) := by
  unfold State.report
  repeat' first
    | with_reducible assumption
    | with_reducible refine keeps_ite (fun _ => ?_) (fun _ => ?_)
    | simp only [keeps_upd]
    | split
    | (intro; try intro)

theorem State.reportX_keeps {c : State} {s : State} {src : Nat} {inst : Nat} {part : Option Nat} (hk : Keeps c s) :
    Keeps c (State.reportX s src inst part) := by
  unfold State.reportX
  repeat' first
    | with_reducible assumption
    | with_reducible refine keeps_ite (fun _ => ?_) (fun _ => ?_)
    | simp only [keeps_upd]
    | with_reducible apply State.report_keeps
    | split
    | (intro; try intro)

theorem State.setPart_keeps {c : State} {s : State} {p : Nat} {x : Part} (hk : Keeps c s) : Keeps c (State.setPart s p
    x) := by
  unfold State.setPart
  repeat' first
    | with_reducible assumption
    | with_reducible refine keeps_ite (fun _ => ?_) (fun _ => ?_)
    | simp only [keeps_upd]
    | split
    | (intro; try intro)

theorem State.setTile_keeps {c : State} {s : State} {t : Nat} {x : Tile} (hk : Keeps c s) : Keeps c (State.setTile s t
    x) := by
  unfold State.setTile
  repeat' first
    | with_reducible assumption
    | with_reducible refine keeps_ite (fun _ => ?_) (fun _ => ?_)
    | simp only [keeps_upd]
    | split
    | (intro; try intro)

theorem State.tileReport_keeps {c : State} {s : State} {src : Nat} {t : Nat} {value : Word} (hk : Keeps c s) : Keeps c
    (State.tileReport s src t value) := by
  unfold State.tileReport
  repeat' first
    | with_reducible assumption
    | with_reducible refine keeps_ite (fun _ => ?_) (fun _ => ?_)
    | with_reducible apply State.report_keeps
    | split
    | (intro; try intro)

theorem State.tileReportX_keeps {c : State} {s : State} {src : Nat} {t : Nat} (hk : Keeps c s) : Keeps c
    (State.tileReportX s src t) := by
  unfold State.tileReportX
  repeat' first
    | with_reducible assumption
    | with_reducible refine keeps_ite (fun _ => ?_) (fun _ => ?_)
    | with_reducible apply State.reportX_keeps
    | split
    | (intro; try intro)

end Sys2Proof.Machine
end

