-- ==== Sys2Proof/Laws/KeepsDram.lean ====
section
/-! SUPPORT. Every operation of Dram keeps the queue, the part, and the canonical forms. -/
set_option maxRecDepth 8000
namespace Sys2Proof.Machine

theorem Mem.flip_wf (m : List Host.Cell) (u b : Nat) (w : Mem.wf m = true) : Mem.wf (Mem.flip m u b) = true := by
  unfold Mem.flip
  split
  · exact Mem.write_wf _ _ _ w
  · exact w

theorem State.charge_keeps {c : State} {s : State} {req : Nat} {r : Nat × Nat} {n : Nat} (hk : Keeps c s) : Keeps c
    (State.charge s req r n) := by
  unfold State.charge
  repeat' first
    | with_reducible assumption
    | with_reducible refine keeps_ite (fun _ => ?_) (fun _ => ?_)
    | simp only [keeps_upd]
    | with_reducible apply State.setRf_keeps
    | with_reducible apply State.setRb_keeps
    | split
    | (intro; try intro)

theorem State.chargeNet_keeps {c : State} {s : State} {req : Nat} {fromHob : Nat} {toHob : Nat} {n : Nat} (hk : Keeps
    c s) : Keeps c (State.chargeNet s req fromHob toHob n) := by
  unfold State.chargeNet
  repeat' first
    | with_reducible assumption
    | with_reducible refine keeps_ite (fun _ => ?_) (fun _ => ?_)
    | with_reducible apply State.charge_keeps
    | split
    | (intro; try intro)

theorem State.clearSp_keeps {c : State} {s : State} {t : Nat} (hk : Keeps c s) : Keeps c (State.clearSp s t) := by
  exact keeps_mem hk (Mem.filter_wf _ _ hk.mem)

theorem State.spMeet_keeps {c : State} {s : State} {u : Nat} (hk : Keeps c s) : Keeps c (State.spMeet s u).2 := by
  unfold State.spMeet
  repeat' first
    | with_reducible assumption
    | with_reducible refine keeps_ite (fun _ => ?_) (fun _ => ?_)
    | simp only [keeps_upd]
    | with_reducible apply State.addRg_keeps
    | with_reducible apply State.tileReportX_keeps
    | split
    | (intro; try intro)

theorem State.spMeetGo_keeps {c : State} {x0 : Nat} {x1 : State} {x2 : Nat} (hk : Keeps c x1) : Keeps c
    (State.spMeetGo x0 x1 x2).2 := by
  induction x0 generalizing x1 x2 with
  | zero =>
    try simp only [State.spMeetGo]
    repeat' first
      | with_reducible assumption
      | with_reducible refine keeps_ite (fun _ => ?_) (fun _ => ?_)
      | with_reducible apply State.spMeet_keeps
      | split
      | (intro; try intro)
  | succ k ih =>
    try simp only [State.spMeetGo]
    repeat' first
      | with_reducible assumption
      | with_reducible refine keeps_ite (fun _ => ?_) (fun _ => ?_)
      | with_reducible apply ih
      | with_reducible apply State.spMeet_keeps
      | split
      | (intro; try intro)

theorem State.spMeetAll_keeps {c : State} {s : State} {a : Nat} {n : Nat} (hk : Keeps c s) : Keeps c (State.spMeetAll
    s a n).2 := by
  unfold State.spMeetAll
  repeat' first
    | with_reducible assumption
    | with_reducible refine keeps_ite (fun _ => ?_) (fun _ => ?_)
    | with_reducible apply State.spMeetGo_keeps
    | split
    | (intro; try intro)

theorem State.readSp_keeps {c : State} {s : State} {a : Nat} {n : Nat} (hk : Keeps c s) : Keeps c (State.readSp s a
    n).2 := by
  unfold State.readSp
  repeat' first
    | with_reducible assumption
    | with_reducible refine keeps_ite (fun _ => ?_) (fun _ => ?_)
    | with_reducible apply State.spMeetAll_keeps
    | split
    | (intro; try intro)

theorem State.descWords_keeps {c : State} {s : State} {a : Nat} {n : Nat} (hk : Keeps c s) : Keeps c (State.descWords
    s a n).2 := by
  unfold State.descWords
  repeat' first
    | with_reducible assumption
    | with_reducible refine keeps_ite (fun _ => ?_) (fun _ => ?_)
    | with_reducible apply State.readSp_keeps
    | split
    | (intro; try intro)

theorem State.meetBytes_keeps {c : State} {s : State} {as : List Nat} (hk : Keeps c s) : Keeps c (State.meetBytes s
    as) := by
  unfold State.meetBytes
  repeat' first
    | with_reducible assumption
    | with_reducible refine keeps_ite (fun _ => ?_) (fun _ => ?_)
    | with_reducible apply State.spMeet_keeps
    | with_reducible refine keeps_foldl (fun _ _ _ => ?_) ?_
    | split
    | (intro; try intro)

theorem State.memCe_keeps {c : State} {s : State} {a : Nat} {mask : Nat} (hk : Keeps c s) : Keeps c (State.memCe s a
    mask) := by
  unfold State.memCe
  repeat' first
    | with_reducible assumption
    | with_reducible refine keeps_ite (fun _ => ?_) (fun _ => ?_)
    | with_reducible apply State.addRg_keeps
    | with_reducible apply State.setRf_keeps
    | with_reducible apply State.reportX_keeps
    | with_reducible apply State.setRb_keeps
    | split
    | (intro; try intro)

theorem State.memFixed_keeps {c : State} {s : State} {a : Nat} {f : Nat} (hk : Keeps c s) : Keeps c (State.memFixed s
    a f) := by
  unfold State.memFixed
  repeat' first
    | with_reducible assumption
    | with_reducible refine keeps_ite (fun _ => ?_) (fun _ => ?_)
    | with_reducible apply State.memCe_keeps
    | split
    | (intro; try intro)

theorem State.memRefuse_keeps {c : State} {s : State} {req : Nat} {a : Nat} (hk : Keeps c s) : Keeps c
    (State.memRefuse s req a) := by
  unfold State.memRefuse
  repeat' first
    | with_reducible assumption
    | with_reducible refine keeps_ite (fun _ => ?_) (fun _ => ?_)
    | with_reducible apply State.reportX_keeps
    | split
    | (intro; try intro)

theorem State.memUe_keeps {c : State} {s : State} {a : Nat} (hk : Keeps c s) : Keeps c (State.memUe s a) := by
  unfold State.memUe
  repeat' first
    | with_reducible assumption
    | with_reducible refine keeps_ite (fun _ => ?_) (fun _ => ?_)
    | with_reducible apply State.reportX_keeps
    | with_reducible apply State.setRb_keeps
    | with_reducible apply State.addRg_keeps
    | split
    | (intro; try intro)

theorem State.putCw_keeps {c : State} {s : State} {cw : Nat} {bytes : List Byte} {e : Nat} (hk : Keeps c s) : Keeps c
    (State.putCw s cw bytes e) := by
  unfold State.putCw
  repeat' first
    | with_reducible assumption
    | with_reducible refine keeps_ite (fun _ => ?_) (fun _ => ?_)
    | split
    | (intro; try intro)
    | exact keeps_mem hk (Mem.writeN_wf _ _ _ hk.mem)

theorem State.serveCw_keeps {c : State} {s : State} {req : Nat} {cw : Nat} (hk : Keeps c s) : Keeps c (State.serveCw s
    req cw).2 := by
  unfold State.serveCw
  repeat' first
    | with_reducible assumption
    | with_reducible refine keeps_ite (fun _ => ?_) (fun _ => ?_)
    | simp only [keeps_upd]
    | with_reducible apply State.memRefuse_keeps
    | with_reducible apply State.memUe_keeps
    | with_reducible apply State.memFixed_keeps
    | split
    | (intro; try intro)

theorem State.readCw_keeps {c : State} {s : State} {req : Nat} {cw : Nat} (hk : Keeps c s) : Keeps c (State.readCw s
    req cw).2 := by
  unfold State.readCw
  repeat' first
    | with_reducible assumption
    | with_reducible refine keeps_ite (fun _ => ?_) (fun _ => ?_)
    | with_reducible apply State.serveCw_keeps
    | with_reducible apply State.charge_keeps
    | split
    | (intro; try intro)

theorem State.readDramGo_keeps {c : State} {req : Nat} {x1 : Nat} {x2 : State} {x3 : Nat} {x4 : Nat} (hk : Keeps c x2)
    : Keeps c (State.readDramGo req x1 x2 x3 x4).2.2 := by
  induction x1 generalizing req x2 x3 x4 with
  | zero =>
    try simp only [State.readDramGo]
    repeat' first
      | with_reducible assumption
      | with_reducible refine keeps_ite (fun _ => ?_) (fun _ => ?_)
      | with_reducible apply State.readCw_keeps
      | split
      | (intro; try intro)
  | succ k ih =>
    try simp only [State.readDramGo]
    repeat' first
      | with_reducible assumption
      | with_reducible refine keeps_ite (fun _ => ?_) (fun _ => ?_)
      | with_reducible apply ih
      | with_reducible apply State.readCw_keeps
      | split
      | (intro; try intro)

theorem State.readDram_keeps {c : State} {s : State} {req : Nat} {a : Nat} {n : Nat} (hk : Keeps c s) : Keeps c
    (State.readDram s req a n).2.2 := by
  unfold State.readDram
  repeat' first
    | with_reducible assumption
    | with_reducible refine keeps_ite (fun _ => ?_) (fun _ => ?_)
    | with_reducible apply State.readDramGo_keeps
    | split
    | (intro; try intro)

theorem State.readAny_keeps {c : State} {s : State} {req : Nat} {a : Nat} {n : Nat} (hk : Keeps c s) : Keeps c
    (State.readAny s req a n).2.2 := by
  unfold State.readAny
  repeat' first
    | with_reducible assumption
    | with_reducible refine keeps_ite (fun _ => ?_) (fun _ => ?_)
    | with_reducible apply State.readDram_keeps
    | with_reducible apply State.readSp_keeps
    | split
    | (intro; try intro)

theorem State.readSpDma_keeps {c : State} {s : State} {bad : List Nat} {a : Nat} {n : Nat} (hk : Keeps c s) : Keeps c
    (State.readSpDma s bad a n).2 := by
  unfold State.readSpDma
  repeat' first
    | with_reducible assumption
    | with_reducible refine keeps_ite (fun _ => ?_) (fun _ => ?_)
    | with_reducible apply State.spMeetAll_keeps
    | split
    | (intro; try intro)

theorem State.spBit_keeps {c : State} {s : State} {u : Nat} {b : Nat} (hk : Keeps c s) : Keeps c (State.spBit s u b)
    := by
  unfold State.spBit
  repeat' first
    | with_reducible assumption
    | with_reducible refine keeps_ite (fun _ => ?_) (fun _ => ?_)
    | simp only [keeps_upd]
    | split
    | (intro; try intro)
    | exact keeps_mem hk (Mem.flip_wf _ _ _ hk.mem)
    | exact keeps_mem hk (Mem.flip_wf _ _ _ (Mem.flip_wf _ _ _ hk.mem))

theorem State.spFlip_keeps {c : State} {s : State} {bits : List Nat} (hk : Keeps c s) : Keeps c (State.spFlip s bits)
    := by
  unfold State.spFlip
  repeat' first
    | with_reducible assumption
    | with_reducible refine keeps_ite (fun _ => ?_) (fun _ => ?_)
    | with_reducible apply State.spBit_keeps
    | with_reducible refine keeps_foldl (fun _ _ _ => ?_) ?_
    | split
    | (intro; try intro)

theorem State.spTouchGo_keeps {c : State} {a : Nat} {e : Nat} {x2 : Nat} {x3 : State} {x4 : Nat} (hk : Keeps c x3) :
    Keeps c (State.spTouchGo a e x2 x3 x4) := by
  induction x2 generalizing a e x3 x4 with
  | zero =>
    try simp only [State.spTouchGo]
    repeat' first
      | with_reducible assumption
      | with_reducible refine keeps_ite (fun _ => ?_) (fun _ => ?_)
      | simp only [keeps_upd]
      | with_reducible apply State.spMeet_keeps
      | split
      | (intro; try intro)
  | succ k ih =>
    try simp only [State.spTouchGo]
    repeat' first
      | with_reducible assumption
      | with_reducible refine keeps_ite (fun _ => ?_) (fun _ => ?_)
      | with_reducible apply ih
      | simp only [keeps_upd]
      | with_reducible apply State.spMeet_keeps
      | split
      | (intro; try intro)

theorem State.storeCw_keeps {c : State} {s : State} {req : Nat} {cw : Nat} {upd : Tab Byte} (hk : Keeps c s) : Keeps c
    (State.storeCw s req cw upd) := by
  unfold State.storeCw
  repeat' first
    | with_reducible assumption
    | with_reducible refine keeps_ite (fun _ => ?_) (fun _ => ?_)
    | with_reducible apply State.memRefuse_keeps
    | with_reducible apply State.memUe_keeps
    | with_reducible apply State.putCw_keeps
    | with_reducible apply State.memFixed_keeps
    | split
    | (intro; try intro)
    | exact keeps_mem hk (Mem.writeN_wf _ _ _ hk.mem)

theorem State.writeCw_keeps {c : State} {s : State} {req : Nat} {cw : Nat} {upd : Tab Byte} (hk : Keeps c s) : Keeps c
    (State.writeCw s req cw upd) := by
  unfold State.writeCw
  repeat' first
    | with_reducible assumption
    | with_reducible refine keeps_ite (fun _ => ?_) (fun _ => ?_)
    | with_reducible apply State.storeCw_keeps
    | with_reducible apply State.charge_keeps
    | split
    | (intro; try intro)

theorem State.writeDramGo_keeps {c : State} {req : Nat} {x1 : Nat} {x2 : State} {x3 : Nat} {x4 : List (Option Byte)}
    (hk : Keeps c x2) : Keeps c (State.writeDramGo req x1 x2 x3 x4) := by
  induction x1 generalizing req x2 x3 x4 with
  | zero =>
    try simp only [State.writeDramGo]
    repeat' first
      | with_reducible assumption
      | with_reducible refine keeps_ite (fun _ => ?_) (fun _ => ?_)
      | with_reducible apply State.writeCw_keeps
      | split
      | (intro; try intro)
  | succ k ih =>
    try simp only [State.writeDramGo]
    repeat' first
      | with_reducible assumption
      | with_reducible refine keeps_ite (fun _ => ?_) (fun _ => ?_)
      | with_reducible apply ih
      | with_reducible apply State.writeCw_keeps
      | split
      | (intro; try intro)

theorem State.writeDram_keeps {c : State} {s : State} {req : Nat} {a : Nat} {bs : List (Option Byte)} (hk : Keeps c s)
    : Keeps c (State.writeDram s req a bs) := by
  unfold State.writeDram
  repeat' first
    | with_reducible assumption
    | with_reducible refine keeps_ite (fun _ => ?_) (fun _ => ?_)
    | with_reducible apply State.writeDramGo_keeps
    | split
    | (intro; try intro)

theorem State.writeSp_keeps {c : State} {s : State} {a : Nat} {bs : List Byte} (hk : Keeps c s) : Keeps c
    (State.writeSp s a bs) := by
  unfold State.writeSp
  have w : Keeps c { s with mem := Mem.writeN s.mem a bs } := keeps_mem hk (Mem.writeN_wf _ _ _ hk.mem)
  split
  · exact w
  · have k := State.spTouchGo_keeps (a := a) (e := a + bs.length) (x2 := (a + bs.length - 1) / 16 - a / 16 + 1) (x4 := a / 16) hk
    exact keeps_mem k (Mem.writeN_wf _ _ _ k.mem)

theorem State.writeAny_keeps {c : State} {s : State} {req : Nat} {a : Nat} {bs : List (Option Byte)} (hk : Keeps c s)
    : Keeps c (State.writeAny s req a bs) := by
  unfold State.writeAny
  repeat' first
    | with_reducible assumption
    | with_reducible refine keeps_ite (fun _ => ?_) (fun _ => ?_)
    | with_reducible apply State.writeDram_keeps
    | with_reducible apply State.writeSp_keeps
    | with_reducible refine keeps_foldl (fun _ _ _ => ?_) ?_
    | split
    | (intro; try intro)

end Sys2Proof.Machine
end

