-- ==== Sys2Proof/Laws/KeepsTrust.lean ====
section
/-! SUPPORT. Every operation of Trust keeps the queue, the part, and the canonical forms. -/
set_option maxRecDepth 8000
namespace Sys2Proof.Machine

theorem State.emmcWrite_keeps {c : State} {s : State} {w : EmmcWrite} {e : Emmc} (hk : Keeps c s) : Keeps c
    (State.emmcWrite s w e) := by
  unfold State.emmcWrite
  repeat' first
    | with_reducible assumption
    | with_reducible refine keeps_ite (fun _ => ?_) (fun _ => ?_)
    | simp only [keeps_upd]
    | split
    | (intro; try intro)

theorem State.freshKeyId_keeps {c : State} {s : State} (hk : Keeps c s) : Keeps c (State.freshKeyId s).2 := by
  unfold State.freshKeyId
  repeat' first
    | with_reducible assumption
    | with_reducible refine keeps_ite (fun _ => ?_) (fun _ => ?_)
    | simp only [keeps_upd]
    | split
    | (intro; try intro)

theorem State.netWrite_keeps {c : State} {s : State} {body : List Byte} (hk : Keeps c s) : Keeps c (State.netWrite s
    body) := by
  unfold State.netWrite
  repeat' first
    | with_reducible assumption
    | with_reducible refine keeps_ite (fun _ => ?_) (fun _ => ?_)
    | with_reducible apply State.emmcWrite_keeps
    | split
    | (intro; try intro)

theorem State.setRotState_keeps {c : State} {s : State} {n : Nat} (hk : Keeps c s) : Keeps c (State.setRotState s n)
    := by
  unfold State.setRotState
  repeat' first
    | with_reducible assumption
    | with_reducible refine keeps_ite (fun _ => ?_) (fun _ => ?_)
    | with_reducible apply State.setRf_keeps
    | split
    | (intro; try intro)

theorem State.takeLeaf_keeps {c : State} {s : State} (hk : Keeps c s) : Keeps c (State.takeLeaf s).2 := by
  unfold State.takeLeaf
  repeat' first
    | with_reducible assumption
    | with_reducible refine keeps_ite (fun _ => ?_) (fun _ => ?_)
    | simp only [keeps_upd]
    | with_reducible apply State.setRotState_keeps
    | split
    | (intro; try intro)

theorem State.signOne_keeps {c : State} {s : State} (hk : Keeps c s) : Keeps c (State.signOne s).2 := by
  unfold State.signOne
  repeat' first
    | with_reducible assumption
    | with_reducible refine keeps_ite (fun _ => ?_) (fun _ => ?_)
    | simp only [keeps_upd]
    | with_reducible apply State.takeLeaf_keeps
    | with_reducible apply State.setRf_keeps
    | split
    | (intro; try intro)

theorem State.newRepair_keeps {c : State} {s : State} {f : RepairCopy → RepairCopy} (hk : Keeps c s) : Keeps c
    (State.newRepair s f) := by
  unfold State.newRepair
  repeat' first
    | with_reducible assumption
    | with_reducible refine keeps_ite (fun _ => ?_) (fun _ => ?_)
    | simp only [keeps_upd]
    | with_reducible apply State.signOne_keeps
    | with_reducible apply State.emmcWrite_keeps
    | split
    | (intro; try intro)

theorem State.train_keeps {c : State} {s : State} {f : TrainRec → TrainRec} (hk : Keeps c s) : Keeps c (State.train s
    f) := by
  unfold State.train
  repeat' first
    | with_reducible assumption
    | with_reducible refine keeps_ite (fun _ => ?_) (fun _ => ?_)
    | with_reducible apply State.emmcWrite_keeps
    | split
    | (intro; try intro)

end Sys2Proof.Machine
end

