-- ==== Sys2Proof/Laws/KeepsRecords.lean ====
section
/-! SUPPORT. Every operation of Records keeps the queue, the part, and the canonical forms. -/
set_option maxRecDepth 8000
namespace Sys2Proof.Machine

theorem State.setCrec_keeps {c : State} {s : State} {id : Nat} {r : CRec} (hk : Keeps c s) : Keeps c (State.setCrec s
    id r) := by
  unfold State.setCrec
  repeat' first
    | with_reducible assumption
    | with_reducible refine keeps_ite (fun _ => ?_) (fun _ => ?_)
    | simp only [keeps_upd]
    | split
    | (intro; try intro)

theorem State.releaseBlob_keeps {c : State} {s : State} {b : Nat} (hk : Keeps c s) : Keeps c (State.releaseBlob s b)
    := by
  unfold State.releaseBlob
  repeat' first
    | with_reducible assumption
    | with_reducible refine keeps_ite (fun _ => ?_) (fun _ => ?_)
    | simp only [keeps_upd]
    | split
    | (intro; try intro)

theorem State.completeOp_keeps {c : State} {s : State} {id : Nat} {result : Nat} {reason : Nat} {detail : Nat} (hk :
    Keeps c s) : Keeps c (State.completeOp s id result reason detail) := by
  unfold State.completeOp
  repeat' first
    | with_reducible assumption
    | with_reducible refine keeps_ite (fun _ => ?_) (fun _ => ?_)
    | with_reducible apply State.setCrec_keeps
    | with_reducible apply State.releaseBlob_keeps
    | with_reducible refine keeps_foldl (fun _ _ _ => ?_) ?_
    | split
    | (intro; try intro)

theorem State.completeOps_keeps {c : State} {s : State} {op : Nat} {target : Nat} (hk : Keeps c s) : Keeps c
    (State.completeOps s op target) := by
  unfold State.completeOps
  repeat' first
    | with_reducible assumption
    | with_reducible refine keeps_ite (fun _ => ?_) (fun _ => ?_)
    | with_reducible apply State.completeOp_keeps
    | with_reducible refine keeps_foldl (fun _ _ _ => ?_) ?_
    | split
    | (intro; try intro)

theorem State.markOps_keeps {c : State} {s : State} {op : Nat} {target : Nat} {result : Nat} {reason : Nat} (hk :
    Keeps c s) : Keeps c (State.markOps s op target result reason) := by
  unfold State.markOps
  repeat' first
    | with_reducible assumption
    | with_reducible refine keeps_ite (fun _ => ?_) (fun _ => ?_)
    | with_reducible apply State.setCrec_keeps
    | with_reducible refine keeps_foldl (fun _ _ _ => ?_) ?_
    | split
    | (intro; try intro)

end Sys2Proof.Machine
end

