-- ==== Sys2Proof/Laws/KeepsMemory.lean ====
section
/-! SUPPORT. Every operation of Memory keeps the queue, the part, and the canonical forms. -/
set_option maxRecDepth 8000
namespace Sys2Proof.Machine

theorem State.storeGo_keeps {c : State} {req : Nat} {x1 : Nat} {x2 : State} {x3 : Nat} {x4 : List Byte} (hk : Keeps c
    x2) : Keeps c (State.storeGo req x1 x2 x3 x4) := by
  induction x1 generalizing req x2 x3 x4 with
  | zero =>
    try simp only [State.storeGo]
    repeat' first
      | with_reducible assumption
      | with_reducible refine keeps_ite (fun _ => ?_) (fun _ => ?_)
      | with_reducible apply State.storeCw_keeps
      | split
      | (intro; try intro)
  | succ k ih =>
    try simp only [State.storeGo]
    repeat' first
      | with_reducible assumption
      | with_reducible refine keeps_ite (fun _ => ?_) (fun _ => ?_)
      | with_reducible apply ih
      | with_reducible apply State.storeCw_keeps
      | split
      | (intro; try intro)

theorem State.serveGo_keeps {c : State} {req : Nat} {x1 : Nat} {x2 : State} {x3 : Nat} {x4 : Nat} (hk : Keeps c x2) :
    Keeps c (State.serveGo req x1 x2 x3 x4).2 := by
  induction x1 generalizing req x2 x3 x4 with
  | zero =>
    try simp only [State.serveGo]
    repeat' first
      | with_reducible assumption
      | with_reducible refine keeps_ite (fun _ => ?_) (fun _ => ?_)
      | with_reducible apply State.serveCw_keeps
      | split
      | (intro; try intro)
  | succ k ih =>
    try simp only [State.serveGo]
    repeat' first
      | with_reducible assumption
      | with_reducible refine keeps_ite (fun _ => ?_) (fun _ => ?_)
      | with_reducible apply ih
      | with_reducible apply State.serveCw_keeps
      | split
      | (intro; try intro)

theorem State.hit_keeps {c : State} {s : State} {cw : Nat} {pat : Nat} (hk : Keeps c s) : Keeps c (State.hit s cw pat)
    := by
  unfold State.hit
  repeat' first
    | with_reducible assumption
    | with_reducible refine keeps_ite (fun _ => ?_) (fun _ => ?_)
    | simp only [keeps_upd]
    | split
    | (intro; try intro)

theorem State.serveAccess_keeps {c : State} {s : State} {req : Nat} {w : RegWait} (hk : Keeps c s) : Keeps c
    (State.serveAccess s req w) := by
  unfold State.serveAccess
  repeat' first
    | with_reducible assumption
    | with_reducible refine keeps_ite (fun _ => ?_) (fun _ => ?_)
    | with_reducible apply State.emit_keeps
    | with_reducible apply State.storeGo_keeps
    | with_reducible apply State.serveGo_keeps
    | with_reducible apply State.hit_keeps
    | split
    | (intro; try intro)

theorem State.admitGo_keeps {c : State} {d : Nat} {p : Nat} {i : Nat} {x3 : Nat} {x4 : State} (hk : Keeps c x4) :
    Keeps c (State.admitGo d p i x3 x4) := by
  induction x3 generalizing d p i x4 with
  | zero =>
    try simp only [State.admitGo]
    repeat' first
      | with_reducible assumption
      | with_reducible refine keeps_ite (fun _ => ?_) (fun _ => ?_)
      | simp only [keeps_upd]
      | with_reducible apply State.serveAccess_keeps
      | with_reducible apply State.setRf_keeps
      | with_reducible apply State.setRb_keeps
      | split
      | (intro; try intro)
  | succ k ih =>
    try simp only [State.admitGo]
    repeat' first
      | with_reducible assumption
      | with_reducible refine keeps_ite (fun _ => ?_) (fun _ => ?_)
      | with_reducible apply ih
      | simp only [keeps_upd]
      | with_reducible apply State.serveAccess_keeps
      | with_reducible apply State.setRf_keeps
      | with_reducible apply State.setRb_keeps
      | split
      | (intro; try intro)

theorem State.admitAll_keeps {c : State} {s : State} {d : Nat} {p : Nat} {i : Nat} (hk : Keeps c s) : Keeps c
    (State.admitAll s d p i) := by
  unfold State.admitAll
  repeat' first
    | with_reducible assumption
    | with_reducible refine keeps_ite (fun _ => ?_) (fun _ => ?_)
    | with_reducible apply State.admitGo_keeps
    | split
    | (intro; try intro)

theorem State.access_keeps {c : State} {s : State} {req : Nat} {w : RegWait} (hk : Keeps c s) : KeepsO c (State.access
    s req w) := by
  unfold State.access
  repeat' first
    | with_reducible assumption
    | with_reducible refine keeps_ite (fun _ => ?_) (fun _ => ?_)
    | simp only [keeps_upd, keepsO_next, keepsO_fault]
    | with_reducible apply State.admitAll_keeps
    | with_reducible apply State.serveAccess_keeps
    | split
    | (intro; try intro)

theorem State.tryRemap_keeps {c : State} {s : State} {m : Nat} (hk : Keeps c s) : Keeps c (State.tryRemap s m) := by
  unfold State.tryRemap
  repeat' first
    | with_reducible assumption
    | with_reducible refine keeps_ite (fun _ => ?_) (fun _ => ?_)
    | simp only [keeps_upd]
    | with_reducible apply State.setRf_keeps
    | split
    | (intro; try intro)

theorem State.askMapout_keeps {c : State} {s : State} {m : Nat} {chans : Nat} (hk : Keeps c s) : Keeps c
    (State.askMapout s m chans) := by
  unfold State.askMapout
  repeat' first
    | with_reducible assumption
    | with_reducible refine keeps_ite (fun _ => ?_) (fun _ => ?_)
    | with_reducible apply State.tryRemap_keeps
    | with_reducible apply State.setRf_keeps
    | split
    | (intro; try intro)

theorem State.failChannel_keeps {c : State} {s : State} {m : Nat} {cc : Nat} (hk : Keeps c s) : Keeps c
    (State.failChannel s m cc) := by
  unfold State.failChannel
  repeat' first
    | with_reducible assumption
    | with_reducible refine keeps_ite (fun _ => ?_) (fun _ => ?_)
    | with_reducible apply State.askMapout_keeps
    | with_reducible apply State.reportX_keeps
    | with_reducible apply State.endCond_keeps
    | with_reducible apply State.setRf_keeps
    | split
    | (intro; try intro)

theorem State.loseStack_keeps {c : State} {s : State} {m : Nat} (hk : Keeps c s) : Keeps c (State.loseStack s m) := by
  unfold State.loseStack
  repeat' first
    | with_reducible assumption
    | with_reducible refine keeps_ite (fun _ => ?_) (fun _ => ?_)
    | simp only [keeps_upd]
    | with_reducible apply State.freshKeyId_keeps
    | split
    | (intro; try intro)

theorem State.mapOut_keeps {c : State} {s : State} {m : Nat} {gone : List Nat} (hk : Keeps c s) : Keeps c
    (State.mapOut s m gone) := by
  unfold State.mapOut
  repeat' first
    | with_reducible assumption
    | with_reducible refine keeps_ite (fun _ => ?_) (fun _ => ?_)
    | with_reducible apply State.endCond_keeps
    | with_reducible apply State.setRf_keeps
    | with_reducible refine keeps_foldl (fun _ _ _ => ?_) ?_
    | split
    | (intro; try intro)

theorem State.scrubCw_keeps {c : State} {s : State} {cw : Nat} (hk : Keeps c s) : Keeps c (State.scrubCw s cw) := by
  unfold State.scrubCw
  repeat' first
    | with_reducible assumption
    | with_reducible refine keeps_ite (fun _ => ?_) (fun _ => ?_)
    | with_reducible apply State.memUe_keeps
    | with_reducible apply State.memFixed_keeps
    | split
    | (intro; try intro)
    | exact keeps_mem (State.memFixed_keeps hk) hk.mem
    | exact keeps_mem (State.memFixed_keeps hk) (Mem.writeN_wf _ _ _ hk.mem)

theorem State.scrubFailed_keeps {c : State} {s : State} {m : Nat} {cc : Nat} (hk : Keeps c s) : Keeps c
    (State.scrubFailed s m cc) := by
  unfold State.scrubFailed
  repeat' first
    | with_reducible assumption
    | with_reducible refine keeps_ite (fun _ => ?_) (fun _ => ?_)
    | with_reducible apply State.reportX_keeps
    | with_reducible apply State.setRb_keeps
    | with_reducible apply State.addRg_keeps
    | split
    | (intro; try intro)

theorem execCeWindowRoll_keeps {c : State} {m : Nat} {cc : Nat} {s : State} (hk : Keeps c s) : KeepsO c
    (execCeWindowRoll m cc s) := by
  unfold execCeWindowRoll
  repeat' first
    | with_reducible assumption
    | with_reducible refine keeps_ite (fun _ => ?_) (fun _ => ?_)
    | simp only [keepsO_next]
    | with_reducible apply State.setRg_keeps
    | split
    | (intro; try intro)

theorem execChannelFailed_keeps {c : State} {m : Nat} {cc : Nat} {s : State} (hk : Keeps c s) : KeepsO c
    (execChannelFailed m cc s) := by
  unfold execChannelFailed
  repeat' first
    | with_reducible assumption
    | with_reducible refine keeps_ite (fun _ => ?_) (fun _ => ?_)
    | simp only [keepsO_next]
    | with_reducible apply State.failChannel_keeps
    | split
    | (intro; try intro)

theorem execChannelPeriodicRetrain_keeps {c : State} {m : Nat} {cc : Nat} {ok : Bool} {s : State} (hk : Keeps c s) :
    KeepsO c (execChannelPeriodicRetrain m cc ok s) := by
  unfold execChannelPeriodicRetrain
  repeat' first
    | with_reducible assumption
    | with_reducible refine keeps_ite (fun _ => ?_) (fun _ => ?_)
    | simp only [keepsO_next]
    | with_reducible apply State.failChannel_keeps
    | split
    | (intro; try intro)

theorem execDramRead_keeps {c : State} {req : Nat} {a : Nat} {n : Nat} {errs : Nat} {s : State} (hk : Keeps c s) :
    KeepsO c (execDramRead req a n errs s) := by
  unfold execDramRead
  repeat' first
    | with_reducible assumption
    | with_reducible refine keeps_ite (fun _ => ?_) (fun _ => ?_)
    | with_reducible apply State.access_keeps
    | split
    | (intro; try intro)

theorem execDramWrite_keeps {c : State} {req : Nat} {a : Nat} {bs : List Byte} {s : State} (hk : Keeps c s) : KeepsO c
    (execDramWrite req a bs s) := by
  unfold execDramWrite
  repeat' first
    | with_reducible assumption
    | with_reducible refine keeps_ite (fun _ => ?_) (fun _ => ?_)
    | with_reducible apply State.access_keeps
    | split
    | (intro; try intro)

theorem execMemMapoutWrite_keeps {c : State} {m : Nat} {v : Word} {s : State} (hk : Keeps c s) : KeepsO c
    (execMemMapoutWrite m v s) := by
  unfold execMemMapoutWrite
  repeat' first
    | with_reducible assumption
    | with_reducible refine keeps_ite (fun _ => ?_) (fun _ => ?_)
    | simp only [keepsO_next]
    | with_reducible apply State.askMapout_keeps
    | with_reducible apply State.emit_keeps
    | split
    | (intro; try intro)

theorem execMemOwnWrite_keeps {c : State} {m : Nat} {w : Nat} {v : Word} {s : State} (hk : Keeps c s) : KeepsO c
    (execMemOwnWrite m w v s) := by
  unfold execMemOwnWrite
  repeat' first
    | with_reducible assumption
    | with_reducible refine keeps_ite (fun _ => ?_) (fun _ => ?_)
    | simp only [keepsO_next]
    | with_reducible apply State.emit_keeps
    | with_reducible apply State.setRb_keeps
    | with_reducible apply State.tryRemap_keeps
    | with_reducible apply State.setRg_keeps
    | split
    | (intro; try intro)

theorem execRefreshTierDown_keeps {c : State} {m : Nat} {s : State} (hk : Keeps c s) : KeepsO c (execRefreshTierDown m
    s) := by
  unfold execRefreshTierDown
  repeat' first
    | with_reducible assumption
    | with_reducible refine keeps_ite (fun _ => ?_) (fun _ => ?_)
    | simp only [keepsO_next]
    | with_reducible apply State.setRf_keeps
    | with_reducible apply State.endCond_keeps
    | split
    | (intro; try intro)

theorem execRefreshTierSample_keeps {c : State} {m : Nat} {temp : Nat} {s : State} (hk : Keeps c s) : KeepsO c
    (execRefreshTierSample m temp s) := by
  unfold execRefreshTierSample
  repeat' first
    | with_reducible assumption
    | with_reducible refine keeps_ite (fun _ => ?_) (fun _ => ?_)
    | simp only [keepsO_next]
    | with_reducible apply State.setRf_keeps
    | with_reducible apply State.setRb_keeps
    | with_reducible apply State.reportX_keeps
    | split
    | (intro; try intro)

theorem execRegCfgWrite_keeps {c : State} {mer : Nat} {p : Nat} {i : Nat} {v : Word} {s : State} (hk : Keeps c s) :
    KeepsO c (execRegCfgWrite mer p i v s) := by
  unfold execRegCfgWrite
  repeat' first
    | with_reducible assumption
    | with_reducible refine keeps_ite (fun _ => ?_) (fun _ => ?_)
    | simp only [keeps_upd, keepsO_next]
    | with_reducible apply State.setRg_keeps
    | with_reducible apply State.admitAll_keeps
    | with_reducible apply State.setRf_keeps
    | split
    | (intro; try intro)

theorem execRegTokenCredit_keeps {c : State} {mer : Nat} {p : Nat} {i : Nat} {n : Nat} {s : State} (hk : Keeps c s) :
    KeepsO c (execRegTokenCredit mer p i n s) := by
  unfold execRegTokenCredit
  repeat' first
    | with_reducible assumption
    | with_reducible refine keeps_ite (fun _ => ?_) (fun _ => ?_)
    | simp only [keeps_upd, keepsO_next]
    | with_reducible apply State.admitAll_keeps
    | with_reducible apply State.setRf_keeps
    | split
    | (intro; try intro)

theorem execRemapComplete_keeps {c : State} {m : Nat} {s : State} (hk : Keeps c s) : KeepsO c (execRemapComplete m s)
    := by
  unfold execRemapComplete
  repeat' first
    | with_reducible assumption
    | with_reducible refine keeps_ite (fun _ => ?_) (fun _ => ?_)
    | simp only [keeps_upd, keepsO_next]
    | with_reducible apply State.setRf_keeps
    | with_reducible apply State.mapOut_keeps
    | with_reducible apply State.loseStack_keeps
    | with_reducible apply State.setRb_keeps
    | with_reducible apply State.completeOps_keeps
    | with_reducible apply State.tryRemap_keeps
    | with_reducible apply State.newRepair_keeps
    | split
    | (intro; try intro)

theorem execScrubPass_keeps {c : State} {m : Nat} {found : List (Nat × Nat)} {s : State} (hk : Keeps c s) : KeepsO c
    (execScrubPass m found s) := by
  unfold execScrubPass
  repeat' first
    | with_reducible assumption
    | with_reducible refine keeps_ite (fun _ => ?_) (fun _ => ?_)
    | simp only [keepsO_next]
    | with_reducible apply State.hit_keeps
    | with_reducible apply State.scrubCw_keeps
    | with_reducible apply State.scrubFailed_keeps
    | with_reducible refine keeps_foldl (fun _ _ _ => ?_) ?_
    | split
    | (intro; try intro)

end Sys2Proof.Machine
end

