-- ==== Sys2Proof/Laws/KeepsOps.lean ====
section
/-! SUPPORT. Every operation of Ops keeps the queue, the part, and the canonical forms. -/
set_option maxRecDepth 8000
namespace Sys2Proof.Machine

theorem State.clearFillers_keeps {c : State} {s : State} {p : Nat} (hk : Keeps c s) : Keeps c (State.clearFillers s p)
    := by
  have h : ∀ l : List Nat, Keeps c (l.foldl (fun s t =>
    if s.rb (t / 96) (filOff t) 63 then s.setRb (t / 96) (filOff t) 63 false else s) s) := by
    intro l
    refine keeps_foldl (fun s t h => ?_) hk
    split
    · exact State.setRb_keeps h
    · exact h
  unfold State.clearFillers
  generalize (s.part p).tiles = l
  have k := h l
  revert k
  generalize (l.foldl _ s) = s2
  intro k
  exact ⟨k.pending, k.variant, k.romKey, k.guestId, k.caps, k.regs, k.mem⟩

theorem State.setPhase_keeps {c : State} {s : State} {t : Nat} {ph : Nat} (hk : Keeps c s) : Keeps c (State.setPhase s
    t ph) := by
  unfold State.setPhase
  repeat' first
    | with_reducible assumption
    | with_reducible refine keeps_ite (fun _ => ?_) (fun _ => ?_)
    | with_reducible apply State.setTile_keeps
    | split
    | (intro; try intro)

theorem State.fillerSettle_keeps {c : State} {s : State} {t : Nat} (hk : Keeps c s) : Keeps c (State.fillerSettle s t)
    := by
  unfold State.fillerSettle
  repeat' first
    | with_reducible assumption
    | with_reducible refine keeps_ite (fun _ => ?_) (fun _ => ?_)
    | simp only [keeps_upd]
    | with_reducible apply State.setPhase_keeps
    | with_reducible apply State.setTile_keeps
    | split
    | (intro; try intro)

theorem State.stopTile_keeps {c : State} {s : State} {t : Nat} (hk : Keeps c s) : Keeps c (State.stopTile s t) := by
  unfold State.stopTile
  repeat' first
    | with_reducible assumption
    | with_reducible refine keeps_ite (fun _ => ?_) (fun _ => ?_)
    | simp only [keeps_upd]
    | with_reducible apply State.tileReportX_keeps
    | with_reducible apply State.fillerSettle_keeps
    | with_reducible apply State.setTile_keeps
    | split
    | (intro; try intro)

theorem State.partEvent_keeps {c : State} {s : State} {p : Nat} {bit : Nat} (hk : Keeps c s) : Keeps c
    (State.partEvent s p bit) := by
  unfold State.partEvent
  repeat' first
    | with_reducible assumption
    | with_reducible refine keeps_ite (fun _ => ?_) (fun _ => ?_)
    | with_reducible apply State.setRb_keeps
    | split
    | (intro; try intro)

theorem State.enterEnding_keeps {c : State} {s : State} {p : Nat} {bit : Nat} {ev : Bool} (hk : Keeps c s) : Keeps c
    (State.enterEnding s p bit ev) := by
  have k : ∀ l : List Nat, Keeps c (l.foldl State.stopTile s) := fun l => keeps_foldl (fun _ _ h => State.stopTile_keeps h) hk
  unfold State.enterEnding
  have k := k (s.part p).tiles
  revert k
  generalize ((s.part p).tiles.foldl State.stopTile s) = s2
  intro k
  have k2 := State.clearFillers_keeps (p := p) (State.setPart_keeps (p := p) (x := { s2.part p with st := .ending, filler := false }) k)
  cases ev
  · exact k2
  · exact State.partEvent_keeps k2

theorem State.fillerEnd_keeps {c : State} {s : State} {t : Nat} (hk : Keeps c s) : Keeps c (State.fillerEnd s t) := by
  unfold State.fillerEnd
  repeat' first
    | with_reducible assumption
    | with_reducible refine keeps_ite (fun _ => ?_) (fun _ => ?_)
    | with_reducible apply State.fillerSettle_keeps
    | with_reducible apply State.setTile_keeps
    | split
    | (intro; try intro)

theorem State.rephase_keeps {c : State} {s : State} {t : Nat} (hk : Keeps c s) : Keeps c (State.rephase s t) := by
  unfold State.rephase
  repeat' first
    | with_reducible assumption
    | with_reducible refine keeps_ite (fun _ => ?_) (fun _ => ?_)
    | with_reducible apply State.setPhase_keeps
    | split
    | (intro; try intro)

theorem State.retire_keeps {c : State} {s : State} {t : Nat} {pc : BitVec 48} (hk : Keeps c s) : Keeps c (State.retire
    s t pc) := by
  unfold State.retire
  repeat' first
    | with_reducible assumption
    | with_reducible refine keeps_ite (fun _ => ?_) (fun _ => ?_)
    | with_reducible apply State.setTile_keeps
    | with_reducible apply State.setPhase_keeps
    | split
    | (intro; try intro)

theorem State.tileEnded_keeps {c : State} {s : State} {t : Nat} {byHalt : Bool} (hk : Keeps c s) : Keeps c
    (State.tileEnded s t byHalt) := by
  unfold State.tileEnded
  repeat' first
    | with_reducible assumption
    | with_reducible refine keeps_ite (fun _ => ?_) (fun _ => ?_)
    | with_reducible apply State.stopTile_keeps
    | with_reducible apply State.enterEnding_keeps
    | split
    | (intro; try intro)

theorem State.takeTrap_keeps {c : State} {s : State} {t : Nat} {len : Nat} {cc : Cause} {v : Word} (hk : Keeps c s) :
    Keeps c (State.takeTrap s t len cc v) := by
  unfold State.takeTrap
  repeat' first
    | with_reducible assumption
    | with_reducible refine keeps_ite (fun _ => ?_) (fun _ => ?_)
    | with_reducible apply State.fillerEnd_keeps
    | with_reducible apply State.tileReport_keeps
    | with_reducible apply State.setRg_keeps
    | with_reducible apply State.tileEnded_keeps
    | with_reducible apply State.setTile_keeps
    | split
    | (intro; try intro)

theorem State.run_keeps {c : State} {s : State} {t : Nat} {len : Nat} {i : Instr} {f : State → TRes} (hk : Keeps c s)
    (hf : KeepsT c (f s)) : KeepsO c (State.run s t len i f) := by
  unfold State.run
  revert hf
  generalize f s = r
  intro hf
  cases r <;> simp only [keepsT_done, keepsT_goto, keepsT_trap, keepsT_wait, keepsT_gone] at hf
  repeat' first
    | with_reducible assumption
    | with_reducible refine keeps_ite (fun _ => ?_) (fun _ => ?_)
    | simp only [keepsO_next]
    | with_reducible apply State.takeTrap_keeps
    | with_reducible apply State.retire_keeps
    | with_reducible apply State.setPhase_keeps
    | with_reducible apply State.setTile_keeps
    | split
    | (intro; try intro)

theorem State.setG_keeps {c : State} {s : State} {t : Nat} {r : Reg} {v : Word} (hk : Keeps c s) : Keeps c (State.setG
    s t r v) := by
  unfold State.setG
  repeat' first
    | with_reducible assumption
    | with_reducible refine keeps_ite (fun _ => ?_) (fun _ => ?_)
    | with_reducible apply State.setTile_keeps
    | split
    | (intro; try intro)

theorem doneG_keeps {c : State} {s : State} {t : Nat} {r : Reg} {v : Word} (hk : Keeps c s) : KeepsT c (doneG s t r v)
    := by
  unfold doneG
  repeat' first
    | with_reducible assumption
    | with_reducible refine keeps_ite (fun _ => ?_) (fun _ => ?_)
    | simp only [keepsT_done]
    | with_reducible apply State.setG_keeps
    | split
    | (intro; try intro)

theorem noFiller_keeps {c : State} {s : State} {t : Nat} {cc : Cause} {v : Word} {k : TRes} (hk : Keeps c s) (hf :
    KeepsT c k) : KeepsT c (noFiller s t cc v k) := by
  unfold noFiller
  repeat' first
    | with_reducible assumption
    | with_reducible refine keeps_ite (fun _ => ?_) (fun _ => ?_)
    | simp only [keepsT_trap]
    | split
    | (intro; try intro)

theorem orHold_keeps {c : State} {s : State} {a : Nat} {n : Nat} {k : TRes} (hk : Keeps c s) (hf : KeepsT c k) :
    KeepsT c (orHold s a n k) := by
  unfold orHold
  repeat' first
    | with_reducible assumption
    | with_reducible refine keeps_ite (fun _ => ?_) (fun _ => ?_)
    | simp only [keepsT_wait]
    | split
    | (intro; try intro)

theorem orTrap_keeps {c : State} {x : Option (Cause × Word)} {k : TRes} (hf : KeepsT c k) : KeepsT c (orTrap x k) :=
    by
  unfold orTrap
  split
  · trivial
  · exact hf

end Sys2Proof.Machine
end

