-- ==== Sys2Proof/Laws/KeepsPantry.lean ====
section
/-! SUPPORT. Every operation of Pantry keeps the queue, the part, and the canonical forms. -/
set_option maxRecDepth 8000
namespace Sys2Proof.Machine

theorem State.setSlot_keeps {c : State} {s : State} {i : Nat} {x : PSlot} (hk : Keeps c s) : Keeps c (State.setSlot s
    i x) := by
  unfold State.setSlot
  repeat' first
    | with_reducible assumption
    | with_reducible refine keeps_ite (fun _ => ?_) (fun _ => ?_)
    | simp only [keeps_upd]
    | split
    | (intro; try intro)

theorem State.pantryAlarm_keeps {c : State} {s : State} (hk : Keeps c s) : Keeps c (State.pantryAlarm s) := by
  unfold State.pantryAlarm
  repeat' first
    | with_reducible assumption
    | with_reducible refine keeps_ite (fun _ => ?_) (fun _ => ?_)
    | simp only [keeps_upd]
    | with_reducible apply State.reportX_keeps
    | with_reducible apply State.setRb_keeps
    | split
    | (intro; try intro)

theorem State.updDma_keeps {c : State} {s : State} {t : Nat} {tag : Nat} {f : DmaXfer → DmaXfer} (hk : Keeps c s) :
    Keeps c (State.updDma s t tag f) := by
  unfold State.updDma
  repeat' first
    | with_reducible assumption
    | with_reducible refine keeps_ite (fun _ => ?_) (fun _ => ?_)
    | with_reducible apply State.setTile_keeps
    | split
    | (intro; try intro)

theorem State.pantryTake_keeps {c : State} {s : State} {i : Nat} (hk : Keeps c s) : Keeps c (State.pantryTake s i) :=
    by
  unfold State.pantryTake
  repeat' first
    | with_reducible assumption
    | with_reducible refine keeps_ite (fun _ => ?_) (fun _ => ?_)
    | simp only [keeps_upd]
    | with_reducible apply State.setSlot_keeps
    | with_reducible apply State.pantryAlarm_keeps
    | split
    | (intro; try intro)

theorem State.pantryReady_keeps {c : State} {s : State} {i : Nat} (hk : Keeps c s) : Keeps c (State.pantryReady s i)
    := by
  unfold State.pantryReady
  repeat' first
    | with_reducible assumption
    | with_reducible refine keeps_ite (fun _ => ?_) (fun _ => ?_)
    | simp only [keeps_upd]
    | with_reducible apply State.setSlot_keeps
    | with_reducible apply State.pantryAlarm_keeps
    | with_reducible apply State.rephase_keeps
    | with_reducible apply State.updDma_keeps
    | with_reducible apply State.pantryTake_keeps
    | split
    | (intro; try intro)

theorem State.putInSlot_keeps {c : State} {s : State} {i : Nat} {x : Sample} {o : SlotOut} (hk : Keeps c s) : Keeps c
    (State.putInSlot s i x o) := by
  unfold State.putInSlot
  repeat' first
    | with_reducible assumption
    | with_reducible refine keeps_ite (fun _ => ?_) (fun _ => ?_)
    | simp only [keeps_upd]
    | with_reducible apply State.setSlot_keeps
    | with_reducible apply State.writeDram_keeps
    | with_reducible apply State.pantryReady_keeps
    | with_reducible apply State.addRg_keeps
    | split
    | (intro; try intro)

theorem State.landNext_keeps {c : State} {s : State} (hk : Keeps c s) : Keeps c (State.landNext s) := by
  unfold State.landNext
  repeat' first
    | with_reducible assumption
    | with_reducible refine keeps_ite (fun _ => ?_) (fun _ => ?_)
    | simp only [keeps_upd]
    | with_reducible apply State.putInSlot_keeps
    | split
    | (intro; try intro)

theorem State.landGo_keeps {c : State} {x0 : Nat} {x1 : State} (hk : Keeps c x1) : Keeps c (State.landGo x0 x1) := by
  induction x0 generalizing x1 with
  | zero =>
    try simp only [State.landGo]
    repeat' first
      | with_reducible assumption
      | with_reducible refine keeps_ite (fun _ => ?_) (fun _ => ?_)
      | with_reducible apply State.landNext_keeps
      | split
      | (intro; try intro)
  | succ k ih =>
    try simp only [State.landGo]
    repeat' first
      | with_reducible assumption
      | with_reducible refine keeps_ite (fun _ => ?_) (fun _ => ?_)
      | with_reducible apply ih
      | with_reducible apply State.landNext_keeps
      | split
      | (intro; try intro)

theorem State.landSlot_keeps {c : State} {s : State} {x : Sample} {o : SlotOut} (hk : Keeps c s) : Keeps c
    (State.landSlot s x o) := by
  unfold State.landSlot
  repeat' first
    | with_reducible assumption
    | with_reducible refine keeps_ite (fun _ => ?_) (fun _ => ?_)
    | simp only [keeps_upd]
    | with_reducible apply State.landNext_keeps
    | split
    | (intro; try intro)

theorem State.setStrm_keeps {c : State} {s : State} {st : Nat} {x : Stream} (hk : Keeps c s) : Keeps c (State.setStrm
    s st x) := by
  unfold State.setStrm
  repeat' first
    | with_reducible assumption
    | with_reducible refine keeps_ite (fun _ => ?_) (fun _ => ?_)
    | simp only [keeps_upd]
    | split
    | (intro; try intro)

theorem State.sendCredit_keeps {c : State} {s : State} {st : Nat} (hk : Keeps c s) : Keeps c (State.sendCredit s st)
    := by
  unfold State.sendCredit
  repeat' first
    | with_reducible assumption
    | with_reducible refine keeps_ite (fun _ => ?_) (fun _ => ?_)
    | simp only [keeps_upd]
    | with_reducible apply State.emit_keeps
    | with_reducible apply State.setStrm_keeps
    | split
    | (intro; try intro)

theorem State.setAllow_keeps {c : State} {s : State} {st : Nat} {v : Nat} (hk : Keeps c s) : Keeps c (State.setAllow s
    st v) := by
  unfold State.setAllow
  repeat' first
    | with_reducible assumption
    | with_reducible refine keeps_ite (fun _ => ?_) (fun _ => ?_)
    | with_reducible apply State.setStrm_keeps
    | with_reducible apply State.sendCredit_keeps
    | split
    | (intro; try intro)

theorem State.pantryFree_keeps {c : State} {s : State} {i : Nat} (hk : Keeps c s) : Keeps c (State.pantryFree s i) :=
    by
  unfold State.pantryFree
  repeat' first
    | with_reducible assumption
    | with_reducible refine keeps_ite (fun _ => ?_) (fun _ => ?_)
    | with_reducible apply State.setSlot_keeps
    | with_reducible apply State.landNext_keeps
    | with_reducible apply State.setAllow_keeps
    | split
    | (intro; try intro)

theorem State.readPantry_go_keeps {c : State} {req : Nat} {k : Nat} {s : State} {a : Nat} {n : Nat} (hk : Keeps c s) :
    Keeps c (State.readPantry.go req k s a n).2.2 := by
  induction k generalizing req s a n with
  | zero =>
    try simp only [State.readPantry.go]
    repeat' first
      | with_reducible assumption
      | with_reducible refine keeps_ite (fun _ => ?_) (fun _ => ?_)
      | with_reducible apply State.readDram_keeps
      | with_reducible apply State.reportX_keeps
      | split
      | (intro; try intro)
  | succ k ih =>
    try simp only [State.readPantry.go]
    repeat' first
      | with_reducible assumption
      | with_reducible refine keeps_ite (fun _ => ?_) (fun _ => ?_)
      | with_reducible apply ih
      | with_reducible apply State.readDram_keeps
      | with_reducible apply State.reportX_keeps
      | split
      | (intro; try intro)

theorem State.readPantry_keeps {c : State} {s : State} {req : Nat} {slot : Option Nat} {a : Nat} {n : Nat} (hk : Keeps
    c s) : Keeps c (State.readPantry s req slot a n).2.2 := by
  unfold State.readPantry
  repeat' first
    | with_reducible assumption
    | with_reducible refine keeps_ite (fun _ => ?_) (fun _ => ?_)
    | with_reducible apply State.readDram_keeps
    | with_reducible apply State.reportX_keeps
    | with_reducible apply State.readPantry_go_keeps
    | split
    | (intro; try intro)

end Sys2Proof.Machine
end

