-- ==== Sys2Proof/Laws/KeepsScalar.lean ====
section
/-! SUPPORT. Every operation of Scalar keeps the queue, the part, and the canonical forms. -/
set_option maxRecDepth 8000
namespace Sys2Proof.Machine

theorem aluOp_keeps {c : State} {i : Instr} {t : Nat} {gd : Reg} {ga : Reg} {gb : Reg} {op : Word → Word → Word} {s :
    State} (hk : Keeps c s) : KeepsO c (aluOp i t gd ga gb op s) := by
  unfold aluOp
  repeat' first
    | with_reducible assumption
    | with_reducible refine keeps_ite (fun _ => ?_) (fun _ => ?_)
    | with_reducible apply State.run_keeps
    | with_reducible apply doneG_keeps
    | split
    | (intro; try intro)

theorem jumpTo_keeps {c : State} {s : State} {a : Word} (hk : Keeps c s) : KeepsT c (jumpTo s a) := by
  unfold jumpTo
  repeat' first
    | with_reducible assumption
    | with_reducible refine keeps_ite (fun _ => ?_) (fun _ => ?_)
    | simp only [keepsT_goto, keepsT_trap]
    | split
    | (intro; try intro)

theorem branchOp_keeps {c : State} {i : Instr} {t : Nat} {ga : Reg} {gb : Reg} {off : BitVec 16} {cc : Word → Word →
    Bool} {s : State} (hk : Keeps c s) : KeepsO c (branchOp i t ga gb off cc s) := by
  unfold branchOp
  repeat' first
    | with_reducible assumption
    | with_reducible refine keeps_ite (fun _ => ?_) (fun _ => ?_)
    | simp only [keepsT_done]
    | with_reducible apply State.run_keeps
    | with_reducible apply jumpTo_keeps
    | split
    | (intro; try intro)

theorem execAdd_keeps {c : State} {t : Nat} {gd : Reg} {ga : Reg} {gb : Reg} {s : State} (hk : Keeps c s) : KeepsO c
    (execAdd t gd ga gb s) := by
  unfold execAdd
  repeat' first
    | with_reducible assumption
    | with_reducible refine keeps_ite (fun _ => ?_) (fun _ => ?_)
    | with_reducible apply aluOp_keeps
    | split
    | (intro; try intro)

theorem immOp_keeps {c : State} {i : Instr} {t : Nat} {gd : Reg} {ga : Reg} {op : Word → Word} {s : State} (hk : Keeps
    c s) : KeepsO c (immOp i t gd ga op s) := by
  unfold immOp
  repeat' first
    | with_reducible assumption
    | with_reducible refine keeps_ite (fun _ => ?_) (fun _ => ?_)
    | with_reducible apply State.run_keeps
    | with_reducible apply doneG_keeps
    | split
    | (intro; try intro)

theorem execAddi_keeps {c : State} {t : Nat} {gd : Reg} {ga : Reg} {imm : BitVec 16} {s : State} (hk : Keeps c s) :
    KeepsO c (execAddi t gd ga imm s) := by
  unfold execAddi
  repeat' first
    | with_reducible assumption
    | with_reducible refine keeps_ite (fun _ => ?_) (fun _ => ?_)
    | with_reducible apply immOp_keeps
    | split
    | (intro; try intro)

theorem execAnd_keeps {c : State} {t : Nat} {gd : Reg} {ga : Reg} {gb : Reg} {s : State} (hk : Keeps c s) : KeepsO c
    (execAnd t gd ga gb s) := by
  unfold execAnd
  repeat' first
    | with_reducible assumption
    | with_reducible refine keeps_ite (fun _ => ?_) (fun _ => ?_)
    | with_reducible apply aluOp_keeps
    | split
    | (intro; try intro)

theorem execAndi_keeps {c : State} {t : Nat} {gd : Reg} {ga : Reg} {imm : BitVec 16} {s : State} (hk : Keeps c s) :
    KeepsO c (execAndi t gd ga imm s) := by
  unfold execAndi
  repeat' first
    | with_reducible assumption
    | with_reducible refine keeps_ite (fun _ => ?_) (fun _ => ?_)
    | with_reducible apply immOp_keeps
    | split
    | (intro; try intro)

theorem execBeq_keeps {c : State} {t : Nat} {ga : Reg} {gb : Reg} {off : BitVec 16} {s : State} (hk : Keeps c s) :
    KeepsO c (execBeq t ga gb off s) := by
  unfold execBeq
  repeat' first
    | with_reducible assumption
    | with_reducible refine keeps_ite (fun _ => ?_) (fun _ => ?_)
    | with_reducible apply branchOp_keeps
    | split
    | (intro; try intro)

theorem execBge_keeps {c : State} {t : Nat} {ga : Reg} {gb : Reg} {off : BitVec 16} {s : State} (hk : Keeps c s) :
    KeepsO c (execBge t ga gb off s) := by
  unfold execBge
  repeat' first
    | with_reducible assumption
    | with_reducible refine keeps_ite (fun _ => ?_) (fun _ => ?_)
    | with_reducible apply branchOp_keeps
    | split
    | (intro; try intro)

theorem execBgeu_keeps {c : State} {t : Nat} {ga : Reg} {gb : Reg} {off : BitVec 16} {s : State} (hk : Keeps c s) :
    KeepsO c (execBgeu t ga gb off s) := by
  unfold execBgeu
  repeat' first
    | with_reducible assumption
    | with_reducible refine keeps_ite (fun _ => ?_) (fun _ => ?_)
    | with_reducible apply branchOp_keeps
    | split
    | (intro; try intro)

theorem execBlt_keeps {c : State} {t : Nat} {ga : Reg} {gb : Reg} {off : BitVec 16} {s : State} (hk : Keeps c s) :
    KeepsO c (execBlt t ga gb off s) := by
  unfold execBlt
  repeat' first
    | with_reducible assumption
    | with_reducible refine keeps_ite (fun _ => ?_) (fun _ => ?_)
    | with_reducible apply branchOp_keeps
    | split
    | (intro; try intro)

theorem execBltu_keeps {c : State} {t : Nat} {ga : Reg} {gb : Reg} {off : BitVec 16} {s : State} (hk : Keeps c s) :
    KeepsO c (execBltu t ga gb off s) := by
  unfold execBltu
  repeat' first
    | with_reducible assumption
    | with_reducible refine keeps_ite (fun _ => ?_) (fun _ => ?_)
    | with_reducible apply branchOp_keeps
    | split
    | (intro; try intro)

theorem execBne_keeps {c : State} {t : Nat} {ga : Reg} {gb : Reg} {off : BitVec 16} {s : State} (hk : Keeps c s) :
    KeepsO c (execBne t ga gb off s) := by
  unfold execBne
  repeat' first
    | with_reducible assumption
    | with_reducible refine keeps_ite (fun _ => ?_) (fun _ => ?_)
    | with_reducible apply branchOp_keeps
    | split
    | (intro; try intro)

theorem execClz_keeps {c : State} {t : Nat} {gd : Reg} {ga : Reg} {s : State} (hk : Keeps c s) : KeepsO c (execClz t
    gd ga s) := by
  unfold execClz
  repeat' first
    | with_reducible assumption
    | with_reducible refine keeps_ite (fun _ => ?_) (fun _ => ?_)
    | with_reducible apply immOp_keeps
    | split
    | (intro; try intro)

theorem execCtz_keeps {c : State} {t : Nat} {gd : Reg} {ga : Reg} {s : State} (hk : Keeps c s) : KeepsO c (execCtz t
    gd ga s) := by
  unfold execCtz
  repeat' first
    | with_reducible assumption
    | with_reducible refine keeps_ite (fun _ => ?_) (fun _ => ?_)
    | with_reducible apply immOp_keeps
    | split
    | (intro; try intro)

theorem execDiv_keeps {c : State} {t : Nat} {gd : Reg} {ga : Reg} {gb : Reg} {s : State} (hk : Keeps c s) : KeepsO c
    (execDiv t gd ga gb s) := by
  unfold execDiv
  repeat' first
    | with_reducible assumption
    | with_reducible refine keeps_ite (fun _ => ?_) (fun _ => ?_)
    | with_reducible apply aluOp_keeps
    | split
    | (intro; try intro)

theorem execDivu_keeps {c : State} {t : Nat} {gd : Reg} {ga : Reg} {gb : Reg} {s : State} (hk : Keeps c s) : KeepsO c
    (execDivu t gd ga gb s) := by
  unfold execDivu
  repeat' first
    | with_reducible assumption
    | with_reducible refine keeps_ite (fun _ => ?_) (fun _ => ?_)
    | with_reducible apply aluOp_keeps
    | split
    | (intro; try intro)

theorem execIllegalOpcode_keeps {c : State} {t : Nat} {w0 : BitVec 32} {w1 : BitVec 32} {s : State} (hk : Keeps c s) :
    KeepsO c (execIllegalOpcode t w0 w1 s) := by
  unfold execIllegalOpcode
  repeat' first
    | with_reducible assumption
    | with_reducible refine keeps_ite (fun _ => ?_) (fun _ => ?_)
    | simp only [keepsO_next, keepsT_trap]
    | with_reducible apply State.run_keeps
    | split
    | (intro; try intro)

theorem execJ_keeps {c : State} {t : Nat} {off : BitVec 26} {s : State} (hk : Keeps c s) : KeepsO c (execJ t off s) :=
    by
  unfold execJ
  repeat' first
    | with_reducible assumption
    | with_reducible refine keeps_ite (fun _ => ?_) (fun _ => ?_)
    | with_reducible apply State.run_keeps
    | with_reducible apply jumpTo_keeps
    | split
    | (intro; try intro)

theorem execJal_keeps {c : State} {t : Nat} {off : BitVec 26} {s : State} (hk : Keeps c s) : KeepsO c (execJal t off
    s) := by
  unfold execJal
  repeat' first
    | with_reducible assumption
    | with_reducible refine keeps_ite (fun _ => ?_) (fun _ => ?_)
    | with_reducible apply State.run_keeps
    | with_reducible apply jumpTo_keeps
    | with_reducible apply State.setG_keeps
    | split
    | (intro; try intro)

theorem execJr_keeps {c : State} {t : Nat} {gd : Reg} {ga : Reg} {s : State} (hk : Keeps c s) : KeepsO c (execJr t gd
    ga s) := by
  unfold execJr
  repeat' first
    | with_reducible assumption
    | with_reducible refine keeps_ite (fun _ => ?_) (fun _ => ?_)
    | simp only [keepsT_goto, keepsT_trap]
    | with_reducible apply State.run_keeps
    | with_reducible apply State.setG_keeps
    | split
    | (intro; try intro)

theorem execLi_keeps {c : State} {t : Nat} {gd : Reg} {imm : BitVec 16} {s : State} (hk : Keeps c s) : KeepsO c
    (execLi t gd imm s) := by
  unfold execLi
  repeat' first
    | with_reducible assumption
    | with_reducible refine keeps_ite (fun _ => ?_) (fun _ => ?_)
    | with_reducible apply immOp_keeps
    | split
    | (intro; try intro)

theorem execMax_keeps {c : State} {t : Nat} {gd : Reg} {ga : Reg} {gb : Reg} {s : State} (hk : Keeps c s) : KeepsO c
    (execMax t gd ga gb s) := by
  unfold execMax
  repeat' first
    | with_reducible assumption
    | with_reducible refine keeps_ite (fun _ => ?_) (fun _ => ?_)
    | with_reducible apply aluOp_keeps
    | split
    | (intro; try intro)

theorem execMaxu_keeps {c : State} {t : Nat} {gd : Reg} {ga : Reg} {gb : Reg} {s : State} (hk : Keeps c s) : KeepsO c
    (execMaxu t gd ga gb s) := by
  unfold execMaxu
  repeat' first
    | with_reducible assumption
    | with_reducible refine keeps_ite (fun _ => ?_) (fun _ => ?_)
    | with_reducible apply aluOp_keeps
    | split
    | (intro; try intro)

theorem execMin_keeps {c : State} {t : Nat} {gd : Reg} {ga : Reg} {gb : Reg} {s : State} (hk : Keeps c s) : KeepsO c
    (execMin t gd ga gb s) := by
  unfold execMin
  repeat' first
    | with_reducible assumption
    | with_reducible refine keeps_ite (fun _ => ?_) (fun _ => ?_)
    | with_reducible apply aluOp_keeps
    | split
    | (intro; try intro)

theorem execMinu_keeps {c : State} {t : Nat} {gd : Reg} {ga : Reg} {gb : Reg} {s : State} (hk : Keeps c s) : KeepsO c
    (execMinu t gd ga gb s) := by
  unfold execMinu
  repeat' first
    | with_reducible assumption
    | with_reducible refine keeps_ite (fun _ => ?_) (fun _ => ?_)
    | with_reducible apply aluOp_keeps
    | split
    | (intro; try intro)

theorem execMul_keeps {c : State} {t : Nat} {gd : Reg} {ga : Reg} {gb : Reg} {s : State} (hk : Keeps c s) : KeepsO c
    (execMul t gd ga gb s) := by
  unfold execMul
  repeat' first
    | with_reducible assumption
    | with_reducible refine keeps_ite (fun _ => ?_) (fun _ => ?_)
    | with_reducible apply aluOp_keeps
    | split
    | (intro; try intro)

theorem execMulh_keeps {c : State} {t : Nat} {gd : Reg} {ga : Reg} {gb : Reg} {s : State} (hk : Keeps c s) : KeepsO c
    (execMulh t gd ga gb s) := by
  unfold execMulh
  repeat' first
    | with_reducible assumption
    | with_reducible refine keeps_ite (fun _ => ?_) (fun _ => ?_)
    | with_reducible apply aluOp_keeps
    | split
    | (intro; try intro)

theorem execMulhu_keeps {c : State} {t : Nat} {gd : Reg} {ga : Reg} {gb : Reg} {s : State} (hk : Keeps c s) : KeepsO c
    (execMulhu t gd ga gb s) := by
  unfold execMulhu
  repeat' first
    | with_reducible assumption
    | with_reducible refine keeps_ite (fun _ => ?_) (fun _ => ?_)
    | with_reducible apply aluOp_keeps
    | split
    | (intro; try intro)

theorem execOr_keeps {c : State} {t : Nat} {gd : Reg} {ga : Reg} {gb : Reg} {s : State} (hk : Keeps c s) : KeepsO c
    (execOr t gd ga gb s) := by
  unfold execOr
  repeat' first
    | with_reducible assumption
    | with_reducible refine keeps_ite (fun _ => ?_) (fun _ => ?_)
    | with_reducible apply aluOp_keeps
    | split
    | (intro; try intro)

theorem execOri_keeps {c : State} {t : Nat} {gd : Reg} {ga : Reg} {imm : BitVec 16} {s : State} (hk : Keeps c s) :
    KeepsO c (execOri t gd ga imm s) := by
  unfold execOri
  repeat' first
    | with_reducible assumption
    | with_reducible refine keeps_ite (fun _ => ?_) (fun _ => ?_)
    | with_reducible apply immOp_keeps
    | split
    | (intro; try intro)

theorem execPopc_keeps {c : State} {t : Nat} {gd : Reg} {ga : Reg} {s : State} (hk : Keeps c s) : KeepsO c (execPopc t
    gd ga s) := by
  unfold execPopc
  repeat' first
    | with_reducible assumption
    | with_reducible refine keeps_ite (fun _ => ?_) (fun _ => ?_)
    | with_reducible apply immOp_keeps
    | split
    | (intro; try intro)

theorem execRem_keeps {c : State} {t : Nat} {gd : Reg} {ga : Reg} {gb : Reg} {s : State} (hk : Keeps c s) : KeepsO c
    (execRem t gd ga gb s) := by
  unfold execRem
  repeat' first
    | with_reducible assumption
    | with_reducible refine keeps_ite (fun _ => ?_) (fun _ => ?_)
    | with_reducible apply aluOp_keeps
    | split
    | (intro; try intro)

theorem execRemu_keeps {c : State} {t : Nat} {gd : Reg} {ga : Reg} {gb : Reg} {s : State} (hk : Keeps c s) : KeepsO c
    (execRemu t gd ga gb s) := by
  unfold execRemu
  repeat' first
    | with_reducible assumption
    | with_reducible refine keeps_ite (fun _ => ?_) (fun _ => ?_)
    | with_reducible apply aluOp_keeps
    | split
    | (intro; try intro)

theorem execShori_keeps {c : State} {t : Nat} {gd : Reg} {ga : Reg} {imm : BitVec 16} {s : State} (hk : Keeps c s) :
    KeepsO c (execShori t gd ga imm s) := by
  unfold execShori
  repeat' first
    | with_reducible assumption
    | with_reducible refine keeps_ite (fun _ => ?_) (fun _ => ?_)
    | with_reducible apply immOp_keeps
    | split
    | (intro; try intro)

theorem execSll_keeps {c : State} {t : Nat} {gd : Reg} {ga : Reg} {gb : Reg} {s : State} (hk : Keeps c s) : KeepsO c
    (execSll t gd ga gb s) := by
  unfold execSll
  repeat' first
    | with_reducible assumption
    | with_reducible refine keeps_ite (fun _ => ?_) (fun _ => ?_)
    | with_reducible apply aluOp_keeps
    | split
    | (intro; try intro)

theorem execSlli_keeps {c : State} {t : Nat} {gd : Reg} {ga : Reg} {sh : BitVec 6} {s : State} (hk : Keeps c s) :
    KeepsO c (execSlli t gd ga sh s) := by
  unfold execSlli
  repeat' first
    | with_reducible assumption
    | with_reducible refine keeps_ite (fun _ => ?_) (fun _ => ?_)
    | with_reducible apply immOp_keeps
    | split
    | (intro; try intro)

theorem execSlt_keeps {c : State} {t : Nat} {gd : Reg} {ga : Reg} {gb : Reg} {s : State} (hk : Keeps c s) : KeepsO c
    (execSlt t gd ga gb s) := by
  unfold execSlt
  repeat' first
    | with_reducible assumption
    | with_reducible refine keeps_ite (fun _ => ?_) (fun _ => ?_)
    | with_reducible apply aluOp_keeps
    | split
    | (intro; try intro)

theorem execSlti_keeps {c : State} {t : Nat} {gd : Reg} {ga : Reg} {imm : BitVec 16} {s : State} (hk : Keeps c s) :
    KeepsO c (execSlti t gd ga imm s) := by
  unfold execSlti
  repeat' first
    | with_reducible assumption
    | with_reducible refine keeps_ite (fun _ => ?_) (fun _ => ?_)
    | with_reducible apply immOp_keeps
    | split
    | (intro; try intro)

theorem execSltiu_keeps {c : State} {t : Nat} {gd : Reg} {ga : Reg} {imm : BitVec 16} {s : State} (hk : Keeps c s) :
    KeepsO c (execSltiu t gd ga imm s) := by
  unfold execSltiu
  repeat' first
    | with_reducible assumption
    | with_reducible refine keeps_ite (fun _ => ?_) (fun _ => ?_)
    | with_reducible apply immOp_keeps
    | split
    | (intro; try intro)

theorem execSltu_keeps {c : State} {t : Nat} {gd : Reg} {ga : Reg} {gb : Reg} {s : State} (hk : Keeps c s) : KeepsO c
    (execSltu t gd ga gb s) := by
  unfold execSltu
  repeat' first
    | with_reducible assumption
    | with_reducible refine keeps_ite (fun _ => ?_) (fun _ => ?_)
    | with_reducible apply aluOp_keeps
    | split
    | (intro; try intro)

theorem execSra_keeps {c : State} {t : Nat} {gd : Reg} {ga : Reg} {gb : Reg} {s : State} (hk : Keeps c s) : KeepsO c
    (execSra t gd ga gb s) := by
  unfold execSra
  repeat' first
    | with_reducible assumption
    | with_reducible refine keeps_ite (fun _ => ?_) (fun _ => ?_)
    | with_reducible apply aluOp_keeps
    | split
    | (intro; try intro)

theorem execSrai_keeps {c : State} {t : Nat} {gd : Reg} {ga : Reg} {sh : BitVec 6} {s : State} (hk : Keeps c s) :
    KeepsO c (execSrai t gd ga sh s) := by
  unfold execSrai
  repeat' first
    | with_reducible assumption
    | with_reducible refine keeps_ite (fun _ => ?_) (fun _ => ?_)
    | with_reducible apply immOp_keeps
    | split
    | (intro; try intro)

theorem execSrl_keeps {c : State} {t : Nat} {gd : Reg} {ga : Reg} {gb : Reg} {s : State} (hk : Keeps c s) : KeepsO c
    (execSrl t gd ga gb s) := by
  unfold execSrl
  repeat' first
    | with_reducible assumption
    | with_reducible refine keeps_ite (fun _ => ?_) (fun _ => ?_)
    | with_reducible apply aluOp_keeps
    | split
    | (intro; try intro)

theorem execSrli_keeps {c : State} {t : Nat} {gd : Reg} {ga : Reg} {sh : BitVec 6} {s : State} (hk : Keeps c s) :
    KeepsO c (execSrli t gd ga sh s) := by
  unfold execSrli
  repeat' first
    | with_reducible assumption
    | with_reducible refine keeps_ite (fun _ => ?_) (fun _ => ?_)
    | with_reducible apply immOp_keeps
    | split
    | (intro; try intro)

theorem execSub_keeps {c : State} {t : Nat} {gd : Reg} {ga : Reg} {gb : Reg} {s : State} (hk : Keeps c s) : KeepsO c
    (execSub t gd ga gb s) := by
  unfold execSub
  repeat' first
    | with_reducible assumption
    | with_reducible refine keeps_ite (fun _ => ?_) (fun _ => ?_)
    | with_reducible apply aluOp_keeps
    | split
    | (intro; try intro)

theorem execXor_keeps {c : State} {t : Nat} {gd : Reg} {ga : Reg} {gb : Reg} {s : State} (hk : Keeps c s) : KeepsO c
    (execXor t gd ga gb s) := by
  unfold execXor
  repeat' first
    | with_reducible assumption
    | with_reducible refine keeps_ite (fun _ => ?_) (fun _ => ?_)
    | with_reducible apply aluOp_keeps
    | split
    | (intro; try intro)

theorem execXori_keeps {c : State} {t : Nat} {gd : Reg} {ga : Reg} {imm : BitVec 16} {s : State} (hk : Keeps c s) :
    KeepsO c (execXori t gd ga imm s) := by
  unfold execXori
  repeat' first
    | with_reducible assumption
    | with_reducible refine keeps_ite (fun _ => ?_) (fun _ => ?_)
    | with_reducible apply immOp_keeps
    | split
    | (intro; try intro)

end Sys2Proof.Machine
end

