-- ==== Sys2Proof/Laws/KeepsL1.lean ====
section
/-! SUPPORT. Every operation of L1 keeps the queue, the part, and the canonical forms. -/
set_option maxRecDepth 8000
namespace Sys2Proof.Machine

theorem State.writeBack_keeps {c : State} {s : State} {t : Nat} {l : L1Line} (hk : Keeps c s) : Keeps c
    (State.writeBack s t l) := by
  unfold State.writeBack
  repeat' first
    | with_reducible assumption
    | with_reducible refine keeps_ite (fun _ => ?_) (fun _ => ?_)
    | with_reducible apply State.chargeNet_keeps
    | with_reducible apply State.writeCw_keeps
    | split
    | (intro; try intro)

theorem State.cacheOp_keeps {c : State} {s : State} {t : Nat} {a : Nat} {n : Nat} {wb : Bool} {inv : Bool} (hk : Keeps
    c s) : Keeps c (State.cacheOp s t a n wb inv) := by
  unfold State.cacheOp
  repeat' first
    | with_reducible assumption
    | with_reducible refine keeps_ite (fun _ => ?_) (fun _ => ?_)
    | with_reducible apply State.writeBack_keeps
    | with_reducible apply State.setTile_keeps
    | with_reducible refine keeps_foldl (fun _ _ _ => ?_) ?_
    | split
    | (intro; try intro)

theorem State.l1Place_keeps {c : State} {s : State} {t : Nat} {l : L1Line} (hk : Keeps c s) : Keeps c (State.l1Place s
    t l) := by
  unfold State.l1Place
  repeat' first
    | with_reducible assumption
    | with_reducible refine keeps_ite (fun _ => ?_) (fun _ => ?_)
    | simp only [keeps_upd]
    | with_reducible apply State.setTile_keeps
    | with_reducible apply State.writeBack_keeps
    | split
    | (intro; try intro)

theorem State.l1FillNow_keeps {c : State} {s : State} {t : Nat} {line : Nat} {pf : Bool} (hk : Keeps c s) : Keeps c
    (State.l1FillNow s t line pf) := by
  unfold State.l1FillNow
  repeat' first
    | with_reducible assumption
    | with_reducible refine keeps_ite (fun _ => ?_) (fun _ => ?_)
    | with_reducible apply State.readDram_keeps
    | with_reducible apply State.chargeNet_keeps
    | with_reducible apply State.setTile_keeps
    | with_reducible apply State.l1Place_keeps
    | split
    | (intro; try intro)

theorem State.l1Flush_keeps {c : State} {s : State} {t : Nat} (hk : Keeps c s) : Keeps c (State.l1Flush s t) := by
  unfold State.l1Flush
  repeat' first
    | with_reducible assumption
    | with_reducible refine keeps_ite (fun _ => ?_) (fun _ => ?_)
    | with_reducible apply State.writeBack_keeps
    | with_reducible apply State.setTile_keeps
    | with_reducible refine keeps_foldl (fun _ _ _ => ?_) ?_
    | split
    | (intro; try intro)

theorem State.l1Gather_keeps {c : State} {s : State} {t : Nat} {a : Nat} (hk : Keeps c s) : Keeps c (State.l1Gather s
    t a).2 := by
  unfold State.l1Gather
  repeat' first
    | with_reducible assumption
    | with_reducible refine keeps_ite (fun _ => ?_) (fun _ => ?_)
    | simp only [keeps_upd]
    | with_reducible apply State.setTile_keeps
    | with_reducible apply State.l1FillNow_keeps
    | split
    | (intro; try intro)

theorem State.l1Load_keeps {c : State} {s : State} {t : Nat} {a : Nat} {n : Nat} {first : Bool} (hk : Keeps c s) :
    Keeps c (State.l1Load s t a n first).2 := by
  unfold State.l1Load
  repeat' first
    | with_reducible assumption
    | with_reducible refine keeps_ite (fun _ => ?_) (fun _ => ?_)
    | simp only [keeps_upd]
    | with_reducible apply State.setTile_keeps
    | split
    | (intro; try intro)

theorem State.l1Store_keeps {c : State} {s : State} {t : Nat} {a : Nat} {bs : List Byte} (hk : Keeps c s) : Keeps c
    (State.l1Store s t a bs) := by
  unfold State.l1Store
  repeat' first
    | with_reducible assumption
    | with_reducible refine keeps_ite (fun _ => ?_) (fun _ => ?_)
    | with_reducible apply State.l1Place_keeps
    | split
    | (intro; try intro)

theorem execL1LineFillComplete_keeps {c : State} {t : Nat} {line : Nat} {s : State} (hk : Keeps c s) : KeepsO c
    (execL1LineFillComplete t line s) := by
  unfold execL1LineFillComplete
  repeat' first
    | with_reducible assumption
    | with_reducible refine keeps_ite (fun _ => ?_) (fun _ => ?_)
    | simp only [keepsO_next]
    | with_reducible apply State.l1FillNow_keeps
    | split
    | (intro; try intro)

end Sys2Proof.Machine
end

