-- ==== Sys2Proof/Laws/KeepsLoadStore.lean ====
section
/-! SUPPORT. Every operation of LoadStore keeps the queue, the part, and the canonical forms. -/
set_option maxRecDepth 8000
namespace Sys2Proof.Machine

theorem State.checkLs_keeps {c : State} {s : State} {t : Nat} {ea : Word} {n : Nat} {k : Reach → TRes} (hk : Keeps c
    s) (hf : ∀ r, KeepsT c (k r)) : KeepsT c (State.checkLs s t ea n k) := by
  unfold State.checkLs
  repeat' first
    | with_reducible assumption
    | with_reducible refine keeps_ite (fun _ => ?_) (fun _ => ?_)
    | simp only [keepsT_trap]
    | with_reducible apply hf
    | split
    | (intro; try intro)

theorem cacheInstr_keeps {c : State} {i : Instr} {t : Nat} {ga : Reg} {gb : Reg} {wb : Bool} {inv : Bool} {s : State}
    (hk : Keeps c s) : KeepsO c (cacheInstr i t ga gb wb inv s) := by
  unfold cacheInstr
  repeat' first
    | with_reducible assumption
    | with_reducible refine keeps_ite (fun _ => ?_) (fun _ => ?_)
    | simp only [keepsT_done, keepsT_trap]
    | with_reducible apply State.run_keeps
    | with_reducible apply State.cacheOp_keeps
    | split
    | (intro; try intro)

theorem execCacheInv_keeps {c : State} {t : Nat} {ga : Reg} {gb : Reg} {s : State} (hk : Keeps c s) : KeepsO c
    (execCacheInv t ga gb s) := by
  unfold execCacheInv
  repeat' first
    | with_reducible assumption
    | with_reducible refine keeps_ite (fun _ => ?_) (fun _ => ?_)
    | with_reducible apply cacheInstr_keeps
    | split
    | (intro; try intro)

theorem execCacheWb_keeps {c : State} {t : Nat} {ga : Reg} {gb : Reg} {s : State} (hk : Keeps c s) : KeepsO c
    (execCacheWb t ga gb s) := by
  unfold execCacheWb
  repeat' first
    | with_reducible assumption
    | with_reducible refine keeps_ite (fun _ => ?_) (fun _ => ?_)
    | with_reducible apply cacheInstr_keeps
    | split
    | (intro; try intro)

theorem execCacheWbinv_keeps {c : State} {t : Nat} {ga : Reg} {gb : Reg} {s : State} (hk : Keeps c s) : KeepsO c
    (execCacheWbinv t ga gb s) := by
  unfold execCacheWbinv
  repeat' first
    | with_reducible assumption
    | with_reducible refine keeps_ite (fun _ => ?_) (fun _ => ?_)
    | with_reducible apply cacheInstr_keeps
    | split
    | (intro; try intro)

theorem execFence_keeps {c : State} {t : Nat} {fn : BitVec 9} {s : State} (hk : Keeps c s) : KeepsO c (execFence t fn
    s) := by
  unfold execFence
  repeat' first
    | with_reducible assumption
    | with_reducible refine keeps_ite (fun _ => ?_) (fun _ => ?_)
    | simp only [keepsT_done, keepsT_wait]
    | with_reducible apply State.run_keeps
    | split
    | (intro; try intro)

theorem loadOp_keeps {c : State} {i : Instr} {t : Nat} {gd : Reg} {ga : Reg} {imm : BitVec 16} {n : Nat} {ext : Nat →
    Word} {s : State} (hk : Keeps c s) : KeepsO c (loadOp i t gd ga imm n ext s) := by
  unfold loadOp
  repeat' first
    | with_reducible assumption
    | with_reducible refine keeps_ite (fun _ => ?_) (fun _ => ?_)
    | simp only [keepsT_wait]
    | with_reducible apply State.run_keeps
    | with_reducible apply State.l1Load_keeps
    | with_reducible apply doneG_keeps
    | with_reducible apply State.readSp_keeps
    | with_reducible apply State.chargeNet_keeps
    | with_reducible apply State.checkLs_keeps
    | split
    | (intro; try intro)

theorem execLdB_keeps {c : State} {t : Nat} {gd : Reg} {ga : Reg} {imm : BitVec 16} {s : State} (hk : Keeps c s) :
    KeepsO c (execLdB t gd ga imm s) := by
  unfold execLdB
  repeat' first
    | with_reducible assumption
    | with_reducible refine keeps_ite (fun _ => ?_) (fun _ => ?_)
    | with_reducible apply loadOp_keeps
    | split
    | (intro; try intro)

theorem execLdBu_keeps {c : State} {t : Nat} {gd : Reg} {ga : Reg} {imm : BitVec 16} {s : State} (hk : Keeps c s) :
    KeepsO c (execLdBu t gd ga imm s) := by
  unfold execLdBu
  repeat' first
    | with_reducible assumption
    | with_reducible refine keeps_ite (fun _ => ?_) (fun _ => ?_)
    | with_reducible apply loadOp_keeps
    | split
    | (intro; try intro)

theorem execLdD_keeps {c : State} {t : Nat} {gd : Reg} {ga : Reg} {imm : BitVec 16} {s : State} (hk : Keeps c s) :
    KeepsO c (execLdD t gd ga imm s) := by
  unfold execLdD
  repeat' first
    | with_reducible assumption
    | with_reducible refine keeps_ite (fun _ => ?_) (fun _ => ?_)
    | with_reducible apply loadOp_keeps
    | split
    | (intro; try intro)

theorem execLdH_keeps {c : State} {t : Nat} {gd : Reg} {ga : Reg} {imm : BitVec 16} {s : State} (hk : Keeps c s) :
    KeepsO c (execLdH t gd ga imm s) := by
  unfold execLdH
  repeat' first
    | with_reducible assumption
    | with_reducible refine keeps_ite (fun _ => ?_) (fun _ => ?_)
    | with_reducible apply loadOp_keeps
    | split
    | (intro; try intro)

theorem execLdHu_keeps {c : State} {t : Nat} {gd : Reg} {ga : Reg} {imm : BitVec 16} {s : State} (hk : Keeps c s) :
    KeepsO c (execLdHu t gd ga imm s) := by
  unfold execLdHu
  repeat' first
    | with_reducible assumption
    | with_reducible refine keeps_ite (fun _ => ?_) (fun _ => ?_)
    | with_reducible apply loadOp_keeps
    | split
    | (intro; try intro)

theorem execLdW_keeps {c : State} {t : Nat} {gd : Reg} {ga : Reg} {imm : BitVec 16} {s : State} (hk : Keeps c s) :
    KeepsO c (execLdW t gd ga imm s) := by
  unfold execLdW
  repeat' first
    | with_reducible assumption
    | with_reducible refine keeps_ite (fun _ => ?_) (fun _ => ?_)
    | with_reducible apply loadOp_keeps
    | split
    | (intro; try intro)

theorem execLdWu_keeps {c : State} {t : Nat} {gd : Reg} {ga : Reg} {imm : BitVec 16} {s : State} (hk : Keeps c s) :
    KeepsO c (execLdWu t gd ga imm s) := by
  unfold execLdWu
  repeat' first
    | with_reducible assumption
    | with_reducible refine keeps_ite (fun _ => ?_) (fun _ => ?_)
    | with_reducible apply loadOp_keeps
    | split
    | (intro; try intro)

theorem storeOp_keeps {c : State} {i : Instr} {t : Nat} {gd : Reg} {ga : Reg} {imm : BitVec 16} {n : Nat} {s : State}
    (hk : Keeps c s) : KeepsO c (storeOp i t gd ga imm n s) := by
  unfold storeOp
  repeat' first
    | with_reducible assumption
    | with_reducible refine keeps_ite (fun _ => ?_) (fun _ => ?_)
    | simp only [keepsT_done]
    | with_reducible apply State.run_keeps
    | with_reducible apply State.checkLs_keeps
    | with_reducible apply State.l1Store_keeps
    | with_reducible apply State.chargeNet_keeps
    | with_reducible apply State.writeSp_keeps
    | split
    | (intro; try intro)

theorem execStB_keeps {c : State} {t : Nat} {gd : Reg} {ga : Reg} {imm : BitVec 16} {s : State} (hk : Keeps c s) :
    KeepsO c (execStB t gd ga imm s) := by
  unfold execStB
  repeat' first
    | with_reducible assumption
    | with_reducible refine keeps_ite (fun _ => ?_) (fun _ => ?_)
    | with_reducible apply storeOp_keeps
    | split
    | (intro; try intro)

theorem execStD_keeps {c : State} {t : Nat} {gd : Reg} {ga : Reg} {imm : BitVec 16} {s : State} (hk : Keeps c s) :
    KeepsO c (execStD t gd ga imm s) := by
  unfold execStD
  repeat' first
    | with_reducible assumption
    | with_reducible refine keeps_ite (fun _ => ?_) (fun _ => ?_)
    | with_reducible apply storeOp_keeps
    | split
    | (intro; try intro)

theorem execStH_keeps {c : State} {t : Nat} {gd : Reg} {ga : Reg} {imm : BitVec 16} {s : State} (hk : Keeps c s) :
    KeepsO c (execStH t gd ga imm s) := by
  unfold execStH
  repeat' first
    | with_reducible assumption
    | with_reducible refine keeps_ite (fun _ => ?_) (fun _ => ?_)
    | with_reducible apply storeOp_keeps
    | split
    | (intro; try intro)

theorem execStW_keeps {c : State} {t : Nat} {gd : Reg} {ga : Reg} {imm : BitVec 16} {s : State} (hk : Keeps c s) :
    KeepsO c (execStW t gd ga imm s) := by
  unfold execStW
  repeat' first
    | with_reducible assumption
    | with_reducible refine keeps_ite (fun _ => ?_) (fun _ => ?_)
    | with_reducible apply storeOp_keeps
    | split
    | (intro; try intro)

end Sys2Proof.Machine
end

