-- ==== Sys2Proof/Laws/KeepsMma.lean ====
section
/-! SUPPORT. Every operation of Mma keeps the queue, the part, and the canonical forms. -/
set_option maxRecDepth 8000
namespace Sys2Proof.Machine

theorem State.debugEffect_keeps {c : State} {s : State} {t : Nat} {o : MmaOp} {cs : List Chain} (hk : Keeps c s) :
    Keeps c (State.debugEffect s t o cs) := by
  unfold State.debugEffect
  repeat' first
    | with_reducible assumption
    | with_reducible refine keeps_ite (fun _ => ?_) (fun _ => ?_)
    | with_reducible apply State.writeSp_keeps
    | split
    | (intro; try intro)

theorem State.repeatChain_keeps {c : State} {s : State} {t : Nat} {cc : Chain} {shift : Nat} (hk : Keeps c s) : Keeps
    c (State.repeatChain s t cc shift) := by
  unfold State.repeatChain
  repeat' first
    | with_reducible assumption
    | with_reducible refine keeps_ite (fun _ => ?_) (fun _ => ?_)
    | with_reducible apply State.meetBytes_keeps
    | with_reducible apply State.setTile_keeps
    | with_reducible refine keeps_foldl (fun _ _ _ => ?_) ?_
    | split
    | (intro; try intro)

theorem State.repeatLoop_keeps {c : State} {t : Nat} {cs : List Chain} {x2 : Nat} {x3 : State} {x4 : Nat} (hk : Keeps
    c x3) : Keeps c (State.repeatLoop t cs x2 x3 x4).1 := by
  induction x2 generalizing t cs x3 x4 with
  | zero =>
    try simp only [State.repeatLoop]
    repeat' first
      | with_reducible assumption
      | with_reducible refine keeps_ite (fun _ => ?_) (fun _ => ?_)
      | with_reducible apply State.repeatChain_keeps
      | with_reducible refine keeps_foldl (fun _ _ _ => ?_) ?_
      | split
      | (intro; try intro)
  | succ k ih =>
    try simp only [State.repeatLoop]
    repeat' first
      | with_reducible assumption
      | with_reducible refine keeps_ite (fun _ => ?_) (fun _ => ?_)
      | with_reducible apply ih
      | with_reducible apply State.repeatChain_keeps
      | with_reducible refine keeps_foldl (fun _ _ _ => ?_) ?_
      | split
      | (intro; try intro)

theorem State.drainRows_keeps {c : State} {s : State} {o : MmaOp} {n : Nat} {es : List (Nat × Bool)} (hk : Keeps c s)
    : Keeps c (State.drainRows s o n es) := by
  unfold State.drainRows
  repeat' first
    | with_reducible assumption
    | with_reducible refine keeps_ite (fun _ => ?_) (fun _ => ?_)
    | with_reducible apply State.writeSp_keeps
    | with_reducible refine keeps_foldl (fun _ _ _ => ?_) ?_
    | split
    | (intro; try intro)

theorem State.drainEffect_keeps {c : State} {s : State} {t : Nat} {o : MmaOp} {cs : List Chain} (hk : Keeps c s) :
    Keeps c (State.drainEffect s t o cs) := by
  unfold State.drainEffect
  repeat' first
    | with_reducible assumption
    | with_reducible refine keeps_ite (fun _ => ?_) (fun _ => ?_)
    | with_reducible apply State.repeatLoop_keeps
    | with_reducible apply State.drainRows_keeps
    | with_reducible apply State.setTile_keeps
    | with_reducible apply State.writeSp_keeps
    | with_reducible apply State.tileReportX_keeps
    | split
    | (intro; try intro)

theorem State.loadEffect_keeps {c : State} {s : State} {t : Nat} {o : MmaOp} {cs : List Chain} (hk : Keeps c s) :
    Keeps c (State.loadEffect s t o cs) := by
  unfold State.loadEffect
  repeat' first
    | with_reducible assumption
    | with_reducible refine keeps_ite (fun _ => ?_) (fun _ => ?_)
    | with_reducible apply State.setTile_keeps
    | split
    | (intro; try intro)

theorem State.mmaAccept_keeps {c : State} {s : State} {t : Nat} {o : MmaOp} {as : List Nat} {f : MArr → MArr} (hk :
    Keeps c s) : Keeps c (State.mmaAccept s t o as f) := by
  unfold State.mmaAccept
  repeat' first
    | with_reducible assumption
    | with_reducible refine keeps_ite (fun _ => ?_) (fun _ => ?_)
    | with_reducible apply State.setTile_keeps
    | split
    | (intro; try intro)

theorem State.mmaComplete_keeps {c : State} {s : State} {t : Nat} {i : Nat} {kind : MmaKind} {reads : MmaOp → List
    Chain → List (Nat × Nat)} {f : State → MmaOp → List Chain → State} (hk : Keeps c s) (hf : ∀ s a b, Keeps c s →
    Keeps c (f s a b)) : KeepsO c (State.mmaComplete s t i kind reads f) := by
  unfold State.mmaComplete
  repeat' first
    | with_reducible assumption
    | with_reducible refine keeps_ite (fun _ => ?_) (fun _ => ?_)
    | simp only [keepsO_next]
    | with_reducible apply State.setTile_keeps
    | with_reducible apply State.fillerSettle_keeps
    | with_reducible apply hf
    | split
    | (intro; try intro)

theorem State.streamEffect_keeps {c : State} {s : State} {t : Nat} {o : MmaOp} {cs : List Chain} (hk : Keeps c s) :
    Keeps c (State.streamEffect s t o cs) := by
  unfold State.streamEffect
  repeat' first
    | with_reducible assumption
    | with_reducible refine keeps_ite (fun _ => ?_) (fun _ => ?_)
    | with_reducible apply State.setTile_keeps
    | with_reducible refine keeps_foldl (fun _ _ _ => ?_) ?_
    | split
    | (intro; try intro)

theorem execArrayGate_keeps {c : State} {t : Nat} {a : Nat} {s : State} (hk : Keeps c s) : KeepsO c (execArrayGate t a
    s) := by
  unfold execArrayGate
  repeat' first
    | with_reducible assumption
    | with_reducible refine keeps_ite (fun _ => ?_) (fun _ => ?_)
    | simp only [keepsO_next]
    | with_reducible apply State.setTile_keeps
    | split
    | (intro; try intro)

theorem mmaOperand_keeps {c : State} {m : BitVec 32} : KeepsT c (mmaOperand m) := by
  unfold mmaOperand
  repeat' first
    | with_reducible assumption
    | with_reducible refine keeps_ite (fun _ => ?_) (fun _ => ?_)
    | simp only [keepsT_trap]
    | split
    | (intro; try intro)

theorem mmaStart_keeps {c : State} {s : State} {t : Nat} {xop : Nat} {gd : Reg} {ga : Reg} {gb : Reg} {gc : Reg} {m :
    BitVec 32} {k : List Chain → TRes} (hk : Keeps c s) (hf : ∀ a, KeepsT c (k a)) : KeepsT c (mmaStart s t xop gd ga
    gb gc m k) := by
  unfold mmaStart
  repeat' first
    | with_reducible assumption
    | with_reducible refine keeps_ite (fun _ => ?_) (fun _ => ?_)
    | simp only [keepsT_trap, keepsT_wait]
    | with_reducible apply mmaOperand_keeps
    | with_reducible apply hf
    | split
    | (intro; try intro)

theorem execMmaDrain_keeps {c : State} {t : Nat} {ga : Reg} {gb : Reg} {gc : Reg} {mod : BitVec 32} {s : State} (hk :
    Keeps c s) : KeepsO c (execMmaDrain t ga gb gc mod s) := by
  unfold execMmaDrain
  repeat' first
    | with_reducible assumption
    | with_reducible refine keeps_ite (fun _ => ?_) (fun _ => ?_)
    | simp only [keepsT_done, keepsT_trap]
    | with_reducible apply State.run_keeps
    | with_reducible apply mmaStart_keeps
    | with_reducible apply mmaOperand_keeps
    | with_reducible apply State.mmaAccept_keeps
    | with_reducible apply State.setTile_keeps
    | split
    | (intro; try intro)

theorem execMmaDrainComplete_keeps {c : State} {t : Nat} {i : Nat} {s : State} (hk : Keeps c s) : KeepsO c
    (execMmaDrainComplete t i s) := by
  unfold execMmaDrainComplete
  repeat' first
    | with_reducible assumption
    | with_reducible refine keeps_ite (fun _ => ?_) (fun _ => ?_)
    | with_reducible apply State.mmaComplete_keeps
    | with_reducible apply State.debugEffect_keeps
    | with_reducible apply State.drainEffect_keeps
    | split
    | (intro; try intro)

theorem execMmaDrainDbg_keeps {c : State} {t : Nat} {ga : Reg} {mod : BitVec 32} {s : State} (hk : Keeps c s) : KeepsO
    c (execMmaDrainDbg t ga mod s) := by
  unfold execMmaDrainDbg
  repeat' first
    | with_reducible assumption
    | with_reducible refine keeps_ite (fun _ => ?_) (fun _ => ?_)
    | simp only [keepsT_done, keepsT_trap]
    | with_reducible apply State.run_keeps
    | with_reducible apply mmaOperand_keeps
    | with_reducible apply mmaStart_keeps
    | with_reducible apply State.mmaAccept_keeps
    | split
    | (intro; try intro)

theorem execMmaLoad_keeps {c : State} {t : Nat} {ga : Reg} {gb : Reg} {gc : Reg} {mod : BitVec 32} {s : State} (hk :
    Keeps c s) : KeepsO c (execMmaLoad t ga gb gc mod s) := by
  unfold execMmaLoad
  repeat' first
    | with_reducible assumption
    | with_reducible refine keeps_ite (fun _ => ?_) (fun _ => ?_)
    | simp only [keepsT_done, keepsT_trap]
    | with_reducible apply State.run_keeps
    | with_reducible apply mmaStart_keeps
    | with_reducible apply mmaOperand_keeps
    | with_reducible apply State.mmaAccept_keeps
    | split
    | (intro; try intro)

theorem execMmaLoadComplete_keeps {c : State} {t : Nat} {i : Nat} {s : State} (hk : Keeps c s) : KeepsO c
    (execMmaLoadComplete t i s) := by
  unfold execMmaLoadComplete
  repeat' first
    | with_reducible assumption
    | with_reducible refine keeps_ite (fun _ => ?_) (fun _ => ?_)
    | with_reducible apply State.mmaComplete_keeps
    | with_reducible apply State.loadEffect_keeps
    | with_reducible apply State.meetBytes_keeps
    | split
    | (intro; try intro)

theorem execMmaStream_keeps {c : State} {t : Nat} {gd : Reg} {ga : Reg} {gb : Reg} {gc : Reg} {mod : BitVec 32} {s :
    State} (hk : Keeps c s) : KeepsO c (execMmaStream t gd ga gb gc mod s) := by
  unfold execMmaStream
  repeat' first
    | with_reducible assumption
    | with_reducible refine keeps_ite (fun _ => ?_) (fun _ => ?_)
    | simp only [keepsT_done, keepsT_trap]
    | with_reducible apply State.run_keeps
    | with_reducible apply mmaStart_keeps
    | with_reducible apply mmaOperand_keeps
    | with_reducible apply State.mmaAccept_keeps
    | split
    | (intro; try intro)

theorem execMmaStreamComplete_keeps {c : State} {t : Nat} {i : Nat} {s : State} (hk : Keeps c s) : KeepsO c
    (execMmaStreamComplete t i s) := by
  unfold execMmaStreamComplete
  repeat' first
    | with_reducible assumption
    | with_reducible refine keeps_ite (fun _ => ?_) (fun _ => ?_)
    | with_reducible apply State.mmaComplete_keeps
    | with_reducible apply State.streamEffect_keeps
    | with_reducible apply State.meetBytes_keeps
    | split
    | (intro; try intro)

end Sys2Proof.Machine
end

