-- ==== Sys2Proof/Laws/KeepsDma.lean ====
section
/-! SUPPORT. Every operation of Dma keeps the queue, the part, and the canonical forms. -/
set_option maxRecDepth 8000
namespace Sys2Proof.Machine

theorem State.blur_keeps {c : State} {s : State} {d : Dma} {a : Nat} {bs : List (Option Byte)} (hk : Keeps c s) :
    Keeps c (State.blur s d a bs).2 := by
  unfold State.blur
  repeat' first
    | with_reducible assumption
    | with_reducible refine keeps_ite (fun _ => ?_) (fun _ => ?_)
    | simp only [keeps_upd]
    | split
    | (intro; try intro)

theorem State.freeTagOf_keeps {c : State} {s : State} {t : Nat} {g : Nat} (hk : Keeps c s) : Keeps c (State.freeTagOf
    s t g) := by
  unfold State.freeTagOf
  repeat' first
    | with_reducible assumption
    | with_reducible refine keeps_ite (fun _ => ?_) (fun _ => ?_)
    | simp only [keeps_upd]
    | with_reducible apply State.setTile_keeps
    | split
    | (intro; try intro)

theorem State.pantryAsk_keeps {c : State} {s : State} {t : Nat} {x : DmaXfer} (hk : Keeps c s) : Keeps c
    (State.pantryAsk s t x) := by
  unfold State.pantryAsk
  repeat' first
    | with_reducible assumption
    | with_reducible refine keeps_ite (fun _ => ?_) (fun _ => ?_)
    | simp only [keeps_upd]
    | with_reducible apply State.updDma_keeps
    | with_reducible apply State.addRg_keeps
    | with_reducible apply State.pantryTake_keeps
    | split
    | (intro; try intro)

theorem State.dmaKick_keeps {c : State} {s : State} {t : Nat} (hk : Keeps c s) : Keeps c (State.dmaKick s t) := by
  unfold State.dmaKick
  repeat' first
    | with_reducible assumption
    | with_reducible refine keeps_ite (fun _ => ?_) (fun _ => ?_)
    | simp only [keeps_upd]
    | with_reducible apply State.pantryAsk_keeps
    | with_reducible apply State.updDma_keeps
    | with_reducible refine keeps_foldl (fun _ _ _ => ?_) ?_
    | split
    | (intro; try intro)

theorem State.dmaFinish_keeps {c : State} {s : State} {t : Nat} {tag : Nat} {w : Word} (hk : Keeps c s) : Keeps c
    (State.dmaFinish s t tag w) := by
  unfold State.dmaFinish
  repeat' first
    | with_reducible assumption
    | with_reducible refine keeps_ite (fun _ => ?_) (fun _ => ?_)
    | with_reducible apply State.updDma_keeps
    | with_reducible apply State.freeTagOf_keeps
    | with_reducible apply State.fillerSettle_keeps
    | with_reducible apply State.dmaKick_keeps
    | split
    | (intro; try intro)

theorem State.dmaNet_keeps {c : State} {s : State} {t : Nat} {req : Nat} {d : Dma} (hk : Keeps c s) : Keeps c
    (State.dmaNet s t req d) := by
  unfold State.dmaNet
  repeat' first
    | with_reducible assumption
    | with_reducible refine keeps_ite (fun _ => ?_) (fun _ => ?_)
    | with_reducible apply State.chargeNet_keeps
    | split
    | (intro; try intro)

theorem State.dmaPut_keeps {c : State} {s : State} {req : Nat} {d : Dma} {row : Int × List (Option Byte) × Int × List
    (Option Byte)} (hk : Keeps c s) : Keeps c (State.dmaPut s req d row) := by
  unfold State.dmaPut
  repeat' first
    | with_reducible assumption
    | with_reducible refine keeps_ite (fun _ => ?_) (fun _ => ?_)
    | with_reducible apply State.blur_keeps
    | with_reducible apply State.writeAny_keeps
    | split
    | (intro; try intro)

theorem State.dmaRead_keeps {c : State} {s : State} {req : Nat} {slot : Option Nat} {bad : List Nat} {a : Nat} {n :
    Nat} (hk : Keeps c s) : Keeps c (State.dmaRead s req slot bad a n).2 := by
  unfold State.dmaRead
  repeat' first
    | with_reducible assumption
    | with_reducible refine keeps_ite (fun _ => ?_) (fun _ => ?_)
    | with_reducible apply State.readPantry_keeps
    | with_reducible apply State.readDram_keeps
    | with_reducible apply State.readSpDma_keeps
    | split
    | (intro; try intro)

theorem State.dmaRow_keeps {c : State} {s : State} {req : Nat} {slot : Option Nat} {bad : List Nat} {d : Dma} {run :
    DmaRun} {i : Nat} {j : Nat} (hk : Keeps c s) : Keeps c (State.dmaRow s req slot bad d run i j).2 := by
  unfold State.dmaRow
  repeat' first
    | with_reducible assumption
    | with_reducible refine keeps_ite (fun _ => ?_) (fun _ => ?_)
    | with_reducible apply State.dmaRead_keeps
    | split
    | (intro; try intro)

theorem State.dmaRows_keeps {c : State} {s : State} {req : Nat} {slot : Option Nat} {d : Dma} (hk : Keeps c s) : Keeps
    c (State.dmaRows s req slot d).2 := by
  unfold State.dmaRows
  repeat' first
    | with_reducible assumption
    | with_reducible refine keeps_ite (fun _ => ?_) (fun _ => ?_)
    | with_reducible apply State.dmaRow_keeps
    | with_reducible refine keeps_fold2 (fun _ _ _ => ?_) ?_
    | split
    | (intro; try intro)

theorem execDmaIssue_keeps {c : State} {t : Nat} {gd : Reg} {ga : Reg} {pick : Nat} {s : State} (hk : Keeps c s) :
    KeepsO c (execDmaIssue t gd ga pick s) := by
  unfold execDmaIssue
  repeat' first
    | with_reducible assumption
    | with_reducible refine keeps_ite (fun _ => ?_) (fun _ => ?_)
    | simp only [keeps_upd, keepsT_trap, keepsT_wait]
    | with_reducible apply State.run_keeps
    | with_reducible apply orTrap_keeps
    | with_reducible apply orHold_keeps
    | with_reducible apply State.descWords_keeps
    | with_reducible apply State.setTile_keeps
    | with_reducible apply doneG_keeps
    | with_reducible apply State.dmaKick_keeps
    | split
    | (intro; try intro)

theorem execDmaPoll_keeps {c : State} {t : Nat} {gd : Reg} {ga : Reg} {s : State} (hk : Keeps c s) : KeepsO c
    (execDmaPoll t gd ga s) := by
  unfold execDmaPoll
  repeat' first
    | with_reducible assumption
    | with_reducible refine keeps_ite (fun _ => ?_) (fun _ => ?_)
    | simp only [keepsT_trap]
    | with_reducible apply State.run_keeps
    | with_reducible apply doneG_keeps
    | with_reducible apply State.freeTagOf_keeps
    | split
    | (intro; try intro)

theorem execDmaTransferComplete_keeps {c : State} {t : Nat} {tag : Nat} {flips : List Nat} {s : State} (hk : Keeps c
    s) : KeepsO c (execDmaTransferComplete t tag flips s) := by
  unfold execDmaTransferComplete
  repeat' first
    | with_reducible assumption
    | with_reducible refine keeps_ite (fun _ => ?_) (fun _ => ?_)
    | simp only [keepsO_next]
    | with_reducible apply State.dmaFinish_keeps
    | with_reducible apply State.dmaRows_keeps
    | with_reducible apply State.dmaNet_keeps
    | with_reducible apply State.spFlip_keeps
    | with_reducible apply State.dmaPut_keeps
    | with_reducible apply State.pantryFree_keeps
    | with_reducible refine keeps_foldl (fun _ _ _ => ?_) ?_
    | split
    | (intro; try intro)

theorem execDmaWait_keeps {c : State} {t : Nat} {gd : Reg} {ga : Reg} {s : State} (hk : Keeps c s) : KeepsO c
    (execDmaWait t gd ga s) := by
  unfold execDmaWait
  repeat' first
    | with_reducible assumption
    | with_reducible refine keeps_ite (fun _ => ?_) (fun _ => ?_)
    | simp only [keepsT_trap, keepsT_wait]
    | with_reducible apply State.run_keeps
    | with_reducible apply doneG_keeps
    | with_reducible apply State.freeTagOf_keeps
    | split
    | (intro; try intro)

end Sys2Proof.Machine
end

