-- ==== Sys2Proof/Laws/KeepsVec.lean ====
section
/-! SUPPORT. Every operation of Vec keeps the queue, the part, and the canonical forms. -/
set_option maxRecDepth 8000
namespace Sys2Proof.Machine

theorem keeps_pairIf {c : State} {α : Type} {p : Prop} [Decidable p] {a b : α × VRun} (ha : Keeps c a.2.s)
    (hb : Keeps c b.2.s) : Keeps c (if p then a else b).2.s := by split <;> assumption

theorem keeps_pairDo {c : State} {α : Type} {a : α} {x : VRun} (h : Keeps c x.s) : Keeps c (a, x).2.s := h

theorem keeps_runMk {c : State} {s : State} {fl : VFlags} {u : List Nat} (h : Keeps c s) : Keeps c (VRun.mk s fl u).s := h

theorem keeps_run2 {c : State} {α β : Type} {f : β × VRun → α → β × VRun} {l : List α} {b : β × VRun}
    (k : ∀ b a, Keeps c b.2.s → Keeps c (f b a).2.s) (h : Keeps c b.2.s) : Keeps c (l.foldl f b).2.s :=
  keeps_foldl_part (fun b : β × VRun => b.2.s) k h

theorem keeps_run22 {c : State} {α β γ : Type} {f : β × γ × VRun → α → β × γ × VRun} {l : List α} {b : β × γ × VRun}
    (k : ∀ b a, Keeps c b.2.2.s → Keeps c (f b a).2.2.s) (h : Keeps c b.2.2.s) : Keeps c (l.foldl f b).2.2.s :=
  keeps_foldl_part (fun b : β × γ × VRun => b.2.2.s) k h

theorem VRun.mapM_keeps {c : State} {f : VRun → Nat → Nat × VRun} {x : VRun} {es : List Nat}
    (hf : ∀ x e, Keeps c
    x.s → Keeps c (f x e).2.s) (hk : Keeps c x.s) : Keeps c (VRun.mapM f x es).2.s := by
  induction es generalizing x with
  | nil => exact hk
  | cons e es ih => exact ih (hf x e hk)

theorem VRun.fetch_keeps {c : State} {x : VRun} {t : Nat} {w : Fmt} {f : Fmt} {a : Nat} (hk : Keeps c x.s) :
    Keeps
    c (VRun.fetch x t w f a).2.s := by
  unfold VRun.fetch
  refine keeps_pairIf ?_ ?_
  · exact keeps_pairIf (keeps_fold2 (fun b i h => State.l1Gather_keeps h) hk)
      (keeps_fold2 (fun b i h => State.l1Gather_keeps h) hk)
  · exact State.meetBytes_keeps hk

theorem VRun.gather_keeps {c : State} {x : VRun} {t : Nat} {r : Recipe} {v : VStream} {row e : Nat} (hk : Keeps c x.s)
    :
    Keeps c (VRun.gather x t r v row e).2.s := by
  unfold VRun.gather
  exact keeps_pairIf hk (VRun.fetch_keeps hk)

theorem VRun.input_keeps {c : State} {x : VRun} {t : Nat} {r : Recipe} {i row : Nat} {es : List Nat} (hk : Keeps c
    x.s) :
    Keeps c (VRun.input x t r i row es).2.s := by
  unfold VRun.input
  simp only
  generalize (r.inp i).kind = k
  split
  · exact hk
  · exact hk
  · exact VRun.mapM_keeps (fun x e h => VRun.gather_keeps h) hk
  · exact VRun.mapM_keeps (fun x e h => VRun.gather_keeps h) hk
  · exact hk

theorem VRun.expand_keeps {c : State} {x : VRun} {r : Recipe} {i : Nat} {pred : List Nat} (hk : Keeps c x.s) :
   
    Keeps c (VRun.expand x r i pred).2.s := by
  unfold VRun.expand
  refine VRun.mapM_keeps (fun x p h => ?_) hk
  exact keeps_pairIf h (keeps_pairIf h (State.meetBytes_keeps h))

theorem VRun.fillExpand_keeps {c : State} {r : Recipe} {k : Nat} {pred : List Nat} {x : VRun} {ins : List (List Nat)}

       (hk : Keeps c x.s) : Keeps c (VRun.fillExpand r k pred x ins).2.s := by
  unfold VRun.fillExpand
  exact keeps_run2 (fun b i h => keeps_pairIf (VRun.expand_keeps h) h) hk

theorem VRun.group_keeps {c : State} {x : VRun} {t : Nat} {r : Recipe} {row e0 n : Nat}
    (hk : Keeps c x.s) : Keeps
    c (VRun.group x t r row e0 n).2.s := by
  unfold VRun.group
  refine keeps_run22 (fun b i h => VRun.fillExpand_keeps h) ?_
  exact keeps_run2 (fun b i h => VRun.input_keeps h) hk

theorem VRun.row_keeps {c : State} {x : VRun} {t : Nat} {r : Recipe} {row : Nat}
    (hk : Keeps c x.s) : Keeps c
    (VRun.row x t r row).2.s := by
  unfold VRun.row
  exact keeps_run2 (fun b i h => VRun.group_keeps h) hk

theorem Recipe.run_keeps {c : State} {r : Recipe} {t : Nat} {s : State}
    (hk : Keeps c s) : Keeps c (Recipe.run r t
    s).2.2.s := by
  unfold Recipe.run
  exact keeps_run22 (fun b i h => VRun.row_keeps h) hk

theorem State.meetInputs_keeps {c : State} {s : State} {r : Recipe} (hk : Keeps c s) : Keeps c (State.meetInputs s r)
    := by
  unfold State.meetInputs
  repeat' first
    | with_reducible assumption
    | with_reducible refine keeps_ite (fun _ => ?_) (fun _ => ?_)
    | with_reducible apply State.meetBytes_keeps
    | split
    | (intro; try intro)

theorem State.vecFence_keeps {c : State} {t : Nat} {s : State} (hk : Keeps c s) : Keeps c (State.vecFence s t) := by
  unfold State.vecFence
  split
  · exact hk
  · refine State.setTile_keeps (keeps_foldl (fun _ _ h => State.writeSp_keeps h) (keeps_foldl (fun _ _ h => State.writeAny_keeps h) ?_))
    rw [keeps_upd]
    exact hk

theorem execVecRun_keeps {c : State} {t : Nat} {ga : Reg} {gb : Reg} {s : State} (hk : Keeps c s) : KeepsO c
    (execVecRun t ga gb s) := by
  unfold execVecRun
  repeat' first
    | with_reducible assumption
    | with_reducible refine keeps_ite (fun _ => ?_) (fun _ => ?_)
    | simp only [keepsT_done, keepsT_trap, keepsT_wait]
    | with_reducible apply State.run_keeps
    | with_reducible apply orTrap_keeps
    | with_reducible apply orHold_keeps
    | with_reducible apply State.descWords_keeps
    | with_reducible apply State.setTile_keeps
    | split
    | (intro; try intro)

theorem execVecRunComplete_keeps {c : State} {t : Nat} {s : State} (hk : Keeps c s) : KeepsO c (execVecRunComplete t
    s) := by
  unfold execVecRunComplete
  split
  · rw [keepsO_next]; exact hk
  · refine keepsO_ite (fun _ => ?_) (fun _ => ?_)
    · rw [keepsO_next]; exact hk
    · rw [keepsO_next]
      refine State.fillerSettle_keeps (State.setTile_keeps (State.writeSp_keeps (keeps_foldl (fun _ _ h => State.writeSp_keeps h) ?_)))
      rw [keeps_upd]
      exact Recipe.run_keeps (State.meetInputs_keeps hk)

end Sys2Proof.Machine
end

