-- ==== Sys2Proof/Laws/KeepsChannel.lean ====
section
/-! SUPPORT. Every operation of Channel keeps the queue, the part, and the canonical forms. -/
set_option maxRecDepth 8000
namespace Sys2Proof.Machine

theorem State.setCnt_keeps {c : State} {s : State} {t : Nat} {n : Nat} {v : Word} (hk : Keeps c s) : Keeps c
    (State.setCnt s t n v) := by
  unfold State.setCnt
  repeat' first
    | with_reducible assumption
    | with_reducible refine keeps_ite (fun _ => ?_) (fun _ => ?_)
    | with_reducible apply State.setTile_keeps
    | split
    | (intro; try intro)

theorem State.addCnt_keeps {c : State} {s : State} {t : Nat} {n : Nat} (hk : Keeps c s) : Keeps c (State.addCnt s t n)
    := by
  unfold State.addCnt
  repeat' first
    | with_reducible assumption
    | with_reducible refine keeps_ite (fun _ => ?_) (fun _ => ?_)
    | with_reducible apply State.setCnt_keeps
    | split
    | (intro; try intro)

theorem State.setMsg_keeps {c : State} {s : State} {i : Nat} {m : ChMsg} (hk : Keeps c s) : Keeps c (State.setMsg s i
    m) := by
  unfold State.setMsg
  repeat' first
    | with_reducible assumption
    | with_reducible refine keeps_ite (fun _ => ?_) (fun _ => ?_)
    | simp only [keeps_upd]
    | split
    | (intro; try intro)

theorem State.chOffer_keeps {c : State} {s : State} {m : ChMsg} (hk : Keeps c s) : Keeps c (State.chOffer s m) := by
  unfold State.chOffer
  repeat' first
    | with_reducible assumption
    | with_reducible refine keeps_ite (fun _ => ?_) (fun _ => ?_)
    | with_reducible apply State.setMsg_keeps
    | split
    | (intro; try intro)

theorem State.chPost_keeps {c : State} {s : State} {m : ChMsg} (hk : Keeps c s) : Keeps c (State.chPost s m) := by
  unfold State.chPost
  repeat' first
    | with_reducible assumption
    | with_reducible refine keeps_ite (fun _ => ?_) (fun _ => ?_)
    | simp only [keeps_upd]
    | split
    | (intro; try intro)

theorem State.chRefuse_keeps {c : State} {s : State} {i : Nat} {m : ChMsg} (hk : Keeps c s) : Keeps c (State.chRefuse
    s i m) := by
  unfold State.chRefuse
  repeat' first
    | with_reducible assumption
    | with_reducible refine keeps_ite (fun _ => ?_) (fun _ => ?_)
    | with_reducible apply State.addCnt_keeps
    | with_reducible apply State.setTile_keeps
    | with_reducible apply State.setMsg_keeps
    | split
    | (intro; try intro)

theorem State.endFull_keeps {c : State} {s : State} {t : Nat} {q : Nat} (hk : Keeps c s) : Keeps c (State.endFull s t
    q) := by
  unfold State.endFull
  repeat' first
    | with_reducible assumption
    | with_reducible refine keeps_ite (fun _ => ?_) (fun _ => ?_)
    | with_reducible apply State.setTile_keeps
    | split
    | (intro; try intro)

theorem State.setQueue_keeps {c : State} {s : State} {t : Nat} {q : Nat} {l : List QMsg} (hk : Keeps c s) : Keeps c
    (State.setQueue s t q l) := by
  unfold State.setQueue
  repeat' first
    | with_reducible assumption
    | with_reducible refine keeps_ite (fun _ => ?_) (fun _ => ?_)
    | with_reducible apply State.setTile_keeps
    | split
    | (intro; try intro)

theorem State.chTake_keeps {c : State} {s : State} {t : Nat} {gd : Reg} {q : Nat} {a : Nat} {m : QMsg} {rest : List
    QMsg} (hk : Keeps c s) : KeepsT c (State.chTake s t gd q a m rest) := by
  unfold State.chTake
  repeat' first
    | with_reducible assumption
    | with_reducible refine keeps_ite (fun _ => ?_) (fun _ => ?_)
    | with_reducible apply State.endFull_keeps
    | with_reducible apply State.setQueue_keeps
    | with_reducible apply doneG_keeps
    | with_reducible apply State.writeSp_keeps
    | split
    | (intro; try intro)

theorem State.endEmpty_keeps {c : State} {s : State} {t : Nat} (hk : Keeps c s) : Keeps c (State.endEmpty s t) := by
  unfold State.endEmpty
  repeat' first
    | with_reducible assumption
    | with_reducible refine keeps_ite (fun _ => ?_) (fun _ => ?_)
    | with_reducible apply State.setTile_keeps
    | split
    | (intro; try intro)

theorem State.fwPut_keeps {c : State} {s : State} {n : Nat} {w : Nat} {v : Word} (hk : Keeps c s) : Keeps c
    (State.fwPut s n w v) := by
  unfold State.fwPut
  repeat' first
    | with_reducible assumption
    | with_reducible refine keeps_ite (fun _ => ?_) (fun _ => ?_)
    | with_reducible apply State.setRg_keeps
    | split
    | (intro; try intro)

theorem State.fwSettle_keeps {c : State} {s : State} (hk : Keeps c s) : Keeps c (State.fwSettle s) := by
  unfold State.fwSettle
  repeat' first
    | with_reducible assumption
    | with_reducible refine keeps_ite (fun _ => ?_) (fun _ => ?_)
    | simp only [keeps_upd]
    | with_reducible apply State.fwPut_keeps
    | with_reducible refine keeps_foldl (fun _ _ _ => ?_) ?_
    | split
    | (intro; try intro)

theorem State.openEmpty_keeps {c : State} {s : State} {t : Nat} {mask : Nat} (hk : Keeps c s) : Keeps c
    (State.openEmpty s t mask) := by
  unfold State.openEmpty
  repeat' first
    | with_reducible assumption
    | with_reducible refine keeps_ite (fun _ => ?_) (fun _ => ?_)
    | with_reducible apply State.setTile_keeps
    | with_reducible refine keeps_foldl (fun _ _ _ => ?_) ?_
    | split
    | (intro; try intro)

theorem chSelect_keeps {c : State} {i : Instr} {t : Nat} {gd : Reg} {ga : Reg} {start : State → Nat} {note : State →
    Nat → State} {s : State} (hk : Keeps c s) (hf : ∀ s n, Keeps c s → Keeps c (note s n)) : KeepsO c (chSelect i t gd
    ga start note s) := by
  unfold chSelect
  repeat' first
    | with_reducible assumption
    | with_reducible refine keeps_ite (fun _ => ?_) (fun _ => ?_)
    | simp only [keepsT_trap, keepsT_wait]
    | with_reducible apply State.run_keeps
    | with_reducible apply doneG_keeps
    | with_reducible apply State.openEmpty_keeps
    | with_reducible apply State.addCnt_keeps
    | with_reducible apply noFiller_keeps
    | with_reducible apply hf
    | split
    | (intro; try intro)

theorem execChAcceptance_keeps {c : State} {i : Nat} {s : State} (hk : Keeps c s) : KeepsO c (execChAcceptance i s) :=
    by
  unfold execChAcceptance
  repeat' first
    | with_reducible assumption
    | with_reducible refine keeps_ite (fun _ => ?_) (fun _ => ?_)
    | simp only [keeps_upd, keepsO_next]
    | with_reducible apply State.fwSettle_keeps
    | with_reducible apply State.addCnt_keeps
    | with_reducible apply State.fillerSettle_keeps
    | with_reducible apply State.chOffer_keeps
    | split
    | (intro; try intro)

theorem execChDiscardNotice_keeps {c : State} {i : Nat} {s : State} (hk : Keeps c s) : KeepsO c (execChDiscardNotice i
    s) := by
  unfold execChDiscardNotice
  repeat' first
    | with_reducible assumption
    | with_reducible refine keeps_ite (fun _ => ?_) (fun _ => ?_)
    | simp only [keeps_upd, keepsO_next]
    | with_reducible apply State.fwSettle_keeps
    | with_reducible apply State.addCnt_keeps
    | with_reducible apply State.fillerSettle_keeps
    | with_reducible apply State.chOffer_keeps
    | split
    | (intro; try intro)

theorem execChMessageArrival_keeps {c : State} {i : Nat} {s : State} (hk : Keeps c s) : KeepsO c (execChMessageArrival
    i s) := by
  unfold execChMessageArrival
  repeat' first
    | with_reducible assumption
    | with_reducible refine keeps_ite (fun _ => ?_) (fun _ => ?_)
    | simp only [keepsO_next]
    | with_reducible apply State.chargeNet_keeps
    | with_reducible apply State.setMsg_keeps
    | with_reducible apply State.addCnt_keeps
    | with_reducible apply State.chRefuse_keeps
    | with_reducible apply State.setQueue_keeps
    | with_reducible apply State.endEmpty_keeps
    | split
    | (intro; try intro)

theorem execChRecv_keeps {c : State} {t : Nat} {gd : Reg} {ga : Reg} {gb : Reg} {s : State} (hk : Keeps c s) : KeepsO
    c (execChRecv t gd ga gb s) := by
  unfold execChRecv
  repeat' first
    | with_reducible assumption
    | with_reducible refine keeps_ite (fun _ => ?_) (fun _ => ?_)
    | simp only [keepsT_wait]
    | with_reducible apply State.run_keeps
    | with_reducible apply State.chTake_keeps
    | with_reducible apply State.openEmpty_keeps
    | with_reducible apply State.addCnt_keeps
    | with_reducible apply noFiller_keeps
    | with_reducible apply orTrap_keeps
    | split
    | (intro; try intro)

theorem execChRetry_keeps {c : State} {i : Nat} {s : State} (hk : Keeps c s) : KeepsO c (execChRetry i s) := by
  unfold execChRetry
  repeat' first
    | with_reducible assumption
    | with_reducible refine keeps_ite (fun _ => ?_) (fun _ => ?_)
    | simp only [keepsO_next]
    | with_reducible apply State.setMsg_keeps
    | split
    | (intro; try intro)

theorem execChSelectP_keeps {c : State} {t : Nat} {gd : Reg} {ga : Reg} {s : State} (hk : Keeps c s) : KeepsO c
    (execChSelectP t gd ga s) := by
  unfold execChSelectP
  repeat' first
    | with_reducible assumption
    | with_reducible refine keeps_ite (fun _ => ?_) (fun _ => ?_)
    | with_reducible apply chSelect_keeps
    | split
    | (intro; try intro)

theorem execChSelectR_keeps {c : State} {t : Nat} {gd : Reg} {ga : Reg} {s : State} (hk : Keeps c s) : KeepsO c
    (execChSelectR t gd ga s) := by
  unfold execChSelectR
  repeat' first
    | with_reducible assumption
    | with_reducible refine keeps_ite (fun _ => ?_) (fun _ => ?_)
    | with_reducible apply chSelect_keeps
    | with_reducible apply State.setTile_keeps
    | split
    | (intro; try intro)

theorem execChSend_keeps {c : State} {t : Nat} {ga : Reg} {gb : Reg} {s : State} (hk : Keeps c s) : KeepsO c
    (execChSend t ga gb s) := by
  unfold execChSend
  repeat' first
    | with_reducible assumption
    | with_reducible refine keeps_ite (fun _ => ?_) (fun _ => ?_)
    | simp only [keepsT_done, keepsT_trap, keepsT_wait]
    | with_reducible apply State.run_keeps
    | with_reducible apply State.addCnt_keeps
    | with_reducible apply orHold_keeps
    | with_reducible apply State.readSp_keeps
    | with_reducible apply State.chPost_keeps
    | with_reducible apply noFiller_keeps
    | with_reducible apply orTrap_keeps
    | split
    | (intro; try intro)

theorem execChTry_keeps {c : State} {t : Nat} {gd : Reg} {ga : Reg} {gb : Reg} {s : State} (hk : Keeps c s) : KeepsO c
    (execChTry t gd ga gb s) := by
  unfold execChTry
  repeat' first
    | with_reducible assumption
    | with_reducible refine keeps_ite (fun _ => ?_) (fun _ => ?_)
    | with_reducible apply State.run_keeps
    | with_reducible apply noFiller_keeps
    | with_reducible apply orTrap_keeps
    | with_reducible apply State.chTake_keeps
    | with_reducible apply doneG_keeps
    | split
    | (intro; try intro)

theorem execChWatchdogFire_keeps {c : State} {t : Nat} {q : Nat} {s : State} (hk : Keeps c s) : KeepsO c
    (execChWatchdogFire t q s) := by
  unfold execChWatchdogFire
  repeat' first
    | with_reducible assumption
    | with_reducible refine keeps_ite (fun _ => ?_) (fun _ => ?_)
    | simp only [keepsO_next]
    | with_reducible apply State.setTile_keeps
    | with_reducible apply State.tileReport_keeps
    | with_reducible apply State.setCnt_keeps
    | split
    | (intro; try intro)

end Sys2Proof.Machine
end

