-- ==== Sys2Proof/Laws/KeepsMedia.lean ====
section
/-! SUPPORT. Every operation of Media keeps the queue, the part, and the canonical forms. -/
set_option maxRecDepth 8000
namespace Sys2Proof.Machine

theorem State.mediaReport_keeps {c : State} {s : State} {st : Nat} {status : Nat} (hk : Keeps c s) : Keeps c
    (State.mediaReport s st status) := by
  unfold State.mediaReport
  repeat' first
    | with_reducible assumption
    | with_reducible refine keeps_ite (fun _ => ?_) (fun _ => ?_)
    | with_reducible apply State.reportX_keeps
    | split
    | (intro; try intro)

theorem State.endSample_keeps {c : State} {s : State} {x : Sample} (hk : Keeps c s) : Keeps c (State.endSample s x) :=
    by
  unfold State.endSample
  repeat' first
    | with_reducible assumption
    | with_reducible refine keeps_ite (fun _ => ?_) (fun _ => ?_)
    | simp only [keeps_upd]
    | with_reducible apply State.setStrm_keeps
    | split
    | (intro; try intro)

theorem State.landRaw_keeps {c : State} {s : State} {x : Sample} {status : Nat} (hk : Keeps c s) : Keeps c
    (State.landRaw s x status) := by
  unfold State.landRaw
  repeat' first
    | with_reducible assumption
    | with_reducible refine keeps_ite (fun _ => ?_) (fun _ => ?_)
    | with_reducible apply State.setStrm_keeps
    | with_reducible apply State.writeDram_keeps
    | with_reducible apply State.mediaReport_keeps
    | with_reducible apply State.endSample_keeps
    | with_reducible apply State.chPost_keeps
    | split
    | (intro; try intro)

theorem State.putSlot_keeps {c : State} {s : State} {x : Sample} {o : SlotOut} (hk : Keeps c s) : Keeps c
    (State.putSlot s x o) := by
  unfold State.putSlot
  repeat' first
    | with_reducible assumption
    | with_reducible refine keeps_ite (fun _ => ?_) (fun _ => ?_)
    | with_reducible apply State.landSlot_keeps
    | with_reducible apply State.mediaReport_keeps
    | with_reducible apply State.endSample_keeps
    | split
    | (intro; try intro)

theorem State.setSample_keeps {c : State} {s : State} {x : Sample} (hk : Keeps c s) : Keeps c (State.setSample s x) :=
    by
  unfold State.setSample
  repeat' first
    | with_reducible assumption
    | with_reducible refine keeps_ite (fun _ => ?_) (fun _ => ?_)
    | simp only [keeps_upd]
    | split
    | (intro; try intro)

theorem State.settleSample_keeps {c : State} {s : State} {r : Sample × Option SlotOut} (hk : Keeps c s) : Keeps c
    (State.settleSample s r) := by
  unfold State.settleSample
  repeat' first
    | with_reducible assumption
    | with_reducible refine keeps_ite (fun _ => ?_) (fun _ => ?_)
    | with_reducible apply State.putSlot_keeps
    | with_reducible apply State.setSample_keeps
    | split
    | (intro; try intro)

theorem State.mixAbandonGo_keeps {c : State} {st : Nat} {x1 : Nat} {x2 : State} (hk : Keeps c x2) : Keeps c
    (State.mixAbandonGo st x1 x2) := by
  induction x1 generalizing st x2 with
  | zero =>
    try simp only [State.mixAbandonGo]
    repeat' first
      | with_reducible assumption
      | with_reducible refine keeps_ite (fun _ => ?_) (fun _ => ?_)
      | with_reducible apply State.settleSample_keeps
      | split
      | (intro; try intro)
  | succ k ih =>
    try simp only [State.mixAbandonGo]
    repeat' first
      | with_reducible assumption
      | with_reducible refine keeps_ite (fun _ => ?_) (fun _ => ?_)
      | with_reducible apply ih
      | with_reducible apply State.settleSample_keeps
      | split
      | (intro; try intro)

theorem State.mixAbandon_keeps {c : State} {s : State} {st : Nat} (hk : Keeps c s) : Keeps c (State.mixAbandon s st)
    := by
  unfold State.mixAbandon
  repeat' first
    | with_reducible assumption
    | with_reducible refine keeps_ite (fun _ => ?_) (fun _ => ?_)
    | with_reducible apply State.mixAbandonGo_keeps
    | split
    | (intro; try intro)

theorem State.closeSample_keeps {c : State} {s : State} {x : Sample} {status : Nat} (hk : Keeps c s) : Keeps c
    (State.closeSample s x status) := by
  unfold State.closeSample
  repeat' first
    | with_reducible assumption
    | with_reducible refine keeps_ite (fun _ => ?_) (fun _ => ?_)
    | with_reducible apply State.landRaw_keeps
    | with_reducible apply State.mixAbandon_keeps
    | with_reducible apply State.putSlot_keeps
    | split
    | (intro; try intro)

theorem State.ingCount_keeps {c : State} {s : State} {st : Nat} {k : Nat} (hk : Keeps c s) : Keeps c (State.ingCount s
    st k) := by
  unfold State.ingCount
  repeat' first
    | with_reducible assumption
    | with_reducible refine keeps_ite (fun _ => ?_) (fun _ => ?_)
    | with_reducible apply State.addRg_keeps
    | split
    | (intro; try intro)

theorem State.fillIn_keeps {c : State} {s : State} {x : Sample} {d : Dgram} (hk : Keeps c s) : Keeps c (State.fillIn s
    x d) := by
  unfold State.fillIn
  repeat' first
    | with_reducible assumption
    | with_reducible refine keeps_ite (fun _ => ?_) (fun _ => ?_)
    | with_reducible apply State.setSample_keeps
    | with_reducible apply State.landRaw_keeps
    | split
    | (intro; try intro)

theorem State.portDrop_keeps {c : State} {s : State} {port : Nat} (hk : Keeps c s) : Keeps c (State.portDrop s port)
    := by
  unfold State.portDrop
  repeat' first
    | with_reducible assumption
    | with_reducible refine keeps_ite (fun _ => ?_) (fun _ => ?_)
    | with_reducible apply State.addRg_keeps
    | split
    | (intro; try intro)

theorem State.readConsumed_keeps {c : State} {s : State} {st : Nat} (hk : Keeps c s) : Keeps c (State.readConsumed s
    st) := by
  unfold State.readConsumed
  repeat' first
    | with_reducible assumption
    | with_reducible refine keeps_ite (fun _ => ?_) (fun _ => ?_)
    | with_reducible apply State.readAny_keeps
    | with_reducible apply State.reportX_keeps
    | with_reducible apply State.setAllow_keeps
    | split
    | (intro; try intro)

theorem State.dataIn_keeps {c : State} {s : State} {port : Nat} {d : Dgram} (hk : Keeps c s) : Keeps c (State.dataIn s
    port d) := by
  unfold State.dataIn
  repeat' first
    | with_reducible assumption
    | with_reducible refine keeps_ite (fun _ => ?_) (fun _ => ?_)
    | simp only [keeps_upd]
    | with_reducible apply State.setStrm_keeps
    | with_reducible apply State.ingCount_keeps
    | with_reducible apply State.fillIn_keeps
    | with_reducible apply State.portDrop_keeps
    | with_reducible apply State.readConsumed_keeps
    | with_reducible apply State.mixAbandon_keeps
    | split
    | (intro; try intro)

theorem State.datagram_keeps {c : State} {s : State} {port : Nat} {d : Dgram} (hk : Keeps c s) : Keeps c
    (State.datagram s port d) := by
  unfold State.datagram
  repeat' first
    | with_reducible assumption
    | with_reducible refine keeps_ite (fun _ => ?_) (fun _ => ?_)
    | with_reducible apply State.portDrop_keeps
    | with_reducible apply State.sendCredit_keeps
    | with_reducible apply State.setStrm_keeps
    | with_reducible apply State.dataIn_keeps
    | split
    | (intro; try intro)

theorem State.moveSlow_keeps {c : State} {s : State} {x : Sample} (hk : Keeps c s) : Keeps c (State.moveSlow s x) :=
    by
  unfold State.moveSlow
  repeat' first
    | with_reducible assumption
    | with_reducible refine keeps_ite (fun _ => ?_) (fun _ => ?_)
    | with_reducible apply State.addRg_keeps
    | with_reducible apply State.setSample_keeps
    | split
    | (intro; try intro)

theorem State.decoded_keeps {c : State} {s : State} {x : Sample} (hk : Keeps c s) : Keeps c (State.decoded s x).1 :=
    by
  unfold State.decoded
  repeat' first
    | with_reducible assumption
    | with_reducible refine keeps_ite (fun _ => ?_) (fun _ => ?_)
    | simp only [keeps_upd]
    | with_reducible apply State.moveSlow_keeps
    | with_reducible apply State.closeSample_keeps
    | with_reducible apply State.setStrm_keeps
    | split
    | (intro; try intro)

theorem State.streamOff_keeps {c : State} {s : State} {st : Nat} (hk : Keeps c s) : Keeps c (State.streamOff s st) :=
    by
  unfold State.streamOff
  repeat' first
    | with_reducible assumption
    | with_reducible refine keeps_ite (fun _ => ?_) (fun _ => ?_)
    | simp only [keeps_upd]
    | with_reducible apply State.setStrm_keeps
    | with_reducible apply State.setRb_keeps
    | split
    | (intro; try intro)

theorem State.mediaFence_keeps {c : State} {s : State} {p : Nat} (hk : Keeps c s) : Keeps c (State.mediaFence s p) :=
    by
  unfold State.mediaFence
  repeat' first
    | with_reducible assumption
    | with_reducible refine keeps_ite (fun _ => ?_) (fun _ => ?_)
    | simp only [keeps_upd]
    | with_reducible apply State.streamOff_keeps
    | with_reducible apply State.pantryAlarm_keeps
    | with_reducible refine keeps_foldl (fun _ _ _ => ?_) ?_
    | split
    | (intro; try intro)

theorem State.pantryClear_keeps {c : State} {s : State} (hk : Keeps c s) : Keeps c (State.pantryClear s) := by
  unfold State.pantryClear
  repeat' first
    | with_reducible assumption
    | with_reducible refine keeps_ite (fun _ => ?_) (fun _ => ?_)
    | simp only [keeps_upd]
    | split
    | (intro; try intro)

theorem State.readOps_keeps {c : State} {s : State} {p : Nat} {st : Nat} {n : Nat} (hk : Keeps c s) : Keeps c
    (State.readOps s p st n).2 := by
  unfold State.readOps
  repeat' first
    | with_reducible assumption
    | with_reducible refine keeps_ite (fun _ => ?_) (fun _ => ?_)
    | simp only [keeps_upd]
    | with_reducible apply State.readAny_keeps
    | with_reducible apply State.reportX_keeps
    | split
    | (intro; try intro)

theorem execData_keeps {c : State} {port : Nat} {d : Dgram} {s : State} (hk : Keeps c s) : KeepsO c (execData port d
    s) := by
  unfold execData
  repeat' first
    | with_reducible assumption
    | with_reducible refine keeps_ite (fun _ => ?_) (fun _ => ?_)
    | simp only [keepsO_next]
    | with_reducible apply State.datagram_keeps
    | split
    | (intro; try intro)

theorem execDecodeStart_keeps {c : State} {st : Nat} {index : Nat} {s : State} (hk : Keeps c s) : KeepsO c
    (execDecodeStart st index s) := by
  unfold execDecodeStart
  repeat' first
    | with_reducible assumption
    | with_reducible refine keeps_ite (fun _ => ?_) (fun _ => ?_)
    | simp only [keepsO_next]
    | with_reducible apply State.closeSample_keeps
    | with_reducible apply State.setSample_keeps
    | split
    | (intro; try intro)

theorem execDropLimit_keeps {c : State} {st : Nat} {index : Nat} {s : State} (hk : Keeps c s) : KeepsO c
    (execDropLimit st index s) := by
  unfold execDropLimit
  repeat' first
    | with_reducible assumption
    | with_reducible refine keeps_ite (fun _ => ?_) (fun _ => ?_)
    | simp only [keepsO_next]
    | with_reducible apply State.closeSample_keeps
    | split
    | (intro; try intro)

theorem execIngAddressResolution_keeps {c : State} {port : Nat} {v6 : Bool} {addr : Nat} {s : State} (hk : Keeps c s)
    : KeepsO c (execIngAddressResolution port v6 addr s) := by
  unfold execIngAddressResolution
  repeat' first
    | with_reducible assumption
    | with_reducible refine keeps_ite (fun _ => ?_) (fun _ => ?_)
    | simp only [keepsO_next]
    | with_reducible apply State.emit_keeps
    | split
    | (intro; try intro)

theorem execIngCreditTimer_keeps {c : State} {st : Nat} {s : State} (hk : Keeps c s) : KeepsO c (execIngCreditTimer st
    s) := by
  unfold execIngCreditTimer
  repeat' first
    | with_reducible assumption
    | with_reducible refine keeps_ite (fun _ => ?_) (fun _ => ?_)
    | simp only [keepsO_next]
    | with_reducible apply State.sendCredit_keeps
    | split
    | (intro; try intro)

theorem execIngStreamDisable_keeps {c : State} {st : Nat} {v : Word} {s : State} (hk : Keeps c s) : KeepsO c
    (execIngStreamDisable st v s) := by
  unfold execIngStreamDisable
  repeat' first
    | with_reducible assumption
    | with_reducible refine keeps_ite (fun _ => ?_) (fun _ => ?_)
    | simp only [keepsO_next]
    | with_reducible apply State.setRg_keeps
    | with_reducible apply State.streamOff_keeps
    | split
    | (intro; try intro)

theorem execIngStreamEnable_keeps {c : State} {st : Nat} {v : Word} {s : State} (hk : Keeps c s) : KeepsO c
    (execIngStreamEnable st v s) := by
  unfold execIngStreamEnable
  repeat' first
    | with_reducible assumption
    | with_reducible refine keeps_ite (fun _ => ?_) (fun _ => ?_)
    | simp only [keepsO_next]
    | with_reducible apply State.readOps_keeps
    | with_reducible apply State.setStrm_keeps
    | with_reducible apply State.setRg_keeps
    | with_reducible apply State.addRg_keeps
    | split
    | (intro; try intro)

theorem execMixPartnerArrival_keeps {c : State} {st : Nat} {index : Nat} {s : State} (hk : Keeps c s) : KeepsO c
    (execMixPartnerArrival st index s) := by
  unfold execMixPartnerArrival
  repeat' first
    | with_reducible assumption
    | with_reducible refine keeps_ite (fun _ => ?_) (fun _ => ?_)
    | simp only [keepsO_next]
    | with_reducible apply State.decoded_keeps
    | with_reducible apply State.setSample_keeps
    | with_reducible apply State.settleSample_keeps
    | split
    | (intro; try intro)
    | exact keeps_fst (by assumption) (keeps_fstIf (State.decoded_keeps hk) hk)

theorem execPantryDisable_keeps {c : State} {v : Word} {s : State} (hk : Keeps c s) : KeepsO c (execPantryDisable v s)
    := by
  unfold execPantryDisable
  repeat' first
    | with_reducible assumption
    | with_reducible refine keeps_ite (fun _ => ?_) (fun _ => ?_)
    | simp only [keepsO_next]
    | with_reducible apply State.emit_keeps
    | with_reducible apply State.setRb_keeps
    | with_reducible apply State.pantryAlarm_keeps
    | with_reducible apply State.pantryClear_keeps
    | with_reducible apply State.setRg_keeps
    | split
    | (intro; try intro)

theorem execPantryEnable_keeps {c : State} {v : Word} {s : State} (hk : Keeps c s) : KeepsO c (execPantryEnable v s)
    := by
  unfold execPantryEnable
  repeat' first
    | with_reducible assumption
    | with_reducible refine keeps_ite (fun _ => ?_) (fun _ => ?_)
    | simp only [keeps_upd, keepsO_next]
    | with_reducible apply State.emit_keeps
    | with_reducible apply State.setRg_keeps
    | with_reducible apply State.landGo_keeps
    | split
    | (intro; try intro)

theorem execProbe_keeps {c : State} {port : Nat} {d : Dgram} {s : State} (hk : Keeps c s) : KeepsO c (execProbe port d
    s) := by
  unfold execProbe
  repeat' first
    | with_reducible assumption
    | with_reducible refine keeps_ite (fun _ => ?_) (fun _ => ?_)
    | simp only [keepsO_next]
    | with_reducible apply State.datagram_keeps
    | split
    | (intro; try intro)

theorem execRawConsumedPoll_keeps {c : State} {st : Nat} {s : State} (hk : Keeps c s) : KeepsO c (execRawConsumedPoll
    st s) := by
  unfold execRawConsumedPoll
  repeat' first
    | with_reducible assumption
    | with_reducible refine keeps_ite (fun _ => ?_) (fun _ => ?_)
    | simp only [keepsO_next]
    | with_reducible apply State.readConsumed_keeps
    | split
    | (intro; try intro)

theorem execReasmTimeout_keeps {c : State} {st : Nat} {index : Nat} {s : State} (hk : Keeps c s) : KeepsO c
    (execReasmTimeout st index s) := by
  unfold execReasmTimeout
  repeat' first
    | with_reducible assumption
    | with_reducible refine keeps_ite (fun _ => ?_) (fun _ => ?_)
    | simp only [keepsO_next]
    | with_reducible apply State.closeSample_keeps
    | with_reducible apply State.ingCount_keeps
    | split
    | (intro; try intro)

theorem execSampleComplete_keeps {c : State} {st : Nat} {index : Nat} {s : State} (hk : Keeps c s) : KeepsO c
    (execSampleComplete st index s) := by
  unfold execSampleComplete
  repeat' first
    | with_reducible assumption
    | with_reducible refine keeps_ite (fun _ => ?_) (fun _ => ?_)
    | simp only [keepsO_next]
    | with_reducible apply State.mixAbandon_keeps
    | with_reducible apply State.putSlot_keeps
    | with_reducible apply State.decoded_keeps
    | with_reducible apply State.settleSample_keeps
    | split
    | (intro; try intro)
    | exact keeps_fst (by assumption) (State.decoded_keeps hk)

theorem execSlowDecoderMove_keeps {c : State} {st : Nat} {index : Nat} {s : State} (hk : Keeps c s) : KeepsO c
    (execSlowDecoderMove st index s) := by
  unfold execSlowDecoderMove
  repeat' first
    | with_reducible assumption
    | with_reducible refine keeps_ite (fun _ => ?_) (fun _ => ?_)
    | simp only [keepsO_next]
    | with_reducible apply State.moveSlow_keeps
    | split
    | (intro; try intro)

theorem execTokDictLoad_keeps {c : State} {v : Word} {s : State} (hk : Keeps c s) : KeepsO c (execTokDictLoad v s) :=
    by
  unfold execTokDictLoad
  repeat' first
    | with_reducible assumption
    | with_reducible refine keeps_ite (fun _ => ?_) (fun _ => ?_)
    | simp only [keeps_upd, keepsO_next]
    | with_reducible apply State.emit_keeps
    | with_reducible apply State.setRg_keeps
    | split
    | (intro; try intro)

theorem execTokDictLoadComplete_keeps {c : State} {s : State} (hk : Keeps c s) : KeepsO c (execTokDictLoadComplete s)
    := by
  unfold execTokDictLoadComplete
  repeat' first
    | with_reducible assumption
    | with_reducible refine keeps_ite (fun _ => ?_) (fun _ => ?_)
    | simp only [keeps_upd, keepsO_next]
    | with_reducible apply State.readAny_keeps
    | with_reducible apply State.reportX_keeps
    | with_reducible apply State.setRg_keeps
    | split
    | (intro; try intro)

end Sys2Proof.Machine
end

