-- ==== Sys2Proof/Laws/KeepsFabric.lean ====
section
/-! SUPPORT. Every operation of Fabric keeps the queue, the part, and the canonical forms. -/
set_option maxRecDepth 8000
namespace Sys2Proof.Machine

theorem State.dropQueued_keeps {c : State} {s : State} {f : TxItem → Bool} (hk : Keeps c s) : Keeps c
    (State.dropQueued s f) := by
  unfold State.dropQueued
  repeat' first
    | with_reducible assumption
    | with_reducible refine keeps_ite (fun _ => ?_) (fun _ => ?_)
    | simp only [keeps_upd]
    | split
    | (intro; try intro)

theorem State.dropUnit_keeps {c : State} {s : State} {f : LkCell → Bool} (hk : Keeps c s) : Keeps c (State.dropUnit s
    f) := by
  unfold State.dropUnit
  repeat' first
    | with_reducible assumption
    | with_reducible refine keeps_ite (fun _ => ?_) (fun _ => ?_)
    | simp only [keeps_upd]
    | split
    | (intro; try intro)

theorem State.noRoute_keeps {c : State} {s : State} {l : Nat} (hk : Keeps c s) : Keeps c (State.noRoute s l) := by
  unfold State.noRoute
  repeat' first
    | with_reducible assumption
    | with_reducible refine keeps_ite (fun _ => ?_) (fun _ => ?_)
    | with_reducible apply State.addRg_keeps
    | split
    | (intro; try intro)

theorem State.forward_keeps {c : State} {s : State} {v : Hop} {send : Nat → State} (hk : Keeps c s) (hf : ∀ n, Keeps c
    (send n)) : Keeps c (State.forward s v send) := by
  unfold State.forward
  repeat' first
    | with_reducible assumption
    | with_reducible refine keeps_ite (fun _ => ?_) (fun _ => ?_)
    | with_reducible apply State.noRoute_keeps
    | with_reducible apply hf
    | split
    | (intro; try intro)

theorem State.setLink_keeps {c : State} {s : State} {l : Nat} {x : Link} (hk : Keeps c s) : Keeps c (State.setLink s l
    x) := by
  unfold State.setLink
  repeat' first
    | with_reducible assumption
    | with_reducible refine keeps_ite (fun _ => ?_) (fun _ => ?_)
    | simp only [keeps_upd]
    | split
    | (intro; try intro)

theorem State.freeReq_keeps {c : State} {s : State} {cc : LkCell} (hk : Keeps c s) : Keeps c (State.freeReq s cc) :=
    by
  unfold State.freeReq
  repeat' first
    | with_reducible assumption
    | with_reducible refine keeps_ite (fun _ => ?_) (fun _ => ?_)
    | with_reducible apply State.setLink_keeps
    | split
    | (intro; try intro)

theorem State.linkSend_keeps {c : State} {s : State} {l : Nat} {x : TxItem} (hk : Keeps c s) : Keeps c (State.linkSend
    s l x) := by
  unfold State.linkSend
  repeat' first
    | with_reducible assumption
    | with_reducible refine keeps_ite (fun _ => ?_) (fun _ => ?_)
    | with_reducible apply State.crossPut_keeps
    | with_reducible apply State.setLink_keeps
    | split
    | (intro; try intro)

theorem State.setLkB_keeps {c : State} {s : State} {l : Nat} {o : Nat} {i : Nat} {b : Bool} (hk : Keeps c s) : Keeps c
    (State.setLkB s l o i b) := by
  unfold State.setLkB
  repeat' first
    | with_reducible assumption
    | with_reducible refine keeps_ite (fun _ => ?_) (fun _ => ?_)
    | with_reducible apply State.setRb_keeps
    | split
    | (intro; try intro)

theorem State.setLkF_keeps {c : State} {s : State} {l : Nat} {o : Nat} {hi : Nat} {lo : Nat} {v : Nat} (hk : Keeps c
    s) : Keeps c (State.setLkF s l o hi lo v) := by
  unfold State.setLkF
  repeat' first
    | with_reducible assumption
    | with_reducible refine keeps_ite (fun _ => ?_) (fun _ => ?_)
    | with_reducible apply State.setRf_keeps
    | split
    | (intro; try intro)

theorem State.takeCell_keeps {c : State} {s : State} {cc : LkCell} (hk : Keeps c s) : Keeps c (State.takeCell s cc) :=
    by
  unfold State.takeCell
  repeat' first
    | with_reducible assumption
    | with_reducible refine keeps_ite (fun _ => ?_) (fun _ => ?_)
    | simp only [keeps_upd]
    | split
    | (intro; try intro)

theorem State.takeCells_keeps {c : State} {s : State} {cs : List LkCell} (hk : Keeps c s) : Keeps c (State.takeCells s
    cs) := by
  unfold State.takeCells
  repeat' first
    | with_reducible assumption
    | with_reducible refine keeps_ite (fun _ => ?_) (fun _ => ?_)
    | with_reducible apply State.takeCell_keeps
    | with_reducible refine keeps_foldl (fun _ _ _ => ?_) ?_
    | split
    | (intro; try intro)

end Sys2Proof.Machine
end

