-- ==== Sys2Proof/Laws/KeepsStageLink.lean ====
section
/-! SUPPORT. Every operation of StageLink keeps the queue, the part, and the canonical forms. -/
set_option maxRecDepth 8000
namespace Sys2Proof.Machine

theorem State.setSlEnd_keeps {c : State} {s : State} {h : Nat} {x : SlEnd} (hk : Keeps c s) : Keeps c (State.setSlEnd
    s h x) := by
  unfold State.setSlEnd
  repeat' first
    | with_reducible assumption
    | with_reducible refine keeps_ite (fun _ => ?_) (fun _ => ?_)
    | simp only [keeps_upd]
    | split
    | (intro; try intro)

theorem State.settle_keeps {c : State} {s : State} {f : SlFlight} (hk : Keeps c s) : Keeps c (State.settle s f) := by
  unfold State.settle
  repeat' first
    | with_reducible assumption
    | with_reducible refine keeps_ite (fun _ => ?_) (fun _ => ?_)
    | with_reducible apply State.rephase_keeps
    | with_reducible apply State.fillerSettle_keeps
    | split
    | (intro; try intro)

theorem State.slAdvance_keeps {c : State} {s : State} {h : Nat} (hk : Keeps c s) : Keeps c (State.slAdvance s h) := by
  unfold State.slAdvance
  repeat' first
    | with_reducible assumption
    | with_reducible refine keeps_ite (fun _ => ?_) (fun _ => ?_)
    | with_reducible apply State.setSlEnd_keeps
    | split
    | (intro; try intro)

theorem State.slCount_keeps {c : State} {s : State} {h : Nat} {k : Nat} {n : Nat} (hk : Keeps c s) : Keeps c
    (State.slCount s h k n) := by
  unfold State.slCount
  repeat' first
    | with_reducible assumption
    | with_reducible refine keeps_ite (fun _ => ?_) (fun _ => ?_)
    | with_reducible apply State.addRg_keeps
    | split
    | (intro; try intro)

theorem State.slFlush_keeps {c : State} {s : State} {l : Nat} (hk : Keeps c s) : Keeps c (State.slFlush s l) := by
  unfold State.slFlush
  repeat' first
    | with_reducible assumption
    | with_reducible refine keeps_ite (fun _ => ?_) (fun _ => ?_)
    | simp only [keeps_upd]
    | with_reducible apply State.linkSend_keeps
    | split
    | (intro; try intro)

theorem State.slReturn_keeps {c : State} {s : State} {cc : SlCredit} (hk : Keeps c s) : Keeps c (State.slReturn s cc)
    := by
  unfold State.slReturn
  repeat' first
    | with_reducible assumption
    | with_reducible refine keeps_ite (fun _ => ?_) (fun _ => ?_)
    | simp only [keeps_upd]
    | with_reducible apply State.slFlush_keeps
    | split
    | (intro; try intro)

theorem State.slDiscardHeld_keeps {c : State} {s : State} {h : Nat} (hk : Keeps c s) : Keeps c (State.slDiscardHeld s
    h) := by
  unfold State.slDiscardHeld
  repeat' first
    | with_reducible assumption
    | with_reducible refine keeps_ite (fun _ => ?_) (fun _ => ?_)
    | simp only [keeps_upd]
    | with_reducible apply State.slCount_keeps
    | with_reducible apply State.slReturn_keeps
    | with_reducible refine keeps_foldl (fun _ _ _ => ?_) ?_
    | split
    | (intro; try intro)

theorem State.slCloseNow_keeps {c : State} {s : State} {h : Nat} (hk : Keeps c s) : Keeps c (State.slCloseNow s h) :=
    by
  unfold State.slCloseNow
  repeat' first
    | with_reducible assumption
    | with_reducible refine keeps_ite (fun _ => ?_) (fun _ => ?_)
    | with_reducible apply State.slDiscardHeld_keeps
    | with_reducible apply State.setRb_keeps
    | with_reducible apply State.setSlEnd_keeps
    | split
    | (intro; try intro)

theorem State.slDiscard_keeps {c : State} {s : State} {i : Nat} {f : SlFlight} (hk : Keeps c s) : Keeps c
    (State.slDiscard s i f) := by
  unfold State.slDiscard
  repeat' first
    | with_reducible assumption
    | with_reducible refine keeps_ite (fun _ => ?_) (fun _ => ?_)
    | simp only [keeps_upd]
    | with_reducible apply State.slCount_keeps
    | with_reducible apply State.slReturn_keeps
    | split
    | (intro; try intro)

theorem State.slFence_keeps {c : State} {s : State} {p : Nat} (hk : Keeps c s) : Keeps c (State.slFence s p) := by
  unfold State.slFence
  repeat' first
    | with_reducible assumption
    | with_reducible refine keeps_ite (fun _ => ?_) (fun _ => ?_)
    | simp only [keeps_upd]
    | with_reducible apply State.setRb_keeps
    | with_reducible apply State.setSlEnd_keeps
    | with_reducible refine keeps_foldl (fun _ _ _ => ?_) ?_
    | split
    | (intro; try intro)

theorem State.slPush_keeps {c : State} {s : State} {t : Nat} {h : Nat} {w : List Word} {idx : Nat} {rest : List Nat}
    (hk : Keeps c s) : Keeps c (State.slPush s t h w idx rest) := by
  unfold State.slPush
  repeat' first
    | with_reducible assumption
    | with_reducible refine keeps_ite (fun _ => ?_) (fun _ => ?_)
    | simp only [keeps_upd]
    | with_reducible apply State.slCount_keeps
    | with_reducible apply State.setSlEnd_keeps
    | with_reducible apply State.chargeNet_keeps
    | with_reducible apply State.linkSend_keeps
    | split
    | (intro; try intro)

theorem State.slWrite_keeps {c : State} {s : State} {h : Nat} {v : Word} (hk : Keeps c s) : Keeps c (State.slWrite s h
    v) := by
  unfold State.slWrite
  repeat' first
    | with_reducible assumption
    | with_reducible refine keeps_ite (fun _ => ?_) (fun _ => ?_)
    | with_reducible apply State.slCloseNow_keeps
    | with_reducible apply State.setRg_keeps
    | with_reducible apply State.setRb_keeps
    | with_reducible apply State.setSlEnd_keeps
    | with_reducible apply State.setRf_keeps
    | split
    | (intro; try intro)

theorem State.transitClose_keeps {c : State} {s : State} {t : Nat} {mbid : Nat} (hk : Keeps c s) : Keeps c
    (State.transitClose s t mbid) := by
  unfold State.transitClose
  repeat' first
    | with_reducible assumption
    | with_reducible refine keeps_ite (fun _ => ?_) (fun _ => ?_)
    | with_reducible apply State.setPhase_keeps
    | with_reducible apply State.writeDram_keeps
    | with_reducible apply State.addRg_keeps
    | with_reducible apply State.setTile_keeps
    | split
    | (intro; try intro)

theorem slWriteCmd_keeps {c : State} {h : Nat} {v : Word} {s : State} (hk : Keeps c s) : KeepsO c (slWriteCmd h v s)
    := by
  unfold slWriteCmd
  repeat' first
    | with_reducible assumption
    | with_reducible refine keeps_ite (fun _ => ?_) (fun _ => ?_)
    | simp only [keepsO_next]
    | with_reducible apply State.emit_keeps
    | with_reducible apply State.slWrite_keeps
    | split
    | (intro; try intro)

theorem execSlClose_keeps {c : State} {h : Nat} {v : Word} {s : State} (hk : Keeps c s) : KeepsO c (execSlClose h v s)
    := by
  unfold execSlClose
  repeat' first
    | with_reducible assumption
    | with_reducible refine keeps_ite (fun _ => ?_) (fun _ => ?_)
    | with_reducible apply slWriteCmd_keeps
    | split
    | (intro; try intro)

theorem execSlCreditArrival_keeps {c : State} {i : Nat} {s : State} (hk : Keeps c s) : KeepsO c (execSlCreditArrival i
    s) := by
  unfold execSlCreditArrival
  repeat' first
    | with_reducible assumption
    | with_reducible refine keeps_ite (fun _ => ?_) (fun _ => ?_)
    | simp only [keeps_upd, keepsO_next]
    | with_reducible apply State.setSlEnd_keeps
    | with_reducible apply State.slCount_keeps
    | split
    | (intro; try intro)

theorem execSlCreditFlush_keeps {c : State} {l : Nat} {s : State} (hk : Keeps c s) : KeepsO c (execSlCreditFlush l s)
    := by
  unfold execSlCreditFlush
  repeat' first
    | with_reducible assumption
    | with_reducible refine keeps_ite (fun _ => ?_) (fun _ => ?_)
    | simp only [keepsO_next]
    | with_reducible apply State.slFlush_keeps
    | split
    | (intro; try intro)

theorem execSlDataArrival_keeps {c : State} {i : Nat} {n : Nat} {s : State} (hk : Keeps c s) : KeepsO c
    (execSlDataArrival i n s) := by
  unfold execSlDataArrival
  repeat' first
    | with_reducible assumption
    | with_reducible refine keeps_ite (fun _ => ?_) (fun _ => ?_)
    | simp only [keeps_upd, keepsO_next]
    | with_reducible apply State.readAny_keeps
    | with_reducible apply State.reportX_keeps
    | with_reducible apply State.chargeNet_keeps
    | with_reducible apply State.linkSend_keeps
    | with_reducible apply State.settle_keeps
    | with_reducible apply State.writeAny_keeps
    | with_reducible apply State.slAdvance_keeps
    | with_reducible apply State.setSlEnd_keeps
    | split
    | (intro; try intro)

theorem execSlHeaderArrival_keeps {c : State} {i : Nat} {s : State} (hk : Keeps c s) : KeepsO c (execSlHeaderArrival i
    s) := by
  unfold execSlHeaderArrival
  repeat' first
    | with_reducible assumption
    | with_reducible refine keeps_ite (fun _ => ?_) (fun _ => ?_)
    | simp only [keeps_upd, keepsO_next]
    | with_reducible apply State.settle_keeps
    | with_reducible apply State.slDiscard_keeps
    | with_reducible apply State.setRb_keeps
    | with_reducible apply State.setSlEnd_keeps
    | with_reducible apply State.slAdvance_keeps
    | split
    | (intro; try intro)

theorem execSlOpen_keeps {c : State} {h : Nat} {v : Word} {s : State} (hk : Keeps c s) : KeepsO c (execSlOpen h v s)
    := by
  unfold execSlOpen
  repeat' first
    | with_reducible assumption
    | with_reducible refine keeps_ite (fun _ => ?_) (fun _ => ?_)
    | with_reducible apply slWriteCmd_keeps
    | split
    | (intro; try intro)

theorem execSqPop_keeps {c : State} {t : Nat} {gd : Reg} {ga : Reg} {gb : Reg} {s : State} (hk : Keeps c s) : KeepsO c
    (execSqPop t gd ga gb s) := by
  unfold execSqPop
  repeat' first
    | with_reducible assumption
    | with_reducible refine keeps_ite (fun _ => ?_) (fun _ => ?_)
    | simp only [keepsT_trap, keepsT_wait]
    | with_reducible apply State.run_keeps
    | with_reducible apply State.setSlEnd_keeps
    | with_reducible apply State.slCount_keeps
    | with_reducible apply State.writeSp_keeps
    | with_reducible apply State.setTile_keeps
    | with_reducible apply doneG_keeps
    | with_reducible apply State.setPhase_keeps
    | with_reducible apply noFiller_keeps
    | with_reducible apply orTrap_keeps
    | split
    | (intro; try intro)

theorem execSqPush_keeps {c : State} {t : Nat} {ga : Reg} {gb : Reg} {s : State} (hk : Keeps c s) : KeepsO c
    (execSqPush t ga gb s) := by
  unfold execSqPush
  repeat' first
    | with_reducible assumption
    | with_reducible refine keeps_ite (fun _ => ?_) (fun _ => ?_)
    | simp only [keepsT_done, keepsT_trap, keepsT_wait]
    | with_reducible apply State.run_keeps
    | with_reducible apply State.setTile_keeps
    | with_reducible apply State.slPush_keeps
    | with_reducible apply State.slCount_keeps
    | with_reducible apply noFiller_keeps
    | with_reducible apply orTrap_keeps
    | with_reducible apply State.descWords_keeps
    | split
    | (intro; try intro)

theorem execSqRel_keeps {c : State} {t : Nat} {ga : Reg} {gb : Reg} {s : State} (hk : Keeps c s) : KeepsO c (execSqRel
    t ga gb s) := by
  unfold execSqRel
  repeat' first
    | with_reducible assumption
    | with_reducible refine keeps_ite (fun _ => ?_) (fun _ => ?_)
    | simp only [keepsT_done, keepsT_trap, keepsT_wait]
    | with_reducible apply State.run_keeps
    | with_reducible apply State.setSlEnd_keeps
    | with_reducible apply State.slReturn_keeps
    | with_reducible apply State.transitClose_keeps
    | with_reducible apply State.setTile_keeps
    | with_reducible apply State.setPhase_keeps
    | with_reducible apply noFiller_keeps
    | split
    | (intro; try intro)

end Sys2Proof.Machine
end

