-- ==== Sys2Proof/Laws/KeepsSystem.lean ====
section
/-! SUPPORT. Every operation of System keeps the queue, the part, and the canonical forms. -/
set_option maxRecDepth 8000
namespace Sys2Proof.Machine

theorem State.csrWrite_keeps {c : State} {s : State} {t : Nat} {n : Nat} {v : Word} {res} (hk : Keeps c s) (eq :
    State.csrWrite s t n v = some res) : Keeps c res := by
  unfold State.csrWrite at eq
  try dsimp only at eq
  repeat' first
    | with_reducible cases eq
    | with_reducible assumption
    | with_reducible refine keeps_ite (fun _ => ?_) (fun _ => ?_)
    | with_reducible apply State.setTile_keeps
    | with_reducible apply State.setCnt_keeps
    | split
    | (intro; try intro)
    | split at eq

theorem State.setStream_keeps {c : State} {s : State} {t : Nat} {o : OStream} (hk : Keeps c s) : Keeps c
    (State.setStream s t o) := by
  unfold State.setStream
  repeat' first
    | with_reducible assumption
    | with_reducible refine keeps_ite (fun _ => ?_) (fun _ => ?_)
    | with_reducible apply State.setTile_keeps
    | split
    | (intro; try intro)

theorem csrOp_keeps {c : State} {i : Instr} {t : Nat} {gd : Reg} {ga : Reg} {num : BitVec 12} {new : Option (Word →
    Word → Word)} {s : State} (hk : Keeps c s) : KeepsO c (csrOp i t gd ga num new s) := by
  unfold csrOp
  refine State.run_keeps hk ?_
  have h0 : ∀ n : Nat, Keeps c (if 0x201 ≤ n then { s with freeIdx := s.freeIdx + 1 } else s) :=
    fun n => keeps_ite (fun _ => by rw [keeps_upd]; exact hk) (fun _ => hk)
  simp only
  cases s.csrRead t num.toNat with
  | none => trivial
  | some old =>
    cases new with
    | none => exact doneG_keeps (h0 _)
    | some f =>
      simp only
      generalize h : State.csrWrite _ t num.toNat (f old (s.g t ga)) = w
      cases w with
      | none => trivial
      | some s' => exact doneG_keeps (State.csrWrite_keeps (h0 _) h)

theorem execCsrClr_keeps {c : State} {t : Nat} {gd : Reg} {ga : Reg} {num : BitVec 12} {s : State} (hk : Keeps c s) :
    KeepsO c (execCsrClr t gd ga num s) := by
  unfold execCsrClr
  repeat' first
    | with_reducible assumption
    | with_reducible refine keeps_ite (fun _ => ?_) (fun _ => ?_)
    | with_reducible apply csrOp_keeps
    | split
    | (intro; try intro)

theorem execCsrRd_keeps {c : State} {t : Nat} {gd : Reg} {num : BitVec 12} {s : State} (hk : Keeps c s) : KeepsO c
    (execCsrRd t gd num s) := by
  unfold execCsrRd
  repeat' first
    | with_reducible assumption
    | with_reducible refine keeps_ite (fun _ => ?_) (fun _ => ?_)
    | with_reducible apply csrOp_keeps
    | split
    | (intro; try intro)

theorem execCsrSet_keeps {c : State} {t : Nat} {gd : Reg} {ga : Reg} {num : BitVec 12} {s : State} (hk : Keeps c s) :
    KeepsO c (execCsrSet t gd ga num s) := by
  unfold execCsrSet
  repeat' first
    | with_reducible assumption
    | with_reducible refine keeps_ite (fun _ => ?_) (fun _ => ?_)
    | with_reducible apply csrOp_keeps
    | split
    | (intro; try intro)

theorem execCsrSwap_keeps {c : State} {t : Nat} {gd : Reg} {ga : Reg} {num : BitVec 12} {s : State} (hk : Keeps c s) :
    KeepsO c (execCsrSwap t gd ga num s) := by
  unfold execCsrSwap
  repeat' first
    | with_reducible assumption
    | with_reducible refine keeps_ite (fun _ => ?_) (fun _ => ?_)
    | with_reducible apply csrOp_keeps
    | split
    | (intro; try intro)

theorem execCsrWr_keeps {c : State} {t : Nat} {ga : Reg} {num : BitVec 12} {s : State} (hk : Keeps c s) : KeepsO c
    (execCsrWr t ga num s) := by
  unfold execCsrWr
  repeat' first
    | with_reducible assumption
    | with_reducible refine keeps_ite (fun _ => ?_) (fun _ => ?_)
    | with_reducible apply csrOp_keeps
    | split
    | (intro; try intro)

theorem execHalt_keeps {c : State} {t : Nat} {s : State} (hk : Keeps c s) : KeepsO c (execHalt t s) := by
  unfold execHalt
  repeat' first
    | with_reducible assumption
    | with_reducible refine keeps_ite (fun _ => ?_) (fun _ => ?_)
    | simp only [keepsT_wait, keepsT_gone]
    | with_reducible apply State.run_keeps
    | with_reducible apply State.fillerEnd_keeps
    | with_reducible apply State.tileEnded_keeps
    | split
    | (intro; try intro)

theorem execRngGen_keeps {c : State} {t : Nat} {ga : Reg} {gb : Reg} {s : State} (hk : Keeps c s) : KeepsO c
    (execRngGen t ga gb s) := by
  unfold execRngGen
  repeat' first
    | with_reducible assumption
    | with_reducible refine keeps_ite (fun _ => ?_) (fun _ => ?_)
    | simp only [keepsT_done, keepsT_trap]
    | with_reducible apply State.run_keeps
    | with_reducible apply State.writeSp_keeps
    | with_reducible apply State.setStream_keeps
    | split
    | (intro; try intro)

theorem execRngGenR_keeps {c : State} {t : Nat} {gd : Reg} {s : State} (hk : Keeps c s) : KeepsO c (execRngGenR t gd
    s) := by
  unfold execRngGenR
  repeat' first
    | with_reducible assumption
    | with_reducible refine keeps_ite (fun _ => ?_) (fun _ => ?_)
    | with_reducible apply State.run_keeps
    | with_reducible apply doneG_keeps
    | with_reducible apply State.setStream_keeps
    | split
    | (intro; try intro)

theorem execTrap_keeps {c : State} {t : Nat} {ga : Reg} {s : State} (hk : Keeps c s) : KeepsO c (execTrap t ga s) :=
    by
  unfold execTrap
  repeat' first
    | with_reducible assumption
    | with_reducible refine keeps_ite (fun _ => ?_) (fun _ => ?_)
    | simp only [keepsT_trap]
    | with_reducible apply State.run_keeps
    | split
    | (intro; try intro)

theorem execTrapRet_keeps {c : State} {t : Nat} {s : State} (hk : Keeps c s) : KeepsO c (execTrapRet t s) := by
  unfold execTrapRet
  repeat' first
    | with_reducible assumption
    | with_reducible refine keeps_ite (fun _ => ?_) (fun _ => ?_)
    | simp only [keepsT_goto, keepsT_trap]
    | with_reducible apply State.run_keeps
    | with_reducible apply State.setTile_keeps
    | split
    | (intro; try intro)

end Sys2Proof.Machine
end

