-- ==== Sys2Proof/Laws/KeepsAlmanac.lean ====
section
/-! SUPPORT. Every operation of Almanac keeps the queue, the part, and the canonical forms. -/
set_option maxRecDepth 8000
namespace Sys2Proof.Machine

theorem State.setGroup_keeps {c : State} {s : State} {g : Nat} {x : AlGroup} (hk : Keeps c s) : Keeps c
    (State.setGroup s g x) := by
  unfold State.setGroup
  repeat' first
    | with_reducible assumption
    | with_reducible refine keeps_ite (fun _ => ?_) (fun _ => ?_)
    | simp only [keeps_upd]
    | split
    | (intro; try intro)

theorem State.alSend_keeps {c : State} {l g p pos n : Nat} {read : Nat → Nat → State → List Byte × State} {s : State}

       (hf : ∀ i n s, Keeps c s → Keeps c (read i n s).2) (hk : Keeps c s) : Keeps c (State.alSend l g p pos n read s)
    := by
  unfold State.alSend
  exact keeps_foldl (fun _ _ h => State.linkSend_keeps (hf _ _ _ h)) hk

theorem State.alCopy_keeps {c : State} {s : State} {g : Nat} (hk : Keeps c s) : Keeps c (State.alCopy s g) := by
  unfold State.alCopy
  repeat' first
    | with_reducible assumption
    | with_reducible refine keeps_ite (fun _ => ?_) (fun _ => ?_)
    | with_reducible apply State.setGroup_keeps
    | with_reducible apply State.alSend_keeps
    | with_reducible apply State.readAny_keeps
    | with_reducible refine keeps_foldl (fun _ _ _ => ?_) ?_
    | split
    | (intro; try intro)

theorem State.alRetire_keeps {c : State} {s : State} {g : Nat} (hk : Keeps c s) : Keeps c (State.alRetire s g) := by
  unfold State.alRetire
  repeat' first
    | with_reducible assumption
    | with_reducible refine keeps_ite (fun _ => ?_) (fun _ => ?_)
    | with_reducible apply State.setGroup_keeps
    | split
    | (intro; try intro)

theorem State.alAdvance_keeps {c : State} {s : State} {g : Nat} (hk : Keeps c s) : Keeps c (State.alAdvance s g) := by
  unfold State.alAdvance
  repeat' first
    | with_reducible assumption
    | with_reducible refine keeps_ite (fun _ => ?_) (fun _ => ?_)
    | with_reducible apply State.setGroup_keeps
    | with_reducible apply State.alCopy_keeps
    | with_reducible apply State.alRetire_keeps
    | split
    | (intro; try intro)

theorem State.alCopyAll_keeps {c : State} {s : State} (hk : Keeps c s) : Keeps c (State.alCopyAll s) := by
  unfold State.alCopyAll
  repeat' first
    | with_reducible assumption
    | with_reducible refine keeps_ite (fun _ => ?_) (fun _ => ?_)
    | with_reducible apply State.alCopy_keeps
    | with_reducible refine keeps_foldl (fun _ _ _ => ?_) ?_
    | split
    | (intro; try intro)

theorem State.dropCopy_keeps {c : State} {s : State} {g : Nat} (hk : Keeps c s) : Keeps c (State.dropCopy s g) := by
  unfold State.dropCopy
  repeat' first
    | with_reducible assumption
    | with_reducible refine keeps_ite (fun _ => ?_) (fun _ => ?_)
    | with_reducible apply State.dropUnit_keeps
    | with_reducible apply State.dropQueued_keeps
    | split
    | (intro; try intro)

theorem State.alEndGroup_keeps {c : State} {s : State} {g : Nat} {v : Word} (hk : Keeps c s) : Keeps c
    (State.alEndGroup s g v) := by
  unfold State.alEndGroup
  repeat' first
    | with_reducible assumption
    | with_reducible refine keeps_ite (fun _ => ?_) (fun _ => ?_)
    | simp only [keeps_upd]
    | with_reducible apply State.endCond_keeps
    | with_reducible apply State.setGroup_keeps
    | with_reducible apply State.setRg_keeps
    | with_reducible apply State.dropCopy_keeps
    | split
    | (intro; try intro)

theorem State.alFence_keeps {c : State} {s : State} {g : Nat} (hk : Keeps c s) : Keeps c (State.alFence s g) := by
  unfold State.alFence
  repeat' first
    | with_reducible assumption
    | with_reducible refine keeps_ite (fun _ => ?_) (fun _ => ?_)
    | simp only [keeps_upd]
    | with_reducible apply State.endCond_keeps
    | with_reducible apply State.setGroup_keeps
    | with_reducible apply State.dropCopy_keeps
    | split
    | (intro; try intro)

theorem State.alTurns_keeps {c : State} {g : Nat} {x1 : Nat} {x2 : State} (hk : Keeps c x2) : Keeps c (State.alTurns g
    x1 x2) := by
  induction x1 generalizing g x2 with
  | zero =>
    try simp only [State.alTurns]
    repeat' first
      | with_reducible assumption
      | with_reducible refine keeps_ite (fun _ => ?_) (fun _ => ?_)
      | with_reducible apply State.alAdvance_keeps
      | with_reducible apply State.setGroup_keeps
      | split
      | (intro; try intro)
  | succ k ih =>
    try simp only [State.alTurns]
    repeat' first
      | with_reducible assumption
      | with_reducible refine keeps_ite (fun _ => ?_) (fun _ => ?_)
      | with_reducible apply ih
      | with_reducible apply State.alAdvance_keeps
      | with_reducible apply State.setGroup_keeps
      | split
      | (intro; try intro)

theorem State.alLag_keeps {c : State} {s : State} {g : Nat} (hk : Keeps c s) : Keeps c (State.alLag s g) := by
  unfold State.alLag
  repeat' first
    | with_reducible assumption
    | with_reducible refine keeps_ite (fun _ => ?_) (fun _ => ?_)
    | with_reducible apply State.setGroup_keeps
    | with_reducible apply State.reportX_keeps
    | with_reducible apply State.endCond_keeps
    | split
    | (intro; try intro)

theorem State.alKick_keeps {c : State} {s : State} {g : Nat} (hk : Keeps c s) : Keeps c (State.alKick s g) := by
  unfold State.alKick
  repeat' first
    | with_reducible assumption
    | with_reducible refine keeps_ite (fun _ => ?_) (fun _ => ?_)
    | with_reducible apply State.alRetire_keeps
    | with_reducible apply State.alTurns_keeps
    | with_reducible apply State.alLag_keeps
    | with_reducible apply State.setGroup_keeps
    | split
    | (intro; try intro)

theorem State.alRaise_keeps {c : State} {s : State} {g : Nat} {v : BitVec 16} (hk : Keeps c s) : Keeps c
    (State.alRaise s g v) := by
  unfold State.alRaise
  repeat' first
    | with_reducible assumption
    | with_reducible refine keeps_ite (fun _ => ?_) (fun _ => ?_)
    | with_reducible apply State.reportX_keeps
    | with_reducible apply State.setGroup_keeps
    | split
    | (intro; try intro)

theorem State.alValidate_keeps {c : State} {s : State} {g : Nat} {v : Word} (hk : Keeps c s) : Keeps c
    (State.alValidate s g v) := by
  unfold State.alValidate
  repeat' first
    | with_reducible assumption
    | with_reducible refine keeps_ite (fun _ => ?_) (fun _ => ?_)
    | with_reducible apply State.setGroup_keeps
    | with_reducible apply State.dropCopy_keeps
    | with_reducible apply State.alKick_keeps
    | with_reducible apply State.alCopy_keeps
    | with_reducible apply State.setRb_keeps
    | with_reducible apply State.setRg_keeps
    | split
    | (intro; try intro)

theorem alBlock_keeps {c : State} {s : State} {t : Nat} {w : Word} {k : Nat → TRes} (hk : Keeps c s) (hf : ∀ a, KeepsT
    c (k a)) : KeepsT c (alBlock s t w k) := by
  unfold alBlock
  repeat' first
    | with_reducible assumption
    | with_reducible refine keeps_ite (fun _ => ?_) (fun _ => ?_)
    | simp only [keepsT_trap]
    | with_reducible apply noFiller_keeps
    | with_reducible apply hf
    | split
    | (intro; try intro)

theorem execAlCommit_keeps {c : State} {t : Nat} {gd : Reg} {ga : Reg} {s : State} (hk : Keeps c s) : KeepsO c
    (execAlCommit t gd ga s) := by
  unfold execAlCommit
  repeat' first
    | with_reducible assumption
    | with_reducible refine keeps_ite (fun _ => ?_) (fun _ => ?_)
    | simp only [keepsT_trap, keepsT_wait]
    | with_reducible apply State.run_keeps
    | with_reducible apply doneG_keeps
    | with_reducible apply State.setGroup_keeps
    | with_reducible apply noFiller_keeps
    | with_reducible apply State.alKick_keeps
    | split
    | (intro; try intro)

theorem execAlGet_keeps {c : State} {t : Nat} {gd : Reg} {ga : Reg} {s : State} (hk : Keeps c s) : KeepsO c (execAlGet
    t gd ga s) := by
  unfold execAlGet
  repeat' first
    | with_reducible assumption
    | with_reducible refine keeps_ite (fun _ => ?_) (fun _ => ?_)
    | with_reducible apply State.run_keeps
    | with_reducible apply alBlock_keeps
    | with_reducible apply doneG_keeps
    | split
    | (intro; try intro)

theorem execAlGetP_keeps {c : State} {t : Nat} {gd : Reg} {ga : Reg} {s : State} (hk : Keeps c s) : KeepsO c
    (execAlGetP t gd ga s) := by
  unfold execAlGetP
  repeat' first
    | with_reducible assumption
    | with_reducible refine keeps_ite (fun _ => ?_) (fun _ => ?_)
    | with_reducible apply State.run_keeps
    | with_reducible apply alBlock_keeps
    | with_reducible apply doneG_keeps
    | with_reducible apply State.alRaise_keeps
    | split
    | (intro; try intro)

theorem execAlGroupValidate_keeps {c : State} {g : Nat} {v : Word} {s : State} (hk : Keeps c s) : KeepsO c
    (execAlGroupValidate g v s) := by
  unfold execAlGroupValidate
  repeat' first
    | with_reducible assumption
    | with_reducible refine keeps_ite (fun _ => ?_) (fun _ => ?_)
    | simp only [keepsO_next]
    | with_reducible apply State.alValidate_keeps
    | split
    | (intro; try intro)

theorem execAlPin_keeps {c : State} {t : Nat} {ga : Reg} {gb : Reg} {s : State} (hk : Keeps c s) : KeepsO c (execAlPin
    t ga gb s) := by
  unfold execAlPin
  repeat' first
    | with_reducible assumption
    | with_reducible refine keeps_ite (fun _ => ?_) (fun _ => ?_)
    | simp only [keepsT_done, keepsT_trap]
    | with_reducible apply State.run_keeps
    | with_reducible apply alBlock_keeps
    | with_reducible apply State.alRaise_keeps
    | split
    | (intro; try intro)

theorem execAlUnpin_keeps {c : State} {t : Nat} {ga : Reg} {gb : Reg} {s : State} (hk : Keeps c s) : KeepsO c
    (execAlUnpin t ga gb s) := by
  unfold execAlUnpin
  repeat' first
    | with_reducible assumption
    | with_reducible refine keeps_ite (fun _ => ?_) (fun _ => ?_)
    | simp only [keepsT_done, keepsT_trap]
    | with_reducible apply State.run_keeps
    | with_reducible apply alBlock_keeps
    | with_reducible apply State.alKick_keeps
    | with_reducible apply State.setGroup_keeps
    | split
    | (intro; try intro)

theorem execMirrorAck_keeps {c : State} {g : Nat} {ver : Nat} {s : State} (hk : Keeps c s) : KeepsO c (execMirrorAck g
    ver s) := by
  unfold execMirrorAck
  repeat' first
    | with_reducible assumption
    | with_reducible refine keeps_ite (fun _ => ?_) (fun _ => ?_)
    | simp only [keepsO_next]
    | with_reducible apply State.takeCell_keeps
    | with_reducible apply State.setGroup_keeps
    | with_reducible apply State.alKick_keeps
    | with_reducible apply State.alCopy_keeps
    | split
    | (intro; try intro)

theorem execMirrorCopyArrival_keeps {c : State} {g : Nat} {ver : Nat} {s : State} (hk : Keeps c s) : KeepsO c
    (execMirrorCopyArrival g ver s) := by
  unfold execMirrorCopyArrival
  repeat' first
    | with_reducible assumption
    | with_reducible refine keeps_ite (fun _ => ?_) (fun _ => ?_)
    | simp only [keepsO_next]
    | with_reducible apply State.writeAny_keeps
    | with_reducible apply State.alAdvance_keeps
    | with_reducible apply State.dropUnit_keeps
    | with_reducible apply State.linkSend_keeps
    | with_reducible refine keeps_foldl (fun _ _ _ => ?_) ?_
    | split
    | (intro; try intro)

end Sys2Proof.Machine
end

