-- ==== Sys2Proof/Laws/KeepsFiller.lean ====
section
/-! SUPPORT. Every operation of Filler keeps the queue, the part, and the canonical forms. -/
set_option maxRecDepth 8000
namespace Sys2Proof.Machine

theorem State.filDrop_keeps {c : State} {s : State} (hk : Keeps c s) : Keeps c (State.filDrop s) := by
  unfold State.filDrop
  repeat' first
    | with_reducible assumption
    | with_reducible refine keeps_ite (fun _ => ?_) (fun _ => ?_)
    | simp only [keeps_upd]
    | split
    | (intro; try intro)

theorem State.filWrite_keeps {c : State} {s : State} {t : Nat} {v : Word} (hk : Keeps c s) : Keeps c (State.filWrite s
    t v) := by
  unfold State.filWrite
  repeat' first
    | with_reducible assumption
    | with_reducible refine keeps_ite (fun _ => ?_) (fun _ => ?_)
    | simp only [keeps_upd]
    | with_reducible apply State.filDrop_keeps
    | with_reducible apply State.setRg_keeps
    | split
    | (intro; try intro)

theorem execFilCtlWrite_keeps {c : State} {t : Nat} {v : Word} {s : State} (hk : Keeps c s) : KeepsO c
    (execFilCtlWrite t v s) := by
  unfold execFilCtlWrite
  repeat' first
    | with_reducible assumption
    | with_reducible refine keeps_ite (fun _ => ?_) (fun _ => ?_)
    | simp only [keepsO_next]
    | with_reducible apply State.emit_keeps
    | with_reducible apply State.filWrite_keeps
    | split
    | (intro; try intro)

theorem execFillerBoundExpiry_keeps {c : State} {t : Nat} {s : State} (hk : Keeps c s) : KeepsO c
    (execFillerBoundExpiry t s) := by
  unfold execFillerBoundExpiry
  repeat' first
    | with_reducible assumption
    | with_reducible refine keeps_ite (fun _ => ?_) (fun _ => ?_)
    | simp only [keepsO_next]
    | with_reducible apply State.fillerEnd_keeps
    | with_reducible apply State.tileReportX_keeps
    | split
    | (intro; try intro)

theorem execFillerTaskStart_keeps {c : State} {t : Nat} {s : State} (hk : Keeps c s) : KeepsO c (execFillerTaskStart t
    s) := by
  unfold execFillerTaskStart
  repeat' first
    | with_reducible assumption
    | with_reducible refine keeps_ite (fun _ => ?_) (fun _ => ?_)
    | simp only [keeps_upd, keepsO_next]
    | with_reducible apply State.readDram_keeps
    | with_reducible apply State.l1Flush_keeps
    | with_reducible apply State.setTile_keeps
    | with_reducible apply State.setPhase_keeps
    | split
    | (intro; try intro)

end Sys2Proof.Machine
end

