-- ==== Sys2Proof/Laws/KeepsCollective.lean ====
section
/-! SUPPORT. Every operation of Collective keeps the queue, the part, and the canonical forms. -/
set_option maxRecDepth 8000
namespace Sys2Proof.Machine

theorem State.msaMem_keeps {c : State} {s : State} {m : Nat} {p : Nat} {lost : Nat} (hk : Keeps c s) : Keeps c
    (State.msaMem s m p lost) := by
  unfold State.msaMem
  repeat' first
    | with_reducible assumption
    | with_reducible refine keeps_ite (fun _ => ?_) (fun _ => ?_)
    | with_reducible apply State.reportX_keeps
    | with_reducible apply State.setRb_keeps
    | split
    | (intro; try intro)

theorem State.msaRead_keeps {c : State} {s : State} {m : Nat} {p : Nat} {a : Nat} {n : Nat} (hk : Keeps c s) : Keeps c
    (State.msaRead s m p a n).2 := by
  unfold State.msaRead
  repeat' first
    | with_reducible assumption
    | with_reducible refine keeps_ite (fun _ => ?_) (fun _ => ?_)
    | with_reducible apply State.readDram_keeps
    | with_reducible apply State.msaMem_keeps
    | split
    | (intro; try intro)

theorem State.msaAdd_keeps {c : State} {s : State} {m : Nat} {p : Nat} {a : Nat} {first : Bool} {vs : List (BitVec
    32)} (hk : Keeps c s) : Keeps c (State.msaAdd s m p a first vs) := by
  unfold State.msaAdd
  repeat' first
    | with_reducible assumption
    | with_reducible refine keeps_ite (fun _ => ?_) (fun _ => ?_)
    | with_reducible apply State.writeDram_keeps
    | with_reducible apply State.msaRead_keeps
    | split
    | (intro; try intro)

theorem State.rxAddSum_keeps {c : State} {s : State} {h : Nat} {i : Nat} {r : Round} {j : Nat} {bs : List (Option
    Byte)} (hk : Keeps c s) : Keeps c (State.rxAddSum s h i r j bs).1 := by
  unfold State.rxAddSum
  repeat' first
    | with_reducible assumption
    | with_reducible refine keeps_ite (fun _ => ?_) (fun _ => ?_)
    | with_reducible apply State.msaAdd_keeps
    | split
    | (intro; try intro)

theorem State.setColl_keeps {c : State} {s : State} {h : Nat} {x : Coll} (hk : Keeps c s) : Keeps c (State.setColl s h
    x) := by
  unfold State.setColl
  repeat' first
    | with_reducible assumption
    | with_reducible refine keeps_ite (fun _ => ?_) (fun _ => ?_)
    | simp only [keeps_upd]
    | split
    | (intro; try intro)

theorem State.setContrib_keeps {c : State} {s : State} {h : Nat} {x : Contrib} {y : Option Contrib} (hk : Keeps c s) :
    Keeps c (State.setContrib s h x y) := by
  unfold State.setContrib
  repeat' first
    | with_reducible assumption
    | with_reducible refine keeps_ite (fun _ => ?_) (fun _ => ?_)
    | with_reducible apply State.setColl_keeps
    | split
    | (intro; try intro)

theorem State.rxAddStaged_keeps {c : State} {s : State} {h : Nat} {x : Contrib} {r : Round} (hk : Keeps c s) : Keeps c
    (State.rxAddStaged s h x r).1 := by
  unfold State.rxAddStaged
  repeat' first
    | with_reducible assumption
    | with_reducible refine keeps_ite (fun _ => ?_) (fun _ => ?_)
    | with_reducible apply State.readDram_keeps
    | with_reducible apply State.msaMem_keeps
    | with_reducible apply State.rxAddSum_keeps
    | with_reducible apply State.setContrib_keeps
    | with_reducible refine keeps_fold1 (fun _ _ _ => ?_) ?_
    | split
    | (intro; try intro)

theorem State.rxHear_keeps {c : State} {h : Nat} {s : State} {x : Heard} (hk : Keeps c s) : Keeps c (State.rxHear h s
    x) := by
  unfold State.rxHear
  repeat' first
    | with_reducible assumption
    | with_reducible refine keeps_ite (fun _ => ?_) (fun _ => ?_)
    | simp only [keeps_upd]
    | with_reducible apply State.setColl_keeps
    | split
    | (intro; try intro)

theorem State.rxComplete_keeps {c : State} {h : Nat} {s : State} {r : Round} (hk : Keeps c s) : Keeps c
    (State.rxComplete h s r) := by
  unfold State.rxComplete
  repeat' first
    | with_reducible assumption
    | with_reducible refine keeps_ite (fun _ => ?_) (fun _ => ?_)
    | with_reducible apply State.setColl_keeps
    | with_reducible apply State.rephase_keeps
    | with_reducible apply State.alKick_keeps
    | with_reducible refine keeps_foldl (fun _ _ _ => ?_) ?_
    | split
    | (intro; try intro)

theorem State.rxFree_keeps {c : State} {s : State} {h : Nat} (hk : Keeps c s) : Keeps c (State.rxFree s h) := by
  unfold State.rxFree
  repeat' first
    | with_reducible assumption
    | with_reducible refine keeps_ite (fun _ => ?_) (fun _ => ?_)
    | simp only [keeps_upd]
    | with_reducible apply State.setColl_keeps
    | split
    | (intro; try intro)

theorem State.rxSettleGo_keeps {c : State} {h : Nat} {i : Nat} {all : Bool} {x3 : List Nat} {x4 : State} {x5 : Round}
    (hk : Keeps c x4) : Keeps c (State.rxSettleGo h i all x3 x4 x5).1 := by
  induction x3 generalizing h i all x4 x5 with
  | nil =>
    try simp only [State.rxSettleGo]
    repeat' first
      | with_reducible assumption
      | with_reducible refine keeps_ite (fun _ => ?_) (fun _ => ?_)
      | with_reducible apply State.rxAddStaged_keeps
      | split
      | (intro; try intro)
  | cons y ys ih =>
    try simp only [State.rxSettleGo]
    repeat' first
      | with_reducible assumption
      | with_reducible refine keeps_ite (fun _ => ?_) (fun _ => ?_)
      | with_reducible apply ih
      | with_reducible apply State.rxAddStaged_keeps
      | split
      | (intro; try intro)

theorem State.rxFinishUnit_keeps {c : State} {h : Nat} {i : Nat} {r : Round} {s : State} {j : Nat} (hk : Keeps c s) :
    Keeps c (State.rxFinishUnit h i r s j) := by
  unfold State.rxFinishUnit
  repeat' first
    | with_reducible assumption
    | with_reducible refine keeps_ite (fun _ => ?_) (fun _ => ?_)
    | with_reducible apply State.msaRead_keeps
    | with_reducible apply State.msaAdd_keeps
    | with_reducible apply State.writeDram_keeps
    | split
    | (intro; try intro)

theorem State.rxNotice_keeps {c : State} {s : State} {h : Nat} {hops : Nat} {but : Option Nat} {ws : List Nat} (hk :
    Keeps c s) : Keeps c (State.rxNotice s h hops but ws) := by
  unfold State.rxNotice
  repeat' first
    | with_reducible assumption
    | with_reducible refine keeps_ite (fun _ => ?_) (fun _ => ?_)
    | with_reducible apply State.linkSend_keeps
    | with_reducible refine keeps_foldl (fun _ _ _ => ?_) ?_
    | split
    | (intro; try intro)

theorem State.rxTell_keeps {c : State} {s : State} {h : Nat} {hops : Nat} {but : Option Nat} {x : Heard} (hk : Keeps c
    s) : Keeps c (State.rxTell s h hops but x) := by
  unfold State.rxTell
  repeat' first
    | with_reducible assumption
    | with_reducible refine keeps_ite (fun _ => ?_) (fun _ => ?_)
    | with_reducible apply State.rxNotice_keeps
    | with_reducible refine keeps_foldl (fun _ _ _ => ?_) ?_
    | split
    | (intro; try intro)

theorem State.rxFinish_keeps {c : State} {s : State} {h : Nat} {i : Nat} {step : BitVec 16} (hk : Keeps c s) : Keeps c
    (State.rxFinish s h i step) := by
  unfold State.rxFinish
  repeat' first
    | with_reducible assumption
    | with_reducible refine keeps_ite (fun _ => ?_) (fun _ => ?_)
    | with_reducible apply State.rxFinishUnit_keeps
    | with_reducible apply State.msaRead_keeps
    | with_reducible apply State.setRb_keeps
    | with_reducible apply State.setColl_keeps
    | with_reducible apply State.rxTell_keeps
    | with_reducible refine keeps_foldl (fun _ _ _ => ?_) ?_
    | split
    | (intro; try intro)

theorem State.rxOnce_keeps {c : State} {s : State} {h : Nat} {order : Nat} {tag : Nat} {step : BitVec 16} {f : State →
    State} (hk : Keeps c s) (hf : ∀ s, Keeps c s → Keeps c (f s)) : Keeps c (State.rxOnce s h order tag step f) := by
  unfold State.rxOnce
  repeat' first
    | with_reducible assumption
    | with_reducible refine keeps_ite (fun _ => ?_) (fun _ => ?_)
    | with_reducible apply State.setColl_keeps
    | with_reducible apply hf
    | split
    | (intro; try intro)

theorem State.rxLate_keeps {c : State} {s : State} {h : Nat} {x : Contrib} {j : Nat} {bs : List (Option Byte)} (hk :
    Keeps c s) : Keeps c (State.rxLate s h x j bs) := by
  unfold State.rxLate
  repeat' first
    | with_reducible assumption
    | with_reducible refine keeps_ite (fun _ => ?_) (fun _ => ?_)
    | with_reducible apply State.rxOnce_keeps
    | with_reducible apply State.addRg_keeps
    | with_reducible apply State.msaAdd_keeps
    | with_reducible apply State.setColl_keeps
    | split
    | (intro; try intro)

theorem State.rxReleaseHome_keeps {c : State} {h : Nat} {step : BitVec 16} {s : State} {i : Nat} (hk : Keeps c s) :
    Keeps c (State.rxReleaseHome h step s i) := by
  unfold State.rxReleaseHome
  repeat' first
    | with_reducible assumption
    | with_reducible refine keeps_ite (fun _ => ?_) (fun _ => ?_)
    | with_reducible apply State.rxSettleGo_keeps
    | with_reducible apply State.setColl_keeps
    | with_reducible apply State.rxFinish_keeps
    | with_reducible apply State.readDram_keeps
    | with_reducible apply State.rxLate_keeps
    | with_reducible apply State.msaMem_keeps
    | with_reducible refine keeps_foldl (fun _ _ _ => ?_) ?_
    | split
    | (intro; try intro)

theorem State.rxRelease_keeps {c : State} {s : State} {h : Nat} {step : BitVec 16} (hk : Keeps c s) : Keeps c
    (State.rxRelease s h step) := by
  unfold State.rxRelease
  repeat' first
    | with_reducible assumption
    | with_reducible refine keeps_ite (fun _ => ?_) (fun _ => ?_)
    | with_reducible apply State.rxReleaseHome_keeps
    | with_reducible refine keeps_foldl (fun _ _ _ => ?_) ?_
    | split
    | (intro; try intro)

theorem State.rxAdvance_keeps {c : State} {h : Nat} {x1 : Nat} {x2 : State} (hk : Keeps c x2) : Keeps c
    (State.rxAdvance h x1 x2) := by
  induction x1 generalizing h x2 with
  | zero =>
    try simp only [State.rxAdvance]
    repeat' first
      | with_reducible assumption
      | with_reducible refine keeps_ite (fun _ => ?_) (fun _ => ?_)
      | with_reducible apply State.rxHear_keeps
      | with_reducible apply State.rxComplete_keeps
      | with_reducible apply State.rxFree_keeps
      | with_reducible apply State.rxRelease_keeps
      | with_reducible apply State.setColl_keeps
      | with_reducible apply State.rxReleaseHome_keeps
      | with_reducible refine keeps_foldl (fun _ _ _ => ?_) ?_
      | split
      | (intro; try intro)
  | succ k ih =>
    try simp only [State.rxAdvance]
    repeat' first
      | with_reducible assumption
      | with_reducible refine keeps_ite (fun _ => ?_) (fun _ => ?_)
      | with_reducible apply ih
      | with_reducible apply State.rxHear_keeps
      | with_reducible apply State.rxComplete_keeps
      | with_reducible apply State.rxFree_keeps
      | with_reducible apply State.rxRelease_keeps
      | with_reducible apply State.setColl_keeps
      | with_reducible apply State.rxReleaseHome_keeps
      | with_reducible refine keeps_foldl (fun _ _ _ => ?_) ?_
      | split
      | (intro; try intro)

theorem State.rxContribute_keeps {c : State} {s : State} {t : Nat} {h : Nat} {m : Nat} {a : Nat} {st : BitVec 16}
    {mark : Bool} (hk : Keeps c s) : Keeps c (State.rxContribute s t h m a st mark) := by
  unfold State.rxContribute
  repeat' first
    | with_reducible assumption
    | with_reducible refine keeps_ite (fun _ => ?_) (fun _ => ?_)
    | simp only [keeps_upd]
    | with_reducible apply State.setColl_keeps
    | split
    | (intro; try intro)

theorem State.rxLetIn_keeps {c : State} {s : State} {h : Nat} {x : Contrib} {g : Grant} {slot : Option Nat} (hk :
    Keeps c s) : Keeps c (State.rxLetIn s h x g slot) := by
  unfold State.rxLetIn
  repeat' first
    | with_reducible assumption
    | with_reducible refine keeps_ite (fun _ => ?_) (fun _ => ?_)
    | with_reducible apply State.setContrib_keeps
    | with_reducible apply State.linkSend_keeps
    | split
    | (intro; try intro)

theorem State.rxDup_keeps {c : State} {s : State} {h : Nat} {x : Contrib} (hk : Keeps c s) : Keeps c (State.rxDup s h
    x) := by
  unfold State.rxDup
  repeat' first
    | with_reducible assumption
    | with_reducible refine keeps_ite (fun _ => ?_) (fun _ => ?_)
    | with_reducible apply State.setContrib_keeps
    | with_reducible apply State.rxOnce_keeps
    | with_reducible apply State.addRg_keeps
    | with_reducible apply State.reportX_keeps
    | with_reducible apply State.setRb_keeps
    | with_reducible apply State.linkSend_keeps
    | split
    | (intro; try intro)

theorem State.setRound_keeps {c : State} {s : State} {h : Nat} {r : Round} (hk : Keeps c s) : Keeps c (State.setRound
    s h r) := by
  unfold State.setRound
  repeat' first
    | with_reducible assumption
    | with_reducible refine keeps_ite (fun _ => ?_) (fun _ => ?_)
    | with_reducible apply State.setColl_keeps
    | split
    | (intro; try intro)

theorem State.rxDecide_keeps {c : State} {h : Nat} {s : State} {x : Contrib} (hk : Keeps c s) : Keeps c
    (State.rxDecide h s x) := by
  unfold State.rxDecide
  repeat' first
    | with_reducible assumption
    | with_reducible refine keeps_ite (fun _ => ?_) (fun _ => ?_)
    | with_reducible apply State.rxLetIn_keeps
    | with_reducible apply State.rxDup_keeps
    | with_reducible apply State.setRound_keeps
    | split
    | (intro; try intro)

theorem State.setGstep_keeps {c : State} {s : State} {g : GStep} (hk : Keeps c s) : Keeps c (State.setGstep s g) := by
  unfold State.setGstep
  repeat' first
    | with_reducible assumption
    | with_reducible refine keeps_ite (fun _ => ?_) (fun _ => ?_)
    | simp only [keeps_upd]
    | split
    | (intro; try intro)

theorem State.rxKick_keeps {c : State} {s : State} {h : Nat} (hk : Keeps c s) : Keeps c (State.rxKick s h) := by
  unfold State.rxKick
  repeat' first
    | with_reducible assumption
    | with_reducible refine keeps_ite (fun _ => ?_) (fun _ => ?_)
    | with_reducible apply State.rxAdvance_keeps
    | with_reducible apply State.rxDecide_keeps
    | with_reducible refine keeps_foldl (fun _ _ _ => ?_) ?_
    | split
    | (intro; try intro)

theorem State.rxFarAsk_keeps {c : State} {s : State} {h : Nat} {shard : Nat} {member : Nat} {st : BitVec 16} {mark :
    Bool} {o : Nat} {via : Nat} (hk : Keeps c s) : Keeps c (State.rxFarAsk s h shard member st mark o via) := by
  unfold State.rxFarAsk
  repeat' first
    | with_reducible assumption
    | with_reducible refine keeps_ite (fun _ => ?_) (fun _ => ?_)
    | with_reducible apply State.setColl_keeps
    | with_reducible apply State.setGstep_keeps
    | with_reducible apply State.rxKick_keeps
    | split
    | (intro; try intro)

theorem State.rxFarDone_keeps {c : State} {s : State} {h : Nat} {x : Heard} {v : Hop} (hk : Keeps c s) : Keeps c
    (State.rxFarDone s h x v) := by
  unfold State.rxFarDone
  repeat' first
    | with_reducible assumption
    | with_reducible refine keeps_ite (fun _ => ?_) (fun _ => ?_)
    | with_reducible apply State.setColl_keeps
    | with_reducible apply State.rxTell_keeps
    | with_reducible apply State.rxKick_keeps
    | split
    | (intro; try intro)

theorem State.rxJoin_keeps {c : State} {s : State} {h : Nat} {hops : Nat} {but : Option Nat} (hk : Keeps c s) : Keeps
    c (State.rxJoin s h hops but) := by
  unfold State.rxJoin
  repeat' first
    | with_reducible assumption
    | with_reducible refine keeps_ite (fun _ => ?_) (fun _ => ?_)
    | with_reducible apply State.linkSend_keeps
    | with_reducible refine keeps_foldl (fun _ _ _ => ?_) ?_
    | split
    | (intro; try intro)

theorem State.rxFarJoin_keeps {c : State} {s : State} {h : Nat} {v : Hop} (hk : Keeps c s) : Keeps c (State.rxFarJoin
    s h v) := by
  unfold State.rxFarJoin
  repeat' first
    | with_reducible assumption
    | with_reducible refine keeps_ite (fun _ => ?_) (fun _ => ?_)
    | with_reducible apply State.setColl_keeps
    | with_reducible apply State.rxJoin_keeps
    | split
    | (intro; try intro)

theorem State.rxWriteNorm_keeps {c : State} {s : State} {h : Nat} {st : BitVec 16} {count : Nat} {void : Bool} {n1 :
    BitVec 32} {n2 : BitVec 32} (hk : Keeps c s) : Keeps c (State.rxWriteNorm s h st count void n1 n2) := by
  unfold State.rxWriteNorm
  repeat' first
    | with_reducible assumption
    | with_reducible refine keeps_ite (fun _ => ?_) (fun _ => ?_)
    | with_reducible apply State.writeDram_keeps
    | with_reducible apply State.setColl_keeps
    | split
    | (intro; try intro)

theorem State.rxFarNorm_keeps {c : State} {s : State} {h : Nat} {st : BitVec 16} {count : Nat} {void : Bool} {n : Nat}
    {v : Hop} (hk : Keeps c s) : Keeps c (State.rxFarNorm s h st count void n v) := by
  unfold State.rxFarNorm
  repeat' first
    | with_reducible assumption
    | with_reducible refine keeps_ite (fun _ => ?_) (fun _ => ?_)
    | with_reducible apply State.rxNotice_keeps
    | with_reducible apply State.rxWriteNorm_keeps
    | split
    | (intro; try intro)

theorem State.rxFarRelease_keeps {c : State} {s : State} {h : Nat} {st : BitVec 16} {shard : Nat} {v : Hop} (hk :
    Keeps c s) : Keeps c (State.rxFarRelease s h st shard v) := by
  unfold State.rxFarRelease
  repeat' first
    | with_reducible assumption
    | with_reducible refine keeps_ite (fun _ => ?_) (fun _ => ?_)
    | with_reducible apply State.forward_keeps
    | with_reducible apply State.linkSend_keeps
    | with_reducible apply State.setGstep_keeps
    | with_reducible apply State.rxKick_keeps
    | with_reducible apply State.rxReleaseHome_keeps
    | with_reducible apply State.setColl_keeps
    | split
    | (intro; try intro)

theorem State.rxJoinIn_keeps {c : State} {s : State} {h : Nat} {cc : LkCell} (hk : Keeps c s) : Keeps c
    (State.rxJoinIn s h cc) := by
  unfold State.rxJoinIn
  repeat' first
    | with_reducible assumption
    | with_reducible refine keeps_ite (fun _ => ?_) (fun _ => ?_)
    | simp only [keeps_upd]
    | with_reducible apply State.rxFarJoin_keeps
    | split
    | (intro; try intro)

theorem State.rxMeet_keeps {c : State} {s : State} {h : Nat} (hk : Keeps c s) : Keeps c (State.rxMeet s h) := by
  unfold State.rxMeet
  repeat' first
    | with_reducible assumption
    | with_reducible refine keeps_ite (fun _ => ?_) (fun _ => ?_)
    | with_reducible apply State.rxJoin_keeps
    | with_reducible apply State.rxFarJoin_keeps
    | with_reducible apply State.dropUnit_keeps
    | with_reducible refine keeps_foldl (fun _ _ _ => ?_) ?_
    | split
    | (intro; try intro)

theorem State.rxPassGrant_keeps {c : State} {s : State} {h : Nat} {shard : Nat} {member : Nat} {st : BitVec 16} {cell
    : LkCell} (hk : Keeps c s) : Keeps c (State.rxPassGrant s h shard member st cell) := by
  unfold State.rxPassGrant
  repeat' first
    | with_reducible assumption
    | with_reducible refine keeps_ite (fun _ => ?_) (fun _ => ?_)
    | simp only [keeps_upd]
    | with_reducible apply State.forward_keeps
    | with_reducible apply State.linkSend_keeps
    | with_reducible apply State.setColl_keeps
    | split
    | (intro; try intro)

theorem State.rxSettle_keeps {c : State} {s : State} {h : Nat} {i : Nat} {step : BitVec 16} (hk : Keeps c s) : Keeps c
    (State.rxSettle s h i step) := by
  unfold State.rxSettle
  repeat' first
    | with_reducible assumption
    | with_reducible refine keeps_ite (fun _ => ?_) (fun _ => ?_)
    | with_reducible apply State.rxSettleGo_keeps
    | with_reducible apply State.setRound_keeps
    | with_reducible apply State.rxFinish_keeps
    | split
    | (intro; try intro)

theorem execRaccWriteArrival_keeps {c : State} {h : Nat} {shard : Nat} {member : Nat} {step : Nat} {pos : Nat} {s :
    State} (hk : Keeps c s) : KeepsO c (execRaccWriteArrival h shard member step pos s) := by
  unfold execRaccWriteArrival
  repeat' first
    | with_reducible assumption
    | with_reducible refine keeps_ite (fun _ => ?_) (fun _ => ?_)
    | simp only [keepsO_next]
    | with_reducible apply State.dropUnit_keeps
    | with_reducible apply State.forward_keeps
    | with_reducible apply State.linkSend_keeps
    | with_reducible apply State.rxAddSum_keeps
    | with_reducible apply State.rxKick_keeps
    | with_reducible apply State.rxSettle_keeps
    | with_reducible apply State.setContrib_keeps
    | with_reducible apply State.setRound_keeps
    | with_reducible apply State.writeDram_keeps
    | with_reducible apply State.rxLate_keeps
    | with_reducible refine keeps_foldl (fun _ _ _ => ?_) ?_
    | split
    | (intro; try intro)

theorem rxNamed_keeps {c : State} {s : State} {t : Nat} {ga : Reg} {w : Word} {k : Nat → BitVec 16 → TRes} (hk : Keeps
    c s) (hf : ∀ a b, KeepsT c (k a b)) : KeepsT c (rxNamed s t ga w k) := by
  unfold rxNamed
  repeat' first
    | with_reducible assumption
    | with_reducible refine keeps_ite (fun _ => ?_) (fun _ => ?_)
    | simp only [keepsT_trap]
    | with_reducible apply noFiller_keeps
    | with_reducible apply hf
    | split
    | (intro; try intro)

theorem execRxContrib_keeps {c : State} {t : Nat} {gd : Reg} {ga : Reg} {gb : Reg} {gc : Reg} {s : State} (hk : Keeps
    c s) : KeepsO c (execRxContrib t gd ga gb gc s) := by
  unfold execRxContrib
  repeat' first
    | with_reducible assumption
    | with_reducible refine keeps_ite (fun _ => ?_) (fun _ => ?_)
    | simp only [keepsT_done, keepsT_trap]
    | with_reducible apply State.run_keeps
    | with_reducible apply rxNamed_keeps
    | with_reducible apply State.rxContribute_keeps
    | split
    | (intro; try intro)

theorem execRxGnorm_keeps {c : State} {t : Nat} {gd : Reg} {ga : Reg} {gb : Reg} {gc : Reg} {s : State} (hk : Keeps c
    s) : KeepsO c (execRxGnorm t gd ga gb gc s) := by
  unfold execRxGnorm
  repeat' first
    | with_reducible assumption
    | with_reducible refine keeps_ite (fun _ => ?_) (fun _ => ?_)
    | simp only [keepsT_done, keepsT_trap]
    | with_reducible apply State.run_keeps
    | with_reducible apply rxNamed_keeps
    | with_reducible apply State.rxContribute_keeps
    | with_reducible apply State.setColl_keeps
    | with_reducible apply State.setGstep_keeps
    | split
    | (intro; try intro)

theorem execRxGrant_keeps {c : State} {h : Nat} {shard : Nat} {member : Nat} {step : Nat} {s : State} (hk : Keeps c s)
    : KeepsO c (execRxGrant h shard member step s) := by
  unfold execRxGrant
  repeat' first
    | with_reducible assumption
    | with_reducible refine keeps_ite (fun _ => ?_) (fun _ => ?_)
    | simp only [keeps_upd, keepsO_next]
    | with_reducible apply State.rxPassGrant_keeps
    | with_reducible apply State.takeCell_keeps
    | with_reducible apply State.setContrib_keeps
    | with_reducible apply State.readAny_keeps
    | with_reducible apply State.linkSend_keeps
    | with_reducible apply State.chargeNet_keeps
    | with_reducible apply State.fillerSettle_keeps
    | with_reducible refine keeps_foldl (fun _ _ _ => ?_) ?_
    | split
    | (intro; try intro)

theorem execRxGrantRequest_keeps {c : State} {h : Nat} {shard : Nat} {member : Nat} {step : Nat} {s : State} (hk :
    Keeps c s) : KeepsO c (execRxGrantRequest h shard member step s) := by
  unfold execRxGrantRequest
  repeat' first
    | with_reducible assumption
    | with_reducible refine keeps_ite (fun _ => ?_) (fun _ => ?_)
    | simp only [keepsO_next]
    | with_reducible apply State.linkSend_keeps
    | with_reducible apply State.setContrib_keeps
    | with_reducible apply State.rxKick_keeps
    | with_reducible apply State.takeCell_keeps
    | with_reducible apply State.forward_keeps
    | with_reducible apply State.setColl_keeps
    | with_reducible apply State.rxFarAsk_keeps
    | split
    | (intro; try intro)

theorem execRxRelease_keeps {c : State} {t : Nat} {ga : Reg} {gb : Reg} {s : State} (hk : Keeps c s) : KeepsO c
    (execRxRelease t ga gb s) := by
  unfold execRxRelease
  repeat' first
    | with_reducible assumption
    | with_reducible refine keeps_ite (fun _ => ?_) (fun _ => ?_)
    | simp only [keepsT_done, keepsT_trap, keepsT_wait]
    | with_reducible apply State.run_keeps
    | with_reducible apply rxNamed_keeps
    | with_reducible apply State.linkSend_keeps
    | with_reducible apply State.setGstep_keeps
    | with_reducible apply State.rxKick_keeps
    | with_reducible apply State.rxRelease_keeps
    | with_reducible apply State.setColl_keeps
    | with_reducible refine keeps_foldl (fun _ _ _ => ?_) ?_
    | split
    | (intro; try intro)

theorem execRxWait_keeps {c : State} {t : Nat} {gd : Reg} {ga : Reg} {gb : Reg} {s : State} (hk : Keeps c s) : KeepsO
    c (execRxWait t gd ga gb s) := by
  unfold execRxWait
  repeat' first
    | with_reducible assumption
    | with_reducible refine keeps_ite (fun _ => ?_) (fun _ => ?_)
    | simp only [keepsT_trap, keepsT_wait]
    | with_reducible apply State.run_keeps
    | with_reducible apply doneG_keeps
    | with_reducible apply rxNamed_keeps
    | split
    | (intro; try intro)

end Sys2Proof.Machine
end

