-- ==== Sys2Proof/Laws/KeepsOptimizer.lean ====
section
/-! SUPPORT. Every operation of Optimizer keeps the queue, the part, and the canonical forms. -/
set_option maxRecDepth 8000
namespace Sys2Proof.Machine

theorem State.apBlockAt_keeps {c : State} {h : Nat} {i : Nat} {sum : Nat} {work : Nat} {a : Apply} {acc : State × Nat}
    {b : Nat} (hk : Keeps c acc.1) : Keeps c (State.apBlockAt h i sum work a acc b).1 := by
  unfold State.apBlockAt
  repeat' first
    | with_reducible assumption
    | with_reducible refine keeps_ite (fun _ => ?_) (fun _ => ?_)
    | with_reducible apply State.msaRead_keeps
    | with_reducible apply State.readDram_keeps
    | with_reducible apply State.msaMem_keeps
    | with_reducible apply State.writeDram_keeps
    | split
    | (intro; try intro)

theorem State.apFactor_keeps {c : State} {s : State} {d : List Word} {norm : BitVec 32} (hk : Keeps c s) : Keeps c
    (State.apFactor s d norm).2 := by
  unfold State.apFactor
  repeat' first
    | with_reducible assumption
    | with_reducible refine keeps_ite (fun _ => ?_) (fun _ => ?_)
    | simp only [keeps_upd]
    | split
    | (intro; try intro)

theorem State.gnormAgain_keeps {c : State} {s : State} {b : BitVec 16} (hk : Keeps c s) : Keeps c (State.gnormAgain s
    b) := by
  unfold State.gnormAgain
  repeat' first
    | with_reducible assumption
    | with_reducible refine keeps_ite (fun _ => ?_) (fun _ => ?_)
    | simp only [keeps_upd]
    | split
    | (intro; try intro)

theorem State.rxDrop_keeps {c : State} {s : State} {h : Nat} (hk : Keeps c s) : Keeps c (State.rxDrop s h) := by
  unfold State.rxDrop
  repeat' first
    | with_reducible assumption
    | with_reducible refine keeps_ite (fun _ => ?_) (fun _ => ?_)
    | simp only [keeps_upd]
    | with_reducible apply State.dropUnit_keeps
    | with_reducible apply State.setRb_keeps
    | with_reducible apply State.setColl_keeps
    | with_reducible apply State.setGroup_keeps
    | with_reducible apply State.alKick_keeps
    | split
    | (intro; try intro)

theorem State.rxFence_keeps {c : State} {s : State} {p : Nat} (hk : Keeps c s) : Keeps c (State.rxFence s p) := by
  unfold State.rxFence
  repeat' first
    | with_reducible assumption
    | with_reducible refine keeps_ite (fun _ => ?_) (fun _ => ?_)
    | simp only [keeps_upd]
    | with_reducible apply State.rxDrop_keeps
    | with_reducible refine keeps_foldl (fun _ _ _ => ?_) ?_
    | split
    | (intro; try intro)

theorem execAlGroupEnd_keeps {c : State} {g : Nat} {v : Word} {s : State} (hk : Keeps c s) : KeepsO c (execAlGroupEnd
    g v s) := by
  unfold execAlGroupEnd
  repeat' first
    | with_reducible assumption
    | with_reducible refine keeps_ite (fun _ => ?_) (fun _ => ?_)
    | simp only [keepsO_next]
    | with_reducible apply State.setGroup_keeps
    | with_reducible apply State.setRg_keeps
    | with_reducible apply State.alEndGroup_keeps
    | with_reducible apply State.rephase_keeps
    | with_reducible apply State.rxKick_keeps
    | with_reducible apply State.setColl_keeps
    | with_reducible refine keeps_foldl (fun _ _ _ => ?_) ?_
    | split
    | (intro; try intro)

theorem execAlmanacBlockReport_keeps {c : State} {i : Nat} {s : State} (hk : Keeps c s) : KeepsO c
    (execAlmanacBlockReport i s) := by
  unfold execAlmanacBlockReport
  repeat' first
    | with_reducible assumption
    | with_reducible refine keeps_ite (fun _ => ?_) (fun _ => ?_)
    | simp only [keeps_upd, keepsO_next]
    | with_reducible apply State.setGroup_keeps
    | with_reducible apply State.alAdvance_keeps
    | with_reducible apply State.alKick_keeps
    | split
    | (intro; try intro)

theorem execGnormForm_keeps {c : State} {step : Nat} {norm2 : BitVec 32} {s : State} (hk : Keeps c s) : KeepsO c
    (execGnormForm step norm2 s) := by
  unfold execGnormForm
  repeat' first
    | with_reducible assumption
    | with_reducible refine keeps_ite (fun _ => ?_) (fun _ => ?_)
    | simp only [keeps_upd, keepsO_next]
    | with_reducible apply State.setGstep_keeps
    | with_reducible apply State.rxNotice_keeps
    | with_reducible apply State.rxWriteNorm_keeps
    | with_reducible apply State.alKick_keeps
    | with_reducible refine keeps_foldl (fun _ _ _ => ?_) ?_
    | split
    | (intro; try intro)

theorem execMsaApplyBlockDone_keeps {c : State} {h : Nat} {shard : Nat} {s : State} (hk : Keeps c s) : KeepsO c
    (execMsaApplyBlockDone h shard s) := by
  unfold execMsaApplyBlockDone
  repeat' first
    | with_reducible assumption
    | with_reducible refine keeps_ite (fun _ => ?_) (fun _ => ?_)
    | simp only [keeps_upd, keepsO_next]
    | with_reducible apply State.apBlockAt_keeps
    | with_reducible apply State.addRg_keeps
    | with_reducible apply State.setColl_keeps
    | with_reducible apply State.rxKick_keeps
    | with_reducible apply State.rxFree_keeps
    | with_reducible refine keeps_fold1 (fun _ _ _ => ?_) ?_
    | split
    | (intro; try intro)

theorem execMsaApplyStart_keeps {c : State} {h : Nat} {s : State} (hk : Keeps c s) : KeepsO c (execMsaApplyStart h s)
    := by
  unfold execMsaApplyStart
  repeat' first
    | with_reducible assumption
    | with_reducible refine keeps_ite (fun _ => ?_) (fun _ => ?_)
    | simp only [keepsO_next]
    | with_reducible apply State.alKick_keeps
    | with_reducible apply State.apFactor_keeps
    | with_reducible apply State.reportX_keeps
    | with_reducible apply State.setGroup_keeps
    | with_reducible apply State.rephase_keeps
    | with_reducible apply State.setColl_keeps
    | split
    | (intro; try intro)

theorem execRxApply_keeps {c : State} {t : Nat} {ga : Reg} {gb : Reg} {gc : Reg} {s : State} (hk : Keeps c s) : KeepsO
    c (execRxApply t ga gb gc s) := by
  unfold execRxApply
  repeat' first
    | with_reducible assumption
    | with_reducible refine keeps_ite (fun _ => ?_) (fun _ => ?_)
    | simp only [keeps_upd, keepsT_done, keepsT_trap]
    | with_reducible apply State.run_keeps
    | with_reducible apply noFiller_keeps
    | with_reducible apply orTrap_keeps
    | with_reducible apply orHold_keeps
    | with_reducible apply State.descWords_keeps
    | with_reducible apply rxNamed_keeps
    | with_reducible apply State.rephase_keeps
    | with_reducible apply State.alKick_keeps
    | with_reducible apply State.setColl_keeps
    | split
    | (intro; try intro)

theorem execRxCollectiveDiscard_keeps {c : State} {h : Nat} {v : Word} {s : State} (hk : Keeps c s) : KeepsO c
    (execRxCollectiveDiscard h v s) := by
  unfold execRxCollectiveDiscard
  repeat' first
    | with_reducible assumption
    | with_reducible refine keeps_ite (fun _ => ?_) (fun _ => ?_)
    | simp only [keepsO_next]
    | with_reducible apply State.setRg_keeps
    | with_reducible apply State.rxDrop_keeps
    | split
    | (intro; try intro)

theorem execRxCollectiveValidate_keeps {c : State} {h : Nat} {v : Word} {s : State} (hk : Keeps c s) : KeepsO c
    (execRxCollectiveValidate h v s) := by
  unfold execRxCollectiveValidate
  repeat' first
    | with_reducible assumption
    | with_reducible refine keeps_ite (fun _ => ?_) (fun _ => ?_)
    | simp only [keepsO_next]
    | with_reducible apply State.setRg_keeps
    | with_reducible apply State.readAny_keeps
    | with_reducible apply State.setColl_keeps
    | with_reducible apply State.setRb_keeps
    | with_reducible apply State.rxMeet_keeps
    | with_reducible apply State.gnormAgain_keeps
    | with_reducible refine keeps_foldl (fun _ _ _ => ?_) ?_
    | split
    | (intro; try intro)

end Sys2Proof.Machine
end

