-- ==== Sys2Proof/Laws/KeepsExchange.lean ====
section
/-! SUPPORT. Every operation of Exchange keeps the queue, the part, and the canonical forms. -/
set_option maxRecDepth 8000
namespace Sys2Proof.Machine

theorem State.setEx_keeps {c : State} {s : State} {h : Nat} {x : ExState} (hk : Keeps c s) : Keeps c (State.setEx s h
    x) := by
  unfold State.setEx
  repeat' first
    | with_reducible assumption
    | with_reducible refine keeps_ite (fun _ => ?_) (fun _ => ?_)
    | simp only [keeps_upd]
    | split
    | (intro; try intro)

theorem State.exComplete_keeps {c : State} {s : State} {h : Nat} {e : Nat} {r : Nat} (hk : Keeps c s) : Keeps c
    (State.exComplete s h e r) := by
  unfold State.exComplete
  repeat' first
    | with_reducible assumption
    | with_reducible refine keeps_ite (fun _ => ?_) (fun _ => ?_)
    | with_reducible apply State.writeDram_keeps
    | with_reducible apply State.setEx_keeps
    | with_reducible apply State.chPost_keeps
    | split
    | (intro; try intro)

theorem State.exNote_keeps {c : State} {s : State} {h : Nat} {n : Nat} {kind : Nat} {ws : List Nat} {hops : optParam
    Nat 32} (hk : Keeps c s) : Keeps c (State.exNote s h n kind ws hops) := by
  unfold State.exNote
  repeat' first
    | with_reducible assumption
    | with_reducible refine keeps_ite (fun _ => ?_) (fun _ => ?_)
    | with_reducible apply State.linkSend_keeps
    | split
    | (intro; try intro)

theorem State.exFreeHalf_keeps {c : State} {s : State} {h : Nat} {e : Nat} {r : Nat} (hk : Keeps c s) : Keeps c
    (State.exFreeHalf s h e r) := by
  unfold State.exFreeHalf
  repeat' first
    | with_reducible assumption
    | with_reducible refine keeps_ite (fun _ => ?_) (fun _ => ?_)
    | with_reducible apply State.setEx_keeps
    | with_reducible apply State.exNote_keeps
    | with_reducible refine keeps_foldl (fun _ _ _ => ?_) ?_
    | split
    | (intro; try intro)

theorem State.exSettle_keeps {c : State} {h : Nat} {e : Nat} {x2 : Nat} {x3 : State} (hk : Keeps c x3) : Keeps c
    (State.exSettle h e x2 x3) := by
  induction x2 generalizing h e x3 with
  | zero =>
    try simp only [State.exSettle]
    repeat' first
      | with_reducible assumption
      | with_reducible refine keeps_ite (fun _ => ?_) (fun _ => ?_)
      | with_reducible apply State.exComplete_keeps
      | with_reducible apply State.exFreeHalf_keeps
      | split
      | (intro; try intro)
  | succ k ih =>
    try simp only [State.exSettle]
    repeat' first
      | with_reducible assumption
      | with_reducible refine keeps_ite (fun _ => ?_) (fun _ => ?_)
      | with_reducible apply ih
      | with_reducible apply State.exComplete_keeps
      | with_reducible apply State.exFreeHalf_keeps
      | split
      | (intro; try intro)

theorem State.exReturned_keeps {c : State} {s : State} {h : Nat} {w : List Word} (hk : Keeps c s) : Keeps c
    (State.exReturned s h w) := by
  unfold State.exReturned
  repeat' first
    | with_reducible assumption
    | with_reducible refine keeps_ite (fun _ => ?_) (fun _ => ?_)
    | with_reducible apply State.exSettle_keeps
    | with_reducible apply State.setEx_keeps
    | split
    | (intro; try intro)

theorem State.exAnswer_keeps {c : State} {s : State} {h : Nat} {org : Nat} {t : Nat} {r : Nat} {i : Nat} {go : Bool}
    (hk : Keeps c s) : Keeps c (State.exAnswer s h org t r i go) := by
  unfold State.exAnswer
  repeat' first
    | with_reducible assumption
    | with_reducible refine keeps_ite (fun _ => ?_) (fun _ => ?_)
    | simp only [keeps_upd]
    | with_reducible apply State.setEx_keeps
    | with_reducible apply State.exReturned_keeps
    | split
    | (intro; try intro)

theorem State.exCount_keeps {c : State} {s : State} {h : Nat} {k : Nat} (hk : Keeps c s) : Keeps c (State.exCount s h
    k) := by
  unfold State.exCount
  repeat' first
    | with_reducible assumption
    | with_reducible refine keeps_ite (fun _ => ?_) (fun _ => ?_)
    | with_reducible apply State.addRg_keeps
    | split
    | (intro; try intro)

theorem State.exOrphan_keeps {c : State} {s : State} {h : Nat} (hk : Keeps c s) : Keeps c (State.exOrphan s h) := by
  unfold State.exOrphan
  repeat' first
    | with_reducible assumption
    | with_reducible refine keeps_ite (fun _ => ?_) (fun _ => ?_)
    | with_reducible apply State.reportX_keeps
    | with_reducible apply State.exCount_keeps
    | split
    | (intro; try intro)

theorem State.exAsked_keeps {c : State} {s : State} {h : Nat} {from_ : Nat} {expert : Nat} {t : Nat} {r : Nat} {i :
    Nat} (hk : Keeps c s) : Keeps c (State.exAsked s h from_ expert t r i) := by
  unfold State.exAsked
  repeat' first
    | with_reducible assumption
    | with_reducible refine keeps_ite (fun _ => ?_) (fun _ => ?_)
    | simp only [keeps_upd]
    | with_reducible apply State.exNote_keeps
    | with_reducible apply State.exOrphan_keeps
    | with_reducible apply State.setEx_keeps
    | split
    | (intro; try intro)

theorem State.exDropHeld_keeps {c : State} {s : State} {h : Nat} {l : Nat} (hk : Keeps c s) : Keeps c
    (State.exDropHeld s h l) := by
  unfold State.exDropHeld
  repeat' first
    | with_reducible assumption
    | with_reducible refine keeps_ite (fun _ => ?_) (fun _ => ?_)
    | with_reducible apply State.setLink_keeps
    | with_reducible apply State.freeReq_keeps
    | with_reducible refine keeps_foldl (fun _ _ _ => ?_) ?_
    | split
    | (intro; try intro)

theorem State.exDrop_keeps {c : State} {s : State} {h : Nat} (hk : Keeps c s) : Keeps c (State.exDrop s h) := by
  unfold State.exDrop
  repeat' first
    | with_reducible assumption
    | with_reducible refine keeps_ite (fun _ => ?_) (fun _ => ?_)
    | with_reducible apply State.dropUnit_keeps
    | with_reducible apply State.dropQueued_keeps
    | with_reducible apply State.exDropHeld_keeps
    | with_reducible apply State.setRb_keeps
    | with_reducible apply State.setEx_keeps
    | with_reducible refine keeps_foldl (fun _ _ _ => ?_) ?_
    | split
    | (intro; try intro)

theorem State.exFence_keeps {c : State} {s : State} {p : Nat} (hk : Keeps c s) : Keeps c (State.exFence s p) := by
  unfold State.exFence
  repeat' first
    | with_reducible assumption
    | with_reducible refine keeps_ite (fun _ => ?_) (fun _ => ?_)
    | with_reducible apply State.exDrop_keeps
    | with_reducible refine keeps_foldl (fun _ _ _ => ?_) ?_
    | split
    | (intro; try intro)

theorem State.exHear_keeps {c : State} {s : State} {cc : LkCell} (hk : Keeps c s) : Keeps c (State.exHear s cc) := by
  unfold State.exHear
  repeat' first
    | with_reducible assumption
    | with_reducible refine keeps_ite (fun _ => ?_) (fun _ => ?_)
    | with_reducible apply State.forward_keeps
    | with_reducible apply State.exNote_keeps
    | with_reducible apply State.setEx_keeps
    | with_reducible apply State.exAsked_keeps
    | with_reducible apply State.exAnswer_keeps
    | split
    | (intro; try intro)

theorem State.exLand_keeps {c : State} {s : State} {h : Nat} {rc : ExRec} (hk : Keeps c s) : Keeps c (State.exLand s h
    rc) := by
  unfold State.exLand
  repeat' first
    | with_reducible assumption
    | with_reducible refine keeps_ite (fun _ => ?_) (fun _ => ?_)
    | with_reducible apply State.writeDram_keeps
    | with_reducible apply State.reportX_keeps
    | with_reducible apply State.setEx_keeps
    | with_reducible apply State.exCount_keeps
    | with_reducible apply State.exNote_keeps
    | split
    | (intro; try intro)

theorem State.exMark_keeps {c : State} {s : State} {h : Nat} {n : Nat} {r : Nat} (hk : Keeps c s) : Keeps c
    (State.exMark s h n r) := by
  unfold State.exMark
  repeat' first
    | with_reducible assumption
    | with_reducible refine keeps_ite (fun _ => ?_) (fun _ => ?_)
    | with_reducible apply State.setEx_keeps
    | with_reducible apply State.exSettle_keeps
    | with_reducible refine keeps_foldl (fun _ _ _ => ?_) ?_
    | split
    | (intro; try intro)

theorem State.exSendMark_keeps {c : State} {s : State} {h : Nat} {n : Nat} {from_ : Nat} {round : Nat} {hops :
    optParam Nat 32} (hk : Keeps c s) : Keeps c (State.exSendMark s h n from_ round hops) := by
  unfold State.exSendMark
  repeat' first
    | with_reducible assumption
    | with_reducible refine keeps_ite (fun _ => ?_) (fun _ => ?_)
    | with_reducible apply State.linkSend_keeps
    | split
    | (intro; try intro)

theorem State.exMarks_keeps {c : State} {s : State} {h : Nat} {r : Nat} (hk : Keeps c s) : Keeps c (State.exMarks s h
    r) := by
  unfold State.exMarks
  repeat' first
    | with_reducible assumption
    | with_reducible refine keeps_ite (fun _ => ?_) (fun _ => ?_)
    | with_reducible apply State.setEx_keeps
    | with_reducible apply State.exSendMark_keeps
    | with_reducible refine keeps_foldl (fun _ _ _ => ?_) ?_
    | split
    | (intro; try intro)

theorem State.exOutbound_keeps {c : State} {t : Nat} {h : Nat} {a : Nat} {round : Nat} {acc : State × ExDisp × Tab
    Nat} {i : Nat} (hk : Keeps c acc.1) : Keeps c (State.exOutbound t h a round acc i).1 := by
  unfold State.exOutbound
  repeat' first
    | with_reducible assumption
    | with_reducible refine keeps_ite (fun _ => ?_) (fun _ => ?_)
    | simp only [keeps_upd]
    | with_reducible apply State.readAny_keeps
    | with_reducible apply State.chargeNet_keeps
    | with_reducible apply State.exCount_keeps
    | with_reducible apply State.setEx_keeps
    | with_reducible apply State.reportX_keeps
    | split
    | (intro; try intro)

theorem State.exSend_keeps {c : State} {s : State} {h : Nat} {n : Nat} {cls : Nat} {pos : Nat} {bytes : List Byte}
    {hops : optParam Nat 32} (hk : Keeps c s) : Keeps c (State.exSend s h n cls pos bytes hops) := by
  unfold State.exSend
  repeat' first
    | with_reducible assumption
    | with_reducible refine keeps_ite (fun _ => ?_) (fun _ => ?_)
    | with_reducible apply State.linkSend_keeps
    | with_reducible refine keeps_foldl (fun _ _ _ => ?_) ?_
    | split
    | (intro; try intro)

theorem State.exWrite_keeps {c : State} {s : State} {h : Nat} {d : ExDisp} {i : Nat} {bytes : List Byte} {st : Nat}
    (hk : Keeps c s) : Keeps c (State.exWrite s h d i bytes st) := by
  unfold State.exWrite
  repeat' first
    | with_reducible assumption
    | with_reducible refine keeps_ite (fun _ => ?_) (fun _ => ?_)
    | with_reducible apply State.writeAny_keeps
    | with_reducible apply State.setEx_keeps
    | split
    | (intro; try intro)

theorem State.exTakeReturn_keeps {c : State} {s : State} {h : Nat} {bytes : List Byte} (hk : Keeps c s) : Keeps c
    (State.exTakeReturn s h bytes) := by
  unfold State.exTakeReturn
  repeat' first
    | with_reducible assumption
    | with_reducible refine keeps_ite (fun _ => ?_) (fun _ => ?_)
    | with_reducible apply State.exOrphan_keeps
    | with_reducible apply State.exWrite_keeps
    | split
    | (intro; try intro)

theorem exNamed_keeps {c : State} {s : State} {t : Nat} {ga : Reg} {gc : Reg} {k : Nat → Nat → TRes} (hk : Keeps c s)
    (hf : ∀ a b, KeepsT c (k a b)) : KeepsT c (exNamed s t ga gc k) := by
  unfold exNamed
  repeat' first
    | with_reducible assumption
    | with_reducible refine keeps_ite (fun _ => ?_) (fun _ => ?_)
    | simp only [keepsT_trap]
    | with_reducible apply noFiller_keeps
    | with_reducible apply hf
    | split
    | (intro; try intro)

theorem execExCombine_keeps {c : State} {t : Nat} {ga : Reg} {gb : Reg} {gc : Reg} {s : State} (hk : Keeps c s) :
    KeepsO c (execExCombine t ga gb gc s) := by
  unfold execExCombine
  repeat' first
    | with_reducible assumption
    | with_reducible refine keeps_ite (fun _ => ?_) (fun _ => ?_)
    | simp only [keepsT_done, keepsT_trap]
    | with_reducible apply State.run_keeps
    | with_reducible apply exNamed_keeps
    | with_reducible apply State.setEx_keeps
    | with_reducible apply State.exNote_keeps
    | with_reducible apply State.exWrite_keeps
    | with_reducible apply State.reportX_keeps
    | with_reducible refine keeps_foldl (fun _ _ _ => ?_) ?_
    | split
    | (intro; try intro)

theorem execExDispatch_keeps {c : State} {t : Nat} {ga : Reg} {gb : Reg} {gc : Reg} {s : State} (hk : Keeps c s) :
    KeepsO c (execExDispatch t ga gb gc s) := by
  unfold execExDispatch
  repeat' first
    | with_reducible assumption
    | with_reducible refine keeps_ite (fun _ => ?_) (fun _ => ?_)
    | simp only [keepsT_done, keepsT_trap, keepsT_wait]
    | with_reducible apply State.run_keeps
    | with_reducible apply exNamed_keeps
    | with_reducible apply State.readAny_keeps
    | with_reducible apply State.reportX_keeps
    | with_reducible apply State.setEx_keeps
    | with_reducible apply State.exOutbound_keeps
    | with_reducible apply State.exMarks_keeps
    | with_reducible refine keeps_fold1 (fun _ _ _ => ?_) ?_
    | split
    | (intro; try intro)

theorem execExHandleDiscard_keeps {c : State} {h : Nat} {v : Word} {s : State} (hk : Keeps c s) : KeepsO c
    (execExHandleDiscard h v s) := by
  unfold execExHandleDiscard
  repeat' first
    | with_reducible assumption
    | with_reducible refine keeps_ite (fun _ => ?_) (fun _ => ?_)
    | simp only [keepsO_next]
    | with_reducible apply State.exDrop_keeps
    | with_reducible apply State.setRg_keeps
    | split
    | (intro; try intro)

theorem execExHandleValidate_keeps {c : State} {h : Nat} {v : Word} {s : State} (hk : Keeps c s) : KeepsO c
    (execExHandleValidate h v s) := by
  unfold execExHandleValidate
  repeat' first
    | with_reducible assumption
    | with_reducible refine keeps_ite (fun _ => ?_) (fun _ => ?_)
    | simp only [keepsO_next]
    | with_reducible apply State.setRg_keeps
    | with_reducible apply State.readAny_keeps
    | with_reducible apply State.setEx_keeps
    | with_reducible apply State.setRb_keeps
    | with_reducible refine keeps_foldl (fun _ _ _ => ?_) ?_
    | split
    | (intro; try intro)

theorem execExchDropNotice_keeps {c : State} {h : Nat} {srcTile : Nat} {round : Nat} {index : Nat} {engine : Nat} {s :
    State} (hk : Keeps c s) : KeepsO c (execExchDropNotice h srcTile round index engine s) := by
  unfold execExchDropNotice
  repeat' first
    | with_reducible assumption
    | with_reducible refine keeps_ite (fun _ => ?_) (fun _ => ?_)
    | simp only [keepsO_next]
    | with_reducible apply State.takeCell_keeps
    | with_reducible apply State.setEx_keeps
    | with_reducible apply State.forward_keeps
    | with_reducible apply State.exNote_keeps
    | with_reducible apply State.exWrite_keeps
    | split
    | (intro; try intro)

theorem execExchEndMark_keeps {c : State} {h : Nat} {engine : Nat} {round : Nat} {dest : Nat} {s : State} (hk : Keeps
    c s) : KeepsO c (execExchEndMark h engine round dest s) := by
  unfold execExchEndMark
  repeat' first
    | with_reducible assumption
    | with_reducible refine keeps_ite (fun _ => ?_) (fun _ => ?_)
    | simp only [keepsO_next]
    | with_reducible apply State.takeCell_keeps
    | with_reducible apply State.forward_keeps
    | with_reducible apply State.exSendMark_keeps
    | with_reducible apply State.exMark_keeps
    | with_reducible apply State.exMarks_keeps
    | split
    | (intro; try intro)

theorem execExchRecordArrival_keeps {c : State} {h : Nat} {i : Nat} {far : Bool} {s : State} (hk : Keeps c s) : KeepsO
    c (execExchRecordArrival h i far s) := by
  unfold execExchRecordArrival
  repeat' first
    | with_reducible assumption
    | with_reducible refine keeps_ite (fun _ => ?_) (fun _ => ?_)
    | simp only [keepsO_next]
    | with_reducible apply State.setEx_keeps
    | with_reducible apply State.reportX_keeps
    | with_reducible apply State.exMarks_keeps
    | with_reducible apply State.exSend_keeps
    | with_reducible apply State.exLand_keeps
    | with_reducible apply State.takeCells_keeps
    | with_reducible apply State.forward_keeps
    | split
    | (intro; try intro)

theorem execExchReturnArrival_keeps {c : State} {h : Nat} {i : Nat} {far : Bool} {s : State} (hk : Keeps c s) : KeepsO
    c (execExchReturnArrival h i far s) := by
  unfold execExchReturnArrival
  repeat' first
    | with_reducible assumption
    | with_reducible refine keeps_ite (fun _ => ?_) (fun _ => ?_)
    | simp only [keepsO_next]
    | with_reducible apply State.setEx_keeps
    | with_reducible apply State.readAny_keeps
    | with_reducible apply State.reportX_keeps
    | with_reducible apply State.exNote_keeps
    | with_reducible apply State.exReturned_keeps
    | with_reducible apply State.exSend_keeps
    | with_reducible apply State.exOrphan_keeps
    | with_reducible apply State.exTakeReturn_keeps
    | with_reducible apply State.takeCells_keeps
    | with_reducible apply State.forward_keeps
    | split
    | (intro; try intro)

end Sys2Proof.Machine
end

