-- ==== Sys2Proof/Laws/KeepsPartition.lean ====
section
/-! SUPPORT. Every operation of Partition keeps the queue, the part, and the canonical forms. -/
set_option maxRecDepth 8000
namespace Sys2Proof.Machine

theorem State.dmaFence_keeps {c : State} {s : State} {t : Nat} (hk : Keeps c s) : Keeps c (State.dmaFence s t) := by
  unfold State.dmaFence
  repeat' first
    | with_reducible assumption
    | with_reducible refine keeps_ite (fun _ => ?_) (fun _ => ?_)
    | simp only [keeps_upd]
    | with_reducible apply State.dmaRows_keeps
    | with_reducible apply State.writeAny_keeps
    | with_reducible apply State.setTile_keeps
    | with_reducible refine keeps_foldl (fun _ _ _ => ?_) ?_
    | split
    | (intro; try intro)

theorem State.eraseKey_keeps {c : State} {s : State} {p : Nat} (hk : Keeps c s) : Keeps c (State.eraseKey s p) := by
  unfold State.eraseKey
  repeat' first
    | with_reducible assumption
    | with_reducible refine keeps_ite (fun _ => ?_) (fun _ => ?_)
    | with_reducible apply State.freshKeyId_keeps
    | with_reducible apply State.setPart_keeps
    | split
    | (intro; try intro)

theorem State.fenceTile_keeps {c : State} {s : State} {t : Nat} (hk : Keeps c s) : Keeps c (State.fenceTile s t) := by
  unfold State.fenceTile
  repeat' first
    | with_reducible assumption
    | with_reducible refine keeps_ite (fun _ => ?_) (fun _ => ?_)
    | simp only [keeps_upd]
    | with_reducible apply State.vecFence_keeps
    | with_reducible apply State.dmaFence_keeps
    | with_reducible apply State.setTile_keeps
    | with_reducible apply State.stopTile_keeps
    | split
    | (intro; try intro)

theorem State.fence_keeps {c : State} {s : State} {p : Nat} (hk : Keeps c s) : Keeps c (State.fence s p) := by
  unfold State.fence
  repeat' first
    | with_reducible assumption
    | with_reducible refine keeps_ite (fun _ => ?_) (fun _ => ?_)
    | simp only [keeps_upd]
    | with_reducible apply State.setPart_keeps
    | with_reducible apply State.fwSettle_keeps
    | with_reducible apply State.fenceTile_keeps
    | with_reducible apply State.clearFillers_keeps
    | with_reducible apply State.slFence_keeps
    | with_reducible apply State.alFence_keeps
    | with_reducible apply State.mediaFence_keeps
    | with_reducible apply State.exFence_keeps
    | with_reducible apply State.rxFence_keeps
    | with_reducible apply State.alCopy_keeps
    | with_reducible apply State.markOps_keeps
    | with_reducible apply State.partEvent_keeps
    | with_reducible refine keeps_foldl (fun _ _ _ => ?_) ?_
    | split
    | (intro; try intro)

theorem State.fenceIf_keeps {c : State} {s : State} {p : Nat} (hk : Keeps c s) : Keeps c (State.fenceIf s p) := by
  unfold State.fenceIf
  repeat' first
    | with_reducible assumption
    | with_reducible refine keeps_ite (fun _ => ?_) (fun _ => ?_)
    | with_reducible apply State.fence_keeps
    | split
    | (intro; try intro)

theorem State.loadImage_keeps {c : State} {s : State} {p : Nat} {bs : List (Nat × Byte)} (hk : Keeps c s) : Keeps c
    (State.loadImage s p bs) := by
  unfold State.loadImage
  repeat' first
    | with_reducible assumption
    | with_reducible refine keeps_ite (fun _ => ?_) (fun _ => ?_)
    | with_reducible apply State.storeCw_keeps
    | with_reducible apply State.writeSp_keeps
    | with_reducible refine keeps_foldl (fun _ _ _ => ?_) ?_
    | split
    | (intro; try intro)

theorem State.loadTsev_keeps {c : State} {s : State} {p : Nat} (hk : Keeps c s) : Keeps c (State.loadTsev s p) := by
  unfold State.loadTsev
  repeat' first
    | with_reducible assumption
    | with_reducible refine keeps_ite (fun _ => ?_) (fun _ => ?_)
    | with_reducible apply State.setRg_keeps
    | with_reducible refine keeps_foldl (fun _ _ _ => ?_) ?_
    | split
    | (intro; try intro)

theorem State.partInvalid_keeps {c : State} {s : State} {p : Nat} (hk : Keeps c s) : Keeps c (State.partInvalid s p)
    := by
  unfold State.partInvalid
  repeat' first
    | with_reducible assumption
    | with_reducible refine keeps_ite (fun _ => ?_) (fun _ => ?_)
    | with_reducible apply State.eraseKey_keeps
    | with_reducible apply State.setPart_keeps
    | split
    | (intro; try intro)

theorem State.setTileRegs_keeps {c : State} {s : State} {p : Nat} {groups : Nat} (hk : Keeps c s) : Keeps c
    (State.setTileRegs s p groups) := by
  unfold State.setTileRegs
  repeat' first
    | with_reducible assumption
    | with_reducible refine keeps_ite (fun _ => ?_) (fun _ => ?_)
    | with_reducible apply State.setRg_keeps
    | split
    | (intro; try intro)

theorem State.partValid_keeps {c : State} {s : State} {p : Nat} (hk : Keeps c s) : Keeps c (State.partValid s p) := by
  unfold State.partValid
  repeat' first
    | with_reducible assumption
    | with_reducible refine keeps_ite (fun _ => ?_) (fun _ => ?_)
    | with_reducible apply State.setPart_keeps
    | with_reducible apply State.setTileRegs_keeps
    | split
    | (intro; try intro)

theorem State.placeTile_keeps {c : State} {p : Nat} {s : State} {t : Nat} (hk : Keeps c s) : Keeps c (State.placeTile
    p s t) := by
  unfold State.placeTile
  repeat' first
    | with_reducible assumption
    | with_reducible refine keeps_ite (fun _ => ?_) (fun _ => ?_)
    | with_reducible apply State.clearSp_keeps
    | with_reducible apply State.setRg_keeps
    | with_reducible apply State.setTile_keeps
    | with_reducible apply State.stopTile_keeps
    | split
    | (intro; try intro)

theorem State.place_keeps {c : State} {s : State} {p : Nat} {job : Nat} {env : Envelope} (hk : Keeps c s) : Keeps c
    (State.place s p job env) := by
  unfold State.place
  repeat' first
    | with_reducible assumption
    | with_reducible refine keeps_ite (fun _ => ?_) (fun _ => ?_)
    | with_reducible apply State.freshKeyId_keeps
    | with_reducible apply State.setPart_keeps
    | with_reducible apply State.loadTsev_keeps
    | with_reducible apply State.placeTile_keeps
    | with_reducible refine keeps_foldl (fun _ _ _ => ?_) ?_
    | split
    | (intro; try intro)

theorem State.resetTsev_keeps {c : State} {s : State} {p : Nat} (hk : Keeps c s) : Keeps c (State.resetTsev s p) := by
  unfold State.resetTsev
  repeat' first
    | with_reducible assumption
    | with_reducible refine keeps_ite (fun _ => ?_) (fun _ => ?_)
    | with_reducible apply State.setRg_keeps
    | with_reducible refine keeps_foldl (fun _ _ _ => ?_) ?_
    | split
    | (intro; try intro)

theorem State.startTile_keeps {c : State} {p : Nat} {s : State} {e : Nat × Nat} (hk : Keeps c s) : Keeps c
    (State.startTile p s e) := by
  unfold State.startTile
  repeat' first
    | with_reducible assumption
    | with_reducible refine keeps_ite (fun _ => ?_) (fun _ => ?_)
    | with_reducible apply State.setTile_keeps
    | split
    | (intro; try intro)

theorem State.stopJob_keeps {c : State} {s : State} {p : Nat} (hk : Keeps c s) : Keeps c (State.stopJob s p) := by
  unfold State.stopJob
  repeat' first
    | with_reducible assumption
    | with_reducible refine keeps_ite (fun _ => ?_) (fun _ => ?_)
    | with_reducible apply State.markOps_keeps
    | with_reducible apply State.enterEnding_keeps
    | split
    | (intro; try intro)

theorem State.toIdle_keeps {c : State} {s : State} {p : Nat} (hk : Keeps c s) : Keeps c (State.toIdle s p) := by
  unfold State.toIdle
  repeat' first
    | with_reducible assumption
    | with_reducible refine keeps_ite (fun _ => ?_) (fun _ => ?_)
    | with_reducible apply State.setPart_keeps
    | with_reducible apply State.completeOps_keeps
    | with_reducible apply State.resetTsev_keeps
    | split
    | (intro; try intro)

theorem execEndingComplete_keeps {c : State} {p : Nat} {s : State} (hk : Keeps c s) : KeepsO c (execEndingComplete p
    s) := by
  unfold execEndingComplete
  repeat' first
    | with_reducible assumption
    | with_reducible refine keeps_ite (fun _ => ?_) (fun _ => ?_)
    | simp only [keepsO_next]
    | with_reducible apply State.toIdle_keeps
    | split
    | (intro; try intro)

theorem execFenceComplete_keeps {c : State} {p : Nat} {s : State} (hk : Keeps c s) : KeepsO c (execFenceComplete p s)
    := by
  unfold execFenceComplete
  repeat' first
    | with_reducible assumption
    | with_reducible refine keeps_ite (fun _ => ?_) (fun _ => ?_)
    | simp only [keepsO_next]
    | with_reducible apply State.toIdle_keeps
    | split
    | (intro; try intro)

theorem execPartInvalidate_keeps {c : State} {p : Nat} {_v : Word} {s : State} (hk : Keeps c s) : KeepsO c
    (execPartInvalidate p _v s) := by
  unfold execPartInvalidate
  repeat' first
    | with_reducible assumption
    | with_reducible refine keeps_ite (fun _ => ?_) (fun _ => ?_)
    | simp only [keepsO_next]
    | with_reducible apply State.partInvalid_keeps
    | split
    | (intro; try intro)

theorem execPartValidate_keeps {c : State} {p : Nat} {_v : Word} {s : State} (hk : Keeps c s) : KeepsO c
    (execPartValidate p _v s) := by
  unfold execPartValidate
  repeat' first
    | with_reducible assumption
    | with_reducible refine keeps_ite (fun _ => ?_) (fun _ => ?_)
    | simp only [keepsO_next]
    | with_reducible apply State.partValid_keeps
    | split
    | (intro; try intro)

theorem execPlacingComplete_keeps {c : State} {p : Nat} {s : State} (hk : Keeps c s) : KeepsO c (execPlacingComplete p
    s) := by
  unfold execPlacingComplete
  repeat' first
    | with_reducible assumption
    | with_reducible refine keeps_ite (fun _ => ?_) (fun _ => ?_)
    | simp only [keepsO_next]
    | with_reducible apply State.fence_keeps
    | with_reducible apply State.markOps_keeps
    | with_reducible apply State.loadImage_keeps
    | with_reducible apply State.writeSp_keeps
    | with_reducible apply State.startTile_keeps
    | with_reducible apply State.completeOps_keeps
    | with_reducible apply State.setPart_keeps
    | with_reducible apply State.enterEnding_keeps
    | with_reducible refine keeps_foldl (fun _ _ _ => ?_) ?_
    | split
    | (intro; try intro)

theorem execTileReset_keeps {c : State} {t : Nat} {s : State} (hk : Keeps c s) : KeepsO c (execTileReset t s) := by
  unfold execTileReset
  repeat' first
    | with_reducible assumption
    | with_reducible refine keeps_ite (fun _ => ?_) (fun _ => ?_)
    | simp only [keepsO_next]
    | with_reducible apply State.tileEnded_keeps
    | with_reducible apply State.setTile_keeps
    | split
    | (intro; try intro)

end Sys2Proof.Machine
end

