-- ==== Sys2Proof/Laws/KeepsFault.lean ====
section
/-! SUPPORT. Every operation of Fault keeps the queue, the part, and the canonical forms. -/
set_option maxRecDepth 8000
namespace Sys2Proof.Machine

theorem State.storeReport_keeps {c : State} {s : State} {r : Report} {fenced : Bool} (hk : Keeps c s) : Keeps c
    (State.storeReport s r fenced) := by
  unfold State.storeReport
  repeat' first
    | with_reducible assumption
    | with_reducible refine keeps_ite (fun _ => ?_) (fun _ => ?_)
    | simp only [keeps_upd]
    | with_reducible apply State.addRg_keeps
    | with_reducible apply State.setRb_keeps
    | with_reducible apply State.emit_keeps
    | split
    | (intro; try intro)

theorem State.setDieFenced_keeps {c : State} {s : State} {d : Nat} (hk : Keeps c s) : Keeps c (State.setDieFenced s d)
    := by
  unfold State.setDieFenced
  repeat' first
    | with_reducible assumption
    | with_reducible refine keeps_ite (fun _ => ?_) (fun _ => ?_)
    | with_reducible apply State.setRb_keeps
    | split
    | (intro; try intro)

theorem State.setBootPhase_keeps {c : State} {s : State} {n : Nat} (hk : Keeps c s) : Keeps c (State.setBootPhase s n)
    := by
  unfold State.setBootPhase
  repeat' first
    | with_reducible assumption
    | with_reducible refine keeps_ite (fun _ => ?_) (fun _ => ?_)
    | with_reducible apply State.setRf_keeps
    | split
    | (intro; try intro)

theorem State.stopPackage_keeps {c : State} {s : State} (hk : Keeps c s) : Keeps c (State.stopPackage s) := by
  unfold State.stopPackage
  repeat' first
    | with_reducible assumption
    | with_reducible refine keeps_ite (fun _ => ?_) (fun _ => ?_)
    | with_reducible apply State.fenceIf_keeps
    | with_reducible apply State.stopTile_keeps
    | with_reducible apply State.setBootPhase_keeps
    | with_reducible apply State.setRb_keeps
    | with_reducible refine keeps_foldl (fun _ _ _ => ?_) ?_
    | split
    | (intro; try intro)

theorem State.applyReport_keeps {c : State} {s : State} {r : Report} (hk : Keeps c s) : Keeps c (State.applyReport s
    r) := by
  unfold State.applyReport
  repeat' first
    | with_reducible assumption
    | with_reducible refine keeps_ite (fun _ => ?_) (fun _ => ?_)
    | with_reducible apply State.storeReport_keeps
    | with_reducible apply State.fenceIf_keeps
    | with_reducible apply State.setDieFenced_keeps
    | with_reducible apply State.stopPackage_keeps
    | with_reducible refine keeps_foldl (fun _ _ _ => ?_) ?_
    | split
    | (intro; try intro)

theorem State.breakPath_keeps {c : State} {s : State} {d : Nat} {line : Nat} (hk : Keeps c s) : Keeps c
    (State.breakPath s d line) := by
  unfold State.breakPath
  repeat' first
    | with_reducible assumption
    | with_reducible refine keeps_ite (fun _ => ?_) (fun _ => ?_)
    | simp only [keeps_upd]
    | with_reducible apply State.report_keeps
    | with_reducible apply State.setRb_keeps
    | split
    | (intro; try intro)

theorem State.breakLine_keeps {c : State} {s : State} {d : Nat} {line : Nat} (hk : Keeps c s) : Keeps c
    (State.breakLine s d line) := by
  unfold State.breakLine
  repeat' first
    | with_reducible assumption
    | with_reducible refine keeps_ite (fun _ => ?_) (fun _ => ?_)
    | with_reducible apply State.breakPath_keeps
    | split
    | (intro; try intro)

theorem State.clearAll_keeps {c : State} {s : State} (hk : Keeps c s) : Keeps c (State.clearAll s) := by
  unfold State.clearAll
  repeat' first
    | with_reducible assumption
    | with_reducible refine keeps_ite (fun _ => ?_) (fun _ => ?_)
    | simp only [keeps_upd]
    | split
    | (intro; try intro)

theorem State.clearRecord_keeps {c : State} {s : State} {r : Nat} (hk : Keeps c s) : Keeps c (State.clearRecord s r)
    := by
  unfold State.clearRecord
  repeat' first
    | with_reducible assumption
    | with_reducible refine keeps_ite (fun _ => ?_) (fun _ => ?_)
    | simp only [keeps_upd]
    | with_reducible apply State.setRb_keeps
    | split
    | (intro; try intro)

theorem execErrnRefresh_keeps {c : State} {s : State} (hk : Keeps c s) : KeepsO c (execErrnRefresh s) := by
  unfold execErrnRefresh
  repeat' first
    | with_reducible assumption
    | with_reducible refine keeps_ite (fun _ => ?_) (fun _ => ?_)
    | simp only [keeps_upd, keepsO_next]
    | with_reducible apply State.emit_keeps
    | split
    | (intro; try intro)

theorem execFaultReport_keeps {c : State} {i : Nat} {s : State} (hk : Keeps c s) : KeepsO c (execFaultReport i s) :=
    by
  unfold execFaultReport
  repeat' first
    | with_reducible assumption
    | with_reducible refine keeps_ite (fun _ => ?_) (fun _ => ?_)
    | simp only [keeps_upd, keepsO_next]
    | with_reducible apply State.applyReport_keeps
    | split
    | (intro; try intro)

theorem execFcClearAll_keeps {c : State} {s : State} (hk : Keeps c s) : KeepsO c (execFcClearAll s) := by
  unfold execFcClearAll
  repeat' first
    | with_reducible assumption
    | with_reducible refine keeps_ite (fun _ => ?_) (fun _ => ?_)
    | simp only [keepsO_next]
    | with_reducible apply State.clearAll_keeps
    | split
    | (intro; try intro)

theorem execFcClearRecord_keeps {c : State} {r : Nat} {s : State} (hk : Keeps c s) : KeepsO c (execFcClearRecord r s)
    := by
  unfold execFcClearRecord
  repeat' first
    | with_reducible assumption
    | with_reducible refine keeps_ite (fun _ => ?_) (fun _ => ?_)
    | simp only [keepsO_next]
    | with_reducible apply State.clearRecord_keeps
    | split
    | (intro; try intro)

theorem execFcHeartbeat_keeps {c : State} {_d : Nat} {s : State} (hk : Keeps c s) : KeepsO c (execFcHeartbeat _d s) :=
    by
  unfold execFcHeartbeat
  repeat' first
    | with_reducible assumption
    | with_reducible refine keeps_ite (fun _ => ?_) (fun _ => ?_)
    | simp only [keepsO_next]
    | split
    | (intro; try intro)

theorem execFcLineSilence_keeps {c : State} {d : Nat} {line : Nat} {s : State} (hk : Keeps c s) : KeepsO c
    (execFcLineSilence d line s) := by
  unfold execFcLineSilence
  repeat' first
    | with_reducible assumption
    | with_reducible refine keeps_ite (fun _ => ?_) (fun _ => ?_)
    | simp only [keepsO_next]
    | with_reducible apply State.breakLine_keeps
    | split
    | (intro; try intro)

theorem execFcLineTestWord_keeps {c : State} {d : Nat} {line : Nat} {s : State} (hk : Keeps c s) : KeepsO c
    (execFcLineTestWord d line s) := by
  unfold execFcLineTestWord
  repeat' first
    | with_reducible assumption
    | with_reducible refine keeps_ite (fun _ => ?_) (fun _ => ?_)
    | simp only [keepsO_next]
    | with_reducible apply State.emit_keeps
    | split
    | (intro; try intro)

theorem execFcLineWord_keeps {c : State} {d : Nat} {line : Nat} {rails : List (Bool × Bool)} {i : Nat} {s : State} (hk
    : Keeps c s) : KeepsO c (execFcLineWord d line rails i s) := by
  unfold execFcLineWord
  repeat' first
    | with_reducible assumption
    | with_reducible refine keeps_ite (fun _ => ?_) (fun _ => ?_)
    | simp only [keeps_upd, keepsO_next]
    | with_reducible apply State.breakLine_keeps
    | split
    | (intro; try intro)

theorem execFcLineWordTimeout_keeps {c : State} {d : Nat} {line : Nat} {s : State} (hk : Keeps c s) : KeepsO c
    (execFcLineWordTimeout d line s) := by
  unfold execFcLineWordTimeout
  repeat' first
    | with_reducible assumption
    | with_reducible refine keeps_ite (fun _ => ?_) (fun _ => ?_)
    | simp only [keepsO_next]
    | with_reducible apply State.breakLine_keeps
    | split
    | (intro; try intro)

theorem execFcPathTimeout_keeps {c : State} {d : Nat} {s : State} (hk : Keeps c s) : KeepsO c (execFcPathTimeout d s)
    := by
  unfold execFcPathTimeout
  repeat' first
    | with_reducible assumption
    | with_reducible refine keeps_ite (fun _ => ?_) (fun _ => ?_)
    | simp only [keepsO_next]
    | with_reducible apply State.breakPath_keeps
    | split
    | (intro; try intro)

end Sys2Proof.Machine
end

