-- ==== Sys2Proof/Laws/KeepsLink.lean ====
section
/-! SUPPORT. Every operation of Link keeps the queue, the part, and the canonical forms. -/
set_option maxRecDepth 8000
namespace Sys2Proof.Machine

theorem State.upLink_keeps {c : State} {s : State} {l : Nat} {f : Link → Link} (hk : Keeps c s) : Keeps c
    (State.upLink s l f) := by
  unfold State.upLink
  repeat' first
    | with_reducible assumption
    | with_reducible refine keeps_ite (fun _ => ?_) (fun _ => ?_)
    | with_reducible apply State.setLink_keeps
    | split
    | (intro; try intro)

theorem State.lkTell_keeps {c : State} {s : State} {l : Nat} {m : LkMsg} {repeated : Bool} (hk : Keeps c s) : Keeps c
    (State.lkTell s l m repeated) := by
  unfold State.lkTell
  repeat' first
    | with_reducible assumption
    | with_reducible refine keeps_ite (fun _ => ?_) (fun _ => ?_)
    | with_reducible apply State.upLink_keeps
    | split
    | (intro; try intro)

theorem State.askReroute_keeps {c : State} {s : State} {l : Nat} (hk : Keeps c s) : Keeps c (State.askReroute s l) :=
    by
  unfold State.askReroute
  repeat' first
    | with_reducible assumption
    | with_reducible refine keeps_ite (fun _ => ?_) (fun _ => ?_)
    | with_reducible apply State.lkTell_keeps
    | split
    | (intro; try intro)

theorem State.lkEvent_keeps {c : State} {s : State} {l : Nat} {bit : Nat} (hk : Keeps c s) : Keeps c (State.lkEvent s
    l bit) := by
  unfold State.lkEvent
  repeat' first
    | with_reducible assumption
    | with_reducible refine keeps_ite (fun _ => ?_) (fun _ => ?_)
    | with_reducible apply State.setLkB_keeps
    | split
    | (intro; try intro)

theorem State.dropCtl_keeps {c : State} {s : State} {f : LkMsg → Bool} (hk : Keeps c s) : Keeps c (State.dropCtl s f)
    := by
  unfold State.dropCtl
  repeat' first
    | with_reducible assumption
    | with_reducible refine keeps_ite (fun _ => ?_) (fun _ => ?_)
    | simp only [keeps_upd]
    | split
    | (intro; try intro)

theorem State.flowsBack_keeps {c : State} {s : State} (hk : Keeps c s) : Keeps c (State.flowsBack s) := by
  unfold State.flowsBack
  repeat' first
    | with_reducible assumption
    | with_reducible refine keeps_ite (fun _ => ?_) (fun _ => ?_)
    | simp only [keeps_upd]
    | with_reducible apply State.setLkB_keeps
    | with_reducible apply State.setLink_keeps
    | with_reducible apply State.dropCtl_keeps
    | with_reducible refine keeps_foldl (fun _ _ _ => ?_) ?_
    | split
    | (intro; try intro)

theorem State.activeRule_keeps {c : State} {s : State} {l : Nat} (hk : Keeps c s) : Keeps c (State.activeRule s l) :=
    by
  unfold State.activeRule
  repeat' first
    | with_reducible assumption
    | with_reducible refine keeps_ite (fun _ => ?_) (fun _ => ?_)
    | with_reducible apply State.askReroute_keeps
    | with_reducible apply State.lkEvent_keeps
    | with_reducible apply State.lkTell_keeps
    | with_reducible apply State.upLink_keeps
    | with_reducible apply State.flowsBack_keeps
    | with_reducible apply State.alCopyAll_keeps
    | with_reducible refine keeps_foldl (fun _ _ _ => ?_) ?_
    | split
    | (intro; try intro)

theorem State.agedReq_keeps {c : State} {s : State} {l : Nat} (hk : Keeps c s) : Keeps c (State.agedReq s l) := by
  unfold State.agedReq
  repeat' first
    | with_reducible assumption
    | with_reducible refine keeps_ite (fun _ => ?_) (fun _ => ?_)
    | simp only [keeps_upd]
    | split
    | (intro; try intro)

theorem State.lkSendParts_keeps {c : State} {s : State} {l : Nat} {bs : List Byte} (hk : Keeps c s) : Keeps c
    (State.lkSendParts s l bs) := by
  unfold State.lkSendParts
  repeat' first
    | with_reducible assumption
    | with_reducible refine keeps_ite (fun _ => ?_) (fun _ => ?_)
    | with_reducible apply State.lkTell_keeps
    | with_reducible refine keeps_foldl (fun _ _ _ => ?_) ?_
    | split
    | (intro; try intro)

theorem State.agree_keeps {c : State} {s : State} {l : Nat} {dev : Word} {part : List Byte} {trusted : Bool} {res} (hk
    : Keeps c s) (eq : State.agree s l dev part trusted = some res) : Keeps c res := by
  unfold State.agree at eq
  try dsimp only at eq
  repeat' first
    | with_reducible cases eq
    | with_reducible assumption
    | with_reducible refine keeps_ite (fun _ => ?_) (fun _ => ?_)
    | with_reducible apply State.upLink_keeps
    | with_reducible apply State.draw_keeps
    | with_reducible apply State.lkSendParts_keeps
    | split
    | (intro; try intro)
    | split at eq

theorem State.askRetrain_keeps {c : State} {s : State} {l : Nat} {cap : Nat} (hk : Keeps c s) : Keeps c
    (State.askRetrain s l cap) := by
  unfold State.askRetrain
  repeat' first
    | with_reducible assumption
    | with_reducible refine keeps_ite (fun _ => ?_) (fun _ => ?_)
    | with_reducible apply State.upLink_keeps
    | with_reducible apply State.lkTell_keeps
    | split
    | (intro; try intro)

theorem State.capture_keeps {c : State} {s : State} {l : Nat} {cc : LkCell} {flags : Nat} (hk : Keeps c s) : Keeps c
    (State.capture s l cc flags) := by
  unfold State.capture
  repeat' first
    | with_reducible assumption
    | with_reducible refine keeps_ite (fun _ => ?_) (fun _ => ?_)
    | with_reducible apply State.writeDram_keeps
    | with_reducible apply State.addRg_keeps
    | split
    | (intro; try intro)

theorem State.creditIn_keeps {c : State} {v : Hop} {s : State} {cc : SlCredit} (hk : Keeps c s) : Keeps c
    (State.creditIn v s cc) := by
  unfold State.creditIn
  repeat' first
    | with_reducible assumption
    | with_reducible refine keeps_ite (fun _ => ?_) (fun _ => ?_)
    | simp only [keeps_upd]
    | with_reducible apply State.forward_keeps
    | with_reducible apply State.linkSend_keeps
    | split
    | (intro; try intro)

theorem State.lkCount_keeps {c : State} {s : State} {l : Nat} {k : Nat} {n : Nat} (hk : Keeps c s) : Keeps c
    (State.lkCount s l k n) := by
  unfold State.lkCount
  repeat' first
    | with_reducible assumption
    | with_reducible refine keeps_ite (fun _ => ?_) (fun _ => ?_)
    | with_reducible apply State.addRg_keeps
    | split
    | (intro; try intro)

theorem State.noticeIn_keeps {c : State} {s : State} {cc : LkCell} (hk : Keeps c s) : Keeps c (State.noticeIn s cc) :=
    by
  unfold State.noticeIn
  repeat' first
    | with_reducible assumption
    | with_reducible refine keeps_ite (fun _ => ?_) (fun _ => ?_)
    | simp only [keeps_upd]
    | with_reducible apply State.rxFarDone_keeps
    | with_reducible apply State.rxFarNorm_keeps
    | with_reducible apply State.setColl_keeps
    | with_reducible apply State.exHear_keeps
    | split
    | (intro; try intro)

theorem State.deliver_keeps {c : State} {s : State} {l : Nat} {cc : LkCell} (hk : Keeps c s) : Keeps c (State.deliver
    s l cc) := by
  unfold State.deliver
  repeat' first
    | with_reducible assumption
    | with_reducible refine keeps_ite (fun _ => ?_) (fun _ => ?_)
    | simp only [keeps_upd]
    | with_reducible apply State.addRg_keeps
    | with_reducible apply State.lkCount_keeps
    | with_reducible apply State.upLink_keeps
    | with_reducible apply State.forward_keeps
    | with_reducible apply State.linkSend_keeps
    | with_reducible apply State.rxFarRelease_keeps
    | with_reducible apply State.rxJoinIn_keeps
    | with_reducible apply State.noticeIn_keeps
    | with_reducible apply State.creditIn_keeps
    | with_reducible refine keeps_foldl (fun _ _ _ => ?_) ?_
    | split
    | (intro; try intro)

theorem State.deliverGo_keeps {c : State} {l : Nat} {x1 : Nat} {x2 : State} (hk : Keeps c x2) : Keeps c
    (State.deliverGo l x1 x2) := by
  induction x1 generalizing l x2 with
  | zero =>
    try simp only [State.deliverGo]
    repeat' first
      | with_reducible assumption
      | with_reducible refine keeps_ite (fun _ => ?_) (fun _ => ?_)
      | with_reducible apply State.setLink_keeps
      | with_reducible apply State.deliver_keeps
      | split
      | (intro; try intro)
  | succ k ih =>
    try simp only [State.deliverGo]
    repeat' first
      | with_reducible assumption
      | with_reducible refine keeps_ite (fun _ => ?_) (fun _ => ?_)
      | with_reducible apply ih
      | with_reducible apply State.setLink_keeps
      | with_reducible apply State.deliver_keeps
      | split
      | (intro; try intro)

theorem State.hold_keeps {c : State} {s : State} {l : Nat} (hk : Keeps c s) : Keeps c (State.hold s l) := by
  unfold State.hold
  repeat' first
    | with_reducible assumption
    | with_reducible refine keeps_ite (fun _ => ?_) (fun _ => ?_)
    | with_reducible apply State.reportX_keeps
    | with_reducible apply State.lkEvent_keeps
    | with_reducible apply State.setLkB_keeps
    | split
    | (intro; try intro)

theorem State.downRule_keeps {c : State} {s : State} {l : Nat} (hk : Keeps c s) : Keeps c (State.downRule s l) := by
  unfold State.downRule
  repeat' first
    | with_reducible assumption
    | with_reducible refine keeps_ite (fun _ => ?_) (fun _ => ?_)
    | with_reducible apply State.askReroute_keeps
    | with_reducible apply State.hold_keeps
    | with_reducible apply State.lkEvent_keeps
    | split
    | (intro; try intro)

theorem State.drainGo_keeps {c : State} {l : Nat} {x1 : Nat} {x2 : State} (hk : Keeps c x2) : Keeps c (State.drainGo l
    x1 x2) := by
  induction x1 generalizing l x2 with
  | zero =>
    try simp only [State.drainGo]
    repeat' first
      | with_reducible assumption
      | with_reducible refine keeps_ite (fun _ => ?_) (fun _ => ?_)
      | with_reducible apply State.upLink_keeps
      | with_reducible apply State.freeReq_keeps
      | with_reducible apply State.deliver_keeps
      | split
      | (intro; try intro)
  | succ k ih =>
    try simp only [State.drainGo]
    repeat' first
      | with_reducible assumption
      | with_reducible refine keeps_ite (fun _ => ?_) (fun _ => ?_)
      | with_reducible apply ih
      | with_reducible apply State.upLink_keeps
      | with_reducible apply State.freeReq_keeps
      | with_reducible apply State.deliver_keeps
      | split
      | (intro; try intro)

theorem State.drainReq_keeps {c : State} {s : State} {l : Nat} (hk : Keeps c s) : Keeps c (State.drainReq s l) := by
  unfold State.drainReq
  repeat' first
    | with_reducible assumption
    | with_reducible refine keeps_ite (fun _ => ?_) (fun _ => ?_)
    | with_reducible apply State.drainGo_keeps
    | split
    | (intro; try intro)

theorem State.dropAsked_keeps {c : State} {s : State} {l : Nat} (hk : Keeps c s) : Keeps c (State.dropAsked s l) := by
  unfold State.dropAsked
  repeat' first
    | with_reducible assumption
    | with_reducible refine keeps_ite (fun _ => ?_) (fun _ => ?_)
    | with_reducible apply State.hold_keeps
    | with_reducible apply State.upLink_keeps
    | with_reducible refine keeps_foldl (fun _ _ _ => ?_) ?_
    | split
    | (intro; try intro)

theorem State.endHold_keeps {c : State} {s : State} {l : Nat} (hk : Keeps c s) : Keeps c (State.endHold s l) := by
  unfold State.endHold
  repeat' first
    | with_reducible assumption
    | with_reducible refine keeps_ite (fun _ => ?_) (fun _ => ?_)
    | with_reducible apply State.endCond_keeps
    | with_reducible apply State.setLkB_keeps
    | split
    | (intro; try intro)

theorem State.setLkState_keeps {c : State} {s : State} {l : Nat} {n : Nat} (hk : Keeps c s) : Keeps c
    (State.setLkState s l n) := by
  unfold State.setLkState
  repeat' first
    | with_reducible assumption
    | with_reducible refine keeps_ite (fun _ => ?_) (fun _ => ?_)
    | with_reducible apply State.setLkF_keeps
    | split
    | (intro; try intro)

theorem State.enterDetect_keeps {c : State} {s : State} {l : Nat} (hk : Keeps c s) : Keeps c (State.enterDetect s l)
    := by
  unfold State.enterDetect
  repeat' first
    | with_reducible assumption
    | with_reducible refine keeps_ite (fun _ => ?_) (fun _ => ?_)
    | with_reducible apply State.emit_keeps
    | with_reducible apply State.upLink_keeps
    | with_reducible apply State.setLkState_keeps
    | split
    | (intro; try intro)

theorem State.enterRetrain_keeps {c : State} {s : State} {l : Nat} {cap : Nat} (hk : Keeps c s) : Keeps c
    (State.enterRetrain s l cap) := by
  unfold State.enterRetrain
  repeat' first
    | with_reducible assumption
    | with_reducible refine keeps_ite (fun _ => ?_) (fun _ => ?_)
    | with_reducible apply State.upLink_keeps
    | with_reducible apply State.lkEvent_keeps
    | with_reducible apply State.setLkState_keeps
    | split
    | (intro; try intro)

theorem State.fecCount_keeps {c : State} {s : State} {l : Nat} {cc : LkCell} (hk : Keeps c s) : Keeps c
    (State.fecCount s l cc) := by
  unfold State.fecCount
  repeat' first
    | with_reducible assumption
    | with_reducible refine keeps_ite (fun _ => ?_) (fun _ => ?_)
    | with_reducible apply State.lkCount_keeps
    | split
    | (intro; try intro)

theorem State.freshLink_keeps {c : State} {s : State} {l : Nat} (hk : Keeps c s) : Keeps c (State.freshLink s l) := by
  unfold State.freshLink
  repeat' first
    | with_reducible assumption
    | with_reducible refine keeps_ite (fun _ => ?_) (fun _ => ?_)
    | with_reducible apply State.agedReq_keeps
    | with_reducible apply State.upLink_keeps
    | split
    | (intro; try intro)

theorem State.freshRecv_keeps {c : State} {s : State} {l : Nat} (hk : Keeps c s) : Keeps c (State.freshRecv s l) := by
  unfold State.freshRecv
  repeat' first
    | with_reducible assumption
    | with_reducible refine keeps_ite (fun _ => ?_) (fun _ => ?_)
    | with_reducible apply State.agedReq_keeps
    | with_reducible apply State.upLink_keeps
    | split
    | (intro; try intro)

theorem State.goDown_keeps {c : State} {s : State} {l : Nat} (hk : Keeps c s) : Keeps c (State.goDown s l) := by
  unfold State.goDown
  repeat' first
    | with_reducible assumption
    | with_reducible refine keeps_ite (fun _ => ?_) (fun _ => ?_)
    | with_reducible apply State.upLink_keeps
    | with_reducible apply State.lkEvent_keeps
    | with_reducible apply State.setLkState_keeps
    | with_reducible apply State.dropAsked_keeps
    | with_reducible apply State.downRule_keeps
    | split
    | (intro; try intro)

theorem State.handOver_keeps {c : State} {s : State} {f : Nat} {p : Nat} {final : Nat} (hk : Keeps c s) : Keeps c
    (State.handOver s f p final) := by
  unfold State.handOver
  repeat' first
    | with_reducible assumption
    | with_reducible refine keeps_ite (fun _ => ?_) (fun _ => ?_)
    | with_reducible apply State.setLink_keeps
    | with_reducible apply State.upLink_keeps
    | with_reducible apply State.endHold_keeps
    | with_reducible apply State.setLkB_keeps
    | split
    | (intro; try intro)

theorem State.sameEpochs_keeps {c : State} {s : State} {l : Nat} (hk : Keeps c s) : Keeps c (State.sameEpochs s l) :=
    by
  unfold State.sameEpochs
  repeat' first
    | with_reducible assumption
    | with_reducible refine keeps_ite (fun _ => ?_) (fun _ => ?_)
    | with_reducible apply State.upLink_keeps
    | with_reducible apply State.freshRecv_keeps
    | split
    | (intro; try intro)

theorem State.newLinkState_keeps {c : State} {s : State} {l : Nat} (hk : Keeps c s) : Keeps c (State.newLinkState s l)
    := by
  unfold State.newLinkState
  repeat' first
    | with_reducible assumption
    | with_reducible refine keeps_ite (fun _ => ?_) (fun _ => ?_)
    | with_reducible apply State.reportX_keeps
    | with_reducible apply State.lkEvent_keeps
    | with_reducible apply State.lkCount_keeps
    | with_reducible apply State.setLkB_keeps
    | with_reducible apply State.flowsBack_keeps
    | with_reducible apply State.crossReset_keeps
    | with_reducible apply State.freshLink_keeps
    | with_reducible apply State.upLink_keeps
    | split
    | (intro; try intro)

theorem State.storeCoeffs_keeps {c : State} {s : State} {l : Nat} (hk : Keeps c s) : Keeps c (State.storeCoeffs s l)
    := by
  unfold State.storeCoeffs
  repeat' first
    | with_reducible assumption
    | with_reducible refine keeps_ite (fun _ => ?_) (fun _ => ?_)
    | with_reducible apply State.draw_keeps
    | with_reducible apply State.train_keeps
    | split
    | (intro; try intro)

theorem State.identified_keeps {c : State} {s : State} {l : Nat} {m : LkMsg} (hk : Keeps c s) : Keeps c
    (State.identified s l m) := by
  unfold State.identified
  repeat' first
    | with_reducible assumption
    | with_reducible refine keeps_ite (fun _ => ?_) (fun _ => ?_)
    | with_reducible apply State.sameEpochs_keeps
    | with_reducible apply State.freshLink_keeps
    | with_reducible apply State.newLinkState_keeps
    | with_reducible apply State.setRg_keeps
    | with_reducible apply State.setLkB_keeps
    | with_reducible apply State.setLkF_keeps
    | with_reducible apply State.upLink_keeps
    | with_reducible apply State.endHold_keeps
    | with_reducible apply State.storeCoeffs_keeps
    | with_reducible apply State.setLkState_keeps
    | with_reducible apply State.activeRule_keeps
    | with_reducible apply State.dropCtl_keeps
    | split
    | (intro; try intro)

theorem State.laneTest_keeps {c : State} {s : State} {l : Nat} {tx : BitVec 9} {rx : BitVec 9} (hk : Keeps c s) :
    Keeps c (State.laneTest s l tx rx).2 := by
  unfold State.laneTest
  repeat' first
    | with_reducible assumption
    | with_reducible refine keeps_ite (fun _ => ?_) (fun _ => ?_)
    | simp only [keeps_upd]
    | with_reducible apply State.setLkF_keeps
    | with_reducible apply State.upLink_keeps
    | split
    | (intro; try intro)

theorem State.lkCfgWrite_keeps {c : State} {s : State} {l : Nat} {v : Word} (hk : Keeps c s) : Keeps c
    (State.lkCfgWrite s l v) := by
  unfold State.lkCfgWrite
  repeat' first
    | with_reducible assumption
    | with_reducible refine keeps_ite (fun _ => ?_) (fun _ => ?_)
    | with_reducible apply State.setRg_keeps
    | split
    | (intro; try intro)

theorem State.rxDamaged_keeps {c : State} {s : State} {l : Nat} {cc : LkCell} (hk : Keeps c s) : Keeps c
    (State.rxDamaged s l cc) := by
  unfold State.rxDamaged
  repeat' first
    | with_reducible assumption
    | with_reducible refine keeps_ite (fun _ => ?_) (fun _ => ?_)
    | with_reducible apply State.capture_keeps
    | with_reducible apply State.upLink_keeps
    | with_reducible apply State.lkCount_keeps
    | split
    | (intro; try intro)

theorem State.lkHear_keeps {c : State} {s : State} {l : Nat} {cc : LkCell} (hk : Keeps c s) : Keeps c (State.lkHear s
    l cc).2 := by
  unfold State.lkHear
  repeat' first
    | with_reducible assumption
    | with_reducible refine keeps_ite (fun _ => ?_) (fun _ => ?_)
    | with_reducible apply State.fecCount_keeps
    | with_reducible apply State.rxDamaged_keeps
    | with_reducible apply State.capture_keeps
    | with_reducible apply State.flowsBack_keeps
    | with_reducible apply State.upLink_keeps
    | split
    | (intro; try intro)

theorem State.lkSay_keeps {c : State} {s : State} {l : Nat} {m : LkMsg} (hk : Keeps c s) : Keeps c (State.lkSay s l m)
    := by
  unfold State.lkSay
  repeat' first
    | with_reducible assumption
    | with_reducible refine keeps_ite (fun _ => ?_) (fun _ => ?_)
    | with_reducible apply State.capture_keeps
    | with_reducible apply State.emit_keeps
    | split
    | (intro; try intro)

theorem State.noteWaits_keeps {c : State} {s : State} {l : Nat} (hk : Keeps c s) : Keeps c (State.noteWaits s l) := by
  unfold State.noteWaits
  repeat' first
    | with_reducible assumption
    | with_reducible refine keeps_ite (fun _ => ?_) (fun _ => ?_)
    | with_reducible apply State.setRb_keeps
    | with_reducible refine keeps_foldl (fun _ _ _ => ?_) ?_
    | split
    | (intro; try intro)

theorem State.rxSeqCell_keeps {c : State} {s : State} {l : Nat} {cc : LkCell} (hk : Keeps c s) : Keeps c
    (State.rxSeqCell s l cc) := by
  unfold State.rxSeqCell
  repeat' first
    | with_reducible assumption
    | with_reducible refine keeps_ite (fun _ => ?_) (fun _ => ?_)
    | with_reducible apply State.capture_keeps
    | with_reducible apply State.lkCount_keeps
    | with_reducible apply State.setLink_keeps
    | with_reducible apply State.drainReq_keeps
    | with_reducible apply State.deliverGo_keeps
    | with_reducible apply State.upLink_keeps
    | split
    | (intro; try intro)

theorem State.rxCell_keeps {c : State} {s : State} {l : Nat} {cc : LkCell} (hk : Keeps c s) : Keeps c (State.rxCell s
    l cc) := by
  unfold State.rxCell
  repeat' first
    | with_reducible assumption
    | with_reducible refine keeps_ite (fun _ => ?_) (fun _ => ?_)
    | with_reducible apply State.rxDamaged_keeps
    | with_reducible apply State.fecCount_keeps
    | with_reducible apply State.capture_keeps
    | with_reducible apply State.upLink_keeps
    | with_reducible apply State.lkEvent_keeps
    | with_reducible apply State.lkCount_keeps
    | with_reducible apply State.flowsBack_keeps
    | with_reducible apply State.rxSeqCell_keeps
    | split
    | (intro; try intro)

theorem State.scriptGo_keeps {c : State} {l : Nat} {count : Nat} {x2 : Nat} {x3 : State} {x4 : Bool × Bool} (hk :
    Keeps c x3) : Keeps c (State.scriptGo l count x2 x3 x4).2 := by
  induction x2 generalizing l count x3 x4 with
  | zero =>
    try simp only [State.scriptGo]
    repeat' first
      | with_reducible assumption
      | with_reducible refine keeps_ite (fun _ => ?_) (fun _ => ?_)
      | with_reducible apply State.readDram_keeps
      | with_reducible apply State.setLkB_keeps
      | with_reducible apply State.upLink_keeps
      | with_reducible apply State.askRetrain_keeps
      | split
      | (intro; try intro)
  | succ k ih =>
    try simp only [State.scriptGo]
    repeat' first
      | with_reducible assumption
      | with_reducible refine keeps_ite (fun _ => ?_) (fun _ => ?_)
      | with_reducible apply ih
      | with_reducible apply State.readDram_keeps
      | with_reducible apply State.setLkB_keeps
      | with_reducible apply State.upLink_keeps
      | with_reducible apply State.askRetrain_keeps
      | split
      | (intro; try intro)

theorem State.wire_keeps {c : State} {s : State} {l : Nat} {cc : LkCell} {retx : Bool} {drop : Bool} {bad : Bool} (hk
    : Keeps c s) : Keeps c (State.wire s l cc retx drop bad) := by
  unfold State.wire
  repeat' first
    | with_reducible assumption
    | with_reducible refine keeps_ite (fun _ => ?_) (fun _ => ?_)
    | with_reducible apply State.capture_keeps
    | with_reducible apply State.emit_keeps
    | split
    | (intro; try intro)

theorem State.sendAck_keeps {c : State} {s : State} {l : Nat} (hk : Keeps c s) : Keeps c (State.sendAck s l) := by
  unfold State.sendAck
  repeat' first
    | with_reducible assumption
    | with_reducible refine keeps_ite (fun _ => ?_) (fun _ => ?_)
    | with_reducible apply State.setLink_keeps
    | with_reducible apply State.wire_keeps
    | split
    | (intro; try intro)

theorem State.sendNew_keeps {c : State} {s : State} {l : Nat} {ty : Nat} {x : TxItem} (hk : Keeps c s) : Keeps c
    (State.sendNew s l ty x) := by
  unfold State.sendNew
  repeat' first
    | with_reducible assumption
    | with_reducible refine keeps_ite (fun _ => ?_) (fun _ => ?_)
    | with_reducible apply State.charge_keeps
    | with_reducible apply State.setLink_keeps
    | with_reducible apply State.lkCount_keeps
    | with_reducible apply State.scriptGo_keeps
    | with_reducible apply State.wire_keeps
    | split
    | (intro; try intro)

theorem State.sendItem_keeps {c : State} {s : State} {l : Nat} {i : Nat} {x : TxItem} (hk : Keeps c s) : Keeps c
    (State.sendItem s l i x) := by
  unfold State.sendItem
  repeat' first
    | with_reducible assumption
    | with_reducible refine keeps_ite (fun _ => ?_) (fun _ => ?_)
    | with_reducible apply State.sendNew_keeps
    | with_reducible apply State.upLink_keeps
    | split
    | (intro; try intro)

theorem State.testOffer_keeps {c : State} {s : State} {l : Nat} (hk : Keeps c s) : Keeps c (State.testOffer s l).2 :=
    by
  unfold State.testOffer
  repeat' first
    | with_reducible assumption
    | with_reducible refine keeps_ite (fun _ => ?_) (fun _ => ?_)
    | simp only [keeps_upd]
    | with_reducible apply State.setLink_keeps
    | with_reducible apply State.upLink_keeps
    | split
    | (intro; try intro)

theorem execIdent_keeps {c : State} {l : Nat} {cc : LkCell} {trusted : Bool} {s : State} (hk : Keeps c s) : KeepsO c
    (execIdent l cc trusted s) := by
  unfold execIdent
  repeat' first
    | with_reducible assumption
    | with_reducible refine keeps_ite (fun _ => ?_) (fun _ => ?_)
    | simp only [keepsO_next]
    | with_reducible apply State.lkHear_keeps
    | with_reducible apply State.lkTell_keeps
    | with_reducible apply State.goDown_keeps
    | with_reducible apply State.lkEvent_keeps
    | with_reducible apply State.identified_keeps
    | exact State.agree_keeps (by assumption) (by assumption)
    | split
    | (intro; try intro)
    | exact keeps_snd (by assumption) (State.lkHear_keeps hk)
    | exact State.agree_keeps (keeps_snd (by assumption) (State.lkHear_keeps hk)) (by assumption)

theorem execLinkReturn_keeps {c : State} {l : Nat} {cc : LkCell} {s : State} (hk : Keeps c s) : KeepsO c
    (execLinkReturn l cc s) := by
  unfold execLinkReturn
  repeat' first
    | with_reducible assumption
    | with_reducible refine keeps_ite (fun _ => ?_) (fun _ => ?_)
    | simp only [keepsO_next]
    | with_reducible apply State.lkHear_keeps
    | with_reducible apply State.upLink_keeps
    | with_reducible apply State.freshRecv_keeps
    | split
    | (intro; try intro)
    | exact keeps_snd (by assumption) (State.lkHear_keeps hk)

theorem execLkAckCellRx_keeps {c : State} {l : Nat} {cc : LkCell} {s : State} (hk : Keeps c s) : KeepsO c
    (execLkAckCellRx l cc s) := by
  unfold execLkAckCellRx
  repeat' first
    | with_reducible assumption
    | with_reducible refine keeps_ite (fun _ => ?_) (fun _ => ?_)
    | simp only [keepsO_next]
    | with_reducible apply State.rxCell_keeps
    | split
    | (intro; try intro)

theorem execLkAlignDone_keeps {c : State} {l : Nat} {s : State} (hk : Keeps c s) : KeepsO c (execLkAlignDone l s) :=
    by
  unfold execLkAlignDone
  repeat' first
    | with_reducible assumption
    | with_reducible refine keeps_ite (fun _ => ?_) (fun _ => ?_)
    | simp only [keepsO_next]
    | with_reducible apply State.lkTell_keeps
    | with_reducible apply State.setLkState_keeps
    | with_reducible apply State.upLink_keeps
    | with_reducible apply State.lkSendParts_keeps
    | split
    | (intro; try intro)

theorem execLkAuthLimit_keeps {c : State} {l : Nat} {s : State} (hk : Keeps c s) : KeepsO c (execLkAuthLimit l s) :=
    by
  unfold execLkAuthLimit
  repeat' first
    | with_reducible assumption
    | with_reducible refine keeps_ite (fun _ => ?_) (fun _ => ?_)
    | simp only [keepsO_next]
    | with_reducible apply State.reportX_keeps
    | with_reducible apply State.goDown_keeps
    | with_reducible apply State.upLink_keeps
    | split
    | (intro; try intro)

theorem execLkCellSlot_keeps {c : State} {l : Nat} {s : State} (hk : Keeps c s) : KeepsO c (execLkCellSlot l s) := by
  unfold execLkCellSlot
  repeat' first
    | with_reducible assumption
    | with_reducible refine keeps_ite (fun _ => ?_) (fun _ => ?_)
    | simp only [keepsO_next]
    | with_reducible apply State.drainReq_keeps
    | with_reducible apply State.crossTake_keeps
    | with_reducible apply State.lkSay_keeps
    | with_reducible apply State.setLink_keeps
    | with_reducible apply State.sendAck_keeps
    | with_reducible apply State.wire_keeps
    | with_reducible apply State.lkCount_keeps
    | with_reducible apply State.noteWaits_keeps
    | with_reducible apply State.sendItem_keeps
    | with_reducible apply State.testOffer_keeps
    | with_reducible apply State.sendNew_keeps
    | split
    | (intro; try intro)

theorem execLkCtlReset_keeps {c : State} {l : Nat} {epoch : BitVec 32} {s : State} (hk : Keeps c s) : KeepsO c
    (execLkCtlReset l epoch s) := by
  unfold execLkCtlReset
  repeat' first
    | with_reducible assumption
    | with_reducible refine keeps_ite (fun _ => ?_) (fun _ => ?_)
    | simp only [keepsO_next]
    | with_reducible apply State.setLkF_keeps
    | with_reducible apply State.newLinkState_keeps
    | with_reducible apply State.dropAsked_keeps
    | with_reducible apply State.enterDetect_keeps
    | split
    | (intro; try intro)

theorem execLkCtlRetrain_keeps {c : State} {l : Nat} {s : State} (hk : Keeps c s) : KeepsO c (execLkCtlRetrain l s) :=
    by
  unfold execLkCtlRetrain
  repeat' first
    | with_reducible assumption
    | with_reducible refine keeps_ite (fun _ => ?_) (fun _ => ?_)
    | simp only [keepsO_next]
    | with_reducible apply State.askRetrain_keeps
    | split
    | (intro; try intro)

theorem execLkDamageLimit_keeps {c : State} {l : Nat} {s : State} (hk : Keeps c s) : KeepsO c (execLkDamageLimit l s)
    := by
  unfold execLkDamageLimit
  repeat' first
    | with_reducible assumption
    | with_reducible refine keeps_ite (fun _ => ?_) (fun _ => ?_)
    | simp only [keepsO_next]
    | with_reducible apply State.askRetrain_keeps
    | with_reducible apply State.upLink_keeps
    | split
    | (intro; try intro)

theorem execLkDataCellRx_keeps {c : State} {l : Nat} {cc : LkCell} {s : State} (hk : Keeps c s) : KeepsO c
    (execLkDataCellRx l cc s) := by
  unfold execLkDataCellRx
  repeat' first
    | with_reducible assumption
    | with_reducible refine keeps_ite (fun _ => ?_) (fun _ => ?_)
    | simp only [keepsO_next]
    | with_reducible apply State.rxCell_keeps
    | split
    | (intro; try intro)

theorem execLkDetectRepeat_keeps {c : State} {l : Nat} {s : State} (hk : Keeps c s) : KeepsO c (execLkDetectRepeat l
    s) := by
  unfold execLkDetectRepeat
  repeat' first
    | with_reducible assumption
    | with_reducible refine keeps_ite (fun _ => ?_) (fun _ => ?_)
    | simp only [keepsO_next]
    | with_reducible apply State.enterDetect_keeps
    | split
    | (intro; try intro)

theorem execLkDisable_keeps {c : State} {l : Nat} {v : Word} {epoch : BitVec 32} {s : State} (hk : Keeps c s) : KeepsO
    c (execLkDisable l v epoch s) := by
  unfold execLkDisable
  repeat' first
    | with_reducible assumption
    | with_reducible refine keeps_ite (fun _ => ?_) (fun _ => ?_)
    | simp only [keepsO_next]
    | with_reducible apply State.newLinkState_keeps
    | with_reducible apply State.lkCfgWrite_keeps
    | with_reducible apply State.setLkF_keeps
    | with_reducible apply State.goDown_keeps
    | split
    | (intro; try intro)

theorem execLkEnable_keeps {c : State} {l : Nat} {v : Word} {s : State} (hk : Keeps c s) : KeepsO c (execLkEnable l v
    s) := by
  unfold execLkEnable
  repeat' first
    | with_reducible assumption
    | with_reducible refine keeps_ite (fun _ => ?_) (fun _ => ?_)
    | simp only [keepsO_next]
    | with_reducible apply State.lkCfgWrite_keeps
    | with_reducible apply State.enterDetect_keeps
    | with_reducible apply State.upLink_keeps
    | split
    | (intro; try intro)

theorem execLkEqDone_keeps {c : State} {l : Nat} {storedOk : Bool} {s : State} (hk : Keeps c s) : KeepsO c
    (execLkEqDone l storedOk s) := by
  unfold execLkEqDone
  repeat' first
    | with_reducible assumption
    | with_reducible refine keeps_ite (fun _ => ?_) (fun _ => ?_)
    | simp only [keepsO_next]
    | with_reducible apply State.setLkState_keeps
    | with_reducible apply State.setLkB_keeps
    | split
    | (intro; try intro)

theorem execLkFecLockLoss_keeps {c : State} {l : Nat} {s : State} (hk : Keeps c s) : KeepsO c (execLkFecLockLoss l s)
    := by
  unfold execLkFecLockLoss
  repeat' first
    | with_reducible assumption
    | with_reducible refine keeps_ite (fun _ => ?_) (fun _ => ?_)
    | simp only [keepsO_next]
    | with_reducible apply State.goDown_keeps
    | split
    | (intro; try intro)

theorem execLkIdleAckTimer_keeps {c : State} {l : Nat} {s : State} (hk : Keeps c s) : KeepsO c (execLkIdleAckTimer l
    s) := by
  unfold execLkIdleAckTimer
  repeat' first
    | with_reducible assumption
    | with_reducible refine keeps_ite (fun _ => ?_) (fun _ => ?_)
    | simp only [keepsO_next]
    | with_reducible apply State.sendAck_keeps
    | split
    | (intro; try intro)

theorem execLkLaneDone_keeps {c : State} {l : Nat} {tx : BitVec 9} {rx : BitVec 9} {s : State} (hk : Keeps c s) :
    KeepsO c (execLkLaneDone l tx rx s) := by
  unfold execLkLaneDone
  repeat' first
    | with_reducible assumption
    | with_reducible refine keeps_ite (fun _ => ?_) (fun _ => ?_)
    | simp only [keepsO_next]
    | with_reducible apply State.laneTest_keeps
    | with_reducible apply State.setLkState_keeps
    | with_reducible apply State.setLkF_keeps
    | with_reducible apply State.goDown_keeps
    | split
    | (intro; try intro)

theorem execLkLaneFecLimit_keeps {c : State} {l : Nat} {_lane : Nat} {s : State} (hk : Keeps c s) : KeepsO c
    (execLkLaneFecLimit l _lane s) := by
  unfold execLkLaneFecLimit
  repeat' first
    | with_reducible assumption
    | with_reducible refine keeps_ite (fun _ => ?_) (fun _ => ?_)
    | simp only [keepsO_next]
    | with_reducible apply State.askRetrain_keeps
    | split
    | (intro; try intro)

theorem execLkLinkctlRepeat_keeps {c : State} {l : Nat} {s : State} (hk : Keeps c s) : KeepsO c (execLkLinkctlRepeat l
    s) := by
  unfold execLkLinkctlRepeat
  repeat' first
    | with_reducible assumption
    | with_reducible refine keeps_ite (fun _ => ?_) (fun _ => ?_)
    | simp only [keepsO_next]
    | with_reducible apply State.upLink_keeps
    | split
    | (intro; try intro)

theorem execLkPeerDetected_keeps {c : State} {l : Nat} {s : State} (hk : Keeps c s) : KeepsO c (execLkPeerDetected l
    s) := by
  unfold execLkPeerDetected
  repeat' first
    | with_reducible assumption
    | with_reducible refine keeps_ite (fun _ => ?_) (fun _ => ?_)
    | simp only [keepsO_next]
    | with_reducible apply State.setLkState_keeps
    | with_reducible apply State.enterDetect_keeps
    | split
    | (intro; try intro)

theorem execLkRefAckHoldEnd_keeps {c : State} {l : Nat} {s : State} (hk : Keeps c s) : KeepsO c (execLkRefAckHoldEnd l
    s) := by
  unfold execLkRefAckHoldEnd
  repeat' first
    | with_reducible assumption
    | with_reducible refine keeps_ite (fun _ => ?_) (fun _ => ?_)
    | simp only [keepsO_next]
    | with_reducible apply State.upLink_keeps
    | split
    | (intro; try intro)

theorem execLkRefStart_keeps {c : State} {l : Nat} {v : Word} {s : State} (hk : Keeps c s) : KeepsO c (execLkRefStart
    l v s) := by
  unfold execLkRefStart
  repeat' first
    | with_reducible assumption
    | with_reducible refine keeps_ite (fun _ => ?_) (fun _ => ?_)
    | simp only [keepsO_next]
    | with_reducible apply State.setRg_keeps
    | with_reducible apply State.upLink_keeps
    | with_reducible apply State.scriptGo_keeps
    | split
    | (intro; try intro)

theorem execLkRetrainDone_keeps {c : State} {l : Nat} {tx : BitVec 9} {rx : BitVec 9} {s : State} (hk : Keeps c s) :
    KeepsO c (execLkRetrainDone l tx rx s) := by
  unfold execLkRetrainDone
  repeat' first
    | with_reducible assumption
    | with_reducible refine keeps_ite (fun _ => ?_) (fun _ => ?_)
    | simp only [keepsO_next]
    | with_reducible apply State.laneTest_keeps
    | with_reducible apply State.goDown_keeps
    | with_reducible apply State.setLkB_keeps
    | with_reducible apply State.setLkState_keeps
    | with_reducible apply State.setLkF_keeps
    | with_reducible apply State.activeRule_keeps
    | with_reducible apply State.storeCoeffs_keeps
    | with_reducible apply State.reportX_keeps
    | with_reducible apply State.lkEvent_keeps
    | split
    | (intro; try intro)

theorem execLkRetrainReqTimeout_keeps {c : State} {l : Nat} {s : State} (hk : Keeps c s) : KeepsO c
    (execLkRetrainReqTimeout l s) := by
  unfold execLkRetrainReqTimeout
  repeat' first
    | with_reducible assumption
    | with_reducible refine keeps_ite (fun _ => ?_) (fun _ => ?_)
    | simp only [keepsO_next]
    | with_reducible apply State.enterRetrain_keeps
    | split
    | (intro; try intro)

theorem execLkRetxTimeout_keeps {c : State} {l : Nat} {s : State} (hk : Keeps c s) : KeepsO c (execLkRetxTimeout l s)
    := by
  unfold execLkRetxTimeout
  repeat' first
    | with_reducible assumption
    | with_reducible refine keeps_ite (fun _ => ?_) (fun _ => ?_)
    | simp only [keepsO_next]
    | with_reducible apply State.lkCount_keeps
    | with_reducible apply State.goDown_keeps
    | with_reducible apply State.setLink_keeps
    | split
    | (intro; try intro)

theorem execLkTrainTimeout_keeps {c : State} {l : Nat} {s : State} (hk : Keeps c s) : KeepsO c (execLkTrainTimeout l
    s) := by
  unfold execLkTrainTimeout
  repeat' first
    | with_reducible assumption
    | with_reducible refine keeps_ite (fun _ => ?_) (fun _ => ?_)
    | simp only [keepsO_next]
    | with_reducible apply State.goDown_keeps
    | split
    | (intro; try intro)

theorem execLossOfAlignment_keeps {c : State} {l : Nat} {s : State} (hk : Keeps c s) : KeepsO c (execLossOfAlignment l
    s) := by
  unfold execLossOfAlignment
  repeat' first
    | with_reducible assumption
    | with_reducible refine keeps_ite (fun _ => ?_) (fun _ => ?_)
    | simp only [keepsO_next]
    | with_reducible apply State.enterRetrain_keeps
    | split
    | (intro; try intro)

theorem execRerouteReq_keeps {c : State} {l : Nat} {cc : LkCell} {s : State} (hk : Keeps c s) : KeepsO c
    (execRerouteReq l cc s) := by
  unfold execRerouteReq
  repeat' first
    | with_reducible assumption
    | with_reducible refine keeps_ite (fun _ => ?_) (fun _ => ?_)
    | simp only [keepsO_next]
    | with_reducible apply State.lkHear_keeps
    | with_reducible apply State.lkEvent_keeps
    | with_reducible apply State.lkCount_keeps
    | with_reducible apply State.setLink_keeps
    | with_reducible apply State.upLink_keeps
    | with_reducible apply State.lkTell_keeps
    | split
    | (intro; try intro)
    | exact keeps_snd (by assumption) (State.lkHear_keeps hk)

theorem execRerouteState_keeps {c : State} {l : Nat} {cc : LkCell} {s : State} (hk : Keeps c s) : KeepsO c
    (execRerouteState l cc s) := by
  unfold execRerouteState
  repeat' first
    | with_reducible assumption
    | with_reducible refine keeps_ite (fun _ => ?_) (fun _ => ?_)
    | simp only [keepsO_next]
    | with_reducible apply State.lkHear_keeps
    | with_reducible apply State.handOver_keeps
    | split
    | (intro; try intro)
    | exact keeps_snd (by assumption) (State.lkHear_keeps hk)

theorem execRetrainGo_keeps {c : State} {l : Nat} {cc : LkCell} {s : State} (hk : Keeps c s) : KeepsO c (execRetrainGo
    l cc s) := by
  unfold execRetrainGo
  repeat' first
    | with_reducible assumption
    | with_reducible refine keeps_ite (fun _ => ?_) (fun _ => ?_)
    | simp only [keepsO_next]
    | with_reducible apply State.lkHear_keeps
    | with_reducible apply State.enterRetrain_keeps
    | split
    | (intro; try intro)
    | exact keeps_snd (by assumption) (State.lkHear_keeps hk)

theorem execRetrainReq_keeps {c : State} {l : Nat} {cc : LkCell} {s : State} (hk : Keeps c s) : KeepsO c
    (execRetrainReq l cc s) := by
  unfold execRetrainReq
  repeat' first
    | with_reducible assumption
    | with_reducible refine keeps_ite (fun _ => ?_) (fun _ => ?_)
    | simp only [keepsO_next]
    | with_reducible apply State.lkHear_keeps
    | with_reducible apply State.upLink_keeps
    | with_reducible apply State.enterRetrain_keeps
    | with_reducible apply State.lkSay_keeps
    | with_reducible apply State.lkEvent_keeps
    | with_reducible apply State.lkCount_keeps
    | split
    | (intro; try intro)
    | exact keeps_snd (by assumption) (State.lkHear_keeps hk)

end Sys2Proof.Machine
end

