-- ==== Sys2Proof/Laws/KeepsDie.lean ====
section
/-! SUPPORT. Every operation of Die keeps the queue, the part, and the canonical forms. -/
set_option maxRecDepth 8000
namespace Sys2Proof.Machine

theorem State.d2dEvent_keeps {c : State} {s : State} {d : Nat} {m : Nat} {bit : Nat} (hk : Keeps c s) : Keeps c
    (State.d2dEvent s d m bit) := by
  unfold State.d2dEvent
  repeat' first
    | with_reducible assumption
    | with_reducible refine keeps_ite (fun _ => ?_) (fun _ => ?_)
    | with_reducible apply State.setRb_keeps
    | split
    | (intro; try intro)

theorem State.d2dCommit_keeps {c : State} {r : D2dResult} {s : State} {e : Nat × Nat} (hk : Keeps c s) : Keeps c
    (State.d2dCommit r s e) := by
  unfold State.d2dCommit
  repeat' first
    | with_reducible assumption
    | with_reducible refine keeps_ite (fun _ => ?_) (fun _ => ?_)
    | simp only [keeps_upd]
    | with_reducible apply State.setRg_keeps
    | with_reducible apply State.setRf_keeps
    | with_reducible apply State.setRb_keeps
    | with_reducible apply State.train_keeps
    | with_reducible apply State.d2dEvent_keeps
    | with_reducible apply State.reportX_keeps
    | split
    | (intro; try intro)

theorem State.d2dDisagree_keeps {c : State} {s : State} {e : Nat × Nat} (hk : Keeps c s) : Keeps c (State.d2dDisagree
    s e) := by
  unfold State.d2dDisagree
  repeat' first
    | with_reducible assumption
    | with_reducible refine keeps_ite (fun _ => ?_) (fun _ => ?_)
    | with_reducible apply State.setRf_keeps
    | with_reducible apply State.d2dEvent_keeps
    | split
    | (intro; try intro)

theorem State.setD2dState_keeps {c : State} {s : State} {d : Nat} {m : Nat} {n : Nat} (hk : Keeps c s) : Keeps c
    (State.setD2dState s d m n) := by
  unfold State.setD2dState
  repeat' first
    | with_reducible assumption
    | with_reducible refine keeps_ite (fun _ => ?_) (fun _ => ?_)
    | with_reducible apply State.setRf_keeps
    | split
    | (intro; try intro)

theorem State.d2dRetrain_keeps {c : State} {s : State} {d : Nat} {m : Nat} (hk : Keeps c s) : Keeps c
    (State.d2dRetrain s d m) := by
  unfold State.d2dRetrain
  repeat' first
    | with_reducible assumption
    | with_reducible refine keeps_ite (fun _ => ?_) (fun _ => ?_)
    | simp only [keeps_upd]
    | with_reducible apply State.setD2dState_keeps
    | split
    | (intro; try intro)

theorem State.eraseLinkKey_keeps {c : State} {s : State} {l : Nat} (hk : Keeps c s) : Keeps c (State.eraseLinkKey s l)
    := by
  unfold State.eraseLinkKey
  repeat' first
    | with_reducible assumption
    | with_reducible refine keeps_ite (fun _ => ?_) (fun _ => ?_)
    | with_reducible apply State.upLink_keeps
    | with_reducible apply State.newLinkState_keeps
    | with_reducible apply State.goDown_keeps
    | split
    | (intro; try intro)

theorem State.fenceDie_keeps {c : State} {s : State} {d : Nat} (hk : Keeps c s) : Keeps c (State.fenceDie s d) := by
  unfold State.fenceDie
  repeat' first
    | with_reducible assumption
    | with_reducible refine keeps_ite (fun _ => ?_) (fun _ => ?_)
    | with_reducible apply State.reportX_keeps
    | with_reducible apply State.setDieFenced_keeps
    | split
    | (intro; try intro)

theorem State.fwDrop_keeps {c : State} {s : State} {op : FwOp} {a : Nat} {w : Nat} (hk : Keeps c s) : Keeps c
    (State.fwDrop s op a w) := by
  unfold State.fwDrop
  repeat' first
    | with_reducible assumption
    | with_reducible refine keeps_ite (fun _ => ?_) (fun _ => ?_)
    | with_reducible apply State.addRg_keeps
    | with_reducible apply State.setRg_keeps
    | with_reducible apply State.reportX_keeps
    | with_reducible apply State.emit_keeps
    | split
    | (intro; try intro)

theorem State.fwServe_keeps {c : State} {s : State} {w : Nat} {p : Nat} {op : FwOp} {a : Nat} {n : Nat} {bs : List
    Byte} (hk : Keeps c s) : Keeps c (State.fwServe s w p op a n bs) := by
  unfold State.fwServe
  repeat' first
    | with_reducible assumption
    | with_reducible refine keeps_ite (fun _ => ?_) (fun _ => ?_)
    | with_reducible apply State.readDram_keeps
    | with_reducible apply State.emit_keeps
    | with_reducible apply State.readSp_keeps
    | with_reducible apply State.writeAny_keeps
    | with_reducible apply State.chPost_keeps
    | split
    | (intro; try intro)

theorem State.moduleLost_keeps {c : State} {s : State} {d : Nat} {e : Nat} (hk : Keeps c s) : Keeps c
    (State.moduleLost s d e) := by
  unfold State.moduleLost
  repeat' first
    | with_reducible assumption
    | with_reducible refine keeps_ite (fun _ => ?_) (fun _ => ?_)
    | with_reducible apply State.reportX_keeps
    | with_reducible apply State.fenceDie_keeps
    | split
    | (intro; try intro)

theorem State.resetModule_keeps {c : State} {s : State} {mer : Nat} {der : Nat} {m : Nat} (hk : Keeps c s) : Keeps c
    (State.resetModule s mer der m) := by
  unfold State.resetModule
  repeat' first
    | with_reducible assumption
    | with_reducible refine keeps_ite (fun _ => ?_) (fun _ => ?_)
    | simp only [keeps_upd]
    | with_reducible apply State.setRf_keeps
    | with_reducible apply State.setD2dState_keeps
    | with_reducible apply State.crossReset_keeps
    | split
    | (intro; try intro)

theorem State.resetRegs_keeps {c : State} {s : State} {d : Nat} (hk : Keeps c s) : Keeps c (State.resetRegs s d) := by
  exact ⟨hk.pending, hk.variant, hk.romKey, hk.guestId, hk.caps, Tab.filter_wf _ _ hk.regs, hk.mem⟩

theorem State.retireTile_keeps {c : State} {s : State} {t : Nat} (hk : Keeps c s) : Keeps c (State.retireTile s t) :=
    by
  unfold State.retireTile
  repeat' first
    | with_reducible assumption
    | with_reducible refine keeps_ite (fun _ => ?_) (fun _ => ?_)
    | with_reducible apply State.reportX_keeps
    | with_reducible apply State.setRb_keeps
    | with_reducible apply State.newRepair_keeps
    | split
    | (intro; try intro)

theorem State.tapLoad_keeps {c : State} {s : State} {i : TapIr} (hk : Keeps c s) : Keeps c (State.tapLoad s i) := by
  unfold State.tapLoad
  repeat' first
    | with_reducible assumption
    | with_reducible refine keeps_ite (fun _ => ?_) (fun _ => ?_)
    | simp only [keeps_upd]
    | split
    | (intro; try intro)

theorem execBypass_keeps {c : State} {s : State} (hk : Keeps c s) : KeepsO c (execBypass s) := by
  unfold execBypass
  repeat' first
    | with_reducible assumption
    | with_reducible refine keeps_ite (fun _ => ?_) (fun _ => ?_)
    | simp only [keeps_upd, keepsO_next]
    | split
    | (intro; try intro)

theorem execClamp_keeps {c : State} {s : State} (hk : Keeps c s) : KeepsO c (execClamp s) := by
  unfold execClamp
  repeat' first
    | with_reducible assumption
    | with_reducible refine keeps_ite (fun _ => ?_) (fun _ => ?_)
    | simp only [keepsO_next]
    | with_reducible apply State.tapLoad_keeps
    | split
    | (intro; try intro)

theorem execCrossingResyncDone_keeps {c : State} {q : Nat} {s : State} (hk : Keeps c s) : KeepsO c
    (execCrossingResyncDone q s) := by
  unfold execCrossingResyncDone
  repeat' first
    | with_reducible assumption
    | with_reducible refine keeps_ite (fun _ => ?_) (fun _ => ?_)
    | simp only [keepsO_next]
    | with_reducible apply State.crossResume_keeps
    | split
    | (intro; try intro)

theorem execD2dCrcLimit_keeps {c : State} {d : Nat} {m : Nat} {s : State} (hk : Keeps c s) : KeepsO c (execD2dCrcLimit
    d m s) := by
  unfold execD2dCrcLimit
  repeat' first
    | with_reducible assumption
    | with_reducible refine keeps_ite (fun _ => ?_) (fun _ => ?_)
    | simp only [keepsO_next]
    | with_reducible apply State.draw_keeps
    | with_reducible apply State.d2dRetrain_keeps
    | with_reducible apply State.addRg_keeps
    | split
    | (intro; try intro)

theorem execD2dCtlRetrain_keeps {c : State} {d : Nat} {m : Nat} {s : State} (hk : Keeps c s) : KeepsO c
    (execD2dCtlRetrain d m s) := by
  unfold execD2dCtlRetrain
  repeat' first
    | with_reducible assumption
    | with_reducible refine keeps_ite (fun _ => ?_) (fun _ => ?_)
    | simp only [keepsO_next]
    | with_reducible apply State.d2dRetrain_keeps
    | with_reducible apply State.emit_keeps
    | split
    | (intro; try intro)

theorem execD2dTrainResult_keeps {c : State} {d : Nat} {m : Nat} {own : D2dResult} {peer : D2dResult} {ownBack :
    D2dResult} {peerBack : D2dResult} {s : State} (hk : Keeps c s) : KeepsO c (execD2dTrainResult d m own peer ownBack
    peerBack s) := by
  unfold execD2dTrainResult
  repeat' first
    | with_reducible assumption
    | with_reducible refine keeps_ite (fun _ => ?_) (fun _ => ?_)
    | simp only [keepsO_next]
    | with_reducible apply State.d2dCommit_keeps
    | with_reducible apply State.d2dDisagree_keeps
    | with_reducible apply State.moduleLost_keeps
    | split
    | (intro; try intro)

theorem execExtest_keeps {c : State} {s : State} (hk : Keeps c s) : KeepsO c (execExtest s) := by
  unfold execExtest
  repeat' first
    | with_reducible assumption
    | with_reducible refine keeps_ite (fun _ => ?_) (fun _ => ?_)
    | simp only [keepsO_next]
    | with_reducible apply State.tapLoad_keeps
    | split
    | (intro; try intro)

theorem execFwGuestRequest_keeps {c : State} {op : FwOp} {a : Nat} {n : Nat} {bs : List Byte} {s : State} (hk : Keeps
    c s) : KeepsO c (execFwGuestRequest op a n bs s) := by
  unfold execFwGuestRequest
  repeat' first
    | with_reducible assumption
    | with_reducible refine keeps_ite (fun _ => ?_) (fun _ => ?_)
    | simp only [keepsO_next]
    | with_reducible apply State.fwDrop_keeps
    | with_reducible apply State.fwServe_keeps
    | with_reducible apply State.memRefuse_keeps
    | split
    | (intro; try intro)

theorem execFwWinWrite_keeps {c : State} {n : Nat} {w : Nat} {v : Word} {s : State} (hk : Keeps c s) : KeepsO c
    (execFwWinWrite n w v s) := by
  unfold execFwWinWrite
  repeat' first
    | with_reducible assumption
    | with_reducible refine keeps_ite (fun _ => ?_) (fun _ => ?_)
    | simp only [keeps_upd, keepsO_next]
    | with_reducible apply State.fwSettle_keeps
    | split
    | (intro; try intro)

theorem execHighz_keeps {c : State} {s : State} (hk : Keeps c s) : KeepsO c (execHighz s) := by
  unfold execHighz
  repeat' first
    | with_reducible assumption
    | with_reducible refine keeps_ite (fun _ => ?_) (fun _ => ?_)
    | simp only [keepsO_next]
    | with_reducible apply State.tapLoad_keeps
    | split
    | (intro; try intro)

theorem execIdcode_keeps {c : State} {s : State} (hk : Keeps c s) : KeepsO c (execIdcode s) := by
  unfold execIdcode
  repeat' first
    | with_reducible assumption
    | with_reducible refine keeps_ite (fun _ => ?_) (fun _ => ?_)
    | simp only [keeps_upd, keepsO_next]
    | with_reducible apply State.emit_keeps
    | split
    | (intro; try intro)

theorem execRepRetireWrite_keeps {c : State} {v : Word} {s : State} (hk : Keeps c s) : KeepsO c (execRepRetireWrite v
    s) := by
  unfold execRepRetireWrite
  repeat' first
    | with_reducible assumption
    | with_reducible refine keeps_ite (fun _ => ?_) (fun _ => ?_)
    | simp only [keepsO_next]
    | with_reducible apply State.retireTile_keeps
    | split
    | (intro; try intro)

theorem execResetGuest_keeps {c : State} {lost : Nat} {s : State} (hk : Keeps c s) : KeepsO c (execResetGuest lost s)
    := by
  unfold execResetGuest
  repeat' first
    | with_reducible assumption
    | with_reducible refine keeps_ite (fun _ => ?_) (fun _ => ?_)
    | simp only [keepsO_next]
    | with_reducible apply State.draw_keeps
    | with_reducible apply State.addRg_keeps
    | with_reducible apply State.setRb_keeps
    | with_reducible apply State.resetRegs_keeps
    | with_reducible apply State.resetModule_keeps
    | split
    | (intro; try intro)

theorem execResetMdl_keeps {c : State} {s : State} (hk : Keeps c s) : KeepsO c (execResetMdl s) := by
  unfold execResetMdl
  repeat' first
    | with_reducible assumption
    | with_reducible refine keeps_ite (fun _ => ?_) (fun _ => ?_)
    | simp only [keeps_upd, keepsO_next]
    | with_reducible apply State.setRb_keeps
    | with_reducible apply State.resetRegs_keeps
    | with_reducible apply State.resetModule_keeps
    | split
    | (intro; try intro)

theorem execSamplePreload_keeps {c : State} {s : State} (hk : Keeps c s) : KeepsO c (execSamplePreload s) := by
  unfold execSamplePreload
  repeat' first
    | with_reducible assumption
    | with_reducible refine keeps_ite (fun _ => ?_) (fun _ => ?_)
    | simp only [keepsO_next]
    | with_reducible apply State.tapLoad_keeps
    | split
    | (intro; try intro)

theorem execTestUnlock_keeps {c : State} {sigOk : Bool} {s : State} (hk : Keeps c s) : KeepsO c (execTestUnlock sigOk
    s) := by
  unfold execTestUnlock
  repeat' first
    | with_reducible assumption
    | with_reducible refine keeps_ite (fun _ => ?_) (fun _ => ?_)
    | simp only [keeps_upd, keepsO_next]
    | with_reducible apply State.eraseKey_keeps
    | with_reducible apply State.freshKeyId_keeps
    | with_reducible apply State.setRotState_keeps
    | with_reducible apply State.eraseLinkKey_keeps
    | with_reducible refine keeps_foldl (fun _ _ _ => ?_) ?_
    | split
    | (intro; try intro)

end Sys2Proof.Machine
end

