-- ==== Sys2Proof/Laws/KeepsPace.lean ====
section
/-! SUPPORT. Every operation of Pace keeps the queue, the part, and the canonical forms. -/
set_option maxRecDepth 8000
namespace Sys2Proof.Machine

theorem State.acceptTj_keeps {c : State} {s : State} {d : Nat} {tjs : List Nat} (hk : Keeps c s) : Keeps c
    (State.acceptTj s d tjs) := by
  unfold State.acceptTj
  repeat' first
    | with_reducible assumption
    | with_reducible refine keeps_ite (fun _ => ?_) (fun _ => ?_)
    | with_reducible apply State.setRf_keeps
    | split
    | (intro; try intro)

theorem State.setSupply_keeps {c : State} {s : State} {d : Nat} {half : Nat} (hk : Keeps c s) : Keeps c
    (State.setSupply s d half) := by
  unfold State.setSupply
  repeat' first
    | with_reducible assumption
    | with_reducible refine keeps_ite (fun _ => ?_) (fun _ => ?_)
    | simp only [keeps_upd]
    | with_reducible apply State.setRf_keeps
    | split
    | (intro; try intro)

theorem State.paceStep_keeps {c : State} {s : State} {d : Nat} {measured : Nat} (hk : Keeps c s) : Keeps c
    (State.paceStep s d measured) := by
  unfold State.paceStep
  repeat' first
    | with_reducible assumption
    | with_reducible refine keeps_ite (fun _ => ?_) (fun _ => ?_)
    | with_reducible apply State.setSupply_keeps
    | with_reducible apply State.setRf_keeps
    | split
    | (intro; try intro)

theorem State.redivide_keeps {c : State} {s : State} (hk : Keeps c s) : Keeps c (State.redivide s) := by
  unfold State.redivide
  repeat' first
    | with_reducible assumption
    | with_reducible refine keeps_ite (fun _ => ?_) (fun _ => ?_)
    | simp only [keeps_upd]
    | with_reducible refine keeps_foldl (fun _ _ _ => ?_) ?_
    | split
    | (intro; try intro)

theorem execExcursionExhausted_keeps {c : State} {s : State} (hk : Keeps c s) : KeepsO c (execExcursionExhausted s) :=
    by
  unfold execExcursionExhausted
  repeat' first
    | with_reducible assumption
    | with_reducible refine keeps_ite (fun _ => ?_) (fun _ => ?_)
    | simp only [keepsO_next]
    | with_reducible apply State.redivide_keeps
    | with_reducible apply State.setRf_keeps
    | split
    | (intro; try intro)

theorem execExcursionWindowEnd_keeps {c : State} {s : State} (hk : Keeps c s) : KeepsO c (execExcursionWindowEnd s) :=
    by
  unfold execExcursionWindowEnd
  repeat' first
    | with_reducible assumption
    | with_reducible refine keeps_ite (fun _ => ?_) (fun _ => ?_)
    | simp only [keepsO_next]
    | with_reducible apply State.setRf_keeps
    | split
    | (intro; try intro)

theorem execPaceLoopPass_keeps {c : State} {d : Nat} {gray : BitVec 16} {tjs : List Nat} {powerW : Nat} {s : State}
    (hk : Keeps c s) : KeepsO c (execPaceLoopPass d gray tjs powerW s) := by
  unfold execPaceLoopPass
  repeat' first
    | with_reducible assumption
    | with_reducible refine keeps_ite (fun _ => ?_) (fun _ => ?_)
    | simp only [keeps_upd, keepsO_next]
    | with_reducible apply State.acceptTj_keeps
    | with_reducible apply State.paceStep_keeps
    | split
    | (intro; try intro)

theorem execPkgPowerRedivision_keeps {c : State} {powers : List (Nat × Nat)} {avg : Nat} {s : State} (hk : Keeps c s)
    : KeepsO c (execPkgPowerRedivision powers avg s) := by
  unfold execPkgPowerRedivision
  repeat' first
    | with_reducible assumption
    | with_reducible refine keeps_ite (fun _ => ?_) (fun _ => ?_)
    | simp only [keeps_upd, keepsO_next]
    | with_reducible apply State.setRf_keeps
    | with_reducible apply State.redivide_keeps
    | with_reducible refine keeps_foldl (fun _ _ _ => ?_) ?_
    | split
    | (intro; try intro)

theorem execReplicaFail_keeps {c : State} {d : Nat} {s : State} (hk : Keeps c s) : KeepsO c (execReplicaFail d s) :=
    by
  unfold execReplicaFail
  repeat' first
    | with_reducible assumption
    | with_reducible refine keeps_ite (fun _ => ?_) (fun _ => ?_)
    | simp only [keepsO_next]
    | with_reducible apply State.reportX_keeps
    | with_reducible apply State.setRb_keeps
    | with_reducible apply State.setSupply_keeps
    | split
    | (intro; try intro)

end Sys2Proof.Machine
end

