-- ==== Sys2Proof/Laws/KeepsPower.lean ====
section
/-! SUPPORT. Every operation of Power keeps the queue, the part, and the canonical forms. -/
set_option maxRecDepth 8000
namespace Sys2Proof.Machine

theorem State.ccKey_keeps {c : State} {s : State} (hk : Keeps c s) : Keeps c (State.ccKey s) := by
  unfold State.ccKey
  repeat' first
    | with_reducible assumption
    | with_reducible refine keeps_ite (fun _ => ?_) (fun _ => ?_)
    | simp only [keeps_upd]
    | with_reducible apply State.freshKeyId_keeps
    | split
    | (intro; try intro)

theorem State.cold_keeps {c : State} {s : State} (hk : Keeps c s) : Keeps c (State.cold s) := by
  exact ⟨hk.pending, hk.variant, hk.romKey, hk.guestId, hk.caps, rfl, rfl⟩

theorem State.enrol_keeps {c : State} {s : State} {reading : List Byte} (hk : Keeps c s) : Keeps c (State.enrol s
    reading) := by
  unfold State.enrol
  repeat' first
    | with_reducible assumption
    | with_reducible refine keeps_ite (fun _ => ?_) (fun _ => ?_)
    | simp only [keeps_upd]
    | with_reducible apply State.setRb_keeps
    | split
    | (intro; try intro)

theorem State.fwRun_keeps {c : State} {s : State} {cc : Nat} {i : Nat} (hk : Keeps c s) : Keeps c (State.fwRun s cc i)
    := by
  unfold State.fwRun
  repeat' first
    | with_reducible assumption
    | with_reducible refine keeps_ite (fun _ => ?_) (fun _ => ?_)
    | simp only [keeps_upd]
    | with_reducible apply State.setRg_keeps
    | with_reducible apply State.setRf_keeps
    | with_reducible refine keeps_foldl (fun _ _ _ => ?_) ?_
    | split
    | (intro; try intro)

theorem State.showKey_keeps {c : State} {s : State} {pub : List Byte} (hk : Keeps c s) : Keeps c (State.showKey s pub)
    := by
  unfold State.showKey
  repeat' first
    | with_reducible assumption
    | with_reducible refine keeps_ite (fun _ => ?_) (fun _ => ?_)
    | simp only [keeps_upd]
    | with_reducible apply State.setRg_keeps
    | with_reducible refine keeps_foldl (fun _ _ _ => ?_) ?_
    | split
    | (intro; try intro)

theorem State.openCache_keeps {c : State} {s : State} (hk : Keeps c s) : Keeps c (State.openCache s) := by
  unfold State.openCache
  repeat' first
    | with_reducible assumption
    | with_reducible refine keeps_ite (fun _ => ?_) (fun _ => ?_)
    | with_reducible apply State.showKey_keeps
    | with_reducible apply State.setRb_keeps
    | with_reducible apply State.emmcWrite_keeps
    | split
    | (intro; try intro)

theorem State.identity_keeps {c : State} {s : State} (hk : Keeps c s) : Keeps c (State.identity s) := by
  unfold State.identity
  repeat' first
    | with_reducible assumption
    | with_reducible refine keeps_ite (fun _ => ?_) (fun _ => ?_)
    | simp only [keeps_upd]
    | with_reducible apply State.openCache_keeps
    | with_reducible apply State.takeLeaf_keeps
    | with_reducible apply State.signOne_keeps
    | with_reducible apply State.setRotState_keeps
    | with_reducible apply State.setRf_keeps
    | split
    | (intro; try intro)

theorem State.judgeDies_keeps {c : State} {s : State} (hk : Keeps c s) : Keeps c (State.judgeDies s) := by
  unfold State.judgeDies
  repeat' first
    | with_reducible assumption
    | with_reducible refine keeps_ite (fun _ => ?_) (fun _ => ?_)
    | with_reducible apply State.reportX_keeps
    | with_reducible apply State.fenceDie_keeps
    | with_reducible apply State.d2dEvent_keeps
    | with_reducible apply State.setD2dState_keeps
    | with_reducible refine keeps_foldl (fun _ _ _ => ?_) ?_
    | split
    | (intro; try intro)

theorem State.mapTiles_keeps {c : State} {s : State} {bad : List Nat} (hk : Keeps c s) : Keeps c (State.mapTiles s
    bad) := by
  unfold State.mapTiles
  repeat' first
    | with_reducible assumption
    | with_reducible refine keeps_ite (fun _ => ?_) (fun _ => ?_)
    | simp only [keeps_upd]
    | with_reducible apply State.setRg_keeps
    | with_reducible apply State.setRf_keeps
    | with_reducible refine keeps_foldl (fun _ _ _ => ?_) ?_
    | split
    | (intro; try intro)

theorem State.noPuf_keeps {c : State} {s : State} (hk : Keeps c s) : Keeps c (State.noPuf s) := by
  unfold State.noPuf
  repeat' first
    | with_reducible assumption
    | with_reducible refine keeps_ite (fun _ => ?_) (fun _ => ?_)
    | with_reducible apply State.setRotState_keeps
    | split
    | (intro; try intro)

theorem State.powerDown_keeps {c : State} {s : State} (hk : Keeps c s) : Keeps c (State.powerDown s) := by
  unfold State.powerDown
  repeat' first
    | with_reducible assumption
    | with_reducible refine keeps_ite (fun _ => ?_) (fun _ => ?_)
    | simp only [keeps_upd]
    | with_reducible apply State.cold_keeps
    | split
    | (intro; try intro)

theorem State.powerLoss_keeps {c : State} {s : State} (hk : Keeps c s) : Keeps c (State.powerLoss s) := by
  unfold State.powerLoss
  repeat' first
    | with_reducible assumption
    | with_reducible refine keeps_ite (fun _ => ?_) (fun _ => ?_)
    | simp only [keeps_upd]
    | with_reducible apply State.powerDown_keeps
    | split
    | (intro; try intro)

theorem State.recover_keeps {c : State} {s : State} (hk : Keeps c s) : Keeps c (State.recover s) := by
  unfold State.recover
  repeat' first
    | with_reducible assumption
    | with_reducible refine keeps_ite (fun _ => ?_) (fun _ => ?_)
    | with_reducible apply State.setBootPhase_keeps
    | split
    | (intro; try intro)

theorem State.reportHobs_keeps {c : State} {s : State} {hobs : List Nat} (hk : Keeps c s) : Keeps c (State.reportHobs
    s hobs) := by
  unfold State.reportHobs
  repeat' first
    | with_reducible assumption
    | with_reducible refine keeps_ite (fun _ => ?_) (fun _ => ?_)
    | with_reducible apply State.reportX_keeps
    | with_reducible refine keeps_foldl (fun _ _ _ => ?_) ?_
    | split
    | (intro; try intro)

theorem State.setPins_keeps {c : State} {s : State} {f : Pins → Pins} (hk : Keeps c s) : Keeps c (State.setPins s f)
    := by
  unfold State.setPins
  repeat' first
    | with_reducible assumption
    | with_reducible refine keeps_ite (fun _ => ?_) (fun _ => ?_)
    | simp only [keeps_upd]
    | split
    | (intro; try intro)

theorem execBootRomDone_keeps {c : State} {reading : List Byte} {s : State} (hk : Keeps c s) : KeepsO c
    (execBootRomDone reading s) := by
  unfold execBootRomDone
  repeat' first
    | with_reducible assumption
    | with_reducible refine keeps_ite (fun _ => ?_) (fun _ => ?_)
    | simp only [keeps_upd, keepsO_next]
    | with_reducible apply State.noPuf_keeps
    | with_reducible apply State.enrol_keeps
    | with_reducible apply State.recover_keeps
    | with_reducible apply State.setBootPhase_keeps
    | with_reducible apply State.fwRun_keeps
    | split
    | (intro; try intro)

theorem execConverterOvertemp_keeps {c : State} {s : State} (hk : Keeps c s) : KeepsO c (execConverterOvertemp s) :=
    by
  unfold execConverterOvertemp
  repeat' first
    | with_reducible assumption
    | with_reducible refine keeps_ite (fun _ => ?_) (fun _ => ?_)
    | simp only [keepsO_next]
    | with_reducible apply State.setPins_keeps
    | with_reducible apply State.powerLoss_keeps
    | split
    | (intro; try intro)

theorem execInputAboveTurnOn_keeps {c : State} {mv : Nat} {s : State} (hk : Keeps c s) : KeepsO c
    (execInputAboveTurnOn mv s) := by
  unfold execInputAboveTurnOn
  repeat' first
    | with_reducible assumption
    | with_reducible refine keeps_ite (fun _ => ?_) (fun _ => ?_)
    | simp only [keepsO_next]
    | with_reducible apply State.setPins_keeps
    | split
    | (intro; try intro)

theorem execInputOutOfRange_keeps {c : State} {mv : Nat} {s : State} (hk : Keeps c s) : KeepsO c (execInputOutOfRange
    mv s) := by
  unfold execInputOutOfRange
  repeat' first
    | with_reducible assumption
    | with_reducible refine keeps_ite (fun _ => ?_) (fun _ => ?_)
    | simp only [keepsO_next]
    | with_reducible apply State.setPins_keeps
    | with_reducible apply State.powerLoss_keeps
    | split
    | (intro; try intro)

theorem execMemTrainingDone_keeps {c : State} {failed : List (Nat × Nat)} {unverified : List (Nat × Nat)} {s : State}
    (hk : Keeps c s) : KeepsO c (execMemTrainingDone failed unverified s) := by
  unfold execMemTrainingDone
  repeat' first
    | with_reducible assumption
    | with_reducible refine keeps_ite (fun _ => ?_) (fun _ => ?_)
    | simp only [keeps_upd, keepsO_next]
    | with_reducible apply State.mapOut_keeps
    | with_reducible apply State.setRf_keeps
    | with_reducible apply State.setRb_keeps
    | with_reducible apply State.draw_keeps
    | with_reducible apply State.train_keeps
    | with_reducible apply State.newRepair_keeps
    | with_reducible apply State.tryRemap_keeps
    | with_reducible refine keeps_foldl (fun _ _ _ => ?_) ?_
    | split
    | (intro; try intro)

theorem execOsImageVerified_keeps {c : State} {s : State} (hk : Keeps c s) : KeepsO c (execOsImageVerified s) := by
  unfold execOsImageVerified
  repeat' first
    | with_reducible assumption
    | with_reducible refine keeps_ite (fun _ => ?_) (fun _ => ?_)
    | simp only [keepsO_next]
    | with_reducible apply State.recover_keeps
    | with_reducible apply State.setBootPhase_keeps
    | with_reducible apply State.fwRun_keeps
    | split
    | (intro; try intro)

theorem execPwrEnFall_keeps {c : State} {s : State} (hk : Keeps c s) : KeepsO c (execPwrEnFall s) := by
  unfold execPwrEnFall
  repeat' first
    | with_reducible assumption
    | with_reducible refine keeps_ite (fun _ => ?_) (fun _ => ?_)
    | simp only [keepsO_next]
    | with_reducible apply State.setPins_keeps
    | with_reducible apply State.powerDown_keeps
    | split
    | (intro; try intro)

theorem execPwrEnRise_keeps {c : State} {s : State} (hk : Keeps c s) : KeepsO c (execPwrEnRise s) := by
  unfold execPwrEnRise
  repeat' first
    | with_reducible assumption
    | with_reducible refine keeps_ite (fun _ => ?_) (fun _ => ?_)
    | simp only [keepsO_next]
    | with_reducible apply State.setPins_keeps
    | split
    | (intro; try intro)

theorem execRailsInRegulation_keeps {c : State} {s : State} (hk : Keeps c s) : KeepsO c (execRailsInRegulation s) :=
    by
  unfold execRailsInRegulation
  repeat' first
    | with_reducible assumption
    | with_reducible refine keeps_ite (fun _ => ?_) (fun _ => ?_)
    | simp only [keepsO_next]
    | with_reducible apply State.setPins_keeps
    | with_reducible apply State.cold_keeps
    | split
    | (intro; try intro)

theorem execReady_keeps {c : State} {s : State} (hk : Keeps c s) : KeepsO c (execReady s) := by
  unfold execReady
  repeat' first
    | with_reducible assumption
    | with_reducible refine keeps_ite (fun _ => ?_) (fun _ => ?_)
    | simp only [keepsO_next]
    | with_reducible apply State.setRf_keeps
    | with_reducible apply State.setBootPhase_keeps
    | split
    | (intro; try intro)

theorem execResetNFall_keeps {c : State} {s : State} (hk : Keeps c s) : KeepsO c (execResetNFall s) := by
  unfold execResetNFall
  repeat' first
    | with_reducible assumption
    | with_reducible refine keeps_ite (fun _ => ?_) (fun _ => ?_)
    | simp only [keepsO_next]
    | with_reducible apply State.setPins_keeps
    | with_reducible apply State.cold_keeps
    | split
    | (intro; try intro)

theorem execResetNRise_keeps {c : State} {epochs : List (Nat × Nat)} {s : State} (hk : Keeps c s) : KeepsO c
    (execResetNRise epochs s) := by
  unfold execResetNRise
  repeat' first
    | with_reducible assumption
    | with_reducible refine keeps_ite (fun _ => ?_) (fun _ => ?_)
    | simp only [keepsO_next]
    | with_reducible apply State.setPins_keeps
    | with_reducible apply State.setLkF_keeps
    | with_reducible apply State.draw_keeps
    | with_reducible refine keeps_foldl (fun _ _ _ => ?_) ?_
    | split
    | (intro; try intro)

theorem execRotStageDone_keeps {c : State} {rpmbOk : Bool} {s : State} (hk : Keeps c s) : KeepsO c (execRotStageDone
    rpmbOk s) := by
  unfold execRotStageDone
  repeat' first
    | with_reducible assumption
    | with_reducible refine keeps_ite (fun _ => ?_) (fun _ => ?_)
    | simp only [keeps_upd, keepsO_next]
    | with_reducible apply State.ccKey_keeps
    | with_reducible apply State.identity_keeps
    | with_reducible apply State.recover_keeps
    | with_reducible apply State.judgeDies_keeps
    | with_reducible apply State.setBootPhase_keeps
    | with_reducible apply State.fwRun_keeps
    | split
    | (intro; try intro)

theorem execSelfTestDone_keeps {c : State} {found : List (Nat × Nat)} {s : State} (hk : Keeps c s) : KeepsO c
    (execSelfTestDone found s) := by
  unfold execSelfTestDone
  repeat' first
    | with_reducible assumption
    | with_reducible refine keeps_ite (fun _ => ?_) (fun _ => ?_)
    | simp only [keeps_upd, keepsO_next]
    | with_reducible apply State.mapTiles_keeps
    | with_reducible apply State.setRb_keeps
    | with_reducible apply State.setRf_keeps
    | with_reducible apply State.newRepair_keeps
    | with_reducible apply State.reportX_keeps
    | with_reducible apply State.reportHobs_keeps
    | split
    | (intro; try intro)

theorem execThermalTrip_keeps {c : State} {d : Nat} {s : State} (hk : Keeps c s) : KeepsO c (execThermalTrip d s) :=
    by
  unfold execThermalTrip
  repeat' first
    | with_reducible assumption
    | with_reducible refine keeps_ite (fun _ => ?_) (fun _ => ?_)
    | simp only [keepsO_next]
    | with_reducible apply State.setPins_keeps
    | with_reducible apply State.powerLoss_keeps
    | split
    | (intro; try intro)

end Sys2Proof.Machine
end

