-- ==== Sys2Proof/Laws/KeepsMgmt.lean ====
section
/-! SUPPORT. Every operation of Mgmt keeps the queue, the part, and the canonical forms. -/
set_option maxRecDepth 8000
namespace Sys2Proof.Machine

theorem State.commitWork_keeps {c : State} {s : State} {id : Nat} {x : CRec} (hk : Keeps c s) : Keeps c
    (State.commitWork s id x) := by
  unfold State.commitWork
  repeat' first
    | with_reducible assumption
    | with_reducible refine keeps_ite (fun _ => ?_) (fun _ => ?_)
    | with_reducible apply State.completeOp_keeps
    | split
    | (intro; try intro)

theorem State.endNow_keeps {c : State} {s : State} {p : Nat} {op : Nat} {id : Nat} (hk : Keeps c s) : Keeps c
    (State.endNow s p op id) := by
  unfold State.endNow
  repeat' first
    | with_reducible assumption
    | with_reducible refine keeps_ite (fun _ => ?_) (fun _ => ?_)
    | with_reducible apply State.completeOp_keeps
    | with_reducible apply State.completeOps_keeps
    | split
    | (intro; try intro)

theorem State.setBlobs_keeps {c : State} {s : State} {b : Tab Blob} (hk : Keeps c s) : Keeps c (State.setBlobs s b) :=
    by
  unfold State.setBlobs
  repeat' first
    | with_reducible assumption
    | with_reducible refine keeps_ite (fun _ => ?_) (fun _ => ?_)
    | simp only [keeps_upd]
    | split
    | (intro; try intro)

theorem State.freeBlob_keeps {c : State} {s : State} {b : Nat} (hk : Keeps c s) : Keeps c (State.freeBlob s b) := by
  unfold State.freeBlob
  repeat' first
    | with_reducible assumption
    | with_reducible refine keeps_ite (fun _ => ?_) (fun _ => ?_)
    | with_reducible apply State.setBlobs_keeps
    | split
    | (intro; try intro)

theorem State.startFiller_keeps {c : State} {s : State} {p : Nat} {id : Nat} {e : Envelope} (hk : Keeps c s) : Keeps c
    (State.startFiller s p id e) := by
  unfold State.startFiller
  repeat' first
    | with_reducible assumption
    | with_reducible refine keeps_ite (fun _ => ?_) (fun _ => ?_)
    | with_reducible apply State.completeOp_keeps
    | with_reducible apply State.fenceIf_keeps
    | with_reducible apply State.setPart_keeps
    | with_reducible apply State.loadImage_keeps
    | split
    | (intro; try intro)

theorem State.jobStart_keeps {c : State} {s : State} {p : Nat} {filler : Bool} {e : Envelope} {id : Nat} (hk : Keeps c
    s) : Keeps c (State.jobStart s p filler e id) := by
  unfold State.jobStart
  repeat' first
    | with_reducible assumption
    | with_reducible refine keeps_ite (fun _ => ?_) (fun _ => ?_)
    | simp only [keeps_upd]
    | with_reducible apply State.completeOp_keeps
    | with_reducible apply State.startFiller_keeps
    | with_reducible apply State.place_keeps
    | split
    | (intro; try intro)

theorem State.netWork_keeps {c : State} {s : State} {id : Nat} {x : CRec} (hk : Keeps c s) : Keeps c (State.netWork s
    id x) := by
  unfold State.netWork
  repeat' first
    | with_reducible assumption
    | with_reducible refine keeps_ite (fun _ => ?_) (fun _ => ?_)
    | with_reducible apply State.completeOp_keeps
    | with_reducible apply State.netWrite_keeps
    | split
    | (intro; try intro)

theorem State.openBlob_keeps {c : State} {s : State} {size : Nat} {madeBy : Nat} {res} (hk : Keeps c s) (eq :
    State.openBlob s size madeBy = some res) : Keeps c res.2 := by
  unfold State.openBlob at eq
  try dsimp only at eq
  repeat' first
    | with_reducible cases eq
    | with_reducible assumption
    | with_reducible refine keeps_ite (fun _ => ?_) (fun _ => ?_)
    | simp only [keeps_upd]
    | with_reducible apply State.setBlobs_keeps
    | split
    | (intro; try intro)
    | split at eq

theorem State.partSetOp_keeps {c : State} {s : State} {p : Nat} {valid : Bool} {lo : Nat} {hi : Nat} {id : Nat} (hk :
    Keeps c s) : Keeps c (State.partSetOp s p valid lo hi id) := by
  unfold State.partSetOp
  repeat' first
    | with_reducible assumption
    | with_reducible refine keeps_ite (fun _ => ?_) (fun _ => ?_)
    | with_reducible apply State.completeOp_keeps
    | with_reducible apply State.setTileRegs_keeps
    | with_reducible apply State.partValid_keeps
    | with_reducible apply State.partInvalid_keeps
    | split
    | (intro; try intro)

theorem State.quoteWork_keeps {c : State} {s : State} {id : Nat} {x : CRec} (hk : Keeps c s) : Keeps c
    (State.quoteWork s id x) := by
  unfold State.quoteWork
  repeat' first
    | with_reducible assumption
    | with_reducible refine keeps_ite (fun _ => ?_) (fun _ => ?_)
    | simp only [keeps_upd]
    | with_reducible apply State.completeOp_keeps
    | exact State.openBlob_keeps (by assumption) (by assumption)
    | with_reducible apply State.signOne_keeps
    | with_reducible apply State.setBlobs_keeps
    | with_reducible apply State.setCrec_keeps
    | split
    | (intro; try intro)
    | exact State.openBlob_keeps (State.signOne_keeps hk) (by assumption)

theorem State.remember_keeps {c : State} {s : State} {r : MgmtReq} {x : MgmtResp} (hk : Keeps c s) : Keeps c
    (State.remember s r x) := by
  unfold State.remember
  repeat' first
    | with_reducible assumption
    | with_reducible refine keeps_ite (fun _ => ?_) (fun _ => ?_)
    | simp only [keeps_upd]
    | split
    | (intro; try intro)

theorem State.reply_keeps {c : State} {s : State} {r : MgmtReq} {x : MgmtResp} (hk : Keeps c s) : Keeps c (State.reply
    s r x) := by
  unfold State.reply
  repeat' first
    | with_reducible assumption
    | with_reducible refine keeps_ite (fun _ => ?_) (fun _ => ?_)
    | with_reducible apply State.emit_keeps
    | split
    | (intro; try intro)

theorem State.svnWork_keeps {c : State} {s : State} {id : Nat} {x : CRec} (hk : Keeps c s) : Keeps c (State.svnWork s
    id x) := by
  unfold State.svnWork
  repeat' first
    | with_reducible assumption
    | with_reducible refine keeps_ite (fun _ => ?_) (fun _ => ?_)
    | simp only [keeps_upd]
    | with_reducible apply State.completeOp_keeps
    | split
    | (intro; try intro)

theorem State.uploadWork_keeps {c : State} {s : State} {id : Nat} {x : CRec} (hk : Keeps c s) : Keeps c
    (State.uploadWork s id x) := by
  unfold State.uploadWork
  repeat' first
    | with_reducible assumption
    | with_reducible refine keeps_ite (fun _ => ?_) (fun _ => ?_)
    | simp only [keeps_upd]
    | with_reducible apply State.completeOp_keeps
    | with_reducible apply State.emmcWrite_keeps
    | split
    | (intro; try intro)

theorem mgmt_keeps {c : State} {op : Nat} {ph : Phases} {m0 : Word} {m1 : Word} {body : Nat → Bool} {more : State →
    Bool} {r : MgmtReq} {f : State → State × MgmtResp} {s : State} (hk : Keeps c s) (hf : ∀ s, Keeps c s → Keeps c (f
    s).1) : KeepsO c (mgmt op ph m0 m1 body more r f s) := by
  unfold mgmt
  repeat' first
    | with_reducible assumption
    | with_reducible refine keeps_ite (fun _ => ?_) (fun _ => ?_)
    | simp only [keepsO_next]
    | with_reducible apply State.reply_keeps
    | with_reducible apply State.remember_keeps
    | with_reducible apply hf
    | split
    | (intro; try intro)

theorem imm_keeps {c : State} {op : Nat} {r : MgmtReq} {st : Nat} {s : State} (hk : Keeps c s) : Keeps c (imm op r st
    s).1 := by
  unfold imm
  repeat' first
    | with_reducible assumption
    | with_reducible refine keeps_ite (fun _ => ?_) (fun _ => ?_)
    | split
    | (intro; try intro)

theorem execBlobFree_keeps {c : State} {r : MgmtReq} {s : State} (hk : Keeps c s) : KeepsO c (execBlobFree r s) := by
  unfold execBlobFree
  repeat' first
    | with_reducible assumption
    | with_reducible refine keeps_ite (fun _ => ?_) (fun _ => ?_)
    | with_reducible apply mgmt_keeps
    | with_reducible apply imm_keeps
    | with_reducible apply State.freeBlob_keeps
    | split
    | (intro; try intro)

theorem execBlobOpen_keeps {c : State} {r : MgmtReq} {s : State} (hk : Keeps c s) : KeepsO c (execBlobOpen r s) := by
  unfold execBlobOpen
  repeat' first
    | with_reducible assumption
    | with_reducible refine keeps_ite (fun _ => ?_) (fun _ => ?_)
    | with_reducible apply mgmt_keeps
    | exact State.openBlob_keeps (by assumption) (by assumption)
    | with_reducible apply imm_keeps
    | split
    | (intro; try intro)

theorem execBlobRead_keeps {c : State} {r : MgmtReq} {s : State} (hk : Keeps c s) : KeepsO c (execBlobRead r s) := by
  unfold execBlobRead
  repeat' first
    | with_reducible assumption
    | with_reducible refine keeps_ite (fun _ => ?_) (fun _ => ?_)
    | with_reducible apply mgmt_keeps
    | with_reducible apply imm_keeps
    | split
    | (intro; try intro)

theorem execBlobWrite_keeps {c : State} {r : MgmtReq} {s : State} (hk : Keeps c s) : KeepsO c (execBlobWrite r s) :=
    by
  unfold execBlobWrite
  repeat' first
    | with_reducible assumption
    | with_reducible refine keeps_ite (fun _ => ?_) (fun _ => ?_)
    | with_reducible apply mgmt_keeps
    | with_reducible apply imm_keeps
    | with_reducible apply State.setBlobs_keeps
    | split
    | (intro; try intro)

theorem longOp_keeps {c : State} {op : Nat} {r : MgmtReq} {x : CRec} {blobs : List (Nat × Nat)} {f : Nat → State →
    State} {s : State} (hk : Keeps c s) (hf : ∀ n s, Keeps c s → Keeps c (f n s)) : Keeps c (longOp op r x blobs f
    s).1 := by
  unfold longOp
  repeat' first
    | with_reducible assumption
    | with_reducible refine keeps_ite (fun _ => ?_) (fun _ => ?_)
    | simp only [keeps_upd]
    | with_reducible apply imm_keeps
    | with_reducible apply State.completeOp_keeps
    | with_reducible apply hf
    | split
    | (intro; try intro)

theorem execFwUpload_keeps {c : State} {r : MgmtReq} {s : State} (hk : Keeps c s) : KeepsO c (execFwUpload r s) := by
  unfold execFwUpload
  repeat' first
    | with_reducible assumption
    | with_reducible refine keeps_ite (fun _ => ?_) (fun _ => ?_)
    | with_reducible apply mgmt_keeps
    | with_reducible apply longOp_keeps
    | split
    | (intro; try intro)

theorem execJobFence_keeps {c : State} {r : MgmtReq} {s : State} (hk : Keeps c s) : KeepsO c (execJobFence r s) := by
  unfold execJobFence
  repeat' first
    | with_reducible assumption
    | with_reducible refine keeps_ite (fun _ => ?_) (fun _ => ?_)
    | with_reducible apply mgmt_keeps
    | with_reducible apply longOp_keeps
    | with_reducible apply State.endNow_keeps
    | with_reducible apply State.fenceIf_keeps
    | split
    | (intro; try intro)

theorem execJobStart_keeps {c : State} {r : MgmtReq} {s : State} (hk : Keeps c s) : KeepsO c (execJobStart r s) := by
  unfold execJobStart
  repeat' first
    | with_reducible assumption
    | with_reducible refine keeps_ite (fun _ => ?_) (fun _ => ?_)
    | with_reducible apply mgmt_keeps
    | with_reducible apply longOp_keeps
    | with_reducible apply State.jobStart_keeps
    | split
    | (intro; try intro)

theorem execJobStop_keeps {c : State} {r : MgmtReq} {s : State} (hk : Keeps c s) : KeepsO c (execJobStop r s) := by
  unfold execJobStop
  repeat' first
    | with_reducible assumption
    | with_reducible refine keeps_ite (fun _ => ?_) (fun _ => ?_)
    | with_reducible apply mgmt_keeps
    | with_reducible apply longOp_keeps
    | with_reducible apply State.endNow_keeps
    | with_reducible apply State.stopJob_keeps
    | split
    | (intro; try intro)

theorem execLongOperationComplete_keeps {c : State} {id : Nat} {rpmbOk : Bool} {s : State} (hk : Keeps c s) : KeepsO c
    (execLongOperationComplete id rpmbOk s) := by
  unfold execLongOperationComplete
  repeat' first
    | with_reducible assumption
    | with_reducible refine keeps_ite (fun _ => ?_) (fun _ => ?_)
    | simp only [keeps_upd, keepsO_next]
    | with_reducible apply State.completeOp_keeps
    | with_reducible apply State.retireTile_keeps
    | with_reducible apply State.quoteWork_keeps
    | with_reducible apply State.uploadWork_keeps
    | with_reducible apply State.svnWork_keeps
    | with_reducible apply State.netWork_keeps
    | with_reducible apply State.commitWork_keeps
    | split
    | (intro; try intro)

theorem execMapout_keeps {c : State} {r : MgmtReq} {s : State} (hk : Keeps c s) : KeepsO c (execMapout r s) := by
  unfold execMapout
  repeat' first
    | with_reducible assumption
    | with_reducible refine keeps_ite (fun _ => ?_) (fun _ => ?_)
    | with_reducible apply mgmt_keeps
    | with_reducible apply longOp_keeps
    | with_reducible apply State.completeOp_keeps
    | with_reducible apply State.askMapout_keeps
    | split
    | (intro; try intro)

theorem execMgmtAddressResolution_keeps {c : State} {kind : Nat} {addr : Nat} {s : State} (hk : Keeps c s) : KeepsO c
    (execMgmtAddressResolution kind addr s) := by
  unfold execMgmtAddressResolution
  repeat' first
    | with_reducible assumption
    | with_reducible refine keeps_ite (fun _ => ?_) (fun _ => ?_)
    | simp only [keepsO_next]
    | with_reducible apply State.emit_keeps
    | split
    | (intro; try intro)

theorem execNetSet_keeps {c : State} {r : MgmtReq} {s : State} (hk : Keeps c s) : KeepsO c (execNetSet r s) := by
  unfold execNetSet
  repeat' first
    | with_reducible assumption
    | with_reducible refine keeps_ite (fun _ => ?_) (fun _ => ?_)
    | with_reducible apply mgmt_keeps
    | with_reducible apply longOp_keeps
    | split
    | (intro; try intro)

theorem execPartSet_keeps {c : State} {r : MgmtReq} {s : State} (hk : Keeps c s) : KeepsO c (execPartSet r s) := by
  unfold execPartSet
  repeat' first
    | with_reducible assumption
    | with_reducible refine keeps_ite (fun _ => ?_) (fun _ => ?_)
    | with_reducible apply mgmt_keeps
    | with_reducible apply longOp_keeps
    | with_reducible apply State.partSetOp_keeps
    | split
    | (intro; try intro)

theorem execPowerCap_keeps {c : State} {r : MgmtReq} {s : State} (hk : Keeps c s) : KeepsO c (execPowerCap r s) := by
  unfold execPowerCap
  repeat' first
    | with_reducible assumption
    | with_reducible refine keeps_ite (fun _ => ?_) (fun _ => ?_)
    | with_reducible apply mgmt_keeps
    | with_reducible apply imm_keeps
    | with_reducible apply State.setRg_keeps
    | split
    | (intro; try intro)

theorem execPowerOff_keeps {c : State} {r : MgmtReq} {s : State} (hk : Keeps c s) : KeepsO c (execPowerOff r s) := by
  have h := mgmt_keeps (op := 0x3E) (ph := .a) (m0 := 0) (m1 := 0) (body := noBody) (more := always) (r := r)
    (f := fun s => longOp 0x3E r {} [] (fun _ s => s) s) hk (fun _ h => longOp_keeps h (fun _ _ h => h))
  unfold execPowerOff
  split
  · rename_i t e
    have k := h t e
    refine keepsO_ite (fun _ => ?_) (fun _ => ?_)
    · rw [keepsO_next]; exact k
    · rw [keepsO_next]
      exact State.setPins_keeps (State.powerDown_keeps (keeps_foldl (fun _ _ h => State.fenceIf_keeps h) k))
  · exact h

theorem execQuote_keeps {c : State} {r : MgmtReq} {s : State} (hk : Keeps c s) : KeepsO c (execQuote r s) := by
  unfold execQuote
  repeat' first
    | with_reducible assumption
    | with_reducible refine keeps_ite (fun _ => ?_) (fun _ => ?_)
    | with_reducible apply mgmt_keeps
    | with_reducible apply longOp_keeps
    | split
    | (intro; try intro)

theorem execRecordsClear_keeps {c : State} {r : MgmtReq} {s : State} (hk : Keeps c s) : KeepsO c (execRecordsClear r
    s) := by
  unfold execRecordsClear
  repeat' first
    | with_reducible assumption
    | with_reducible refine keeps_ite (fun _ => ?_) (fun _ => ?_)
    | with_reducible apply mgmt_keeps
    | with_reducible apply imm_keeps
    | with_reducible apply State.clearAll_keeps
    | with_reducible apply State.clearRecord_keeps
    | split
    | (intro; try intro)

theorem execRecordsRead_keeps {c : State} {r : MgmtReq} {s : State} (hk : Keeps c s) : KeepsO c (execRecordsRead r s)
    := by
  unfold execRecordsRead
  repeat' first
    | with_reducible assumption
    | with_reducible refine keeps_ite (fun _ => ?_) (fun _ => ?_)
    | with_reducible apply mgmt_keeps
    | split
    | (intro; try intro)

theorem execRecoverCommit_keeps {c : State} {r : MgmtReq} {s : State} (hk : Keeps c s) : KeepsO c (execRecoverCommit r
    s) := by
  unfold execRecoverCommit
  repeat' first
    | with_reducible assumption
    | with_reducible refine keeps_ite (fun _ => ?_) (fun _ => ?_)
    | with_reducible apply mgmt_keeps
    | with_reducible apply longOp_keeps
    | split
    | (intro; try intro)

theorem execRecoverWrite_keeps {c : State} {r : MgmtReq} {s : State} (hk : Keeps c s) : KeepsO c (execRecoverWrite r
    s) := by
  unfold execRecoverWrite
  repeat' first
    | with_reducible assumption
    | with_reducible refine keeps_ite (fun _ => ?_) (fun _ => ?_)
    | simp only [keeps_upd]
    | with_reducible apply mgmt_keeps
    | with_reducible apply imm_keeps
    | with_reducible apply State.emmcWrite_keeps
    | split
    | (intro; try intro)

theorem execResultAck_keeps {c : State} {r : MgmtReq} {s : State} (hk : Keeps c s) : KeepsO c (execResultAck r s) :=
    by
  unfold execResultAck
  repeat' first
    | with_reducible assumption
    | with_reducible refine keeps_ite (fun _ => ?_) (fun _ => ?_)
    | simp only [keeps_upd]
    | with_reducible apply mgmt_keeps
    | with_reducible apply imm_keeps
    | with_reducible apply State.freeBlob_keeps
    | split
    | (intro; try intro)

theorem execResultRead_keeps {c : State} {r : MgmtReq} {s : State} (hk : Keeps c s) : KeepsO c (execResultRead r s) :=
    by
  unfold execResultRead
  repeat' first
    | with_reducible assumption
    | with_reducible refine keeps_ite (fun _ => ?_) (fun _ => ?_)
    | with_reducible apply mgmt_keeps
    | with_reducible apply imm_keeps
    | split
    | (intro; try intro)

theorem execRetire_keeps {c : State} {r : MgmtReq} {s : State} (hk : Keeps c s) : KeepsO c (execRetire r s) := by
  unfold execRetire
  repeat' first
    | with_reducible assumption
    | with_reducible refine keeps_ite (fun _ => ?_) (fun _ => ?_)
    | with_reducible apply mgmt_keeps
    | with_reducible apply longOp_keeps
    | split
    | (intro; try intro)

theorem execStatus_keeps {c : State} {r : MgmtReq} {s : State} (hk : Keeps c s) : KeepsO c (execStatus r s) := by
  unfold execStatus
  repeat' first
    | with_reducible assumption
    | with_reducible refine keeps_ite (fun _ => ?_) (fun _ => ?_)
    | with_reducible apply mgmt_keeps
    | split
    | (intro; try intro)

theorem execSvnCommit_keeps {c : State} {r : MgmtReq} {s : State} (hk : Keeps c s) : KeepsO c (execSvnCommit r s) :=
    by
  unfold execSvnCommit
  repeat' first
    | with_reducible assumption
    | with_reducible refine keeps_ite (fun _ => ?_) (fun _ => ?_)
    | with_reducible apply mgmt_keeps
    | with_reducible apply longOp_keeps
    | split
    | (intro; try intro)

end Sys2Proof.Machine
end

