-- ==== Sys2Proof/Laws/KeepsSmb.lean ====
section
/-! SUPPORT. Every operation of Smb keeps the queue, the part, and the canonical forms. -/
set_option maxRecDepth 8000
namespace Sys2Proof.Machine

theorem State.smbAnswer_keeps {c : State} {s : State} {q : SmbReq} {code : Nat} {n : Nat} {v : Nat} (hk : Keeps c s) :
    Keeps c (State.smbAnswer s q code n v) := by
  unfold State.smbAnswer
  repeat' first
    | with_reducible assumption
    | with_reducible refine keeps_ite (fun _ => ?_) (fun _ => ?_)
    | simp only [keeps_upd]
    | with_reducible apply State.emit_keeps
    | split
    | (intro; try intro)

theorem State.smbRefuse_keeps {c : State} {s : State} {q : SmbReq} (hk : Keeps c s) : Keeps c (State.smbRefuse s q) :=
    by
  unfold State.smbRefuse
  repeat' first
    | with_reducible assumption
    | with_reducible refine keeps_ite (fun _ => ?_) (fun _ => ?_)
    | with_reducible apply State.emit_keeps
    | split
    | (intro; try intro)

theorem execSmbDieJunction_keeps {c : State} {q : SmbReq} {d : Nat} {s : State} (hk : Keeps c s) : KeepsO c
    (execSmbDieJunction q d s) := by
  unfold execSmbDieJunction
  repeat' first
    | with_reducible assumption
    | with_reducible refine keeps_ite (fun _ => ?_) (fun _ => ?_)
    | simp only [keepsO_next]
    | with_reducible apply State.smbRefuse_keeps
    | with_reducible apply State.smbAnswer_keeps
    | split
    | (intro; try intro)

theorem execSmbFlags_keeps {c : State} {q : SmbReq} {s : State} (hk : Keeps c s) : KeepsO c (execSmbFlags q s) := by
  unfold execSmbFlags
  repeat' first
    | with_reducible assumption
    | with_reducible refine keeps_ite (fun _ => ?_) (fun _ => ?_)
    | simp only [keepsO_next]
    | with_reducible apply State.smbAnswer_keeps
    | split
    | (intro; try intro)

theorem execSmbJunctionMax_keeps {c : State} {q : SmbReq} {s : State} (hk : Keeps c s) : KeepsO c (execSmbJunctionMax
    q s) := by
  unfold execSmbJunctionMax
  repeat' first
    | with_reducible assumption
    | with_reducible refine keeps_ite (fun _ => ?_) (fun _ => ?_)
    | simp only [keepsO_next]
    | with_reducible apply State.smbAnswer_keeps
    | split
    | (intro; try intro)

theorem execSmbPower_keeps {c : State} {q : SmbReq} {s : State} (hk : Keeps c s) : KeepsO c (execSmbPower q s) := by
  unfold execSmbPower
  repeat' first
    | with_reducible assumption
    | with_reducible refine keeps_ite (fun _ => ?_) (fun _ => ?_)
    | simp only [keepsO_next]
    | with_reducible apply State.smbAnswer_keeps
    | split
    | (intro; try intro)

theorem execSmbStackMax_keeps {c : State} {q : SmbReq} {s : State} (hk : Keeps c s) : KeepsO c (execSmbStackMax q s)
    := by
  unfold execSmbStackMax
  repeat' first
    | with_reducible assumption
    | with_reducible refine keeps_ite (fun _ => ?_) (fun _ => ?_)
    | simp only [keepsO_next]
    | with_reducible apply State.smbAnswer_keeps
    | split
    | (intro; try intro)

theorem execSmbStackSensor_keeps {c : State} {q : SmbReq} {m : Nat} {s : State} (hk : Keeps c s) : KeepsO c
    (execSmbStackSensor q m s) := by
  unfold execSmbStackSensor
  repeat' first
    | with_reducible assumption
    | with_reducible refine keeps_ite (fun _ => ?_) (fun _ => ?_)
    | simp only [keepsO_next]
    | with_reducible apply State.smbRefuse_keeps
    | with_reducible apply State.smbAnswer_keeps
    | split
    | (intro; try intro)

theorem execSmbVoltage_keeps {c : State} {q : SmbReq} {s : State} (hk : Keeps c s) : KeepsO c (execSmbVoltage q s) :=
    by
  unfold execSmbVoltage
  repeat' first
    | with_reducible assumption
    | with_reducible refine keeps_ite (fun _ => ?_) (fun _ => ?_)
    | simp only [keepsO_next]
    | with_reducible apply State.smbAnswer_keeps
    | split
    | (intro; try intro)

theorem execSmbWriteNack_keeps {c : State} {q : SmbReq} {_cmd : Nat} {_bytes : List Byte} {s : State} (hk : Keeps c s)
    : KeepsO c (execSmbWriteNack q _cmd _bytes s) := by
  unfold execSmbWriteNack
  repeat' first
    | with_reducible assumption
    | with_reducible refine keeps_ite (fun _ => ?_) (fun _ => ?_)
    | simp only [keepsO_next]
    | with_reducible apply State.smbRefuse_keeps
    | split
    | (intro; try intro)

end Sys2Proof.Machine
end

