-- ==== Sys2Proof/Laws/KeepsRegisters.lean ====
section
/-! SUPPORT. Every operation of Registers keeps the queue, the part, and the canonical forms. -/
set_option maxRecDepth 8000
namespace Sys2Proof.Machine

theorem State.putRw_keeps {c : State} {s : State} {d : Nat} {off : Nat} {m : Word} {v : Word} (hk : Keeps c s) : Keeps
    c (State.putRw s d off m v) := by
  unfold State.putRw
  repeat' first
    | with_reducible assumption
    | with_reducible refine keeps_ite (fun _ => ?_) (fun _ => ?_)
    | with_reducible apply State.setRg_keeps
    | split
    | (intro; try intro)

theorem State.putW1c_keeps {c : State} {s : State} {d : Nat} {off : Nat} {m : Word} {v : Word} (hk : Keeps c s) :
    Keeps c (State.putW1c s d off m v) := by
  unfold State.putW1c
  repeat' first
    | with_reducible assumption
    | with_reducible refine keeps_ite (fun _ => ?_) (fun _ => ?_)
    | with_reducible apply State.setRg_keeps
    | split
    | (intro; try intro)

theorem State.tlWrite_keeps {c : State} {s : State} {t : Nat} {v : Word} (hk : Keeps c s) : Keeps c (State.tlWrite s t
    v) := by
  unfold State.tlWrite
  repeat' first
    | with_reducible assumption
    | with_reducible refine keeps_ite (fun _ => ?_) (fun _ => ?_)
    | with_reducible apply State.putRw_keeps
    | with_reducible apply State.setRg_keeps
    | with_reducible apply State.setTile_keeps
    | split
    | (intro; try intro)

theorem noRegister_keeps {c : State} : KeepsO c (noRegister) := by
  unfold noRegister
  repeat' first
    | with_reducible assumption
    | with_reducible refine keeps_ite (fun _ => ?_) (fun _ => ?_)
    | simp only [keepsO_refused]
    | split
    | (intro; try intro)

theorem alRegWrite_keeps {c : State} {g : Nat} {o : Nat} {v : Word} {s : State} (hk : Keeps c s) : KeepsO c
    (alRegWrite g o v s) := by
  unfold alRegWrite
  repeat' first
    | with_reducible assumption
    | with_reducible refine keeps_ite (fun _ => ?_) (fun _ => ?_)
    | simp only [keepsO_next]
    | with_reducible apply execAlGroupValidate_keeps
    | with_reducible apply execAlGroupEnd_keeps
    | with_reducible apply noRegister_keeps
    | split
    | (intro; try intro)

theorem albRegWrite_keeps {c : State} {b : Nat} {o : Nat} {v : Word} {s : State} (hk : Keeps c s) : KeepsO c
    (albRegWrite b o v s) := by
  unfold albRegWrite
  repeat' first
    | with_reducible assumption
    | with_reducible refine keeps_ite (fun _ => ?_) (fun _ => ?_)
    | simp only [keepsO_next]
    | with_reducible apply State.putRw_keeps
    | with_reducible apply State.setRg_keeps
    | split
    | (intro; try intro)

theorem commonWrite_keeps {c : State} {d : Nat} {off : Nat} {v : Word} {s : State} (hk : Keeps c s) : KeepsO c
    (commonWrite d off v s) := by
  unfold commonWrite
  repeat' first
    | with_reducible assumption
    | with_reducible refine keeps_ite (fun _ => ?_) (fun _ => ?_)
    | simp only [keepsO_next]
    | with_reducible apply State.setRf_keeps
    | with_reducible apply State.putW1c_keeps
    | with_reducible apply State.endCond_keeps
    | with_reducible apply noRegister_keeps
    | with_reducible apply execD2dCtlRetrain_keeps
    | split
    | (intro; try intro)

theorem exRegWrite_keeps {c : State} {h : Nat} {o : Nat} {v : Word} {s : State} (hk : Keeps c s) : KeepsO c
    (exRegWrite h o v s) := by
  unfold exRegWrite
  repeat' first
    | with_reducible assumption
    | with_reducible refine keeps_ite (fun _ => ?_) (fun _ => ?_)
    | simp only [keepsO_next]
    | with_reducible apply execExHandleValidate_keeps
    | with_reducible apply execExHandleDiscard_keeps
    | with_reducible apply State.putRw_keeps
    | with_reducible apply noRegister_keeps
    | split
    | (intro; try intro)

theorem slRegWrite_keeps {c : State} {d : Nat} {i : Nat} {o : Nat} {v : Word} {s : State} (hk : Keeps c s) : KeepsO c
    (slRegWrite d i o v s) := by
  unfold slRegWrite
  repeat' first
    | with_reducible assumption
    | with_reducible refine keeps_ite (fun _ => ?_) (fun _ => ?_)
    | simp only [keepsO_next]
    | with_reducible apply execSlOpen_keeps
    | with_reducible apply execSlClose_keeps
    | with_reducible apply State.setRg_keeps
    | with_reducible apply State.putRw_keeps
    | with_reducible apply noRegister_keeps
    | split
    | (intro; try intro)

theorem filRegWrite_keeps {c : State} {t : Nat} {o : Nat} {v : Word} {s : State} (hk : Keeps c s) : KeepsO c
    (filRegWrite t o v s) := by
  unfold filRegWrite
  repeat' first
    | with_reducible assumption
    | with_reducible refine keeps_ite (fun _ => ?_) (fun _ => ?_)
    | simp only [keeps_upd, keepsO_next]
    | with_reducible apply execFilCtlWrite_keeps
    | with_reducible apply State.filDrop_keeps
    | with_reducible apply State.putRw_keeps
    | split
    | (intro; try intro)

theorem tlRegWrite_keeps {c : State} {t : Nat} {o : Nat} {v : Word} {s : State} (hk : Keeps c s) : KeepsO c
    (tlRegWrite t o v s) := by
  unfold tlRegWrite
  repeat' first
    | with_reducible assumption
    | with_reducible refine keeps_ite (fun _ => ?_) (fun _ => ?_)
    | simp only [keepsO_next]
    | with_reducible apply State.tlWrite_keeps
    | with_reducible apply State.putRw_keeps
    | with_reducible apply noRegister_keeps
    | split
    | (intro; try intro)

theorem msaRegWrite_keeps {c : State} {d : Nat} {j : Nat} {o : Nat} {v : Word} {s : State} (hk : Keeps c s) : KeepsO c
    (msaRegWrite d j o v s) := by
  unfold msaRegWrite
  repeat' first
    | with_reducible assumption
    | with_reducible refine keeps_ite (fun _ => ?_) (fun _ => ?_)
    | simp only [keepsO_next]
    | with_reducible apply State.putRw_keeps
    | with_reducible apply State.rxKick_keeps
    | with_reducible apply State.putW1c_keeps
    | with_reducible apply noRegister_keeps
    | with_reducible refine keeps_foldl (fun _ _ _ => ?_) ?_
    | split
    | (intro; try intro)

theorem memRegWrite_keeps {c : State} {d : Nat} {j : Nat} {o : Nat} {v : Word} {s : State} (hk : Keeps c s) : KeepsO c
    (memRegWrite d j o v s) := by
  unfold memRegWrite
  repeat' first
    | with_reducible assumption
    | with_reducible refine keeps_ite (fun _ => ?_) (fun _ => ?_)
    | simp only [keepsO_next]
    | with_reducible apply State.putRw_keeps
    | with_reducible apply execMemMapoutWrite_keeps
    | with_reducible apply State.putW1c_keeps
    | with_reducible apply noRegister_keeps
    | split
    | (intro; try intro)

theorem hobWrite_keeps {c : State} {d : Nat} {off : Nat} {v : Word} {s : State} (hk : Keeps c s) : KeepsO c (hobWrite
    d off v s) := by
  unfold hobWrite
  repeat' first
    | with_reducible assumption
    | with_reducible refine keeps_ite (fun _ => ?_) (fun _ => ?_)
    | simp only [keepsO_next]
    | with_reducible apply slRegWrite_keeps
    | with_reducible apply filRegWrite_keeps
    | with_reducible apply tlRegWrite_keeps
    | with_reducible apply msaRegWrite_keeps
    | with_reducible apply memRegWrite_keeps
    | with_reducible apply execMemOwnWrite_keeps
    | with_reducible apply commonWrite_keeps
    | split
    | (intro; try intro)

theorem rxRegWrite_keeps {c : State} {h : Nat} {o : Nat} {v : Word} {s : State} (hk : Keeps c s) : KeepsO c
    (rxRegWrite h o v s) := by
  unfold rxRegWrite
  repeat' first
    | with_reducible assumption
    | with_reducible refine keeps_ite (fun _ => ?_) (fun _ => ?_)
    | simp only [keepsO_next]
    | with_reducible apply State.putRw_keeps
    | with_reducible apply execRxCollectiveValidate_keeps
    | with_reducible apply execRxCollectiveDiscard_keeps
    | with_reducible apply noRegister_keeps
    | split
    | (intro; try intro)

theorem ingRegWrite_keeps {c : State} {st : Nat} {o : Nat} {v : Word} {s : State} (hk : Keeps c s) : KeepsO c
    (ingRegWrite st o v s) := by
  unfold ingRegWrite
  repeat' first
    | with_reducible assumption
    | with_reducible refine keeps_ite (fun _ => ?_) (fun _ => ?_)
    | simp only [keepsO_next]
    | with_reducible apply State.putRw_keeps
    | with_reducible apply execIngStreamEnable_keeps
    | with_reducible apply execIngStreamDisable_keeps
    | split
    | (intro; try intro)

theorem fwRegWrite_keeps {c : State} {o : Nat} {v : Word} {s : State} (hk : Keeps c s) : KeepsO c (fwRegWrite o v s)
    := by
  unfold fwRegWrite
  repeat' first
    | with_reducible assumption
    | with_reducible refine keeps_ite (fun _ => ?_) (fun _ => ?_)
    | simp only [keepsO_next]
    | with_reducible apply execFwWinWrite_keeps
    | with_reducible apply State.setRg_keeps
    | with_reducible apply noRegister_keeps
    | split
    | (intro; try intro)

theorem partRegWrite_keeps {c : State} {p : Nat} {o : Nat} {v : Word} {s : State} (hk : Keeps c s) : KeepsO c
    (partRegWrite p o v s) := by
  unfold partRegWrite
  repeat' first
    | with_reducible assumption
    | with_reducible refine keeps_ite (fun _ => ?_) (fun _ => ?_)
    | simp only [keepsO_next]
    | with_reducible apply execPartValidate_keeps
    | with_reducible apply execPartInvalidate_keeps
    | with_reducible apply State.setRg_keeps
    | with_reducible apply State.putRw_keeps
    | with_reducible apply State.putW1c_keeps
    | with_reducible apply noRegister_keeps
    | split
    | (intro; try intro)

theorem fcRegWrite_keeps {c : State} {o : Nat} {v : Word} {s : State} (hk : Keeps c s) : KeepsO c (fcRegWrite o v s)
    := by
  unfold fcRegWrite
  repeat' first
    | with_reducible assumption
    | with_reducible refine keeps_ite (fun _ => ?_) (fun _ => ?_)
    | simp only [keepsO_next]
    | with_reducible apply State.setRf_keeps
    | with_reducible apply State.setRb_keeps
    | with_reducible apply State.emit_keeps
    | with_reducible apply State.putW1c_keeps
    | with_reducible apply execFcClearAll_keeps
    | with_reducible apply execFcClearRecord_keeps
    | with_reducible apply noRegister_keeps
    | split
    | (intro; try intro)

theorem portRegWrite_keeps {c : State} {d : Nat} {o : Nat} {v : Word} {s : State} (hk : Keeps c s) : KeepsO c
    (portRegWrite d o v s) := by
  unfold portRegWrite
  repeat' first
    | with_reducible assumption
    | with_reducible refine keeps_ite (fun _ => ?_) (fun _ => ?_)
    | simp only [keepsO_next]
    | with_reducible apply State.putRw_keeps
    | with_reducible apply State.setRg_keeps
    | with_reducible apply noRegister_keeps
    | split
    | (intro; try intro)

theorem lkRegWrite_keeps {c : State} {l : Nat} {o : Nat} {v : Word} {s : State} (hk : Keeps c s) : KeepsO c
    (lkRegWrite l o v s) := by
  unfold lkRegWrite
  repeat' first
    | with_reducible assumption
    | with_reducible refine keeps_ite (fun _ => ?_) (fun _ => ?_)
    | simp only [keeps_upd, keepsO_next]
    | with_reducible apply noRegister_keeps
    | with_reducible apply execLkEnable_keeps
    | with_reducible apply execLkDisable_keeps
    | with_reducible apply execLkCtlReset_keeps
    | with_reducible apply execLkCtlRetrain_keeps
    | with_reducible apply State.putW1c_keeps
    | with_reducible apply execLkRefStart_keeps
    | with_reducible apply State.putRw_keeps
    | with_reducible apply State.setRg_keeps
    | split
    | (intro; try intro)

theorem regRegWrite_keeps {c : State} {d : Nat} {p : Nat} {i : Nat} {o : Nat} {v : Word} {s : State} (hk : Keeps c s)
    : KeepsO c (regRegWrite d p i o v s) := by
  unfold regRegWrite
  repeat' first
    | with_reducible assumption
    | with_reducible refine keeps_ite (fun _ => ?_) (fun _ => ?_)
    | simp only [keepsO_next]
    | with_reducible apply noRegister_keeps
    | with_reducible apply execRegCfgWrite_keeps
    | with_reducible apply State.putW1c_keeps
    | split
    | (intro; try intro)

theorem merWrite_keeps {c : State} {d : Nat} {off : Nat} {v : Word} {s : State} (hk : Keeps c s) : KeepsO c (merWrite
    d off v s) := by
  unfold merWrite
  repeat' first
    | with_reducible assumption
    | with_reducible refine keeps_ite (fun _ => ?_) (fun _ => ?_)
    | with_reducible apply exRegWrite_keeps
    | with_reducible apply portRegWrite_keeps
    | with_reducible apply lkRegWrite_keeps
    | with_reducible apply regRegWrite_keeps
    | with_reducible apply commonWrite_keeps
    | split
    | (intro; try intro)

theorem merASingle_keeps {c : State} {off : Nat} {v : Word} {s : State} (hk : Keeps c s) : KeepsO c (merASingle off v
    s) := by
  unfold merASingle
  repeat' first
    | with_reducible assumption
    | with_reducible refine keeps_ite (fun _ => ?_) (fun _ => ?_)
    | simp only [keeps_upd, keepsO_next]
    | with_reducible apply execResetGuest_keeps
    | with_reducible apply execResetMdl_keeps
    | with_reducible apply State.setRf_keeps
    | with_reducible apply execRepRetireWrite_keeps
    | with_reducible apply State.putRw_keeps
    | with_reducible apply merWrite_keeps
    | split
    | (intro; try intro)
    | exact (keepsO_ite (fun _ => execResetGuest_keeps (by rw [keeps_upd]; exact hk)) (fun _ => by rw [keepsO_next]; exact hk)) _ (by assumption)

theorem merAWrite_keeps {c : State} {off : Nat} {v : Word} {s : State} (hk : Keeps c s) : KeepsO c (merAWrite off v s)
    := by
  unfold merAWrite
  repeat' first
    | with_reducible assumption
    | with_reducible refine keeps_ite (fun _ => ?_) (fun _ => ?_)
    | with_reducible apply alRegWrite_keeps
    | with_reducible apply albRegWrite_keeps
    | with_reducible apply rxRegWrite_keeps
    | with_reducible apply ingRegWrite_keeps
    | with_reducible apply fwRegWrite_keeps
    | with_reducible apply partRegWrite_keeps
    | with_reducible apply fcRegWrite_keeps
    | with_reducible apply merASingle_keeps
    | split
    | (intro; try intro)

theorem mdlWrite_keeps {c : State} {off : Nat} {v : Word} {s : State} (hk : Keeps c s) : KeepsO c (mdlWrite off v s)
    := by
  unfold mdlWrite
  repeat' first
    | with_reducible assumption
    | with_reducible refine keeps_ite (fun _ => ?_) (fun _ => ?_)
    | with_reducible refine keepsO_ite (fun _ => ?_) (fun _ => ?_)
    | simp only [keepsO_next]
    | with_reducible apply State.putRw_keeps
    | with_reducible apply commonWrite_keeps
    | with_reducible apply execPantryEnable_keeps
    | with_reducible apply execPantryDisable_keeps
    | with_reducible apply State.pantryAlarm_keeps
    | with_reducible apply State.putW1c_keeps
    | with_reducible apply execTokDictLoad_keeps
    | with_reducible apply noRegister_keeps
    | split
    | (intro; try intro)

theorem execRegisterWrite_keeps {c : State} {d : Nat} {off : Nat} {v : Word} {s : State} (hk : Keeps c s) : KeepsO c
    (execRegisterWrite d off v s) := by
  unfold execRegisterWrite
  repeat' first
    | with_reducible assumption
    | with_reducible refine keeps_ite (fun _ => ?_) (fun _ => ?_)
    | simp only [keepsO_next, keepsO_refused]
    | with_reducible apply State.emit_keeps
    | with_reducible apply noRegister_keeps
    | with_reducible apply hobWrite_keeps
    | with_reducible apply merAWrite_keeps
    | with_reducible apply merWrite_keeps
    | with_reducible apply mdlWrite_keeps
    | with_reducible apply commonWrite_keeps
    | split
    | (intro; try intro)

end Sys2Proof.Machine
end

