-- ==== Sys2Proof/Laws/KeepsClock.lean ====
section
/-! SUPPORT. Every operation of Clock keeps the queue, the part, and the canonical forms. -/
set_option maxRecDepth 8000
namespace Sys2Proof.Machine

theorem State.tick_keeps {c : State} {s : State} (hk : Keeps c s) : Keeps c (State.tick s) := by
  unfold State.tick
  repeat' first
    | with_reducible assumption
    | with_reducible refine keeps_ite (fun _ => ?_) (fun _ => ?_)
    | simp only [keeps_upd]
    | split
    | (intro; try intro)

end Sys2Proof.Machine
end

