-- ==== Sys2Proof/Laws/KeepsDispatch.lean ====
section
/-! SUPPORT. Every operation of Dispatch keeps the queue, the part, and the canonical forms. -/
set_option maxRecDepth 8000
namespace Sys2Proof.Machine

theorem exec_keeps {c : State} {i : Instr} {s : State} (hk : Keeps c s) : KeepsO c (exec i s) := by
  unfold exec
  repeat' first
    | with_reducible assumption
    | with_reducible refine keeps_ite (fun _ => ?_) (fun _ => ?_)
    | with_reducible apply execAdd_keeps
    | with_reducible apply execSub_keeps
    | with_reducible apply execAnd_keeps
    | with_reducible apply execOr_keeps
    | with_reducible apply execXor_keeps
    | with_reducible apply execSll_keeps
    | with_reducible apply execSrl_keeps
    | with_reducible apply execSra_keeps
    | with_reducible apply execSlt_keeps
    | with_reducible apply execSltu_keeps
    | with_reducible apply execMin_keeps
    | with_reducible apply execMax_keeps
    | with_reducible apply execMinu_keeps
    | with_reducible apply execMaxu_keeps
    | with_reducible apply execMul_keeps
    | with_reducible apply execMulh_keeps
    | with_reducible apply execMulhu_keeps
    | with_reducible apply execDiv_keeps
    | with_reducible apply execDivu_keeps
    | with_reducible apply execRem_keeps
    | with_reducible apply execRemu_keeps
    | with_reducible apply execPopc_keeps
    | with_reducible apply execClz_keeps
    | with_reducible apply execCtz_keeps
    | with_reducible apply execAddi_keeps
    | with_reducible apply execAndi_keeps
    | with_reducible apply execOri_keeps
    | with_reducible apply execXori_keeps
    | with_reducible apply execSlti_keeps
    | with_reducible apply execSltiu_keeps
    | with_reducible apply execSlli_keeps
    | with_reducible apply execSrli_keeps
    | with_reducible apply execSrai_keeps
    | with_reducible apply execLi_keeps
    | with_reducible apply execShori_keeps
    | with_reducible apply execBeq_keeps
    | with_reducible apply execBne_keeps
    | with_reducible apply execBlt_keeps
    | with_reducible apply execBge_keeps
    | with_reducible apply execBltu_keeps
    | with_reducible apply execBgeu_keeps
    | with_reducible apply execJ_keeps
    | with_reducible apply execJal_keeps
    | with_reducible apply execJr_keeps
    | with_reducible apply execIllegalOpcode_keeps
    | with_reducible apply execLdB_keeps
    | with_reducible apply execLdBu_keeps
    | with_reducible apply execLdH_keeps
    | with_reducible apply execLdHu_keeps
    | with_reducible apply execLdW_keeps
    | with_reducible apply execLdWu_keeps
    | with_reducible apply execLdD_keeps
    | with_reducible apply execStB_keeps
    | with_reducible apply execStH_keeps
    | with_reducible apply execStW_keeps
    | with_reducible apply execStD_keeps
    | with_reducible apply execL1LineFillComplete_keeps
    | with_reducible apply execCacheWb_keeps
    | with_reducible apply execCacheInv_keeps
    | with_reducible apply execCacheWbinv_keeps
    | with_reducible apply execFence_keeps
    | with_reducible apply execCsrRd_keeps
    | with_reducible apply execCsrWr_keeps
    | with_reducible apply execCsrSwap_keeps
    | with_reducible apply execCsrSet_keeps
    | with_reducible apply execCsrClr_keeps
    | with_reducible apply execTrap_keeps
    | with_reducible apply execTrapRet_keeps
    | with_reducible apply execHalt_keeps
    | with_reducible apply execDmaIssue_keeps
    | with_reducible apply execDmaWait_keeps
    | with_reducible apply execDmaPoll_keeps
    | with_reducible apply execDmaTransferComplete_keeps
    | with_reducible apply execMmaLoad_keeps
    | with_reducible apply execMmaStream_keeps
    | with_reducible apply execMmaDrain_keeps
    | with_reducible apply execMmaDrainDbg_keeps
    | with_reducible apply execMmaLoadComplete_keeps
    | with_reducible apply execMmaStreamComplete_keeps
    | with_reducible apply execMmaDrainComplete_keeps
    | with_reducible apply execArrayGate_keeps
    | with_reducible apply execVecRun_keeps
    | with_reducible apply execVecRunComplete_keeps
    | with_reducible apply execRngGen_keeps
    | with_reducible apply execRngGenR_keeps
    | with_reducible apply execChSend_keeps
    | with_reducible apply execChRecv_keeps
    | with_reducible apply execChTry_keeps
    | with_reducible apply execChSelectP_keeps
    | with_reducible apply execChSelectR_keeps
    | with_reducible apply execChMessageArrival_keeps
    | with_reducible apply execChAcceptance_keeps
    | with_reducible apply execChDiscardNotice_keeps
    | with_reducible apply execChRetry_keeps
    | with_reducible apply execChWatchdogFire_keeps
    | with_reducible apply execSqPush_keeps
    | with_reducible apply execSqPop_keeps
    | with_reducible apply execSqRel_keeps
    | with_reducible apply execSlHeaderArrival_keeps
    | with_reducible apply execSlDataArrival_keeps
    | with_reducible apply execSlCreditArrival_keeps
    | with_reducible apply execSlCreditFlush_keeps
    | with_reducible apply execSlOpen_keeps
    | with_reducible apply execSlClose_keeps
    | with_reducible apply execAlGet_keeps
    | with_reducible apply execAlGetP_keeps
    | with_reducible apply execAlPin_keeps
    | with_reducible apply execAlUnpin_keeps
    | with_reducible apply execAlCommit_keeps
    | with_reducible apply execAlGroupValidate_keeps
    | with_reducible apply execAlGroupEnd_keeps
    | with_reducible apply execAlmanacBlockReport_keeps
    | with_reducible apply execMirrorCopyArrival_keeps
    | with_reducible apply execMirrorAck_keeps
    | with_reducible apply execFillerTaskStart_keeps
    | with_reducible apply execFillerBoundExpiry_keeps
    | with_reducible apply execFilCtlWrite_keeps
    | with_reducible apply execRxContrib_keeps
    | with_reducible apply execRxRelease_keeps
    | with_reducible apply execRxWait_keeps
    | with_reducible apply execRxApply_keeps
    | with_reducible apply execRxGnorm_keeps
    | with_reducible apply execRxGrantRequest_keeps
    | with_reducible apply execRxGrant_keeps
    | with_reducible apply execRaccWriteArrival_keeps
    | with_reducible apply execMsaApplyStart_keeps
    | with_reducible apply execMsaApplyBlockDone_keeps
    | with_reducible apply execGnormForm_keeps
    | with_reducible apply execRxCollectiveValidate_keeps
    | with_reducible apply execRxCollectiveDiscard_keeps
    | with_reducible apply execExDispatch_keeps
    | with_reducible apply execExCombine_keeps
    | with_reducible apply execExchRecordArrival_keeps
    | with_reducible apply execExchDropNotice_keeps
    | with_reducible apply execExchEndMark_keeps
    | with_reducible apply execExchReturnArrival_keeps
    | with_reducible apply execExHandleValidate_keeps
    | with_reducible apply execExHandleDiscard_keeps
    | with_reducible apply execData_keeps
    | with_reducible apply execProbe_keeps
    | with_reducible apply execIngCreditTimer_keeps
    | with_reducible apply execIngAddressResolution_keeps
    | with_reducible apply execReasmTimeout_keeps
    | with_reducible apply execDecodeStart_keeps
    | with_reducible apply execSlowDecoderMove_keeps
    | with_reducible apply execDropLimit_keeps
    | with_reducible apply execSampleComplete_keeps
    | with_reducible apply execMixPartnerArrival_keeps
    | with_reducible apply execPantryEnable_keeps
    | with_reducible apply execPantryDisable_keeps
    | with_reducible apply execIngStreamEnable_keeps
    | with_reducible apply execIngStreamDisable_keeps
    | with_reducible apply execRawConsumedPoll_keeps
    | with_reducible apply execTokDictLoad_keeps
    | with_reducible apply execTokDictLoadComplete_keeps
    | with_reducible apply execDramRead_keeps
    | with_reducible apply execDramWrite_keeps
    | with_reducible apply execCeWindowRoll_keeps
    | with_reducible apply execScrubPass_keeps
    | with_reducible apply execRefreshTierSample_keeps
    | with_reducible apply execRefreshTierDown_keeps
    | with_reducible apply execChannelPeriodicRetrain_keeps
    | with_reducible apply execChannelFailed_keeps
    | with_reducible apply execMemMapoutWrite_keeps
    | with_reducible apply execRemapComplete_keeps
    | with_reducible apply execMemOwnWrite_keeps
    | with_reducible apply execLkEnable_keeps
    | with_reducible apply execLkDisable_keeps
    | with_reducible apply execLkCtlRetrain_keeps
    | with_reducible apply execLkCtlReset_keeps
    | with_reducible apply execLkDetectRepeat_keeps
    | with_reducible apply execLkPeerDetected_keeps
    | with_reducible apply execLkEqDone_keeps
    | with_reducible apply execLkLaneDone_keeps
    | with_reducible apply execLkAlignDone_keeps
    | with_reducible apply execLkTrainTimeout_keeps
    | with_reducible apply execLkRetrainDone_keeps
    | with_reducible apply execIdent_keeps
    | with_reducible apply execRetrainReq_keeps
    | with_reducible apply execRetrainGo_keeps
    | with_reducible apply execRerouteReq_keeps
    | with_reducible apply execRerouteState_keeps
    | with_reducible apply execLinkReturn_keeps
    | with_reducible apply execLkLinkctlRepeat_keeps
    | with_reducible apply execLkRetrainReqTimeout_keeps
    | with_reducible apply execLkCellSlot_keeps
    | with_reducible apply execLkDataCellRx_keeps
    | with_reducible apply execLkAckCellRx_keeps
    | with_reducible apply execLkIdleAckTimer_keeps
    | with_reducible apply execLkRetxTimeout_keeps
    | with_reducible apply execLkFecLockLoss_keeps
    | with_reducible apply execLkDamageLimit_keeps
    | with_reducible apply execLkLaneFecLimit_keeps
    | with_reducible apply execLkAuthLimit_keeps
    | with_reducible apply execLkRefStart_keeps
    | with_reducible apply execLkRefAckHoldEnd_keeps
    | with_reducible apply execD2dTrainResult_keeps
    | with_reducible apply execD2dCtlRetrain_keeps
    | with_reducible apply execD2dCrcLimit_keeps
    | with_reducible apply execResetGuest_keeps
    | with_reducible apply execResetMdl_keeps
    | with_reducible apply execCrossingResyncDone_keeps
    | with_reducible apply execFwGuestRequest_keeps
    | with_reducible apply execFwWinWrite_keeps
    | with_reducible apply execRepRetireWrite_keeps
    | with_reducible apply execBypass_keeps
    | with_reducible apply execIdcode_keeps
    | with_reducible apply execSamplePreload_keeps
    | with_reducible apply execExtest_keeps
    | with_reducible apply execClamp_keeps
    | with_reducible apply execHighz_keeps
    | with_reducible apply execTestUnlock_keeps
    | with_reducible apply execPartValidate_keeps
    | with_reducible apply execPartInvalidate_keeps
    | with_reducible apply execPlacingComplete_keeps
    | with_reducible apply execEndingComplete_keeps
    | with_reducible apply execFenceComplete_keeps
    | with_reducible apply execRegTokenCredit_keeps
    | with_reducible apply execRegCfgWrite_keeps
    | with_reducible apply execFaultReport_keeps
    | with_reducible apply execFcLineWord_keeps
    | with_reducible apply execFcLineWordTimeout_keeps
    | with_reducible apply execFcLineSilence_keeps
    | with_reducible apply execFcLineTestWord_keeps
    | with_reducible apply execFcHeartbeat_keeps
    | with_reducible apply execFcPathTimeout_keeps
    | with_reducible apply execFcClearRecord_keeps
    | with_reducible apply execFcClearAll_keeps
    | with_reducible apply execErrnRefresh_keeps
    | with_reducible apply execPaceLoopPass_keeps
    | with_reducible apply execReplicaFail_keeps
    | with_reducible apply execPkgPowerRedivision_keeps
    | with_reducible apply execExcursionExhausted_keeps
    | with_reducible apply execExcursionWindowEnd_keeps
    | with_reducible apply execPwrEnRise_keeps
    | with_reducible apply execRailsInRegulation_keeps
    | with_reducible apply execResetNRise_keeps
    | with_reducible apply execResetNFall_keeps
    | with_reducible apply execPwrEnFall_keeps
    | with_reducible apply execInputOutOfRange_keeps
    | with_reducible apply execThermalTrip_keeps
    | with_reducible apply execConverterOvertemp_keeps
    | with_reducible apply execBootRomDone_keeps
    | with_reducible apply execRotStageDone_keeps
    | with_reducible apply execMemTrainingDone_keeps
    | with_reducible apply execSelfTestDone_keeps
    | with_reducible apply execOsImageVerified_keeps
    | with_reducible apply execReady_keeps
    | with_reducible apply execMgmtAddressResolution_keeps
    | with_reducible apply execStatus_keeps
    | with_reducible apply execResultRead_keeps
    | with_reducible apply execResultAck_keeps
    | with_reducible apply execBlobOpen_keeps
    | with_reducible apply execBlobWrite_keeps
    | with_reducible apply execBlobRead_keeps
    | with_reducible apply execBlobFree_keeps
    | with_reducible apply execJobStart_keeps
    | with_reducible apply execJobStop_keeps
    | with_reducible apply execJobFence_keeps
    | with_reducible apply execPartSet_keeps
    | with_reducible apply execMapout_keeps
    | with_reducible apply execRetire_keeps
    | with_reducible apply execQuote_keeps
    | with_reducible apply execPowerCap_keeps
    | with_reducible apply execRecordsRead_keeps
    | with_reducible apply execRecordsClear_keeps
    | with_reducible apply execFwUpload_keeps
    | with_reducible apply execSvnCommit_keeps
    | with_reducible apply execNetSet_keeps
    | with_reducible apply execRecoverWrite_keeps
    | with_reducible apply execRecoverCommit_keeps
    | with_reducible apply execPowerOff_keeps
    | with_reducible apply execSmbJunctionMax_keeps
    | with_reducible apply execSmbStackMax_keeps
    | with_reducible apply execSmbPower_keeps
    | with_reducible apply execSmbVoltage_keeps
    | with_reducible apply execSmbFlags_keeps
    | with_reducible apply execSmbDieJunction_keeps
    | with_reducible apply execSmbStackSensor_keeps
    | with_reducible apply execSmbWriteNack_keeps
    | with_reducible apply execRegisterWrite_keeps
    | with_reducible apply execInputAboveTurnOn_keeps
    | with_reducible apply execLossOfAlignment_keeps
    | with_reducible apply execLongOperationComplete_keeps
    | with_reducible apply execTileReset_keeps
    | split
    | (intro; try intro)

end Sys2Proof.Machine
end

