-- ==== Sys2Proof/Laws/State.lean ====
section
/-! SUPPORT. The state’s updates field by field: every field an update does not name is as it was, and what an update wrote is
read back. -/
namespace Sys2Proof.Machine

/-! `State.setTile` writes `tiles` and nothing else. -/

@[simp] theorem State.setTile_pending (s : State) (t : Nat) (x : Tile) : (s.setTile t x).pending = s.pending := rfl
@[simp] theorem State.setTile_variant (s : State) (t : Nat) (x : Tile) : (s.setTile t x).variant = s.variant := rfl
@[simp] theorem State.setTile_romKey (s : State) (t : Nat) (x : Tile) : (s.setTile t x).romKey = s.romKey := rfl
@[simp] theorem State.setTile_guestId (s : State) (t : Nat) (x : Tile) : (s.setTile t x).guestId = s.guestId := rfl
@[simp] theorem State.setTile_caps (s : State) (t : Nat) (x : Tile) : (s.setTile t x).caps = s.caps := rfl
@[simp] theorem State.setTile_regs (s : State) (t : Nat) (x : Tile) : (s.setTile t x).regs = s.regs := rfl
@[simp] theorem State.setTile_mem (s : State) (t : Nat) (x : Tile) : (s.setTile t x).mem = s.mem := rfl
@[simp] theorem State.setTile_cwKey (s : State) (t : Nat) (x : Tile) : (s.setTile t x).cwKey = s.cwKey := rfl
@[simp] theorem State.setTile_cwErr (s : State) (t : Nat) (x : Tile) : (s.setTile t x).cwErr = s.cwErr := rfl
@[simp] theorem State.setTile_spErr (s : State) (t : Nat) (x : Tile) : (s.setTile t x).spErr = s.spErr := rfl
@[simp] theorem State.setTile_tags (s : State) (t : Nat) (x : Tile) : (s.setTile t x).tags = s.tags := rfl
@[simp] theorem State.setTile_msgs (s : State) (t : Nat) (x : Tile) : (s.setTile t x).msgs = s.msgs := rfl
@[simp] theorem State.setTile_handles (s : State) (t : Nat) (x : Tile) : (s.setTile t x).handles = s.handles := rfl
@[simp] theorem State.setTile_flights (s : State) (t : Nat) (x : Tile) : (s.setTile t x).flights = s.flights := rfl
@[simp] theorem State.setTile_slCredits (s : State) (t : Nat) (x : Tile) : (s.setTile t x).slCredits = s.slCredits := rfl
@[simp] theorem State.setTile_linkCredits (s : State) (t : Nat) (x : Tile) : (s.setTile t x).linkCredits = s.linkCredits := rfl
@[simp] theorem State.setTile_groups (s : State) (t : Nat) (x : Tile) : (s.setTile t x).groups = s.groups := rfl
@[simp] theorem State.setTile_blockReports (s : State) (t : Nat) (x : Tile) : (s.setTile t x).blockReports = s.blockReports := rfl
@[simp] theorem State.setTile_rings (s : State) (t : Nat) (x : Tile) : (s.setTile t x).rings = s.rings := rfl
@[simp] theorem State.setTile_colls (s : State) (t : Nat) (x : Tile) : (s.setTile t x).colls = s.colls := rfl
@[simp] theorem State.setTile_gsteps (s : State) (t : Nat) (x : Tile) : (s.setTile t x).gsteps = s.gsteps := rfl
@[simp] theorem State.setTile_rxSeq (s : State) (t : Nat) (x : Tile) : (s.setTile t x).rxSeq = s.rxSeq := rfl
@[simp] theorem State.setTile_exch (s : State) (t : Nat) (x : Tile) : (s.setTile t x).exch = s.exch := rfl
@[simp] theorem State.setTile_streams (s : State) (t : Nat) (x : Tile) : (s.setTile t x).streams = s.streams := rfl
@[simp] theorem State.setTile_samples (s : State) (t : Nat) (x : Tile) : (s.setTile t x).samples = s.samples := rfl
@[simp] theorem State.setTile_mdl (s : State) (t : Nat) (x : Tile) : (s.setTile t x).mdl = s.mdl := rfl
@[simp] theorem State.setTile_links (s : State) (t : Nat) (x : Tile) : (s.setTile t x).links = s.links := rfl
@[simp] theorem State.setTile_unitIn (s : State) (t : Nat) (x : Tile) : (s.setTile t x).unitIn = s.unitIn := rfl
@[simp] theorem State.setTile_cross (s : State) (t : Nat) (x : Tile) : (s.setTile t x).cross = s.cross := rfl
@[simp] theorem State.setTile_remaps (s : State) (t : Nat) (x : Tile) : (s.setTile t x).remaps = s.remaps := rfl
@[simp] theorem State.setTile_regOwed (s : State) (t : Nat) (x : Tile) : (s.setTile t x).regOwed = s.regOwed := rfl
@[simp] theorem State.setTile_lineUp (s : State) (t : Nat) (x : Tile) : (s.setTile t x).lineUp = s.lineUp := rfl
@[simp] theorem State.setTile_d2dKeep (s : State) (t : Nat) (x : Tile) : (s.setTile t x).d2dKeep = s.d2dKeep := rfl
@[simp] theorem State.setTile_fwHeld (s : State) (t : Nat) (x : Tile) : (s.setTile t x).fwHeld = s.fwHeld := rfl
@[simp] theorem State.setTile_positions (s : State) (t : Nat) (x : Tile) : (s.setTile t x).positions = s.positions := rfl
@[simp] theorem State.setTile_tap (s : State) (t : Nat) (x : Tile) : (s.setTile t x).tap = s.tap := rfl
@[simp] theorem State.setTile_parts (s : State) (t : Nat) (x : Tile) : (s.setTile t x).parts = s.parts := rfl
@[simp] theorem State.setTile_regWaits (s : State) (t : Nat) (x : Tile) : (s.setTile t x).regWaits = s.regWaits := rfl
@[simp] theorem State.setTile_reports (s : State) (t : Nat) (x : Tile) : (s.setTile t x).reports = s.reports := rfl
@[simp] theorem State.setTile_brokenLines (s : State) (t : Nat) (x : Tile) : (s.setTile t x).brokenLines = s.brokenLines := rfl
@[simp] theorem State.setTile_recs (s : State) (t : Nat) (x : Tile) : (s.setTile t x).recs = s.recs := rfl
@[simp] theorem State.setTile_recOrder (s : State) (t : Nat) (x : Tile) : (s.setTile t x).recOrder = s.recOrder := rfl
@[simp] theorem State.setTile_govs (s : State) (t : Nat) (x : Tile) : (s.setTile t x).govs = s.govs := rfl
@[simp] theorem State.setTile_reconciled (s : State) (t : Nat) (x : Tile) : (s.setTile t x).reconciled = s.reconciled := rfl
@[simp] theorem State.setTile_pins (s : State) (t : Nat) (x : Tile) : (s.setTile t x).pins = s.pins := rfl
@[simp] theorem State.setTile_ns (s : State) (t : Nat) (x : Tile) : (s.setTile t x).ns = s.ns := rfl
@[simp] theorem State.setTile_rot (s : State) (t : Nat) (x : Tile) : (s.setTile t x).rot = s.rot := rfl
@[simp] theorem State.setTile_emmc (s : State) (t : Nat) (x : Tile) : (s.setTile t x).emmc = s.emmc := rfl
@[simp] theorem State.setTile_mgmt (s : State) (t : Nat) (x : Tile) : (s.setTile t x).mgmt = s.mgmt := rfl
@[simp] theorem State.setTile_freeIdx (s : State) (t : Nat) (x : Tile) : (s.setTile t x).freeIdx = s.freeIdx := rfl
@[simp] theorem State.setTile_out (s : State) (t : Nat) (x : Tile) : (s.setTile t x).out = s.out := rfl

/-! `State.setG` writes `tiles` and nothing else. -/

@[simp] theorem State.setG_pending (s : State) (t : Nat) (r : Reg) (v : Word) : (s.setG t r v).pending = s.pending := rfl
@[simp] theorem State.setG_variant (s : State) (t : Nat) (r : Reg) (v : Word) : (s.setG t r v).variant = s.variant := rfl
@[simp] theorem State.setG_romKey (s : State) (t : Nat) (r : Reg) (v : Word) : (s.setG t r v).romKey = s.romKey := rfl
@[simp] theorem State.setG_guestId (s : State) (t : Nat) (r : Reg) (v : Word) : (s.setG t r v).guestId = s.guestId := rfl
@[simp] theorem State.setG_caps (s : State) (t : Nat) (r : Reg) (v : Word) : (s.setG t r v).caps = s.caps := rfl
@[simp] theorem State.setG_regs (s : State) (t : Nat) (r : Reg) (v : Word) : (s.setG t r v).regs = s.regs := rfl
@[simp] theorem State.setG_mem (s : State) (t : Nat) (r : Reg) (v : Word) : (s.setG t r v).mem = s.mem := rfl
@[simp] theorem State.setG_cwKey (s : State) (t : Nat) (r : Reg) (v : Word) : (s.setG t r v).cwKey = s.cwKey := rfl
@[simp] theorem State.setG_cwErr (s : State) (t : Nat) (r : Reg) (v : Word) : (s.setG t r v).cwErr = s.cwErr := rfl
@[simp] theorem State.setG_spErr (s : State) (t : Nat) (r : Reg) (v : Word) : (s.setG t r v).spErr = s.spErr := rfl
@[simp] theorem State.setG_tags (s : State) (t : Nat) (r : Reg) (v : Word) : (s.setG t r v).tags = s.tags := rfl
@[simp] theorem State.setG_msgs (s : State) (t : Nat) (r : Reg) (v : Word) : (s.setG t r v).msgs = s.msgs := rfl
@[simp] theorem State.setG_handles (s : State) (t : Nat) (r : Reg) (v : Word) : (s.setG t r v).handles = s.handles := rfl
@[simp] theorem State.setG_flights (s : State) (t : Nat) (r : Reg) (v : Word) : (s.setG t r v).flights = s.flights := rfl
@[simp] theorem State.setG_slCredits (s : State) (t : Nat) (r : Reg) (v : Word) : (s.setG t r v).slCredits = s.slCredits := rfl
@[simp] theorem State.setG_linkCredits (s : State) (t : Nat) (r : Reg) (v : Word) : (s.setG t r v).linkCredits = s.linkCredits := rfl
@[simp] theorem State.setG_groups (s : State) (t : Nat) (r : Reg) (v : Word) : (s.setG t r v).groups = s.groups := rfl
@[simp] theorem State.setG_blockReports (s : State) (t : Nat) (r : Reg) (v : Word) : (s.setG t r v).blockReports = s.blockReports := rfl
@[simp] theorem State.setG_rings (s : State) (t : Nat) (r : Reg) (v : Word) : (s.setG t r v).rings = s.rings := rfl
@[simp] theorem State.setG_colls (s : State) (t : Nat) (r : Reg) (v : Word) : (s.setG t r v).colls = s.colls := rfl
@[simp] theorem State.setG_gsteps (s : State) (t : Nat) (r : Reg) (v : Word) : (s.setG t r v).gsteps = s.gsteps := rfl
@[simp] theorem State.setG_rxSeq (s : State) (t : Nat) (r : Reg) (v : Word) : (s.setG t r v).rxSeq = s.rxSeq := rfl
@[simp] theorem State.setG_exch (s : State) (t : Nat) (r : Reg) (v : Word) : (s.setG t r v).exch = s.exch := rfl
@[simp] theorem State.setG_streams (s : State) (t : Nat) (r : Reg) (v : Word) : (s.setG t r v).streams = s.streams := rfl
@[simp] theorem State.setG_samples (s : State) (t : Nat) (r : Reg) (v : Word) : (s.setG t r v).samples = s.samples := rfl
@[simp] theorem State.setG_mdl (s : State) (t : Nat) (r : Reg) (v : Word) : (s.setG t r v).mdl = s.mdl := rfl
@[simp] theorem State.setG_links (s : State) (t : Nat) (r : Reg) (v : Word) : (s.setG t r v).links = s.links := rfl
@[simp] theorem State.setG_unitIn (s : State) (t : Nat) (r : Reg) (v : Word) : (s.setG t r v).unitIn = s.unitIn := rfl
@[simp] theorem State.setG_cross (s : State) (t : Nat) (r : Reg) (v : Word) : (s.setG t r v).cross = s.cross := rfl
@[simp] theorem State.setG_remaps (s : State) (t : Nat) (r : Reg) (v : Word) : (s.setG t r v).remaps = s.remaps := rfl
@[simp] theorem State.setG_regOwed (s : State) (t : Nat) (r : Reg) (v : Word) : (s.setG t r v).regOwed = s.regOwed := rfl
@[simp] theorem State.setG_lineUp (s : State) (t : Nat) (r : Reg) (v : Word) : (s.setG t r v).lineUp = s.lineUp := rfl
@[simp] theorem State.setG_d2dKeep (s : State) (t : Nat) (r : Reg) (v : Word) : (s.setG t r v).d2dKeep = s.d2dKeep := rfl
@[simp] theorem State.setG_fwHeld (s : State) (t : Nat) (r : Reg) (v : Word) : (s.setG t r v).fwHeld = s.fwHeld := rfl
@[simp] theorem State.setG_positions (s : State) (t : Nat) (r : Reg) (v : Word) : (s.setG t r v).positions = s.positions := rfl
@[simp] theorem State.setG_tap (s : State) (t : Nat) (r : Reg) (v : Word) : (s.setG t r v).tap = s.tap := rfl
@[simp] theorem State.setG_parts (s : State) (t : Nat) (r : Reg) (v : Word) : (s.setG t r v).parts = s.parts := rfl
@[simp] theorem State.setG_regWaits (s : State) (t : Nat) (r : Reg) (v : Word) : (s.setG t r v).regWaits = s.regWaits := rfl
@[simp] theorem State.setG_reports (s : State) (t : Nat) (r : Reg) (v : Word) : (s.setG t r v).reports = s.reports := rfl
@[simp] theorem State.setG_brokenLines (s : State) (t : Nat) (r : Reg) (v : Word) : (s.setG t r v).brokenLines = s.brokenLines := rfl
@[simp] theorem State.setG_recs (s : State) (t : Nat) (r : Reg) (v : Word) : (s.setG t r v).recs = s.recs := rfl
@[simp] theorem State.setG_recOrder (s : State) (t : Nat) (r : Reg) (v : Word) : (s.setG t r v).recOrder = s.recOrder := rfl
@[simp] theorem State.setG_govs (s : State) (t : Nat) (r : Reg) (v : Word) : (s.setG t r v).govs = s.govs := rfl
@[simp] theorem State.setG_reconciled (s : State) (t : Nat) (r : Reg) (v : Word) : (s.setG t r v).reconciled = s.reconciled := rfl
@[simp] theorem State.setG_pins (s : State) (t : Nat) (r : Reg) (v : Word) : (s.setG t r v).pins = s.pins := rfl
@[simp] theorem State.setG_ns (s : State) (t : Nat) (r : Reg) (v : Word) : (s.setG t r v).ns = s.ns := rfl
@[simp] theorem State.setG_rot (s : State) (t : Nat) (r : Reg) (v : Word) : (s.setG t r v).rot = s.rot := rfl
@[simp] theorem State.setG_emmc (s : State) (t : Nat) (r : Reg) (v : Word) : (s.setG t r v).emmc = s.emmc := rfl
@[simp] theorem State.setG_mgmt (s : State) (t : Nat) (r : Reg) (v : Word) : (s.setG t r v).mgmt = s.mgmt := rfl
@[simp] theorem State.setG_freeIdx (s : State) (t : Nat) (r : Reg) (v : Word) : (s.setG t r v).freeIdx = s.freeIdx := rfl
@[simp] theorem State.setG_out (s : State) (t : Nat) (r : Reg) (v : Word) : (s.setG t r v).out = s.out := rfl

/-! `State.setPart` writes `parts` and nothing else. -/

@[simp] theorem State.setPart_pending (s : State) (p : Nat) (x : Part) : (s.setPart p x).pending = s.pending := rfl
@[simp] theorem State.setPart_variant (s : State) (p : Nat) (x : Part) : (s.setPart p x).variant = s.variant := rfl
@[simp] theorem State.setPart_romKey (s : State) (p : Nat) (x : Part) : (s.setPart p x).romKey = s.romKey := rfl
@[simp] theorem State.setPart_guestId (s : State) (p : Nat) (x : Part) : (s.setPart p x).guestId = s.guestId := rfl
@[simp] theorem State.setPart_caps (s : State) (p : Nat) (x : Part) : (s.setPart p x).caps = s.caps := rfl
@[simp] theorem State.setPart_regs (s : State) (p : Nat) (x : Part) : (s.setPart p x).regs = s.regs := rfl
@[simp] theorem State.setPart_mem (s : State) (p : Nat) (x : Part) : (s.setPart p x).mem = s.mem := rfl
@[simp] theorem State.setPart_cwKey (s : State) (p : Nat) (x : Part) : (s.setPart p x).cwKey = s.cwKey := rfl
@[simp] theorem State.setPart_cwErr (s : State) (p : Nat) (x : Part) : (s.setPart p x).cwErr = s.cwErr := rfl
@[simp] theorem State.setPart_spErr (s : State) (p : Nat) (x : Part) : (s.setPart p x).spErr = s.spErr := rfl
@[simp] theorem State.setPart_tiles (s : State) (p : Nat) (x : Part) : (s.setPart p x).tiles = s.tiles := rfl
@[simp] theorem State.setPart_tags (s : State) (p : Nat) (x : Part) : (s.setPart p x).tags = s.tags := rfl
@[simp] theorem State.setPart_msgs (s : State) (p : Nat) (x : Part) : (s.setPart p x).msgs = s.msgs := rfl
@[simp] theorem State.setPart_handles (s : State) (p : Nat) (x : Part) : (s.setPart p x).handles = s.handles := rfl
@[simp] theorem State.setPart_flights (s : State) (p : Nat) (x : Part) : (s.setPart p x).flights = s.flights := rfl
@[simp] theorem State.setPart_slCredits (s : State) (p : Nat) (x : Part) : (s.setPart p x).slCredits = s.slCredits := rfl
@[simp] theorem State.setPart_linkCredits (s : State) (p : Nat) (x : Part) : (s.setPart p x).linkCredits = s.linkCredits := rfl
@[simp] theorem State.setPart_groups (s : State) (p : Nat) (x : Part) : (s.setPart p x).groups = s.groups := rfl
@[simp] theorem State.setPart_blockReports (s : State) (p : Nat) (x : Part) : (s.setPart p x).blockReports = s.blockReports := rfl
@[simp] theorem State.setPart_rings (s : State) (p : Nat) (x : Part) : (s.setPart p x).rings = s.rings := rfl
@[simp] theorem State.setPart_colls (s : State) (p : Nat) (x : Part) : (s.setPart p x).colls = s.colls := rfl
@[simp] theorem State.setPart_gsteps (s : State) (p : Nat) (x : Part) : (s.setPart p x).gsteps = s.gsteps := rfl
@[simp] theorem State.setPart_rxSeq (s : State) (p : Nat) (x : Part) : (s.setPart p x).rxSeq = s.rxSeq := rfl
@[simp] theorem State.setPart_exch (s : State) (p : Nat) (x : Part) : (s.setPart p x).exch = s.exch := rfl
@[simp] theorem State.setPart_streams (s : State) (p : Nat) (x : Part) : (s.setPart p x).streams = s.streams := rfl
@[simp] theorem State.setPart_samples (s : State) (p : Nat) (x : Part) : (s.setPart p x).samples = s.samples := rfl
@[simp] theorem State.setPart_mdl (s : State) (p : Nat) (x : Part) : (s.setPart p x).mdl = s.mdl := rfl
@[simp] theorem State.setPart_links (s : State) (p : Nat) (x : Part) : (s.setPart p x).links = s.links := rfl
@[simp] theorem State.setPart_unitIn (s : State) (p : Nat) (x : Part) : (s.setPart p x).unitIn = s.unitIn := rfl
@[simp] theorem State.setPart_cross (s : State) (p : Nat) (x : Part) : (s.setPart p x).cross = s.cross := rfl
@[simp] theorem State.setPart_remaps (s : State) (p : Nat) (x : Part) : (s.setPart p x).remaps = s.remaps := rfl
@[simp] theorem State.setPart_regOwed (s : State) (p : Nat) (x : Part) : (s.setPart p x).regOwed = s.regOwed := rfl
@[simp] theorem State.setPart_lineUp (s : State) (p : Nat) (x : Part) : (s.setPart p x).lineUp = s.lineUp := rfl
@[simp] theorem State.setPart_d2dKeep (s : State) (p : Nat) (x : Part) : (s.setPart p x).d2dKeep = s.d2dKeep := rfl
@[simp] theorem State.setPart_fwHeld (s : State) (p : Nat) (x : Part) : (s.setPart p x).fwHeld = s.fwHeld := rfl
@[simp] theorem State.setPart_positions (s : State) (p : Nat) (x : Part) : (s.setPart p x).positions = s.positions := rfl
@[simp] theorem State.setPart_tap (s : State) (p : Nat) (x : Part) : (s.setPart p x).tap = s.tap := rfl
@[simp] theorem State.setPart_regWaits (s : State) (p : Nat) (x : Part) : (s.setPart p x).regWaits = s.regWaits := rfl
@[simp] theorem State.setPart_reports (s : State) (p : Nat) (x : Part) : (s.setPart p x).reports = s.reports := rfl
@[simp] theorem State.setPart_brokenLines (s : State) (p : Nat) (x : Part) : (s.setPart p x).brokenLines = s.brokenLines := rfl
@[simp] theorem State.setPart_recs (s : State) (p : Nat) (x : Part) : (s.setPart p x).recs = s.recs := rfl
@[simp] theorem State.setPart_recOrder (s : State) (p : Nat) (x : Part) : (s.setPart p x).recOrder = s.recOrder := rfl
@[simp] theorem State.setPart_govs (s : State) (p : Nat) (x : Part) : (s.setPart p x).govs = s.govs := rfl
@[simp] theorem State.setPart_reconciled (s : State) (p : Nat) (x : Part) : (s.setPart p x).reconciled = s.reconciled := rfl
@[simp] theorem State.setPart_pins (s : State) (p : Nat) (x : Part) : (s.setPart p x).pins = s.pins := rfl
@[simp] theorem State.setPart_ns (s : State) (p : Nat) (x : Part) : (s.setPart p x).ns = s.ns := rfl
@[simp] theorem State.setPart_rot (s : State) (p : Nat) (x : Part) : (s.setPart p x).rot = s.rot := rfl
@[simp] theorem State.setPart_emmc (s : State) (p : Nat) (x : Part) : (s.setPart p x).emmc = s.emmc := rfl
@[simp] theorem State.setPart_mgmt (s : State) (p : Nat) (x : Part) : (s.setPart p x).mgmt = s.mgmt := rfl
@[simp] theorem State.setPart_freeIdx (s : State) (p : Nat) (x : Part) : (s.setPart p x).freeIdx = s.freeIdx := rfl
@[simp] theorem State.setPart_out (s : State) (p : Nat) (x : Part) : (s.setPart p x).out = s.out := rfl

/-! `State.setRg` writes `regs` and nothing else. -/

@[simp] theorem State.setRg_pending (s : State) (d o : Nat) (v : Word) : (s.setRg d o v).pending = s.pending := rfl
@[simp] theorem State.setRg_variant (s : State) (d o : Nat) (v : Word) : (s.setRg d o v).variant = s.variant := rfl
@[simp] theorem State.setRg_romKey (s : State) (d o : Nat) (v : Word) : (s.setRg d o v).romKey = s.romKey := rfl
@[simp] theorem State.setRg_guestId (s : State) (d o : Nat) (v : Word) : (s.setRg d o v).guestId = s.guestId := rfl
@[simp] theorem State.setRg_caps (s : State) (d o : Nat) (v : Word) : (s.setRg d o v).caps = s.caps := rfl
@[simp] theorem State.setRg_mem (s : State) (d o : Nat) (v : Word) : (s.setRg d o v).mem = s.mem := rfl
@[simp] theorem State.setRg_cwKey (s : State) (d o : Nat) (v : Word) : (s.setRg d o v).cwKey = s.cwKey := rfl
@[simp] theorem State.setRg_cwErr (s : State) (d o : Nat) (v : Word) : (s.setRg d o v).cwErr = s.cwErr := rfl
@[simp] theorem State.setRg_spErr (s : State) (d o : Nat) (v : Word) : (s.setRg d o v).spErr = s.spErr := rfl
@[simp] theorem State.setRg_tiles (s : State) (d o : Nat) (v : Word) : (s.setRg d o v).tiles = s.tiles := rfl
@[simp] theorem State.setRg_tags (s : State) (d o : Nat) (v : Word) : (s.setRg d o v).tags = s.tags := rfl
@[simp] theorem State.setRg_msgs (s : State) (d o : Nat) (v : Word) : (s.setRg d o v).msgs = s.msgs := rfl
@[simp] theorem State.setRg_handles (s : State) (d o : Nat) (v : Word) : (s.setRg d o v).handles = s.handles := rfl
@[simp] theorem State.setRg_flights (s : State) (d o : Nat) (v : Word) : (s.setRg d o v).flights = s.flights := rfl
@[simp] theorem State.setRg_slCredits (s : State) (d o : Nat) (v : Word) : (s.setRg d o v).slCredits = s.slCredits := rfl
@[simp] theorem State.setRg_linkCredits (s : State) (d o : Nat) (v : Word) : (s.setRg d o v).linkCredits = s.linkCredits := rfl
@[simp] theorem State.setRg_groups (s : State) (d o : Nat) (v : Word) : (s.setRg d o v).groups = s.groups := rfl
@[simp] theorem State.setRg_blockReports (s : State) (d o : Nat) (v : Word) : (s.setRg d o v).blockReports = s.blockReports := rfl
@[simp] theorem State.setRg_rings (s : State) (d o : Nat) (v : Word) : (s.setRg d o v).rings = s.rings := rfl
@[simp] theorem State.setRg_colls (s : State) (d o : Nat) (v : Word) : (s.setRg d o v).colls = s.colls := rfl
@[simp] theorem State.setRg_gsteps (s : State) (d o : Nat) (v : Word) : (s.setRg d o v).gsteps = s.gsteps := rfl
@[simp] theorem State.setRg_rxSeq (s : State) (d o : Nat) (v : Word) : (s.setRg d o v).rxSeq = s.rxSeq := rfl
@[simp] theorem State.setRg_exch (s : State) (d o : Nat) (v : Word) : (s.setRg d o v).exch = s.exch := rfl
@[simp] theorem State.setRg_streams (s : State) (d o : Nat) (v : Word) : (s.setRg d o v).streams = s.streams := rfl
@[simp] theorem State.setRg_samples (s : State) (d o : Nat) (v : Word) : (s.setRg d o v).samples = s.samples := rfl
@[simp] theorem State.setRg_mdl (s : State) (d o : Nat) (v : Word) : (s.setRg d o v).mdl = s.mdl := rfl
@[simp] theorem State.setRg_links (s : State) (d o : Nat) (v : Word) : (s.setRg d o v).links = s.links := rfl
@[simp] theorem State.setRg_unitIn (s : State) (d o : Nat) (v : Word) : (s.setRg d o v).unitIn = s.unitIn := rfl
@[simp] theorem State.setRg_cross (s : State) (d o : Nat) (v : Word) : (s.setRg d o v).cross = s.cross := rfl
@[simp] theorem State.setRg_remaps (s : State) (d o : Nat) (v : Word) : (s.setRg d o v).remaps = s.remaps := rfl
@[simp] theorem State.setRg_regOwed (s : State) (d o : Nat) (v : Word) : (s.setRg d o v).regOwed = s.regOwed := rfl
@[simp] theorem State.setRg_lineUp (s : State) (d o : Nat) (v : Word) : (s.setRg d o v).lineUp = s.lineUp := rfl
@[simp] theorem State.setRg_d2dKeep (s : State) (d o : Nat) (v : Word) : (s.setRg d o v).d2dKeep = s.d2dKeep := rfl
@[simp] theorem State.setRg_fwHeld (s : State) (d o : Nat) (v : Word) : (s.setRg d o v).fwHeld = s.fwHeld := rfl
@[simp] theorem State.setRg_positions (s : State) (d o : Nat) (v : Word) : (s.setRg d o v).positions = s.positions := rfl
@[simp] theorem State.setRg_tap (s : State) (d o : Nat) (v : Word) : (s.setRg d o v).tap = s.tap := rfl
@[simp] theorem State.setRg_parts (s : State) (d o : Nat) (v : Word) : (s.setRg d o v).parts = s.parts := rfl
@[simp] theorem State.setRg_regWaits (s : State) (d o : Nat) (v : Word) : (s.setRg d o v).regWaits = s.regWaits := rfl
@[simp] theorem State.setRg_reports (s : State) (d o : Nat) (v : Word) : (s.setRg d o v).reports = s.reports := rfl
@[simp] theorem State.setRg_brokenLines (s : State) (d o : Nat) (v : Word) : (s.setRg d o v).brokenLines = s.brokenLines := rfl
@[simp] theorem State.setRg_recs (s : State) (d o : Nat) (v : Word) : (s.setRg d o v).recs = s.recs := rfl
@[simp] theorem State.setRg_recOrder (s : State) (d o : Nat) (v : Word) : (s.setRg d o v).recOrder = s.recOrder := rfl
@[simp] theorem State.setRg_govs (s : State) (d o : Nat) (v : Word) : (s.setRg d o v).govs = s.govs := rfl
@[simp] theorem State.setRg_reconciled (s : State) (d o : Nat) (v : Word) : (s.setRg d o v).reconciled = s.reconciled := rfl
@[simp] theorem State.setRg_pins (s : State) (d o : Nat) (v : Word) : (s.setRg d o v).pins = s.pins := rfl
@[simp] theorem State.setRg_ns (s : State) (d o : Nat) (v : Word) : (s.setRg d o v).ns = s.ns := rfl
@[simp] theorem State.setRg_rot (s : State) (d o : Nat) (v : Word) : (s.setRg d o v).rot = s.rot := rfl
@[simp] theorem State.setRg_emmc (s : State) (d o : Nat) (v : Word) : (s.setRg d o v).emmc = s.emmc := rfl
@[simp] theorem State.setRg_mgmt (s : State) (d o : Nat) (v : Word) : (s.setRg d o v).mgmt = s.mgmt := rfl
@[simp] theorem State.setRg_freeIdx (s : State) (d o : Nat) (v : Word) : (s.setRg d o v).freeIdx = s.freeIdx := rfl
@[simp] theorem State.setRg_out (s : State) (d o : Nat) (v : Word) : (s.setRg d o v).out = s.out := rfl

/-! `State.setRf` writes `regs` and nothing else. -/

@[simp] theorem State.setRf_pending (s : State) (d o hi lo v : Nat) : (s.setRf d o hi lo v).pending = s.pending := rfl
@[simp] theorem State.setRf_variant (s : State) (d o hi lo v : Nat) : (s.setRf d o hi lo v).variant = s.variant := rfl
@[simp] theorem State.setRf_romKey (s : State) (d o hi lo v : Nat) : (s.setRf d o hi lo v).romKey = s.romKey := rfl
@[simp] theorem State.setRf_guestId (s : State) (d o hi lo v : Nat) : (s.setRf d o hi lo v).guestId = s.guestId := rfl
@[simp] theorem State.setRf_caps (s : State) (d o hi lo v : Nat) : (s.setRf d o hi lo v).caps = s.caps := rfl
@[simp] theorem State.setRf_mem (s : State) (d o hi lo v : Nat) : (s.setRf d o hi lo v).mem = s.mem := rfl
@[simp] theorem State.setRf_cwKey (s : State) (d o hi lo v : Nat) : (s.setRf d o hi lo v).cwKey = s.cwKey := rfl
@[simp] theorem State.setRf_cwErr (s : State) (d o hi lo v : Nat) : (s.setRf d o hi lo v).cwErr = s.cwErr := rfl
@[simp] theorem State.setRf_spErr (s : State) (d o hi lo v : Nat) : (s.setRf d o hi lo v).spErr = s.spErr := rfl
@[simp] theorem State.setRf_tiles (s : State) (d o hi lo v : Nat) : (s.setRf d o hi lo v).tiles = s.tiles := rfl
@[simp] theorem State.setRf_tags (s : State) (d o hi lo v : Nat) : (s.setRf d o hi lo v).tags = s.tags := rfl
@[simp] theorem State.setRf_msgs (s : State) (d o hi lo v : Nat) : (s.setRf d o hi lo v).msgs = s.msgs := rfl
@[simp] theorem State.setRf_handles (s : State) (d o hi lo v : Nat) : (s.setRf d o hi lo v).handles = s.handles := rfl
@[simp] theorem State.setRf_flights (s : State) (d o hi lo v : Nat) : (s.setRf d o hi lo v).flights = s.flights := rfl
@[simp] theorem State.setRf_slCredits (s : State) (d o hi lo v : Nat) : (s.setRf d o hi lo v).slCredits = s.slCredits := rfl
@[simp] theorem State.setRf_linkCredits (s : State) (d o hi lo v : Nat) : (s.setRf d o hi lo v).linkCredits = s.linkCredits := rfl
@[simp] theorem State.setRf_groups (s : State) (d o hi lo v : Nat) : (s.setRf d o hi lo v).groups = s.groups := rfl
@[simp] theorem State.setRf_blockReports (s : State) (d o hi lo v : Nat) : (s.setRf d o hi lo v).blockReports = s.blockReports := rfl
@[simp] theorem State.setRf_rings (s : State) (d o hi lo v : Nat) : (s.setRf d o hi lo v).rings = s.rings := rfl
@[simp] theorem State.setRf_colls (s : State) (d o hi lo v : Nat) : (s.setRf d o hi lo v).colls = s.colls := rfl
@[simp] theorem State.setRf_gsteps (s : State) (d o hi lo v : Nat) : (s.setRf d o hi lo v).gsteps = s.gsteps := rfl
@[simp] theorem State.setRf_rxSeq (s : State) (d o hi lo v : Nat) : (s.setRf d o hi lo v).rxSeq = s.rxSeq := rfl
@[simp] theorem State.setRf_exch (s : State) (d o hi lo v : Nat) : (s.setRf d o hi lo v).exch = s.exch := rfl
@[simp] theorem State.setRf_streams (s : State) (d o hi lo v : Nat) : (s.setRf d o hi lo v).streams = s.streams := rfl
@[simp] theorem State.setRf_samples (s : State) (d o hi lo v : Nat) : (s.setRf d o hi lo v).samples = s.samples := rfl
@[simp] theorem State.setRf_mdl (s : State) (d o hi lo v : Nat) : (s.setRf d o hi lo v).mdl = s.mdl := rfl
@[simp] theorem State.setRf_links (s : State) (d o hi lo v : Nat) : (s.setRf d o hi lo v).links = s.links := rfl
@[simp] theorem State.setRf_unitIn (s : State) (d o hi lo v : Nat) : (s.setRf d o hi lo v).unitIn = s.unitIn := rfl
@[simp] theorem State.setRf_cross (s : State) (d o hi lo v : Nat) : (s.setRf d o hi lo v).cross = s.cross := rfl
@[simp] theorem State.setRf_remaps (s : State) (d o hi lo v : Nat) : (s.setRf d o hi lo v).remaps = s.remaps := rfl
@[simp] theorem State.setRf_regOwed (s : State) (d o hi lo v : Nat) : (s.setRf d o hi lo v).regOwed = s.regOwed := rfl
@[simp] theorem State.setRf_lineUp (s : State) (d o hi lo v : Nat) : (s.setRf d o hi lo v).lineUp = s.lineUp := rfl
@[simp] theorem State.setRf_d2dKeep (s : State) (d o hi lo v : Nat) : (s.setRf d o hi lo v).d2dKeep = s.d2dKeep := rfl
@[simp] theorem State.setRf_fwHeld (s : State) (d o hi lo v : Nat) : (s.setRf d o hi lo v).fwHeld = s.fwHeld := rfl
@[simp] theorem State.setRf_positions (s : State) (d o hi lo v : Nat) : (s.setRf d o hi lo v).positions = s.positions := rfl
@[simp] theorem State.setRf_tap (s : State) (d o hi lo v : Nat) : (s.setRf d o hi lo v).tap = s.tap := rfl
@[simp] theorem State.setRf_parts (s : State) (d o hi lo v : Nat) : (s.setRf d o hi lo v).parts = s.parts := rfl
@[simp] theorem State.setRf_regWaits (s : State) (d o hi lo v : Nat) : (s.setRf d o hi lo v).regWaits = s.regWaits := rfl
@[simp] theorem State.setRf_reports (s : State) (d o hi lo v : Nat) : (s.setRf d o hi lo v).reports = s.reports := rfl
@[simp] theorem State.setRf_brokenLines (s : State) (d o hi lo v : Nat) : (s.setRf d o hi lo v).brokenLines = s.brokenLines := rfl
@[simp] theorem State.setRf_recs (s : State) (d o hi lo v : Nat) : (s.setRf d o hi lo v).recs = s.recs := rfl
@[simp] theorem State.setRf_recOrder (s : State) (d o hi lo v : Nat) : (s.setRf d o hi lo v).recOrder = s.recOrder := rfl
@[simp] theorem State.setRf_govs (s : State) (d o hi lo v : Nat) : (s.setRf d o hi lo v).govs = s.govs := rfl
@[simp] theorem State.setRf_reconciled (s : State) (d o hi lo v : Nat) : (s.setRf d o hi lo v).reconciled = s.reconciled := rfl
@[simp] theorem State.setRf_pins (s : State) (d o hi lo v : Nat) : (s.setRf d o hi lo v).pins = s.pins := rfl
@[simp] theorem State.setRf_ns (s : State) (d o hi lo v : Nat) : (s.setRf d o hi lo v).ns = s.ns := rfl
@[simp] theorem State.setRf_rot (s : State) (d o hi lo v : Nat) : (s.setRf d o hi lo v).rot = s.rot := rfl
@[simp] theorem State.setRf_emmc (s : State) (d o hi lo v : Nat) : (s.setRf d o hi lo v).emmc = s.emmc := rfl
@[simp] theorem State.setRf_mgmt (s : State) (d o hi lo v : Nat) : (s.setRf d o hi lo v).mgmt = s.mgmt := rfl
@[simp] theorem State.setRf_freeIdx (s : State) (d o hi lo v : Nat) : (s.setRf d o hi lo v).freeIdx = s.freeIdx := rfl
@[simp] theorem State.setRf_out (s : State) (d o hi lo v : Nat) : (s.setRf d o hi lo v).out = s.out := rfl

/-! `State.setRb` writes `regs` and nothing else. -/

@[simp] theorem State.setRb_pending (s : State) (d o i : Nat) (b : Bool) : (s.setRb d o i b).pending = s.pending := rfl
@[simp] theorem State.setRb_variant (s : State) (d o i : Nat) (b : Bool) : (s.setRb d o i b).variant = s.variant := rfl
@[simp] theorem State.setRb_romKey (s : State) (d o i : Nat) (b : Bool) : (s.setRb d o i b).romKey = s.romKey := rfl
@[simp] theorem State.setRb_guestId (s : State) (d o i : Nat) (b : Bool) : (s.setRb d o i b).guestId = s.guestId := rfl
@[simp] theorem State.setRb_caps (s : State) (d o i : Nat) (b : Bool) : (s.setRb d o i b).caps = s.caps := rfl
@[simp] theorem State.setRb_mem (s : State) (d o i : Nat) (b : Bool) : (s.setRb d o i b).mem = s.mem := rfl
@[simp] theorem State.setRb_cwKey (s : State) (d o i : Nat) (b : Bool) : (s.setRb d o i b).cwKey = s.cwKey := rfl
@[simp] theorem State.setRb_cwErr (s : State) (d o i : Nat) (b : Bool) : (s.setRb d o i b).cwErr = s.cwErr := rfl
@[simp] theorem State.setRb_spErr (s : State) (d o i : Nat) (b : Bool) : (s.setRb d o i b).spErr = s.spErr := rfl
@[simp] theorem State.setRb_tiles (s : State) (d o i : Nat) (b : Bool) : (s.setRb d o i b).tiles = s.tiles := rfl
@[simp] theorem State.setRb_tags (s : State) (d o i : Nat) (b : Bool) : (s.setRb d o i b).tags = s.tags := rfl
@[simp] theorem State.setRb_msgs (s : State) (d o i : Nat) (b : Bool) : (s.setRb d o i b).msgs = s.msgs := rfl
@[simp] theorem State.setRb_handles (s : State) (d o i : Nat) (b : Bool) : (s.setRb d o i b).handles = s.handles := rfl
@[simp] theorem State.setRb_flights (s : State) (d o i : Nat) (b : Bool) : (s.setRb d o i b).flights = s.flights := rfl
@[simp] theorem State.setRb_slCredits (s : State) (d o i : Nat) (b : Bool) : (s.setRb d o i b).slCredits = s.slCredits := rfl
@[simp] theorem State.setRb_linkCredits (s : State) (d o i : Nat) (b : Bool) : (s.setRb d o i b).linkCredits = s.linkCredits := rfl
@[simp] theorem State.setRb_groups (s : State) (d o i : Nat) (b : Bool) : (s.setRb d o i b).groups = s.groups := rfl
@[simp] theorem State.setRb_blockReports (s : State) (d o i : Nat) (b : Bool) : (s.setRb d o i b).blockReports = s.blockReports := rfl
@[simp] theorem State.setRb_rings (s : State) (d o i : Nat) (b : Bool) : (s.setRb d o i b).rings = s.rings := rfl
@[simp] theorem State.setRb_colls (s : State) (d o i : Nat) (b : Bool) : (s.setRb d o i b).colls = s.colls := rfl
@[simp] theorem State.setRb_gsteps (s : State) (d o i : Nat) (b : Bool) : (s.setRb d o i b).gsteps = s.gsteps := rfl
@[simp] theorem State.setRb_rxSeq (s : State) (d o i : Nat) (b : Bool) : (s.setRb d o i b).rxSeq = s.rxSeq := rfl
@[simp] theorem State.setRb_exch (s : State) (d o i : Nat) (b : Bool) : (s.setRb d o i b).exch = s.exch := rfl
@[simp] theorem State.setRb_streams (s : State) (d o i : Nat) (b : Bool) : (s.setRb d o i b).streams = s.streams := rfl
@[simp] theorem State.setRb_samples (s : State) (d o i : Nat) (b : Bool) : (s.setRb d o i b).samples = s.samples := rfl
@[simp] theorem State.setRb_mdl (s : State) (d o i : Nat) (b : Bool) : (s.setRb d o i b).mdl = s.mdl := rfl
@[simp] theorem State.setRb_links (s : State) (d o i : Nat) (b : Bool) : (s.setRb d o i b).links = s.links := rfl
@[simp] theorem State.setRb_unitIn (s : State) (d o i : Nat) (b : Bool) : (s.setRb d o i b).unitIn = s.unitIn := rfl
@[simp] theorem State.setRb_cross (s : State) (d o i : Nat) (b : Bool) : (s.setRb d o i b).cross = s.cross := rfl
@[simp] theorem State.setRb_remaps (s : State) (d o i : Nat) (b : Bool) : (s.setRb d o i b).remaps = s.remaps := rfl
@[simp] theorem State.setRb_regOwed (s : State) (d o i : Nat) (b : Bool) : (s.setRb d o i b).regOwed = s.regOwed := rfl
@[simp] theorem State.setRb_lineUp (s : State) (d o i : Nat) (b : Bool) : (s.setRb d o i b).lineUp = s.lineUp := rfl
@[simp] theorem State.setRb_d2dKeep (s : State) (d o i : Nat) (b : Bool) : (s.setRb d o i b).d2dKeep = s.d2dKeep := rfl
@[simp] theorem State.setRb_fwHeld (s : State) (d o i : Nat) (b : Bool) : (s.setRb d o i b).fwHeld = s.fwHeld := rfl
@[simp] theorem State.setRb_positions (s : State) (d o i : Nat) (b : Bool) : (s.setRb d o i b).positions = s.positions := rfl
@[simp] theorem State.setRb_tap (s : State) (d o i : Nat) (b : Bool) : (s.setRb d o i b).tap = s.tap := rfl
@[simp] theorem State.setRb_parts (s : State) (d o i : Nat) (b : Bool) : (s.setRb d o i b).parts = s.parts := rfl
@[simp] theorem State.setRb_regWaits (s : State) (d o i : Nat) (b : Bool) : (s.setRb d o i b).regWaits = s.regWaits := rfl
@[simp] theorem State.setRb_reports (s : State) (d o i : Nat) (b : Bool) : (s.setRb d o i b).reports = s.reports := rfl
@[simp] theorem State.setRb_brokenLines (s : State) (d o i : Nat) (b : Bool) : (s.setRb d o i b).brokenLines = s.brokenLines := rfl
@[simp] theorem State.setRb_recs (s : State) (d o i : Nat) (b : Bool) : (s.setRb d o i b).recs = s.recs := rfl
@[simp] theorem State.setRb_recOrder (s : State) (d o i : Nat) (b : Bool) : (s.setRb d o i b).recOrder = s.recOrder := rfl
@[simp] theorem State.setRb_govs (s : State) (d o i : Nat) (b : Bool) : (s.setRb d o i b).govs = s.govs := rfl
@[simp] theorem State.setRb_reconciled (s : State) (d o i : Nat) (b : Bool) : (s.setRb d o i b).reconciled = s.reconciled := rfl
@[simp] theorem State.setRb_pins (s : State) (d o i : Nat) (b : Bool) : (s.setRb d o i b).pins = s.pins := rfl
@[simp] theorem State.setRb_ns (s : State) (d o i : Nat) (b : Bool) : (s.setRb d o i b).ns = s.ns := rfl
@[simp] theorem State.setRb_rot (s : State) (d o i : Nat) (b : Bool) : (s.setRb d o i b).rot = s.rot := rfl
@[simp] theorem State.setRb_emmc (s : State) (d o i : Nat) (b : Bool) : (s.setRb d o i b).emmc = s.emmc := rfl
@[simp] theorem State.setRb_mgmt (s : State) (d o i : Nat) (b : Bool) : (s.setRb d o i b).mgmt = s.mgmt := rfl
@[simp] theorem State.setRb_freeIdx (s : State) (d o i : Nat) (b : Bool) : (s.setRb d o i b).freeIdx = s.freeIdx := rfl
@[simp] theorem State.setRb_out (s : State) (d o i : Nat) (b : Bool) : (s.setRb d o i b).out = s.out := rfl

/-! `State.setSlEnd` writes `handles` and nothing else. -/

@[simp] theorem State.setSlEnd_pending (s : State) (h : Nat) (x : SlEnd) : (s.setSlEnd h x).pending = s.pending := rfl
@[simp] theorem State.setSlEnd_variant (s : State) (h : Nat) (x : SlEnd) : (s.setSlEnd h x).variant = s.variant := rfl
@[simp] theorem State.setSlEnd_romKey (s : State) (h : Nat) (x : SlEnd) : (s.setSlEnd h x).romKey = s.romKey := rfl
@[simp] theorem State.setSlEnd_guestId (s : State) (h : Nat) (x : SlEnd) : (s.setSlEnd h x).guestId = s.guestId := rfl
@[simp] theorem State.setSlEnd_caps (s : State) (h : Nat) (x : SlEnd) : (s.setSlEnd h x).caps = s.caps := rfl
@[simp] theorem State.setSlEnd_regs (s : State) (h : Nat) (x : SlEnd) : (s.setSlEnd h x).regs = s.regs := rfl
@[simp] theorem State.setSlEnd_mem (s : State) (h : Nat) (x : SlEnd) : (s.setSlEnd h x).mem = s.mem := rfl
@[simp] theorem State.setSlEnd_cwKey (s : State) (h : Nat) (x : SlEnd) : (s.setSlEnd h x).cwKey = s.cwKey := rfl
@[simp] theorem State.setSlEnd_cwErr (s : State) (h : Nat) (x : SlEnd) : (s.setSlEnd h x).cwErr = s.cwErr := rfl
@[simp] theorem State.setSlEnd_spErr (s : State) (h : Nat) (x : SlEnd) : (s.setSlEnd h x).spErr = s.spErr := rfl
@[simp] theorem State.setSlEnd_tiles (s : State) (h : Nat) (x : SlEnd) : (s.setSlEnd h x).tiles = s.tiles := rfl
@[simp] theorem State.setSlEnd_tags (s : State) (h : Nat) (x : SlEnd) : (s.setSlEnd h x).tags = s.tags := rfl
@[simp] theorem State.setSlEnd_msgs (s : State) (h : Nat) (x : SlEnd) : (s.setSlEnd h x).msgs = s.msgs := rfl
@[simp] theorem State.setSlEnd_flights (s : State) (h : Nat) (x : SlEnd) : (s.setSlEnd h x).flights = s.flights := rfl
@[simp] theorem State.setSlEnd_slCredits (s : State) (h : Nat) (x : SlEnd) : (s.setSlEnd h x).slCredits = s.slCredits := rfl
@[simp] theorem State.setSlEnd_linkCredits (s : State) (h : Nat) (x : SlEnd) : (s.setSlEnd h x).linkCredits = s.linkCredits := rfl
@[simp] theorem State.setSlEnd_groups (s : State) (h : Nat) (x : SlEnd) : (s.setSlEnd h x).groups = s.groups := rfl
@[simp] theorem State.setSlEnd_blockReports (s : State) (h : Nat) (x : SlEnd) : (s.setSlEnd h x).blockReports = s.blockReports := rfl
@[simp] theorem State.setSlEnd_rings (s : State) (h : Nat) (x : SlEnd) : (s.setSlEnd h x).rings = s.rings := rfl
@[simp] theorem State.setSlEnd_colls (s : State) (h : Nat) (x : SlEnd) : (s.setSlEnd h x).colls = s.colls := rfl
@[simp] theorem State.setSlEnd_gsteps (s : State) (h : Nat) (x : SlEnd) : (s.setSlEnd h x).gsteps = s.gsteps := rfl
@[simp] theorem State.setSlEnd_rxSeq (s : State) (h : Nat) (x : SlEnd) : (s.setSlEnd h x).rxSeq = s.rxSeq := rfl
@[simp] theorem State.setSlEnd_exch (s : State) (h : Nat) (x : SlEnd) : (s.setSlEnd h x).exch = s.exch := rfl
@[simp] theorem State.setSlEnd_streams (s : State) (h : Nat) (x : SlEnd) : (s.setSlEnd h x).streams = s.streams := rfl
@[simp] theorem State.setSlEnd_samples (s : State) (h : Nat) (x : SlEnd) : (s.setSlEnd h x).samples = s.samples := rfl
@[simp] theorem State.setSlEnd_mdl (s : State) (h : Nat) (x : SlEnd) : (s.setSlEnd h x).mdl = s.mdl := rfl
@[simp] theorem State.setSlEnd_links (s : State) (h : Nat) (x : SlEnd) : (s.setSlEnd h x).links = s.links := rfl
@[simp] theorem State.setSlEnd_unitIn (s : State) (h : Nat) (x : SlEnd) : (s.setSlEnd h x).unitIn = s.unitIn := rfl
@[simp] theorem State.setSlEnd_cross (s : State) (h : Nat) (x : SlEnd) : (s.setSlEnd h x).cross = s.cross := rfl
@[simp] theorem State.setSlEnd_remaps (s : State) (h : Nat) (x : SlEnd) : (s.setSlEnd h x).remaps = s.remaps := rfl
@[simp] theorem State.setSlEnd_regOwed (s : State) (h : Nat) (x : SlEnd) : (s.setSlEnd h x).regOwed = s.regOwed := rfl
@[simp] theorem State.setSlEnd_lineUp (s : State) (h : Nat) (x : SlEnd) : (s.setSlEnd h x).lineUp = s.lineUp := rfl
@[simp] theorem State.setSlEnd_d2dKeep (s : State) (h : Nat) (x : SlEnd) : (s.setSlEnd h x).d2dKeep = s.d2dKeep := rfl
@[simp] theorem State.setSlEnd_fwHeld (s : State) (h : Nat) (x : SlEnd) : (s.setSlEnd h x).fwHeld = s.fwHeld := rfl
@[simp] theorem State.setSlEnd_positions (s : State) (h : Nat) (x : SlEnd) : (s.setSlEnd h x).positions = s.positions := rfl
@[simp] theorem State.setSlEnd_tap (s : State) (h : Nat) (x : SlEnd) : (s.setSlEnd h x).tap = s.tap := rfl
@[simp] theorem State.setSlEnd_parts (s : State) (h : Nat) (x : SlEnd) : (s.setSlEnd h x).parts = s.parts := rfl
@[simp] theorem State.setSlEnd_regWaits (s : State) (h : Nat) (x : SlEnd) : (s.setSlEnd h x).regWaits = s.regWaits := rfl
@[simp] theorem State.setSlEnd_reports (s : State) (h : Nat) (x : SlEnd) : (s.setSlEnd h x).reports = s.reports := rfl
@[simp] theorem State.setSlEnd_brokenLines (s : State) (h : Nat) (x : SlEnd) : (s.setSlEnd h x).brokenLines = s.brokenLines := rfl
@[simp] theorem State.setSlEnd_recs (s : State) (h : Nat) (x : SlEnd) : (s.setSlEnd h x).recs = s.recs := rfl
@[simp] theorem State.setSlEnd_recOrder (s : State) (h : Nat) (x : SlEnd) : (s.setSlEnd h x).recOrder = s.recOrder := rfl
@[simp] theorem State.setSlEnd_govs (s : State) (h : Nat) (x : SlEnd) : (s.setSlEnd h x).govs = s.govs := rfl
@[simp] theorem State.setSlEnd_reconciled (s : State) (h : Nat) (x : SlEnd) : (s.setSlEnd h x).reconciled = s.reconciled := rfl
@[simp] theorem State.setSlEnd_pins (s : State) (h : Nat) (x : SlEnd) : (s.setSlEnd h x).pins = s.pins := rfl
@[simp] theorem State.setSlEnd_ns (s : State) (h : Nat) (x : SlEnd) : (s.setSlEnd h x).ns = s.ns := rfl
@[simp] theorem State.setSlEnd_rot (s : State) (h : Nat) (x : SlEnd) : (s.setSlEnd h x).rot = s.rot := rfl
@[simp] theorem State.setSlEnd_emmc (s : State) (h : Nat) (x : SlEnd) : (s.setSlEnd h x).emmc = s.emmc := rfl
@[simp] theorem State.setSlEnd_mgmt (s : State) (h : Nat) (x : SlEnd) : (s.setSlEnd h x).mgmt = s.mgmt := rfl
@[simp] theorem State.setSlEnd_freeIdx (s : State) (h : Nat) (x : SlEnd) : (s.setSlEnd h x).freeIdx = s.freeIdx := rfl
@[simp] theorem State.setSlEnd_out (s : State) (h : Nat) (x : SlEnd) : (s.setSlEnd h x).out = s.out := rfl

/-! `State.setGroup` writes `groups` and nothing else. -/

@[simp] theorem State.setGroup_pending (s : State) (g : Nat) (x : AlGroup) : (s.setGroup g x).pending = s.pending := rfl
@[simp] theorem State.setGroup_variant (s : State) (g : Nat) (x : AlGroup) : (s.setGroup g x).variant = s.variant := rfl
@[simp] theorem State.setGroup_romKey (s : State) (g : Nat) (x : AlGroup) : (s.setGroup g x).romKey = s.romKey := rfl
@[simp] theorem State.setGroup_guestId (s : State) (g : Nat) (x : AlGroup) : (s.setGroup g x).guestId = s.guestId := rfl
@[simp] theorem State.setGroup_caps (s : State) (g : Nat) (x : AlGroup) : (s.setGroup g x).caps = s.caps := rfl
@[simp] theorem State.setGroup_regs (s : State) (g : Nat) (x : AlGroup) : (s.setGroup g x).regs = s.regs := rfl
@[simp] theorem State.setGroup_mem (s : State) (g : Nat) (x : AlGroup) : (s.setGroup g x).mem = s.mem := rfl
@[simp] theorem State.setGroup_cwKey (s : State) (g : Nat) (x : AlGroup) : (s.setGroup g x).cwKey = s.cwKey := rfl
@[simp] theorem State.setGroup_cwErr (s : State) (g : Nat) (x : AlGroup) : (s.setGroup g x).cwErr = s.cwErr := rfl
@[simp] theorem State.setGroup_spErr (s : State) (g : Nat) (x : AlGroup) : (s.setGroup g x).spErr = s.spErr := rfl
@[simp] theorem State.setGroup_tiles (s : State) (g : Nat) (x : AlGroup) : (s.setGroup g x).tiles = s.tiles := rfl
@[simp] theorem State.setGroup_tags (s : State) (g : Nat) (x : AlGroup) : (s.setGroup g x).tags = s.tags := rfl
@[simp] theorem State.setGroup_msgs (s : State) (g : Nat) (x : AlGroup) : (s.setGroup g x).msgs = s.msgs := rfl
@[simp] theorem State.setGroup_handles (s : State) (g : Nat) (x : AlGroup) : (s.setGroup g x).handles = s.handles := rfl
@[simp] theorem State.setGroup_flights (s : State) (g : Nat) (x : AlGroup) : (s.setGroup g x).flights = s.flights := rfl
@[simp] theorem State.setGroup_slCredits (s : State) (g : Nat) (x : AlGroup) : (s.setGroup g x).slCredits = s.slCredits := rfl
@[simp] theorem State.setGroup_linkCredits (s : State) (g : Nat) (x : AlGroup) : (s.setGroup g x).linkCredits = s.linkCredits := rfl
@[simp] theorem State.setGroup_blockReports (s : State) (g : Nat) (x : AlGroup) : (s.setGroup g x).blockReports = s.blockReports := rfl
@[simp] theorem State.setGroup_rings (s : State) (g : Nat) (x : AlGroup) : (s.setGroup g x).rings = s.rings := rfl
@[simp] theorem State.setGroup_colls (s : State) (g : Nat) (x : AlGroup) : (s.setGroup g x).colls = s.colls := rfl
@[simp] theorem State.setGroup_gsteps (s : State) (g : Nat) (x : AlGroup) : (s.setGroup g x).gsteps = s.gsteps := rfl
@[simp] theorem State.setGroup_rxSeq (s : State) (g : Nat) (x : AlGroup) : (s.setGroup g x).rxSeq = s.rxSeq := rfl
@[simp] theorem State.setGroup_exch (s : State) (g : Nat) (x : AlGroup) : (s.setGroup g x).exch = s.exch := rfl
@[simp] theorem State.setGroup_streams (s : State) (g : Nat) (x : AlGroup) : (s.setGroup g x).streams = s.streams := rfl
@[simp] theorem State.setGroup_samples (s : State) (g : Nat) (x : AlGroup) : (s.setGroup g x).samples = s.samples := rfl
@[simp] theorem State.setGroup_mdl (s : State) (g : Nat) (x : AlGroup) : (s.setGroup g x).mdl = s.mdl := rfl
@[simp] theorem State.setGroup_links (s : State) (g : Nat) (x : AlGroup) : (s.setGroup g x).links = s.links := rfl
@[simp] theorem State.setGroup_unitIn (s : State) (g : Nat) (x : AlGroup) : (s.setGroup g x).unitIn = s.unitIn := rfl
@[simp] theorem State.setGroup_cross (s : State) (g : Nat) (x : AlGroup) : (s.setGroup g x).cross = s.cross := rfl
@[simp] theorem State.setGroup_remaps (s : State) (g : Nat) (x : AlGroup) : (s.setGroup g x).remaps = s.remaps := rfl
@[simp] theorem State.setGroup_regOwed (s : State) (g : Nat) (x : AlGroup) : (s.setGroup g x).regOwed = s.regOwed := rfl
@[simp] theorem State.setGroup_lineUp (s : State) (g : Nat) (x : AlGroup) : (s.setGroup g x).lineUp = s.lineUp := rfl
@[simp] theorem State.setGroup_d2dKeep (s : State) (g : Nat) (x : AlGroup) : (s.setGroup g x).d2dKeep = s.d2dKeep := rfl
@[simp] theorem State.setGroup_fwHeld (s : State) (g : Nat) (x : AlGroup) : (s.setGroup g x).fwHeld = s.fwHeld := rfl
@[simp] theorem State.setGroup_positions (s : State) (g : Nat) (x : AlGroup) : (s.setGroup g x).positions = s.positions := rfl
@[simp] theorem State.setGroup_tap (s : State) (g : Nat) (x : AlGroup) : (s.setGroup g x).tap = s.tap := rfl
@[simp] theorem State.setGroup_parts (s : State) (g : Nat) (x : AlGroup) : (s.setGroup g x).parts = s.parts := rfl
@[simp] theorem State.setGroup_regWaits (s : State) (g : Nat) (x : AlGroup) : (s.setGroup g x).regWaits = s.regWaits := rfl
@[simp] theorem State.setGroup_reports (s : State) (g : Nat) (x : AlGroup) : (s.setGroup g x).reports = s.reports := rfl
@[simp] theorem State.setGroup_brokenLines (s : State) (g : Nat) (x : AlGroup) : (s.setGroup g x).brokenLines = s.brokenLines := rfl
@[simp] theorem State.setGroup_recs (s : State) (g : Nat) (x : AlGroup) : (s.setGroup g x).recs = s.recs := rfl
@[simp] theorem State.setGroup_recOrder (s : State) (g : Nat) (x : AlGroup) : (s.setGroup g x).recOrder = s.recOrder := rfl
@[simp] theorem State.setGroup_govs (s : State) (g : Nat) (x : AlGroup) : (s.setGroup g x).govs = s.govs := rfl
@[simp] theorem State.setGroup_reconciled (s : State) (g : Nat) (x : AlGroup) : (s.setGroup g x).reconciled = s.reconciled := rfl
@[simp] theorem State.setGroup_pins (s : State) (g : Nat) (x : AlGroup) : (s.setGroup g x).pins = s.pins := rfl
@[simp] theorem State.setGroup_ns (s : State) (g : Nat) (x : AlGroup) : (s.setGroup g x).ns = s.ns := rfl
@[simp] theorem State.setGroup_rot (s : State) (g : Nat) (x : AlGroup) : (s.setGroup g x).rot = s.rot := rfl
@[simp] theorem State.setGroup_emmc (s : State) (g : Nat) (x : AlGroup) : (s.setGroup g x).emmc = s.emmc := rfl
@[simp] theorem State.setGroup_mgmt (s : State) (g : Nat) (x : AlGroup) : (s.setGroup g x).mgmt = s.mgmt := rfl
@[simp] theorem State.setGroup_freeIdx (s : State) (g : Nat) (x : AlGroup) : (s.setGroup g x).freeIdx = s.freeIdx := rfl
@[simp] theorem State.setGroup_out (s : State) (g : Nat) (x : AlGroup) : (s.setGroup g x).out = s.out := rfl

/-! `State.setColl` writes `colls` and nothing else. -/

@[simp] theorem State.setColl_pending (s : State) (h : Nat) (x : Coll) : (s.setColl h x).pending = s.pending := rfl
@[simp] theorem State.setColl_variant (s : State) (h : Nat) (x : Coll) : (s.setColl h x).variant = s.variant := rfl
@[simp] theorem State.setColl_romKey (s : State) (h : Nat) (x : Coll) : (s.setColl h x).romKey = s.romKey := rfl
@[simp] theorem State.setColl_guestId (s : State) (h : Nat) (x : Coll) : (s.setColl h x).guestId = s.guestId := rfl
@[simp] theorem State.setColl_caps (s : State) (h : Nat) (x : Coll) : (s.setColl h x).caps = s.caps := rfl
@[simp] theorem State.setColl_regs (s : State) (h : Nat) (x : Coll) : (s.setColl h x).regs = s.regs := rfl
@[simp] theorem State.setColl_mem (s : State) (h : Nat) (x : Coll) : (s.setColl h x).mem = s.mem := rfl
@[simp] theorem State.setColl_cwKey (s : State) (h : Nat) (x : Coll) : (s.setColl h x).cwKey = s.cwKey := rfl
@[simp] theorem State.setColl_cwErr (s : State) (h : Nat) (x : Coll) : (s.setColl h x).cwErr = s.cwErr := rfl
@[simp] theorem State.setColl_spErr (s : State) (h : Nat) (x : Coll) : (s.setColl h x).spErr = s.spErr := rfl
@[simp] theorem State.setColl_tiles (s : State) (h : Nat) (x : Coll) : (s.setColl h x).tiles = s.tiles := rfl
@[simp] theorem State.setColl_tags (s : State) (h : Nat) (x : Coll) : (s.setColl h x).tags = s.tags := rfl
@[simp] theorem State.setColl_msgs (s : State) (h : Nat) (x : Coll) : (s.setColl h x).msgs = s.msgs := rfl
@[simp] theorem State.setColl_handles (s : State) (h : Nat) (x : Coll) : (s.setColl h x).handles = s.handles := rfl
@[simp] theorem State.setColl_flights (s : State) (h : Nat) (x : Coll) : (s.setColl h x).flights = s.flights := rfl
@[simp] theorem State.setColl_slCredits (s : State) (h : Nat) (x : Coll) : (s.setColl h x).slCredits = s.slCredits := rfl
@[simp] theorem State.setColl_linkCredits (s : State) (h : Nat) (x : Coll) : (s.setColl h x).linkCredits = s.linkCredits := rfl
@[simp] theorem State.setColl_groups (s : State) (h : Nat) (x : Coll) : (s.setColl h x).groups = s.groups := rfl
@[simp] theorem State.setColl_blockReports (s : State) (h : Nat) (x : Coll) : (s.setColl h x).blockReports = s.blockReports := rfl
@[simp] theorem State.setColl_rings (s : State) (h : Nat) (x : Coll) : (s.setColl h x).rings = s.rings := rfl
@[simp] theorem State.setColl_gsteps (s : State) (h : Nat) (x : Coll) : (s.setColl h x).gsteps = s.gsteps := rfl
@[simp] theorem State.setColl_rxSeq (s : State) (h : Nat) (x : Coll) : (s.setColl h x).rxSeq = s.rxSeq := rfl
@[simp] theorem State.setColl_exch (s : State) (h : Nat) (x : Coll) : (s.setColl h x).exch = s.exch := rfl
@[simp] theorem State.setColl_streams (s : State) (h : Nat) (x : Coll) : (s.setColl h x).streams = s.streams := rfl
@[simp] theorem State.setColl_samples (s : State) (h : Nat) (x : Coll) : (s.setColl h x).samples = s.samples := rfl
@[simp] theorem State.setColl_mdl (s : State) (h : Nat) (x : Coll) : (s.setColl h x).mdl = s.mdl := rfl
@[simp] theorem State.setColl_links (s : State) (h : Nat) (x : Coll) : (s.setColl h x).links = s.links := rfl
@[simp] theorem State.setColl_unitIn (s : State) (h : Nat) (x : Coll) : (s.setColl h x).unitIn = s.unitIn := rfl
@[simp] theorem State.setColl_cross (s : State) (h : Nat) (x : Coll) : (s.setColl h x).cross = s.cross := rfl
@[simp] theorem State.setColl_remaps (s : State) (h : Nat) (x : Coll) : (s.setColl h x).remaps = s.remaps := rfl
@[simp] theorem State.setColl_regOwed (s : State) (h : Nat) (x : Coll) : (s.setColl h x).regOwed = s.regOwed := rfl
@[simp] theorem State.setColl_lineUp (s : State) (h : Nat) (x : Coll) : (s.setColl h x).lineUp = s.lineUp := rfl
@[simp] theorem State.setColl_d2dKeep (s : State) (h : Nat) (x : Coll) : (s.setColl h x).d2dKeep = s.d2dKeep := rfl
@[simp] theorem State.setColl_fwHeld (s : State) (h : Nat) (x : Coll) : (s.setColl h x).fwHeld = s.fwHeld := rfl
@[simp] theorem State.setColl_positions (s : State) (h : Nat) (x : Coll) : (s.setColl h x).positions = s.positions := rfl
@[simp] theorem State.setColl_tap (s : State) (h : Nat) (x : Coll) : (s.setColl h x).tap = s.tap := rfl
@[simp] theorem State.setColl_parts (s : State) (h : Nat) (x : Coll) : (s.setColl h x).parts = s.parts := rfl
@[simp] theorem State.setColl_regWaits (s : State) (h : Nat) (x : Coll) : (s.setColl h x).regWaits = s.regWaits := rfl
@[simp] theorem State.setColl_reports (s : State) (h : Nat) (x : Coll) : (s.setColl h x).reports = s.reports := rfl
@[simp] theorem State.setColl_brokenLines (s : State) (h : Nat) (x : Coll) : (s.setColl h x).brokenLines = s.brokenLines := rfl
@[simp] theorem State.setColl_recs (s : State) (h : Nat) (x : Coll) : (s.setColl h x).recs = s.recs := rfl
@[simp] theorem State.setColl_recOrder (s : State) (h : Nat) (x : Coll) : (s.setColl h x).recOrder = s.recOrder := rfl
@[simp] theorem State.setColl_govs (s : State) (h : Nat) (x : Coll) : (s.setColl h x).govs = s.govs := rfl
@[simp] theorem State.setColl_reconciled (s : State) (h : Nat) (x : Coll) : (s.setColl h x).reconciled = s.reconciled := rfl
@[simp] theorem State.setColl_pins (s : State) (h : Nat) (x : Coll) : (s.setColl h x).pins = s.pins := rfl
@[simp] theorem State.setColl_ns (s : State) (h : Nat) (x : Coll) : (s.setColl h x).ns = s.ns := rfl
@[simp] theorem State.setColl_rot (s : State) (h : Nat) (x : Coll) : (s.setColl h x).rot = s.rot := rfl
@[simp] theorem State.setColl_emmc (s : State) (h : Nat) (x : Coll) : (s.setColl h x).emmc = s.emmc := rfl
@[simp] theorem State.setColl_mgmt (s : State) (h : Nat) (x : Coll) : (s.setColl h x).mgmt = s.mgmt := rfl
@[simp] theorem State.setColl_freeIdx (s : State) (h : Nat) (x : Coll) : (s.setColl h x).freeIdx = s.freeIdx := rfl
@[simp] theorem State.setColl_out (s : State) (h : Nat) (x : Coll) : (s.setColl h x).out = s.out := rfl

/-! `State.setEx` writes `exch` and nothing else. -/

@[simp] theorem State.setEx_pending (s : State) (h : Nat) (x : ExState) : (s.setEx h x).pending = s.pending := rfl
@[simp] theorem State.setEx_variant (s : State) (h : Nat) (x : ExState) : (s.setEx h x).variant = s.variant := rfl
@[simp] theorem State.setEx_romKey (s : State) (h : Nat) (x : ExState) : (s.setEx h x).romKey = s.romKey := rfl
@[simp] theorem State.setEx_guestId (s : State) (h : Nat) (x : ExState) : (s.setEx h x).guestId = s.guestId := rfl
@[simp] theorem State.setEx_caps (s : State) (h : Nat) (x : ExState) : (s.setEx h x).caps = s.caps := rfl
@[simp] theorem State.setEx_regs (s : State) (h : Nat) (x : ExState) : (s.setEx h x).regs = s.regs := rfl
@[simp] theorem State.setEx_mem (s : State) (h : Nat) (x : ExState) : (s.setEx h x).mem = s.mem := rfl
@[simp] theorem State.setEx_cwKey (s : State) (h : Nat) (x : ExState) : (s.setEx h x).cwKey = s.cwKey := rfl
@[simp] theorem State.setEx_cwErr (s : State) (h : Nat) (x : ExState) : (s.setEx h x).cwErr = s.cwErr := rfl
@[simp] theorem State.setEx_spErr (s : State) (h : Nat) (x : ExState) : (s.setEx h x).spErr = s.spErr := rfl
@[simp] theorem State.setEx_tiles (s : State) (h : Nat) (x : ExState) : (s.setEx h x).tiles = s.tiles := rfl
@[simp] theorem State.setEx_tags (s : State) (h : Nat) (x : ExState) : (s.setEx h x).tags = s.tags := rfl
@[simp] theorem State.setEx_msgs (s : State) (h : Nat) (x : ExState) : (s.setEx h x).msgs = s.msgs := rfl
@[simp] theorem State.setEx_handles (s : State) (h : Nat) (x : ExState) : (s.setEx h x).handles = s.handles := rfl
@[simp] theorem State.setEx_flights (s : State) (h : Nat) (x : ExState) : (s.setEx h x).flights = s.flights := rfl
@[simp] theorem State.setEx_slCredits (s : State) (h : Nat) (x : ExState) : (s.setEx h x).slCredits = s.slCredits := rfl
@[simp] theorem State.setEx_linkCredits (s : State) (h : Nat) (x : ExState) : (s.setEx h x).linkCredits = s.linkCredits := rfl
@[simp] theorem State.setEx_groups (s : State) (h : Nat) (x : ExState) : (s.setEx h x).groups = s.groups := rfl
@[simp] theorem State.setEx_blockReports (s : State) (h : Nat) (x : ExState) : (s.setEx h x).blockReports = s.blockReports := rfl
@[simp] theorem State.setEx_rings (s : State) (h : Nat) (x : ExState) : (s.setEx h x).rings = s.rings := rfl
@[simp] theorem State.setEx_colls (s : State) (h : Nat) (x : ExState) : (s.setEx h x).colls = s.colls := rfl
@[simp] theorem State.setEx_gsteps (s : State) (h : Nat) (x : ExState) : (s.setEx h x).gsteps = s.gsteps := rfl
@[simp] theorem State.setEx_rxSeq (s : State) (h : Nat) (x : ExState) : (s.setEx h x).rxSeq = s.rxSeq := rfl
@[simp] theorem State.setEx_streams (s : State) (h : Nat) (x : ExState) : (s.setEx h x).streams = s.streams := rfl
@[simp] theorem State.setEx_samples (s : State) (h : Nat) (x : ExState) : (s.setEx h x).samples = s.samples := rfl
@[simp] theorem State.setEx_mdl (s : State) (h : Nat) (x : ExState) : (s.setEx h x).mdl = s.mdl := rfl
@[simp] theorem State.setEx_links (s : State) (h : Nat) (x : ExState) : (s.setEx h x).links = s.links := rfl
@[simp] theorem State.setEx_unitIn (s : State) (h : Nat) (x : ExState) : (s.setEx h x).unitIn = s.unitIn := rfl
@[simp] theorem State.setEx_cross (s : State) (h : Nat) (x : ExState) : (s.setEx h x).cross = s.cross := rfl
@[simp] theorem State.setEx_remaps (s : State) (h : Nat) (x : ExState) : (s.setEx h x).remaps = s.remaps := rfl
@[simp] theorem State.setEx_regOwed (s : State) (h : Nat) (x : ExState) : (s.setEx h x).regOwed = s.regOwed := rfl
@[simp] theorem State.setEx_lineUp (s : State) (h : Nat) (x : ExState) : (s.setEx h x).lineUp = s.lineUp := rfl
@[simp] theorem State.setEx_d2dKeep (s : State) (h : Nat) (x : ExState) : (s.setEx h x).d2dKeep = s.d2dKeep := rfl
@[simp] theorem State.setEx_fwHeld (s : State) (h : Nat) (x : ExState) : (s.setEx h x).fwHeld = s.fwHeld := rfl
@[simp] theorem State.setEx_positions (s : State) (h : Nat) (x : ExState) : (s.setEx h x).positions = s.positions := rfl
@[simp] theorem State.setEx_tap (s : State) (h : Nat) (x : ExState) : (s.setEx h x).tap = s.tap := rfl
@[simp] theorem State.setEx_parts (s : State) (h : Nat) (x : ExState) : (s.setEx h x).parts = s.parts := rfl
@[simp] theorem State.setEx_regWaits (s : State) (h : Nat) (x : ExState) : (s.setEx h x).regWaits = s.regWaits := rfl
@[simp] theorem State.setEx_reports (s : State) (h : Nat) (x : ExState) : (s.setEx h x).reports = s.reports := rfl
@[simp] theorem State.setEx_brokenLines (s : State) (h : Nat) (x : ExState) : (s.setEx h x).brokenLines = s.brokenLines := rfl
@[simp] theorem State.setEx_recs (s : State) (h : Nat) (x : ExState) : (s.setEx h x).recs = s.recs := rfl
@[simp] theorem State.setEx_recOrder (s : State) (h : Nat) (x : ExState) : (s.setEx h x).recOrder = s.recOrder := rfl
@[simp] theorem State.setEx_govs (s : State) (h : Nat) (x : ExState) : (s.setEx h x).govs = s.govs := rfl
@[simp] theorem State.setEx_reconciled (s : State) (h : Nat) (x : ExState) : (s.setEx h x).reconciled = s.reconciled := rfl
@[simp] theorem State.setEx_pins (s : State) (h : Nat) (x : ExState) : (s.setEx h x).pins = s.pins := rfl
@[simp] theorem State.setEx_ns (s : State) (h : Nat) (x : ExState) : (s.setEx h x).ns = s.ns := rfl
@[simp] theorem State.setEx_rot (s : State) (h : Nat) (x : ExState) : (s.setEx h x).rot = s.rot := rfl
@[simp] theorem State.setEx_emmc (s : State) (h : Nat) (x : ExState) : (s.setEx h x).emmc = s.emmc := rfl
@[simp] theorem State.setEx_mgmt (s : State) (h : Nat) (x : ExState) : (s.setEx h x).mgmt = s.mgmt := rfl
@[simp] theorem State.setEx_freeIdx (s : State) (h : Nat) (x : ExState) : (s.setEx h x).freeIdx = s.freeIdx := rfl
@[simp] theorem State.setEx_out (s : State) (h : Nat) (x : ExState) : (s.setEx h x).out = s.out := rfl

/-! `State.setLink` writes `links` and nothing else. -/

@[simp] theorem State.setLink_pending (s : State) (l : Nat) (x : Link) : (s.setLink l x).pending = s.pending := rfl
@[simp] theorem State.setLink_variant (s : State) (l : Nat) (x : Link) : (s.setLink l x).variant = s.variant := rfl
@[simp] theorem State.setLink_romKey (s : State) (l : Nat) (x : Link) : (s.setLink l x).romKey = s.romKey := rfl
@[simp] theorem State.setLink_guestId (s : State) (l : Nat) (x : Link) : (s.setLink l x).guestId = s.guestId := rfl
@[simp] theorem State.setLink_caps (s : State) (l : Nat) (x : Link) : (s.setLink l x).caps = s.caps := rfl
@[simp] theorem State.setLink_regs (s : State) (l : Nat) (x : Link) : (s.setLink l x).regs = s.regs := rfl
@[simp] theorem State.setLink_mem (s : State) (l : Nat) (x : Link) : (s.setLink l x).mem = s.mem := rfl
@[simp] theorem State.setLink_cwKey (s : State) (l : Nat) (x : Link) : (s.setLink l x).cwKey = s.cwKey := rfl
@[simp] theorem State.setLink_cwErr (s : State) (l : Nat) (x : Link) : (s.setLink l x).cwErr = s.cwErr := rfl
@[simp] theorem State.setLink_spErr (s : State) (l : Nat) (x : Link) : (s.setLink l x).spErr = s.spErr := rfl
@[simp] theorem State.setLink_tiles (s : State) (l : Nat) (x : Link) : (s.setLink l x).tiles = s.tiles := rfl
@[simp] theorem State.setLink_tags (s : State) (l : Nat) (x : Link) : (s.setLink l x).tags = s.tags := rfl
@[simp] theorem State.setLink_msgs (s : State) (l : Nat) (x : Link) : (s.setLink l x).msgs = s.msgs := rfl
@[simp] theorem State.setLink_handles (s : State) (l : Nat) (x : Link) : (s.setLink l x).handles = s.handles := rfl
@[simp] theorem State.setLink_flights (s : State) (l : Nat) (x : Link) : (s.setLink l x).flights = s.flights := rfl
@[simp] theorem State.setLink_slCredits (s : State) (l : Nat) (x : Link) : (s.setLink l x).slCredits = s.slCredits := rfl
@[simp] theorem State.setLink_linkCredits (s : State) (l : Nat) (x : Link) : (s.setLink l x).linkCredits = s.linkCredits := rfl
@[simp] theorem State.setLink_groups (s : State) (l : Nat) (x : Link) : (s.setLink l x).groups = s.groups := rfl
@[simp] theorem State.setLink_blockReports (s : State) (l : Nat) (x : Link) : (s.setLink l x).blockReports = s.blockReports := rfl
@[simp] theorem State.setLink_rings (s : State) (l : Nat) (x : Link) : (s.setLink l x).rings = s.rings := rfl
@[simp] theorem State.setLink_colls (s : State) (l : Nat) (x : Link) : (s.setLink l x).colls = s.colls := rfl
@[simp] theorem State.setLink_gsteps (s : State) (l : Nat) (x : Link) : (s.setLink l x).gsteps = s.gsteps := rfl
@[simp] theorem State.setLink_rxSeq (s : State) (l : Nat) (x : Link) : (s.setLink l x).rxSeq = s.rxSeq := rfl
@[simp] theorem State.setLink_exch (s : State) (l : Nat) (x : Link) : (s.setLink l x).exch = s.exch := rfl
@[simp] theorem State.setLink_streams (s : State) (l : Nat) (x : Link) : (s.setLink l x).streams = s.streams := rfl
@[simp] theorem State.setLink_samples (s : State) (l : Nat) (x : Link) : (s.setLink l x).samples = s.samples := rfl
@[simp] theorem State.setLink_mdl (s : State) (l : Nat) (x : Link) : (s.setLink l x).mdl = s.mdl := rfl
@[simp] theorem State.setLink_unitIn (s : State) (l : Nat) (x : Link) : (s.setLink l x).unitIn = s.unitIn := rfl
@[simp] theorem State.setLink_cross (s : State) (l : Nat) (x : Link) : (s.setLink l x).cross = s.cross := rfl
@[simp] theorem State.setLink_remaps (s : State) (l : Nat) (x : Link) : (s.setLink l x).remaps = s.remaps := rfl
@[simp] theorem State.setLink_regOwed (s : State) (l : Nat) (x : Link) : (s.setLink l x).regOwed = s.regOwed := rfl
@[simp] theorem State.setLink_lineUp (s : State) (l : Nat) (x : Link) : (s.setLink l x).lineUp = s.lineUp := rfl
@[simp] theorem State.setLink_d2dKeep (s : State) (l : Nat) (x : Link) : (s.setLink l x).d2dKeep = s.d2dKeep := rfl
@[simp] theorem State.setLink_fwHeld (s : State) (l : Nat) (x : Link) : (s.setLink l x).fwHeld = s.fwHeld := rfl
@[simp] theorem State.setLink_positions (s : State) (l : Nat) (x : Link) : (s.setLink l x).positions = s.positions := rfl
@[simp] theorem State.setLink_tap (s : State) (l : Nat) (x : Link) : (s.setLink l x).tap = s.tap := rfl
@[simp] theorem State.setLink_parts (s : State) (l : Nat) (x : Link) : (s.setLink l x).parts = s.parts := rfl
@[simp] theorem State.setLink_regWaits (s : State) (l : Nat) (x : Link) : (s.setLink l x).regWaits = s.regWaits := rfl
@[simp] theorem State.setLink_reports (s : State) (l : Nat) (x : Link) : (s.setLink l x).reports = s.reports := rfl
@[simp] theorem State.setLink_brokenLines (s : State) (l : Nat) (x : Link) : (s.setLink l x).brokenLines = s.brokenLines := rfl
@[simp] theorem State.setLink_recs (s : State) (l : Nat) (x : Link) : (s.setLink l x).recs = s.recs := rfl
@[simp] theorem State.setLink_recOrder (s : State) (l : Nat) (x : Link) : (s.setLink l x).recOrder = s.recOrder := rfl
@[simp] theorem State.setLink_govs (s : State) (l : Nat) (x : Link) : (s.setLink l x).govs = s.govs := rfl
@[simp] theorem State.setLink_reconciled (s : State) (l : Nat) (x : Link) : (s.setLink l x).reconciled = s.reconciled := rfl
@[simp] theorem State.setLink_pins (s : State) (l : Nat) (x : Link) : (s.setLink l x).pins = s.pins := rfl
@[simp] theorem State.setLink_ns (s : State) (l : Nat) (x : Link) : (s.setLink l x).ns = s.ns := rfl
@[simp] theorem State.setLink_rot (s : State) (l : Nat) (x : Link) : (s.setLink l x).rot = s.rot := rfl
@[simp] theorem State.setLink_emmc (s : State) (l : Nat) (x : Link) : (s.setLink l x).emmc = s.emmc := rfl
@[simp] theorem State.setLink_mgmt (s : State) (l : Nat) (x : Link) : (s.setLink l x).mgmt = s.mgmt := rfl
@[simp] theorem State.setLink_freeIdx (s : State) (l : Nat) (x : Link) : (s.setLink l x).freeIdx = s.freeIdx := rfl
@[simp] theorem State.setLink_out (s : State) (l : Nat) (x : Link) : (s.setLink l x).out = s.out := rfl

/-! `State.setStrm` writes `streams` and nothing else. -/

@[simp] theorem State.setStrm_pending (s : State) (n : Nat) (x : Stream) : (s.setStrm n x).pending = s.pending := rfl
@[simp] theorem State.setStrm_variant (s : State) (n : Nat) (x : Stream) : (s.setStrm n x).variant = s.variant := rfl
@[simp] theorem State.setStrm_romKey (s : State) (n : Nat) (x : Stream) : (s.setStrm n x).romKey = s.romKey := rfl
@[simp] theorem State.setStrm_guestId (s : State) (n : Nat) (x : Stream) : (s.setStrm n x).guestId = s.guestId := rfl
@[simp] theorem State.setStrm_caps (s : State) (n : Nat) (x : Stream) : (s.setStrm n x).caps = s.caps := rfl
@[simp] theorem State.setStrm_regs (s : State) (n : Nat) (x : Stream) : (s.setStrm n x).regs = s.regs := rfl
@[simp] theorem State.setStrm_mem (s : State) (n : Nat) (x : Stream) : (s.setStrm n x).mem = s.mem := rfl
@[simp] theorem State.setStrm_cwKey (s : State) (n : Nat) (x : Stream) : (s.setStrm n x).cwKey = s.cwKey := rfl
@[simp] theorem State.setStrm_cwErr (s : State) (n : Nat) (x : Stream) : (s.setStrm n x).cwErr = s.cwErr := rfl
@[simp] theorem State.setStrm_spErr (s : State) (n : Nat) (x : Stream) : (s.setStrm n x).spErr = s.spErr := rfl
@[simp] theorem State.setStrm_tiles (s : State) (n : Nat) (x : Stream) : (s.setStrm n x).tiles = s.tiles := rfl
@[simp] theorem State.setStrm_tags (s : State) (n : Nat) (x : Stream) : (s.setStrm n x).tags = s.tags := rfl
@[simp] theorem State.setStrm_msgs (s : State) (n : Nat) (x : Stream) : (s.setStrm n x).msgs = s.msgs := rfl
@[simp] theorem State.setStrm_handles (s : State) (n : Nat) (x : Stream) : (s.setStrm n x).handles = s.handles := rfl
@[simp] theorem State.setStrm_flights (s : State) (n : Nat) (x : Stream) : (s.setStrm n x).flights = s.flights := rfl
@[simp] theorem State.setStrm_slCredits (s : State) (n : Nat) (x : Stream) : (s.setStrm n x).slCredits = s.slCredits := rfl
@[simp] theorem State.setStrm_linkCredits (s : State) (n : Nat) (x : Stream) : (s.setStrm n x).linkCredits = s.linkCredits := rfl
@[simp] theorem State.setStrm_groups (s : State) (n : Nat) (x : Stream) : (s.setStrm n x).groups = s.groups := rfl
@[simp] theorem State.setStrm_blockReports (s : State) (n : Nat) (x : Stream) : (s.setStrm n x).blockReports = s.blockReports := rfl
@[simp] theorem State.setStrm_rings (s : State) (n : Nat) (x : Stream) : (s.setStrm n x).rings = s.rings := rfl
@[simp] theorem State.setStrm_colls (s : State) (n : Nat) (x : Stream) : (s.setStrm n x).colls = s.colls := rfl
@[simp] theorem State.setStrm_gsteps (s : State) (n : Nat) (x : Stream) : (s.setStrm n x).gsteps = s.gsteps := rfl
@[simp] theorem State.setStrm_rxSeq (s : State) (n : Nat) (x : Stream) : (s.setStrm n x).rxSeq = s.rxSeq := rfl
@[simp] theorem State.setStrm_exch (s : State) (n : Nat) (x : Stream) : (s.setStrm n x).exch = s.exch := rfl
@[simp] theorem State.setStrm_samples (s : State) (n : Nat) (x : Stream) : (s.setStrm n x).samples = s.samples := rfl
@[simp] theorem State.setStrm_mdl (s : State) (n : Nat) (x : Stream) : (s.setStrm n x).mdl = s.mdl := rfl
@[simp] theorem State.setStrm_links (s : State) (n : Nat) (x : Stream) : (s.setStrm n x).links = s.links := rfl
@[simp] theorem State.setStrm_unitIn (s : State) (n : Nat) (x : Stream) : (s.setStrm n x).unitIn = s.unitIn := rfl
@[simp] theorem State.setStrm_cross (s : State) (n : Nat) (x : Stream) : (s.setStrm n x).cross = s.cross := rfl
@[simp] theorem State.setStrm_remaps (s : State) (n : Nat) (x : Stream) : (s.setStrm n x).remaps = s.remaps := rfl
@[simp] theorem State.setStrm_regOwed (s : State) (n : Nat) (x : Stream) : (s.setStrm n x).regOwed = s.regOwed := rfl
@[simp] theorem State.setStrm_lineUp (s : State) (n : Nat) (x : Stream) : (s.setStrm n x).lineUp = s.lineUp := rfl
@[simp] theorem State.setStrm_d2dKeep (s : State) (n : Nat) (x : Stream) : (s.setStrm n x).d2dKeep = s.d2dKeep := rfl
@[simp] theorem State.setStrm_fwHeld (s : State) (n : Nat) (x : Stream) : (s.setStrm n x).fwHeld = s.fwHeld := rfl
@[simp] theorem State.setStrm_positions (s : State) (n : Nat) (x : Stream) : (s.setStrm n x).positions = s.positions := rfl
@[simp] theorem State.setStrm_tap (s : State) (n : Nat) (x : Stream) : (s.setStrm n x).tap = s.tap := rfl
@[simp] theorem State.setStrm_parts (s : State) (n : Nat) (x : Stream) : (s.setStrm n x).parts = s.parts := rfl
@[simp] theorem State.setStrm_regWaits (s : State) (n : Nat) (x : Stream) : (s.setStrm n x).regWaits = s.regWaits := rfl
@[simp] theorem State.setStrm_reports (s : State) (n : Nat) (x : Stream) : (s.setStrm n x).reports = s.reports := rfl
@[simp] theorem State.setStrm_brokenLines (s : State) (n : Nat) (x : Stream) : (s.setStrm n x).brokenLines = s.brokenLines := rfl
@[simp] theorem State.setStrm_recs (s : State) (n : Nat) (x : Stream) : (s.setStrm n x).recs = s.recs := rfl
@[simp] theorem State.setStrm_recOrder (s : State) (n : Nat) (x : Stream) : (s.setStrm n x).recOrder = s.recOrder := rfl
@[simp] theorem State.setStrm_govs (s : State) (n : Nat) (x : Stream) : (s.setStrm n x).govs = s.govs := rfl
@[simp] theorem State.setStrm_reconciled (s : State) (n : Nat) (x : Stream) : (s.setStrm n x).reconciled = s.reconciled := rfl
@[simp] theorem State.setStrm_pins (s : State) (n : Nat) (x : Stream) : (s.setStrm n x).pins = s.pins := rfl
@[simp] theorem State.setStrm_ns (s : State) (n : Nat) (x : Stream) : (s.setStrm n x).ns = s.ns := rfl
@[simp] theorem State.setStrm_rot (s : State) (n : Nat) (x : Stream) : (s.setStrm n x).rot = s.rot := rfl
@[simp] theorem State.setStrm_emmc (s : State) (n : Nat) (x : Stream) : (s.setStrm n x).emmc = s.emmc := rfl
@[simp] theorem State.setStrm_mgmt (s : State) (n : Nat) (x : Stream) : (s.setStrm n x).mgmt = s.mgmt := rfl
@[simp] theorem State.setStrm_freeIdx (s : State) (n : Nat) (x : Stream) : (s.setStrm n x).freeIdx = s.freeIdx := rfl
@[simp] theorem State.setStrm_out (s : State) (n : Nat) (x : Stream) : (s.setStrm n x).out = s.out := rfl

/-! `State.emit` writes `out` and nothing else. -/

@[simp] theorem State.emit_pending (s : State) (o : Out) : (s.emit o).pending = s.pending := rfl
@[simp] theorem State.emit_variant (s : State) (o : Out) : (s.emit o).variant = s.variant := rfl
@[simp] theorem State.emit_romKey (s : State) (o : Out) : (s.emit o).romKey = s.romKey := rfl
@[simp] theorem State.emit_guestId (s : State) (o : Out) : (s.emit o).guestId = s.guestId := rfl
@[simp] theorem State.emit_caps (s : State) (o : Out) : (s.emit o).caps = s.caps := rfl
@[simp] theorem State.emit_regs (s : State) (o : Out) : (s.emit o).regs = s.regs := rfl
@[simp] theorem State.emit_mem (s : State) (o : Out) : (s.emit o).mem = s.mem := rfl
@[simp] theorem State.emit_cwKey (s : State) (o : Out) : (s.emit o).cwKey = s.cwKey := rfl
@[simp] theorem State.emit_cwErr (s : State) (o : Out) : (s.emit o).cwErr = s.cwErr := rfl
@[simp] theorem State.emit_spErr (s : State) (o : Out) : (s.emit o).spErr = s.spErr := rfl
@[simp] theorem State.emit_tiles (s : State) (o : Out) : (s.emit o).tiles = s.tiles := rfl
@[simp] theorem State.emit_tags (s : State) (o : Out) : (s.emit o).tags = s.tags := rfl
@[simp] theorem State.emit_msgs (s : State) (o : Out) : (s.emit o).msgs = s.msgs := rfl
@[simp] theorem State.emit_handles (s : State) (o : Out) : (s.emit o).handles = s.handles := rfl
@[simp] theorem State.emit_flights (s : State) (o : Out) : (s.emit o).flights = s.flights := rfl
@[simp] theorem State.emit_slCredits (s : State) (o : Out) : (s.emit o).slCredits = s.slCredits := rfl
@[simp] theorem State.emit_linkCredits (s : State) (o : Out) : (s.emit o).linkCredits = s.linkCredits := rfl
@[simp] theorem State.emit_groups (s : State) (o : Out) : (s.emit o).groups = s.groups := rfl
@[simp] theorem State.emit_blockReports (s : State) (o : Out) : (s.emit o).blockReports = s.blockReports := rfl
@[simp] theorem State.emit_rings (s : State) (o : Out) : (s.emit o).rings = s.rings := rfl
@[simp] theorem State.emit_colls (s : State) (o : Out) : (s.emit o).colls = s.colls := rfl
@[simp] theorem State.emit_gsteps (s : State) (o : Out) : (s.emit o).gsteps = s.gsteps := rfl
@[simp] theorem State.emit_rxSeq (s : State) (o : Out) : (s.emit o).rxSeq = s.rxSeq := rfl
@[simp] theorem State.emit_exch (s : State) (o : Out) : (s.emit o).exch = s.exch := rfl
@[simp] theorem State.emit_streams (s : State) (o : Out) : (s.emit o).streams = s.streams := rfl
@[simp] theorem State.emit_samples (s : State) (o : Out) : (s.emit o).samples = s.samples := rfl
@[simp] theorem State.emit_mdl (s : State) (o : Out) : (s.emit o).mdl = s.mdl := rfl
@[simp] theorem State.emit_links (s : State) (o : Out) : (s.emit o).links = s.links := rfl
@[simp] theorem State.emit_unitIn (s : State) (o : Out) : (s.emit o).unitIn = s.unitIn := rfl
@[simp] theorem State.emit_cross (s : State) (o : Out) : (s.emit o).cross = s.cross := rfl
@[simp] theorem State.emit_remaps (s : State) (o : Out) : (s.emit o).remaps = s.remaps := rfl
@[simp] theorem State.emit_regOwed (s : State) (o : Out) : (s.emit o).regOwed = s.regOwed := rfl
@[simp] theorem State.emit_lineUp (s : State) (o : Out) : (s.emit o).lineUp = s.lineUp := rfl
@[simp] theorem State.emit_d2dKeep (s : State) (o : Out) : (s.emit o).d2dKeep = s.d2dKeep := rfl
@[simp] theorem State.emit_fwHeld (s : State) (o : Out) : (s.emit o).fwHeld = s.fwHeld := rfl
@[simp] theorem State.emit_positions (s : State) (o : Out) : (s.emit o).positions = s.positions := rfl
@[simp] theorem State.emit_tap (s : State) (o : Out) : (s.emit o).tap = s.tap := rfl
@[simp] theorem State.emit_parts (s : State) (o : Out) : (s.emit o).parts = s.parts := rfl
@[simp] theorem State.emit_regWaits (s : State) (o : Out) : (s.emit o).regWaits = s.regWaits := rfl
@[simp] theorem State.emit_reports (s : State) (o : Out) : (s.emit o).reports = s.reports := rfl
@[simp] theorem State.emit_brokenLines (s : State) (o : Out) : (s.emit o).brokenLines = s.brokenLines := rfl
@[simp] theorem State.emit_recs (s : State) (o : Out) : (s.emit o).recs = s.recs := rfl
@[simp] theorem State.emit_recOrder (s : State) (o : Out) : (s.emit o).recOrder = s.recOrder := rfl
@[simp] theorem State.emit_govs (s : State) (o : Out) : (s.emit o).govs = s.govs := rfl
@[simp] theorem State.emit_reconciled (s : State) (o : Out) : (s.emit o).reconciled = s.reconciled := rfl
@[simp] theorem State.emit_pins (s : State) (o : Out) : (s.emit o).pins = s.pins := rfl
@[simp] theorem State.emit_ns (s : State) (o : Out) : (s.emit o).ns = s.ns := rfl
@[simp] theorem State.emit_rot (s : State) (o : Out) : (s.emit o).rot = s.rot := rfl
@[simp] theorem State.emit_emmc (s : State) (o : Out) : (s.emit o).emmc = s.emmc := rfl
@[simp] theorem State.emit_mgmt (s : State) (o : Out) : (s.emit o).mgmt = s.mgmt := rfl
@[simp] theorem State.emit_freeIdx (s : State) (o : Out) : (s.emit o).freeIdx = s.freeIdx := rfl

/-! What was written is read back, and a write elsewhere leaves it. -/

@[simp] theorem State.tile_setTile_same (s : State) (k : Nat) (x : Tile) : (s.setTile k x).tile k = x := Tab.val_put_same _ _ _ _
theorem State.tile_setTile_other (s : State) (k j : Nat) (x : Tile) (h : j ≠ k) : (s.setTile k x).tile j = s.tile j :=
  Tab.val_put_other _ _ _ _ _ h
@[simp] theorem State.part_setPart_same (s : State) (k : Nat) (x : Part) : (s.setPart k x).part k = x := Tab.val_put_same _ _ _ _
theorem State.part_setPart_other (s : State) (k j : Nat) (x : Part) (h : j ≠ k) : (s.setPart k x).part j = s.part j :=
  Tab.val_put_other _ _ _ _ _ h
@[simp] theorem State.slEnd_setSlEnd_same (s : State) (k : Nat) (x : SlEnd) : (s.setSlEnd k x).slEnd k = x := Tab.val_put_same _ _ _ _
theorem State.slEnd_setSlEnd_other (s : State) (k j : Nat) (x : SlEnd) (h : j ≠ k) : (s.setSlEnd k x).slEnd j = s.slEnd j :=
  Tab.val_put_other _ _ _ _ _ h
@[simp] theorem State.group_setGroup_same (s : State) (k : Nat) (x : AlGroup) : (s.setGroup k x).group k = x := Tab.val_put_same _ _ _ _
theorem State.group_setGroup_other (s : State) (k j : Nat) (x : AlGroup) (h : j ≠ k) : (s.setGroup k x).group j = s.group j :=
  Tab.val_put_other _ _ _ _ _ h
@[simp] theorem State.coll_setColl_same (s : State) (k : Nat) (x : Coll) : (s.setColl k x).coll k = x := Tab.val_put_same _ _ _ _
theorem State.coll_setColl_other (s : State) (k j : Nat) (x : Coll) (h : j ≠ k) : (s.setColl k x).coll j = s.coll j :=
  Tab.val_put_other _ _ _ _ _ h
@[simp] theorem State.exState_setEx_same (s : State) (k : Nat) (x : ExState) : (s.setEx k x).exState k = x := Tab.val_put_same _ _ _ _
theorem State.exState_setEx_other (s : State) (k j : Nat) (x : ExState) (h : j ≠ k) : (s.setEx k x).exState j = s.exState j :=
  Tab.val_put_other _ _ _ _ _ h
@[simp] theorem State.link_setLink_same (s : State) (k : Nat) (x : Link) : (s.setLink k x).link k = x := Tab.val_put_same _ _ _ _
theorem State.link_setLink_other (s : State) (k j : Nat) (x : Link) (h : j ≠ k) : (s.setLink k x).link j = s.link j :=
  Tab.val_put_other _ _ _ _ _ h
@[simp] theorem State.strm_setStrm_same (s : State) (k : Nat) (x : Stream) : (s.setStrm k x).strm k = x := Tab.val_put_same _ _ _ _
theorem State.strm_setStrm_other (s : State) (k j : Nat) (x : Stream) (h : j ≠ k) : (s.setStrm k x).strm j = s.strm j :=
  Tab.val_put_other _ _ _ _ _ h
@[simp] theorem State.rg_setRg_same (s : State) (d o : Nat) (v : Word) : (s.setRg d o v).rg d o = v := Tab.val_put_same _ _ _ _
theorem State.rg_setRg_other (s : State) (d o e p : Nat) (v : Word) (h : ctlAddr e p ≠ ctlAddr d o) :
    (s.setRg d o v).rg e p = s.rg e p := Tab.val_put_other _ _ _ _ _ h

end Sys2Proof.Machine
end

