-- ==== Sys2Proof/Laws/Run.lean ====
section
/-! SUPPORT. What an instruction of a tile that may run does, said once for every instruction. -/
namespace Sys2Proof.Machine

theorem State.tile_setTile (s : State) (t : Nat) (x : Tile) : (s.setTile t x).tile t = x := by
  simp [State.tile, State.setTile, Tab.val_put_same]
theorem State.setTile_setTile (s : State) (t : Nat) (x y : Tile) : (s.setTile t x).setTile t y = s.setTile t y := by
  simp [State.setTile, Tab.put_put]

theorem Ctx.setReg_pc (c : Ctx) (r : Reg) (v : Word) : (c.setReg r v).pc = c.pc := by unfold Ctx.setReg; split <;> rfl
theorem Ctx.setReg_wait (c : Ctx) (r : Reg) (v : Word) : (c.setReg r v).wait = c.wait := by unfold Ctx.setReg; split <;> rfl

/-- Everything an instruction of a tile that may run it can do, by the answer of its effect. -/
theorem State.run_ready {s : State} {t len : Nat} {i : Instr} {f : State → TRes} (h : s.ready t len = true) :
    s.run t len i f = (match f s with
    | .done s' => .next (s'.retire t ((s.tile t).ctx.pc + BitVec.ofNat 48 len))
    | .goto s' pc => .next (s'.retire t pc)
    | .trap c v => .next (s.takeTrap t len c v)
    | .gone s' => .next s'
    | .wait s' ph =>
      let ph := if ph == 6 || (s.tile t).saved.isSome then s'.basePhase t else ph
      let y := s'.tile t
      let s' := s'.setTile t { y with ctx := { y.ctx with wait := some i } }
      .next (if (s'.tile t).transit.phase == ph then s' else s'.setPhase t ph)) := by
  simp only [State.ready, Bool.and_eq_true, Bool.not_eq_true'] at h
  obtain ⟨⟨⟨h1, h2⟩, h3⟩, h4⟩ := h
  cases hw : (s.tile t).ctx.wait with
  | some i => simp [hw] at h3
  | none => simp [State.run, h1, h2, hw, h4] <;> cases f s <;> rfl

/-- Retiring an instruction that has not waited moves the pc alone. -/
theorem State.retire_past {s : State} {t : Nat} {pc} (h : (s.tile t).ctx.wait = none) : s.retire t pc = s.atPc t pc := by
  simp [State.retire, h, State.atPc]

/-- A tile that may run its next instruction waits in none. -/
theorem State.ready_wait {s : State} {t len : Nat} (h : s.ready t len = true) : (s.tile t).ctx.wait = none := by
  simp only [State.ready, Bool.and_eq_true] at h
  simpa using h.1.2

/-- An instruction that answers with a register completes with it, and changes nothing else. -/
theorem State.run_doneG {s : State} {t len : Nat} {i : Instr} {r : Reg} {v : Word} {f : State → TRes} (h : s.ready t len = true)
   (e : f s = doneG s t r v) : s.run t len i f = .next (s.result t len r v) := by
  rw [State.run_ready h, e]
  simp only [doneG]
  rw [State.retire_past (by simp [State.setG, Ctx.setReg_wait, State.ready_wait h])]
  simp [State.atPc, State.setG, State.setTile_setTile, State.result]

theorem Ctx.cs_setCs_same (c : Ctx) (n : Nat) (v : Word) : (c.setCs n v).cs n = v := by
  simp [Ctx.cs, Ctx.setCs, Tab.val_put_same]
theorem Ctx.cs_setCs_other (c : Ctx) (n m : Nat) (v : Word) (h : m ≠ n) : (c.setCs n v).cs m = c.cs m := by
  simp [Ctx.cs, Ctx.setCs, Tab.val_put_other _ _ _ _ _ h]

/-- Changing one tile changes nothing else. -/
theorem State.sameElse_setTile (s : State) (t : Nat) (x : Tile) : s.sameElse (s.setTile t x) t :=
  ⟨rfl, fun _ h => State.tile_setTile_other s t _ x h⟩

/-- A trap with a handler to enter enters it, and that is all it does (R121). -/
theorem State.takeTrap_entered {s : State} {t len : Nat} {c : Cause} {v : Word} (h : s.hasHandler t = true) :
    s.entered (s.takeTrap t len c v) t len (causeCode c) v := by
  simp only [State.hasHandler, Bool.and_eq_true, Bool.not_eq_true', bne_iff_ne, ne_eq] at h
  unfold State.takeTrap
  rw [if_neg (by simp [h.1, -BitVec.ofNat_eq_ofNat]; exact h.2)]
  refine ⟨?_, ?_, ?_, ?_, ?_, ?_, ?_, ?_, State.sameElse_setTile _ _ _⟩ <;> simp only [State.g, State.tile_setTile_same]
  · show (((((s.tile t).ctx.setCs 0x11 _).setCs 0x12 _).setCs 0x13 _).setCs 0x14 _).cs 0x11 = _
    simp [Ctx.cs_setCs_other, Ctx.cs_setCs_same]
  · show (((((s.tile t).ctx.setCs 0x11 _).setCs 0x12 _).setCs 0x13 _).setCs 0x14 _).cs 0x12 = _
    simp [Ctx.cs_setCs_other, Ctx.cs_setCs_same]
  · show (((((s.tile t).ctx.setCs 0x11 _).setCs 0x12 _).setCs 0x13 _).setCs 0x14 _).cs 0x13 = _
    simp [Ctx.cs_setCs_other, Ctx.cs_setCs_same]
  · show (((((s.tile t).ctx.setCs 0x11 _).setCs 0x12 _).setCs 0x13 _).setCs 0x14 _).cs 0x14 = _
    simp [Ctx.cs_setCs_same]
  · intro n hn
    show (((((s.tile t).ctx.setCs 0x11 _).setCs 0x12 _).setCs 0x13 _).setCs 0x14 _).cs n = _
    repeat rw [Ctx.cs_setCs_other _ _ _ _ (by omega)]
  · intro q; rfl

/-- An instruction of a ready tile whose effect traps takes the trap. -/
theorem State.run_trap {s : State} {t len : Nat} {i : Instr} {c : Cause} {v : Word} {f : State → TRes}
    (h : s.ready t len = true) (e : f s = .trap c v) : s.run t len i f = .next (s.takeTrap t len c v) := by
  rw [State.run_ready h, e]

/-- An instruction of a ready tile that is done moves the pc past it. -/
theorem State.run_done {s s' : State} {t len : Nat} {i : Instr} {f : State → TRes} (h : s.ready t len = true)
    (e : f s = .done s') (w : (s'.tile t).ctx.wait = none) :
    s.run t len i f = .next (s'.atPc t ((s.tile t).ctx.pc + BitVec.ofNat 48 len)) := by
  rw [State.run_ready h, e]
  exact congrArg _ (State.retire_past w)

/-- A jump of a ready tile. -/
theorem State.run_goto {s s' : State} {t len : Nat} {i : Instr} {pc : BitVec 48} {f : State → TRes}
    (h : s.ready t len = true) (e : f s = .goto s' pc) (w : (s'.tile t).ctx.wait = none) :
    s.run t len i f = .next (s'.atPc t pc) := by
  rw [State.run_ready h, e]
  exact congrArg _ (State.retire_past w)

end Sys2Proof.Machine
end

