-- ==== Sys2Proof/Machine/ReadRegs.lean ====
section
/-! DEFINITION. What control software reads at each address of control space (R5, R147, R383): the stored word, or the view
that a unit forms of its state. The command table has no row for a read, which changes nothing. -/
namespace Sys2Proof.Machine

/-- A Hob's registers that show a unit's state. -/
def State.readHob (s : State) (d off : Nat) : Word :=
  if 0x100000 ≤ off && off < 0x108000 && off % 0x40 == 0x18 then s.slState (d * 512 + (off - 0x100000) / 0x40)
  else if 0x400000 ≤ off && off < 0x400C00 && off % 0x20 == 0x10 then s.filIdx (d * 96 + (off - 0x400000) / 0x20)
  else if 0x600000 ≤ off && off < 0x6000C0 && off % 0x40 == 8 then s.msaStatus (3 * d + (off - 0x600000) / 0x40)
  else if 0x900000 ≤ off && off < 0x903000 && off % 0x1000 == 0x20 then s.memPend (3 * d + (off - 0x900000) / 0x1000)
  else if 0x900000 ≤ off && off < 0x903000 && off % 0x1000 == 0x10 then 0
  else s.rg d off

/-- Registers of either Meridian that show a unit's state; those of an absent link read zero (R325). -/
def State.readMer (s : State) (d off : Nat) : Word :=
  if 0x700000 ≤ off && off < 0x704000 && off % 0x100 == 0x18 then s.exStateReg ((d - dieMerA) * 64 + (off - 0x700000) / 0x100)
  else if 0xC00000 ≤ off && off < 0xC0C000 then
    let l := (d - dieMerA) * 12 + (off - 0xC00000) / 0x1000
    if !s.linkPresent l then 0 else if off % 0x1000 == 0x10 then s.lkStatus l else s.rg d off
  else s.rg d off

/-- Meridian-A's registers that show a unit's state. -/
def State.readMerA (s : State) (off : Nat) : Word :=
  if 0x200000 ≤ off && off < 0x220000 && off % 0x80 == 8 then s.alGstate ((off - 0x200000) / 0x80)
  else if 0x200000 ≤ off && off < 0x220000 && 0x10 ≤ off % 0x80 && off % 0x80 < 0x50 then
    s.alGref ((off - 0x200000) / 0x80) ((off % 0x80 - 0x10) / 8)
  else if 0x600000 ≤ off && off < 0x700000 && off % 0x100 == 0x20 then s.rxState ((off - 0x600000) / 0x100)
  else if 0x800000 ≤ off && off < 0x804000 && off % 0x40 == 0x20 then s.ingState ((off - 0x800000) / 0x40)
  else if 0x800000 ≤ off && off < 0x804000 && off % 0x40 == 0x10 then s.ingParam ((off - 0x800000) / 0x40)
  else if 0x1000000 ≤ off && off < 0x1000200 && off % 0x40 == 0 then s.partCfg ((off - 0x1000000) / 0x40)
  else if 0x1000000 ≤ off && off < 0x1000200 && off % 0x40 == 0x18 then s.partJob ((off - 0x1000000) / 0x40)
  else if off == 0x1200008 then s.fcStatus
  else if 0x1208000 ≤ off && off < 0x120A000 then wordAt (s.fcRec ((off - 0x1208000) / 0x20)) (off % 0x20 / 8)
  else if off == 0x1008 then s.pkgFeatReg
  else if off == 0x3000 then s.bootStatus
  else s.readMer dieMerA off

/-- A read of register offset `off` of die `d`; none is the bus error of an absent die (R5). -/
def State.readReg (s : State) (d off : Nat) : Option Word :=
  if !s.diePresent d then none
  else if d < 8 then some (s.readHob d off)
  else if d == dieMerA then some (s.readMerA off)
  else if d == dieMerB then some (s.readMer d off)
  else if d == dieMdl && off == 0x10028 then some s.pantryState
  else some (s.rg d off)

end Sys2Proof.Machine
end

