-- ==== Sys2Proof/WellFormed.lean ====
section
/-! DEFINITION. What a command must be to be one of the package: tiles, handles, links, stacks and the like within the numbers
that chapter 00 and the units' own rules give them. Presence on a variant is not asked here (R4, R5). -/
namespace Sys2Proof

/-- A read on the SMBus: an address of 7 bits, one of the three kinds (R428). -/
def smbOk (q : SmbReq) : Bool := decide (q.addr < 128) && decide (q.kind < 3)

/-- Whether a command's operands are numbers the spec has: tiles (R1), links, stacks, dies, partitions, handles (R179, R217,
R242), groups (R196), streams (R256), channels, registers. -/
def Instr.wf (i : Instr) : Bool :=
  match i with
  | .add t _ _ _ => decide (t < 768)
  | .sub t _ _ _ => decide (t < 768)
  | .and t _ _ _ => decide (t < 768)
  | .or t _ _ _ => decide (t < 768)
  | .xor t _ _ _ => decide (t < 768)
  | .sll t _ _ _ => decide (t < 768)
  | .srl t _ _ _ => decide (t < 768)
  | .sra t _ _ _ => decide (t < 768)
  | .slt t _ _ _ => decide (t < 768)
  | .sltu t _ _ _ => decide (t < 768)
  | .min t _ _ _ => decide (t < 768)
  | .max t _ _ _ => decide (t < 768)
  | .minu t _ _ _ => decide (t < 768)
  | .maxu t _ _ _ => decide (t < 768)
  | .mul t _ _ _ => decide (t < 768)
  | .mulh t _ _ _ => decide (t < 768)
  | .mulhu t _ _ _ => decide (t < 768)
  | .div t _ _ _ => decide (t < 768)
  | .divu t _ _ _ => decide (t < 768)
  | .rem t _ _ _ => decide (t < 768)
  | .remu t _ _ _ => decide (t < 768)
  | .popc t _ _ => decide (t < 768)
  | .clz t _ _ => decide (t < 768)
  | .ctz t _ _ => decide (t < 768)
  | .addi t _ _ _ => decide (t < 768)
  | .andi t _ _ _ => decide (t < 768)
  | .ori t _ _ _ => decide (t < 768)
  | .xori t _ _ _ => decide (t < 768)
  | .slti t _ _ _ => decide (t < 768)
  | .sltiu t _ _ _ => decide (t < 768)
  | .slli t _ _ _ => decide (t < 768)
  | .srli t _ _ _ => decide (t < 768)
  | .srai t _ _ _ => decide (t < 768)
  | .li t _ _ => decide (t < 768)
  | .shori t _ _ _ => decide (t < 768)
  | .beq t _ _ _ => decide (t < 768)
  | .bne t _ _ _ => decide (t < 768)
  | .blt t _ _ _ => decide (t < 768)
  | .bge t _ _ _ => decide (t < 768)
  | .bltu t _ _ _ => decide (t < 768)
  | .bgeu t _ _ _ => decide (t < 768)
  | .j t _ => decide (t < 768)
  | .jal t _ => decide (t < 768)
  | .jr t _ _ => decide (t < 768)
  | .illegalOpcode t _ _ => decide (t < 768)
  | .ldB t _ _ _ => decide (t < 768)
  | .ldBu t _ _ _ => decide (t < 768)
  | .ldH t _ _ _ => decide (t < 768)
  | .ldHu t _ _ _ => decide (t < 768)
  | .ldW t _ _ _ => decide (t < 768)
  | .ldWu t _ _ _ => decide (t < 768)
  | .ldD t _ _ _ => decide (t < 768)
  | .stB t _ _ _ => decide (t < 768)
  | .stH t _ _ _ => decide (t < 768)
  | .stW t _ _ _ => decide (t < 768)
  | .stD t _ _ _ => decide (t < 768)
  | .l1LineFillComplete t _ => decide (t < 768)
  | .cacheWb t _ _ => decide (t < 768)
  | .cacheInv t _ _ => decide (t < 768)
  | .cacheWbinv t _ _ => decide (t < 768)
  | .fence t _ => decide (t < 768)
  | .csrRd t _ _ => decide (t < 768)
  | .csrWr t _ _ => decide (t < 768)
  | .csrSwap t _ _ _ => decide (t < 768)
  | .csrSet t _ _ _ => decide (t < 768)
  | .csrClr t _ _ _ => decide (t < 768)
  | .trap t _ => decide (t < 768)
  | .trapRet t => decide (t < 768)
  | .halt t => decide (t < 768)
  | .dmaIssue t _ _ _ => decide (t < 768)
  | .dmaWait t _ _ => decide (t < 768)
  | .dmaPoll t _ _ => decide (t < 768)
  | .dmaTransferComplete t tag _ => decide (t < 768) && decide (tag < 0x10000)
  | .mmaLoad t _ _ _ _ => decide (t < 768)
  | .mmaStream t _ _ _ _ _ => decide (t < 768)
  | .mmaDrain t _ _ _ _ => decide (t < 768)
  | .mmaDrainDbg t _ _ => decide (t < 768)
  | .mmaLoadComplete t _ => decide (t < 768)
  | .mmaStreamComplete t _ => decide (t < 768)
  | .mmaDrainComplete t _ => decide (t < 768)
  | .arrayGate t a => decide (t < 768) && decide (a < 4)
  | .vecRun t _ _ => decide (t < 768)
  | .vecRunComplete t => decide (t < 768)
  | .rngGen t _ _ => decide (t < 768)
  | .rngGenR t _ => decide (t < 768)
  | .chSend t _ _ => decide (t < 768)
  | .chRecv t _ _ _ => decide (t < 768)
  | .chTry t _ _ _ => decide (t < 768)
  | .chSelectP t _ _ => decide (t < 768)
  | .chSelectR t _ _ => decide (t < 768)
  | .chMessageArrival _ => true
  | .chAcceptance _ => true
  | .chDiscardNotice _ => true
  | .chRetry _ => true
  | .chWatchdogFire t q => decide (t < 768) && decide (q < 16)
  | .sqPush t _ _ => decide (t < 768)
  | .sqPop t _ _ _ => decide (t < 768)
  | .sqRel t _ _ => decide (t < 768)
  | .slHeaderArrival _ => true
  | .slDataArrival _ _ => true
  | .slCreditArrival _ => true
  | .slCreditFlush l => decide (l < 24)
  | .slOpen h _ => decide (h < 4096)
  | .slClose h _ => decide (h < 4096)
  | .alGet t _ _ => decide (t < 768)
  | .alGetP t _ _ => decide (t < 768)
  | .alPin t _ _ => decide (t < 768)
  | .alUnpin t _ _ => decide (t < 768)
  | .alCommit t _ _ => decide (t < 768)
  | .alGroupValidate g _ => decide (g < 1024)
  | .alGroupEnd g _ => decide (g < 1024)
  | .almanacBlockReport _ => true
  | .mirrorCopyArrival g ver => decide (g < 1024) && decide (ver < 0x10000)
  | .mirrorAck g ver => decide (g < 1024) && decide (ver < 0x10000)
  | .fillerTaskStart t => decide (t < 768)
  | .fillerBoundExpiry t => decide (t < 768)
  | .filCtlWrite t _ => decide (t < 768)
  | .rxContrib t _ _ _ _ => decide (t < 768)
  | .rxRelease t _ _ => decide (t < 768)
  | .rxWait t _ _ _ => decide (t < 768)
  | .rxApply t _ _ _ => decide (t < 768)
  | .rxGnorm t _ _ _ _ => decide (t < 768)
  | .rxGrantRequest h shard member step => decide (h < 4096) && decide (shard < 256) && decide (member < 1024) && decide (step < 0x10000)
  | .rxGrant h shard member step => decide (h < 4096) && decide (shard < 256) && decide (member < 1024) && decide (step < 0x10000)
  | .raccWriteArrival h shard member step _ => decide (h < 4096) && decide (shard < 256) && decide (member < 1024) && decide (step < 0x10000)
  | .msaApplyStart h => decide (h < 4096)
  | .msaApplyBlockDone h shard => decide (h < 4096) && decide (shard < 256)
  | .gnormForm step _ => decide (step < 0x10000)
  | .rxCollectiveValidate h _ => decide (h < 4096)
  | .rxCollectiveDiscard h _ => decide (h < 4096)
  | .exDispatch t _ _ _ => decide (t < 768)
  | .exCombine t _ _ _ => decide (t < 768)
  | .exchRecordArrival h _ _ => decide (h < 128)
  | .exchDropNotice h srcTile round _ engine => decide (h < 128) && decide (srcTile < 768) && decide (round < 0x10000) && decide (engine < 1024)
  | .exchEndMark h engine round dest => decide (h < 128) && decide (engine < 1024) && decide (round < 0x10000) && decide (dest < 1024)
  | .exchReturnArrival h _ _ => decide (h < 128)
  | .exHandleValidate h _ => decide (h < 128)
  | .exHandleDiscard h _ => decide (h < 128)
  | .data port d => decide (port < 2) && d.w0.toNat / 2 ^ 48 % 256 == 0
  | .probe port d => decide (port < 2) && d.w0.toNat / 2 ^ 48 % 256 == 2
  | .ingCreditTimer st => decide (st < 256)
  | .ingAddressResolution port _ _ => decide (port < 2)
  | .reasmTimeout st _ => decide (st < 256)
  | .decodeStart st _ => decide (st < 256)
  | .slowDecoderMove st _ => decide (st < 256)
  | .dropLimit st _ => decide (st < 256)
  | .sampleComplete st _ => decide (st < 256)
  | .mixPartnerArrival st _ => decide (st < 256)
  | .pantryEnable _ => true
  | .pantryDisable _ => true
  | .ingStreamEnable st _ => decide (st < 256)
  | .ingStreamDisable st _ => decide (st < 256)
  | .rawConsumedPoll st => decide (st < 256)
  | .tokDictLoad _ => true
  | .tokDictLoadComplete => true
  | .dramRead _ addr _ _ => decide (addr < 0x1000000000000)
  | .dramWrite _ addr _ => decide (addr < 0x1000000000000)
  | .ceWindowRoll m c => decide (m < 24) && decide (c < 16)
  | .scrubPass m _ => decide (m < 24)
  | .refreshTierSample m _ => decide (m < 24)
  | .refreshTierDown m => decide (m < 24)
  | .channelPeriodicRetrain m c _ => decide (m < 24) && decide (c < 16)
  | .channelFailed m c => decide (m < 24) && decide (c < 16)
  | .memMapoutWrite m _ => decide (m < 24)
  | .remapComplete m => decide (m < 24)
  | .memOwnWrite m w _ => decide (m < 24) && decide (w < 2048)
  | .lkEnable l _ => decide (l < 24)
  | .lkDisable l _ _ => decide (l < 24)
  | .lkCtlRetrain l => decide (l < 24)
  | .lkCtlReset l _ => decide (l < 24)
  | .lkDetectRepeat l => decide (l < 24)
  | .lkPeerDetected l => decide (l < 24)
  | .lkEqDone l _ => decide (l < 24)
  | .lkLaneDone l _ _ => decide (l < 24)
  | .lkAlignDone l => decide (l < 24)
  | .lkTrainTimeout l => decide (l < 24)
  | .lkRetrainDone l _ _ => decide (l < 24)
  | .ident l c _ => decide (l < 24) && c.ty == 2 && c.payload.getD 7 0 == 1
  | .retrainReq l c => decide (l < 24) && c.ty == 2 && c.payload.getD 7 0 == 2
  | .retrainGo l c => decide (l < 24) && c.ty == 2 && c.payload.getD 7 0 == 3
  | .rerouteReq l c => decide (l < 24) && c.ty == 2 && c.payload.getD 7 0 == 4
  | .rerouteState l c => decide (l < 24) && c.ty == 2 && c.payload.getD 7 0 == 5
  | .linkReturn l c => decide (l < 24) && c.ty == 2 && c.payload.getD 7 0 == 6
  | .lkLinkctlRepeat l => decide (l < 24)
  | .lkRetrainReqTimeout l => decide (l < 24)
  | .lkCellSlot l => decide (l < 24)
  | .lkDataCellRx l _ => decide (l < 24)
  | .lkAckCellRx l _ => decide (l < 24)
  | .lkIdleAckTimer l => decide (l < 24)
  | .lkRetxTimeout l => decide (l < 24)
  | .lkFecLockLoss l => decide (l < 24)
  | .lkDamageLimit l => decide (l < 24)
  | .lkLaneFecLimit l lane => decide (l < 24) && decide (lane < 9)
  | .lkAuthLimit l => decide (l < 24)
  | .lkRefStart l _ => decide (l < 24)
  | .lkRefAckHoldEnd l => decide (l < 24)
  | .d2dTrainResult d m _ _ _ _ => decide (d < 12) && decide (m < 22)
  | .d2dCtlRetrain d m => decide (d < 12) && decide (m < 22)
  | .d2dCrcLimit d m => decide (d < 12) && decide (m < 22)
  | .resetGuest _ => true
  | .resetMdl => true
  | .crossingResyncDone q => decide (q < 1048)
  | .fwGuestRequest op addr len bytes => decide (addr < 0x1000000000000) && (op == .read || bytes.length == len)
  | .fwWinWrite n w _ => decide (n < 64) && decide (w < 2)
  | .repRetireWrite _ => true
  | .bypass => true
  | .idcode => true
  | .samplePreload => true
  | .extest => true
  | .clamp => true
  | .highz => true
  | .testUnlock _ => true
  | .partValidate p _ => decide (p < 8)
  | .partInvalidate p _ => decide (p < 8)
  | .placingComplete p => decide (p < 8)
  | .endingComplete p => decide (p < 8)
  | .fenceComplete p => decide (p < 8)
  | .regTokenCredit mer p i _ => decide (mer < 2) && decide (p < 8) && decide (i < 25)
  | .regCfgWrite mer p i _ => decide (mer < 2) && decide (p < 8) && decide (i < 25)
  | .faultReport _ => true
  | .fcLineWord die _ _ _ => decide (die < 12)
  | .fcLineWordTimeout die _ => decide (die < 12)
  | .fcLineSilence die _ => decide (die < 12)
  | .fcLineTestWord die _ => decide (die < 12)
  | .fcHeartbeat die => decide (die < 12)
  | .fcPathTimeout die => decide (die < 12)
  | .fcClearRecord r => decide (r < 256)
  | .fcClearAll => true
  | .errnRefresh => true
  | .paceLoopPass die _ _ _ => decide (die < 12)
  | .replicaFail die => decide (die < 12)
  | .pkgPowerRedivision _ _ => true
  | .excursionExhausted => true
  | .excursionWindowEnd => true
  | .pwrEnRise => true
  | .railsInRegulation => true
  | .resetNRise _ => true
  | .resetNFall => true
  | .pwrEnFall => true
  | .inputOutOfRange _ => true
  | .thermalTrip die => decide (die < 12)
  | .converterOvertemp => true
  | .bootRomDone reading => decide (reading.length ≤ 16384)
  | .rotStageDone _ => true
  | .memTrainingDone _ _ => true
  | .selfTestDone _ => true
  | .osImageVerified => true
  | .ready => true
  | .mgmtAddressResolution _ _ => true
  | .status _ => true
  | .resultRead _ => true
  | .resultAck _ => true
  | .blobOpen _ => true
  | .blobWrite _ => true
  | .blobRead _ => true
  | .blobFree _ => true
  | .jobStart _ => true
  | .jobStop _ => true
  | .jobFence _ => true
  | .partSet _ => true
  | .mapout _ => true
  | .retire _ => true
  | .quote _ => true
  | .powerCap _ => true
  | .recordsRead _ => true
  | .recordsClear _ => true
  | .fwUpload _ => true
  | .svnCommit _ => true
  | .netSet _ => true
  | .recoverWrite _ => true
  | .recoverCommit _ => true
  | .powerOff _ => true
  | .smbJunctionMax q => smbOk q
  | .smbStackMax q => smbOk q
  | .smbPower q => smbOk q
  | .smbVoltage q => smbOk q
  | .smbFlags q => smbOk q
  | .smbDieJunction q d => smbOk q && decide (d < 12)
  | .smbStackSensor q m => smbOk q && decide (m < 24)
  | .smbWriteNack q cmd _ => smbOk q && decide (cmd < 256)
  | .registerWrite die off _ => decide (die < 12) && decide (off < 0x100000000)
  | .inputAboveTurnOn _ => true
  | .lossOfAlignment l => decide (l < 24)
  | .longOperationComplete _ _ => true
  | .tileReset t => decide (t < 768)

end Sys2Proof
end

