-- ==== Sys2Proof/Tests/Slice0.lean ====
section
/-! SUPPORT. Tests: small witness states; for each obligation with hypotheses, one theorem test_witness_<its name> that shows,
clause by clause, a concrete state and operands that meet all the hypotheses of the clause; commands that are not well formed,
one for each kind of check; and single steps against values worked out by hand from the spec. -/
set_option maxRecDepth 20000
set_option linter.unusedVariables false

namespace Sys2Proof.Tests
set_option Elab.async false
open Sys2Proof Sys2Proof.Machine

/-! Helpers of the witnesses. -/

theorem bits_above {v : Word} {k : Nat} (h : ∀ i : Nat, i < 64 → k ≤ i → v.getLsbD i = false) :
    ∀ i : Nat, k ≤ i → v.getLsbD i = false :=
  fun i hk => if hi : i < 64 then h i hi hk else BitVec.getLsbD_of_ge v i (by omega)

theorem on_one {α : Type} {P : α → Prop} {xs : List α} {y : α} (e : xs = [y]) (h : P y) : ∀ a ∈ xs, P a := by
  subst e; simpa using h

theorem pair_none {α β : Type} {p : α × Option β} (h : p.2.isNone = true) : p = (p.1, none) := by
  cases p with | mk a b => cases b with | none => rfl | some v => cases h

theorem pair_some {α β : Type} {p : α × Option β} {d : β} (h : p.2.isSome = true) : p = (p.1, some (p.2.getD d)) := by
  cases p with | mk a b => cases b with | none => cases h | some v => rfl

theorem header_fits {s : State} {x : Sample} {h : MediaHdr} (h0 : s.headerFails x { h with workMem := 0 } = none)
    (h1 : h.workMem ≤ s.rf dieMdl (mdlPan + 0x18) 39 0) : s.headerFails x h = none := by
  unfold State.headerFails at *
  split at h0
  · cases h0
  split at h0
  · cases h0
  rename_i a b
  rw [if_neg a, if_neg b]
  split at h0
  · cases h0
  rename_i c
  simp only [c, if_neg (Nat.not_lt.mpr h1)]

theorem pufSecret_checked {s : State} {r h : List Byte} {l m : List (List Byte)} (hr : s.emmc.readable = true)
    (hh : s.emmc.helper = h :: l) (hc : s.emmc.check = sha256 (Config.pufSecret r h) :: m) :
    s.pufSecret r = some (Config.pufSecret r h) := by
  simp [State.pufSecret, hr, hh, hc, List.range_succ]

theorem pace_zero {d laps n : Nat} (h : laps = 0) (e : n = 0) : paceOfLaps d laps = n := by
  simp [paceOfLaps, h, e]

theorem pace_lt {d laps n : Nat} (h : laps = 0) (e : 0 < n) : paceOfLaps d laps < n := by
  simpa [paceOfLaps, h] using e

theorem none_some {α : Type} {x : Option α} {a : α} (e : x = none) (h : x = some a) : False := by
  rw [e] at h; cases h

/-- The state an outcome holds. -/
def nx (o : Host.Outcome State Fault Refusal) : State :=
  match o with
  | .next t => t
  | _ => State.reset

/-- Tile 0 running in partition `p`, with the first frames of stack 0 its own. -/
def world (p : Nat) (x : Tile) (f : State → State := id) : State :=
  f { State.reset with
    regs := [(ctlAddr 0 (memOff 0), BitVec.ofNat 64 (2 ^ 51 + 16 * 2 ^ 16 + 0xFFFF)), (ctlAddr 0 (ownOff 0 0), BitVec.ofNat 64 (0xFFFFFFFFFFFFFFF0 + p))]
    parts := [(p, { valid := true, st := .running, groups := 1, job := 7, keyId := 4 })]
    tiles := [(0, { x with live := true, part := p, job := 7, closed := false })] }
def ctx0 (g : Tab Word) (csr : Tab Word := [(0x10, 0x2000)]) : Ctx := { g := g, pc := 0x1000, csr := csr }
def sp0 : Nat := 0x200000000000
def cells (a : Nat) (ws : List Word) : List Host.Cell :=
  (ws.zipIdx.flatMap fun w => (List.range 8).map fun i => ((a + 8 * w.2 + i, w.1.extractLsb' (8 * i) 8) : Host.Cell)).filter fun c => c.2 != 0
def regsTo (l : List (Nat × Nat × Nat)) (s : State) : State := l.foldl (fun s r => s.setRg r.1 r.2.1 (BitVec.ofNat 64 r.2.2)) s

/-! States of scalar arithmetic. -/

def aluW1 := world 1 { ctx := ctx0 [(1, 5), (2, 0xFFFFFFFFFFFFFFF9), (3, 0)] }

/-! States of loads, stores, the cache, CSRs and traps. -/

def coreWm := world 1 { ctx := ctx0 [(1, 0x200000000040), (2, 0x1122334455667788), (3, 0x4000), (4, 8)] } (fun s => { s with mem := cells 0x200000000040 [0x8786858483828180] })
def coreLine0 : L1Line := { addr := 0x4000, bytes := (List.range 16).map fun i => (i, { v := BitVec.ofNat 8 (0x80 + i) }) }
def coreWl := world 1 { ctx := ctx0 [(1, 0x4000), (2, 0x1122334455667788), (4, 8)], l1 := { lines := [coreLine0], fills := [(0x5000, false)] } }
def coreWmb := world 1 { ctx := ctx0 [(1, 0x200000000040), (2, 0x1122334455667788), (3, 0x4000), (4, 8), (5, 0xFFFFFFFFFFFFFFF0)] }
def coreWtf : State := { world 1 { ctx := ctx0 [(2,77)] [], saved := some (ctx0 [(1, 4)]) } with msgs := [{ sender := 0 }] }

/-! States of DMA, recipes, channels. -/

def matDDesc : List Word := [0, 0x200000000100, 0x200000000200, 0x0001000100000010, 0, 0, 0, 0]
def matWd := world 1 { ctx := ctx0 [(1, 0x200000000040), (2, 3)] } (fun s => { s with mem := cells 0x200000000040 matDDesc })
def matWd2 := nx (exec (.dmaIssue 0 2 1 0) matWd)
def matWd3 := nx (exec (.dmaTransferComplete 0 0 []) matWd2)
def matVDesc : List Word := [2 ^ 57, 2 ^ 32 + 1, 2^60 + 2^56*7 + 0x200000000400, 0, 0, 0,0,0, 0,0,0, 0,0,0, 2^60 + 2^56*7 + 0x200000000440, 0, 0, 0,0,0, 0,0,0,0,0,0,0,0, 2^56*6 + 0 + 2^44*0x3F + 2^38*0x3F+2^36]
def matWv := world 1 { ctx := ctx0 [(1, 0x200000000040), (2, 0x200000000300), (3, 32)] } (fun s => { s with mem := cells 0x200000000040 matVDesc })
def matWv2 := nx (exec (.vecRun 0 1 2) matWv)
def matPay : List Word := [1,2,3,4,5,6,7,8]
def matWc := world 1 { ctx := ctx0 [(1, 0), (2, 0x200000000040), (3, 5)] } (fun s => { s with mem := cells 0x200000000040 matPay })
def matWc1 := nx (exec (.chSend 0 1 2) matWc)
def matMfar : ChMsg := { matWc1.msgs.getD 0 {} with dest := 0x1000000 }
def matWc2 := nx (exec (.chMessageArrival 0) matWc1)
def matWc3 := matWc1.setQueue 0 0 (List.replicate 8 { sender := 9, payload := List.replicate 64 7 })
def matWc4 := nx (exec (.chMessageArrival 0) matWc3)
def matWc5 := matWc1.setTile 0 { matWc1.tile 0 with epoch := 3 }
def matWc6 := nx (exec (.chMessageArrival 0) matWc5)
def matWc7 := (matWc1.setTile 0 { matWc1.tile 0 with wd := [(2, { full := true, opened := 5 })], counts := [(0x142, 2^63 + 1)] })
def matWc8 := { matWc7 with ns := [(0, 1005)] }

/-! States of stage links. -/

def dmaSlc (recv : Bool) (peer : Nat) : Nat := 2^63 + recv.toNat*2^62 + 2*2^48 + 1*2^35 + 0*2^22 + 1*2^12 + peer
def dmaHdr : List Word := [0, 4096, 0x6000, 0,0,0,0,0]
def dmaWs0 := world 1 { ctx := ctx0 [(1, 0), (2, 0x200000000040), (3, 1), (4,0)] } (fun s => regsTo [(0, slOff 0 + 0x10, 4096), (0, slOff 1 + 8, 0x4000), (0, slOff 1 + 0x10, 4096)] { s with mem := cells 0x200000000040 dmaHdr ++ cells 0x200000000400 [0x1234] })
def dmaWs1 : State := ((regsTo [(0, slOff 0, dmaSlc false 1), (0, slOff 1, dmaSlc true 0)] dmaWs0).setSlEnd 0 { cfg := BitVec.ofNat 64 (dmaSlc false 1), size := 4096, credits := [0, 1] }).setSlEnd 1 { cfg := BitVec.ofNat 64 (dmaSlc true 0), ring := 0x4000, size := 4096 }
def dmaFlt : SlFlight := { src := 0, dst := 1, part := 1, tile := 0, idx := 0, seq := 0, depth := 2, size := 4096, header := dmaHdr, payload := 0x6000, len := 4096 }
def dmaWs2 : State := State.setSlEnd { dmaWs1 with flights := [dmaFlt] } 0 { dmaWs1.slEnd 0 with credits := [1], seq := 1 }
def dmaEnt : SlEntry := { idx := 0, seq := 0, header := dmaHdr, landed := 0, tile := 0 }
def dmaWs3 : State := State.setSlEnd { dmaWs2 with flights := [{ dmaFlt with hdrDone := true }] } 1 { dmaWs2.slEnd 1 with arriving := [dmaEnt] }
def dmaFsp : SlFlight := { (dmaWs3.flights.getD 0 {}) with payload := 0x200000000400, done := 0 }
def dmaYl := { dmaWs3.slEnd 1 with ring := 0x200000001000}
def dmaWs4 : State := State.setSlEnd { dmaWs2 with flights := [] } 1 { dmaWs2.slEnd 1 with visible := [{ dmaEnt with landed := 4096 }] }
def dmaWs5 : State := dmaWs4.setSlEnd 1 { dmaWs4.slEnd 1 with visible := [], popped := [{ dmaEnt with landed := 4096 }] }
def dmaWs6 : State := State.setSlEnd { dmaWs4 with slCredits := [{ dst := 0, idx := 0, epoch := 0, disc := false, link := none, part := 1 }] } 1 { dmaWs4.slEnd 1 with visible := [] }

/-! States of the Almanac and the filler. -/

def chanWc0 := world 1 { ctx := ctx0 [(1, 0), (2, 0x200000000040), (3, 5)] }
def chanWv := world 1 { ctx := ctx0 [(1, 0x200000000040), (2, 0x200000000300), (3, 32)] }
def chanSlc (recv : Bool) (peer : Nat) : Nat := 2^63 + recv.toNat*2^62 + 2*2^48 + 1*2^35 + 0*2^22 + 1*2^12 + peer
def chanWs0 := world 1 { ctx := ctx0 [(1, 0), (2, 0x200000000040), (3, 1), (4,0)] } (fun s => regsTo [(0, slOff 0 + 0x10, 4096), (0, slOff 1 + 8, 0x4000), (0, slOff 1 + 0x10, 4096)] s)
def chanAlw (c m : Nat) : Nat := 2^63 + c*2^61 + m*2^60 + 1*2^57 + 5*2^32 + 0*2^16 + 1
def chanWa0 := world 1 { ctx := ctx0 [(1, 0), (2, 5), (3, 6), (4, 9)] } (fun s => regsTo [(8, albOff 0, 0x10000), (8, albOff 0 + 8, 0x1000*2^32 + 0x1000)] s)
def chanAlUp (w : Nat) (s : State) : State := (s.setRg 8 (alOff 0) (BitVec.ofNat 64 w)).setGroup 0 { current := 5, oldest := 5, counts := [(5, 0)], mirrored := 5 }
def chanWa1 := chanAlUp (chanAlw 0 0) chanWa0
def chanWa2 := chanWa1.setGroup 0 { chanWa1.group 0 with counts := [(5, 1)] }
def chanWa3 := nx (exec (.alCommit 0 5 1) chanWa2)
def chanWa4s := chanWa1.setTile 0 {chanWa1.tile 0 with ctx := {(chanWa1.tile 0).ctx with wait := some (.alCommit 0 5 1)}}
def chanWa5 := chanAlUp (chanAlw 1 0) chanWa0
def chanWa6 := chanAlUp (chanAlw 2 0) chanWa0
def chanWa7 := chanAlUp (chanAlw 0 1) chanWa0
def chanWa8 := regsTo [(8, albOff 1, 0x20000), (8, albOff 1 + 8, 0x1000*2^32 + 0x1000)] chanWa0
def chanWa9 := chanAlUp (chanAlw 1 0 + 1) chanWa8
def chanFilc : Nat := 2^63
def chanWf0 := world 1 { ctx := ctx0 [(1, 0), (2, 5), (3, 6), (4, 9)] } (fun s => regsTo [(0, filOff 0 + 8, 2^56*2 + 0x8000)] { s with mem := cells 0x8000 [0x3000, 77, 0x2400, 50] })
def chanWf1 := nx (exec (.filCtlWrite 0 (BitVec.ofNat 64 chanFilc)) chanWf0)
def chanWa6c : State := { chanWa6 with unitIn := [{ cls := 4, object := 0, payload := unitBytes [6 * 2 ^ 32 + 1, 0x10000, 8] ++ [1,2,3,4,5,6,7,8] }] }
def chanWa7a : State := { (chanWa7.setGroup 0 { chanWa7.group 0 with copying := some 5 }) with unitIn := [{ cls := 5, vc := true, payload := unitBytes [4, 0, 5] }] }
def chanWa5m : State := ((chanAlUp (chanAlw 1 1) chanWa0).setRb 8 (lkOff 0) 63 true).setLink 0 { mirror := true }

/-! States of collectives. -/

def colvFilc : Nat := 2^63 + 2^62 + 100
def colvWf0 := world 1 { ctx := ctx0 [(1, 0), (2, 5), (3, 6), (4, 9)] } (fun s => regsTo [(0, filOff 0 + 8, 2^56*2 + 0x8000)] { s with mem := cells 0x8000 [0x3000, 77, 0x2400, 50] })
def colvWf1 := nx (execFilCtlWrite 0 (BitVec.ofNat 64 colvFilc) colvWf0)
def colvWf2 : State := { colvWf1 with rings := colvWf1.rings.map fun (r : FilRing) => { r with tail := 1 } }
def colvWf3 := (colvWf2.setTile 0 { colvWf2.tile 0 with ctx := { (colvWf2.tile 0).ctx with wait := some (.chRecv 0 5 1 2) } })
def colvWf4 := nx (exec (.fillerTaskStart 0) colvWf3)
def colvRxw (ap : Nat) : Nat := 2^63 + 1*2^60 + 7*2^54 + 2*2^40 + ap*2^29
def colvTab0 : List Word := [0x9000, 0xA000, 0xB000, 0xC000]
def colvAlw1 : Nat := 2^63 + 1*2^61 + 1*2^57 + 5*2^32 + 1
def colvWr0 := world 1 { ctx := ctx0 [(1, 0), (2, 3), (3, 0x200000000100), (4, 0), (5, 1), (6, 0x200000000200), (7, 9)] } (fun s => regsTo [(8, albOff 0, 0x10000), (8, albOff 0 + 8, 0x1000*2^32 + 0x1000), (8, rxOff 0 + 8, 32), (8, rxOff 0 + 0x10, 0x8000), (8, rxOff 0 + 0x40, 0x28)] { s with mem := cells 0x8000 colvTab0 ++ cells 0x200000000100 ((List.range 16).map fun i => BitVec.ofNat 64 (0x3F8000003F800000 + i)) ++ cells 0x200000000200 [2^60*0 + 5*2^56, 0,0,0x3F80000000000000,0,0,0,0] })
def colvWr1 := nx (exec (.alGroupValidate 0 (BitVec.ofNat 64 colvAlw1)) colvWr0)
def colvWr2 := nx (exec (.rxCollectiveValidate 0 (BitVec.ofNat 64 (colvRxw 1))) colvWr1)
def colvWr3 := nx (exec (.rxApply 0 1 6 4) colvWr2)
def colvWr4 := nx (exec (.rxRelease 0 1 4) colvWr3)
def colvWr5 := nx (exec (.msaApplyStart 0) colvWr4)

/-! States of collectives and the optimizer. -/

def collRxw (ap : Nat) : Nat := 2^63 + 1*2^60 + 7*2^54 + 2*2^40 + ap*2^29
def collTab0 : List Word := [0x9000, 0xA000, 0xB000, 0xC000]
def collAlw1 : Nat := 2^63 + 1*2^61 + 1*2^57 + 5*2^32 + 1
def collWr0 := world 1 { ctx := ctx0 [(1, 0), (2, 3), (3, 0x200000000100), (4, 0), (5, 1), (6, 0x200000000200), (7, 9)] } (fun s => regsTo [(8, albOff 0, 0x10000), (8, albOff 0 + 8, 0x1000*2^32 + 0x1000), (8, rxOff 0 + 8, 32), (8, rxOff 0 + 0x10, 0x8000), (8, rxOff 0 + 0x40, 0x28)] { s with mem := cells 0x8000 collTab0 ++ cells 0x200000000100 ((List.range 16).map fun i => BitVec.ofNat 64 (0x3F8000003F800000 + i)) ++ cells 0x200000000200 [2^60*0 + 5*2^56, 0,0,0x3F80000000000000,0,0,0,0] })
def collWr1 := (collWr0.setRg 8 (alOff 0) (BitVec.ofNat 64 collAlw1)).setGroup 0 { current := 5, oldest := 5, counts := [(5, 0)], mirrored := 5 }
def collRxUp (w : Nat) (sh : List (List Word)) (s : State) : State := (s.setRg 8 (rxOff 0) (BitVec.ofNat 64 w)).setColl 0 { shards := sh, rounds := [{ step := 0, idx := 0 }, { step := 1, idx := 1 }] }
def collWr2 := collRxUp (collRxw 1) [collTab0] collWr1
def collApl : Apply := { order := 0, tile := 0, step := 0, desc := [0x0500000000000000, 0, 0, 0x3F80000000000000, 0, 0, 0, 0] }
def collWr4 := collWr2.setColl 0 { collWr2.coll 0 with rounds := [{ step := 0, idx := 0, late := [(0, 3), (0, 5)], homesDone := [0], released := true, complete := true }, { step := 1, idx := 1 }], applyNext := 1, applies := [collApl], words := [(0, 0x8000001)], norms := [(0, true, [])] }
def collCon (sh : Nat) : Contrib := { order := 0, shard := sh, member := 3, step := 0, tile := some 0, src := 0x200000000000 + sh * 128 + 256, grant := .waiting }
def collWk0 := collWr2.setColl 0 { collWr2.coll 0 with contribs := [collCon 0] }
def collWk1 := collWr2.setColl 0 { collWr2.coll 0 with rounds := [{ step := 0, idx := 0, seen := [(0, 3)] }, { step := 1, idx := 1 }], contribs := [{ collCon 0 with grant := .direct }] }
def collWk2 := collWr2.setColl 0 { collWr2.coll 0 with rounds := [{ step := 0, idx := 0, seen := [(0, 3)] }, { step := 1, idx := 1 }], contribs := [{ collCon 0 with grant := .direct, sent := true, pend := List.replicate 128 0x3F }] }
def collLate : Contrib := { (collWk2.coll 0).contribs.getD 0 {} with grant := .late }
def collWkr := collWk0.setColl 0 {collWk0.coll 0 with shards := [[2^63+ 0x9000,0,0,0]]}
def collWkr1 := nx (exec (.rxGrantRequest 0 0 3 0) collWkr)
def collRxw0 : Nat := 2^63 + 0*2^60 + 7*2^54 + 2*2^40 + 1*2^16
def collWg0 := world 0 { ctx := ctx0 [(1, 0), (2, 3), (3, 0x200000000100), (4, 0)] } (fun s => regsTo [(8, rxOff 0 + 8, 32), (8, rxOff 0 + 0x10, 0x8000), (8, rxOff 0 + 0x40, 0x8)] { s with mem := cells 0x8000 ([0x9000,0,0,0]++[0xA000,0,0,0]) ++ cells 0x200000000100 ((List.range 32).map fun i => 0x3F8000003F800000 ) })
def collWg1 := collRxUp collRxw0 [[0x9000, 0, 0, 0], [0xA000, 0, 0, 0]] collWg0
def collWgr := collWg1.setColl 0 { collWg1.coll 0 with shards := [[0x9000, 0, 0, 0], [2^63 + 0xA000, 0, 0, 0]] }
def collWg2 : State := State.setColl { collWg1 with gsteps := [{ step := 0, accepted := true }] } 0 { collWg1.coll 0 with contribs := [collCon 0, collCon 1], gnorms := [0] }
def collWg3 := (collWg2.setColl 0 { collWg2.coll 0 with oldest := 1, roundIdx := 1, rounds := [{ step := 1, idx := 1 }, { step := 2, idx := 0 }], words := [(0, 0x2000000020)], norms := [(0, false, [{ shard := 0, v := 0x42000000, m := 2 ^ 51, e := -46, bad := false }, { shard := 1, v := 0x42000000, m := 2 ^ 51, e := -46, bad := false }])] })
def collAplF (f : Nat) (alg : Nat) : Apply := { collApl with started := true, factor := 0x3F800000, desc := [BitVec.ofNat 64 (alg * 2 ^ 60 + f * 2 ^ 56), 0x3DCCCCCD3F666666, 0x3C23D70A3F000000, 0x3F80000000000000, 0x3A83126F3F7FBE77, 0, 0, 0] }
def collTab1 : List Word := [0x19000, 0x1A000, 0x1B000, 0x1C000]
def collWr6 (f alg : Nat) : State := let s := collWr4.setColl 0 { collWr4.coll 0 with shards := [collTab0, collTab1], applies := [collAplF f alg] }; (regsTo [(8, albOff 1, 0x30000), (8, albOff 1 + 8, 0x1000*2^32 + 0x1000), (8, albOff 0, 0x20000)] s)
def collWk3 : State := (collWr2.setRg 8 (rxOff 0 + 8) 128).setColl 0 { collWr2.coll 0 with rounds := [{ step := 0, idx := 0, seen := [(0, 3)] }, { step := 1, idx := 1 }], contribs := [{ collCon 0 with grant := .direct, sent := true, pend := List.replicate 512 0x3F }] }
def collWg5 : State := State.setColl (collWg3.setRg 8 (rxOff 0 + 0x18) 0xE000) 0 { collWg3.coll 0 with normed := [] }
def collWkl : State := collWk2.setColl 0 {collWk2.coll 0 with contribs := [collLate]}

/-! States of the exchange. -/

def exExw : Nat := 2^63 + 1*2^60 + 2*2^50 + 1*2^38 + 0*2^28 + 0*2^18 + 1*2^8
def exRec1 : List Word := [0, 0,0,0,0,0,0,0] ++ [1,2,3,4,5,6,7,8]
def exWe0 (home : Nat := 0) (quota : Nat := 2) (cap : Nat := 1) (engw : Nat := 2^63) := world 1 { ctx := ctx0 [(1, 0), (2, 0x200000000100), (3, 1), (4, 0), (5, 0x200000000300), (7,9)] } (fun s => regsTo [(8, exOff 0 + 8, 0x8000), (8, exOff 0 + 0x10, 0x8100)] { s with mem := cells 0x8000 [BitVec.ofNat 64 (2^63 + home*2^53 + 0x10000), BitVec.ofNat 64 (quota*2^48 + cap), 0, 0] ++ cells 0x8100 [BitVec.ofNat 64 engw] ++ cells 0x200000000100 exRec1 })
def exExUp (n : Nat) : State := ((exWe0 0 2 n).setRg 8 (exOff 0) (BitVec.ofNat 64 exExw)).setEx 0 { experts := [[BitVec.ofNat 64 (2 ^ 63 + 0x10000), BitVec.ofNat 64 (2 * 2 ^ 48 + n), 0, 0]], engines := [0x8000000000000000] }
def exDsp0 : ExDisp := { tile := 0, round := 0, count := 1, status := [(0, 0)], hdrs := [(0, List.replicate 8 0)] }
def exExPay : List Byte := (List.range 64).map fun i => if i % 8 = 0 then BitVec.ofNat 8 (i / 8 + 1) else 0
def exExGo (s : State) : State := s.setEx 0 { s.exState 0 with tileRound := [(0, 1)], disps := [exDsp0], flight := [{ hdr := List.replicate 8 0, payload := exExPay }], dispatched := [(0, 1)] }
def exWe1 := exExUp 1
def exWe2 := exExGo exWe1
def exWe3 := exWe2.setEx 0 { exWe2.exState 0 with flight := [], halves := [{ expert := 0, round := 0, count := 1, dropc := 0, complete := false, returned := 0 }], marksSent := [0] }
def exWe4 := nx (exec (.exDispatch 0 1 2 3) exWe3)
def exWx (n : Nat) := exExUp n
def exWcap := exExGo (exWx 0)
def exWcap2 := nx (exec (.exchRecordArrival 0 0 false) exWcap)
def exWfar := exWcap2.setEx 0 { exWe2.exState 0 with engines := [2^63+2^62] }
def exWret0 : State := exWe3.setEx 0 { exWe3.exState 0 with returns := [{tile := 0, src := 0x200000000100}] }
def exWret1 := exWret0.setEx 0 { exWret0.exState 0 with disps := [{ exDsp0 with dest := some 0x200000000300 }] }
def exWk := nx (exec (.exHandleValidate 0 (BitVec.ofNat 64 exExw)) (exWe0))
def exWk1 := nx (exec (.exDispatch 0 1 2 3) { exWk with mem := cells 0x8000 [0x8000000000010000, 0x0002000000000001] ++ cells 0x200000000100 [BitVec.ofNat 64 (0xFFF*2^52)] })
def exCellN (cls : Nat) (off : Nat) (pl : List Byte) (o : Nat) : LkCell := { cls := cls, object := o, offset := off, payload := pl, len := pl.length }
def exWfl : State := { exWe1 with unitIn := [exCellN 3 0 (bytesOf exRec1) 0] }

/-! States of ingest, media and Pantry. -/

def medWi0 := world 1 { ctx := ctx0 [(1, 0)] } (fun s => regsTo [(8, ingPort, 2^63 + 2^62 + 2^61 + 0x5D20), (8, ingPort + 0x10, 0x0A000001), (8, ingOff 0 + 8, 0x10000), (8, ingOff 0 + 0x10, 4096*2^32 + 2), (10, mdlPan + 8, 0x20000), (9, d2dOff 20, 3*2^61)] s)
def medRawcfg : Nat := 1*2^60
def medWi1 := nx (exec (.ingStreamEnable 0 (BitVec.ofNat 64 medRawcfg)) medWi0)
def medDg (ty idx off tot : Nat) (pl : List Byte) : Dgram := { src := 9, srcPort := 7, dstPort := 0x5D20, w0 := BitVec.ofNat 64 (2^56 + ty*2^48 + 0*2^40 + off), w1 := BitVec.ofNat 64 (idx*2^16 + pl.length), w2 := BitVec.ofNat 64 (tot*2^32), payload := pl }
def medWi2 := nx (exec (.data 0 (medDg 0 4 0 3 [1,2,3])) medWi1)
def medWi3 := nx (exec (.data 0 (medDg 0 5 0 9 [1,2,3])) medWi2)
def medPcfg : Nat := 1*2^60 + 16*2^32 + 4096
def medWp1 := nx (exec (.pantryEnable (BitVec.ofNat 64 medPcfg)) medWi0)
def medTxt : Sample := { stream := 2, index := 1, total := 1, got := [(0, 0x41)], stage := .decoding }
def medOps0 : List (List Word) := [[BitVec.ofNat 64 (0x3F*2^56+7*2^52),0,0,0]]
def medOpsM : List (List Word) := [[BitVec.ofNat 64 (0x06*2^56),0,0,0],[BitVec.ofNat 64 (0x3F*2^56+7*2^52),0,0,0]]
def medWavb : List Byte := [82,73,70,70,37,0,0,0,87,65,86,69,102,109,116,32,16,0,0,0,1,0,1,0,64,31,0,0,64,31,0,0,1,0,8,0,100,97,116,97,1,0,0,0,192]
def medWgot : Tab Byte := (List.range 45).map fun i => (i, medWavb.getD i 0)
def medWimg := (regsTo [(8, ingOff 1, 2^63 + 2^60 + 4*2^56 + 4*2^40), (10, mdlPan + 0x18, 2^40-1), (8, ingOff 2, 2^63+2^60+7*2^56+4*2^40)] { medWp1 with samples := [{ stream := 1, index := 4, total := 45, got := medWgot, stage := .ready }, { medTxt with stage := .ready}] }).setStrm 1 { allow := 4, ops := medOps0 }
def medSmp (s : State) (i : Nat) := s.samples.getD i {}
def medWtx := { medWimg with mdl := { medWimg.mdl with dict := some [] } }
def medWtx2 := nx (exec (.decodeStart 2 1) medWtx)
def medWimg2 : State := { medWimg with samples := [{ medSmp medWimg 0 with stage := .decoding, budget := medWimg.workBudget 1, hdr := { image := false, jpeg := false, d0 := 1, d1 := 1, channels := 1, depth := 8, rate := 8000 } }, medSmp medWimg 1] }
def medMixing (a b : Nat) : State := { medWimg with samples := [{ stream := 1, index := a, adm := 0, total := 2, stage := .mixWait, pos := 0, out := { d0 := 1, d1 := 1, channels := 1, values := [0x3F800000] } }] ++ (if b = 99 then [] else [{ stream := 1, index := b, adm := 1, total := 2, stage := .mixWait, pos := 0, out := { d0 := 1, d1 := 1, channels := 1, values := [0x3F800000] } }]) }
def medMx := (medMixing 4 99).setStrm 1 { allow := 4, ops := medOpsM }
def medMx2 := (medMixing 4 99).setStrm 1 { allow := 4, ops := medOpsM, finished := [5] }
def medMx3 := (medMixing 4 5).setStrm 1 { allow := 4, ops := medOpsM }
def medWbud := { medWimg2 with samples := [{ medSmp medWimg2 0 with budget := 1 }] }
def medWid := (regsTo [(8, ingOff 0, 2^63 + 1*2^60 + 4*2^56 + 1*2^48)] medWi1).setStrm 0 { allow := 1, seen := 1 }
def medWbadh := { medWimg with samples := [{ stream := 1, index := 4, total := 4, got := [(0,1),(1,2),(2,3),(3,4)], stage := .ready }] }
def medWlim := medWimg2.setRf 8 (ingOff 1) 31 0 1

/-! States of DRAM. -/

def memWm0 : State := regsTo [(0, memOff 0, 2^51 + 0xFFFF + 16*2^16), (0, ownOff 0 0, 0xFFFFFFFFFFFFFF80 + 1)] { State.reset with parts := [(1, { valid := true, st := .running, groups := 1, job := 7, keyId := 4 })], mem := cells 0x1000 [0x1234] ++ cells 0x200000 [0x55] }
def memWmi := memWm0
def memWm1 := regsTo [(0, ownOff 0 0, 0xFFFFFFFFFFFFFFFF)] memWmi
def memWmr (tok : Nat) : State := regsTo [((stackReg 0).1, regOff 1 (stackReg 0).2, 2 ^ 63 + 5 * 2 ^ 32 + 7), ((stackReg 0).1, regOff 1 (stackReg 0).2 + 8, tok)] memWm0

/-! States of links. -/

def lnkWl0 : State := { State.reset with pins := { State.reset.pins with powered := true } }
def lnkMc (m : LkMsg) : LkCell := sealCell { ty := 2, hops := 0, len := 32, payload := ctlPayload m }
def lnkLV : Word := BitVec.ofNat 64 (2^63 + 1*2^53)
def lnkWl1 := nx (exec (.lkEnable 3 lnkLV) lnkWl0)
def lnkWl2 := nx (exec (.lkPeerDetected 3) lnkWl1)
def lnkWl3 := nx (exec (.lkEqDone 3 true) lnkWl2)
def lnkWl4 := nx (exec (.lkLaneDone 3 0x1FF 0x1FF) lnkWl3)
def lnkWl5 := nx (exec (.lkAlignDone 3) lnkWl4)
def lnkWl6 := nx (exec (.ident 3 (lnkMc {}) true) lnkWl5)
def lnkWl7 := nx (execLossOfAlignment 3 lnkWl6)
def lnkCl : LkCell := sealCell {}
def lnkUp (s : State) (l : Nat) : State := nx (exec (.ident l (lnkMc {link := 9}) true) (nx (exec (.lkAlignDone l) (nx (exec (.lkLaneDone l 0x1FF 0x1FF) (nx (exec (.lkEqDone l true) (nx (exec (.lkPeerDetected l) (nx (exec (.lkEnable l lnkLV) s)))))))))))
def lnkW34 := lnkUp lnkWl6 4
def lnkWq := (lnkWl6.setLink 3 {lnkWl6.link 3 with ctl := [], ctlOpen := [], peerReq := 0, txq := [{ cls := 1, payload := List.replicate 64 3, part := 1 }]})
def lnkWq1 := nx (exec (.lkCellSlot 3) lnkWq)
def lnkWe := ((lnkWl5.setLkB 3 0 62 true).setRotState 1)
def lnkMcf (m : LkMsg) : LkCell := sealCell { ty := 2, hops := 0, len := 32 + m.frag.length, payload := ctlPayload m ++ m.frag }
def lnkWe2 (n : Nat) := lnkWe.setLink 3 { lnkWe.link 3 with identIn := List.replicate n 1 }

/-! States of the guest window, partitions, faults. -/

def partWd0 : State := { State.reset with variant := .trnG24, guestId := 5 }
def partWd1 := nx (exec (.d2dTrainResult 8 0 {} {} {} {}) partWd0)
def partWpan := regsTo [(10, mdlPan, 2^63 + 1*2^60 + 16*2^32 + 4096)] partWd0
def partWf0 : State := regsTo [(8, d2dOff 20, 3*2^61), (8, fwOff 2, 2^63 + 2^59+2^58+2^57 + 1*2^60 + 0x200000000000), (8, fwOff 2 + 8, 0x1000)] { partWd0 with parts := [(1, { valid := true, st := .running, groups := 1, job := 7, keyId := 4 })], mem := cells 0x200000000100 [5], tiles := [(0, { live := true, part := 1, closed := false })] }
def partWp (p : Part) : State := regsTo [(8, partOff 1, 1)] { State.reset with parts := [(1, p)], tiles := [(0, { part := 1 })] }
def partPbase : Part := { valid := true, st := .idle, groups := 1 }
def partR0 : Report := { src := 0x21, inst := 5, die := 3, sev := 1, value := 9 }
def partWfr (r : Report) : State := { State.reset with reports := [r] }
def partWfr1 := nx (exec (.faultReport 0) (partWfr partR0))
def partBi : List (Bool × Bool) := [(true,false),(false,true)]
def partWgv : State := State.setBootPhase { State.reset with pins := { State.reset.pins with powered := true, released := true } } 4
def partWgt : State := partWgv.setRf 0 0x2000 15 0 1000
def partWfd : State := regsTo [(0, memOff 0, 2 ^ 51 + 16 * 2 ^ 16 + 0xFFFF), (0, ownOff 0 0, 0xFFFFFFFFFFFFFFF1), (8, fwOff 3, 2^63 + 2^59+2^58+2^57 + 1*2^60 + 0x1000), (8, fwOff 3 + 8, 0x2000)] { partWf0 with mem := cells 0x1100 [5, 6] }

/-! States of faults. -/

def fcR4 : State := State.reset.setBootPhase 4
def fcPbase : Part := { valid := true, st := .idle, groups := 1 }
def fcWpb : State := regsTo [(8, partOff 1 + 8, 2^64-1), (8, partOff 1 + 0x10, 2^32-1)] { State.reset with variant := .trnC18, parts := [(1, {})] }
def fcR0 : Report := { src := 0x21, inst := 5, die := 3, sev := 1, value := 9 }
def fcWfr (r : Report) : State := { fcR4 with reports := [r] }
def fcWfr1 := nx (exec (.faultReport 0) (fcWfr fcR0))
def fcWgv : State := State.setBootPhase { State.reset with pins := { State.reset.pins with powered := true, released := true } } 4

/-! States of power, pins and boot. -/

def pwrPh (n : Nat) : State := State.reset.setBootPhase n
def pwrK2 : State := pwrPh 2
def pwrK3 : State := (pwrPh 2).setRf 0 (memOff 0) 51 50 2
def pwrK4 : State := { pwrPh 3 with reconciled := true }
def pwrK5 : State := { pwrPh 4 with reconciled := true }
def pwrEnr : State := { State.reset with rot := { State.reset.rot with runCopy := [] }, emmc := { State.reset.emmc with enrolled := true, helper := [[], []], check := [sha256 (Config.pufSecret [] []), sha256 (Config.pufSecret [] [])] } }

/-! States of the management port. -/

def mgtR4 : State := regsTo [(0, memOff 0, 2^51 + 0xFFFF + 16*2^16)] (State.reset.setBootPhase 4)
def mgtRq (op : Nat) (a0 a1 : Nat) (body : List Byte := []) (tag : Nat := 77) : MgmtReq := { src := 9, srcPort := 5, v6 := true, dst := State.reset.linkLocal, dstPort := 23841, w0 := BitVec.ofNat 64 ((2 ^ 24 + op * 2 ^ 8)*2^32 + tag), w1 := BitVec.ofNat 64 (body.length*2^16), arg0 := BitVec.ofNat 64 a0, arg1 := BitVec.ofNat 64 a1, body := body }
def mgtR4s := nx (execStatus (mgtRq 1 0 0) mgtR4)
def mgtRc (d : Bool) : State := { mgtR4 with mgmt := { mgtR4.mgmt with recs := [(1, { op := 0x11, done := d })], nextCmd := 2 } }
def mgtBb := nx (execBlobOpen (mgtRq 8 100 0) mgtR4)
def mgtBw := nx (execBlobWrite (mgtRq 9 1 5 [1,2,3] 78) mgtBb)
def mgtRun1 : State := { mgtR4 with parts := [(1, { valid := true, st := .running, groups := 1})], tiles := [(0, { live := true, part := 1 })] }
def mgtFwb : State := { mgtR4 with mgmt := { mgtR4.mgmt with blobs := [(1, { size := 4000, bytes := [(8, 0), (9, 0), (10, 0), (11, 0)] }), (2, { size := 4000 })] } }
def mgtJs : State := { mgtFwb.setRotState 1 with parts := [(1, { valid := true, st := .idle, groups := 1})], tiles := [(0, { part := 1 })] }
def mgtHdr0 (leaf : Nat) : List Byte := leBytes 4 1 ++ leBytes 4 0 ++ leBytes 8 mgtJs.devId.toNat ++ leBytes 4 mgtJs.rotBoot ++ leBytes 4 leaf ++ [1] ++ List.replicate 7 0
def mgtHdr3 : List Byte := mgtHdr0 3 ++ List.replicate 1568 0
def mgtBody3 : List Byte := List.replicate 512 0
def mgtJq : State := { mgtJs with rot := { mgtJs.rot with quotes := [(3,1)] } }
def mgtJs3 : State := { mgtJq with mgmt := { mgtJq.mgmt with blobs := [(1, { size := 2128, bytes := bytesFrom 0 (mgtJq.sealEnv mgtHdr3 mgtBody3) }), (2, {})] } }
def mgtV5 : State := State.reset.setBootPhase 5
def mgtLo (op t : Nat) : State := { mgtR4 with mgmt := { mgtR4.mgmt with nextCmd := 2, recs := [(1, { op := op, target := t, req := mgtRq 0x2A 0 0 (List.replicate 32 3), part := 1 })] } }
def mgtLok : State := let s := mgtLo 0x29 1; { s with emmc := { s.emmc with rpmbKey := s.derive labRpmb 32, minSvn := [(1, 3)] }, rot := { s.rot with running := [(1, leBytes 6 0 ++ leBytes 2 9 ++ leBytes 56 0)] } }

/-! States of the matrix arrays. -/

def mmaWmt : State := world 1 { ctx := ctx0 [(1, 0x200000000000), (2, 0x100000040), (3, 2), (4, 0x400000000100), (5, 0x200000008000), (6, 64)], arrays := [(0, { iSlots := [(0, (.e4m3, 0))] })], debug := true }
def mmaWcs : List Chain := [{ upper := none, lower := 0, unit := 0, col0 := 0, n1 := false }]
def mmaOpL : MmaOp := { kind := .load, aset := 1, cnt := 1, fmt := .e4m3, base := 0x200000000000, s1 := 64, s2 := 1 }
def mmaOpS : MmaOp := { kind := .stream, aset := 1, cnt := 1, fmt := .e4m3, base := 0x200000000000, s1 := 64, rows := 1 }
def mmaOpD : MmaOp := { kind := .drain, aset := 1, fmt := .fp32, base := 0x200000000000, s1 := 0x4000, s2 := 256, rows := 1, status := 0x200000008000 }
def mmaWmq (o : MmaOp) : State := world 1 { ctx := ctx0 [], mmaq := [o], arrays := [(0, { slots := [(0, {})], iSlots := [(0, (.e4m3, 0))] })] }
def mmaWmf : State := State.setTile mmaWmt 0 { mmaWmt.tile 0 with mmaq := List.replicate 16 mmaOpS }
def mmaOpG : MmaOp := { kind := .debug, aset := 1, base := 0x200000000000, rows := 64 }

/-! States of waits, tasks and division. -/

def moreWcq : State := world 1 { ctx := ctx0 [(1, 0x4000), (2, 0x1122334455667788)], vecq := [{}] }
def moreFil2 : Nat := 2 ^ 63 + 2 ^ 62
def moreWfi : State := world 1 { ctx := { ctx0 [(1, 0), (2, 5)] with wait := some (.chRecv 0 5 1 2) } } (fun s => regsTo [(0, filOff 0, moreFil2), (0, filOff 0 + 8, 2 ^ 56 * 2 + 0x8000)] { s with mem := cells 0x8000 [0x3000, 77, 0x2400, 50], rings := [{ hob := 0, base := 0x8000, log2n := 2, tail := 1 }] })
def moreWfr : State := nx (exec (.fillerTaskStart 0) moreWfi)
def moreWdv : State := world 1 { ctx := ctx0 [(1, 0x8000000000000000), (2, 0xFFFFFFFFFFFFFFFF)] }

/-! States of the bytes of transfers. -/

def dbMkw (d : List Word) : State := world 1 { ctx := ctx0 [(1, 0x200000000040), (2, 0)], dma := [{ tag := 0, desc := d, running := true }] } (fun s => { s with tags := [(0,0)], mem := cells 0x1000 [0x1122334455667788, 0x99AABBCCDDEEFF00, 3, 4] ++ cells 0x200000000100 ((List.range 64).map fun i => BitVec.ofNat 64 (0x3F8000003F000000 + i * 0x123456789)) ++ cells 0x200000004000 [0x7F7F7F7F7F7F7F7F, 0x7F7F7F7F80817F7F] })
def dbDsc (k sf df : Nat) (src dst n : Nat) (ds1 : Nat := 0x1000) (aux : Nat := 0) (x : Nat := 0) (sc : Nat := 1) : List Word :=
  [BitVec.ofNat 64 (k * 2^60 + sf * 2^56 + df*2^52 + x), BitVec.ofNat 64 src, BitVec.ofNat 64 dst, BitVec.ofNat 64 (2^48 + 2 * 2^32 + n), BitVec.ofNat 64 8, BitVec.ofNat 64 ds1, BitVec.ofNat 64 aux, BitVec.ofNat 64 sc]

/-! States of the bytes of stage links. -/

def sbSlc (recv : Bool) (peer : Nat) : Nat := 2^63 + recv.toNat*2^62 + 2*2^48 + 1*2^35 + 0*2^22 + 1*2^12 + peer
def sbHdr : List Word := [0, 4096, 0x6000, 0,0,0,0,0]
def sbWs0 := world 1 { ctx := ctx0 [(1, 0), (2, 0x200000000040), (3, 1), (4,0)] } (fun s => regsTo [(0, slOff 0 + 0x10, 4096), (0, slOff 1 + 8, 0x4000), (0, slOff 1 + 0x10, 4096)] { s with mem := cells 0x200000000040 sbHdr ++ cells 0x200000000400 [0x1234] })
def sbWs1 : State := ((regsTo [(0, slOff 0, sbSlc false 1), (0, slOff 1, sbSlc true 0)] sbWs0).setSlEnd 0 { cfg := BitVec.ofNat 64 (sbSlc false 1), size := 4096, credits := [0, 1] }).setSlEnd 1 { cfg := BitVec.ofNat 64 (sbSlc true 0), ring := 0x4000, size := 4096 }
def sbFlt : SlFlight := { src := 0, dst := 1, part := 1, tile := 0, idx := 0, seq := 0, depth := 2, size := 4096, header := sbHdr, payload := 0x6000, len := 4096 }
def sbWs2 : State := State.setSlEnd { sbWs1 with flights := [sbFlt] } 0 { sbWs1.slEnd 0 with credits := [1], seq := 1 }
def sbEnt : SlEntry := { idx := 0, seq := 0, header := sbHdr, landed := 0, tile := 0 }
def sbWs3 : State := State.setSlEnd { sbWs2 with flights := [{ sbFlt with hdrDone := true }] } 1 { sbWs2.slEnd 1 with arriving := [sbEnt] }
def sbFD (n len : Nat) : SlFlight := { (sbWs3.flights.getD 0 {}) with payload := 0x200000000400, done := n, len := len, header := [0, BitVec.ofNat 64 len, 0x6000, 0,0,0,0,0] }
def sbEnt2 : SlEntry := { idx := 0, seq := 0, header := (sbFD 3 64).header, landed := 3, tile := 0 }

/-! States of contributions in order. -/

def rbFilc : Nat := 2^63 + 2^62 + 100
def rbWf0 := world 1 { ctx := ctx0 [(1, 0), (2, 5), (3, 6), (4, 9)] } (fun s => regsTo [(0, filOff 0 + 8, 2^56*2 + 0x8000)] { s with mem := cells 0x8000 [0x3000, 77, 0x2400, 50] })
def rbWf1 := nx (execFilCtlWrite 0 (BitVec.ofNat 64 rbFilc) rbWf0)
def rbWf2 : State := { rbWf1 with rings := rbWf1.rings.map fun (r : FilRing) => { r with tail := 1 } }
def rbWf3 := (rbWf2.setTile 0 { rbWf2.tile 0 with ctx := { (rbWf2.tile 0).ctx with wait := some (.chRecv 0 5 1 2) } })
def rbWf4 := nx (exec (.fillerTaskStart 0) rbWf3)
def rbRxw (ap : Nat) : Nat := 2^63 + 1*2^60 + 7*2^54 + 2*2^40 + ap*2^29
def rbTab0 : List Word := [0x9000, 0xA000, 0xB000, 0xC000]
def rbAlw1 : Nat := 2^63 + 1*2^61 + 1*2^57 + 5*2^32 + 1
def rbWr0 := world 1 { ctx := ctx0 [(1, 0), (2, 3), (3, 0x200000000100), (4, 0), (5, 1), (6, 0x200000000200), (7, 9)] } (fun s => regsTo [(8, albOff 0, 0x10000), (8, albOff 0 + 8, 0x1000*2^32 + 0x1000), (8, rxOff 0 + 8, 32), (8, rxOff 0 + 0x10, 0x8000), (8, rxOff 0 + 0x40, 0x28)] { s with mem := cells 0x8000 rbTab0 ++ cells 0x200000000100 ((List.range 16).map fun i => BitVec.ofNat 64 (0x3F8000003F800000 + i)) ++ cells 0x200000000200 [2^60*0 + 5*2^56, 0,0,0x3F80000000000000,0,0,0,0] })
def rbWr1 := nx (exec (.alGroupValidate 0 (BitVec.ofNat 64 rbAlw1)) rbWr0)
def rbWr2 := nx (exec (.rxCollectiveValidate 0 (BitVec.ofNat 64 (rbRxw 1))) rbWr1)
def rbWk0 := nx (exec (.rxContrib 0 2 1 3 4) rbWr2)
def rbWk1 := nx (exec (.rxGrantRequest 0 0 3 0) rbWk0)
def rbWk2 := nx (exec (.rxGrant 0 0 3 0) rbWk1)
def rbWkr := rbWk0.setColl 0 {rbWk0.coll 0 with shards := [[2^63+ 0x9000,0,0,0]]}

/-! Witnesses. -/

theorem test_witness_StepIdleCounts :
  (let s : State := State.reset
   s.pending = []) := by
  decide +kernel

theorem test_witness_EveryStepKeeps :
  (let s : State := State.reset; let t : State := (nx (step State.reset))
   step s = .next t ∧ s.canonical = true) := by
  exact ⟨rfl, by decide +kernel⟩

theorem test_witness_AluRegisterForms :
  (let s : State := aluW1; let t : Nat := 0; let gd : Reg := 4; let ga : Reg := 1; let gb : Reg := 2
   s.ready t 4 = true) ∧
  (let s : State := aluW1; let t : Nat := 0; let gd : Reg := 4; let ga : Reg := 1; let gb : Reg := 2
   let n : Nat := 61
   (∀ i : Nat, 64 - n ≤ i → (s.g t ga).getLsbD i = false) ∧ s.ready t 4 = true ∧ n ≤ 64 ∧
   (n = 64 ∨ (s.g t ga).getLsbD (63 - n) = true)) ∧
  (let s : State := aluW1; let t : Nat := 0; let gd : Reg := 4; let ga : Reg := 3; let gb : Reg := 2
   let n : Nat := 64
   s.ready t 4 = true ∧ n ≤ 64 ∧ (∀ i : Nat, i < n → (s.g t ga).getLsbD i = false) ∧
   (n = 64 ∨ (s.g t ga).getLsbD n = true)) := by
  refine ⟨by decide +kernel, ?_⟩
  refine ⟨⟨bits_above (by decide +kernel), by decide +kernel⟩, ?_⟩
  decide +kernel

theorem test_witness_AluProducts :
  (let s : State := aluW1; let t : Nat := 0; let gd : Reg := 4; let ga : Reg := 2; let gb : Reg := 3
   s.ready t 4 = true) := by
  decide +kernel

theorem test_witness_ImmediatesAndBranches :
  (let s : State := coreWm; let t : Nat := 0; let gd : Reg := 4; let ga : Reg := 2; let imm : BitVec 16 := 0xFFF0
   let sh : BitVec 6 := 5
   s.ready t 4 = true) ∧
  (let s : State := coreWm; let t : Nat := 0; let gd : Reg := 4; let ga : Reg := 2; let gb : Reg := 2
   let off : BitVec 16 := 0xFFF0; let o26 : BitVec 26 := 5; let pc := (s.tile t).ctx.pc
   let tgt : Int := pc.toNat + 4 * off.toInt
   s.ready t 4 = true ∧ s.g t ga = s.g t gb ∧ (0 ≤ tgt ∧ tgt < 2 ^ 48)) ∧
  (let s : State := coreWmb; let t : Nat := 0; let gd : Reg := 4; let ga : Reg := 3; let gb : Reg := 2
   let off : BitVec 16 := 0x8000; let o26 : BitVec 26 := 0x2000000
   s.ready t 4 = true ∧ ¬(s.g t ga = s.g t gb)) ∧
  (let s : State := coreWmb; let t : Nat := 0; let gd : Reg := 4; let ga : Reg := 2; let gb : Reg := 2
   let off : BitVec 16 := 0x8000; let o26 : BitVec 26 := 0x2000000; let pc := (s.tile t).ctx.pc
   let tgt : Int := pc.toNat + 4 * off.toInt
   s.ready t 4 = true ∧ s.hasHandler t = true ∧ s.g t ga = s.g t gb ∧ (tgt < 0 ∨ 2 ^ 48 ≤ tgt)) ∧
  (let s : State := coreWm; let t : Nat := 0; let gd : Reg := 4; let ga : Reg := 3; let gb : Reg := 2
   let off : BitVec 16 := 0xFFF0; let o26 : BitVec 26 := 5; let pc := (s.tile t).ctx.pc
   let tgt : Int := pc.toNat + 4 * off.toInt
   s.ready t 4 = true ∧ s.g t ga ≠ s.g t gb ∧ (0 ≤ tgt ∧ tgt < 2 ^ 48)) ∧
  (let s : State := coreWmb; let t : Nat := 0; let gd : Reg := 4; let ga : Reg := 2; let gb : Reg := 2
   let off : BitVec 16 := 0x8000; let o26 : BitVec 26 := 0x2000000
   s.ready t 4 = true ∧ ¬(s.g t ga ≠ s.g t gb)) ∧
  (let s : State := coreWmb; let t : Nat := 0; let gd : Reg := 4; let ga : Reg := 3; let gb : Reg := 2
   let off : BitVec 16 := 0x8000; let o26 : BitVec 26 := 0x2000000; let pc := (s.tile t).ctx.pc
   let tgt : Int := pc.toNat + 4 * off.toInt
   s.ready t 4 = true ∧ s.hasHandler t = true ∧ s.g t ga ≠ s.g t gb ∧ (tgt < 0 ∨ 2 ^ 48 ≤ tgt)) ∧
  (let s : State := coreWm; let t : Nat := 0; let gd : Reg := 4; let ga : Reg := 3; let gb : Reg := 2
   let off : BitVec 16 := 0xFFF0; let o26 : BitVec 26 := 5; let pc := (s.tile t).ctx.pc
   let tgt : Int := pc.toNat + 4 * off.toInt
   s.ready t 4 = true ∧ (s.g t ga).toInt < (s.g t gb).toInt ∧ (0 ≤ tgt ∧ tgt < 2 ^ 48)) ∧
  (let s : State := coreWmb; let t : Nat := 0; let gd : Reg := 4; let ga : Reg := 2; let gb : Reg := 2
   let off : BitVec 16 := 0x8000; let o26 : BitVec 26 := 0x2000000
   s.ready t 4 = true ∧ ¬((s.g t ga).toInt < (s.g t gb).toInt)) ∧
  (let s : State := coreWmb; let t : Nat := 0; let gd : Reg := 4; let ga : Reg := 3; let gb : Reg := 2
   let off : BitVec 16 := 0x8000; let o26 : BitVec 26 := 0x2000000; let pc := (s.tile t).ctx.pc
   let tgt : Int := pc.toNat + 4 * off.toInt
   s.ready t 4 = true ∧ s.hasHandler t = true ∧ (s.g t ga).toInt < (s.g t gb).toInt ∧ (tgt < 0 ∨ 2 ^ 48 ≤ tgt)) ∧
  (let s : State := coreWm; let t : Nat := 0; let gd : Reg := 4; let ga : Reg := 2; let gb : Reg := 2
   let off : BitVec 16 := 0xFFF0; let o26 : BitVec 26 := 5; let pc := (s.tile t).ctx.pc
   let tgt : Int := pc.toNat + 4 * off.toInt
   s.ready t 4 = true ∧ (s.g t gb).toInt ≤ (s.g t ga).toInt ∧ (0 ≤ tgt ∧ tgt < 2 ^ 48)) ∧
  (let s : State := coreWmb; let t : Nat := 0; let gd : Reg := 4; let ga : Reg := 3; let gb : Reg := 2
   let off : BitVec 16 := 0x8000; let o26 : BitVec 26 := 0x2000000
   s.ready t 4 = true ∧ ¬((s.g t gb).toInt ≤ (s.g t ga).toInt)) ∧
  (let s : State := coreWmb; let t : Nat := 0; let gd : Reg := 4; let ga : Reg := 2; let gb : Reg := 2
   let off : BitVec 16 := 0x8000; let o26 : BitVec 26 := 0x2000000; let pc := (s.tile t).ctx.pc
   let tgt : Int := pc.toNat + 4 * off.toInt
   s.ready t 4 = true ∧ s.hasHandler t = true ∧ (s.g t gb).toInt ≤ (s.g t ga).toInt ∧ (tgt < 0 ∨ 2 ^ 48 ≤ tgt)) ∧
  (let s : State := coreWm; let t : Nat := 0; let gd : Reg := 4; let ga : Reg := 3; let gb : Reg := 2
   let off : BitVec 16 := 0xFFF0; let o26 : BitVec 26 := 5; let pc := (s.tile t).ctx.pc
   let tgt : Int := pc.toNat + 4 * off.toInt
   s.ready t 4 = true ∧ (s.g t ga).toNat < (s.g t gb).toNat ∧ (0 ≤ tgt ∧ tgt < 2 ^ 48)) ∧
  (let s : State := coreWmb; let t : Nat := 0; let gd : Reg := 4; let ga : Reg := 2; let gb : Reg := 2
   let off : BitVec 16 := 0x8000; let o26 : BitVec 26 := 0x2000000
   s.ready t 4 = true ∧ ¬((s.g t ga).toNat < (s.g t gb).toNat)) ∧
  (let s : State := coreWmb; let t : Nat := 0; let gd : Reg := 4; let ga : Reg := 3; let gb : Reg := 2
   let off : BitVec 16 := 0x8000; let o26 : BitVec 26 := 0x2000000; let pc := (s.tile t).ctx.pc
   let tgt : Int := pc.toNat + 4 * off.toInt
   s.ready t 4 = true ∧ s.hasHandler t = true ∧ (s.g t ga).toNat < (s.g t gb).toNat ∧ (tgt < 0 ∨ 2 ^ 48 ≤ tgt)) ∧
  (let s : State := coreWm; let t : Nat := 0; let gd : Reg := 4; let ga : Reg := 2; let gb : Reg := 2
   let off : BitVec 16 := 0xFFF0; let o26 : BitVec 26 := 5; let pc := (s.tile t).ctx.pc
   let tgt : Int := pc.toNat + 4 * off.toInt
   s.ready t 4 = true ∧ (s.g t gb).toNat ≤ (s.g t ga).toNat ∧ (0 ≤ tgt ∧ tgt < 2 ^ 48)) ∧
  (let s : State := coreWmb; let t : Nat := 0; let gd : Reg := 4; let ga : Reg := 3; let gb : Reg := 2
   let off : BitVec 16 := 0x8000; let o26 : BitVec 26 := 0x2000000
   s.ready t 4 = true ∧ ¬((s.g t gb).toNat ≤ (s.g t ga).toNat)) ∧
  (let s : State := coreWmb; let t : Nat := 0; let gd : Reg := 4; let ga : Reg := 2; let gb : Reg := 2
   let off : BitVec 16 := 0x8000; let o26 : BitVec 26 := 0x2000000; let pc := (s.tile t).ctx.pc
   let tgt : Int := pc.toNat + 4 * off.toInt
   s.ready t 4 = true ∧ s.hasHandler t = true ∧ (s.g t gb).toNat ≤ (s.g t ga).toNat ∧ (tgt < 0 ∨ 2 ^ 48 ≤ tgt)) ∧
  (let s : State := coreWm; let t : Nat := 0; let gd : Reg := 4; let ga : Reg := 2; let gb : Reg := 2
   let off : BitVec 16 := 0xFFF0; let o26 : BitVec 26 := 5; let pc := (s.tile t).ctx.pc
   let far : Int := pc.toNat + 4 * o26.toInt
   s.ready t 4 = true ∧ 0 ≤ far ∧ far < 2 ^ 48) ∧
  (let s : State := coreWmb; let t : Nat := 0; let gd : Reg := 4; let ga : Reg := 2; let gb : Reg := 2
   let off : BitVec 16 := 0x8000; let o26 : BitVec 26 := 0x2000000; let pc := (s.tile t).ctx.pc
   let far : Int := pc.toNat + 4 * o26.toInt
   s.ready t 4 = true ∧ s.hasHandler t = true ∧ (far < 0 ∨ 2 ^ 48 ≤ far)) ∧
  (let s : State := coreWmb; let t : Nat := 0; let gd : Reg := 4; let ga : Reg := 3; let gb : Reg := 2
   let off : BitVec 16 := 0x8000; let o26 : BitVec 26 := 0x2000000
   s.ready t 4 = true ∧ (s.g t ga).toNat < 2 ^ 48 ∧ (s.g t ga).toNat % 4 = 0) := by
  iterate 21 refine ⟨by decide +kernel, ?_⟩
  decide +kernel

theorem test_witness_ScratchpadLoads :
  (let s : State := coreWm; let t : Nat := 0; let gd : Reg := 4; let ga : Reg := 1; let imm : BitVec 16 := 0
   let ea := s.g t ga + BitVec.ofInt 64 imm.toInt
   s.ready t 4 = true ∧ s.ownBytes t ea 1 = true) ∧
  (let s : State := coreWm; let t : Nat := 0; let gd : Reg := 4; let ga : Reg := 1; let imm : BitVec 16 := 0
   let ea := s.g t ga + BitVec.ofInt 64 imm.toInt
   s.ready t 4 = true ∧ s.ownBytes t ea 2 = true) ∧
  (let s : State := coreWm; let t : Nat := 0; let gd : Reg := 4; let ga : Reg := 1; let imm : BitVec 16 := 0
   let ea := s.g t ga + BitVec.ofInt 64 imm.toInt
   s.ready t 4 = true ∧ s.ownBytes t ea 4 = true) ∧
  (let s : State := coreWm; let t : Nat := 0; let gd : Reg := 4; let ga : Reg := 1; let imm : BitVec 16 := 0
   let ea := s.g t ga + BitVec.ofInt 64 imm.toInt
   s.ready t 4 = true ∧ s.ownBytes t ea 8 = true) := by
  iterate 3 refine ⟨by decide +kernel, ?_⟩
  decide +kernel

theorem test_witness_CachedLoads :
  (let s : State := coreWl; let t : Nat := 0; let gd : Reg := 4; let ga : Reg := 1; let imm : BitVec 16 := 0
   let ea := s.g t ga + BitVec.ofInt 64 imm.toInt
   let l : L1Line := ((s.tile t).l1.find (lineOf ea.toNat)).getD {}
   let bs : List Byte := (l.read (ea.toNat % 128) 1).getD []
   s.ready t 4 = true ∧ (s.tile t).l1.find (lineOf ea.toNat) = some l ∧ l.read (ea.toNat % 128) 1 = some bs ∧
   s.dramBytes t ea 1 = true) ∧
  (let s : State := coreWl; let t : Nat := 0; let gd : Reg := 4; let ga : Reg := 1; let imm : BitVec 16 := 0
   let ea := s.g t ga + BitVec.ofInt 64 imm.toInt
   let l : L1Line := ((s.tile t).l1.find (lineOf ea.toNat)).getD {}
   let bs : List Byte := (l.read (ea.toNat % 128) 2).getD []
   s.ready t 4 = true ∧ (s.tile t).l1.find (lineOf ea.toNat) = some l ∧ l.read (ea.toNat % 128) 2 = some bs ∧
   s.dramBytes t ea 2 = true) ∧
  (let s : State := coreWl; let t : Nat := 0; let gd : Reg := 4; let ga : Reg := 1; let imm : BitVec 16 := 0
   let ea := s.g t ga + BitVec.ofInt 64 imm.toInt
   let l : L1Line := ((s.tile t).l1.find (lineOf ea.toNat)).getD {}
   let bs : List Byte := (l.read (ea.toNat % 128) 4).getD []
   s.ready t 4 = true ∧ (s.tile t).l1.find (lineOf ea.toNat) = some l ∧ l.read (ea.toNat % 128) 4 = some bs ∧
   s.dramBytes t ea 4 = true) ∧
  (let s : State := coreWl; let t : Nat := 0; let gd : Reg := 4; let ga : Reg := 1; let imm : BitVec 16 := 0
   let ea := s.g t ga + BitVec.ofInt 64 imm.toInt
   let l : L1Line := ((s.tile t).l1.find (lineOf ea.toNat)).getD {}
   let bs : List Byte := (l.read (ea.toNat % 128) 8).getD []
   s.ready t 4 = true ∧ (s.tile t).l1.find (lineOf ea.toNat) = some l ∧ l.read (ea.toNat % 128) 8 = some bs ∧
   s.dramBytes t ea 8 = true) ∧
  (let s : State := coreWl; let t : Nat := 0; let gd : Reg := 4; let ga : Reg := 1; let imm : BitVec 16 := 0x200
   let ea := s.g t ga + BitVec.ofInt 64 imm.toInt
   s.ready t 4 = true ∧ s.dramBytes t ea 1 = true ∧
   (∀ l : L1Line, (s.tile t).l1.find (lineOf ea.toNat) = some l → l.read (ea.toNat % 128) 1 = none)) ∧
  (let s : State := coreWl; let t : Nat := 0; let gd : Reg := 4; let ga : Reg := 1; let imm : BitVec 16 := 0x200
   let ea := s.g t ga + BitVec.ofInt 64 imm.toInt
   s.ready t 4 = true ∧ s.dramBytes t ea 2 = true ∧
   (∀ l : L1Line, (s.tile t).l1.find (lineOf ea.toNat) = some l → l.read (ea.toNat % 128) 2 = none)) ∧
  (let s : State := coreWl; let t : Nat := 0; let gd : Reg := 4; let ga : Reg := 1; let imm : BitVec 16 := 0x200
   let ea := s.g t ga + BitVec.ofInt 64 imm.toInt
   s.ready t 4 = true ∧ s.dramBytes t ea 4 = true ∧
   (∀ l : L1Line, (s.tile t).l1.find (lineOf ea.toNat) = some l → l.read (ea.toNat % 128) 4 = none)) ∧
  (let s : State := coreWl; let t : Nat := 0; let gd : Reg := 4; let ga : Reg := 1; let imm : BitVec 16 := 0x200
   let ea := s.g t ga + BitVec.ofInt 64 imm.toInt
   s.ready t 4 = true ∧ s.dramBytes t ea 8 = true ∧
   (∀ l : L1Line, (s.tile t).l1.find (lineOf ea.toNat) = some l → l.read (ea.toNat % 128) 8 = none)) := by
  iterate 7 refine ⟨by decide +kernel, ?_⟩
  decide +kernel

theorem test_witness_ScratchpadStores :
  (let s : State := coreWm; let t : Nat := 0; let gd : Reg := 2; let ga : Reg := 1; let imm : BitVec 16 := 8
   let ea := s.g t ga + BitVec.ofInt 64 imm.toInt
   s.canonical = true ∧ s.ready t 4 = true ∧ s.ownBytes t ea 1 = true) ∧
  (let s : State := coreWm; let t : Nat := 0; let gd : Reg := 2; let ga : Reg := 1; let imm : BitVec 16 := 8
   let ea := s.g t ga + BitVec.ofInt 64 imm.toInt
   s.canonical = true ∧ s.ready t 4 = true ∧ s.ownBytes t ea 2 = true) ∧
  (let s : State := coreWm; let t : Nat := 0; let gd : Reg := 2; let ga : Reg := 1; let imm : BitVec 16 := 8
   let ea := s.g t ga + BitVec.ofInt 64 imm.toInt
   s.canonical = true ∧ s.ready t 4 = true ∧ s.ownBytes t ea 4 = true) ∧
  (let s : State := coreWm; let t : Nat := 0; let gd : Reg := 2; let ga : Reg := 1; let imm : BitVec 16 := 8
   let ea := s.g t ga + BitVec.ofInt 64 imm.toInt
   s.canonical = true ∧ s.ready t 4 = true ∧ s.ownBytes t ea 8 = true) ∧
  (let s : State := coreWm; let t : Nat := 0; let gd : Reg := 2; let ga : Reg := 1; let imm : BitVec 16 := 8
   let ea := s.g t ga + BitVec.ofInt 64 imm.toInt; let k : Nat := 0
   s.canonical = true ∧ s.ready t 4 = true ∧ s.ownBytes t ea 1 = true ∧ k < 1) ∧
  (let s : State := coreWm; let t : Nat := 0; let gd : Reg := 2; let ga : Reg := 1; let imm : BitVec 16 := 8
   let ea := s.g t ga + BitVec.ofInt 64 imm.toInt; let a : Nat := 0
   s.canonical = true ∧ s.ready t 4 = true ∧ s.ownBytes t ea 1 = true ∧ (a < ea.toNat ∨ ea.toNat + 1 ≤ a)) ∧
  (let s : State := coreWm; let t : Nat := 0; let gd : Reg := 2; let ga : Reg := 1; let imm : BitVec 16 := 8
   let ea := s.g t ga + BitVec.ofInt 64 imm.toInt; let u : Nat := 1
   s.canonical = true ∧ s.ready t 4 = true ∧ s.ownBytes t ea 1 = true ∧ u ≠ t) ∧
  (let s : State := coreWm; let t : Nat := 0; let gd : Reg := 2; let ga : Reg := 1; let imm : BitVec 16 := 8
   let ea := s.g t ga + BitVec.ofInt 64 imm.toInt; let k : Nat := 0
   s.canonical = true ∧ s.ready t 4 = true ∧ s.ownBytes t ea 2 = true ∧ k < 2) ∧
  (let s : State := coreWm; let t : Nat := 0; let gd : Reg := 2; let ga : Reg := 1; let imm : BitVec 16 := 8
   let ea := s.g t ga + BitVec.ofInt 64 imm.toInt; let a : Nat := 0
   s.canonical = true ∧ s.ready t 4 = true ∧ s.ownBytes t ea 2 = true ∧ (a < ea.toNat ∨ ea.toNat + 2 ≤ a)) ∧
  (let s : State := coreWm; let t : Nat := 0; let gd : Reg := 2; let ga : Reg := 1; let imm : BitVec 16 := 8
   let ea := s.g t ga + BitVec.ofInt 64 imm.toInt; let u : Nat := 1
   s.canonical = true ∧ s.ready t 4 = true ∧ s.ownBytes t ea 2 = true ∧ u ≠ t) ∧
  (let s : State := coreWm; let t : Nat := 0; let gd : Reg := 2; let ga : Reg := 1; let imm : BitVec 16 := 8
   let ea := s.g t ga + BitVec.ofInt 64 imm.toInt; let k : Nat := 0
   s.canonical = true ∧ s.ready t 4 = true ∧ s.ownBytes t ea 4 = true ∧ k < 4) ∧
  (let s : State := coreWm; let t : Nat := 0; let gd : Reg := 2; let ga : Reg := 1; let imm : BitVec 16 := 8
   let ea := s.g t ga + BitVec.ofInt 64 imm.toInt; let a : Nat := 0
   s.canonical = true ∧ s.ready t 4 = true ∧ s.ownBytes t ea 4 = true ∧ (a < ea.toNat ∨ ea.toNat + 4 ≤ a)) ∧
  (let s : State := coreWm; let t : Nat := 0; let gd : Reg := 2; let ga : Reg := 1; let imm : BitVec 16 := 8
   let ea := s.g t ga + BitVec.ofInt 64 imm.toInt; let u : Nat := 1
   s.canonical = true ∧ s.ready t 4 = true ∧ s.ownBytes t ea 4 = true ∧ u ≠ t) ∧
  (let s : State := coreWm; let t : Nat := 0; let gd : Reg := 2; let ga : Reg := 1; let imm : BitVec 16 := 8
   let ea := s.g t ga + BitVec.ofInt 64 imm.toInt; let k : Nat := 0
   s.canonical = true ∧ s.ready t 4 = true ∧ s.ownBytes t ea 8 = true ∧ k < 8) ∧
  (let s : State := coreWm; let t : Nat := 0; let gd : Reg := 2; let ga : Reg := 1; let imm : BitVec 16 := 8
   let ea := s.g t ga + BitVec.ofInt 64 imm.toInt; let a : Nat := 0
   s.canonical = true ∧ s.ready t 4 = true ∧ s.ownBytes t ea 8 = true ∧ (a < ea.toNat ∨ ea.toNat + 8 ≤ a)) ∧
  (let s : State := coreWm; let t : Nat := 0; let gd : Reg := 2; let ga : Reg := 1; let imm : BitVec 16 := 8
   let ea := s.g t ga + BitVec.ofInt 64 imm.toInt; let u : Nat := 1
   s.canonical = true ∧ s.ready t 4 = true ∧ s.ownBytes t ea 8 = true ∧ u ≠ t) := by
  iterate 15 refine ⟨by decide +kernel, ?_⟩
  decide +kernel

theorem test_witness_CachedStores :
  (let s : State := coreWl; let t : Nat := 0; let gd : Reg := 2; let ga : Reg := 1; let imm : BitVec 16 := 0x0
   let ea := s.g t ga + BitVec.ofInt 64 imm.toInt; let line := lineOf ea.toNat
   s.ready t 4 = true ∧
   (((s.tile t).l1.lines.filter fun y => y.addr / 128 % 64 == line / 128 % 64 && y.addr != line).length < 8) ∧
   s.dramBytes t ea 1 = true) ∧
  (let s : State := coreWl; let t : Nat := 0; let gd : Reg := 2; let ga : Reg := 1; let imm : BitVec 16 := 0x0
   let ea := s.g t ga + BitVec.ofInt 64 imm.toInt; let line := lineOf ea.toNat
   s.ready t 4 = true ∧
   (((s.tile t).l1.lines.filter fun y => y.addr / 128 % 64 == line / 128 % 64 && y.addr != line).length < 8) ∧
   s.dramBytes t ea 2 = true) ∧
  (let s : State := coreWl; let t : Nat := 0; let gd : Reg := 2; let ga : Reg := 1; let imm : BitVec 16 := 0x0
   let ea := s.g t ga + BitVec.ofInt 64 imm.toInt; let line := lineOf ea.toNat
   s.ready t 4 = true ∧
   (((s.tile t).l1.lines.filter fun y => y.addr / 128 % 64 == line / 128 % 64 && y.addr != line).length < 8) ∧
   s.dramBytes t ea 4 = true) ∧
  (let s : State := coreWl; let t : Nat := 0; let gd : Reg := 2; let ga : Reg := 1; let imm : BitVec 16 := 0x0
   let ea := s.g t ga + BitVec.ofInt 64 imm.toInt; let line := lineOf ea.toNat
   s.ready t 4 = true ∧
   (((s.tile t).l1.lines.filter fun y => y.addr / 128 % 64 == line / 128 % 64 && y.addr != line).length < 8) ∧
   s.dramBytes t ea 8 = true) ∧
  (let s : State := coreWl; let t : Nat := 0; let gd : Reg := 2; let ga : Reg := 1; let imm : BitVec 16 := 0x0
   let ea := s.g t ga + BitVec.ofInt 64 imm.toInt; let line := lineOf ea.toNat; let k : Nat := 0
   s.ready t 4 = true ∧
   (((s.tile t).l1.lines.filter fun y => y.addr / 128 % 64 == line / 128 % 64 && y.addr != line).length < 8) ∧
   s.dramBytes t ea 1 = true ∧ k < 1) ∧
  (let s : State := coreWl; let t : Nat := 0; let gd : Reg := 2; let ga : Reg := 1; let imm : BitVec 16 := 0x0
   let ea := s.g t ga + BitVec.ofInt 64 imm.toInt; let line := lineOf ea.toNat; let k : Nat := 0
   s.ready t 4 = true ∧
   (((s.tile t).l1.lines.filter fun y => y.addr / 128 % 64 == line / 128 % 64 && y.addr != line).length < 8) ∧
   s.dramBytes t ea 2 = true ∧ k < 2) ∧
  (let s : State := coreWl; let t : Nat := 0; let gd : Reg := 2; let ga : Reg := 1; let imm : BitVec 16 := 0x0
   let ea := s.g t ga + BitVec.ofInt 64 imm.toInt; let line := lineOf ea.toNat; let k : Nat := 0
   s.ready t 4 = true ∧
   (((s.tile t).l1.lines.filter fun y => y.addr / 128 % 64 == line / 128 % 64 && y.addr != line).length < 8) ∧
   s.dramBytes t ea 4 = true ∧ k < 4) ∧
  (let s : State := coreWl; let t : Nat := 0; let gd : Reg := 2; let ga : Reg := 1; let imm : BitVec 16 := 0x0
   let ea := s.g t ga + BitVec.ofInt 64 imm.toInt; let line := lineOf ea.toNat; let k : Nat := 0
   s.ready t 4 = true ∧
   (((s.tile t).l1.lines.filter fun y => y.addr / 128 % 64 == line / 128 % 64 && y.addr != line).length < 8) ∧
   s.dramBytes t ea 8 = true ∧ k < 8) := by
  iterate 7 refine ⟨by decide +kernel, ?_⟩
  decide +kernel

theorem test_witness_CacheAndFence :
  (let s : State := moreWcq; let t : Nat := 0; let line : Nat := 0x5000; let ga : Reg := 1; let gb : Reg := 4
   let fn : BitVec 9 := 0x1FF; let p := (s.tile t).part
   s.ready t 4 = true ∧ (s.g t gb ≠ 0 → s.dramTrap p (s.g t ga).toNat (s.g t gb).toNat = none)) ∧
  (let s : State := coreWl; let t : Nat := 0; let line : Nat := 0x5000; let ga : Reg := 1; let gb : Reg := 4
   let fn : BitVec 9 := 0
   s.ready t 4 = true ∧ s.fencePassed t fn.toNat = true) ∧
  (let s : State := moreWcq; let t : Nat := 0; let line : Nat := 0x5000; let ga : Reg := 1; let gb : Reg := 4
   let fn : BitVec 9 := 0x1FF
   s.ready t 4 = true ∧ s.fencePassed t fn.toNat = false) ∧
  (let s : State := coreWl; let t : Nat := 0; let line : Nat := 0x5000; let ga : Reg := 1; let gb : Reg := 4
   let fn : BitVec 9 := 0; let pf : Bool := false
   ((s.tile t).l1.fills.find? (fun f => f.1 == line) = some (line, pf))) ∧
  (let s : State := moreWcq; let t : Nat := 0; let line : Nat := 0x5000; let ga : Reg := 1; let gb : Reg := 4
   let fn : BitVec 9 := 0x1FF; let p := (s.tile t).part
   s.ready t 4 = true ∧ (s.g t gb ≠ 0 → s.dramTrap p (s.g t ga).toNat (s.g t gb).toNat = none) ∧ s.g t gb = 0) := by
  iterate 4 refine ⟨by decide +kernel, ?_⟩
  decide +kernel

theorem test_witness_ControlRegisters :
  (let s : State := coreWl; let t : Nat := 0; let gd : Reg := 3; let ga : Reg := 2; let num : BitVec 12 := 0x0
   let old : Word := 0; let n := num.toNat
   s.ready t 4 = true ∧ s.csrRead t n = some old ∧ n < 0x201) ∧
  (let s : State := dmaWs1; let t : Nat := 0; let gd : Reg := 3; let ga : Reg := 2; let num : BitVec 12 := 0x201
   let old : Word := 0; let n := num.toNat
   s.ready t 4 = true ∧ s.csrRead t n = some old ∧ 0x201 ≤ n) ∧
  (let s : State := coreWl; let t : Nat := 0; let gd : Reg := 3; let ga : Reg := 2; let num : BitVec 12 := 0x34
   let old : Word := 0; let n := num.toNat
   s.ready t 4 = true ∧ n ∈ [0x10, 0x11, 0x20, 0x21, 0x22, 0x23, 0x30, 0x31, 0x32, 0x33, 0x34]) ∧
  (let s : State := coreWl; let t : Nat := 0; let gd : Reg := 3; let ga : Reg := 2; let num : BitVec 12 := 0x0
   let old : Word := 0; let n := num.toNat
   s.ready t 4 = true ∧ s.hasHandler t = true ∧ csrMask n = none) := by
  iterate 3 refine ⟨by decide +kernel, ?_⟩
  decide +kernel

theorem test_witness_TrapsAndReturn :
  (let s : State := coreWl; let t : Nat := 0; let ga : Reg := 2; let w0 : BitVec 32 := 0; let w1 : BitVec 32 := 0
   s.ready t 4 = true ∧ s.hasHandler t = true) ∧
  (let s : State := coreWl; let t : Nat := 0; let ga : Reg := 2; let w0 : BitVec 32 := 0; let w1 : BitVec 32 := 0
   illegalWords w0 w1 = true ∧ s.ready t (wordLen w0) = true ∧ s.hasHandler t = true) ∧
  (let s : State := (nx (exec (.trap 0 2) coreWl)); let t : Nat := 0; let ga : Reg := 2
   let w0 : BitVec 32 := 0xFFFFFFFF; let w1 : BitVec 32 := 0xFFFFFFFF
   s.ready t 4 = true ∧ bitOf ((s.tile t).ctx.cs 0x14) 0 = true) ∧
  (let s : State := coreWl; let t : Nat := 0; let ga : Reg := 2; let w0 : BitVec 32 := 0; let w1 : BitVec 32 := 0
   s.ready t 4 = true ∧ s.fencePassed t 0x1FF = true ∧ s.inFiller t = false) ∧
  (let s : State := (world 1 { ctx := ctx0 [(2,77)] [], saved := some (ctx0 [(1, 4)]) })
   let t : Nat := 0; let ga : Reg := 2; let w0 : BitVec 32 := 0; let w1 : BitVec 32 := 0
   let c : Ctx := ((s.tile t).saved).getD {}
   s.ready t 4 = true ∧ s.fencePassed t 0x1FF = true ∧ (s.tile t).saved = some c) ∧
  (let s : State := (world 1 { ctx := ctx0 [(2,77)] [], vecq := [{}] })
   let t : Nat := 0; let ga : Reg := 2; let w0 : BitVec 32 := 0; let w1 : BitVec 32 := 0
   s.ready t 4 = true ∧ s.fencePassed t 0x1FF = false) ∧
  (let s : State := (nx (exec (.trap 0 2) coreWl)); let t : Nat := 0; let ga : Reg := 2
   let w0 : BitVec 32 := 0xFFFFFFFF; let w1 : BitVec 32 := 0xFFFFFFFF; let n : Nat := 0
   s.ready t 4 = true ∧ bitOf ((s.tile t).ctx.cs 0x14) 0 = true ∧ n ≠ 0x14) ∧
  (let s : State := (world 1 { ctx := ctx0 [(2,77)] [], saved := some (ctx0 [(1, 4)]) })
   let t : Nat := 0; let ga : Reg := 2; let w0 : BitVec 32 := 0; let w1 : BitVec 32 := 0
   let c : Ctx := ((s.tile t).saved).getD {}
   s.ready t 4 = true ∧ s.fencePassed t 0x1FF = true ∧ (s.tile t).saved = some c ∧ s.unitsIdle t = true) ∧
  (let s : State := coreWtf; let t : Nat := 0; let ga : Reg := 2; let w0 : BitVec 32 := 0; let w1 : BitVec 32 := 0
   let c : Ctx := ((s.tile t).saved).getD {}
   s.ready t 4 = true ∧ s.fencePassed t 0x1FF = true ∧ (s.tile t).saved = some c ∧ s.unitsIdle t = false) ∧
  (let s : State := (world 1 { ctx := ctx0 [(2,77)] [] })
   let t : Nat := 0; let ga : Reg := 2; let w0 : BitVec 32 := 0; let w1 : BitVec 32 := 0
   t < 768 ∧ s.hasHandler t = false ∧ s.ready t 4 = true ∧ s.inFiller t = false) ∧
  (let s : State := (world 1 { ctx := ctx0 [(2,77)] [] })
   let t : Nat := 0; let ga : Reg := 2; let w0 : BitVec 32 := 0; let w1 : BitVec 32 := 0
   t < 768 ∧ s.hasHandler t = false ∧ illegalWords w0 w1 = true ∧ s.ready t (wordLen w0) = true ∧ s.inFiller t = false) ∧
  (let s : State := (world 1 { ctx := ctx0 [(2,77)] [], saved := some (ctx0 [(1, 4)]) })
   let t : Nat := 0; let ga : Reg := 2; let w0 : BitVec 32 := 0; let w1 : BitVec 32 := 0
   t < 768 ∧ s.hasHandler t = false ∧ s.ready t 4 = true ∧ s.inFiller t = true) ∧
  (let s : State := (world 1 { ctx := ctx0 [(2,77)] [], saved := some (ctx0 [(1, 4)]) })
   let t : Nat := 0; let ga : Reg := 2; let w0 : BitVec 32 := 0; let w1 : BitVec 32 := 0
   t < 768 ∧ s.hasHandler t = false ∧ illegalWords w0 w1 = true ∧ s.ready t (wordLen w0) = true ∧ s.inFiller t = true) := by
  iterate 12 refine ⟨by decide +kernel, ?_⟩
  decide +kernel

theorem test_witness_FetchAndAddressTraps :
  (let s : State := (world 1 { ctx := { ctx0 [(1,0x300000000000)] with pc := 0x300000 } })
   let t : Nat := 0; let gd : Reg := 3; let ga : Reg := 1; let gb : Reg := 1; let imm : BitVec 16 := 0x1
   let x := s.tile t
   s.hasHandler t = true ∧ x.live = true ∧ x.ending = false ∧ x.ctx.wait = none ∧
   s.inDramOf x.part x.ctx.pc.toNat 4 = false) ∧
  (let s : State := coreWl; let t : Nat := 0; let gd : Reg := 3; let ga : Reg := 2; let gb : Reg := 1
   let imm : BitVec 16 := 0x1; let ea := s.g t ga + BitVec.ofInt 64 imm.toInt
   s.hasHandler t = true ∧ s.ready t 4 = true ∧ 2 ^ 48 ≤ ea.toNat) ∧
  (let s : State := (world 1 { ctx := ctx0 [(1,0x300000000000)] })
   let t : Nat := 0; let gd : Reg := 3; let ga : Reg := 1; let gb : Reg := 1; let imm : BitVec 16 := 0x1
   let ea := s.g t ga + BitVec.ofInt 64 imm.toInt
   s.hasHandler t = true ∧ s.ready t 4 = true ∧ 0x300000000000 ≤ ea.toNat ∧ ea.toNat < 0x300C00000000) ∧
  (let s : State := (world 1 { ctx := ctx0 [(1,0x2001)] })
   let t : Nat := 0; let gd : Reg := 3; let ga : Reg := 1; let gb : Reg := 1; let imm : BitVec 16 := 0x0
   let x := s.tile t; let ea := s.g t ga + BitVec.ofInt 64 imm.toInt
   s.hasHandler t = true ∧ s.ready t 4 = true ∧ isDram ea.toNat = true ∧ s.stackPresent (ea.toNat / 2 ^ 36) = true ∧
   s.inDramOf x.part ea.toNat 8 = true ∧ ea.toNat % 8 ≠ 0) := by
  iterate 3 refine ⟨by decide +kernel, ?_⟩
  decide +kernel

set_option synthInstance.maxSize 4000 in
theorem test_witness_DmaTransfers :
  (let s : State := matWd; let t : Nat := 0; let pick : Nat := 0; let tag : Nat := 0; let gd : Reg := 5
   let ga : Reg := 1; let a := (s.g t ga).toNat; let ws := (s.descWords a 8).1
   (∃ g0 : Nat, g0 / 2048 = t / 96 ∧ ∀ h ∈ s.tags, h.1 ≠ g0) ∧ s.ready t 4 = true ∧ s.spErr = [] ∧
   s.checkOwn t a 64 64 .dmaDescriptor (s.g t ga) = none ∧ s.cutPending a 64 = false ∧ dmaOk ws = true ∧
   s.extsCheck t (dmaOf ws) = none ∧ ((s.tags.filter fun h => h.2 == t).length < 256)) ∧
  (let s : State := matWd3; let t : Nat := 0; let pick : Nat := 0; let tag : Nat := 0; let gd : Reg := 5
   let ga : Reg := 2
   let d : DmaXfer := (s.heldXfer t (s.g t ga)).getD {}
   let w : Word := (d.status).getD 0
   s.ready t 4 = true ∧ s.heldXfer t (s.g t ga) = some d ∧ d.status = some w) ∧
  (let s : State := matWd2; let t : Nat := 0; let pick : Nat := 0; let tag : Nat := 0; let gd : Reg := 5
   let ga : Reg := 2
   let d : DmaXfer := (s.heldXfer t (s.g t ga)).getD {}
   s.ready t 4 = true ∧ s.heldXfer t (s.g t ga) = some d ∧ d.status = none) ∧
  (let s : State := matWd2; let t : Nat := 0; let pick : Nat := 0; let tag : Nat := 0; let gd : Reg := 5
   let ga : Reg := 2
   let x : DmaXfer := ((s.tile t).dma.find? (fun d => d.tag == tag)).getD {}
   ((s.tile t).dma.find? (fun d => d.tag == tag) = some x) ∧ (s.tile t).live = true ∧ (s.tile t).ending = false ∧
   x.running = true ∧ x.waiting = false ∧ x.status = none ∧ s.handles = []) ∧
  (let s : State := matWd2; let t : Nat := 0; let pick : Nat := 0; let tag : Nat := 0; let gd : Reg := 5
   let ga : Reg := 2; let a := (s.g t ga).toNat
   let x : DmaXfer := ((s.tile t).dma.find? (fun d => d.tag == tag)).getD {}
   let d := dmaOf x.desc; let p := (s.tile t).part
   let src (i j : Nat) : Nat := (rowAt d.src d.ss2 d.ss1 i j).toNat
   let dst (i j : Nat) : Nat := (rowAt d.dst d.ds2 d.ds1 i j).toNat
   let inSp (a n : Nat) : Prop := 0x200000000000 ≤ a ∧ a + n ≤ 0x300000000000
   let inDram (a n : Nat) : Prop := a + n ≤ dramTop ∧ s.unregulated p ∧ s.sound p a n
   ((s.tile t).dma.find? (fun d => d.tag == tag) = some x) ∧ (s.tile t).ending = false ∧ x.running = true ∧
   x.waiting = false ∧ x.status = none ∧ x.refused = false ∧ x.slot = none ∧ s.handles = [] ∧ s.spErr = [] ∧
   s.canonical = true ∧ d.kind ≤ 4 ∧ d.dstBlock = false ∧ d.overlaps = false ∧
   (∀ i : Nat, i < d.cnt2 → ∀ j : Nat, j < d.cnt1 → ∀ k : Nat, k < d.cnt2 → ∀ l : Nat, l < d.cnt1 → (i, j) ≠ (k, l) → dst i j + d.dstRow ≤ dst k l ∨ dst k l + d.dstRow ≤ dst i j) ∧
   (∀ i : Nat, i < d.cnt2 → ∀ j : Nat, j < d.cnt1 → (d.kind ≠ 1 → inSp (src i j) d.srcRow ∨ (d.kind = 0 ∧
   inDram (src i j) d.srcRow)) ∧ (d.srcBlock = true → inSp (rowAt d.scaleBase d.sc2 d.sc1 i j).toNat d.scaleRow) ∧
   (inSp (dst i j) d.dstRow ∨ (d.kind ≤ 1 ∧ inDram (dst i j) d.dstRow)))) ∧
  (let s : State := matWd2; let t : Nat := 0; let pick : Nat := 0; let tag : Nat := 0; let gd : Reg := 5
   let ga : Reg := 1; let a := (s.g t ga).toNat; let ws := (s.descWords a 8).1; let h := (s.tags).headD (0, 0)
   (∃ g0 : Nat, g0 / 2048 = t / 96 ∧ ∀ h ∈ s.tags, h.1 ≠ g0) ∧ s.ready t 4 = true ∧ s.spErr = [] ∧
   s.checkOwn t a 64 64 .dmaDescriptor (s.g t ga) = none ∧ s.cutPending a 64 = false ∧ dmaOk ws = true ∧
   s.extsCheck t (dmaOf ws) = none ∧ ((s.tags.filter fun h => h.2 == t).length < 256) ∧ h ∈ s.tags) ∧
  (let s : State := matWd2; let t : Nat := 0; let pick : Nat := 0; let tag : Nat := 0; let gd : Reg := 5
   let ga : Reg := 2; let a := (s.g t ga).toNat
   let x : DmaXfer := ((s.tile t).dma.find? (fun d => d.tag == tag)).getD {}
   let d := dmaOf x.desc; let p := (s.tile t).part
   let src (i j : Nat) : Nat := (rowAt d.src d.ss2 d.ss1 i j).toNat
   let dst (i j : Nat) : Nat := (rowAt d.dst d.ds2 d.ds1 i j).toNat
   let inSp (a n : Nat) : Prop := 0x200000000000 ≤ a ∧ a + n ≤ 0x300000000000
   let inDram (a n : Nat) : Prop := a + n ≤ dramTop ∧ s.unregulated p ∧ s.sound p a n
   let i : Nat := 0; let j : Nat := 0; let k : Nat := 0
   ((s.tile t).dma.find? (fun d => d.tag == tag) = some x) ∧ (s.tile t).ending = false ∧ x.running = true ∧
   x.waiting = false ∧ x.status = none ∧ x.refused = false ∧ x.slot = none ∧ s.handles = [] ∧ s.spErr = [] ∧
   s.canonical = true ∧ d.kind ≤ 4 ∧ d.dstBlock = false ∧ d.overlaps = false ∧
   (∀ i : Nat, i < d.cnt2 → ∀ j : Nat, j < d.cnt1 → ∀ k : Nat, k < d.cnt2 → ∀ l : Nat, l < d.cnt1 → (i, j) ≠ (k, l) → dst i j + d.dstRow ≤ dst k l ∨ dst k l + d.dstRow ≤ dst i j) ∧
   (∀ i : Nat, i < d.cnt2 → ∀ j : Nat, j < d.cnt1 → (d.kind ≠ 1 → inSp (src i j) d.srcRow ∨ (d.kind = 0 ∧
   inDram (src i j) d.srcRow)) ∧ (d.srcBlock = true → inSp (rowAt d.scaleBase d.sc2 d.sc1 i j).toNat d.scaleRow) ∧
   (inSp (dst i j) d.dstRow ∨ (d.kind ≤ 1 ∧ inDram (dst i j) d.dstRow))) ∧ i < d.cnt2 ∧ j < d.cnt1 ∧ d.kind = 0 ∧
   k < d.len0) ∧
  (let s : State := (dbMkw (dbDsc 1 0 0 0 0x5001 13 0x1000 0x1122334455667788))
   let t : Nat := 0; let pick : Nat := 0; let tag : Nat := 0; let gd : Reg := 5; let ga : Reg := 2
   let a := (s.g t ga).toNat
   let x : DmaXfer := ((s.tile t).dma.find? (fun d => d.tag == tag)).getD {}
   let d := dmaOf x.desc; let p := (s.tile t).part
   let src (i j : Nat) : Nat := (rowAt d.src d.ss2 d.ss1 i j).toNat
   let dst (i j : Nat) : Nat := (rowAt d.dst d.ds2 d.ds1 i j).toNat
   let inSp (a n : Nat) : Prop := 0x200000000000 ≤ a ∧ a + n ≤ 0x300000000000
   let inDram (a n : Nat) : Prop := a + n ≤ dramTop ∧ s.unregulated p ∧ s.sound p a n
   let i : Nat := 0; let j : Nat := 0; let k : Nat := 0
   ((s.tile t).dma.find? (fun d => d.tag == tag) = some x) ∧ (s.tile t).ending = false ∧ x.running = true ∧
   x.waiting = false ∧ x.status = none ∧ x.refused = false ∧ x.slot = none ∧ s.handles = [] ∧ s.spErr = [] ∧
   s.canonical = true ∧ d.kind ≤ 4 ∧ d.dstBlock = false ∧ d.overlaps = false ∧
   (∀ i : Nat, i < d.cnt2 → ∀ j : Nat, j < d.cnt1 → ∀ k : Nat, k < d.cnt2 → ∀ l : Nat, l < d.cnt1 → (i, j) ≠ (k, l) → dst i j + d.dstRow ≤ dst k l ∨ dst k l + d.dstRow ≤ dst i j) ∧
   (∀ i : Nat, i < d.cnt2 → ∀ j : Nat, j < d.cnt1 → (d.kind ≠ 1 → inSp (src i j) d.srcRow ∨ (d.kind = 0 ∧
   inDram (src i j) d.srcRow)) ∧ (d.srcBlock = true → inSp (rowAt d.scaleBase d.sc2 d.sc1 i j).toNat d.scaleRow) ∧
   (inSp (dst i j) d.dstRow ∨ (d.kind ≤ 1 ∧ inDram (dst i j) d.dstRow))) ∧ i < d.cnt2 ∧ j < d.cnt1 ∧ d.kind = 1 ∧
   k < d.len0) ∧
  (let s : State := (dbMkw (dbDsc 2 7 5 35184372089088 35184372121600 4 0x1000 0 0 0))
   let t : Nat := 0; let pick : Nat := 0; let tag : Nat := 0; let gd : Reg := 5; let ga : Reg := 2
   let a := (s.g t ga).toNat
   let x : DmaXfer := ((s.tile t).dma.find? (fun d => d.tag == tag)).getD {}
   let d := dmaOf x.desc; let p := (s.tile t).part
   let src (i j : Nat) : Nat := (rowAt d.src d.ss2 d.ss1 i j).toNat
   let dst (i j : Nat) : Nat := (rowAt d.dst d.ds2 d.ds1 i j).toNat
   let inSp (a n : Nat) : Prop := 0x200000000000 ≤ a ∧ a + n ≤ 0x300000000000
   let inDram (a n : Nat) : Prop := a + n ≤ dramTop ∧ s.unregulated p ∧ s.sound p a n
   let i : Nat := 0; let j : Nat := 0
   ((s.tile t).dma.find? (fun d => d.tag == tag) = some x) ∧ (s.tile t).ending = false ∧ x.running = true ∧
   x.waiting = false ∧ x.status = none ∧ x.refused = false ∧ x.slot = none ∧ s.handles = [] ∧ s.spErr = [] ∧
   s.canonical = true ∧ d.kind ≤ 4 ∧ d.dstBlock = false ∧ d.overlaps = false ∧
   (∀ i : Nat, i < d.cnt2 → ∀ j : Nat, j < d.cnt1 → ∀ k : Nat, k < d.cnt2 → ∀ l : Nat, l < d.cnt1 → (i, j) ≠ (k, l) → dst i j + d.dstRow ≤ dst k l ∨ dst k l + d.dstRow ≤ dst i j) ∧
   (∀ i : Nat, i < d.cnt2 → ∀ j : Nat, j < d.cnt1 → (d.kind ≠ 1 → inSp (src i j) d.srcRow ∨ (d.kind = 0 ∧
   inDram (src i j) d.srcRow)) ∧ (d.srcBlock = true → inSp (rowAt d.scaleBase d.sc2 d.sc1 i j).toNat d.scaleRow) ∧
   (inSp (dst i j) d.dstRow ∨ (d.kind ≤ 1 ∧ inDram (dst i j) d.dstRow))) ∧ i < d.cnt2 ∧ j < d.cnt1 ∧ d.kind = 2) ∧
  (let s : State := (dbMkw (dbDsc 3 5 0 35184372089088 35184372121600 60 0x1000 0 0 0))
   let t : Nat := 0; let pick : Nat := 0; let tag : Nat := 0; let gd : Reg := 5; let ga : Reg := 2
   let a := (s.g t ga).toNat
   let x : DmaXfer := ((s.tile t).dma.find? (fun d => d.tag == tag)).getD {}
   let d := dmaOf x.desc; let p := (s.tile t).part
   let src (i j : Nat) : Nat := (rowAt d.src d.ss2 d.ss1 i j).toNat
   let dst (i j : Nat) : Nat := (rowAt d.dst d.ds2 d.ds1 i j).toNat
   let inSp (a n : Nat) : Prop := 0x200000000000 ≤ a ∧ a + n ≤ 0x300000000000
   let inDram (a n : Nat) : Prop := a + n ≤ dramTop ∧ s.unregulated p ∧ s.sound p a n
   let i : Nat := 0; let j : Nat := 0
   ((s.tile t).dma.find? (fun d => d.tag == tag) = some x) ∧ (s.tile t).ending = false ∧ x.running = true ∧
   x.waiting = false ∧ x.status = none ∧ x.refused = false ∧ x.slot = none ∧ s.handles = [] ∧ s.spErr = [] ∧
   s.canonical = true ∧ d.kind ≤ 4 ∧ d.dstBlock = false ∧ d.overlaps = false ∧
   (∀ i : Nat, i < d.cnt2 → ∀ j : Nat, j < d.cnt1 → ∀ k : Nat, k < d.cnt2 → ∀ l : Nat, l < d.cnt1 → (i, j) ≠ (k, l) → dst i j + d.dstRow ≤ dst k l ∨ dst k l + d.dstRow ≤ dst i j) ∧
   (∀ i : Nat, i < d.cnt2 → ∀ j : Nat, j < d.cnt1 → (d.kind ≠ 1 → inSp (src i j) d.srcRow ∨ (d.kind = 0 ∧
   inDram (src i j) d.srcRow)) ∧ (d.srcBlock = true → inSp (rowAt d.scaleBase d.sc2 d.sc1 i j).toNat d.scaleRow) ∧
   (inSp (dst i j) d.dstRow ∨ (d.kind ≤ 1 ∧ inDram (dst i j) d.dstRow))) ∧ i < d.cnt2 ∧ j < d.cnt1 ∧ d.kind = 3) ∧
  (let s : State := (dbMkw (dbDsc 4 0 5 35184372089088 35184372121600 64 0x1000 0 0 0))
   let t : Nat := 0; let pick : Nat := 0; let tag : Nat := 0; let gd : Reg := 5; let ga : Reg := 2
   let a := (s.g t ga).toNat
   let x : DmaXfer := ((s.tile t).dma.find? (fun d => d.tag == tag)).getD {}
   let d := dmaOf x.desc; let p := (s.tile t).part
   let src (i j : Nat) : Nat := (rowAt d.src d.ss2 d.ss1 i j).toNat
   let dst (i j : Nat) : Nat := (rowAt d.dst d.ds2 d.ds1 i j).toNat
   let inSp (a n : Nat) : Prop := 0x200000000000 ≤ a ∧ a + n ≤ 0x300000000000
   let inDram (a n : Nat) : Prop := a + n ≤ dramTop ∧ s.unregulated p ∧ s.sound p a n
   let i : Nat := 0; let j : Nat := 0
   ((s.tile t).dma.find? (fun d => d.tag == tag) = some x) ∧ (s.tile t).ending = false ∧ x.running = true ∧
   x.waiting = false ∧ x.status = none ∧ x.refused = false ∧ x.slot = none ∧ s.handles = [] ∧ s.spErr = [] ∧
   s.canonical = true ∧ d.kind ≤ 4 ∧ d.dstBlock = false ∧ d.overlaps = false ∧
   (∀ i : Nat, i < d.cnt2 → ∀ j : Nat, j < d.cnt1 → ∀ k : Nat, k < d.cnt2 → ∀ l : Nat, l < d.cnt1 → (i, j) ≠ (k, l) → dst i j + d.dstRow ≤ dst k l ∨ dst k l + d.dstRow ≤ dst i j) ∧
   (∀ i : Nat, i < d.cnt2 → ∀ j : Nat, j < d.cnt1 → (d.kind ≠ 1 → inSp (src i j) d.srcRow ∨ (d.kind = 0 ∧
   inDram (src i j) d.srcRow)) ∧ (d.srcBlock = true → inSp (rowAt d.scaleBase d.sc2 d.sc1 i j).toNat d.scaleRow) ∧
   (inSp (dst i j) d.dstRow ∨ (d.kind ≤ 1 ∧ inDram (dst i j) d.dstRow))) ∧ i < d.cnt2 ∧ j < d.cnt1 ∧ d.kind = 4) := by
  refine ⟨⟨⟨0, by decide +kernel, by decide +kernel⟩, by decide +kernel⟩, ?_⟩
  iterate 4 refine ⟨by decide +kernel, ?_⟩
  refine ⟨⟨⟨1, by decide +kernel, by decide +kernel⟩, by decide +kernel⟩, ?_⟩
  iterate 4 refine ⟨by decide +kernel, ?_⟩
  decide +kernel

theorem test_witness_MatrixIssue :
  (let s : State := mmaWmt; let t : Nat := 0; let gd : Reg := 0; let ga : Reg := 1; let gb : Reg := 2
   let gc : Reg := 0; let mod : BitVec 32 := 0x4020000; let cs : List Chain := mmaWcs; let f : Fmt := .e4m3
   let x := s.tile t; let as := chainArrays cs
   let ld : MmaOp := { kind := .load, gang := wordFld mod 31 30, aset := wordFld mod 29 26, slot := wordFld mod 25 22, cnt := wordFld mod 21 17, fmt := f, base := (s.g t ga).toNat, s1 := (s.g t gb).toNat % 2 ^ 32, s2 := (s.g t gb).toNat / 2 ^ 32, scaleBase := (s.g t gc).toNat % 2 ^ 48, scaleStride := (s.g t gc).toNat / 2 ^ 48 }
   s.ready t 8 = true ∧ (s.inFiller t = false ∨ s.rb (t / 96) (filOff t) 61 = true) ∧ (s.tile t).mmaq.length < 16 ∧
   chainsOf (wordFld mod 31 30) (wordFld mod 29 26) = some cs ∧ badMode (s.tile t) cs (wordFld mod 31 30) = false ∧
   mmaIllegal 0 0 gb.toNat gc.toNat mod = false ∧ fmtOfCode (wordFld mod 16 13) = some f ∧ arrayFmt f = true ∧
   1 ≤ ld.cnt ∧ ld.cnt ≤ 16 ∧ ld.slot + ld.cnt ≤ slotsOf f ∧ (f.isInt = true → ∀ a ∈ as, (x.arr a).iCls = .clear) ∧
   s.outsideSet t (loadRanges ld cs) = none) ∧
  (let s : State := mmaWmt; let t : Nat := 0; let gd : Reg := 3; let ga : Reg := 1; let gb : Reg := 6
   let gc : Reg := 0; let mod : BitVec 32 := 0x4000020; let cs : List Chain := mmaWcs; let f : Fmt := .e4m3
   let x := s.tile t; let as := chainArrays cs
   let st : MmaOp := { kind := .stream, gang := wordFld mod 31 30, aset := wordFld mod 29 26, slot := wordFld mod 25 22, cnt := (s.g t gd).toNat, fmt := f, base := (s.g t ga).toNat, s1 := (s.g t gb).toNat, scaleBase := (s.g t gc).toNat % 2 ^ 48, scaleStride := (s.g t gc).toNat / 2 ^ 48, row0 := wordFld mod 17 12, rows := wordFld mod 11 5, km0 := x.ctx.cs 0x20, km1 := x.ctx.cs 0x21, nm0 := x.ctx.cs 0x22, nm1 := x.ctx.cs 0x23 }
   (∀ a ∈ as, (x.arr a).iMode = st.gang ∧ ∃ lf, (x.arr a).iSlots.find (slotKey f st.slot) = some (lf, st.gang) ∧
   pairOk lf f = true) ∧ s.ready t 8 = true ∧ (s.inFiller t = false ∨ s.rb (t / 96) (filOff t) 61 = true) ∧
   (s.tile t).mmaq.length < 16 ∧ chainsOf (wordFld mod 31 30) (wordFld mod 29 26) = some cs ∧
   badMode (s.tile t) cs (wordFld mod 31 30) = false ∧ mmaIllegal 1 gd.toNat gb.toNat gc.toNat mod = false ∧
   fmtOfCode (wordFld mod 21 18) = some f ∧ arrayFmt f = true ∧ st.slot < slotsOf f ∧ 1 ≤ st.rows ∧
   st.row0 + st.rows ≤ 64 ∧ 1 ≤ st.cnt ∧ st.cnt ≤ 4096 ∧
   (∀ a ∈ as, (x.arr a).iCls = .clear ∨ (x.arr a).iCls = if f.isInt then .integer else .floating) ∧
   s.outsideSet t (streamRanges st) = none) ∧
  (let s : State := mmaWmt; let t : Nat := 0; let gd : Reg := 0; let ga : Reg := 1; let gb : Reg := 4
   let gc : Reg := 5; let mod : BitVec 32 := 0x5C00020; let cs : List Chain := mmaWcs; let f : Fmt := .fp32
   let x := s.tile t
   let dr : MmaOp := { kind := .drain, gang := wordFld mod 31 30, aset := wordFld mod 29 26, fmt := f, base := (s.g t ga).toNat, s1 := (s.g t gb).toNat / 2 ^ 32, s2 := (s.g t gb).toNat % 2 ^ 32, status := (s.g t gc).toNat, row0 := wordFld mod 17 12, rows := wordFld mod 11 5, rnd := wordFld mod 21 20, nsat := mod.getLsbD 19, key := x.ctx.orStream.key, ctr := x.ctx.orStream.ctr, off := x.ctx.orStream.off }
   s.ready t 8 = true ∧ (s.inFiller t = false ∨ s.rb (t / 96) (filOff t) 61 = true) ∧ (s.tile t).mmaq.length < 16 ∧
   chainsOf (wordFld mod 31 30) (wordFld mod 29 26) = some cs ∧ badMode (s.tile t) cs (wordFld mod 31 30) = false ∧
   mmaIllegal 2 0 gb.toNat gc.toNat mod = false ∧ fmtOfCode (wordFld mod 25 22) = some f ∧ 1 ≤ dr.rows ∧
   dr.row0 + dr.rows ≤ 64 ∧ (∀ c ∈ cs, drainFmtOk (x.arr c.lower).iCls f = true) ∧
   s.outsideSet t (drainRanges dr) = none ∧ dr.base % 64 = 0 ∧ dr.s1 % 64 = 0 ∧ dr.s2 % 64 = 0 ∧ dr.status % 8 = 0) ∧
  (let s : State := mmaWmt; let t : Nat := 0; let gd : Reg := 0; let ga : Reg := 1; let gb : Reg := 0
   let gc : Reg := 0; let mod : BitVec 32 := 0x4000000; let cs : List Chain := mmaWcs; let f : Fmt := .e4m3
   let x := s.tile t; let as := chainArrays cs
   let db : MmaOp := { kind := .debug, gang := wordFld mod 31 30, aset := wordFld mod 29 26, base := (s.g t ga).toNat, rows := 64 }
   s.ready t 8 = true ∧ (s.inFiller t = false ∨ s.rb (t / 96) (filOff t) 61 = true) ∧ (s.tile t).mmaq.length < 16 ∧
   chainsOf (wordFld mod 31 30) (wordFld mod 29 26) = some cs ∧ badMode (s.tile t) cs (wordFld mod 31 30) = false ∧
   mmaIllegal 3 0 0 0 mod = false ∧ x.debug = true ∧ s.outsideOwn t db.base (8 * (4096 * as.length)) = none ∧
   db.base % 64 = 0) ∧
  (let s : State := mmaWmf; let t : Nat := 0; let gd : Reg := 0; let ga : Reg := 1; let gb : Reg := 2
   let gc : Reg := 0; let mod : BitVec 32 := 0x4020000
   s.ready t 8 = true ∧ s.inFiller t = false ∧ 16 ≤ (s.tile t).mmaq.length ∧
   mmaIllegal 0 0 gb.toNat gc.toNat mod = false) ∧
  (let s : State := mmaWmf; let t : Nat := 0; let gd : Reg := 0; let ga : Reg := 1; let gb : Reg := 2
   let gc : Reg := 0; let mod : BitVec 32 := 0x4020000
   s.ready t 8 = true ∧ s.inFiller t = false ∧ 16 ≤ (s.tile t).mmaq.length ∧
   mmaIllegal 1 gd.toNat gb.toNat gc.toNat mod = false) ∧
  (let s : State := mmaWmf; let t : Nat := 0; let gd : Reg := 0; let ga : Reg := 1; let gb : Reg := 2
   let gc : Reg := 0; let mod : BitVec 32 := 0x4020000
   s.ready t 8 = true ∧ s.inFiller t = false ∧ 16 ≤ (s.tile t).mmaq.length ∧
   mmaIllegal 2 0 gb.toNat gc.toNat mod = false) ∧
  (let s : State := mmaWmf; let t : Nat := 0; let gd : Reg := 0; let ga : Reg := 1; let gb : Reg := 0
   let gc : Reg := 0; let mod : BitVec 32 := 0x4000000
   s.ready t 8 = true ∧ s.inFiller t = false ∧ 16 ≤ (s.tile t).mmaq.length ∧ mmaIllegal 3 0 0 0 mod = false ∧
   (s.tile t).debug = true) := by
  refine ⟨by decide +kernel, ?_⟩
  refine ⟨⟨on_one (by decide +kernel : _ = [0]) ⟨by decide +kernel, .e4m3, by decide +kernel, by decide +kernel⟩, by decide +kernel⟩, ?_⟩
  iterate 5 refine ⟨by decide +kernel, ?_⟩
  decide +kernel

theorem test_witness_MatrixCompletion :
  (let s : State := (mmaWmq mmaOpL); let t : Nat := 0; let i : Nat := 0; let a : Nat := 1; let o : MmaOp := mmaOpL
   let cs : List Chain := mmaWcs; let x := s.tile t
   x.ending = false ∧ x.mmaq[i]? = some o ∧ chainsOf o.gang o.aset = some cs ∧
   (x.mmaq.take i).any (mmaAfter o) = false ∧ s.handles = [] ∧ s.spErr = [] ∧ o.kind = .load) ∧
  (let s : State := (mmaWmq mmaOpS); let t : Nat := 0; let i : Nat := 0; let a : Nat := 1; let o : MmaOp := mmaOpS
   let cs : List Chain := mmaWcs; let x := s.tile t
   x.ending = false ∧ x.mmaq[i]? = some o ∧ chainsOf o.gang o.aset = some cs ∧
   (x.mmaq.take i).any (mmaAfter o) = false ∧ s.handles = [] ∧ s.spErr = [] ∧ o.kind = .stream) ∧
  (let s : State := (mmaWmq mmaOpD); let t : Nat := 0; let i : Nat := 0; let a : Nat := 1; let o : MmaOp := mmaOpD
   let cs : List Chain := mmaWcs; let x := s.tile t; let b := o.fmt.bytes 1
   let n := if o.gang = 2 then 128 else 64
   let rows := (drainUnits o.gang o.aset).flatMap fun u => (List.range o.rows).map fun i => (u.1, i)
   x.ending = false ∧ x.mmaq[i]? = some o ∧ chainsOf o.gang o.aset = some cs ∧
   (x.mmaq.take i).any (mmaAfter o) = false ∧ s.handles = [] ∧ s.spErr = [] ∧ o.kind = .drain ∧ s.canonical = true ∧
   satIn x cs = false ∧
   (rows.Pairwise (fun u v => drainAddr o u.1 u.2 + n * b ≤ drainAddr o v.1 v.2 ∨ drainAddr o v.1 v.2 + n * b ≤ drainAddr o u.1 u.2)) ∧
   (∀ u ∈ rows, drainAddr o u.1 u.2 + n * b ≤ o.status ∨ o.status + 8 ≤ drainAddr o u.1 u.2)) ∧
  (let s : State := (mmaWmq mmaOpG); let t : Nat := 0; let i : Nat := 0; let a : Nat := 1; let o : MmaOp := mmaOpG
   let cs : List Chain := mmaWcs; let x := s.tile t
   x.ending = false ∧ x.mmaq[i]? = some o ∧ chainsOf o.gang o.aset = some cs ∧
   (x.mmaq.take i).any (mmaAfter o) = false ∧ s.handles = [] ∧ s.spErr = [] ∧ o.kind = .debug) ∧
  (let s : State := (mmaWmq mmaOpG); let t : Nat := 0; let i : Nat := 0; let a : Nat := 1
   let cs : List Chain := mmaWcs; let x := s.tile t
   s.tilePresent t = true ∧ a < 4 ∧
   ((x.mmaq.all fun q => !(chainArrays ((chainsOf q.gang q.aset).getD [])).contains a) = true)) ∧
  (let s : State := (mmaWmq mmaOpL); let t : Nat := 0; let i : Nat := 0; let a : Nat := 1; let o : MmaOp := mmaOpL
   let cs : List Chain := mmaWcs; let x := s.tile t; let c := 0; let k : Nat := 0
   x.ending = false ∧ x.mmaq[i]? = some o ∧ chainsOf o.gang o.aset = some cs ∧
   (x.mmaq.take i).any (mmaAfter o) = false ∧ s.handles = [] ∧ s.spErr = [] ∧ o.kind = .load ∧ c ∈ chainArrays cs ∧
   k < o.cnt) ∧
  (let s : State := (mmaWmq { mmaOpS with nm0 := 5, nm1 := 5 })
   let t : Nat := 0; let i : Nat := 0; let a : Nat := 1
   let o : MmaOp := { mmaOpS with nm0 := 5, nm1 := 5 }
   let cs : List Chain := mmaWcs; let x := s.tile t
   let c := cs.headD { upper := none, lower := 0, unit := 0, col0 := 0, n1 := false }
   x.ending = false ∧ x.mmaq[i]? = some o ∧ chainsOf o.gang o.aset = some cs ∧
   (x.mmaq.take i).any (mmaAfter o) = false ∧ s.handles = [] ∧ s.spErr = [] ∧ o.kind = .stream ∧ c ∈ cs ∧
   ((if c.n1 then o.nm1 else o.nm0) ≠ 0)) ∧
  (let s : State := (mmaWmq mmaOpD); let t : Nat := 0; let i : Nat := 0; let a : Nat := 1; let o : MmaOp := mmaOpD
   let cs : List Chain := mmaWcs; let x := s.tile t; let b := o.fmt.bytes 1
   let n := if o.gang = 2 then 128 else 64
   let rows := (drainUnits o.gang o.aset).flatMap fun u => (List.range o.rows).map fun i => (u.1, i)
   let r : Nat := 0; let u : Nat × Nat := (rows[r]?).getD (0, 0)
   x.ending = false ∧ x.mmaq[i]? = some o ∧ chainsOf o.gang o.aset = some cs ∧
   (x.mmaq.take i).any (mmaAfter o) = false ∧ s.handles = [] ∧ s.spErr = [] ∧ o.kind = .drain ∧ s.canonical = true ∧
   satIn x cs = false ∧
   (rows.Pairwise (fun u v => drainAddr o u.1 u.2 + n * b ≤ drainAddr o v.1 v.2 ∨ drainAddr o v.1 v.2 + n * b ≤ drainAddr o u.1 u.2)) ∧
   (∀ u ∈ rows, drainAddr o u.1 u.2 + n * b ≤ o.status ∨ o.status + 8 ≤ drainAddr o u.1 u.2) ∧ rows[r]? = some u) ∧
  (let s : State := (mmaWmq mmaOpG); let t : Nat := 0; let i : Nat := 0; let a : Nat := 1
   let cs : List Chain := mmaWcs; let x := s.tile t; let b : Nat := 0
   s.tilePresent t = true ∧ a < 4 ∧
   ((x.mmaq.all fun q => !(chainArrays ((chainsOf q.gang q.aset).getD [])).contains a) = true) ∧ b ≠ a) := by
  iterate 8 refine ⟨by decide +kernel, ?_⟩
  decide +kernel

theorem test_witness_VectorAndRandom :
  (let s : State := matWv; let t : Nat := 0; let gd : Reg := 5; let ga : Reg := 1; let gb : Reg := 2
   let a := (s.g t ga).toNat; let n := (s.g t gb).toNat; let steps := fld (wordAt (s.descWords a 1).1 0) 61 57
   let d := (s.descWords a (28 + steps)).1
   s.ready t 8 = true ∧ s.spErr = [] ∧ 1 ≤ steps ∧ steps ≤ 24 ∧
   s.checkOwn t a (224 + 8 * steps) 64 .recipe (s.g t ga) = none ∧ s.cutPending a (224 + 8 * steps) = false ∧
   (recipeOf d).ok = true ∧ s.recipeArea t (recipeOf d) n = none ∧ (s.tile t).vecq.length < 4) ∧
  (let s : State := chanWv; let t : Nat := 0; let gd : Reg := 5; let ga : Reg := 1; let gb : Reg := 3
   let a := (s.g t ga).toNat; let n := (s.g t gb).toNat
   s.canonical = true ∧ s.ready t 4 = true ∧ s.spErr = [] ∧ s.outsideOwn t a n = none ∧ n % 16 = 0 ∧ 16 ≤ n ∧
   n ≤ 65536 ∧ a % 16 = 0) ∧
  (let s : State := chanWv; let t : Nat := 0; let gd : Reg := 5; let ga : Reg := 1; let gb : Reg := 3
   s.ready t 4 = true) ∧
  (let s : State := matWv2; let t : Nat := 0; let gd : Reg := 5; let ga : Reg := 1; let gb : Reg := 2
   let v : VecRun := ((s.tile t).vecq).headD {}
   let rest := ((s.tile t).vecq).tail
   s.canonical = true ∧ (s.tile t).vecq = v :: rest ∧ (s.tile t).ending = false ∧ s.handles = [] ∧ v.status % 8 = 0 ∧
   s.outsideOwn t v.status 8 = none ∧ (s.tile t).saved = none) ∧
  (let s : State := chanWv; let t : Nat := 0; let gd : Reg := 5; let ga : Reg := 1; let gb : Reg := 3
   let a := (s.g t ga).toNat; let n := (s.g t gb).toNat; let b : Nat := 0
   s.canonical = true ∧ s.ready t 4 = true ∧ s.spErr = [] ∧ s.outsideOwn t a n = none ∧ n % 16 = 0 ∧ 16 ≤ n ∧
   n ≤ 65536 ∧ a % 16 = 0 ∧ (b < a ∨ a + n ≤ b)) := by
  iterate 4 refine ⟨by decide +kernel, ?_⟩
  decide +kernel

theorem test_witness_ChannelInstructions :
  (let s : State := chanWc0; let t : Nat := 0; let gd : Reg := 5; let ga : Reg := 3; let gb : Reg := 2
   let w := s.g t ga; let b := (s.g t gb).toNat
   s.ready t 4 = true ∧ s.inFiller t = false ∧ s.spErr = [] ∧ w.toNat / 2 ^ 48 = 0 ∧ fld w 31 26 = 0 ∧
   fld w 15 4 = 0 ∧ destTile w < 768 ∧ s.tilePresent (destTile w) = true ∧
   s.partOfTile (destTile w) = some (s.tile t).part ∧ s.checkOwn t b 64 64 .channel w = none ∧
   ((s.msgs.filter fun m => m.sender == t).length < 4) ∧ s.cutPending b 64 = false) ∧
  (let s : State := { matWc2 with msgs := List.replicate 4 (matWc1.msgs.getD 0 {})}
   let t : Nat := 0; let gd : Reg := 5; let ga : Reg := 1; let gb : Reg := 2; let w := s.g t ga
   let b := (s.g t gb).toNat
   s.ready t 4 = true ∧ s.inFiller t = false ∧ s.spErr = [] ∧ w.toNat / 2 ^ 48 = 0 ∧ fld w 31 26 = 0 ∧
   fld w 15 4 = 0 ∧ destTile w < 768 ∧ s.tilePresent (destTile w) = true ∧
   s.partOfTile (destTile w) = some (s.tile t).part ∧ s.checkOwn t b 64 64 .channel w = none ∧
   (4 ≤ (s.msgs.filter fun m => m.sender == t).length)) ∧
  (let s : State := { matWc2 with msgs := List.replicate 4 (matWc1.msgs.getD 0 {})}
   let t : Nat := 0; let gd : Reg := 5; let ga : Reg := 1; let gb : Reg := 2; let w := s.g t ga
   let b := (s.g t gb).toNat; let q := w.toNat % 16; let inOwn : Prop := s.checkOwn t b 64 64 .channel w = none
   let m : QMsg := (s.queue t q).headD {}
   let rest := (s.queue t q).tail
   s.ready t 4 = true ∧ s.inFiller t = false ∧ s.spErr = [] ∧ s.canonical = true ∧ inOwn ∧ s.queue t q = m :: rest ∧
   m.payload.length = 64) ∧
  (let s : State := chanWc0; let t : Nat := 0; let gd : Reg := 5; let ga : Reg := 3; let gb : Reg := 2
   let w := s.g t ga; let b := (s.g t gb).toNat; let q := w.toNat % 16
   let inOwn : Prop := s.checkOwn t b 64 64 .channel w = none
   s.ready t 4 = true ∧ s.inFiller t = false ∧ s.spErr = [] ∧ inOwn ∧ s.queue t q = []) ∧
  (let s : State := (matWc2.setQueue 0 2 [{ sender := 9, payload := List.replicate 64 7 }])
   let t : Nat := 0; let gd : Reg := 5; let ga : Reg := 3; let gb : Reg := 2; let w := s.g t ga
   let mask := w.toNat % 65536; let k : Nat := 0
   s.ready t 4 = true ∧ s.inFiller t = false ∧ s.spErr = [] ∧ k < 16 ∧ mask.testBit k = true ∧ s.queue t k ≠ [] ∧
   (∀ j : Nat, j < k → mask.testBit j = true → s.queue t j = [])) ∧
  (let s : State := (matWc2.setQueue 0 2 [{ sender := 9, payload := List.replicate 64 7 }])
   let t : Nat := 0; let gd : Reg := 5; let ga : Reg := 3; let gb : Reg := 2; let w := s.g t ga
   let mask := w.toNat % 65536; let i : Nat := 0; let k : Nat := 0
   s.ready t 4 = true ∧ s.inFiller t = false ∧ s.spErr = [] ∧ i < 16 ∧ (s.tile t).sel < 16 ∧
   k = ((s.tile t).sel + i) % 16 ∧ mask.testBit k = true ∧ s.queue t k ≠ [] ∧
   (∀ j : Nat, j < i → mask.testBit (((s.tile t).sel + j) % 16) = true → s.queue t (((s.tile t).sel + j) % 16) = [])) ∧
  (let s : State := chanWc0; let t : Nat := 0; let gd : Reg := 5; let ga : Reg := 3; let gb : Reg := 2
   let w := s.g t ga; let mask := w.toNat % 65536
   s.ready t 4 = true ∧ s.inFiller t = false ∧ s.spErr = [] ∧ mask ≠ 0 ∧
   (∀ k : Nat, k < 16 → mask.testBit k = true → s.queue t k = [])) ∧
  (let s : State := { matWc2 with msgs := List.replicate 4 (matWc1.msgs.getD 0 {})}
   let t : Nat := 0; let gd : Reg := 5; let ga : Reg := 1; let gb : Reg := 2; let w := s.g t ga
   let b := (s.g t gb).toNat; let q := w.toNat % 16; let inOwn : Prop := s.checkOwn t b 64 64 .channel w = none
   let m : QMsg := (s.queue t q).headD {}
   let rest := (s.queue t q).tail; let a : Nat := 0
   s.ready t 4 = true ∧ s.inFiller t = false ∧ s.spErr = [] ∧ s.canonical = true ∧ inOwn ∧ s.queue t q = m :: rest ∧
   m.payload.length = 64 ∧ (a < b ∨ b + 64 ≤ a)) := by
  iterate 7 refine ⟨by decide +kernel, ?_⟩
  decide +kernel

theorem test_witness_ChannelEvents :
  (let s : State := matWc1; let i : Nat := 0
   let m : ChMsg := (matWc1.msgs.getD 0 {})
   let d := destTile m.dest; let q := destQueue m.dest
   s.msgs[i]? = some m ∧ m.phase = .travelling ∧ s.aheadOf i m = [] ∧ (m.sender < 768 → s.reaches m.sender d = true) ∧
   (s.tile d).closed = false ∧ (s.tile d).epoch.toNat = destEpoch m.dest ∧ (s.queue d q).length < 8) ∧
  (let s : State := matWc3; let i : Nat := 0
   let m : ChMsg := (matWc1.msgs.getD 0 {})
   let d := destTile m.dest; let q := destQueue m.dest
   s.msgs[i]? = some m ∧ m.phase = .travelling ∧ s.aheadOf i m = [] ∧ (m.sender < 768 → s.reaches m.sender d = true) ∧
   (s.tile d).closed = false ∧ (s.tile d).epoch.toNat = destEpoch m.dest ∧ 8 ≤ (s.queue d q).length) ∧
  (let s : State := matWc5; let i : Nat := 0
   let m : ChMsg := (matWc1.msgs.getD 0 {})
   let d := destTile m.dest
   s.msgs[i]? = some m ∧ m.phase = .travelling ∧ s.aheadOf i m = [] ∧ (m.sender < 768 → s.reaches m.sender d = true) ∧
   ((s.tile d).closed = true ∨ (s.tile d).epoch.toNat ≠ destEpoch m.dest)) ∧
  (let s : State := matWc2; let i : Nat := 0
   let m : ChMsg := (matWc2.msgs.getD 0 {})
   s.msgs[i]? = some m ∧ m.phase = .accepted) ∧
  (let s : State := matWc6; let i : Nat := 0
   let m : ChMsg := (matWc6.msgs.getD 0 {})
   s.msgs[i]? = some m ∧ m.phase = .discarded) ∧
  (let s : State := matWc4; let i : Nat := 0
   let m : ChMsg := (matWc4.msgs.getD 0 {})
   s.msgs[i]? = some m ∧ m.phase = .refused ∧ s.aheadOf i m = []) ∧
  (let s : State := { matWc1 with msgs := [matMfar] }
   let i : Nat := 0; let m : ChMsg := matMfar; let d := destTile m.dest
   s.msgs[i]? = some m ∧ m.phase = .travelling ∧ m.sender < 768 ∧ s.reaches m.sender d = false) ∧
  (let s : State := matWc8; let i : Nat := 0
   let m : ChMsg := (matWc1.msgs.getD 0 {})
   let t : Nat := 0; let k : Nat := 2; let j : Nat := 2
   let e : Episode := ((s.tile t).wd.find j).getD {}
   let w := s.cnt t (0x140 + k)
   s.msgs[i]? = some m ∧ (j = k ∨ j = emptyKey k) ∧ (s.tile t).wd.find j = some e ∧ e.reported = false ∧
   (w.getLsbD (if e.full then 63 else 62) = true) ∧ 1 ≤ w.toNat % 2 ^ 32 ∧
   1000 * (w.toNat % 2 ^ 32) ≤ (s.now (t / 96) + 2 ^ 64 - e.opened) % 2 ^ 64) ∧
  (let s : State := matWc1; let i : Nat := 0
   let m : ChMsg := (matWc1.msgs.getD 0 {})
   let d := destTile m.dest; let q := destQueue m.dest; let k : Nat := 1
   s.msgs[i]? = some m ∧ m.phase = .travelling ∧ s.aheadOf i m = [] ∧ (m.sender < 768 → s.reaches m.sender d = true) ∧
   (s.tile d).closed = false ∧ (s.tile d).epoch.toNat = destEpoch m.dest ∧ (s.queue d q).length < 8 ∧ k ≠ q) ∧
  (let s : State := matWc1; let i : Nat := 0
   let m : ChMsg := (matWc1.msgs.getD 0 {})
   let d := destTile m.dest; let q := destQueue m.dest
   s.msgs[i]? = some m ∧ m.phase = .travelling ∧ s.aheadOf i m = [] ∧ (m.sender < 768 → s.reaches m.sender d = true) ∧
   (s.tile d).closed = false ∧ (s.tile d).epoch.toNat = destEpoch m.dest ∧ (s.queue d q).length < 8 ∧
   m.sender / 96 = d / 96) := by
  iterate 9 refine ⟨by decide +kernel, ?_⟩
  decide +kernel

theorem test_witness_StageLinkInstructions :
  (let s : State := dmaWs1; let t : Nat := 0; let gd : Reg := 5; let ga : Reg := 1; let gb : Reg := 2
   let h := (s.g t ga).toNat % 4096; let a := (s.g t gb).toNat; let x := s.slEnd h; let w := (s.descWords a 8).1
   let i : Nat := (x.credits).headD 0; let rest := (x.credits).tail
   s.ready t 4 = true ∧ s.inFiller t = false ∧ s.spErr = [] ∧ s.diePresent (slHob h) = true ∧
   s.slFor t h false = true ∧ s.checkOwn t a 64 64 .stageLink (BitVec.ofNat 64 h) = none ∧ s.cutPending a 64 = false ∧
   hdrOk w x.size = true ∧ s.payOutside t (fld (wordAt w 2) 47 0) (hdrLen w) = none ∧
   ((s.flights.all fun f => f.src != h || f.remoteIn || decide (f.len ≤ f.done) || f.dropped) = true) ∧
   x.credits = i :: rest) ∧
  (let s : State := (dmaWs1.setSlEnd 0 {dmaWs1.slEnd 0 with credits := []})
   let t : Nat := 0; let gd : Reg := 5; let ga : Reg := 1; let gb : Reg := 2; let h := (s.g t ga).toNat % 4096
   let a := (s.g t gb).toNat; let x := s.slEnd h; let w := (s.descWords a 8).1
   s.ready t 4 = true ∧ s.inFiller t = false ∧ s.spErr = [] ∧ s.diePresent (slHob h) = true ∧
   s.slFor t h false = true ∧ s.checkOwn t a 64 64 .stageLink (BitVec.ofNat 64 h) = none ∧ s.cutPending a 64 = false ∧
   hdrOk w x.size = true ∧ s.payOutside t (fld (wordAt w 2) 47 0) (hdrLen w) = none ∧
   ((s.flights.all fun f => f.src != h || f.remoteIn || decide (f.len ≤ f.done) || f.dropped) = true) ∧
   x.credits = []) ∧
  (let s : State := dmaWs4; let t : Nat := 0; let gd : Reg := 5; let ga : Reg := 3; let gb : Reg := 2
   let h := (s.g t ga).toNat % 4096; let a := (s.g t gb).toNat; let x := s.slEnd h
   let e : SlEntry := (x.visible).headD {}
   let rest := (x.visible).tail
   s.ready t 4 = true ∧ s.inFiller t = false ∧ s.spErr = [] ∧ s.diePresent (slHob h) = true ∧
   s.slFor t h true = true ∧ s.checkOwn t a 64 64 .stageLink (BitVec.ofNat 64 h) = none ∧ x.visible = e :: rest) ∧
  (let s : State := dmaWs1; let t : Nat := 0; let gd : Reg := 5; let ga : Reg := 3; let gb : Reg := 2
   let h := (s.g t ga).toNat % 4096; let a := (s.g t gb).toNat; let x := s.slEnd h
   s.ready t 4 = true ∧ s.inFiller t = false ∧ s.spErr = [] ∧ s.diePresent (slHob h) = true ∧
   s.slFor t h true = true ∧ s.checkOwn t a 64 64 .stageLink (BitVec.ofNat 64 h) = none ∧ x.visible = []) ∧
  (let s : State := dmaWs5; let t : Nat := 0; let gd : Reg := 5; let ga : Reg := 3; let gb : Reg := 4
   let h := (s.g t ga).toNat % 4096; let a := (s.g t gb).toNat; let x := s.slEnd h
   let e : SlEntry := ((x.popped.find? fun e => e.idx == a && e.tile == t)).getD {}
   s.ready t 4 = true ∧ s.inFiller t = false ∧ s.spErr = [] ∧ s.diePresent (slHob h) = true ∧
   s.slFor t h true = true ∧ ((x.popped.find? fun e => e.idx == a && e.tile == t) = some e) ∧
   (x.cut = false ∨ hdrLen e.header ≤ e.landed)) ∧
  (let s : State := dmaWs4; let t : Nat := 0; let gd : Reg := 5; let ga : Reg := 3; let gb : Reg := 2
   let h := (s.g t ga).toNat % 4096; let a := (s.g t gb).toNat; let x := s.slEnd h
   let e : SlEntry := (x.visible).headD {}
   let rest := (x.visible).tail; let k : Nat := 0
   s.ready t 4 = true ∧ s.inFiller t = false ∧ s.spErr = [] ∧ s.diePresent (slHob h) = true ∧
   s.slFor t h true = true ∧ s.checkOwn t a 64 64 .stageLink (BitVec.ofNat 64 h) = none ∧ x.visible = e :: rest ∧
   s.canonical = true ∧ e.header.length = 8 ∧ k < 8) ∧
  (let s : State := dmaWs4; let t : Nat := 0; let gd : Reg := 5; let ga : Reg := 3; let gb : Reg := 2
   let h := (s.g t ga).toNat % 4096; let a := (s.g t gb).toNat; let x := s.slEnd h
   let e : SlEntry := (x.visible).headD {}
   let rest := (x.visible).tail; let b : Nat := 0
   s.ready t 4 = true ∧ s.inFiller t = false ∧ s.spErr = [] ∧ s.diePresent (slHob h) = true ∧
   s.slFor t h true = true ∧ s.checkOwn t a 64 64 .stageLink (BitVec.ofNat 64 h) = none ∧ x.visible = e :: rest ∧
   s.canonical = true ∧ e.header.length = 8 ∧ (b < a ∨ a + 64 ≤ b)) := by
  iterate 6 refine ⟨by decide +kernel, ?_⟩
  decide +kernel

theorem test_witness_StageLinkEvents :
  (let s : State := chanWs0; let h : Nat := 1; let i : Nat := 0; let n : Nat := 0; let l : Nat := 0
   let v : Word := (BitVec.ofNat 64 (chanSlc true 0)); let d := slHob h; let o := slOff h
   let w := (v ||| 0x8000000000000000) &&& slMask
   let x : SlEnd := { cfg := w, ring := s.rg d (o + 8), size := (s.rg d (o + 0x10)).toNat % 2 ^ 32 }
   s.diePresent d = true ∧ (s.slEnd h).isOpen = false ∧ s.slOk x = true) ∧
  (let s : State := dmaWs2; let h : Nat := 1; let i : Nat := 0; let n : Nat := 0; let l : Nat := 0
   let v : Word := 0
   let f : SlFlight := (s.flights[i]?).getD {}
   let y := s.slEnd f.dst
   s.flights[i]? = some f ∧ f.hdrDone = false ∧ f.remoteOut = false ∧ 0 < f.len ∧
   (((s.flights.take i).all fun e => e.hdrDone || e.remoteOut || e.src != f.src || e.dst != f.dst) = true) ∧
   y.isOpen = true ∧ y.recv = true ∧ y.epoch = f.epoch ∧ y.cut = f.cut ∧ y.depth = f.depth ∧ y.size = f.size ∧
   y.cut = false ∧ f.len = hdrLen f.header ∧ (∀ e ∈ y.arriving, e.landed < hdrLen e.header)) ∧
  (let s : State := (sbWs2.setSlEnd 1 { sbWs2.slEnd 1 with cfg := 0 })
   let h : Nat := 1; let i : Nat := 0; let n : Nat := 0; let l : Nat := 0; let v : Word := 0
   let f : SlFlight := (s.flights[i]?).getD {}
   let y := s.slEnd f.dst
   let off := y.isOpen = false ∨ y.recv = false ∨ y.epoch ≠ f.epoch
   let other := y.cut ≠ f.cut ∨ y.depth ≠ f.depth ∨ y.size ≠ f.size
   s.flights[i]? = some f ∧ f.hdrDone = false ∧ f.remoteOut = false ∧
   (((s.flights.take i).all fun e => e.hdrDone || e.remoteOut || e.src != f.src || e.dst != f.dst) = true) ∧
   (off ∨ other)) ∧
  (let s : State := ({ dmaWs3 with flights := [dmaFsp]}.setSlEnd 1 dmaYl)
   let h : Nat := 1; let i : Nat := 0; let n : Nat := 64; let l : Nat := 0; let v : Word := 0
   let f : SlFlight := (s.flights[i]?).getD {}
   let y := s.slEnd f.dst; let a := y.base + f.idx * y.size + f.done
   s.canonical = true ∧ s.spErr = [] ∧ s.flights[i]? = some f ∧ f.hdrDone = true ∧ f.remoteOut = false ∧
   f.remoteIn = false ∧ f.dropped = false ∧ 0 < n ∧ f.done + n < f.len ∧ isDram (f.payload + f.done) = false ∧
   s.cutPending (f.payload + f.done) n = false ∧ isDram a = false) ∧
  (let s : State := { sbWs3 with flights := [sbFD 3 4096], spErr := [], mem := sbWs3.mem ++ cells 0x200000000800 [5,6,7] }
   let h : Nat := 1; let i : Nat := 0; let n : Nat := 70; let l : Nat := 0; let v : Word := 0
   let f : SlFlight := (s.flights[i]?).getD {}
   let y := s.slEnd f.dst; let a := y.base + f.idx * y.size + f.done
   s.canonical = true ∧ s.spErr = [] ∧ s.flights[i]? = some f ∧ f.hdrDone = true ∧ f.remoteOut = false ∧
   f.remoteIn = false ∧ f.dropped = false ∧ 0 < n ∧ f.done + n ≤ f.len ∧ isDram (f.payload + f.done) = false ∧
   s.cutPending (f.payload + f.done) n = false ∧ a + n ≤ dramTop ∧ s.unregulated y.part ∧ s.unregulated f.part ∧
   s.sound y.part a n) ∧
  (let s : State := (State.setSlEnd { sbWs3 with flights := [sbFD 3 64] } 1 { sbWs3.slEnd 1 with arriving := [sbEnt2] })
   let h : Nat := 1; let i : Nat := 0; let n : Nat := 100; let l : Nat := 0; let v : Word := 0
   let f : SlFlight := (s.flights[i]?).getD {}
   let e : SlEntry := ((s.slEnd f.dst).arriving).headD {}
   let r : List SlEntry := ((s.slEnd f.dst).arriving).tail; let y := s.slEnd f.dst
   s.flights[i]? = some f ∧ f.hdrDone = true ∧ f.remoteOut = false ∧ f.remoteIn = false ∧ f.dropped = false ∧ 0 < n ∧
   f.done < f.len ∧ f.len ≤ f.done + n ∧ s.cutPending (f.payload + f.done) (f.len - f.done) = false ∧ y.cut = false ∧
   y.arriving = e :: r ∧ e.idx = f.idx ∧ hdrLen e.header ≤ e.landed + (f.len - f.done) ∧
   (∀ z ∈ y.visible ++ y.popped ++ r, z.idx ≠ f.idx)) ∧
  (let s : State := dmaWs6; let h : Nat := 0; let i : Nat := 0; let n : Nat := 0; let l : Nat := 0
   let v : Word := 0
   let c : SlCredit := (s.slCredits[i]?).getD {}
   s.slCredits[i]? = some c ∧ (((s.slCredits.take i).all fun e => e.dst != c.dst) = true) ∧
   (s.slEnd c.dst).isOpen = true ∧ (s.slEnd c.dst).recv = false ∧ (s.slEnd c.dst).epoch = c.epoch) ∧
  (let s : State := { dmaWs6 with linkCredits := [(3, dmaWs6.slCredits)] }
   let h : Nat := 0; let i : Nat := 0; let n : Nat := 0; let l : Nat := 3; let v : Word := 0
   let c : SlCredit := ((s.linkCredits.val [] l)).headD {}
   let r : List SlCredit := ((s.linkCredits.val [] l)).tail
   s.linkCredits.val [] l = c :: r) ∧
  (let s : State := (sbWs2.setSlEnd 1 { sbWs2.slEnd 1 with size := 8192 })
   let h : Nat := 1; let i : Nat := 0; let n : Nat := 0; let l : Nat := 0; let v : Word := 0
   let f : SlFlight := (s.flights[i]?).getD {}
   let y := s.slEnd f.dst
   let off := y.isOpen = false ∨ y.recv = false ∨ y.epoch ≠ f.epoch
   let other := y.cut ≠ f.cut ∨ y.depth ≠ f.depth ∨ y.size ≠ f.size
   s.flights[i]? = some f ∧ f.hdrDone = false ∧ f.remoteOut = false ∧
   (((s.flights.take i).all fun e => e.hdrDone || e.remoteOut || e.src != f.src || e.dst != f.dst) = true) ∧
   (off ∨ other) ∧ ¬off) ∧
  (let s : State := (sbWs2.setSlEnd 1 { sbWs2.slEnd 1 with cfg := 0 })
   let h : Nat := 1; let i : Nat := 0; let n : Nat := 0; let l : Nat := 0; let v : Word := 0
   let f : SlFlight := (s.flights[i]?).getD {}
   let y := s.slEnd f.dst
   let off := y.isOpen = false ∨ y.recv = false ∨ y.epoch ≠ f.epoch
   let other := y.cut ≠ f.cut ∨ y.depth ≠ f.depth ∨ y.size ≠ f.size
   s.flights[i]? = some f ∧ f.hdrDone = false ∧ f.remoteOut = false ∧
   (((s.flights.take i).all fun e => e.hdrDone || e.remoteOut || e.src != f.src || e.dst != f.dst) = true) ∧
   (off ∨ other) ∧ f.remoteIn = false) ∧
  (let s : State := { sbWs3 with flights := [sbFD 3 4096], spErr := [], mem := sbWs3.mem ++ cells 0x200000000800 [5,6,7] }
   let h : Nat := 1; let i : Nat := 0; let n : Nat := 70; let l : Nat := 0; let v : Word := 0
   let f : SlFlight := (s.flights[i]?).getD {}
   let y := s.slEnd f.dst; let a := y.base + f.idx * y.size + f.done; let k : Nat := 0
   s.canonical = true ∧ s.spErr = [] ∧ s.flights[i]? = some f ∧ f.hdrDone = true ∧ f.remoteOut = false ∧
   f.remoteIn = false ∧ f.dropped = false ∧ 0 < n ∧ f.done + n ≤ f.len ∧ isDram (f.payload + f.done) = false ∧
   s.cutPending (f.payload + f.done) n = false ∧ a + n ≤ dramTop ∧ s.unregulated y.part ∧ s.unregulated f.part ∧
   s.sound y.part a n ∧ k < n) := by
  iterate 10 refine ⟨by decide +kernel, ?_⟩
  decide +kernel

theorem test_witness_AlmanacInstructions :
  (let s : State := chanWa1; let t : Nat := 0; let gd : Reg := 5; let ga : Reg := 1; let gb : Reg := 2
   let b := fld (s.g t ga) 11 0; let g : Nat := (s.alGroupOf b).getD 0; let x := s.group g
   s.ready t 4 = true ∧ s.inFiller t = false ∧ s.alGroupOf b = some g ∧ s.alPart g = (s.tile t).part ∧
   x.count x.current < 0xFFFFFFFF) ∧
  (let s : State := chanWa1; let t : Nat := 0; let gd : Reg := 5; let ga : Reg := 1; let gb : Reg := 2
   let b := fld (s.g t ga) 11 0; let v : BitVec 16 := (s.g t gb).setWidth 16
   let g : Nat := (s.alGroupOf b).getD 0; let x := s.group g
   s.ready t 4 = true ∧ s.inFiller t = false ∧ s.alGroupOf b = some g ∧ s.alPart g = (s.tile t).part ∧
   x.holds v = true ∧ x.count v < 0xFFFFFFFF) ∧
  (let s : State := chanWa2; let t : Nat := 0; let gd : Reg := 5; let ga : Reg := 1; let gb : Reg := 2
   let b := fld (s.g t ga) 11 0; let v : BitVec 16 := (s.g t gb).setWidth 16
   let g : Nat := (s.alGroupOf b).getD 0; let x := s.group g
   s.ready t 4 = true ∧ s.inFiller t = false ∧ s.alGroupOf b = some g ∧ s.alPart g = (s.tile t).part ∧ v = x.current ∧
   0 < x.count v ∧ x.commits = []) ∧
  (let s : State := (chanWa1.setGroup 0 { chanWa1.group 0 with current := 6, counts := [(5, 1), (6, 0)] })
   let t : Nat := 0; let gd : Reg := 5; let ga : Reg := 1; let gb : Reg := 2; let b := fld (s.g t ga) 11 0
   let v : BitVec 16 := (s.g t gb).setWidth 16; let g : Nat := (s.alGroupOf b).getD 0; let x := s.group g
   s.ready t 4 = true ∧ s.inFiller t = false ∧ s.alGroupOf b = some g ∧ s.alPart g = (s.tile t).part ∧ v = x.oldest ∧
   x.oldest ≠ x.current ∧ x.count v = 1 ∧ s.alMirror g = false ∧ x.commits = []) ∧
  (let s : State := chanWa2; let t : Nat := 0; let gd : Reg := 5; let ga : Reg := 1; let gb : Reg := 3
   let b := fld (s.g t ga) 11 0; let v : BitVec 16 := (s.g t gb).setWidth 16
   let g : Nat := (s.alGroupOf b).getD 0; let x := s.group g
   s.ready t 4 = true ∧ s.inFiller t = false ∧ s.alGroupOf b = some g ∧ s.alPart g = (s.tile t).part ∧
   s.hasHandler t = true ∧ x.holds v = false) ∧
  (let s : State := chanWa1; let t : Nat := 0; let gd : Reg := 5; let ga : Reg := 1; let gb : Reg := 2
   let b := fld (s.g t ga) 11 0; let v : BitVec 16 := (s.g t gb).setWidth 16
   let g : Nat := (s.alGroupOf b).getD 0; let x := s.group g
   s.ready t 4 = true ∧ s.inFiller t = false ∧ s.alGroupOf b = some g ∧ s.alPart g = (s.tile t).part ∧
   s.hasHandler t = true ∧ (x.holds v = false ∨ x.count v = 0)) ∧
  (let s : State := chanWa2; let t : Nat := 0; let gd : Reg := 5; let ga : Reg := 4; let gb : Reg := 3
   let b := fld (s.g t ga) 11 0; let i := Instr.alGet t gd ga
   s.ready t 4 = true ∧ s.hasHandler t = true ∧
   (s.inFiller t = true ∨ s.alGroupOf b = none ∨ ∃ g, s.alGroupOf b = some g ∧ s.alPart g ≠ (s.tile t).part) ∧
   i ∈ [Instr.alGet t gd ga, .alGetP t gd ga, .alPin t ga gb, .alUnpin t ga gb]) ∧
  (let s : State := chanWa1; let t : Nat := 0; let gd : Reg := 5; let ga : Reg := 1; let gb : Reg := 2
   let b := fld (s.g t ga) 11 0; let g : Nat := (s.alGroupOf b).getD 0; let x := s.group g; let w : BitVec 16 := 0
   s.ready t 4 = true ∧ s.inFiller t = false ∧ s.alGroupOf b = some g ∧ s.alPart g = (s.tile t).part ∧
   x.count x.current < 0xFFFFFFFF ∧ w ≠ x.current) ∧
  (let s : State := chanWa1; let t : Nat := 0; let gd : Reg := 5; let ga : Reg := 1; let gb : Reg := 2
   let b := fld (s.g t ga) 11 0; let v : BitVec 16 := (s.g t gb).setWidth 16
   let g : Nat := (s.alGroupOf b).getD 0; let x := s.group g; let w : BitVec 16 := 0
   s.ready t 4 = true ∧ s.inFiller t = false ∧ s.alGroupOf b = some g ∧ s.alPart g = (s.tile t).part ∧
   x.holds v = true ∧ x.count v < 0xFFFFFFFF ∧ w ≠ v) ∧
  (let s : State := chanWa2; let t : Nat := 0; let gd : Reg := 5; let ga : Reg := 1; let g := fld (s.g t ga) 11 0
   let x := s.group g
   s.ready t 4 = true ∧ s.inFiller t = false ∧ s.alValid g = true ∧ s.alPart g = (s.tile t).part ∧
   s.alCommitter g = 0 ∧ x.commits = [] ∧ t < 768) ∧
  (let s : State := chanWa1; let t : Nat := 0; let gd : Reg := 5; let ga : Reg := 4; let g := fld (s.g t ga) 11 0
   s.ready t 4 = true ∧ s.hasHandler t = true ∧
   (s.inFiller t = true ∨ s.alValid g = false ∨ s.alPart g ≠ (s.tile t).part ∨ s.alCommitter g ≠ 0)) ∧
  (let s : State := (chanWa4s.setGroup 0 {chanWa4s.group 0 with answers := [(0, 6)]})
   let t : Nat := 0; let gd : Reg := 5; let ga : Reg := 1; let g := fld (s.g t ga) 11 0; let x := s.group g
   let w : Word := (x.answers.find t).getD 0
   (s.tile t).live = true ∧ (s.tile t).ending = false ∧ (s.tile t).ctx.wait = some (.alCommit t gd ga) ∧
   x.answers.find t = some w) ∧
  (let s : State := chanWa4s; let t : Nat := 0; let gd : Reg := 5; let ga : Reg := 1; let g := fld (s.g t ga) 11 0
   let x := s.group g
   (s.tile t).live = true ∧ (s.tile t).ending = false ∧ (s.tile t).ctx.wait = some (.alCommit t gd ga) ∧
   x.answers.find t = none) ∧
  (let s : State := ((regsTo [(8, alOff 0, chanAlw 0 0 + 2 ^ 55)] chanWa1).setGroup 0 { chanWa1.group 0 with counts := [(5, 1)] })
   let t : Nat := 0; let gd : Reg := 5; let ga : Reg := 1; let g := fld (s.g t ga) 11 0; let x := s.group g
   s.ready t 4 = true ∧ s.inFiller t = false ∧ s.alValid g = true ∧ s.alPart g = (s.tile t).part ∧
   s.alCommitter g = 0 ∧ x.commits = [] ∧ t < 768 ∧ x.heldCount + 1 < s.alSlots g ∧
   (s.alMirror g = false ∨ x.copying ≠ none)) ∧
  (let s : State := chanWa2; let t : Nat := 0; let gd : Reg := 5; let ga : Reg := 1; let g := fld (s.g t ga) 11 0
   let x := s.group g
   s.ready t 4 = true ∧ s.inFiller t = false ∧ s.alValid g = true ∧ s.alPart g = (s.tile t).part ∧
   s.alCommitter g = 0 ∧ x.commits = [] ∧ t < 768 ∧ s.alSlots g ≤ x.heldCount + 1 ∧ 0 < x.count x.oldest ∧
   x.answers.find t = none) := by
  iterate 14 refine ⟨by decide +kernel, ?_⟩
  decide +kernel

theorem test_witness_AlmanacEvents :
  (let s : State := chanWa0; let g : Nat := 0; let v : Word := (BitVec.ofNat 64 (chanAlw 0 0))
   let w := setBit v 63 true &&& alMask
   g < 1024 ∧ s.alValid g = false ∧ s.alOk g w = true) ∧
  (let s : State := chanWa0; let g : Nat := 0; let v : Word := (BitVec.ofNat 64 (chanAlw 3 0))
   let w := setBit v 63 true &&& alMask
   g < 1024 ∧ s.alValid g = false ∧ s.alOk g w = false) ∧
  (let s : State := chanWa6; let g : Nat := 0; let v : Word := 0
   g < 1024 ∧ s.alValid g = true ∧ s.alMirror g = false ∧ bitOf v 60 = false) ∧
  (let s : State := chanWa6; let g : Nat := 0; let v : Word := 0; let x := s.group g
   g < 1024 ∧ s.alValid g = true ∧ ((x.commits.map (·.1)).filter (· < 768)).Nodup) ∧
  (let s : State := { chanWa9 with blockReports := [(0,1)] }
   let g : Nat := 0; let v : Word := 0; let x := s.group g; let i : Nat := 0; let b : Nat := 1
   let wr := if x.written.contains b then x.written else x.written ++ [b]
   g < 1024 ∧ s.blockReports[i]? = some (g, b) ∧ wr.length < s.alNblk g) ∧
  (let s : State := { chanWa5 with blockReports := [(0,0)] }
   let g : Nat := 0; let v : Word := 0; let x := s.group g; let i : Nat := 0; let b : Nat := 0
   let wr := if x.written.contains b then x.written else x.written ++ [b]
   g < 1024 ∧ s.blockReports[i]? = some (g, b) ∧ s.alNblk g ≤ wr.length ∧ x.commits = []) ∧
  (let s : State := chanWa6c; let g : Nat := 0; let v : Word := 0; let x := s.group g
   let rs : List (Nat × List Byte) := (s.copyWhole g (x.current + 1).toNat).getD []
   g < 1024 ∧ s.alValid g = true ∧ s.alCommitter g = 2 ∧ s.alStagingFree g = true ∧
   s.copyWhole g (x.current + 1).toNat = some rs) ∧
  (let s : State := chanWa6; let g : Nat := 0; let v : Word := 0; let x := s.group g
   g < 1024 ∧ s.alValid g = true ∧ s.alCommitter g = 2 ∧ s.copyWhole g (x.current + 1).toNat = none) ∧
  (let s : State := chanWa7a; let g : Nat := 0; let v : Word := 0; let x := s.group g
   let ver : Nat := (x.copying).getD 0
   let c : LkCell := (s.unitCell 5 [4, g, ver]).getD {}
   g < 1024 ∧ s.alValid g = true ∧ x.copying = some ver ∧ s.unitCell 5 [4, g, ver] = some c) ∧
  (let s : State := (chanWa3.setGroup 0 {chanWa3.group 0 with commits := [(0, some 6), (1, none)]})
   let g : Nat := 0; let v : Word := 0; let x := s.group g; let c := (x.commits).headD (0, none)
   g < 1024 ∧ s.alValid g = true ∧ ((x.commits.map (·.1)).filter (· < 768)).Nodup ∧ c ∈ x.commits ∧ c.1 < 768) ∧
  (let s : State := chanWa6; let g : Nat := 0; let v : Word := 0; let x := s.group g
   g < 1024 ∧ s.alValid g = true ∧ ((x.commits.map (·.1)).filter (· < 768)).Nodup ∧
   (∀ kv ∈ s.colls, s.rxValid kv.1 = true → s.rxApply kv.1 = true → s.rxGroup kv.1 ≠ g)) ∧
  (let s : State := { chanWa5m with blockReports := [(0,0)] }
   let g : Nat := 0; let v : Word := 0; let x := s.group g; let i : Nat := 0; let b : Nat := 0
   let wr := if x.written.contains b then x.written else x.written ++ [b]
   g < 1024 ∧ s.blockReports[i]? = some (g, b) ∧ s.alNblk g ≤ wr.length ∧ x.commits = [] ∧ s.alMirror g = true ∧
   s.alCommitter g ≠ 2 ∧ x.copying = none ∧ x.mirrored = x.current ∧ s.mirrorLink ≠ none) := by
  iterate 11 refine ⟨by decide +kernel, ?_⟩
  decide +kernel

theorem test_witness_FillerTasksAndTileReset :
  (let s : State := moreWfi; let t : Nat := 0; let x := s.tile t
   let r : FilRing := (s.filRing t).getD {}
   s.filRing t = some r ∧ x.live = true ∧ x.saved = none ∧ s.rb (t / 96) (filOff t) 63 = true ∧ s.mayFill t = true ∧
   r.head ≠ r.tail ∧ s.unitsIdle t = true ∧
   (s.rb (t / 96) (filOff t) 61 = true → ∀ kv ∈ x.arrays, kv.2.cls = .clear)) ∧
  (let s : State := chanWf1; let t : Nat := 0; let x := s.tile t
   let r : FilRing := (s.filRing t).getD {}
   s.filRing t = some r ∧
   (x.saved ≠ none ∨ r.head = r.tail ∨ x.live = false ∨ s.rb (t / 96) (filOff t) 63 = false ∨ s.mayFill t = false ∨ s.unitsIdle t = false ∨ (s.rb (t / 96) (filOff t) 61 = true ∧
   ∃ kv ∈ x.arrays, kv.2.cls ≠ .clear))) ∧
  (let s : State := State.reset; let t : Nat := 0
   s.filRing t = none) ∧
  (let s : State := State.reset; let t : Nat := 0; let x := s.tile t
   (x.saved = none ∨ x.ending = true ∨ s.now (t / 96) < x.deadline)) ∧
  (let s : State := { moreWfr with ns := [(0, 50000)] }
   let t : Nat := 0; let x := s.tile t
   let c : Ctx := (x.saved).getD {}
   x.saved = some c ∧ x.ending = false ∧ x.deadline ≤ s.now (t / 96)) ∧
  (let s : State := { colvWf3 with mem := cells 0x8000 [0x3000, 77, 0x2400] }
   let t : Nat := 0; let x := s.tile t
   let r : FilRing := (s.filRing t).getD {}
   let w := wordsOf 4 (onesFor (s.readDram x.part (r.base + r.head.toNat % 2 ^ r.log2n * 32) 32).1)
   let bound := fld (wordAt w 3) 31 0
   s.filRing t = some r ∧ x.live = true ∧ x.saved = none ∧ s.rb (t / 96) (filOff t) 63 = true ∧ s.mayFill t = true ∧
   r.head ≠ r.tail ∧ s.unitsIdle t = true ∧
   (s.rb (t / 96) (filOff t) 61 = true → ∀ kv ∈ x.arrays, kv.2.cls = .clear) ∧ bound = 0) ∧
  (let s : State := moreWfi; let t : Nat := 0; let x := s.tile t
   let r : FilRing := (s.filRing t).getD {}
   let w := wordsOf 4 (onesFor (s.readDram x.part (r.base + r.head.toNat % 2 ^ r.log2n * 32) 32).1)
   let bound := fld (wordAt w 3) 31 0; let q : Reg := 0
   s.filRing t = some r ∧ x.live = true ∧ x.saved = none ∧ s.rb (t / 96) (filOff t) 63 = true ∧ s.mayFill t = true ∧
   r.head ≠ r.tail ∧ s.unitsIdle t = true ∧
   (s.rb (t / 96) (filOff t) 61 = true → ∀ kv ∈ x.arrays, kv.2.cls = .clear) ∧ bound ≠ 0 ∧ q ≠ 1) ∧
  (let s : State := { moreWfr with ns := [(0, 50000)] }
   let t : Nat := 0; let x := s.tile t
   let c : Ctx := (x.saved).getD {}
   x.saved = some c ∧ x.ending = false ∧ x.deadline ≤ s.now (t / 96) ∧ s.unitsIdle t = true) ∧
  (let s : State := (State.setTile { colvWf4 with ns := [(0, 50000)] } 0 { colvWf4.tile 0 with vecq := [{}]})
   let t : Nat := 0; let x := s.tile t
   let c : Ctx := (x.saved).getD {}
   x.saved = some c ∧ x.ending = false ∧ x.deadline ≤ s.now (t / 96) ∧ s.unitsIdle t = false) ∧
  (let s : State := rbWf4; let t : Nat := 0; let gd : Reg := 5; let ga : Reg := 1; let gb : Reg := 2
   let gc : Reg := 3; let m : BitVec 32 := 77; let i := Instr.chSend t ga gb
   s.inFiller t = true ∧ s.hasHandler t = true ∧ s.ready t 4 = true ∧
   i ∈ [Instr.chSend t ga gb, .chRecv t gd ga gb, .chTry t gd ga gb, .chSelectP t gd ga, .chSelectR t gd ga]) ∧
  (let s : State := rbWf4; let t : Nat := 0; let gd : Reg := 5; let ga : Reg := 1; let gb : Reg := 2
   let gc : Reg := 3; let m : BitVec 32 := 77; let i := Instr.sqPush t ga gb
   s.inFiller t = true ∧ s.hasHandler t = true ∧ s.ready t 4 = true ∧
   i ∈ [Instr.sqPush t ga gb, .sqPop t gd ga gb, .sqRel t ga gb]) ∧
  (let s : State := rbWf4; let t : Nat := 0; let gd : Reg := 5; let ga : Reg := 1; let gb : Reg := 2
   let gc : Reg := 3; let m : BitVec 32 := 77; let i := Instr.alGet t gd ga
   s.inFiller t = true ∧ s.hasHandler t = true ∧ s.ready t 4 = true ∧
   i ∈ [Instr.alGet t gd ga, .alGetP t gd ga, .alPin t ga gb, .alUnpin t ga gb, .alCommit t gd ga]) ∧
  (let s : State := rbWf4; let t : Nat := 0; let gd : Reg := 5; let ga : Reg := 1; let gb : Reg := 2
   let gc : Reg := 3; let m : BitVec 32 := 77; let i := Instr.rxContrib t gd ga gb gc
   s.inFiller t = true ∧ s.hasHandler t = true ∧ s.ready t 8 = true ∧
   i ∈ [Instr.rxContrib t gd ga gb gc, .rxRelease t ga gb, .rxWait t gd ga gb, .rxApply t ga gb gc, .rxGnorm t gd ga gb gc]) ∧
  (let s : State := rbWf4; let t : Nat := 0; let gd : Reg := 5; let ga : Reg := 1; let gb : Reg := 2
   let gc : Reg := 3; let m : BitVec 32 := 77; let i := Instr.exDispatch t ga gb gc
   s.inFiller t = true ∧ s.hasHandler t = true ∧ s.ready t 8 = true ∧
   i ∈ [Instr.exDispatch t ga gb gc, .exCombine t ga gb gc]) ∧
  (let s : State := rbWf4; let t : Nat := 0; let gd : Reg := 5; let ga : Reg := 1; let gb : Reg := 2
   let gc : Reg := 3; let m : BitVec 32 := 77; let i := Instr.mmaLoad t ga gb gc m
   s.inFiller t = true ∧ s.hasHandler t = true ∧ s.ready t 8 = true ∧ s.rb (t / 96) (filOff t) 61 = false ∧
   i ∈ [Instr.mmaLoad t ga gb gc m, .mmaStream t gd ga gb gc m, .mmaDrain t ga gb gc m, .mmaDrainDbg t ga m]) ∧
  (let s : State := chanWf1; let t : Nat := 768; let v : Word := (BitVec.ofNat 64 chanFilc)
   s.tilePresent t = false) ∧
  (let s : State := chanWf1; let t : Nat := 0; let v : Word := 0
   s.tilePresent t = true ∧ bitOf (v &&& filMask) 63 = false) ∧
  (let s : State := chanWf1; let t : Nat := 0; let v : Word := (BitVec.ofNat 64 chanFilc); let d := t / 96
   let n := s.rf d (filOff t + 8) 63 56
   let r : FilRing := (s.filRing t).getD {}
   s.tilePresent t = true ∧ bitOf (v &&& filMask) 63 = true ∧ s.filRing t = some r ∧ r.log2n = n) ∧
  (let s : State := (chanWf1.setRg 0 (filOff 0 + 8) (BitVec.ofNat 64 (2^56*3 + 0x8000)))
   let t : Nat := 0; let v : Word := (BitVec.ofNat 64 chanFilc); let d := t / 96
   let n := s.rf d (filOff t + 8) 63 56
   let r : FilRing := (s.filRing t).getD {}
   s.tilePresent t = true ∧ bitOf (v &&& filMask) 63 = true ∧ s.filRing t = some r ∧ r.log2n ≠ n) ∧
  (let s : State := chanWf0; let t : Nat := 0; let v : Word := (BitVec.ofNat 64 chanFilc)
   s.tilePresent t = true ∧ bitOf (v &&& filMask) 63 = true ∧ s.filRing t = none) ∧
  (let s : State := (chanWf1.setTile 0 { chanWf1.tile 0 with live := false })
   let t : Nat := 0; let v : Word := 0
   s.tilePresent t = true ∧ (s.tile t).live = false) ∧
  (let s : State := chanWf0; let t : Nat := 0; let v : Word := (BitVec.ofNat 64 chanFilc)
   s.tilePresent t = true ∧ (s.tile t).live = true) := by
  iterate 21 refine ⟨by decide +kernel, ?_⟩
  decide +kernel

theorem test_witness_CollectiveInstructions :
  (let s : State := collWg1; let t : Nat := 0; let gd : Reg := 2; let ga : Reg := 1; let gb : Reg := 3
   let gc : Reg := 4; let h := fld (s.g t ga) 11 0; let c := s.coll h; let n := s.rxNshard h
   let m := (s.g t gd).toNat; let a := (s.g t gb).toNat
   let named (w : Word) : Prop := s.rxValid h = true ∧ s.rxPart h = (s.tile t).part ∧ s.rxStepOk h (w.setWidth 16) = true
   let stC : BitVec 16 := (s.g t gc).setWidth 16
   s.ready t 8 = true ∧ s.inFiller t = false ∧ named (s.g t gc) ∧ s.rxMember h m = true ∧
   s.payOutside t a (n * s.rxBytes h) = none ∧ (s.tile t).part = 0 ∧ s.rxFmt h = .fp32 ∧ 2 ≤ n ∧ n &&& (n - 1) = 0 ∧
   (∀ i : Nat, i < n → s.rxHomeAt c i = (s.gstep stC).home.getD (s.rxHomeAt c 0))) ∧
  (let s : State := collWgr; let t : Nat := 0; let gd : Reg := 2; let ga : Reg := 1; let gb : Reg := 3
   let gc : Reg := 4; let h := fld (s.g t ga) 11 0; let c := s.coll h; let n := s.rxNshard h
   let m := (s.g t gd).toNat
   let named (w : Word) : Prop := s.rxValid h = true ∧ s.rxPart h = (s.tile t).part ∧ s.rxStepOk h (w.setWidth 16) = true
   let stC : BitVec 16 := (s.g t gc).setWidth 16
   s.ready t 8 = true ∧ s.inFiller t = false ∧ named (s.g t gc) ∧ s.rxMember h m = true ∧ s.hasHandler t = true ∧
   (s.tile t).part = 0 ∧ s.rxFmt h = .fp32 ∧ 2 ≤ n ∧ n &&& (n - 1) = 0 ∧ (∃ i, i < n ∧
   s.rxHomeAt c i ≠ (s.gstep stC).home.getD (s.rxHomeAt c 0))) ∧
  (let s : State := (collWr2.setColl 0 {collWr2.coll 0 with words := [(0, 7)]})
   let t : Nat := 0; let gd : Reg := 2; let ga : Reg := 1; let gb : Reg := 4; let gc : Reg := 4
   let h := fld (s.g t ga) 11 0; let c := s.coll h
   let named (w : Word) : Prop := s.rxValid h = true ∧ s.rxPart h = (s.tile t).part ∧ s.rxStepOk h (w.setWidth 16) = true
   let stB : BitVec 16 := (s.g t gb).setWidth 16; let w := 7
   s.ready t 8 = true ∧ s.inFiller t = false ∧ named (s.g t gb) ∧
   ((c.words.reverse.find? fun w => w.1 == stB) = some (stB, w)) ∧ s.rxNormed h stB = true ∧
   (0 ≤ c.dist stB ∨ stB ∈ (c.words.reverse.take 2).map (·.1))) ∧
  (let s : State := collWg1; let t : Nat := 0; let gd : Reg := 2; let ga : Reg := 1; let gb : Reg := 3
   let gc : Reg := 4; let h := fld (s.g t ga) 11 0; let c := s.coll h
   let named (w : Word) : Prop := s.rxValid h = true ∧ s.rxPart h = (s.tile t).part ∧ s.rxStepOk h (w.setWidth 16) = true
   let stB : BitVec 16 := (s.g t gb).setWidth 16
   s.ready t 8 = true ∧ s.inFiller t = false ∧ named (s.g t gb) ∧ 0 ≤ c.dist stB ∧
   (stB ∉ c.words.map (·.1) ∨ s.rxNormed h stB = false)) ∧
  (let s : State := collWg2; let t : Nat := 0; let gd : Reg := 2; let ga : Reg := 1; let gb : Reg := 4
   let gc : Reg := 4; let h := fld (s.g t ga) 11 0
   let named (w : Word) : Prop := s.rxValid h = true ∧ s.rxPart h = (s.tile t).part ∧ s.rxStepOk h (w.setWidth 16) = true
   let stB : BitVec 16 := (s.g t gb).setWidth 16
   s.ready t 8 = true ∧ s.inFiller t = false ∧ named (s.g t gb) ∧ s.hasHandler t = true ∧ (s.tile t).part = 0 ∧
   (s.gstep stB).accepted = true) ∧
  (let s : State := (collWr2.setColl 0 { collWr2.coll 0 with oldest := 1, roundIdx := 1 })
   let t : Nat := 0; let gd : Reg := 2; let ga : Reg := 1; let gb : Reg := 4; let gc : Reg := 4
   let h := fld (s.g t ga) 11 0; let c := s.coll h
   let named (w : Word) : Prop := s.rxValid h = true ∧ s.rxPart h = (s.tile t).part ∧ s.rxStepOk h (w.setWidth 16) = true
   let stB : BitVec 16 := (s.g t gb).setWidth 16
   s.ready t 8 = true ∧ s.inFiller t = false ∧ named (s.g t gb) ∧
   ((s.tile t).part ≠ 0 ∨ (s.gstep stB).accepted = false) ∧ c.dist stB < 0) ∧
  (let s : State := collWg1; let t : Nat := 0; let gd : Reg := 2; let ga : Reg := 1; let gb : Reg := 3
   let gc : Reg := 4; let h := fld (s.g t ga) 11 0; let c := s.coll h
   let named (w : Word) : Prop := s.rxValid h = true ∧ s.rxPart h = (s.tile t).part ∧ s.rxStepOk h (w.setWidth 16) = true
   let stB : BitVec 16 := (s.g t gb).setWidth 16
   s.ready t 8 = true ∧ s.inFiller t = false ∧ named (s.g t gb) ∧
   ((s.tile t).part ≠ 0 ∨ (s.gstep stB).accepted = false) ∧ 0 ≤ c.dist stB ∧ c.round stB = none ∧ c.locals ≠ []) ∧
  (let s : State := collWr2; let t : Nat := 0; let gd : Reg := 2; let ga : Reg := 7; let gb : Reg := 4
   let gc : Reg := 4; let h := fld (s.g t ga) 11 0
   let named (w : Word) : Prop := s.rxValid h = true ∧ s.rxPart h = (s.tile t).part ∧ s.rxStepOk h (w.setWidth 16) = true
   let i := Instr.rxContrib t gd ga gb gc
   s.ready t 8 = true ∧ s.inFiller t = false ∧ s.hasHandler t = true ∧ ¬named (s.g t gc) ∧
   i ∈ [Instr.rxContrib t gd ga gb gc, .rxGnorm t gd ga gb gc]) ∧
  (let s : State := collWr2; let t : Nat := 0; let gd : Reg := 2; let ga : Reg := 7; let gb : Reg := 4
   let gc : Reg := 4; let h := fld (s.g t ga) 11 0
   let named (w : Word) : Prop := s.rxValid h = true ∧ s.rxPart h = (s.tile t).part ∧ s.rxStepOk h (w.setWidth 16) = true
   let i := Instr.rxRelease t ga gb
   s.ready t 8 = true ∧ s.inFiller t = false ∧ s.hasHandler t = true ∧ ¬named (s.g t gb) ∧
   i ∈ [Instr.rxRelease t ga gb, .rxWait t gd ga gb]) ∧
  (let s : State := collWg1; let t : Nat := 0; let gd : Reg := 2; let ga : Reg := 1; let gb : Reg := 3
   let gc : Reg := 4; let h := fld (s.g t ga) 11 0; let c := s.coll h
   let named (w : Word) : Prop := s.rxValid h = true ∧ s.rxPart h = (s.tile t).part ∧ s.rxStepOk h (w.setWidth 16) = true
   let stB : BitVec 16 := (s.g t gb).setWidth 16
   s.ready t 8 = true ∧ s.inFiller t = false ∧ named (s.g t gb) ∧
   ((s.tile t).part ≠ 0 ∨ (s.gstep stB).accepted = false) ∧ 0 ≤ c.dist stB ∧ c.round stB = none ∧ c.locals ≠ [] ∧
   (s.tile t).part = 0) ∧
  (let s : State := collWr2; let t : Nat := 0; let ga : Reg := 1; let gb : Reg := 4; let h := fld (s.g t ga) 11 0
   let c := s.coll h; let st : BitVec 16 := (s.g t gb).setWidth 16
   let r : Round := (c.round st).getD {}
   s.ready t 8 = true ∧ s.inFiller t = false ∧ s.rxValid h = true ∧ s.rxPart h = (s.tile t).part ∧
   (s.tile t).part ≠ 0 ∧ s.rxStepOk h st = true ∧ 0 ≤ c.dist st ∧ c.locals = List.range c.shards.length ∧
   c.locals ≠ [] ∧ c.round st = some r ∧ r.complete = false) ∧
  (let s : State := collWr4; let h : Nat := 0; let i : Nat := 0; let st : BitVec 16 := 0
   let r : Round := (((collWr4.coll 0).round 0).getD {})
   (s.coll h).round st = some r ∧ i ∈ r.homesDone) ∧
  (let s : State := collWr2; let h : Nat := 0; let i : Nat := 0; let st : BitVec 16 := 0
   let r : Round := ((collWr2.coll 0).rounds.getD 0 {})
   (s.coll h).round st = some r ∧ i ∉ r.homesDone) := by
  iterate 12 refine ⟨by decide +kernel, ?_⟩
  decide +kernel

theorem test_witness_OptimizerApply :
  (let s : State := collWr2; let t : Nat := 0; let ga : Reg := 1; let gb : Reg := 6; let gc : Reg := 4
   let h := fld (s.g t ga) 11 0; let c := s.coll h; let n := s.rxNshard h; let a := (s.g t gb).toNat
   let d := wordsOf 8 (Mem.readN s.mem a 64); let st : BitVec 16 := (s.g t gc).setWidth 16; let g := s.rxGroup h
   s.ready t 8 = true ∧ s.inFiller t = false ∧ s.spErr = [] ∧ s.checkOwn t a 64 64 .access (s.g t gb) = none ∧
   s.cutPending a 64 = false ∧ s.rxValid h = true ∧ s.rxPart h = (s.tile t).part ∧ s.rxStepOk h st = true ∧
   apOk d = true ∧ s.rxApply h = true ∧ c.locals.length = n ∧ st = c.applyNext ∧
   (apClip d = true → (s.tile t).part = 0 ∧ s.rxResult h ≠ 0) ∧ s.alValid g = true ∧ s.alPart g = (s.tile t).part ∧
   s.alCommitter g = 1 ∧ (∀ i : Nat, i < n → workBytes (apWfmt d) (s.rxLen h) ≤ s.alBytes (s.alFirst g + i))) ∧
  (let s : State := collWr2; let t : Nat := 0; let ga : Reg := 1; let gb : Reg := 6; let gc : Reg := 4
   let h := fld (s.g t ga) 11 0; let c := s.coll h; let n := s.rxNshard h; let a := (s.g t gb).toNat
   let d := wordsOf 8 (Mem.readN s.mem a 64); let st : BitVec 16 := (s.g t gc).setWidth 16; let g := s.rxGroup h
   s.ready t 8 = true ∧ s.inFiller t = false ∧ s.spErr = [] ∧ s.checkOwn t a 64 64 .access (s.g t gb) = none ∧
   s.cutPending a 64 = false ∧ s.rxValid h = true ∧ s.rxPart h = (s.tile t).part ∧ s.rxStepOk h st = true ∧
   apOk d = true ∧ s.rxApply h = true ∧ c.locals.length = n ∧ st = c.applyNext ∧
   (apClip d = true → (s.tile t).part = 0 ∧ s.rxResult h ≠ 0) ∧ s.alValid g = true ∧ s.alPart g = (s.tile t).part ∧
   s.alCommitter g = 1 ∧ (∀ i : Nat, i < n → workBytes (apWfmt d) (s.rxLen h) ≤ s.alBytes (s.alFirst g + i)) ∧
   (s.group g).commits = []) ∧
  (let s : State := colvWr4; let h : Nat := 0
   let a : Apply := ((colvWr4.coll 0).applies.getD 0 {})
   s.rxValid h = true ∧ s.alOldestApply (s.rxGroup h) = some (h, a) ∧ a.started = false ∧ s.applyComplete h a = true ∧
   (s.alMirror (s.rxGroup h) = false ∨ (s.group (s.rxGroup h)).mirrored = (s.group (s.rxGroup h)).current) ∧
   apClip a.desc = false ∧ s.alStagingFree (s.rxGroup h) = true) ∧
  (let s : State := (colvWr4.setGroup 0 {colvWr4.group 0 with oldest := 4})
   let h : Nat := 0
   let a : Apply := ((colvWr4.coll 0).applies.getD 0 {})
   s.rxValid h = true ∧ s.alOldestApply (s.rxGroup h) = some (h, a) ∧ a.started = false ∧ s.applyComplete h a = true ∧
   (s.alMirror (s.rxGroup h) = false ∨ (s.group (s.rxGroup h)).mirrored = (s.group (s.rxGroup h)).current) ∧
   apClip a.desc = false ∧ s.alStagingFree (s.rxGroup h) = false) ∧
  (let s : State := colvWr5; let h : Nat := 0; let shard : Nat := 0
   let a : Apply := ((colvWr5.coll 0).applies.getD 0 {})
   s.rxValid h = true ∧ shard < (s.coll h).shards.length ∧
   ((s.coll h).applies.find? (fun a => a.started && !a.gone && !a.doneShards.contains shard) = some a)) ∧
  (let s : State := (collWr6 5 0); let h : Nat := 0; let shard : Nat := 0; let a : Apply := (collAplF 5 0)
   let p := s.rxPart h; let n := s.rxLen h
   let at_ (k : Nat) : Nat := fld ((s.coll h).word shard k) 47 0
   let sum := s.rxSum h shard a.idx
   let work := s.alBuffer (s.rxGroup h) (s.alFirst (s.rxGroup h) + shard) ((s.group (s.rxGroup h)).current + 1).toNat
   let f := apWfmt a.desc
   let planes : List (Nat × Nat) := [(sum, 4 * n), (at_ 1, 4 * n), (at_ 2, n + n / 32), (work, workBytes f n)] ++
       (if apAlg a.desc = 0 then [(at_ 3, n + n / 32)] else [])
   let b : Nat := 0
   s.rxValid h = true ∧ shard < (s.coll h).shards.length ∧
   ((s.coll h).applies.find? (fun a => a.started && !a.gone && !a.doneShards.contains shard) = some a) ∧
   a.doneShards.length + 1 < (s.coll h).shards.length ∧ (∀ x ∈ planes, s.served p x.1 x.2) ∧
   (planes.Pairwise (fun x y => x.1 + x.2 ≤ y.1 ∨ y.1 + y.2 ≤ x.1)) ∧ b < n / 32 ∧ apAlg a.desc = 0) ∧
  (let s : State := (collWr6 2 0); let h : Nat := 0; let shard : Nat := 1; let a : Apply := (collAplF 2 0)
   let p := s.rxPart h; let n := s.rxLen h
   let at_ (k : Nat) : Nat := fld ((s.coll h).word shard k) 47 0
   let sum := s.rxSum h shard a.idx
   let work := s.alBuffer (s.rxGroup h) (s.alFirst (s.rxGroup h) + shard) ((s.group (s.rxGroup h)).current + 1).toNat
   let f := apWfmt a.desc
   let planes : List (Nat × Nat) := [(sum, 4 * n), (at_ 1, 4 * n), (at_ 2, n + n / 32), (work, workBytes f n)] ++
       (if apAlg a.desc = 0 then [(at_ 3, n + n / 32)] else [])
   let b : Nat := 0
   s.rxValid h = true ∧ shard < (s.coll h).shards.length ∧
   ((s.coll h).applies.find? (fun a => a.started && !a.gone && !a.doneShards.contains shard) = some a) ∧
   a.doneShards.length + 1 < (s.coll h).shards.length ∧ (∀ x ∈ planes, s.served p x.1 x.2) ∧
   (planes.Pairwise (fun x y => x.1 + x.2 ≤ y.1 ∨ y.1 + y.2 ≤ x.1)) ∧ b < n / 32 ∧ f = .mxfp4) := by
  iterate 6 refine ⟨by decide +kernel, ?_⟩
  decide +kernel

theorem test_witness_ContributionsAtTheirHomes :
  (let s : State := (rbWkr.setColl 0 { rbWkr.coll 0 with contribs := (rbWk0.coll 0).contribs ++ [{ (rbWk0.coll 0).contribs.getD 0 {} with step := 65535, order := 9 }] })
   let h : Nat := 0; let shard : Nat := 0; let member : Nat := 3; let step : Nat := 0
   let x : Contrib := ((rbWk0.coll 0).contribs.getD 0 {})
   let c := s.coll h; let st := BitVec.ofNat 16 step
   s.rxValid h = true ∧ shard < c.shards.length ∧ s.rxMember h member = true ∧
   (c.contribs.find? (fun x => x.shard == shard && x.member == member && x.step == st && x.grant == .waiting) = some x) ∧
   c.remote shard = true ∧ (∃ y ∈ c.contribs, y.grant = .waiting ∧ c.before x y = true)) ∧
  (let s : State := collWkr; let h : Nat := 0; let shard : Nat := 0; let member : Nat := 3; let step : Nat := 0
   let x : Contrib := ((collWk0.coll 0).contribs.getD 0 {})
   let c := s.coll h; let st := BitVec.ofNat 16 step
   s.rxValid h = true ∧ shard < c.shards.length ∧ s.rxMember h member = true ∧
   (c.contribs.find? (fun x => x.shard == shard && x.member == member && x.step == st && x.grant == .waiting) = some x) ∧
   c.remote shard = true ∧ (∀ y ∈ c.contribs, y.grant = .waiting → c.before x y = false)) ∧
  (let s : State := collWk0; let h : Nat := 0; let shard : Nat := 0; let member : Nat := 3; let step : Nat := 0
   let x : Contrib := ((collWk0.coll 0).contribs.getD 0 {})
   let c := s.coll h; let st := BitVec.ofNat 16 step
   let mine (z : Contrib) : Prop := z.order = x.order ∧ z.shard = x.shard
   let still : Prop := (∀ q ∈ c.rounds, q.complete = true ∨ ∃ i, i < c.shards.length ∧ i ∉ q.homesDone) ∧
       s.rxFreeable h = false ∧ c.heldRelease = [] ∧ c.heldFar = [] ∧ c.heard = [] ∧ ∀ z ∈ c.contribs, z.grant ≠ .held
   let r : Round := (c.round st).getD {}
   s.rxValid h = true ∧ shard < c.shards.length ∧ s.rxMember h member = true ∧
   (c.contribs.find? (fun x => x.shard == shard && x.member == member && x.step == st && x.grant == .waiting) = some x) ∧
   c.remote shard = false ∧ c.round st = some r ∧ still ∧ (∀ z ∈ c.contribs, mine z → z = x) ∧ c.contribs.Nodup ∧
   s.rb (c.stack shard / 3) (msaOff (c.stack shard)) 0 = true ∧
   (∀ y ∈ c.contribs, y.grant = .waiting → c.before x y = false) ∧ 0 ≤ c.dist st ∧ (shard, member) ∉ r.seen ∧
   shard ∉ r.homesDone ∧ (s.rxByArrival h = true ∨ ∀ k ∈ s.rxMembers h, k < member → (shard, k) ∈ r.added)) ∧
  (let s : State := { collWkr1 with unitIn := [{ cls := 5, payload := unitBytes [1, 0, 0, 3, 0, 0] }] }
   let h : Nat := 0; let shard : Nat := 0; let member : Nat := 3; let step : Nat := 0
   let x : Contrib := ((collWkr1.coll 0).contribs.getD 0 {})
   let c := s.coll h; let st := BitVec.ofNat 16 step
   let cell : LkCell := (s.unitCell 5 [1, h, shard, member, st.toNat]).getD {}
   s.rxValid h = true ∧ shard < c.shards.length ∧ s.rxMember h member = true ∧
   (c.contribs.find? (fun x => x.shard == shard && x.member == member && x.step == st && !x.sent && x.tile.isSome && x.grant != .waiting && x.grant != .held) = some x) ∧
   s.cutPending x.src (s.rxBytes h) = false ∧ x.grant = .asked ∧
   s.unitCell 5 [1, h, shard, member, st.toNat] = some cell) ∧
  (let s : State := collWkr1; let h : Nat := 0; let shard : Nat := 0; let member : Nat := 3; let step : Nat := 0
   let x : Contrib := ((collWkr1.coll 0).contribs.getD 0 {})
   let c := s.coll h; let st := BitVec.ofNat 16 step
   s.rxValid h = true ∧ shard < c.shards.length ∧ s.rxMember h member = true ∧
   (c.contribs.find? (fun x => x.shard == shard && x.member == member && x.step == st && !x.sent && x.tile.isSome && x.grant != .waiting && x.grant != .held) = some x) ∧
   s.cutPending x.src (s.rxBytes h) = false ∧ x.grant = .asked ∧ s.unitCell 5 [1, h, shard, member, st.toNat] = none) ∧
  (let s : State := collWk1; let h : Nat := 0; let shard : Nat := 0; let member : Nat := 3; let step : Nat := 0
   let x : Contrib := ((collWk1.coll 0).contribs.getD 0 {})
   let c := s.coll h; let st := BitVec.ofNat 16 step
   s.rxValid h = true ∧ shard < c.shards.length ∧ s.rxMember h member = true ∧
   (c.contribs.find? (fun x => x.shard == shard && x.member == member && x.step == st && !x.sent && x.tile.isSome && x.grant != .waiting && x.grant != .held) = some x) ∧
   s.cutPending x.src (s.rxBytes h) = false ∧ x.grant ≠ .asked) ∧
  (let s : State := collWk3; let h : Nat := 0; let shard : Nat := 0; let member : Nat := 3; let step : Nat := 0
   let x : Contrib := ((collWk3.coll 0).contribs.getD 0 {})
   let c := s.coll h; let st := BitVec.ofNat 16 step
   let mine (z : Contrib) : Prop := z.order = x.order ∧ z.shard = x.shard
   let still : Prop := (∀ q ∈ c.rounds, q.complete = true ∨ ∃ i, i < c.shards.length ∧ i ∉ q.homesDone) ∧
       s.rxFreeable h = false ∧ c.heldRelease = [] ∧ c.heldFar = [] ∧ c.heard = [] ∧ ∀ z ∈ c.contribs, z.grant ≠ .held
   let pos : Nat := 0
   let r : Round := (c.round st).getD {}
   s.rxValid h = true ∧ shard < c.shards.length ∧ s.rxMember h member = true ∧ pos % 256 = 0 ∧ pos < s.rxBytes h ∧
   x.grant = .direct ∧ x.remote = false ∧ c.round st = some r ∧ still ∧
   (c.contribs.find? (fun x => x.shard == shard && x.member == member && x.step == st && (x.sent || x.remote) && (x.grant == .direct || x.grant == .staged || x.grant == .late) && !x.got.contains (pos / 256)) = some x) ∧
   (∀ y ∈ c.contribs, c.before x y = false) ∧ (∀ y ∈ c.contribs, y.grant ≠ .staged) ∧
   (∀ z ∈ c.contribs, mine z → z = x) ∧ (c.rounds.map (·.step)).Nodup ∧ (∃ k ∈ s.rxMembers h, k ≠ member ∧
   (shard, k) ∉ r.added) ∧ shard ∉ r.homesDone) ∧
  (let s : State := ((collWk2.setColl 0 {collWk2.coll 0 with contribs := [collLate]}).setRb 8 (rxOff 0) 58 true)
   let h : Nat := 0; let shard : Nat := 0; let member : Nat := 3; let step : Nat := 0; let x : Contrib := collLate
   let c := s.coll h; let st := BitVec.ofNat 16 step
   let still : Prop := (∀ q ∈ c.rounds, q.complete = true ∨ ∃ i, i < c.shards.length ∧ i ∉ q.homesDone) ∧
       s.rxFreeable h = false ∧ c.heldRelease = [] ∧ c.heldFar = [] ∧ c.heard = [] ∧ ∀ z ∈ c.contribs, z.grant ≠ .held
   let pos : Nat := 0
   (x.remote = true → ∃ (no : Nat) (bs : List Byte), x.no = some no ∧
   cellsAt (s.unitCells (granted no)) pos (min 256 (s.rxBytes h - pos)) = some bs) ∧ s.rxValid h = true ∧
   shard < c.shards.length ∧ s.rxMember h member = true ∧ pos % 256 = 0 ∧ pos < s.rxBytes h ∧ x.grant = .late ∧
   s.rxDiscards h = true ∧ still ∧
   (c.contribs.find? (fun x => x.shard == shard && x.member == member && x.step == st && (x.sent || x.remote) && (x.grant == .direct || x.grant == .staged || x.grant == .late) && !x.got.contains (pos / 256)) = some x) ∧
   (∀ y ∈ c.contribs, c.before x y = false)) ∧
  (let s : State := collWkl; let h : Nat := 0; let shard : Nat := 0; let member : Nat := 3; let step : Nat := 0
   let x : Contrib := collLate; let c := s.coll h; let st := BitVec.ofNat 16 step
   let still : Prop := (∀ q ∈ c.rounds, q.complete = true ∨ ∃ i, i < c.shards.length ∧ i ∉ q.homesDone) ∧
       s.rxFreeable h = false ∧ c.heldRelease = [] ∧ c.heldFar = [] ∧ c.heard = [] ∧ ∀ z ∈ c.contribs, z.grant ≠ .held
   let pos : Nat := 0
   s.rxValid h = true ∧ shard < c.shards.length ∧ s.rxMember h member = true ∧ pos % 256 = 0 ∧ pos < s.rxBytes h ∧
   x.grant = .late ∧ x.remote = false ∧ s.rxDiscards h = false ∧ still ∧
   (c.contribs.find? (fun x => x.shard == shard && x.member == member && x.step == st && (x.sent || x.remote) && (x.grant == .direct || x.grant == .staged || x.grant == .late) && !x.got.contains (pos / 256)) = some x) ∧
   (∀ y ∈ c.contribs, c.before x y = false)) ∧
  (let s : State := collWk3; let h : Nat := 0; let shard : Nat := 0; let member : Nat := 3; let step : Nat := 0
   let x : Contrib := ((collWk3.coll 0).contribs.getD 0 {})
   let c := s.coll h; let st := BitVec.ofNat 16 step
   let mine (z : Contrib) : Prop := z.order = x.order ∧ z.shard = x.shard
   let still : Prop := (∀ q ∈ c.rounds, q.complete = true ∨ ∃ i, i < c.shards.length ∧ i ∉ q.homesDone) ∧
       s.rxFreeable h = false ∧ c.heldRelease = [] ∧ c.heldFar = [] ∧ c.heard = [] ∧ ∀ z ∈ c.contribs, z.grant ≠ .held
   let pos : Nat := 0
   let r : Round := (c.round st).getD {}
   s.rxValid h = true ∧ shard < c.shards.length ∧ s.rxMember h member = true ∧ pos % 256 = 0 ∧ pos < s.rxBytes h ∧
   x.grant = .direct ∧ x.remote = false ∧ c.round st = some r ∧ still ∧
   (c.contribs.find? (fun x => x.shard == shard && x.member == member && x.step == st && (x.sent || x.remote) && (x.grant == .direct || x.grant == .staged || x.grant == .late) && !x.got.contains (pos / 256)) = some x) ∧
   (∀ y ∈ c.contribs, c.before x y = false) ∧ (∀ y ∈ c.contribs, y.grant ≠ .staged) ∧
   (∀ z ∈ c.contribs, mine z → z = x) ∧ (c.rounds.map (·.step)).Nodup ∧ (∃ k ∈ s.rxMembers h, k ≠ member ∧
   (shard, k) ∉ r.added) ∧ shard ∉ r.homesDone ∧ x.got.length + 1 < s.rxWrites h) ∧
  (let s : State := rbWk2; let h : Nat := 0; let shard : Nat := 0; let member : Nat := 3; let step : Nat := 0
   let x : Contrib := ((rbWk2.coll 0).contribs.getD 0 {})
   let c := s.coll h; let st := BitVec.ofNat 16 step
   let mine (z : Contrib) : Prop := z.order = x.order ∧ z.shard = x.shard
   let still : Prop := (∀ q ∈ c.rounds, q.complete = true ∨ ∃ i, i < c.shards.length ∧ i ∉ q.homesDone) ∧
       s.rxFreeable h = false ∧ c.heldRelease = [] ∧ c.heldFar = [] ∧ c.heard = [] ∧ ∀ z ∈ c.contribs, z.grant ≠ .held
   let pos : Nat := 0
   let r : Round := (c.round st).getD {}
   s.rxValid h = true ∧ shard < c.shards.length ∧ s.rxMember h member = true ∧ pos % 256 = 0 ∧ pos < s.rxBytes h ∧
   x.grant = .direct ∧ x.remote = false ∧ c.round st = some r ∧ still ∧
   (c.contribs.find? (fun x => x.shard == shard && x.member == member && x.step == st && (x.sent || x.remote) && (x.grant == .direct || x.grant == .staged || x.grant == .late) && !x.got.contains (pos / 256)) = some x) ∧
   (∀ y ∈ c.contribs, c.before x y = false) ∧ (∀ y ∈ c.contribs, y.grant ≠ .staged) ∧
   (∀ z ∈ c.contribs, mine z → z = x) ∧ (c.rounds.map (·.step)).Nodup ∧ (∃ k ∈ s.rxMembers h, k ≠ member ∧
   (shard, k) ∉ r.added) ∧ shard ∉ r.homesDone ∧ s.rxWrites h ≤ x.got.length + 1) ∧
  (let s : State := collWk3; let h : Nat := 0; let shard : Nat := 0; let member : Nat := 3; let step : Nat := 0
   let x : Contrib := ((collWk3.coll 0).contribs.getD 0 {})
   let c := s.coll h; let st := BitVec.ofNat 16 step
   let mine (z : Contrib) : Prop := z.order = x.order ∧ z.shard = x.shard
   let still : Prop := (∀ q ∈ c.rounds, q.complete = true ∨ ∃ i, i < c.shards.length ∧ i ∉ q.homesDone) ∧
       s.rxFreeable h = false ∧ c.heldRelease = [] ∧ c.heldFar = [] ∧ c.heard = [] ∧ ∀ z ∈ c.contribs, z.grant ≠ .held
   let pos : Nat := 0
   let r : Round := (c.round st).getD {}
   let sp := s.rxSpan h (pos / 256); let a := s.rxSum h shard r.idx + 4 * sp.1; let p := s.rxPart h
   s.rxValid h = true ∧ shard < c.shards.length ∧ s.rxMember h member = true ∧ pos % 256 = 0 ∧ pos < s.rxBytes h ∧
   x.grant = .direct ∧ x.remote = false ∧ c.round st = some r ∧ still ∧
   (c.contribs.find? (fun x => x.shard == shard && x.member == member && x.step == st && (x.sent || x.remote) && (x.grant == .direct || x.grant == .staged || x.grant == .late) && !x.got.contains (pos / 256)) = some x) ∧
   (∀ y ∈ c.contribs, c.before x y = false) ∧ (∀ y ∈ c.contribs, y.grant ≠ .staged) ∧
   (∀ z ∈ c.contribs, mine z → z = x) ∧ (c.rounds.map (·.step)).Nodup ∧ (∃ k ∈ s.rxMembers h, k ≠ member ∧
   (shard, k) ∉ r.added) ∧ shard ∉ r.homesDone ∧ s.canonical = true ∧ s.unregulated p ∧ s.sound p a (4 * sp.2) ∧
   a + 4 * sp.2 ≤ dramTop) ∧
  (let s : State := collWkl; let h : Nat := 0; let shard : Nat := 0; let member : Nat := 3; let step : Nat := 0
   let x : Contrib := collLate; let c := s.coll h; let st := BitVec.ofNat 16 step
   let still : Prop := (∀ q ∈ c.rounds, q.complete = true ∨ ∃ i, i < c.shards.length ∧ i ∉ q.homesDone) ∧
       s.rxFreeable h = false ∧ c.heldRelease = [] ∧ c.heldFar = [] ∧ c.heard = [] ∧ ∀ z ∈ c.contribs, z.grant ≠ .held
   let pos : Nat := 0; let sp := s.rxSpan h (pos / 256); let a := s.rxDefer h shard + 4 * sp.1
   let p := s.rxPart h
   s.rxValid h = true ∧ shard < c.shards.length ∧ s.rxMember h member = true ∧ pos % 256 = 0 ∧ pos < s.rxBytes h ∧
   x.grant = .late ∧ x.remote = false ∧ s.rxDiscards h = false ∧ still ∧
   (c.contribs.find? (fun x => x.shard == shard && x.member == member && x.step == st && (x.sent || x.remote) && (x.grant == .direct || x.grant == .staged || x.grant == .late) && !x.got.contains (pos / 256)) = some x) ∧
   (∀ y ∈ c.contribs, c.before x y = false) ∧ s.served p a (4 * sp.2)) := by
  iterate 7 refine ⟨by decide +kernel, ?_⟩
  refine ⟨⟨fun h => absurd h (by decide +kernel), by decide +kernel⟩, ?_⟩
  iterate 4 refine ⟨by decide +kernel, ?_⟩
  decide +kernel

theorem test_witness_NormAndCollectiveSetup :
  (let s : State := collWg3; let step : Nat := 0; let norm2 : BitVec 32 := 0x42800000
   let st := BitVec.ofNat 16 step; let hs := s.gnormColls st
   let parts := hs.flatMap fun h => ((s.gnormPart h st).map (·.2)).getD []
   let ex := parts.foldl (fun (a : Int × Int) p => dyAdd a.1 a.2 p.m p.e) (0, 0)
   (∀ h ∈ hs, ∃ l, s.gnormPart h st = some (false, l) ∧ ∀ p ∈ l, p.bad = false) ∧ (s.gstep st).accepted = true ∧
   (s.gstep st).void = false ∧ (s.gstep st).formed = none ∧ hs ≠ [] ∧
   withinRel norm2 ex.1 ex.2 (s.gnormBound hs) = true) ∧
  (let s : State := collWg5; let step : Nat := 0; let norm2 : BitVec 32 := 0x42800000
   let st := BitVec.ofNat 16 step; let hs := s.gnormColls st
   let parts := hs.flatMap fun h => ((s.gnormPart h st).map (·.2)).getD []
   let ex := parts.foldl (fun (a : Int × Int) p => dyAdd a.1 a.2 p.m p.e) (0, 0)
   let h := 0
   (∀ h ∈ hs, ∃ l, s.gnormPart h st = some (false, l) ∧ ∀ p ∈ l, p.bad = false) ∧ (s.gstep st).accepted = true ∧
   (s.gstep st).void = false ∧ (s.gstep st).formed = none ∧ hs ≠ [] ∧
   withinRel norm2 ex.1 ex.2 (s.gnormBound hs) = true ∧ h ∈ hs ∧ st ∈ (s.coll h).gnorms ∧ st ∉ (s.coll h).normed ∧
   s.rxResult h ≠ 0 ∧ s.served 0 (s.rxResult h) 64 ∧
   (∀ k ∈ hs, k ≠ h → s.rxResult k + 64 ≤ s.rxResult h ∨ s.rxResult h + 64 ≤ s.rxResult k)) ∧
  (let s : State := colvWr0; let h : Nat := 0; let v : Word := (BitVec.ofNat 64 (colvRxw 1))
   let s1 := (((s.setRg dieMerA (rxOff h) (s.rxCfgWord h v)).setRg dieMerA (rxOff h + 0x28) 0).setRg dieMerA
       (rxOff h + 0x30) 0).setRg dieMerA (rxOff h + 0x38) 0
   let base := s1.rf dieMerA (rxOff h + 0x10) 47 0; let n := s1.rxNshard h
   let r := if s1.inDramOf (s1.rxPart h) base (32 * n) then s1.readAny (s1.rxPart h) base (32 * n) else ([], false, s1)
   let tab := (List.range n).map fun i => wordsOf 4 (r.1.drop (32 * i))
   h < 4096 ∧ s.rxValid h = false ∧ r.2.2.rxOk h tab = false) ∧
  (let s : State := collWr1; let h : Nat := 0; let v : Word := (BitVec.ofNat 64 (collRxw 1))
   let s1 := (((s.setRg dieMerA (rxOff h) (s.rxCfgWord h v)).setRg dieMerA (rxOff h + 0x28) 0).setRg dieMerA
       (rxOff h + 0x30) 0).setRg dieMerA (rxOff h + 0x38) 0
   let base := s1.rf dieMerA (rxOff h + 0x10) 47 0; let n := s1.rxNshard h
   let r := if s1.inDramOf (s1.rxPart h) base (32 * n) then s1.readAny (s1.rxPart h) base (32 * n) else ([], false, s1)
   let tab := (List.range n).map fun i => wordsOf 4 (r.1.drop (32 * i))
   h < 4096 ∧ s.rxValid h = false ∧ r.2.2.rxOk h tab = true) ∧
  (let s : State := colvWr0; let h : Nat := 0; let v : Word := (BitVec.ofNat 64 (colvRxw 1))
   let s1 := (((s.setRg dieMerA (rxOff h) (s.rxCfgWord h v)).setRg dieMerA (rxOff h + 0x28) 0).setRg dieMerA
       (rxOff h + 0x30) 0).setRg dieMerA (rxOff h + 0x38) 0
   let base := s1.rf dieMerA (rxOff h + 0x10) 47 0; let n := s1.rxNshard h
   let r := if s1.inDramOf (s1.rxPart h) base (32 * n) then s1.readAny (s1.rxPart h) base (32 * n) else ([], false, s1)
   let tab := (List.range n).map fun i => wordsOf 4 (r.1.drop (32 * i))
   let o := 0x28
   h < 4096 ∧ s.rxValid h = false ∧ r.2.2.rxOk h tab = false ∧ o ∈ [0x28, 0x30, 0x38]) ∧
  (let s : State := collWr2; let h : Nat := 0; let v : Word := 0
   h < 4096) ∧
  (let s : State := collWr2; let h : Nat := 0; let v : Word := 0
   h < 4096 ∧ s.rxValid h = true) := by
  refine ⟨⟨on_one (by decide +kernel : _ = [0]) ⟨[{ shard := 0, v := 0x42000000, m := 2 ^ 51, e := -46, bad := false }, { shard := 1, v := 0x42000000, m := 2 ^ 51, e := -46, bad := false }], by decide +kernel, by decide +kernel⟩, by decide +kernel⟩, ?_⟩
  refine ⟨⟨on_one (by decide +kernel : _ = [0]) ⟨[{ shard := 0, v := 0x42000000, m := 2 ^ 51, e := -46, bad := false }, { shard := 1, v := 0x42000000, m := 2 ^ 51, e := -46, bad := false }], by decide +kernel, by decide +kernel⟩, by decide +kernel⟩, ?_⟩
  iterate 4 refine ⟨by decide +kernel, ?_⟩
  decide +kernel

theorem test_witness_ExchangeInstructions :
  (let s : State := exWe1; let t : Nat := 0; let ga : Reg := 1; let gb : Reg := 2; let gc : Reg := 3
   let h := fld (s.g t ga) 11 0; let n := (s.g t gc).toNat; let a := (s.g t gb).toNat; let size := s.exSize h
   let named : Prop := s.exValid h = true ∧ s.exPart h = (s.tile t).part ∧ 1 ≤ n ∧ n ≤ 65535
   let back := bitOf (BitVec.ofNat 64 (leNat (s.readAny (s.tile t).part a 8).1)) 51
   s.ready t 8 = true ∧ s.inFiller t = false ∧ named ∧ s.payOutside t a (n * size) = none ∧
   s.cutPending a (n * size) = false ∧ back = false ∧ s.exHeld t < 2) ∧
  (let s : State := (nx (exec (.exDispatch 0 1 2 3) exWe2)); let t : Nat := 0; let ga : Reg := 1
   let gb : Reg := 2; let gc : Reg := 3; let h := fld (s.g t ga) 11 0; let n := (s.g t gc).toNat
   let a := (s.g t gb).toNat; let size := s.exSize h
   let named : Prop := s.exValid h = true ∧ s.exPart h = (s.tile t).part ∧ 1 ≤ n ∧ n ≤ 65535
   let back := bitOf (BitVec.ofNat 64 (leNat (s.readAny (s.tile t).part a 8).1)) 51
   s.ready t 8 = true ∧ s.inFiller t = false ∧ named ∧ s.payOutside t a (n * size) = none ∧
   s.cutPending a (n * size) = false ∧ back = false ∧ 2 ≤ s.exHeld t) ∧
  (let s : State := { exWe1 with mem := cells 0x8000 [0x8000000000010000, 0x0002000000000001] ++ cells 0x200000000100 [2^51] }
   let t : Nat := 0; let ga : Reg := 1; let gb : Reg := 2; let gc : Reg := 3; let h := fld (s.g t ga) 11 0
   let n := (s.g t gc).toNat; let a := (s.g t gb).toNat; let size := s.exSize h
   let named : Prop := s.exValid h = true ∧ s.exPart h = (s.tile t).part ∧ 1 ≤ n ∧ n ≤ 65535
   let back := bitOf (BitVec.ofNat 64 (leNat (s.readAny (s.tile t).part a 8).1)) 51
   s.ready t 8 = true ∧ s.inFiller t = false ∧ named ∧ s.payOutside t a (n * size) = none ∧
   s.cutPending a (n * size) = false ∧ back = true) ∧
  (let s : State := exWk1; let t : Nat := 0; let ga : Reg := 1; let gb : Reg := 5; let gc : Reg := 3
   let h := fld (s.g t ga) 11 0; let n := (s.g t gc).toNat; let a := (s.g t gb).toNat; let x := s.exState h
   let size := s.exSize h
   let named : Prop := s.exValid h = true ∧ s.exPart h = (s.tile t).part ∧ 1 ≤ n ∧ n ≤ 65535
   let d : ExDisp := (x.disps.find? (fun d => d.tile == t && d.dest.isNone)).getD {}
   s.ready t 8 = true ∧ s.inFiller t = false ∧ named ∧ s.payOutside t a (n * size) = none ∧
   s.cutPending a (n * size) = false ∧ (x.disps.find? (fun d => d.tile == t && d.dest.isNone) = some d) ∧
   d.count = n) ∧
  (let s : State := exWe1; let t : Nat := 0; let ga : Reg := 7; let gb : Reg := 2; let gc : Reg := 3
   let h := fld (s.g t ga) 11 0; let n := (s.g t gc).toNat
   let named : Prop := s.exValid h = true ∧ s.exPart h = (s.tile t).part ∧ 1 ≤ n ∧ n ≤ 65535
   let i := Instr.exDispatch t ga gb gc
   s.ready t 8 = true ∧ s.inFiller t = false ∧ s.hasHandler t = true ∧ ¬named ∧
   i ∈ [Instr.exDispatch t ga gb gc, .exCombine t ga gb gc]) ∧
  (let s : State := exWe1; let t : Nat := 0; let ga : Reg := 1; let gb : Reg := 2; let gc : Reg := 3
   let h := fld (s.g t ga) 11 0; let n := (s.g t gc).toNat; let x := s.exState h
   let named : Prop := s.exValid h = true ∧ s.exPart h = (s.tile t).part ∧ 1 ≤ n ∧ n ≤ 65535
   s.ready t 8 = true ∧ s.inFiller t = false ∧ s.hasHandler t = true ∧ named ∧
   (∀ d : ExDisp, x.disps.find? (fun d => d.tile == t && d.dest.isNone) = some d → d.count ≠ n)) ∧
  (let s : State := exWe1; let t : Nat := 0; let ga : Reg := 1; let gb : Reg := 2; let gc : Reg := 3
   let h := fld (s.g t ga) 11 0; let n := (s.g t gc).toNat; let a := (s.g t gb).toNat; let size := s.exSize h
   let named : Prop := s.exValid h = true ∧ s.exPart h = (s.tile t).part ∧ 1 ≤ n ∧ n ≤ 65535
   let back := bitOf (BitVec.ofNat 64 (leNat (s.readAny (s.tile t).part a 8).1)) 51
   let w := wordsOf 8 (Mem.readN s.mem a size)
   s.ready t 8 = true ∧ s.inFiller t = false ∧ named ∧ s.payOutside t a (n * size) = none ∧
   s.cutPending a (n * size) = false ∧ back = false ∧ s.exHeld t < 2 ∧ n = 1 ∧ isDram a = false ∧ s.spErr = [] ∧
   s.exCase h w 0 = 0) ∧
  (let s : State := (nx (exec (.exCombine 0 1 5 3) exWk1)); let t : Nat := 0; let ga : Reg := 1; let gb : Reg := 5
   let gc : Reg := 3; let h := fld (s.g t ga) 11 0; let n := (s.g t gc).toNat; let a := (s.g t gb).toNat
   let size := s.exSize h
   let named : Prop := s.exValid h = true ∧ s.exPart h = (s.tile t).part ∧ 1 ≤ n ∧ n ≤ 65535
   let back := bitOf (BitVec.ofNat 64 (leNat (s.readAny (s.tile t).part a 8).1)) 51
   let w := wordsOf 8 (Mem.readN s.mem a size)
   s.ready t 8 = true ∧ s.inFiller t = false ∧ named ∧ s.payOutside t a (n * size) = none ∧
   s.cutPending a (n * size) = false ∧ back = false ∧ s.exHeld t < 2 ∧ n = 1 ∧ isDram a = false ∧ s.spErr = [] ∧
   s.exCase h w 0 ≠ 0) ∧
  (let s : State := exWk1; let t : Nat := 0; let ga : Reg := 1; let gb : Reg := 5; let gc : Reg := 3
   let h := fld (s.g t ga) 11 0; let n := (s.g t gc).toNat; let a := (s.g t gb).toNat; let x := s.exState h
   let size := s.exSize h
   let named : Prop := s.exValid h = true ∧ s.exPart h = (s.tile t).part ∧ 1 ≤ n ∧ n ≤ 65535
   let d : ExDisp := (x.disps.find? (fun d => d.tile == t && d.dest.isNone)).getD {}
   s.ready t 8 = true ∧ s.inFiller t = false ∧ named ∧ s.payOutside t a (n * size) = none ∧
   s.cutPending a (n * size) = false ∧ (x.disps.find? (fun d => d.tile == t && d.dest.isNone) = some d) ∧
   d.count = n ∧ n = 1 ∧ isDram a = false ∧ s.canonical = true ∧ d.status.val 0 0 ≠ 0) := by
  iterate 8 refine ⟨by decide +kernel, ?_⟩
  decide +kernel

theorem test_witness_ExchangeEvents :
  (let s : State := (nx (exec (.exDispatch 0 1 2 3) (nx (exec (.exCombine 0 1 5 3) exWe4))))
   let h : Nat := 0; let i : Nat := 1; let x := s.exState h
   let rc : ExRec := (x.flight[i]?).getD {}
   let e := recExpert rc.hdr; let r := recRound rc.hdr
   s.exValid h = true ∧ x.flight[i]? = some rc ∧ x.openRound e r = false) ∧
  (let s : State := exWfar; let h : Nat := 0; let i : Nat := 0; let x := s.exState h
   let rc : ExRec := (x.flight[i]?).getD {}
   let e := recExpert rc.hdr; let r := recRound rc.hdr; let away := exRemote x (exHome x e)
   s.exValid h = true ∧ x.flight[i]? = some rc ∧ away = true ∧ x.openRound e r = true) ∧
  (let s : State := exWe2; let h : Nat := 0; let i : Nat := 0; let x := s.exState h
   let rc : ExRec := (x.flight[i]?).getD {}
   let e := recExpert rc.hdr; let r := recRound rc.hdr; let away := exRemote x (exHome x e)
   s.exValid h = true ∧ x.flight[i]? = some rc ∧ away = false ∧ x.openRound e r = true ∧
   (x.half e r).count < exCap x e) ∧
  (let s : State := exWcap; let h : Nat := 0; let i : Nat := 0; let x := s.exState h
   let rc : ExRec := (x.flight[i]?).getD {}
   let e := recExpert rc.hdr; let r := recRound rc.hdr; let away := exRemote x (exHome x e)
   s.exValid h = true ∧ x.flight[i]? = some rc ∧ away = false ∧ x.openRound e r = true ∧
   exCap x e ≤ (x.half e r).count) ∧
  (let s : State := exWfl; let h : Nat := 0; let i : Nat := 0; let x := s.exState h
   let cs : List LkCell := (s.exCells h 3 i).getD []; let bs := (cs.flatMap (·.payload)).take (s.exSize h)
   let w := wordsOf 8 bs; let e := recExpert w; let r := recRound w
   s.exValid h = true ∧ s.exCells h 3 i = some cs ∧ exValidExpert x e = true ∧ exRemote x (exHome x e) = false ∧
   x.openRound e r = true ∧ (x.half e r).complete = false ∧ (x.half e r).count < exCap x e) ∧
  (let s : State := { exWe1 with unitIn := [exCellN 3 0 (bytesOf exRec1) 0, exCellN 3 markAt (bytesOf [0, 0, 0, 0]) 0] }
   let h : Nat := 0; let i : Nat := 0; let x := s.exState h; let engine : Nat := 0; let round : Nat := 0
   let dest : Nat := 0
   let brought (c : LkCell) : Bool := c.cls == 3 && c.offset == markAt && unitWords c == [h, engine, dest, round]
   let behind (c : LkCell) : Bool := (s.unitIn.takeWhile (· != c)).any fun y => y.cls == 3 && y.object == h &&
       (y.via == c.via || s.peerId y.via == s.peerId c.via) && y.offset != markAt
   let c : LkCell := (s.unitIn.find? brought).getD {}
   s.exValid h = true ∧ round < 65536 ∧ exValidEngine x engine = true ∧ s.unitIn.find? brought = some c ∧
   behind c = true) ∧
  (let s : State := { exWe1 with unitIn := [exCellN 3 markAt (bytesOf [0, 0, 0, 0]) 0] }
   let h : Nat := 0; let i : Nat := 0; let x := s.exState h; let engine : Nat := 0; let round : Nat := 0
   let dest : Nat := 0
   let brought (c : LkCell) : Bool := c.cls == 3 && c.offset == markAt && unitWords c == [h, engine, dest, round]
   let behind (c : LkCell) : Bool := (s.unitIn.takeWhile (· != c)).any fun y => y.cls == 3 && y.object == h &&
       (y.via == c.via || s.peerId y.via == s.peerId c.via) && y.offset != markAt
   let c : LkCell := (s.unitIn.find? brought).getD {}
   s.exValid h = true ∧ round < 65536 ∧ exValidEngine x engine = true ∧ s.unitIn.find? brought = some c ∧
   behind c = false ∧ (exValidEngine x dest = false ∨ exRemote x dest = false) ∧ x.needsMark round = true) ∧
  (let s : State := exWe3; let h : Nat := 0; let i : Nat := 0; let x := s.exState h; let engine : Nat := 0
   let round : Nat := 0; let dest : Nat := 0
   let brought (c : LkCell) : Bool := c.cls == 3 && c.offset == markAt && unitWords c == [h, engine, dest, round]
   s.exValid h = true ∧ round < 65536 ∧ exValidEngine x engine = true ∧ s.unitIn.find? brought = none ∧
   engine = s.exEngine h ∧ dest = engine ∧ s.exMarkDue h round = true ∧ x.needsMark round = true) ∧
  (let s : State := { exWe1 with unitIn := [exCellN 3 markAt (bytesOf [0, 0, 0, 0]) 0] }
   let h : Nat := 0; let i : Nat := 0; let x := s.exState h; let engine : Nat := 0; let round : Nat := 0
   let dest : Nat := 1
   let brought (c : LkCell) : Bool := c.cls == 3 && c.offset == markAt && unitWords c == [h, engine, dest, round]
   s.exValid h = true ∧ round < 65536 ∧ exValidEngine x engine = true ∧ s.unitIn.find? brought = none ∧
   (engine ≠ s.exEngine h ∨ dest ≠ engine ∨ s.exMarkDue h round = false)) ∧
  (let s : State := { exWe2 with unitIn := [exCellN 5 0 (bytesOf [3, 0, 0, 0, 0, 0]) 0] }
   let h : Nat := 0; let i : Nat := 0; let x := s.exState h; let srcTile : Nat := 0; let round : Nat := 0
   let index : Nat := 0
   let d : ExDisp := (x.outstanding srcTile round index).getD {}
   let n := s.exEngine h
   s.exValid h = true ∧ x.outstanding srcTile round index = some d ∧ d.dest = none ∧
   (s.unitCell 5 [3, h, n, srcTile, round, index]).isSome = true) ∧
  (let s : State := exWcap2; let h : Nat := 0; let i : Nat := 0; let x := s.exState h; let srcTile : Nat := 0
   let round : Nat := 0; let index : Nat := 0
   let d : ExDisp := (x.outstanding srcTile round index).getD {}
   let n := s.exEngine h
   s.exValid h = true ∧ x.outstanding srcTile round index = some d ∧ d.dest = none ∧
   s.unitCell 5 [3, h, n, srcTile, round, index] = none ∧ (srcTile, round, index) ∈ x.notices) ∧
  (let s : State := exWret0; let h : Nat := 0; let i : Nat := 0; let x := s.exState h
   let ret : ExRet := (x.returns[i]?).getD {}
   let w := s.peekHdr (s.exPart h) ret.src
   let d : ExDisp := (x.outstanding (recTile w) (recRound w) (recIndex w)).getD {}
   s.exValid h = true ∧ x.returns[i]? = some ret ∧ 64 ≤ s.exSize h ∧ s.cutPending ret.src (s.exSize h) = false ∧
   recEngine w = s.exEngine h ∧ recExpert w ≠ 0xFFF ∧ x.outstanding (recTile w) (recRound w) (recIndex w) = some d ∧
   d.dest = none) ∧
  (let s : State := exWret1; let h : Nat := 0; let i : Nat := 0; let x := s.exState h
   let ret : ExRet := (x.returns[i]?).getD {}
   let w := s.peekHdr (s.exPart h) ret.src
   let d : ExDisp := (x.outstanding (recTile w) (recRound w) (recIndex w)).getD {}
   s.exValid h = true ∧ x.returns[i]? = some ret ∧ 64 ≤ s.exSize h ∧ s.cutPending ret.src (s.exSize h) = false ∧
   recEngine w = s.exEngine h ∧ recExpert w ≠ 0xFFF ∧ x.outstanding (recTile w) (recRound w) (recIndex w) = some d ∧
   d.dest ≠ none) ∧
  (let s : State := (exWret1.setEx 0 { exWret1.exState 0 with disps := [] })
   let h : Nat := 0; let i : Nat := 0; let x := s.exState h
   let ret : ExRet := (x.returns[i]?).getD {}
   let w := s.peekHdr (s.exPart h) ret.src
   s.exValid h = true ∧ x.returns[i]? = some ret ∧ 64 ≤ s.exSize h ∧ s.cutPending ret.src (s.exSize h) = false ∧
   recEngine w = s.exEngine h ∧ recExpert w ≠ 0xFFF ∧ x.outstanding (recTile w) (recRound w) (recIndex w) = none) ∧
  (let s : State := exWcap; let h : Nat := 0; let i : Nat := 0; let x := s.exState h
   let rc : ExRec := (x.flight[i]?).getD {}
   let e := recExpert rc.hdr; let r := recRound rc.hdr; let away := exRemote x (exHome x e)
   s.exValid h = true ∧ x.flight[i]? = some rc ∧ away = false ∧ x.openRound e r = true ∧
   exCap x e ≤ (x.half e r).count ∧ recEngine rc.hdr = s.exEngine h) ∧
  (let s : State := exWfl; let h : Nat := 0; let i : Nat := 0; let x := s.exState h
   let cs : List LkCell := (s.exCells h 3 i).getD []; let bs := (cs.flatMap (·.payload)).take (s.exSize h)
   let w := wordsOf 8 bs; let e := recExpert w; let r := recRound w
   s.exValid h = true ∧ s.exCells h 3 i = some cs ∧ exValidExpert x e = true ∧ exRemote x (exHome x e) = false ∧
   x.openRound e r = true ∧ (x.half e r).complete = false ∧ (x.half e r).count < exCap x e ∧ 64 ≤ bs.length) ∧
  (let s : State := exWret1; let h : Nat := 0; let i : Nat := 0; let x := s.exState h
   let ret : ExRet := (x.returns[i]?).getD {}
   let w := s.peekHdr (s.exPart h) ret.src
   let d : ExDisp := (x.outstanding (recTile w) (recRound w) (recIndex w)).getD {}
   let a : Nat := (d.dest).getD 0
   s.exValid h = true ∧ x.returns[i]? = some ret ∧ 64 ≤ s.exSize h ∧ s.cutPending ret.src (s.exSize h) = false ∧
   recEngine w = s.exEngine h ∧ recExpert w ≠ 0xFFF ∧ x.outstanding (recTile w) (recRound w) (recIndex w) = some d ∧
   d.dest ≠ none ∧ d.dest = some a ∧ isDram a = false ∧ s.canonical = true ∧ s.spErr = []) ∧
  (let s : State := (exWe0 0 0); let h : Nat := 0; let v : Word := (BitVec.ofNat 64 exExw)
   let s1 := (List.range 6).foldl (fun s k => s.setRg (exDie h) (exOff h + 0x20 + 8 * k) 0)
       (s.setRg (exDie h) (exOff h) (setBit (v &&& exMask) 63 false))
   let p := s1.exPart h
   let rd (s : State) (o n : Nat) : List Byte × State :=
       let b := s.rf (exDie h) (exOff h + o) 47 0
       if s.inDramOf p b n then ((s.readAny p b n).1, (s.readAny p b n).2.2) else ([], s)
   let a := rd s1 8 (32 * s1.exNexp h); let b := rd a.2 0x10 (8 * s1.exNeng h)
   let x : ExState := { experts := (List.range (b.2.exNexp h)).map fun e => wordsOf 4 (a.1.drop (32 * e)), engines := wordsOf (b.2.exNeng h) b.1 }
   h < 128 ∧ s.exValid h = false ∧ b.2.exOk h x = false) ∧
  (let s : State := (exWe0); let h : Nat := 0; let v : Word := (BitVec.ofNat 64 exExw)
   let s1 := (List.range 6).foldl (fun s k => s.setRg (exDie h) (exOff h + 0x20 + 8 * k) 0)
       (s.setRg (exDie h) (exOff h) (setBit (v &&& exMask) 63 false))
   let p := s1.exPart h
   let rd (s : State) (o n : Nat) : List Byte × State :=
       let b := s.rf (exDie h) (exOff h + o) 47 0
       if s.inDramOf p b n then ((s.readAny p b n).1, (s.readAny p b n).2.2) else ([], s)
   let a := rd s1 8 (32 * s1.exNexp h); let b := rd a.2 0x10 (8 * s1.exNeng h)
   let x : ExState := { experts := (List.range (b.2.exNexp h)).map fun e => wordsOf 4 (a.1.drop (32 * e)), engines := wordsOf (b.2.exNeng h) b.1 }
   h < 128 ∧ s.exValid h = false ∧ b.2.exOk h x = true) ∧
  (let s : State := exWe1; let h : Nat := 0; let v : Word := 0
   h < 128 ∧ s.exValid h = true) ∧
  (let s : State := (exWe0 0 0); let h : Nat := 0; let v : Word := (BitVec.ofNat 64 exExw)
   let s1 := (List.range 6).foldl (fun s k => s.setRg (exDie h) (exOff h + 0x20 + 8 * k) 0)
       (s.setRg (exDie h) (exOff h) (setBit (v &&& exMask) 63 false))
   let p := s1.exPart h
   let rd (s : State) (o n : Nat) : List Byte × State :=
       let b := s.rf (exDie h) (exOff h + o) 47 0
       if s.inDramOf p b n then ((s.readAny p b n).1, (s.readAny p b n).2.2) else ([], s)
   let a := rd s1 8 (32 * s1.exNexp h); let b := rd a.2 0x10 (8 * s1.exNeng h)
   let x : ExState := { experts := (List.range (b.2.exNexp h)).map fun e => wordsOf 4 (a.1.drop (32 * e)), engines := wordsOf (b.2.exNeng h) b.1 }
   let k : Nat := 0
   h < 128 ∧ s.exValid h = false ∧ b.2.exOk h x = false ∧ k < 6) ∧
  (let s : State := (exWe0); let h : Nat := 0; let v : Word := (BitVec.ofNat 64 exExw)
   let s1 := (List.range 6).foldl (fun s k => s.setRg (exDie h) (exOff h + 0x20 + 8 * k) 0)
       (s.setRg (exDie h) (exOff h) (setBit (v &&& exMask) 63 false))
   let p := s1.exPart h
   let rd (s : State) (o n : Nat) : List Byte × State :=
       let b := s.rf (exDie h) (exOff h + o) 47 0
       if s.inDramOf p b n then ((s.readAny p b n).1, (s.readAny p b n).2.2) else ([], s)
   let a := rd s1 8 (32 * s1.exNexp h); let b := rd a.2 0x10 (8 * s1.exNeng h)
   let x : ExState := { experts := (List.range (b.2.exNexp h)).map fun e => wordsOf 4 (a.1.drop (32 * e)), engines := wordsOf (b.2.exNeng h) b.1 }
   let k : Nat := 0
   h < 128 ∧ s.exValid h = false ∧ b.2.exOk h x = true ∧ k < 6) := by
  iterate 21 refine ⟨by decide +kernel, ?_⟩
  decide +kernel

theorem test_witness_IngestPortsAndStreams :
  (let s : State := medWi1; let port : Nat := 1; let d : Dgram := (medDg 0 4 0 3 [1,2,3])
   s.portTakes port d.v6 = false) ∧
  (let s : State := medWi1; let port : Nat := 0
   let d : Dgram := { medDg 2 0 0 0 [] with checksum := 1 }
   s.portTakes port d.v6 = true ∧ s.dgBad port d = true) ∧
  (let s : State := medWi1; let port : Nat := 0; let d : Dgram := (medDg 0 4 0 5 [1,2,3]); let st := dgStream d
   let i := dgIndex d; let y := s.strm st
   s.portTakes port d.v6 = true ∧ s.dgBad port d = false ∧ dgType d = 0 ∧ s.sample st i = none ∧ i ∉ y.finished ∧
   i ∉ y.barred ∧ y.seen < y.allow ∧ (∀ z ∈ s.samples, z.stream = st → z.stage ≠ .mixWait) ∧
   (s.ingKind st ≠ 0 ∨ d.payload.length < dgTotal d)) ∧
  (let s : State := medWi1; let port : Nat := 0; let d : Dgram := (medDg 0 4 0 3 [1,2,3]); let st := dgStream d
   let i := dgIndex d; let y := s.strm st
   s.portTakes port d.v6 = true ∧ s.dgBad port d = false ∧ dgType d = 0 ∧ s.sample st i = none ∧ i ∉ y.finished ∧
   i ∉ y.barred ∧ y.seen < y.allow ∧ (∀ z ∈ s.samples, z.stream = st → z.stage ≠ .mixWait) ∧ s.ingKind st = 0 ∧
   d.payload.length = dgTotal d) ∧
  (let s : State := medWid; let port : Nat := 0; let d : Dgram := (medDg 0 4 0 3 [1,2,3]); let st := dgStream d
   let i := dgIndex d; let y := s.strm st
   s.portTakes port d.v6 = true ∧ s.dgBad port d = false ∧ dgType d = 0 ∧ s.sample st i = none ∧ i ∉ y.finished ∧
   i ∉ y.barred ∧ y.allow ≤ y.seen ∧ s.ingKind st ≠ 0) ∧
  (let s : State := medWi3; let port : Nat := 0; let d : Dgram := (medDg 0 6 0 5 [1,2,3]); let st := dgStream d
   let i := dgIndex d; let y := s.strm st
   s.portTakes port d.v6 = true ∧ s.dgBad port d = false ∧ dgType d = 0 ∧ s.sample st i = none ∧ i ∉ y.finished ∧
   i ∉ y.barred ∧ y.allow ≤ y.seen ∧ s.ingKind st = 0 ∧ ((s.readConsumed st).strm st).allow ≤ y.seen) ∧
  (let s : State := medWi1; let port : Nat := 0
   let d : Dgram := { medDg 2 0 0 0 [] with w1 := 0 }
   s.portTakes port d.v6 = true ∧ s.dgBad port d = false ∧ dgType d = 2) ∧
  (let s : State := medWi3; let port : Nat := 0; let k : Nat := 0; let p : Nat := 0; let a : Nat := 9
   let b : Nat := 7
   s.ingEn k = true ∧ (s.strm k).peer = some (p, a, b)) ∧
  (let s : State := medWi1; let port : Nat := 0; let addr : Nat := s.rf (portDie port) 0x810010 31 0
   s.portTakes port false = true ∧ addr = s.rf (portDie port) 0x810010 31 0) ∧
  (let s : State := medWi1; let port : Nat := 0; let addr : Nat := 0
   s.portTakes port false = true ∧ addr ≠ s.rf (portDie port) 0x810010 31 0) ∧
  (let s : State := medWi1; let port : Nat := 0; let d : Dgram := (medDg 0 4 0 5 [1,2,3]); let st := dgStream d
   let i := dgIndex d; let y := s.strm st; let k : Nat := 0
   s.portTakes port d.v6 = true ∧ s.dgBad port d = false ∧ dgType d = 0 ∧ s.sample st i = none ∧ i ∉ y.finished ∧
   i ∉ y.barred ∧ y.seen < y.allow ∧ (∀ z ∈ s.samples, z.stream = st → z.stage ≠ .mixWait) ∧
   (s.ingKind st ≠ 0 ∨ d.payload.length < dgTotal d) ∧ k < d.payload.length) ∧
  (let s : State := medWi1; let port : Nat := 0
   let d : Dgram := (medDg 0 4 0 64 ((List.range 64).map fun i => BitVec.ofNat 8 (i + 1)))
   let st := dgStream d; let i := dgIndex d; let y := s.strm st
   let a := s.ingBase st + 64 + y.admitted % s.ingDepth st * s.ingEntry st
   s.portTakes port d.v6 = true ∧ s.dgBad port d = false ∧ dgType d = 0 ∧ s.sample st i = none ∧ i ∉ y.finished ∧
   i ∉ y.barred ∧ y.seen < y.allow ∧ (∀ z ∈ s.samples, z.stream = st → z.stage ≠ .mixWait) ∧ s.ingKind st = 0 ∧
   d.payload.length = dgTotal d ∧ d.payload.length ≤ s.ingEntry st ∧ 64 ≤ d.payload.length ∧
   s.served (s.ingPart st) a d.payload.length) ∧
  (let s : State := medWi0; let st : Nat := 0; let v : Word := 1152921504606846976; let w := v &&& ingMask
   let kind := fld w 59 56
   let r := if kind == 0 || kind > 7 || !s.diePresent dieMdl then ([], s) else s.readOps (fld w 62 60) st (fld w 39 32)
   st < 256 ∧ s.ingEn st = false ∧ r.2.streamOk st w r.1 = true) ∧
  (let s : State := medWi0; let st : Nat := 0; let v : Word := 0; let w := v &&& ingMask; let kind := fld w 59 56
   let r := if kind == 0 || kind > 7 || !s.diePresent dieMdl then ([], s) else s.readOps (fld w 62 60) st (fld w 39 32)
   st < 256 ∧ s.ingEn st = false ∧ r.2.streamOk st w r.1 = false) ∧
  (let s : State := { medWi3 with ns := [(8, 20000000)] }
   let st : Nat := 0; let index : Nat := 5
   let x : Sample := (s.sample st index).getD {}
   st < 256 ∧ s.sample st index = some x ∧ x.stage = .reassembly ∧
   1000 * s.reasmUs ≤ (s.now (portDie x.port) + 2 ^ 64 - x.opened) % 2 ^ 64) ∧
  (let s : State := medWi1; let st : Nat := 0
   st < 256 ∧ s.ingEn st = true ∧ s.ingKind st = 0) ∧
  (let s : State := medWi1; let st : Nat := 0
   st < 256 ∧ s.ingEn st = true) := by
  iterate 16 refine ⟨by decide +kernel, ?_⟩
  decide +kernel

theorem test_witness_DecodingOfASample :
  (let s : State := medWimg; let st : Nat := 1; let index : Nat := 4; let x : Sample := (medSmp medWimg 0)
   let k := s.ingKind st; let hdr := mediaHdr k x.bytes
   let y := { x with stage := .decoding, hdr := hdr.2, budget := s.workBudget st }
   s.headerFails y hdr.2 = none ∧ s.sample st index = some x ∧ s.joinOpen dieMerB = true ∧ x.stage = .ready ∧ k ≠ 0 ∧
   k ≠ 7 ∧ hdr.1 = stOk) ∧
  (let s : State := medWbadh; let st : Nat := 1; let index : Nat := 4; let x : Sample := (medSmp medWbadh 0)
   let k := s.ingKind st; let hdr := mediaHdr k x.bytes
   let y := { x with stage := .decoding, hdr := hdr.2, budget := s.workBudget st }
   s.sample st index = some x ∧ s.joinOpen dieMerB = true ∧ x.stage = .ready ∧ k ≠ 0 ∧ k ≠ 7 ∧
   (hdr.1 ≠ stOk ∨ s.headerFails y hdr.2 ≠ none)) ∧
  (let s : State := { medWtx with mdl := { medWtx.mdl with loading := true } }
   let st : Nat := 2; let index : Nat := 1; let x : Sample := (medSmp medWtx 1); let k := s.ingKind st
   s.sample st index = some x ∧ s.joinOpen dieMerB = true ∧ x.stage = .ready ∧ k = 7 ∧ s.mdl.loading = true) ∧
  (let s : State := medWimg; let st : Nat := 2; let index : Nat := 1; let x : Sample := (medSmp medWimg 1)
   let k := s.ingKind st
   s.sample st index = some x ∧ s.joinOpen dieMerB = true ∧ x.stage = .ready ∧ k = 7 ∧ s.mdl.loading = false ∧
   s.mdl.dict = none) ∧
  (let s : State := medWtx; let st : Nat := 2; let index : Nat := 1; let x : Sample := (medSmp medWtx 1)
   let k := s.ingKind st
   s.sample st index = some x ∧ s.joinOpen dieMerB = true ∧ x.stage = .ready ∧ k = 7 ∧ s.mdl.loading = false ∧
   s.mdl.dict ≠ none ∧ (s.rb dieMdl 0x10108 62 = true ∨ utf8Ok x.bytes = true)) ∧
  (let s : State := medWbud; let st : Nat := 1; let index : Nat := 4; let x : Sample := (medSmp medWbud 0)
   let work := (s.decodeOf x).2.work
   s.sample st index = some x ∧ s.joinOpen dieMerB = true ∧ x.stage = .decoding ∧ s.mustMove x work = true) ∧
  (let s : State := medWimg2; let st : Nat := 1; let index : Nat := 4; let x : Sample := (medSmp medWimg2 0)
   let work := (s.decodeOf x).2.work
   s.sample st index = some x ∧ s.joinOpen dieMerB = true ∧ x.stage = .decoding ∧ s.mustMove x work = false) ∧
  (let s : State := medWlim; let st : Nat := 1; let index : Nat := 4; let x : Sample := (medSmp medWlim 0)
   let k := s.ingKind st; let work := (s.decodeOf x).2.work
   s.sample st index = some x ∧ s.joinOpen dieMerB = true ∧ x.stage = .decoding ∧ k ≠ 7 ∧ s.mustMove x work = false ∧
   s.ingHard st ≤ work) ∧
  (let s : State := medWimg2; let st : Nat := 1; let index : Nat := 4; let x : Sample := (medSmp medWimg2 0)
   let work := (s.decodeOf x).2.work
   s.sample st index = some x ∧ s.joinOpen dieMerB = true ∧ x.stage = .decoding ∧ work < s.ingHard st) ∧
  (let s : State := medWtx2; let st : Nat := 2; let index : Nat := 1; let x : Sample := (medSmp medWtx2 1)
   let k := s.ingKind st
   s.sample st index = some x ∧ s.joinOpen dieMerB = true ∧ x.stage = .decoding ∧ k = 7) ∧
  (let s : State := medWbud; let st : Nat := 1; let index : Nat := 4; let x : Sample := (medSmp medWbud 0)
   let k := s.ingKind st; let s1 : State := (s.decoded x).1
   s.decoded x = (s1, none) ∧ s.sample st index = some x ∧ s.joinOpen dieMerB = true ∧ x.stage = .decoding ∧ k ≠ 7) ∧
  (let s : State := medWimg2; let st : Nat := 1; let index : Nat := 4; let x : Sample := (medSmp medWimg2 0)
   let k := s.ingKind st; let s1 : State := (s.decoded x).1
   let y : Sample × MediaOut := (s.decoded x).2.getD ({}, {})
   s.decoded x = (s1, some y) ∧ s.sample st index = some x ∧ s.joinOpen dieMerB = true ∧ x.stage = .decoding ∧ k ≠ 7 ∧
   (s1.runSample y.1 y.2).2.isSome = true) ∧
  (let s : State := medWimg2; let st : Nat := 1; let index : Nat := 4; let x : Sample := (medSmp medWimg2 0)
   let k := s.ingKind st; let s1 : State := (s.decoded x).1
   let y : Sample × MediaOut := (s.decoded x).2.getD ({}, {})
   let z : Sample := (s1.runSample y.1 y.2).1
   let o : SlotOut := (s1.runSample y.1 y.2).2.getD {}
   s.decoded x = (s1, some y) ∧ s1.runSample y.1 y.2 = (z, some o) ∧ s.sample st index = some x ∧
   s.joinOpen dieMerB = true ∧ x.stage = .decoding ∧ k ≠ 7 ∧ (∀ q ∈ s1.samples, q.stream = st → q.stage ≠ .mixWait)) ∧
  (let s : State := medMx; let st : Nat := 1; let index : Nat := 4; let x : Sample := (medSmp medMx 0)
   s.sample st index = some x ∧ s.joinOpen dieMerB = true ∧ x.stage = .mixWait ∧
   (∀ z ∈ s.samples, z.stream = st → z.stage = .mixWait → s.unmixed z = false)) ∧
  (let s : State := medMx2; let st : Nat := 1; let index : Nat := 4; let x : Sample := (medSmp medMx2 0)
   s.sample st index = some x ∧ s.joinOpen dieMerB = true ∧ x.stage = .mixWait ∧ s.unmixed x = true ∧
   (∀ z ∈ s.samples, z.stream = st → z.stage = .mixWait → z.index = index) ∧
   (s.runSample { x with pos := x.pos + 1, stage := .decoding } x.out).2.isSome = true) ∧
  (let s : State := medMx3; let st : Nat := 1; let index : Nat := 4; let x : Sample := (medSmp medMx3 0)
   let k := s.ingKind st
   let p : Sample := (s.sample st (pairOf index)).getD {}
   s.sample st index = some x ∧ s.joinOpen dieMerB = true ∧ x.stage = .mixWait ∧ k ≠ 7 ∧
   s.sample st (pairOf index) = some p ∧ p.stage = .mixWait ∧ p.pos = x.pos) ∧
  (let s : State := medMx3; let st : Nat := 1; let index : Nat := 4; let x : Sample := (medSmp medMx3 0)
   let k := s.ingKind st
   let p : Sample := (s.sample st (pairOf index)).getD {}
   s.sample st index = some x ∧ s.joinOpen dieMerB = true ∧ x.stage = .mixWait ∧ k ≠ 7 ∧
   s.sample st (pairOf index) = some p ∧ p.stage = .mixWait ∧ p.pos = x.pos ∧
   (∀ o ∈ ((s.strm st).ops.drop (x.pos + 1)).dropLast, opCode o ≠ 0x06)) := by
  refine ⟨⟨header_fits (by decide +kernel) (Nat.le_trans (Nat.le_of_lt (Config.workMem _ _ _ _ _).isLt) (by decide +kernel)), by decide +kernel⟩, ?_⟩
  iterate 9 refine ⟨by decide +kernel, ?_⟩
  refine ⟨⟨pair_none (by decide +kernel), by decide +kernel⟩, ?_⟩
  refine ⟨⟨pair_some (by decide +kernel), by decide +kernel⟩, ?_⟩
  refine ⟨⟨pair_some (by decide +kernel), pair_some (by decide +kernel), by decide +kernel⟩, ?_⟩
  iterate 3 refine ⟨by decide +kernel, ?_⟩
  decide +kernel

theorem test_witness_PantryAndDictionary :
  (let s : State := { State.reset with variant := .trnC18 }
   let v : Word := 0
   s.diePresent dieMdl = false) ∧
  (let s : State := medWi0; let v : Word := (BitVec.ofNat 64 4096)
   s.diePresent dieMdl = true ∧ s.pEn = false ∧ s.mdl.landing = []) ∧
  (let s : State := medWp1; let v : Word := (BitVec.ofNat 64 medPcfg)
   s.diePresent dieMdl = true ∧ s.pEn = true) ∧
  (let s : State := medWp1; let v : Word := 0
   let o : SlotOut := {}
   let i : Nat := ((List.range s.nSlot).find? (fun i => (s.slotOf i).st == .free)).getD 0
   o.payload.length ≤ s.slotSize - 64 ∧ s.mdl.waiters = [] ∧ s.pEn = true ∧ s.mdl.landing = [] ∧
   ((List.range s.nSlot).find? (fun i => (s.slotOf i).st == .free) = some i)) ∧
  (let s : State := { medWimg with mdl := { medWimg.mdl with loading := true }, samples := [medTxt] }
   let v : Word := 0
   s.mdl.loading = true ∧ s.joinOpen dieMerB = true ∧ (∃ x ∈ s.samples, x.stage = .decoding ∧ s.ingKind x.stream = 7)) ∧
  (let s : State := (nx (exec (.tokDictLoad 5) medWp1)); let v : Word := 0
   s.mdl.loading = true ∧ s.joinOpen dieMerB = true ∧ (∀ x ∈ s.samples, x.stage = .decoding → s.ingKind x.stream ≠ 7)) := by
  iterate 5 refine ⟨by decide +kernel, ?_⟩
  decide +kernel

theorem test_witness_DramAccessesAndTokens :
  (let s : State := memWm0; let req : Nat := 8; let a : Nat := 0x18000000000; let n : Nat := 8; let e : Nat := 0
   let bs : List Byte := [1,2,3,4,5,6,7,8]
   s.dramHere a n = false) ∧
  (let s : State := memWm0; let req : Nat := 8; let a : Nat := 0x18000000000; let n : Nat := 8; let e : Nat := 0
   let bs : List Byte := [1,2,3,4,5,6,7,8]
   s.dramHere a bs.length = false) ∧
  (let s : State := memWm0; let req : Nat := 8; let a : Nat := 0x1000; let n : Nat := 8
   let bs : List Byte := [1,2,3,4,5,6,7,8]
   s.dramHere a n = true ∧ 1 ≤ n ∧ a % 64 + n ≤ 64 ∧ s.stackState (a / 2 ^ 36) = 1 ∧
   s.dieFenced (a / 2 ^ 36 / 3) = false ∧ s.anyHole a n = false ∧
   s.chState (a / 2 ^ 36) (s.chanOf (a / 64 * 64)) ≠ 2 ∧ req = 8 ∧ s.owner (a / 64 * 64) ≠ 8) ∧
  (let s : State := memWm0; let req : Nat := 1; let a : Nat := 0x1000; let n : Nat := 8
   let bs : List Byte := [1,2,3,4,5,6,7,8]
   s.dramHere a n = true ∧ 1 ≤ n ∧ a % 64 + n ≤ 64 ∧ s.stackState (a / 2 ^ 36) = 1 ∧
   s.dieFenced (a / 2 ^ 36 / 3) = false ∧ s.anyHole a n = false ∧
   s.chState (a / 2 ^ 36) (s.chanOf (a / 64 * 64)) ≠ 2 ∧ s.owner (a / 64 * 64) = req ∧ s.cwErr.val 0 (a / 64) = 0 ∧
   (s.cwKey.val 0 (a / 64) = 0 ∨ s.cwKey.val 0 (a / 64) = s.keyOf req) ∧ req < 8 ∧
   s.rb (stackReg (a / 2 ^ 36)).1 (regOff req (stackReg (a / 2 ^ 36)).2) 63 = false ∧
   s.regWaits.val [] (regKey (stackReg (a / 2 ^ 36)).1 req (stackReg (a / 2 ^ 36)).2) = []) ∧
  (let s : State := (memWmr 200); let req : Nat := 1; let a : Nat := 0x1000; let n : Nat := 8
   let bs : List Byte := [1,2,3,4,5,6,7,8]; let d := (stackReg (a / 2 ^ 36)).1
   let o := regOff req (stackReg (a / 2 ^ 36)).2
   s.dramHere a n = true ∧ 1 ≤ n ∧ a % 64 + n ≤ 64 ∧ s.stackState (a / 2 ^ 36) = 1 ∧
   s.dieFenced (a / 2 ^ 36 / 3) = false ∧ s.anyHole a n = false ∧
   s.chState (a / 2 ^ 36) (s.chanOf (a / 64 * 64)) ≠ 2 ∧ s.owner (a / 64 * 64) = req ∧ s.cwErr.val 0 (a / 64) = 0 ∧
   (s.cwKey.val 0 (a / 64) = 0 ∨ s.cwKey.val 0 (a / 64) = s.keyOf req) ∧ req < 8 ∧
   s.rb (stackReg (a / 2 ^ 36)).1 (regOff req (stackReg (a / 2 ^ 36)).2) 63 = true ∧
   s.regWaits.val [] (regKey (stackReg (a / 2 ^ 36)).1 req (stackReg (a / 2 ^ 36)).2) = [] ∧
   64 ≤ s.rf d (o + 8) 31 0) ∧
  (let s : State := (memWmr 20); let req : Nat := 1; let a : Nat := 0x1000; let n : Nat := 8
   let bs : List Byte := [1,2,3,4,5,6,7,8]; let d := (stackReg (a / 2 ^ 36)).1
   let o := regOff req (stackReg (a / 2 ^ 36)).2
   s.dramHere a n = true ∧ 1 ≤ n ∧ a % 64 + n ≤ 64 ∧ s.stackState (a / 2 ^ 36) = 1 ∧
   s.dieFenced (a / 2 ^ 36 / 3) = false ∧ s.anyHole a n = false ∧
   s.chState (a / 2 ^ 36) (s.chanOf (a / 64 * 64)) ≠ 2 ∧ s.owner (a / 64 * 64) = req ∧ s.cwErr.val 0 (a / 64) = 0 ∧
   (s.cwKey.val 0 (a / 64) = 0 ∨ s.cwKey.val 0 (a / 64) = s.keyOf req) ∧ req < 8 ∧
   s.rb (stackReg (a / 2 ^ 36)).1 (regOff req (stackReg (a / 2 ^ 36)).2) 63 = true ∧
   s.regWaits.val [] (regKey (stackReg (a / 2 ^ 36)).1 req (stackReg (a / 2 ^ 36)).2) = [] ∧
   s.rf d (o + 8) 31 0 < 64) ∧
  (let s : State := memWm0; let req : Nat := 8; let a : Nat := 0x200000; let n : Nat := 8
   let bs : List Byte := [1,2,3,4,5,6,7,8]
   s.dramHere a n = true ∧ 1 ≤ n ∧ a % 64 + n ≤ 64 ∧ s.stackState (a / 2 ^ 36) = 1 ∧
   s.dieFenced (a / 2 ^ 36 / 3) = false ∧ s.anyHole a n = false ∧
   s.chState (a / 2 ^ 36) (s.chanOf (a / 64 * 64)) ≠ 2 ∧ s.owner (a / 64 * 64) = req ∧ s.cwErr.val 0 (a / 64) = 0 ∧
   (s.cwKey.val 0 (a / 64) = 0 ∨ s.cwKey.val 0 (a / 64) = s.keyOf req) ∧ req = 8 ∧ bs.length = n ∧
   s.canonical = true) ∧
  (let s : State := { memWm0 with cwErr := [(0x200000/64, 1)] }
   let req : Nat := 8; let a : Nat := 0x200000; let n : Nat := 8; let bs : List Byte := [1,2,3,4,5,6,7,8]
   let e := s.cwErr.val 0 (a / 64)
   s.dramHere a n = true ∧ 1 ≤ n ∧ a % 64 + n ≤ 64 ∧ s.stackState (a / 2 ^ 36) = 1 ∧
   s.dieFenced (a / 2 ^ 36 / 3) = false ∧ s.anyHole a n = false ∧
   s.chState (a / 2 ^ 36) (s.chanOf (a / 64 * 64)) ≠ 2 ∧ s.owner (a / 64 * 64) = 8 ∧
   (s.cwKey.val 0 (a / 64) = 0 ∨ s.cwKey.val 0 (a / 64) = s.keyOf 8) ∧ rsFix e = some e ∧ e ≠ 0) ∧
  (let s : State := { memWm0 with cwErr := [(0x200000/64, 0x10101010101010101)] }
   let req : Nat := 8; let a : Nat := 0x200000; let n : Nat := 8; let bs : List Byte := [1,2,3,4,5,6,7,8]
   let e := s.cwErr.val 0 (a / 64)
   s.dramHere a n = true ∧ 1 ≤ n ∧ a % 64 + n ≤ 64 ∧ s.stackState (a / 2 ^ 36) = 1 ∧
   s.dieFenced (a / 2 ^ 36 / 3) = false ∧ s.anyHole a n = false ∧
   s.chState (a / 2 ^ 36) (s.chanOf (a / 64 * 64)) ≠ 2 ∧ s.owner (a / 64 * 64) = 8 ∧
   (s.cwKey.val 0 (a / 64) = 0 ∨ s.cwKey.val 0 (a / 64) = s.keyOf 8) ∧ rsFix e = none) ∧
  (let s : State := memWm0; let req : Nat := 8; let a : Nat := 0x200000; let n : Nat := 8
   let bs : List Byte := [1,2,3,4,5,6,7,8]; let x : Nat := 0
   s.dramHere a n = true ∧ 1 ≤ n ∧ a % 64 + n ≤ 64 ∧ s.stackState (a / 2 ^ 36) = 1 ∧
   s.dieFenced (a / 2 ^ 36 / 3) = false ∧ s.anyHole a n = false ∧
   s.chState (a / 2 ^ 36) (s.chanOf (a / 64 * 64)) ≠ 2 ∧ s.owner (a / 64 * 64) = req ∧ s.cwErr.val 0 (a / 64) = 0 ∧
   (s.cwKey.val 0 (a / 64) = 0 ∨ s.cwKey.val 0 (a / 64) = s.keyOf req) ∧ req = 8 ∧ bs.length = n ∧
   s.canonical = true ∧ (x < a ∨ a + n ≤ x)) ∧
  (let s : State := { memWm0 with cwErr := [(0x200000/64, 1)] }
   let req : Nat := 8; let a : Nat := 0x200000; let n : Nat := 8; let bs : List Byte := [1,2,3,4,5,6,7,8]
   let e := s.cwErr.val 0 (a / 64); let ch := s.chanOf (a / 64 * 64)
   s.dramHere a n = true ∧ 1 ≤ n ∧ a % 64 + n ≤ 64 ∧ s.stackState (a / 2 ^ 36) = 1 ∧
   s.dieFenced (a / 2 ^ 36 / 3) = false ∧ s.anyHole a n = false ∧
   s.chState (a / 2 ^ 36) (s.chanOf (a / 64 * 64)) ≠ 2 ∧ s.owner (a / 64 * 64) = 8 ∧
   (s.cwKey.val 0 (a / 64) = 0 ∨ s.cwKey.val 0 (a / 64) = s.keyOf 8) ∧ rsFix e = some e ∧ e ≠ 0 ∧ ch < 16) ∧
  (let s : State := memWm0; let mer : Nat := 0; let p : Nat := 1; let i : Nat := 2; let ns : Nat := 2500
   let v : Word := (BitVec.ofNat 64 (2^63+ 5*2^32 + 7)); let d := dieMerA + mer
   s.regWaits.val [] (regKey d p i) = []) := by
  iterate 11 refine ⟨by decide +kernel, ?_⟩
  decide +kernel

theorem test_witness_MemoryHealth :
  (let s : State := { memWm0 with variant := .trnC18 }
   let m : Nat := 20
   s.stackPresent m = false) ∧
  (let s : State := (memWm0.setRf 0 (memOff 0 + 8) 31 24 0); let m : Nat := 0
   s.stackPresent m = true ∧ (s.stackState m ≠ 1 ∨ s.rf (m / 3) (memOff m + 8) 31 24 = 0)) ∧
  (let s : State := { memWm0 with cwErr := [(0x1000/64, 1)] }
   let m : Nat := 0; let cw : Nat := 64; let mask : Nat := 1
   s.stackPresent m = true ∧ s.stackState m = 1 ∧ s.rf (m / 3) (memOff m + 8) 31 24 ≠ 0 ∧ cw * 64 / 2 ^ 36 = m ∧
   s.cwErr = [(cw, mask)] ∧ mask ≠ 0 ∧ s.inHole (cw * 64) = false ∧ s.chanOf (cw * 64) < 16 ∧
   (∀ c : Nat, c < 16 → s.chState m c ≠ 2) ∧ rsFix mask = some mask) ∧
  (let s : State := { memWm0 with cwErr := [(0x1000/64, 0x10101010101010101)] }
   let m : Nat := 0; let cw : Nat := 64; let mask : Nat := 0x10101010101010101
   s.stackPresent m = true ∧ s.stackState m = 1 ∧ s.rf (m / 3) (memOff m + 8) 31 24 ≠ 0 ∧ cw * 64 / 2 ^ 36 = m ∧
   s.cwErr = [(cw, mask)] ∧ mask ≠ 0 ∧ s.inHole (cw * 64) = false ∧ s.chanOf (cw * 64) < 16 ∧
   (∀ c : Nat, c < 16 → s.chState m c ≠ 2) ∧ badMask mask = true) ∧
  (let s : State := memWm0; let m : Nat := 0; let temp : Nat := 0
   s.stackPresent m = true ∧ temp < 256) ∧
  (let s : State := (memWm0.setRf 0 (memOff 0) 55 54 2); let m : Nat := 0
   let tier := s.rf (m / 3) (memOff m) 55 54
   s.stackPresent m = true ∧ 0 < tier ∧ s.rf (m / 3) (memOff m) 63 56 < 73 + 10 * tier) ∧
  (let s : State := memWm0; let m : Nat := 0; let tier := s.rf (m / 3) (memOff m) 55 54
   s.stackPresent m = true ∧ (tier = 0 ∨ 73 + 10 * tier ≤ s.rf (m / 3) (memOff m) 63 56)) ∧
  (let s : State := memWm0; let m : Nat := 0; let tier := s.rf (m / 3) (memOff m) 55 54; let temp : Nat := 127
   s.stackPresent m = true ∧ temp < 256 ∧ tier < 3 ∧ 105 < temp) ∧
  (let s : State := memWm0; let m : Nat := 0; let temp : Nat := 0
   s.stackPresent m = true ∧ temp < 256 ∧ temp ≤ 105) := by
  iterate 8 refine ⟨by decide +kernel, ?_⟩
  decide +kernel

theorem test_witness_MapOutAndOwnership :
  (let s : State := memWmi; let m : Nat := 0; let c : Nat := 0
   s.stackPresent m = true ∧ c < 16 ∧ s.chState m c < 2 ∧ s.rb (m / 3) (memOff m) c = true) ∧
  (let s : State := (nx (exec (.memMapoutWrite 0 0x1FF) memWm1))
   let m : Nat := 0
   s.stackPresent m = true ∧ s.stackState m = 2) ∧
  (let s : State := memWmi; let m : Nat := 0
   s.stackPresent m = true ∧ s.stackState m ≠ 2) ∧
  (let s : State := memWmi; let m : Nat := 0; let w : Nat := 0; let v : Word := 9
   let code (i : Nat) : Nat := fld v (4 * i + 3) (4 * i)
   let bad : Prop := ∃ i, i < 16 ∧ ((8 < code i ∧ code i ≠ 15) ∨ (code i ≠ 15 ∧ s.framesOf m ≤ 16 * w + i))
   s.stackPresent m = true ∧ bad) ∧
  (let s : State := memWmi; let m : Nat := 0; let w : Nat := 0; let v : Word := 0
   let code (i : Nat) : Nat := fld v (4 * i + 3) (4 * i)
   let bad : Prop := ∃ i, i < 16 ∧ ((8 < code i ∧ code i ≠ 15) ∨ (code i ≠ 15 ∧ s.framesOf m ≤ 16 * w + i))
   s.stackPresent m = true ∧ ¬bad) ∧
  (let s : State := { memWmi with variant := .trnC18 }
   let m : Nat := 20
   s.stackPresent m = false) ∧
  (let s : State := memWmi; let m : Nat := 0; let v : Word := 9223372058329682288; let c : Nat := 4
   s.stackPresent m = true ∧ c < 16 ∧ bitOf v c = true ∧ s.chState m c ≠ 3) ∧
  (let s : State := (nx (exec (.memMapoutWrite 0 0x1FF) memWm1))
   let m : Nat := 0; let c : Nat := 0
   s.stackPresent m = true ∧ s.stackState m = 2 ∧ c < 16 ∧ natBit (s.remapping m) c = true) := by
  iterate 7 refine ⟨by decide +kernel, ?_⟩
  decide +kernel

theorem test_witness_LinkTraining :
  (let s : State := { lnkWl0 with variant := .trnC18 }
   let l : Nat := 10; let v : Word := lnkLV; let ep : BitVec 32 := 7; let tx : BitVec 9 := 0x1FF
   let rx : BitVec 9 := 0x1FF
   s.linkPresent l = false) ∧
  (let s : State := lnkWl0; let l : Nat := 3; let v : Word := lnkLV; let ep : BitVec 32 := 7
   let tx : BitVec 9 := 0x1FF; let rx : BitVec 9 := 0x1FF
   s.linkPresent l = true ∧ s.lkEn l = false) ∧
  (let s : State := lnkWl1; let l : Nat := 3; let v : Word := lnkLV; let ep : BitVec 32 := 7
   let tx : BitVec 9 := 0x1FF; let rx : BitVec 9 := 0x1FF
   s.linkPresent l = true ∧ s.lkEn l = true) ∧
  (let s : State := lnkWl1; let l : Nat := 3; let v : Word := lnkLV; let ep : BitVec 32 := 7
   let tx : BitVec 9 := 0x1FF; let rx : BitVec 9 := 0x1FF
   s.linkPresent l = true ∧ s.lkRuns l = true ∧ s.lkEn l = true ∧ s.lkState l < 2) ∧
  (let s : State := lnkWl2; let l : Nat := 3; let v : Word := lnkLV; let ep : BitVec 32 := 7
   let tx : BitVec 9 := 0x1FF; let rx : BitVec 9 := 0x1FF
   s.linkPresent l = true ∧ s.lkState l = 2) ∧
  (let s : State := lnkWl3; let l : Nat := 3; let v : Word := lnkLV; let ep : BitVec 32 := 7
   let tx : BitVec 9 := 0x1FF; let rx : BitVec 9 := 0x1FF; let bad := (s.link l).refBadLanes
   let w := widthFor (min (goodCount (tx &&& ~~~bad)) (goodCount (rx &&& ~~~bad))) (s.link l).cap
   let n : Nat := (w).getD 0
   s.linkPresent l = true ∧ s.lkState l = 3 ∧ w = some n ∧ s.lkF l 0 54 53 ≤ n) ∧
  (let s : State := lnkWl3; let l : Nat := 3; let v : Word := lnkLV; let ep : BitVec 32 := 7
   let tx : BitVec 9 := 0x3; let rx : BitVec 9 := 0x1; let bad := (s.link l).refBadLanes
   let w := widthFor (min (goodCount (tx &&& ~~~bad)) (goodCount (rx &&& ~~~bad))) (s.link l).cap
   s.linkPresent l = true ∧ s.lkState l = 3 ∧ (∀ n : Nat, w = some n → n < s.lkF l 0 54 53)) ∧
  (let s : State := lnkWl4; let l : Nat := 3; let v : Word := lnkLV; let ep : BitVec 32 := 7
   let tx : BitVec 9 := 0x1FF; let rx : BitVec 9 := 0x1FF
   s.linkPresent l = true ∧ s.lkState l = 4) ∧
  (let s : State := lnkWl2; let l : Nat := 3; let v : Word := lnkLV; let ep : BitVec 32 := 7
   let tx : BitVec 9 := 0x1FF; let rx : BitVec 9 := 0x1FF
   s.linkPresent l = true ∧ ((2 ≤ s.lkState l ∧ s.lkState l ≤ 5) ∨ s.lkState l = 7)) := by
  iterate 8 refine ⟨by decide +kernel, ?_⟩
  decide +kernel

theorem test_witness_LinkRetraining :
  (let s : State := ((lnkWl6.setLink 3 {lnkWl6.link 3 with damagedWin := 5, authWin := 17}).setRf 8 (lkOff 3) 47 32 4)
   let l : Nat := 3; let tx : BitVec 9 := 0x1FF; let rx : BitVec 9 := 0x1FF
   s.linkPresent l = true ∧ s.lkRuns l = true ∧ s.lkState l = 6 ∧ (∀ o ∈ (s.link l).ctlOpen, o.msg ≠ 2) ∧
   s.lkF l 0 47 32 ≠ 0 ∧ s.lkF l 0 47 32 < (s.link l).damagedWin) ∧
  (let s : State := lnkWl6; let l : Nat := 3
   let c : LkCell := (lnkMc {})
   let tx : BitVec 9 := 0x1FF; let rx : BitVec 9 := 0x1FF
   s.linkPresent l = true ∧ s.lkRuns l = true ∧ s.lkState l = 6 ∧ (∀ o ∈ (s.link l).ctlOpen, o.msg ≠ 2) ∧
   wireBad c = false) ∧
  (let s : State := (lnkWl6.setLink 3 {lnkWl6.link 3 with ctlOpen := [{ msg := 2 }]})
   let l : Nat := 3; let tx : BitVec 9 := 0x1FF; let rx : BitVec 9 := 0x1FF
   s.linkPresent l = true ∧ s.lkState l = 6 ∧ (∃ o ∈ (s.link l).ctlOpen, o.msg = 2)) ∧
  (let s : State := lnkWl6; let l : Nat := 3
   let c : LkCell := (lnkMc {})
   let tx : BitVec 9 := 0x1FF; let rx : BitVec 9 := 0x1FF
   s.linkPresent l = true ∧ s.lkState l = 6 ∧ s.lkRuns l = true ∧ wireBad c = false) ∧
  (let s : State := ((lnkWl6.setLink 3 {lnkWl6.link 3 with damagedWin := 5, authWin := 17}).setRf 8 (lkOff 3) 47 32 4)
   let l : Nat := 3; let tx : BitVec 9 := 0x1FF; let rx : BitVec 9 := 0x1FF
   s.linkPresent l = true ∧ s.lkState l = 6 ∧ 16 < (s.link l).authWin) ∧
  (let s : State := lnkWl7; let l : Nat := 3; let tx : BitVec 9 := 0xF; let rx : BitVec 9 := 0x1FF
   let bad := (s.link l).refBadLanes
   let w := widthFor (min (goodCount (tx &&& ~~~bad)) (goodCount (rx &&& ~~~bad))) (s.link l).cap
   let n : Nat := (w).getD 0
   s.linkPresent l = true ∧ s.lkState l = 7 ∧ w = some n ∧ s.lkF l 0 54 53 ≤ n) ∧
  (let s : State := lnkWl7; let l : Nat := 3; let tx : BitVec 9 := 0x1; let rx : BitVec 9 := 0x1FF
   let bad := (s.link l).refBadLanes
   let w := widthFor (min (goodCount (tx &&& ~~~bad)) (goodCount (rx &&& ~~~bad))) (s.link l).cap
   s.linkPresent l = true ∧ s.lkState l = 7 ∧ (∀ n : Nat, w = some n → n < s.lkF l 0 54 53)) ∧
  (let s : State := lnkWl7; let l : Nat := 3; let tx : BitVec 9 := 0xF; let rx : BitVec 9 := 0x1FF
   let bad := (s.link l).refBadLanes
   let w := widthFor (min (goodCount (tx &&& ~~~bad)) (goodCount (rx &&& ~~~bad))) (s.link l).cap
   let n : Nat := (w).getD 0
   s.linkPresent l = true ∧ s.lkState l = 7 ∧ w = some n ∧ s.lkF l 0 54 53 ≤ n ∧ (s.link l).mirror = false ∧
   n < s.lkF l 0x10 59 58) ∧
  (let s : State := lnkWl7; let l : Nat := 3; let tx : BitVec 9 := 0x1FF; let rx : BitVec 9 := 0x1FF
   let bad := (s.link l).refBadLanes
   let w := widthFor (min (goodCount (tx &&& ~~~bad)) (goodCount (rx &&& ~~~bad))) (s.link l).cap
   let n : Nat := (w).getD 0
   s.linkPresent l = true ∧ s.lkState l = 7 ∧ w = some n ∧ s.lkF l 0 54 53 ≤ n ∧ (s.link l).mirror = false ∧
   s.lkF l 0x10 59 58 ≤ n) ∧
  (let s : State := { lnkWl0 with variant := .trnC18 }
   let l : Nat := 10; let v : Word := lnkLV
   s.linkPresent l = false) ∧
  (let s : State := lnkWl6; let l : Nat := 3; let v : Word := lnkLV
   s.linkPresent l = true) ∧
  (let s : State := lnkWl6; let l : Nat := 3; let v : Word := lnkLV
   s.linkPresent l = true ∧ ((s.link l).refEp = false ∨ fld v 47 40 = 0)) ∧
  (let s : State := { lnkWl0 with variant := .trnC18 }
   let l : Nat := 10; let v : Word := lnkLV; let k : Nat := 0
   k ≠ l) := by
  iterate 12 refine ⟨by decide +kernel, ?_⟩
  decide +kernel

theorem test_witness_LinkMessages :
  (let s : State := lnkWl5; let l : Nat := 3
   let c : LkCell := (lnkMc {})
   let m := ctlRead c
   s.lkRuns l = true ∧ s.lkState l = 5 ∧ wireBad c = false ∧ s.lkB l 0 62 = (m.arg % 2 == 1) ∧
   (s.lkB l 0 62 = false ∨ (s.rotState = 1 ∧ s.lkB l 0x10 54 = true ∧
   (s.link l).seenEpoch = some (s.lkEpoch l, m.epoch)))) ∧
  (let s : State := lnkWl5; let l : Nat := 3
   let c : LkCell := (lnkMc { arg := 1 })
   let m := ctlRead c
   s.lkRuns l = true ∧ s.lkState l = 5 ∧ wireBad c = false ∧ (s.lkB l 0 62 ≠ (m.arg % 2 == 1) ∨ (s.lkB l 0 62 = true ∧
   s.rotState ≠ 1))) ∧
  (let s : State := lnkWe; let l : Nat := 3
   let c : LkCell := (lnkMcf { arg := 1, frag := [1,2,3] })
   let m := ctlRead c; let had := (s.link l).identIn; let got := had ++ (c.payload.take c.len).drop 32
   s.lkRuns l = true ∧ s.lkState l = 5 ∧ wireBad c = false ∧ s.lkB l 0 62 = true ∧ m.arg % 2 = 1 ∧ s.rotState = 1 ∧
   (s.lkB l 0x10 54 = false ∨ (s.link l).seenEpoch ≠ some (s.lkEpoch l, m.epoch)) ∧ got.length < 10564) ∧
  (let s : State := (lnkWe2 10500); let l : Nat := 3
   let c : LkCell := (lnkMcf { arg := 1, frag := List.replicate 100 3 })
   let m := ctlRead c; let had := (s.link l).identIn; let got := had ++ (c.payload.take c.len).drop 32
   s.lkRuns l = true ∧ s.lkState l = 5 ∧ wireBad c = false ∧ s.lkB l 0 62 = true ∧ m.arg % 2 = 1 ∧ s.rotState = 1 ∧
   (s.lkB l 0x10 54 = false ∨ (s.link l).seenEpoch ≠ some (s.lkEpoch l, m.epoch)) ∧ had.length < 10564 ∧
   10564 ≤ got.length ∧ got.length < 12132) ∧
  (let s : State := (lnkWe2 12100); let l : Nat := 3
   let c : LkCell := (lnkMcf { arg := 1, frag := List.replicate 100 3 })
   let m := ctlRead c; let had := (s.link l).identIn; let got := had ++ (c.payload.take c.len).drop 32
   s.lkRuns l = true ∧ s.lkState l = 5 ∧ wireBad c = false ∧ s.lkB l 0 62 = true ∧ m.arg % 2 = 1 ∧ s.rotState = 1 ∧
   (s.lkB l 0x10 54 = false ∨ (s.link l).seenEpoch ≠ some (s.lkEpoch l, m.epoch)) ∧ 10564 ≤ had.length ∧
   had.length < 12132 ∧ 12132 ≤ got.length) ∧
  (let s : State := lnkWl5; let l : Nat := 3
   let c : LkCell := {}
   s.lkRuns l = true ∧ 5 ≤ s.lkState l ∧ wireBad c = true) ∧
  (let s : State := lnkWl6; let l : Nat := 3
   let c : LkCell := (lnkMc { msg := 4, failed := 0 })
   s.lkRuns l = true ∧ s.lkState l = 6 ∧ wireBad c = false ∧ c.len ≤ 32) ∧
  (let s : State := (lnkW34.setLink 3 { lnkW34.link 3 with ctlOpen := [{ msg := 4, failed := 4 }]})
   let l : Nat := 3
   let c : LkCell := (lnkMc { msg := 5, failed := 9 })
   let m := ctlRead c; let f : Nat := (s.peerLink l m.failed).getD 0
   s.lkRuns l = true ∧ s.lkState l = 6 ∧ wireBad c = false ∧ s.peerLink l m.failed = some f ∧ f ≠ l ∧
   (∃ o ∈ (s.link l).ctlOpen, o.msg = 4 ∧ o.failed = f)) ∧
  (let s : State := lnkWl6; let l : Nat := 3
   let c : LkCell := (lnkMc { msg := 4, failed := 0 })
   s.lkRuns l = true ∧ s.lkState l = 6 ∧ wireBad c = false ∧ (s.link l).refEp = false) ∧
  (let s : State := (lnkWe2 10500); let l : Nat := 3
   let c : LkCell := (lnkMcf { arg := 1, frag := List.replicate 100 3 })
   let trusted : Bool := true; let m := ctlRead c; let had := (s.link l).identIn
   let got := had ++ (c.payload.take c.len).drop 32
   s.lkRuns l = true ∧ s.lkState l = 5 ∧ wireBad c = false ∧ s.lkB l 0 62 = true ∧ m.arg % 2 = 1 ∧ s.rotState = 1 ∧
   (s.lkB l 0x10 54 = false ∨ (s.link l).seenEpoch ≠ some (s.lkEpoch l, m.epoch)) ∧ had.length < 10564 ∧
   10564 ≤ got.length ∧ got.length < 12132 ∧ (trusted && s.quoteValid m.devId (got.take 10564)) = false) ∧
  (let s : State := (lnkW34.setLink 3 { lnkW34.link 3 with mirror := true, ctlOpen := [{ msg := 4, failed := 4 }]})
   let l : Nat := 3
   let c : LkCell := (lnkMc { msg := 5, failed := 9 })
   let m := ctlRead c; let f : Nat := (s.peerLink l m.failed).getD 0
   s.lkRuns l = true ∧ s.lkState l = 6 ∧ wireBad c = false ∧ s.peerLink l m.failed = some f ∧ f ≠ l ∧
   (∃ o ∈ (s.link l).ctlOpen, o.msg = 4 ∧ o.failed = f) ∧ (s.link l).mirror = true) ∧
  (let s : State := (lnkW34.setLink 4 { lnkW34.link 4 with asked := true, held := [lnkCl], ack := 5 })
   let l : Nat := 3
   let c : LkCell := (lnkMc { msg := 6, failed := 9 })
   let m := ctlRead c; let f : Nat := (s.peerLink l m.failed).getD 0
   s.lkRuns l = true ∧ s.lkState l = 6 ∧ wireBad c = false ∧ (s.link l).refEp = false ∧
   s.peerLink l m.failed = some f ∧ (s.link f).asked = true ∧ (s.link f).closed = false) ∧
  (let s : State := (lnkW34.setLink 4 { lnkW34.link 4 with asked := true, closed := true, held := [lnkCl], ack := 5 })
   let l : Nat := 3
   let c : LkCell := (lnkMc { msg := 6, failed := 9 })
   let m := ctlRead c; let f : Nat := (s.peerLink l m.failed).getD 0
   s.lkRuns l = true ∧ s.lkState l = 6 ∧ wireBad c = false ∧ (s.link l).refEp = false ∧
   s.peerLink l m.failed = some f ∧ (s.link f).asked = true ∧ (s.link f).closed = true) ∧
  (let s : State := lnkWl5; let l : Nat := 3
   let o := ((s.link l).ctlOpen).headD {}
   s.lkRuns l = true ∧ o ∈ (s.link l).ctlOpen) := by
  iterate 13 refine ⟨by decide +kernel, ?_⟩
  decide +kernel

theorem test_witness_LinkCells :
  (let s : State := { lnkWl0 with variant := .trnC18 }
   let l : Nat := 10
   s.lkRuns l = false) ∧
  (let s : State := (lnkWq1.setLink 3 {lnkWq1.link 3 with ackFirst := true})
   let l : Nat := 3; let s1 := (s.crossTake (1024 + l)).drainReq l; let k1 := s1.link l
   s.lkRuns l = true ∧ s1.lkState l = 6 ∧ k1.ackFirst = true) ∧
  (let s : State := (lnkWq1.setLink 3 {lnkWq1.link 3 with retx := [0]})
   let l : Nat := 3; let s1 := (s.crossTake (1024 + l)).drainReq l; let k1 := s1.link l
   let q : Nat := (k1.retx).headD 0; let rest := (k1.retx).tail
   let r : Replay := ((k1.replay.find? fun r => r.cell.seq == q)).getD {}
   s.lkRuns l = true ∧ s1.lkState l = 6 ∧ k1.ackFirst = false ∧ k1.retx = q :: rest ∧
   ((k1.replay.find? fun r => r.cell.seq == q) = some r)) ∧
  (let s : State := lnkWl6; let l : Nat := 3; let s1 := (s.crossTake (1024 + l)).drainReq l; let k1 := s1.link l
   let m : LkMsg := (k1.ctl).headD {}
   let rest := (k1.ctl).tail
   s.lkRuns l = true ∧ s1.lkState l = 6 ∧ k1.ackFirst = false ∧ k1.retx = [] ∧ k1.ctl = m :: rest) ∧
  (let s : State := (lnkWl6.setLink 3 {lnkWl6.link 3 with ctl := [], ctlOpen := [], urgent := true})
   let l : Nat := 3; let s1 := (s.crossTake (1024 + l)).drainReq l; let k1 := s1.link l
   s.lkRuns l = true ∧ s1.lkState l = 6 ∧ k1.ackFirst = false ∧ k1.retx = [] ∧ k1.ctl = [] ∧ k1.urgent = true) ∧
  (let s : State := lnkWq; let l : Nat := 3; let s1 := (s.crossTake (1024 + l)).drainReq l; let k1 := s1.link l
   let x : TxItem := { cls := 1, payload := List.replicate 64 3, part := 1 }
   s.lkRuns l = true ∧ s1.lkState l = 6 ∧ k1.ackFirst = false ∧ k1.refEp = false ∧ k1.retx = [] ∧ k1.ctl = [] ∧
   k1.urgent = false ∧ k1.txq = [x] ∧ s1.lkShort l x.part = false ∧ k1.replay.length < 2048 ∧ k1.credit x.vc = true ∧
   k1.sends x = true ∧ (s1.crossing (1024 + l)).resync = false) ∧
  (let s : State := lnkWl6; let l : Nat := 3; let c : LkCell := lnkCl; let k := s.link l
   s.lkRuns l = true ∧ s.lkState l = 6 ∧ wireBad c = false ∧ s.tagBad l c = false ∧ c.ty = 0 ∧ k.closed = false ∧
   k.held = [] ∧ c.seq = k.ack) ∧
  (let s : State := lnkWq; let l : Nat := 3
   let c : LkCell := (sealCell { ty := 0, seq := 3 })
   let k := s.link l
   s.lkRuns l = true ∧ s.lkState l = 6 ∧ wireBad c = false ∧ s.tagBad l c = false ∧ c.ty = 0 ∧ k.closed = false ∧
   c.seq ≠ k.ack ∧ seqDiff c.seq k.ack < 2048 ∧ (∀ x ∈ k.held, x.seq ≠ c.seq ∧ x.seq ≠ k.ack)) ∧
  (let s : State := lnkWq; let l : Nat := 3
   let c : LkCell := { ty := 0, seq := 0 }
   s.lkRuns l = true ∧ s.lkState l = 6 ∧ (wireBad c = true ∨ s.tagBad l c = true)) ∧
  (let s : State := lnkWq; let l : Nat := 3
   let c : LkCell := (sealCell { ty := 0, seq := 4095 })
   let k := s.link l
   s.lkRuns l = true ∧ s.lkState l = 6 ∧ wireBad c = false ∧ s.tagBad l c = false ∧ c.ty = 0 ∧ k.closed = false ∧
   2048 ≤ seqDiff c.seq k.ack) ∧
  (let s : State := lnkWq1; let l : Nat := 3
   let c : LkCell := (sealCell { ty := 1, ack := 1 })
   let k := s.link l
   let r : Replay := (k.replay).headD {}
   let rest := (k.replay).tail
   s.lkRuns l = true ∧ s.lkState l = 6 ∧ wireBad c = false ∧ c.ty = 1 ∧ k.replay = r :: rest ∧
   seqDiff c.ack r.cell.seq = k.replay.length) ∧
  (let s : State := lnkWq1; let l : Nat := 3; let k := s.link l
   let r : Replay := (k.replay).headD {}
   let rest := (k.replay).tail
   s.lkRuns l = true ∧ s.lkState l = 6 ∧ k.replay = r :: rest ∧ k.firings + 1 < 8) ∧
  (let s : State := (lnkWq1.setLink 3 {lnkWq1.link 3 with firings := 7})
   let l : Nat := 3; let k := s.link l
   let r : Replay := (k.replay).headD {}
   let rest := (k.replay).tail
   s.lkRuns l = true ∧ s.lkState l = 6 ∧ k.replay = r :: rest ∧ 8 ≤ k.firings + 1) ∧
  (let s : State := lnkWq; let l : Nat := 3; let s1 := (s.crossTake (1024 + l)).drainReq l; let k1 := s1.link l
   let x : TxItem := { cls := 1, payload := List.replicate 64 3, part := 1 }
   s.lkRuns l = true ∧ s1.lkState l = 6 ∧ k1.ackFirst = false ∧ k1.refEp = false ∧ k1.retx = [] ∧ k1.ctl = [] ∧
   k1.urgent = false ∧ k1.txq = [x] ∧ s1.lkShort l x.part = false ∧ k1.replay.length < 2048 ∧ k1.credit x.vc = true ∧
   k1.sends x = true ∧ (s1.crossing (1024 + l)).resync = false ∧ s1.lkB l 0x10 54 = false) ∧
  (let s : State := lnkWq; let l : Nat := 3; let s1 := (s.crossTake (1024 + l)).drainReq l; let k1 := s1.link l
   let x : TxItem := { cls := 1, payload := List.replicate 64 3, part := 1 }
   s.lkRuns l = true ∧ s1.lkState l = 6 ∧ k1.ackFirst = false ∧ k1.refEp = false ∧ k1.retx = [] ∧ k1.ctl = [] ∧
   k1.urgent = false ∧ k1.txq = [x] ∧ s1.lkShort l x.part = false ∧ k1.replay.length < 2048 ∧ k1.credit x.vc = true ∧
   k1.sends x = true ∧ (s1.crossing (1024 + l)).resync = false ∧ x.payload.length ≤ s1.cellBytes l) ∧
  (let s : State := lnkWq; let l : Nat := 3
   let c : LkCell := (sealCell { ty := 0, seq := 0, vc := true, cls := 6 })
   let k := s.link l
   s.lkRuns l = true ∧ s.lkState l = 6 ∧ wireBad c = false ∧ s.tagBad l c = false ∧ c.ty = 0 ∧ k.closed = false ∧
   k.held = [] ∧ c.seq = k.ack ∧ c.vc = true) ∧
  (let s : State := lnkWl6; let l : Nat := 3; let c : LkCell := lnkCl; let k := s.link l
   s.lkRuns l = true ∧ s.lkState l = 6 ∧ wireBad c = false ∧ s.tagBad l c = false ∧ c.ty = 0 ∧ k.closed = false ∧
   k.held = [] ∧ c.seq = k.ack ∧ c.vc = false ∧ k.reqBuf = [] ∧ c.cls ≠ 4) ∧
  (let s : State := lnkWq; let l : Nat := 3
   let c : LkCell := (sealCell { ty := 0, seq := 3 })
   let k := s.link l
   s.lkRuns l = true ∧ s.lkState l = 6 ∧ wireBad c = false ∧ s.tagBad l c = false ∧ c.ty = 0 ∧ k.closed = false ∧
   c.seq ≠ k.ack ∧ seqDiff c.seq k.ack < 2048 ∧ (∀ x ∈ k.held, x.seq ≠ c.seq ∧ x.seq ≠ k.ack) ∧ k.held = []) ∧
  (let s : State := lnkWq1; let l : Nat := 3
   let c : LkCell := (sealCell { ty := 1, ack := 1 })
   let k := s.link l
   let r : Replay := (k.replay).headD {}
   let rest := (k.replay).tail
   s.lkRuns l = true ∧ s.lkState l = 6 ∧ wireBad c = false ∧ c.ty = 1 ∧ k.replay = r :: rest ∧
   seqDiff c.ack r.cell.seq = k.replay.length ∧ k.refEp = false) := by
  iterate 18 refine ⟨by decide +kernel, ?_⟩
  decide +kernel

theorem test_witness_DieModules :
  (let s : State := { partWd0 with variant := .trnC18 }
   let d : Nat := 9; let m : Nat := 20
   s.module d m = none ∧ s.diePresent d = true) ∧
  (let s : State := State.reset; let d : Nat := 11; let m : Nat := 0
   s.diePresent d = false) ∧
  (let s : State := partWd0; let d : Nat := 8; let m : Nat := 0
   let own : D2dResult := {}
   let peer : D2dResult := {}
   let ob : D2dResult := {}
   let pb : D2dResult := {}
   let e : Nat × Nat := (s.module d m).getD (0, 0)
   s.module d m = some e ∧ s.d2dState d m < 3 ∧ own = peer ∧ ob = own ∧ pb = peer) ∧
  (let s : State := partWd0; let d : Nat := 8; let m : Nat := 0
   let own : D2dResult := {x32 := true}
   let peer : D2dResult := {}
   let ob : D2dResult := {}
   let pb : D2dResult := {}
   let e : Nat × Nat := (s.module d m).getD (0, 0)
   s.module d m = some e ∧ s.d2dState d m < 3 ∧ (own ≠ peer ∨ ob ≠ own ∨ pb ≠ peer)) ∧
  (let s : State := partWd1; let d : Nat := 8; let m : Nat := 0; let e : Nat × Nat := (s.module d m).getD (0, 0)
   s.module d m = some e ∧ s.d2dState d m = 3) ∧
  (let s : State := State.reset; let d : Nat := 11; let m : Nat := 0
   s.diePresent dieGuest = false) ∧
  (let s : State := partWd0; let d : Nat := 8; let m : Nat := 0
   s.diePresent dieGuest = true) ∧
  (let s : State := { partWd0 with variant := .trnC18 }
   let d : Nat := 9; let m : Nat := 20
   s.diePresent dieMdl = false) ∧
  (let s : State := partWpan; let d : Nat := 9; let m : Nat := 20
   s.diePresent dieMdl = true ∧ (s.pEn = true ∨ s.decodedStream = true)) ∧
  (let s : State := State.reset; let d : Nat := 11; let m : Nat := 0
   s.diePresent dieMdl = true ∧ s.pEn = false ∧ s.decodedStream = false) ∧
  (let s : State := { partWd0 with cross := [(1024, { resync := true })] }
   let d : Nat := 8; let m : Nat := 0; let q : Nat := 1024
   (s.crossing q).resync = true ∧ (1024 ≤ q ∨ s.d2dState (q / 32) (q % 32) = 3)) ∧
  (let s : State := State.reset; let d : Nat := 11; let m : Nat := 0; let q : Nat := 0
   ((s.crossing q).resync = false ∨ (q < 1024 ∧ s.d2dState (q / 32) (q % 32) ≠ 3))) ∧
  (let s : State := partWd0; let d : Nat := 8; let m : Nat := 0
   let own : D2dResult := {}
   let peer : D2dResult := {}
   let ob : D2dResult := {}
   let pb : D2dResult := {}
   let e : Nat × Nat := (s.module d m).getD (0, 0)
   s.module d m = some e ∧ s.d2dState d m < 3 ∧ own = peer ∧ ob = own ∧ pb = peer ∧ own.x32 = false) ∧
  (let s : State := { partWd0 with d2dKeep := [8 * 32] }
   let d : Nat := 8; let m : Nat := 0
   let own : D2dResult := {x32 := true, repaired := 0x3}
   let peer : D2dResult := {x32 := true, repaired := 0x3}
   let ob : D2dResult := {x32 := true, repaired := 0x3}
   let pb : D2dResult := {x32 := true, repaired := 0x3}
   let e : Nat × Nat := (s.module d m).getD (0, 0)
   s.module d m = some e ∧ s.d2dState d m < 3 ∧ own = peer ∧ ob = own ∧ pb = peer ∧ own.x32 = true ∧
   s.rb d (d2dOff m) 60 = false ∧ d * 32 + m ∈ s.d2dKeep) ∧
  (let s : State := { partWd0 with cross := [(1024, { resync := true })] }
   let d : Nat := 8; let m : Nat := 0; let q : Nat := 1024; let k : Nat := 3
   (s.crossing q).resync = true ∧ (1024 ≤ q ∨ s.d2dState (q / 32) (q % 32) = 3) ∧ k ≠ q) := by
  iterate 14 refine ⟨by decide +kernel, ?_⟩
  decide +kernel

theorem test_witness_FirewallAndRetirement :
  (let s : State := State.reset; let a : Nat := 0; let n : Nat := 64; let bs : List Byte := (List.replicate 64 1)
   let v : Word := 900
   s.diePresent dieGuest = false) ∧
  (let s : State := partWf0; let a : Nat := 0; let n : Nat := 64; let bs : List Byte := (List.replicate 64 1)
   let v : Word := 900; let k : Nat := 0
   s.diePresent dieGuest = true ∧ s.fwHeld = [] ∧ (∀ m ∈ s.msgs, m.win ≠ some k)) ∧
  (let s : State := { partWf0 with msgs := [{ win := some 0 }] }
   let a : Nat := 0; let n : Nat := 64; let bs : List Byte := (List.replicate 64 1); let v : Word := 900
   let k : Nat := 0
   s.diePresent dieGuest = true ∧ s.fwHeld = [] ∧ (∃ m ∈ s.msgs, m.win = some k)) ∧
  (let s : State := partWf0; let a : Nat := 0; let n : Nat := 64; let bs : List Byte := (List.replicate 64 1)
   let v : Word := 900
   let lets (op : FwOp) (x k w : Nat) : Prop :=
       (List.range 64).find? (fun w => s.fwHolds w x k && s.rb dieMerA (fwOff w) (57 + opBit op)) = some w
   let op : FwOp := .read
   (∀ w : Nat, ¬lets op a n w) ∧ s.diePresent dieGuest = true ∧ s.dieFenced dieGuest = false ∧
   s.joinOpen dieMerA = true ∧ op ≠ .msg) ∧
  (let s : State := partWf0; let a : Nat := 0x200000000100; let n : Nat := 8
   let bs : List Byte := [1,2,3,4,5,6,7,8]; let v : Word := 5
   let lets (op : FwOp) (x k w : Nat) : Prop :=
       (List.range 64).find? (fun w => s.fwHolds w x k && s.rb dieMerA (fwOff w) (57 + opBit op)) = some w
   let w : Nat := 2
   s.diePresent dieGuest = true ∧ s.dieFenced dieGuest = false ∧ s.joinOpen dieMerA = true ∧ isDram a = false ∧
   lets .read a n w ∧ s.fwOwned (s.rf dieMerA (fwOff w) 62 60) a n = true ∧ s.spErr = []) ∧
  (let s : State := partWf0; let a : Nat := 0x200000000100; let n : Nat := 8
   let bs : List Byte := [1,2,3,4,5,6,7,8]; let v : Word := 5
   let lets (op : FwOp) (x k w : Nat) : Prop :=
       (List.range 64).find? (fun w => s.fwHolds w x k && s.rb dieMerA (fwOff w) (57 + opBit op)) = some w
   let w : Nat := 2
   s.diePresent dieGuest = true ∧ s.dieFenced dieGuest = false ∧ s.joinOpen dieMerA = true ∧ isDram a = false ∧
   lets .write a n w ∧ s.fwOwned (s.rf dieMerA (fwOff w) 62 60) a n = true ∧ bs.length = n ∧ s.canonical = true) ∧
  (let s : State := partWfd; let a : Nat := 0x1100; let n : Nat := 8; let bs : List Byte := [1,2,3,4,5,6,7,8]
   let v : Word := 900
   let lets (op : FwOp) (x k w : Nat) : Prop :=
       (List.range 64).find? (fun w => s.fwHolds w x k && s.rb dieMerA (fwOff w) (57 + opBit op)) = some w
   let w : Nat := 3; let p := s.rf dieMerA (fwOff w) 62 60
   s.diePresent dieGuest = true ∧ s.dieFenced dieGuest = false ∧ s.joinOpen dieMerA = true ∧ isDram a = true ∧
   s.fwOwned p a n = true ∧ s.served p a n ∧ lets .read a n w) ∧
  (let s : State := partWfd; let a : Nat := 0x1100; let n : Nat := 8; let bs : List Byte := [1,2,3,4,5,6,7,8]
   let v : Word := 900
   let lets (op : FwOp) (x k w : Nat) : Prop :=
       (List.range 64).find? (fun w => s.fwHolds w x k && s.rb dieMerA (fwOff w) (57 + opBit op)) = some w
   let w : Nat := 3; let p := s.rf dieMerA (fwOff w) 62 60
   s.diePresent dieGuest = true ∧ s.dieFenced dieGuest = false ∧ s.joinOpen dieMerA = true ∧ isDram a = true ∧
   s.fwOwned p a n = true ∧ s.served p a n ∧ lets .write a n w ∧ bs.length = n) ∧
  (let s : State := partWf0; let a : Nat := 0; let n : Nat := 64; let bs : List Byte := (List.replicate 64 1)
   let v : Word := 900
   let lets (op : FwOp) (x k w : Nat) : Prop :=
       (List.range 64).find? (fun w => s.fwHolds w x k && s.rb dieMerA (fwOff w) (57 + opBit op)) = some w
   let w : Nat := 2
   s.diePresent dieGuest = true ∧ s.dieFenced dieGuest = false ∧ s.joinOpen dieMerA = true ∧
   lets .msg (spBase (a / 2 ^ 16 % 1024)) 64 w ∧
   s.fwOwned (s.rf dieMerA (fwOff w) 62 60) (spBase (a / 2 ^ 16 % 1024)) 64 = true) ∧
  (let s : State := partWf0; let a : Nat := 0; let n : Nat := 64; let bs : List Byte := (List.replicate 64 1)
   let v : Word := 900
   let lets (op : FwOp) (x k w : Nat) : Prop :=
       (List.range 64).find? (fun w => s.fwHolds w x k && s.rb dieMerA (fwOff w) (57 + opBit op)) = some w
   let op : FwOp := .read
   (∀ w : Nat, ¬lets op a n w) ∧ s.diePresent dieGuest = true ∧ s.dieFenced dieGuest = false ∧
   s.joinOpen dieMerA = true ∧ op ≠ .msg ∧ op = .read) ∧
  (let s : State := partWf0; let a : Nat := 0x200000000100; let n : Nat := 8
   let bs : List Byte := [1,2,3,4,5,6,7,8]; let v : Word := 5
   let lets (op : FwOp) (x k w : Nat) : Prop :=
       (List.range 64).find? (fun w => s.fwHolds w x k && s.rb dieMerA (fwOff w) (57 + opBit op)) = some w
   let w : Nat := 2; let x : Nat := 0
   s.diePresent dieGuest = true ∧ s.dieFenced dieGuest = false ∧ s.joinOpen dieMerA = true ∧ isDram a = false ∧
   lets .write a n w ∧ s.fwOwned (s.rf dieMerA (fwOff w) 62 60) a n = true ∧ bs.length = n ∧ s.canonical = true ∧
   (x < a ∨ a + n ≤ x)) ∧
  (let s : State := partWfd; let a : Nat := 0x1100; let n : Nat := 8; let bs : List Byte := [1,2,3,4,5,6,7,8]
   let v : Word := 900
   let lets (op : FwOp) (x k w : Nat) : Prop :=
       (List.range 64).find? (fun w => s.fwHolds w x k && s.rb dieMerA (fwOff w) (57 + opBit op)) = some w
   let w : Nat := 3; let p := s.rf dieMerA (fwOff w) 62 60; let x : Nat := 0
   s.diePresent dieGuest = true ∧ s.dieFenced dieGuest = false ∧ s.joinOpen dieMerA = true ∧ isDram a = true ∧
   s.fwOwned p a n = true ∧ s.served p a n ∧ lets .write a n w ∧ bs.length = n ∧ (x < a ∨ a + n ≤ x)) := by
  iterate 3 refine ⟨by decide +kernel, ?_⟩
  refine ⟨⟨fun w h => none_some (by decide +kernel) h, by decide +kernel⟩, ?_⟩
  iterate 5 refine ⟨by decide +kernel, ?_⟩
  refine ⟨⟨fun w h => none_some (by decide +kernel) h, by decide +kernel⟩, ?_⟩
  refine ⟨by decide +kernel, ?_⟩
  decide +kernel

theorem test_witness_TestPort :
  (let s : State := partWd0
   s.tapOpen = true) ∧
  (let s : State := { partWd0 with pins := {} }
   (s.pins.powered = false ∨ s.pins.trstN = false)) ∧
  (let s : State := { partWd0 with pins := {} }
   (s.pins.powered = false ∨ s.pins.resetN = false)) ∧
  (let s : State := partWd0
   s.pins.powered = true ∧ s.pins.resetN = true) ∧
  (let s : State := partWd0; let p : Nat := 0
   s.pins.powered = true ∧ s.pins.resetN = true ∧ p < 8) ∧
  (let s : State := (partWd0.setLkB 3 0x10 54 true); let l : Nat := 3
   s.pins.powered = true ∧ s.pins.resetN = true ∧ l < 24 ∧ s.linkPresent l = true ∧ s.lkB l 0x10 54 = true) := by
  iterate 5 refine ⟨by decide +kernel, ?_⟩
  decide +kernel

theorem test_witness_PartitionTable :
  (let s : State := (partWp {})
   let p : Nat := 1; let v : Word := 0; let x := s.part p
   x.valid = false ∧ s.groupsOk p (s.tileRegs p) = true) ∧
  (let s : State := fcWpb; let p : Nat := 1; let v : Word := 0; let x := s.part p
   x.valid = false ∧ s.groupsOk p (s.tileRegs p) = false) ∧
  (let s : State := (partWp partPbase); let p : Nat := 1; let v : Word := 0; let x := s.part p
   x.valid = true ∧ x.st = .idle ∧ s.groupsOk p (s.tileRegs p) = true) ∧
  (let s : State := (regsTo [(8, 0x1010, 1), (8, partOff 1 + 8, 1)] (partWp partPbase))
   let p : Nat := 1; let v : Word := 0; let x := s.part p
   x.valid = true ∧ x.st = .idle ∧ s.groupsOk p (s.tileRegs p) = false) ∧
  (let s : State := (partWp { partPbase with st := .ending })
   let p : Nat := 1; let v : Word := 0; let x := s.part p
   x.valid = true ∧ x.st ≠ .idle) ∧
  (let s : State := (partWp partPbase); let p : Nat := 1; let v : Word := 0; let x := s.part p
   x.st = .idle) ∧
  (let s : State := (partWp {})
   let p : Nat := 1; let v : Word := 0; let x := s.part p
   x.st ≠ .idle) ∧
  (let s : State := (partWp { partPbase with st := .placing })
   let p : Nat := 1; let v : Word := 0; let x := s.part p
   x.st = .placing ∧ x.env.chunksOk = true ∧ x.env.digestOk = true) ∧
  (let s : State := (partWp { partPbase with st := .placing, env := { chunksOk := false } })
   let p : Nat := 1; let v : Word := 0; let x := s.part p
   x.st = .placing ∧ (x.env.chunksOk = false ∨ x.env.digestOk = false)) ∧
  (let s : State := (partWp {})
   let p : Nat := 1; let v : Word := 0; let x := s.part p
   x.st ≠ .placing) ∧
  (let s : State := (partWp { partPbase with st := .ending })
   let p : Nat := 1; let v : Word := 0; let x := s.part p
   x.st = .ending ∧ x.tiles.all s.unitsIdle = true ∧ s.requestsDone p = true) ∧
  (let s : State := (partWp {})
   let p : Nat := 1; let v : Word := 0; let x := s.part p
   (x.st ≠ .ending ∨ x.tiles.all s.unitsIdle = false ∨ s.requestsDone p = false)) ∧
  (let s : State := (partWp { partPbase with st := .fenced })
   let p : Nat := 1; let v : Word := 0; let x := s.part p
   x.st = .fenced) ∧
  (let s : State := (partWp {})
   let p : Nat := 1; let v : Word := 0; let x := s.part p
   x.st ≠ .fenced) ∧
  (let s : State := (partWp { partPbase with st := .placing, env := { chunksOk := true, digestOk := true, job := { tiles := [(0, 0x4003), (1, 0x5000)], load := [(0x200000000010, 7)] } } })
   let p : Nat := 1; let v : Word := 0; let x := s.part p; let e := (x.env.job.tiles).headD (0, 0)
   x.st = .placing ∧ x.env.chunksOk = true ∧ x.env.digestOk = true ∧ e ∈ x.env.job.tiles ∧
   (x.env.job.tiles.map (·.1)).Nodup ∧ natBit x.groups (e.1 / 8) = true ∧ s.tilePresent e.1 = true ∧
   s.groupServes (e.1 / 8) = true) := by
  iterate 14 refine ⟨by decide +kernel, ?_⟩
  decide +kernel

theorem test_witness_FaultReportsAreRecorded :
  (let s : State := (partWfr partR0); let i : Nat := 0; let r : Report := partR0
   s.reports[i]? = some r ∧ (s.collectorRuns = false ∨ (r.forwarded = false ∧
   (s.pathDead r.die = true ∨ (r.die, r.line) ∈ s.brokenLines)))) ∧
  (let s : State := { fcWfr1 with reports := [fcR0] }
   let i : Nat := 0; let r : Report := fcR0
   let here (kv : Nat × FcRec) : Bool := kv.2.src == r.src && kv.2.inst == r.inst
   let kv : Nat × FcRec := (s.recs.find? here).getD (0, {})
   s.reports[i]? = some r ∧ s.collectorRuns = true ∧ ((s.pathDead r.die = false ∧
   (r.die, r.line) ∉ s.brokenLines) ∨ r.forwarded = true) ∧ r.sev < 3 ∧ s.recs.find? here = some kv) ∧
  (let s : State := (fcWfr fcR0); let i : Nat := 0; let r : Report := fcR0
   let here (kv : Nat × FcRec) : Bool := kv.2.src == r.src && kv.2.inst == r.inst
   let k : Nat := ((List.range 256).find? (fun k => (s.recs.find k).isNone)).getD 0
   s.reports[i]? = some r ∧ s.collectorRuns = true ∧ ((s.pathDead r.die = false ∧
   (r.die, r.line) ∉ s.brokenLines) ∨ r.forwarded = true) ∧ r.sev < 3 ∧ s.recs.find? here = none ∧
   ((List.range 256).find? (fun k => (s.recs.find k).isNone) = some k)) ∧
  (let s : State := { fcWfr { fcR0 with sev := 3, part := some 1 } with parts := [(1, { fcPbase with st := .running })] }
   let i : Nat := 0
   let r : Report := { fcR0 with sev := 3, part := some 1 }
   s.reports[i]? = some r ∧ s.collectorRuns = true ∧ ((s.pathDead r.die = false ∧
   (r.die, r.line) ∉ s.brokenLines) ∨ r.forwarded = true) ∧ r.sev = 3) ∧
  (let s : State := (fcWfr { fcR0 with sev := 4 })
   let i : Nat := 0
   let r : Report := { fcR0 with sev := 4 }
   s.reports[i]? = some r ∧ s.collectorRuns = true ∧ ((s.pathDead r.die = false ∧
   (r.die, r.line) ∉ s.brokenLines) ∨ r.forwarded = true) ∧ r.sev = 4) ∧
  (let s : State := (fcWfr fcR0); let i : Nat := 0; let r : Report := fcR0
   let here (kv : Nat × FcRec) : Bool := kv.2.src == r.src && kv.2.inst == r.inst
   let k : Nat := ((List.range 256).find? (fun k => (s.recs.find k).isNone)).getD 0
   s.reports[i]? = some r ∧ s.collectorRuns = true ∧ ((s.pathDead r.die = false ∧
   (r.die, r.line) ∉ s.brokenLines) ∨ r.forwarded = true) ∧ r.sev < 3 ∧ s.recs.find? here = none ∧
   ((List.range 256).find? (fun k => (s.recs.find k).isNone) = some k) ∧ 1 ≤ r.sev) ∧
  (let s : State := (fcWfr { fcR0 with sev := 0 })
   let i : Nat := 0
   let r : Report := { fcR0 with sev := 0 }
   let here (kv : Nat × FcRec) : Bool := kv.2.src == r.src && kv.2.inst == r.inst
   let k : Nat := ((List.range 256).find? (fun k => (s.recs.find k).isNone)).getD 0
   s.reports[i]? = some r ∧ s.collectorRuns = true ∧ ((s.pathDead r.die = false ∧
   (r.die, r.line) ∉ s.brokenLines) ∨ r.forwarded = true) ∧ r.sev < 3 ∧ s.recs.find? here = none ∧
   ((List.range 256).find? (fun k => (s.recs.find k).isNone) = some k) ∧ r.sev = 0) ∧
  (let s : State := { fcWfr { fcR0 with src := 5, sev := 3, part := some 1, jobs := [(1, 0)] } with parts := [(1, { fcPbase with st := .running })] }
   let i : Nat := 0
   let r : Report := { fcR0 with src := 5, sev := 3, part := some 1, jobs := [(1, 0)] }
   let p := (s.toFence r).headD 0
   s.reports[i]? = some r ∧ s.collectorRuns = true ∧ ((s.pathDead r.die = false ∧
   (r.die, r.line) ∉ s.brokenLines) ∨ r.forwarded = true) ∧ r.sev = 3 ∧ p ∈ s.toFence r) := by
  iterate 7 refine ⟨by decide +kernel, ?_⟩
  decide +kernel

theorem test_witness_FaultLinesAndRecords :
  (let s : State := (fcWfr fcR0); let d : Nat := 3; let line : Nat := 1; let i : Nat := 0
   let rails : List (Bool × Bool) := [(true,true)]
   s.diePresent d = true ∧ (d, line) ∉ s.brokenLines ∧ (∃ b ∈ rails, b.1 = true ∧ b.2 = true)) ∧
  (let s : State := { partWfr partR0 with lineUp := [(3,1)] }
   let d : Nat := 3; let line : Nat := 1; let i : Nat := 0; let rails : List (Bool × Bool) := [(false,true)]
   s.diePresent d = true ∧ (d, line) ∉ s.brokenLines ∧ rails ≠ [] ∧ (∀ b ∈ rails, b.1 ≠ b.2) ∧ (d, line) ∈ s.lineUp) ∧
  (let s : State := (partWfr partR0); let d : Nat := 3; let line : Nat := partR0.line; let i : Nat := 0
   let rails : List (Bool × Bool) := [(false,true)]
   let r : Report := (s.reports[i]?).getD {}
   r.line = line ∧ s.diePresent d = true ∧ (d, line) ∉ s.brokenLines ∧ rails ≠ [] ∧ (∀ b ∈ rails, b.1 ≠ b.2) ∧
   (d, line) ∉ s.lineUp ∧ s.reports[i]? = some r ∧ r.die = d) ∧
  (let s : State := (partWfr { partR0 with die := 2 })
   let d : Nat := 3; let line : Nat := 1; let i : Nat := 0; let rails : List (Bool × Bool) := partBi
   let r : Report := (s.reports[i]?).getD {}
   s.diePresent d = true ∧ (d, line) ∉ s.brokenLines ∧ rails ≠ [] ∧ (∀ b ∈ rails, b.1 ≠ b.2) ∧ (d, line) ∉ s.lineUp ∧
   s.reports[i]? = some r ∧ (r.die ≠ d ∨ r.line ≠ line)) ∧
  (let s : State := { partWfr partR0 with lineUp := [(3,1)] }
   let d : Nat := 3; let line : Nat := 1; let i : Nat := 0; let rails : List (Bool × Bool) := [(false,false)]
   s.diePresent d = true ∧ (d, line) ∉ s.brokenLines ∧ (∀ b ∈ rails, b = (false, false))) ∧
  (let s : State := { partWfr partR0 with brokenLines := [(3,1)] }
   let d : Nat := 3; let line : Nat := 1; let i : Nat := 0; let rails : List (Bool × Bool) := [(true,true)]
   (d, line) ∈ s.brokenLines) ∧
  (let s : State := (fcWfr fcR0); let d : Nat := 3; let line : Nat := 1; let i : Nat := 0
   let rails : List (Bool × Bool) := [(true,true)]
   s.diePresent d = true ∧ (d, line) ∉ s.brokenLines ∧ (∃ b ∈ rails, b.1 = true ∧ b.2 = true) ∧
   s.rb dieMerA 0x1200020 d = false) ∧
  (let s : State := (partWfr partR0); let d : Nat := 3; let line : Nat := 1; let i : Nat := 0
   let rails : List (Bool × Bool) := [(true,true)]
   s.diePresent d = true ∧ (d, line) ∉ s.brokenLines ∧ s.rb dieMerA 0x1200020 d = false) ∧
  (let s : State := (partWfr partR0); let d : Nat := 3; let line : Nat := 1; let i : Nat := 0
   let rails : List (Bool × Bool) := [(true,true)]
   s.diePresent d = true ∧ s.rb dieMerA 0x1200020 d = false) ∧
  (let s : State := fcWfr1; let k : Nat := 0
   let x : FcRec := (s.recs.find k).getD {}
   s.recs.find k = some x ∧ x.sev ≠ 4 ∧ (x.cond = false ∨ x.active = false)) ∧
  (let s : State := { partWfr1 with recs := [(0, { sev := 4 }), (3, { sev := 1, cond := true }), (5, {sev := 1, cond := true, active := true})] }
   let k : Nat := 0
   let x : FcRec := (s.recs.find k).getD {}
   s.recs.find k = some x ∧ (x.sev = 4 ∨ (x.cond = true ∧ x.active = true))) ∧
  (let s : State := partWfr1; let k : Nat := 0
   s.recs.find k = none) ∧
  (let s : State := fcWfr1; let k : Nat := 0
   s.collectorRuns = true) ∧
  (let s : State := partWfr1; let k : Nat := 0
   s.collectorRuns = false) ∧
  (let s : State := fcWfr1; let k : Nat := 0
   let x : FcRec := (s.recs.find k).getD {}
   let j : Nat := 1
   s.recs.find k = some x ∧ x.sev ≠ 4 ∧ (x.cond = false ∨ x.active = false) ∧ j ≠ k) ∧
  (let s : State := { fcWfr1 with recs := [(0, { sev := 4 }), (3, { sev := 1, cond := true }), (5, {sev := 1, cond := true, active := true})] }
   let k : Nat := 0
   let kv := (s.recs).headD (0, {})
   s.collectorRuns = true ∧ kv ∈ s.recs) := by
  iterate 2 refine ⟨by decide +kernel, ?_⟩
  refine ⟨⟨rfl, by decide +kernel⟩, ?_⟩
  iterate 12 refine ⟨by decide +kernel, ?_⟩
  decide +kernel

theorem test_witness_GovernorPasses :
  (let s : State := State.reset; let d : Nat := 0; let gray : BitVec 16 := 5; let tjs : List Nat := [60, 60]
   let w : Nat := 77
   s.governs d = false) ∧
  (let s : State := (({ partWgt with govs := [(0, { stall := 16 })] } : State).setRb 0 0x2018 3 true)
   let d : Nat := 0; let gray : BitVec 16 := 0; let tjs : List Nat := [60, 60]; let w : Nat := 77
   s.governs d = true ∧ s.rb d 0x2018 3 = true) ∧
  (let s : State := { partWgt with govs := [(0, { stall := 15 })] }
   let d : Nat := 0; let gray : BitVec 16 := 0; let tjs : List Nat := [60, 60]; let w : Nat := 77
   let laps := grayNew (s.gov d).laps gray; let tj := (sampledTwice tjs).getD (s.rf d 0x2008 15 8)
   s.governs d = true ∧ (s.rb d 0x2018 3 = true ∨ (laps = 0 ∧ 15 ≤ (s.gov d).stall)) ∧ tj < 256) ∧
  (let s : State := partWgt; let d : Nat := 0; let gray : BitVec 16 := 5; let tjs : List Nat := [60, 60]
   let w : Nat := 77; let half := (s.gov d).half; let laps := grayNew (s.gov d).laps gray
   let tj := (sampledTwice tjs).getD (s.rf d 0x2008 15 8)
   s.governs d = true ∧ s.rb d 0x2018 3 = false ∧ (laps ≠ 0 ∨ (s.gov d).stall < 15) ∧ 1200 ≤ half ∧ half ≤ 1700 ∧
   tj < 256) ∧
  (let s : State := partWgt; let d : Nat := 0; let gray : BitVec 16 := 5; let tjs : List Nat := [60, 60]
   let w : Nat := 77
   s.governs d = true ∧ s.rb d 0x2018 3 = false ∧ (s.gov d).stall < 16) ∧
  (let s : State := { partWgt with govs := [(0, { stall := 16 })] }
   let d : Nat := 0; let gray : BitVec 16 := 0; let tjs : List Nat := [60, 60]; let w : Nat := 77
   s.governs d = true ∧ s.rb d 0x2018 3 = false ∧ 16 ≤ (s.gov d).stall) ∧
  (let s : State := partWgt; let d : Nat := 0; let gray : BitVec 16 := 5; let tjs : List Nat := [60, 60]
   let w : Nat := 77
   s.governs dieMerA = true) ∧
  (let s : State := State.reset; let d : Nat := 0; let gray : BitVec 16 := 5; let tjs : List Nat := [60, 60]
   let w : Nat := 77
   s.governs dieMerA = false) ∧
  (let s : State := partWgt; let d : Nat := 0; let gray : BitVec 16 := 5; let tjs : List Nat := [200, 200]
   let w : Nat := 77; let half := (s.gov d).half; let laps := grayNew (s.gov d).laps gray
   let measured := paceOfLaps d laps; let target := s.rf d 0x2000 15 0
   let tj := (sampledTwice tjs).getD (s.rf d 0x2008 15 8)
   let limited : Prop := s.rf d 0x2010 7 0 ≤ tj ∨ ∃ n, (s.gov d).share = some n ∧ n < w
   (target < measured ∨ limited) ∧ s.governs d = true ∧ s.rb d 0x2018 3 = false ∧ (laps ≠ 0 ∨ (s.gov d).stall < 15) ∧
   1200 ≤ half ∧ half ≤ 1700 ∧ tj < 256) ∧
  (let s : State := partWgt; let d : Nat := 0; let gray : BitVec 16 := 0; let tjs : List Nat := [60, 60]
   let w : Nat := 77; let half := (s.gov d).half; let laps := grayNew (s.gov d).laps gray
   let measured := paceOfLaps d laps; let target := s.rf d 0x2000 15 0
   let tj := (sampledTwice tjs).getD (s.rf d 0x2008 15 8)
   let limited : Prop := s.rf d 0x2010 7 0 ≤ tj ∨ ∃ n, (s.gov d).share = some n ∧ n < w
   measured < target ∧ ¬limited ∧ s.governs d = true ∧ s.rb d 0x2018 3 = false ∧ (laps ≠ 0 ∨ (s.gov d).stall < 15) ∧
   1200 ≤ half ∧ half ≤ 1700 ∧ tj < 256) ∧
  (let s : State := (fcWgv.setRf 0 0x2000 15 0 0); let d : Nat := 0; let gray : BitVec 16 := 0
   let tjs : List Nat := [60, 60]; let w : Nat := 77; let half := (s.gov d).half
   let laps := grayNew (s.gov d).laps gray; let measured := paceOfLaps d laps; let target := s.rf d 0x2000 15 0
   let tj := (sampledTwice tjs).getD (s.rf d 0x2008 15 8)
   let limited : Prop := s.rf d 0x2010 7 0 ≤ tj ∨ ∃ n, (s.gov d).share = some n ∧ n < w
   measured = target ∧ ¬limited ∧ s.governs d = true ∧ s.rb d 0x2018 3 = false ∧ (laps ≠ 0 ∨ (s.gov d).stall < 15) ∧
   1200 ≤ half ∧ half ≤ 1700 ∧ tj < 256) := by
  iterate 8 refine ⟨by decide +kernel, ?_⟩
  refine ⟨⟨Or.inr (Or.inl (by decide +kernel)), by decide +kernel⟩, ?_⟩
  refine ⟨⟨pace_lt (by decide +kernel) (by decide +kernel), fun h => h.elim (by decide +kernel) fun ⟨_, e, _⟩ => none_some (by decide +kernel) e, by decide +kernel⟩, ?_⟩
  exact ⟨pace_zero (by decide +kernel) (by decide +kernel), fun h => h.elim (by decide +kernel) fun ⟨_, e, _⟩ => none_some (by decide +kernel) e, by decide +kernel⟩

theorem test_witness_BlockScaleNan :
  (let f : Fmt := .mxfp4; let c : Nat := 3
   f ∈ [Fmt.mxfp4, .mxint8, .sq8]) := by
  decide +kernel

theorem test_witness_DivisionNeverTraps :
  (let s : State := moreWdv; let t : Nat := 0; let gd : Reg := 4; let ga : Reg := 1; let gb : Reg := 3
   let b := s.g t gb
   s.ready t 4 = true ∧ b = 0) ∧
  (let s : State := moreWdv; let t : Nat := 0; let gd : Reg := 4; let ga : Reg := 1; let gb : Reg := 2
   let a := s.g t ga; let b := s.g t gb
   s.ready t 4 = true ∧ a = 0x8000000000000000 ∧ b = 0xFFFFFFFFFFFFFFFF) := by
  refine ⟨by decide +kernel, ?_⟩
  decide +kernel

theorem test_witness_PowerAndReset :
  (let s : State := { State.reset with pins := { vin := 52000, inputOn := true, pwrEn := true } }
   let p := s.pins
   p.pwrEn = true ∧ p.inputOn = true ∧ p.tripped = false ∧ p.powered = false) ∧
  (let s : State := State.reset; let p := s.pins
   (p.pwrEn = false ∨ p.inputOn = false ∨ p.tripped = true ∨ p.powered = true)) ∧
  (let s : State := { State.reset with pins := {} }
   let p := s.pins
   (p.resetN = true ∨ p.pwrOk = false ∨ p.released = true ∨ p.okNs < 1000000)) ∧
  (let s : State := { State.reset with pins := { State.reset.pins with resetN := false, released := false, counting := true, okNs := 1000000 } }
   let p := s.pins
   p.resetN = false ∧ p.pwrOk = true ∧ p.released = false ∧ 1000000 ≤ p.okNs) ∧
  (let s : State := { State.reset with ns := [(8, 1000000)], pins := { State.reset.pins with resetN := false, released := false, counting := true } }
   let p := s.pins
   p.pwrOk = true) ∧
  (let s : State := { State.reset with pins := {} }
   let p := s.pins
   p.pwrOk = false) ∧
  (let s : State := State.reset; let p := s.pins; let mv : Nat := 0
   p.powered = true ∧ (mv < 42000 ∨ 58000 < mv)) ∧
  (let s : State := State.reset; let p := s.pins; let d : Nat := 0
   p.powered = true ∧ s.diePresent d = true) ∧
  (let s : State := State.reset; let mv : Nat := 45001
   45000 < mv ∧ mv ≤ 58000) ∧
  (let s : State := { State.reset with pins := { State.reset.pins with resetN := false, released := false, counting := true, okNs := 1000000 } }
   let p := s.pins; let epochs : List (Nat × Nat) := [(3, 77)]; let l : Nat := 3; let e : Nat := 77
   p.resetN = false ∧ p.pwrOk = true ∧ p.released = false ∧ 1000000 ≤ p.okNs ∧ l < 24 ∧ s.linkPresent l = true ∧
   (epochs.find? (fun x => x.1 == l) = some (l, e))) := by
  iterate 9 refine ⟨by decide +kernel, ?_⟩
  decide +kernel

theorem test_witness_BootStages :
  (let s : State := { State.reset with emmc := { readable := false } }
   let reading : List Byte := []; let failed : List (Nat × Nat) := []; let unverified : List (Nat × Nat) := []
   let found : List (Nat × Nat) := []
   s.booting 0 = true ∧ s.rot.runCopy.find 1 = none) ∧
  (let s : State := (pwrPh 1); let reading : List Byte := []; let failed : List (Nat × Nat) := []
   let unverified : List (Nat × Nat) := []; let found : List (Nat × Nat) := []
   s.booting 0 = false) ∧
  (let s : State := (pwrPh 1); let reading : List Byte := []; let failed : List (Nat × Nat) := []
   let unverified : List (Nat × Nat) := []; let found : List (Nat × Nat) := []
   s.booting 1 = true) ∧
  (let s : State := { State.reset with emmc := { readable := false } }
   let reading : List Byte := []; let failed : List (Nat × Nat) := []; let unverified : List (Nat × Nat) := []
   let found : List (Nat × Nat) := []
   s.booting 1 = false) ∧
  (let s : State := pwrK2; let reading : List Byte := []; let failed : List (Nat × Nat) := [(2,1)]
   let unverified : List (Nat × Nat) := []; let found : List (Nat × Nat) := [(4,5)]
   s.collectorRuns = true ∧ s.phase = 2) ∧
  (let s : State := { State.reset with emmc := { readable := false } }
   let reading : List Byte := []; let failed : List (Nat × Nat) := []; let unverified : List (Nat × Nat) := []
   let found : List (Nat × Nat) := []
   (s.collectorRuns = false ∨ s.phase ≠ 2)) ∧
  (let s : State := pwrK2; let reading : List Byte := []; let failed : List (Nat × Nat) := [(2,1)]
   let unverified : List (Nat × Nat) := []; let found : List (Nat × Nat) := [(4,5)]
   s.collectorRuns = true ∧ s.reconciled = false) ∧
  (let s : State := { State.reset with emmc := { readable := false } }
   let reading : List Byte := []; let failed : List (Nat × Nat) := []; let unverified : List (Nat × Nat) := []
   let found : List (Nat × Nat) := []
   (s.collectorRuns = false ∨ s.reconciled = true)) ∧
  (let s : State := pwrK3; let reading : List Byte := []; let failed : List (Nat × Nat) := [(2,1)]
   let unverified : List (Nat × Nat) := []; let found : List (Nat × Nat) := [(4,5)]
   s.booting 2 = true ∧ s.stackState 0 = 1) ∧
  (let s : State := { State.reset with emmc := { readable := false } }
   let reading : List Byte := []; let failed : List (Nat × Nat) := []; let unverified : List (Nat × Nat) := []
   let found : List (Nat × Nat) := []
   (s.booting 2 = false ∨ s.stackState 0 ≠ 1)) ∧
  (let s : State := pwrK4; let reading : List Byte := []; let failed : List (Nat × Nat) := [(2,1)]
   let unverified : List (Nat × Nat) := []; let found : List (Nat × Nat) := [(4,5)]
   s.booting 3 = true ∧ s.reconciled = true) ∧
  (let s : State := { State.reset with emmc := { readable := false } }
   let reading : List Byte := []; let failed : List (Nat × Nat) := []; let unverified : List (Nat × Nat) := []
   let found : List (Nat × Nat) := []
   (s.booting 3 = false ∨ s.reconciled = false)) ∧
  (let s : State := pwrEnr; let reading : List Byte := []; let failed : List (Nat × Nat) := []
   let unverified : List (Nat × Nat) := []; let found : List (Nat × Nat) := []; let k := Config.pufSecret [] []
   s.pufSecret reading = some k ∧ s.booting 0 = true ∧ s.rot.runCopy.find 1 = none ∧ s.emmc.enrolled = true) ∧
  (let s : State := pwrK2; let reading : List Byte := []; let failed : List (Nat × Nat) := [(2,1)]
   let unverified : List (Nat × Nat) := []; let found : List (Nat × Nat) := [(4,5)]; let m : Nat := 0
   s.collectorRuns = true ∧ s.phase = 2 ∧ m < 24 ∧ s.stackPresent m = true ∧ s.stackState m = 0) := by
  iterate 12 refine ⟨by decide +kernel, ?_⟩
  refine ⟨⟨pufSecret_checked rfl rfl rfl, by decide +kernel⟩, ?_⟩
  decide +kernel

theorem test_witness_SystemManagementBus :
  (let s : State := State.reset
   let q : SmbReq := { addr := 0x5B, kind := 0 }
   q.pec = false ∧ q.kind = 0) ∧
  (let s : State := pwrK5
   let q : SmbReq := { addr := 91, kind := 1, pec := false }
   q.pec = false ∧ q.kind = 1) ∧
  (let s : State := pwrK5
   let q : SmbReq := { addr := 91, kind := 2, pec := false }
   q.pec = false ∧ q.kind = 2) ∧
  (let s : State := pwrK5
   let q : SmbReq := { addr := 91, kind := 1, pec := true }
   q.pec = true) ∧
  (let s : State := pwrK5
   let q : SmbReq := { addr := 91, kind := 1, pec := true }
   let d : Nat := 0
   s.smbAnswers = true ∧ q.addr = 0x58 + s.pins.addr ∧ d < 12) ∧
  (let s : State := pwrK5
   let q : SmbReq := { addr := 91, kind := 1, pec := true }
   let m : Nat := 0
   s.smbAnswers = true ∧ q.addr = 0x58 + s.pins.addr ∧ m < 24) ∧
  (let s : State := State.reset
   let q : SmbReq := { addr := 0x5B, kind := 0 }
   let d : Nat := 0; let m : Nat := 0; let c := Instr.smbJunctionMax q
   c ∈ [Instr.smbJunctionMax q, .smbStackMax q, .smbPower q, .smbVoltage q, .smbFlags q, .smbDieJunction q d, .smbStackSensor q m] ∧
   s.smbAnswers = false ∧ q.addr = 0x58 + s.pins.addr) ∧
  (let s : State := pwrK5
   let q : SmbReq := { addr := 88, kind := 0, pec := false }
   let d : Nat := 0; let m : Nat := 0; let c := Instr.smbJunctionMax q
   c ∈ [Instr.smbJunctionMax q, .smbStackMax q, .smbPower q, .smbVoltage q, .smbFlags q, .smbDieJunction q d, .smbStackSensor q m] ∧
   q.addr ≠ 0x58 + s.pins.addr) ∧
  (let s : State := pwrK5
   let q : SmbReq := { addr := 91, kind := 1, pec := true }
   let d : Nat := 0
   s.smbAnswers = true ∧ q.addr = 0x58 + s.pins.addr ∧ d < 12 ∧ s.diePresent d = true) ∧
  (let s : State := pwrK5
   let q : SmbReq := { addr := 91, kind := 1, pec := true }
   let m := 0
   s.smbAnswers = true ∧ q.addr = 0x58 + s.pins.addr ∧ m ∈ s.stacksUp) := by
  iterate 9 refine ⟨by decide +kernel, ?_⟩
  decide +kernel

theorem test_witness_RegisterWrites :
  (let s : State := pwrK5; let d : Nat := 11; let v : Word := 0xFFFF
   s.diePresent d = false) ∧
  (let s : State := pwrK5; let d : Nat := 3; let v : Word := 0xFFFF; let off : Nat := 1
   s.diePresent d = true ∧ off % 8 ≠ 0) ∧
  (let s : State := pwrK5; let d : Nat := 3; let v : Word := 0xFFFF
   s.diePresent dieMerA = true) ∧
  (let s : State := { pwrK5 with variant := .trnG24 }
   let d : Nat := 11; let v : Word := 5; let off : Nat := 42000
   s.diePresent dieGuest = true ∧ off % 8 = 0 ∧ 0x3000 ≤ off ∧ off < 0xD00000) ∧
  (let s : State := pwrK5; let d : Nat := 3; let v : Word := 0xFFFF; let off : Nat := 0
   s.diePresent d = true ∧ off ≠ 0x2018) := by
  iterate 4 refine ⟨by decide +kernel, ?_⟩
  decide +kernel

theorem test_witness_ManagementPort :
  (let s : State := State.reset; let r : MgmtReq := (mgtRq 1 0 0)
   let up : Prop := s.pins.powered = true ∧ s.pins.released = true ∧ s.phase ≠ 0
   let c := Instr.status r
   c ∈ [Instr.status r, .resultRead r, .resultAck r, .blobOpen r, .blobWrite r, .blobRead r, .blobFree r, .jobStart r, .jobStop r, .jobFence r, .partSet r, .mapout r, .retire r, .quote r, .powerCap r, .recordsRead r, .recordsClear r, .fwUpload r, .svnCommit r, .netSet r, .recoverWrite r, .recoverCommit r, .powerOff r] ∧
   (¬up ∨ r.tcp = true ∨ r.dstPort ≠ 23841 ∨ s.mgmtMine r = false)) ∧
  (let s : State := mgtR4s; let r : MgmtReq := (mgtRq 1 0 0)
   let up : Prop := s.pins.powered = true ∧ s.pins.released = true ∧ s.phase ≠ 0
   let c := Instr.status r
   let x := (s.mgmt.seen.find? (fun e => e.1 == reqKey r)).getD ((0, 0, 0), {})
   c ∈ [Instr.status r, .resultRead r, .resultAck r, .blobOpen r, .blobWrite r, .blobRead r, .blobFree r, .jobStart r, .jobStop r, .jobFence r, .partSet r, .mapout r, .retire r, .quote r, .powerCap r, .recordsRead r, .recordsClear r, .fwUpload r, .svnCommit r, .netSet r, .recoverWrite r, .recoverCommit r, .powerOff r] ∧
   up ∧ s.mgmtMine r = true ∧ (s.mgmt.seen.find? (fun e => e.1 == reqKey r) = some x)) ∧
  (let s : State := mgtR4
   let r : MgmtReq := { mgtRq 1 0 0 with w0 := 77 }
   let up : Prop := s.pins.powered = true ∧ s.pins.released = true ∧ s.phase ≠ 0
   let c := Instr.status r
   c ∈ [Instr.status r, .resultRead r, .resultAck r, .blobOpen r, .blobWrite r, .blobRead r, .blobFree r, .jobStart r, .jobStop r, .jobFence r, .partSet r, .mapout r, .retire r, .quote r, .powerCap r, .recordsRead r, .recordsClear r, .fwUpload r, .svnCommit r, .netSet r, .recoverWrite r, .recoverCommit r, .powerOff r] ∧
   up ∧ s.mgmtMine r = true ∧ (s.mgmt.seen.find? (fun e => e.1 == reqKey r) = none) ∧
   (fld r.w0 63 56 ≠ 1 ∨ fld r.w0 55 48 ≠ 0 ∨ fld r.w1 31 16 ≠ r.body.length)) ∧
  (let s : State := State.reset; let r : MgmtReq := (mgtRq 1 0 0)
   let up : Prop := s.pins.powered = true ∧ s.pins.released = true ∧ s.phase ≠ 0
   let c := Instr.status r
   c ∈ [Instr.status r, .resultRead r, .resultAck r, .blobOpen r, .blobWrite r, .blobRead r, .blobFree r, .jobStart r, .jobStop r, .jobFence r, .partSet r, .mapout r, .retire r, .quote r, .powerCap r, .recordsRead r, .recordsClear r, .fwUpload r, .svnCommit r, .netSet r, .recoverWrite r, .recoverCommit r, .powerOff r] ∧
   ¬up) := by
  iterate 3 refine ⟨by decide +kernel, ?_⟩
  decide +kernel

theorem test_witness_ManagementReads :
  (let s : State := mgtR4; let r : MgmtReq := (mgtRq 1 0 0)
   let asked (op : Nat) (m0 m1 : Word) (body : Nat → Bool) : Prop := s.pins.powered = true ∧ s.pins.released = true ∧
       s.mgmtMine r = true ∧ s.mgmt.seen.find? (fun e => e.1 == reqKey r) = none ∧ reqOk op r m0 m1 body = true
   asked 0x01 0 0 noBody ∧ s.inPhase .a = true) ∧
  (let s : State := (mgtRc true); let r : MgmtReq := (mgtRq 2 1 0)
   let asked (op : Nat) (m0 m1 : Word) (body : Nat → Bool) : Prop := s.pins.powered = true ∧ s.pins.released = true ∧
       s.mgmtMine r = true ∧ s.mgmt.seen.find? (fun e => e.1 == reqKey r) = none ∧ reqOk op r m0 m1 body = true
   let id := r.arg0.toNat
   let x := (s.crec id).getD {}
   asked 0x02 m64 0 noBody ∧ s.inPhase .a = true ∧ s.crec id = some x ∧ x.done = true) ∧
  (let s : State := (mgtRc false); let r : MgmtReq := (mgtRq 2 1 0)
   let asked (op : Nat) (m0 m1 : Word) (body : Nat → Bool) : Prop := s.pins.powered = true ∧ s.pins.released = true ∧
       s.mgmtMine r = true ∧ s.mgmt.seen.find? (fun e => e.1 == reqKey r) = none ∧ reqOk op r m0 m1 body = true
   let id := r.arg0.toNat
   let x := (s.crec id).getD {}
   asked 0x02 m64 0 noBody ∧ s.inPhase .a = true ∧ s.crec id = some x ∧ x.done = false) ∧
  (let s : State := mgtR4; let r : MgmtReq := (mgtRq 2 1 0)
   let asked (op : Nat) (m0 m1 : Word) (body : Nat → Bool) : Prop := s.pins.powered = true ∧ s.pins.released = true ∧
       s.mgmtMine r = true ∧ s.mgmt.seen.find? (fun e => e.1 == reqKey r) = none ∧ reqOk op r m0 m1 body = true
   let id := r.arg0.toNat
   asked 0x02 m64 0 noBody ∧ s.inPhase .a = true ∧ s.crec id = none) ∧
  (let s : State := (mgtRc true); let r : MgmtReq := (mgtRq 3 1 0)
   let asked (op : Nat) (m0 m1 : Word) (body : Nat → Bool) : Prop := s.pins.powered = true ∧ s.pins.released = true ∧
       s.mgmtMine r = true ∧ s.mgmt.seen.find? (fun e => e.1 == reqKey r) = none ∧ reqOk op r m0 m1 body = true
   let id := r.arg0.toNat
   let x := (s.crec id).getD {}
   asked 0x03 m64 0 noBody ∧ s.inPhase .a = true ∧ s.crec id = some x ∧ x.done = true) ∧
  (let s : State := mgtR4; let r : MgmtReq := (mgtRq 0x21 500 0)
   let asked (op : Nat) (m0 m1 : Word) (body : Nat → Bool) : Prop := s.pins.powered = true ∧ s.pins.released = true ∧
       s.mgmtMine r = true ∧ s.mgmt.seen.find? (fun e => e.1 == reqKey r) = none ∧ reqOk op r m0 m1 body = true
   asked 0x21 m64 0 noBody ∧ s.inPhase .r = true) ∧
  (let s : State := { mgtR4 with recs := [(1, { src := 3, sev := 1 })] }
   let r : MgmtReq := (mgtRq 0x22 0 4)
   let asked (op : Nat) (m0 m1 : Word) (body : Nat → Bool) : Prop := s.pins.powered = true ∧ s.pins.released = true ∧
       s.mgmtMine r = true ∧ s.mgmt.seen.find? (fun e => e.1 == reqKey r) = none ∧ reqOk op r m0 m1 body = true
   let id := r.arg0.toNat
   asked 0x22 m64 m64 noBody ∧ s.inPhase .c = true ∧ 1 ≤ r.arg1.toNat ∧ r.arg1.toNat ≤ 256 ∧ id + r.arg1.toNat ≤ 256) ∧
  (let s : State := { mgtR4 with recs := [(1, { src := 3, sev := 1 })] }
   let r : MgmtReq := (mgtRq 0x23 1 0)
   let asked (op : Nat) (m0 m1 : Word) (body : Nat → Bool) : Prop := s.pins.powered = true ∧ s.pins.released = true ∧
       s.mgmtMine r = true ∧ s.mgmt.seen.find? (fun e => e.1 == reqKey r) = none ∧ reqOk op r m0 m1 body = true
   asked 0x23 (maskOf 8 0) 0 noBody ∧ s.inPhase .c = true) := by
  iterate 7 refine ⟨by decide +kernel, ?_⟩
  decide +kernel

theorem test_witness_ManagementBlobs :
  (let s : State := mgtR4; let r : MgmtReq := (mgtRq 8 100 0)
   let asked (op : Nat) (m0 m1 : Word) (body : Nat → Bool) : Prop := s.pins.powered = true ∧ s.pins.released = true ∧
       s.mgmtMine r = true ∧ s.mgmt.seen.find? (fun e => e.1 == reqKey r) = none ∧ reqOk op r m0 m1 body = true
   s.inPhase .r = true ∧ asked 0x08 m64 0 noBody ∧ 1 ≤ r.arg0.toNat ∧ r.arg0.toNat ≤ 2 ^ 34 ∧
   s.mgmt.blobs.length < 64 ∧ s.blobBytes + r.arg0.toNat ≤ 2 ^ 35) ∧
  (let s : State := { mgtR4 with mgmt := { mgtR4.mgmt with blobs := [(1, { size := 2 ^ 34 }), (2, { size := 2 ^ 34 })] } }
   let r : MgmtReq := (mgtRq 8 100 0)
   let asked (op : Nat) (m0 m1 : Word) (body : Nat → Bool) : Prop := s.pins.powered = true ∧ s.pins.released = true ∧
       s.mgmtMine r = true ∧ s.mgmt.seen.find? (fun e => e.1 == reqKey r) = none ∧ reqOk op r m0 m1 body = true
   s.inPhase .r = true ∧ asked 0x08 m64 0 noBody ∧ 1 ≤ r.arg0.toNat ∧ r.arg0.toNat ≤ 2 ^ 34 ∧
   (64 ≤ s.mgmt.blobs.length ∨ 2 ^ 35 < s.blobBytes + r.arg0.toNat)) ∧
  (let s : State := mgtBb; let r : MgmtReq := (mgtRq 9 1 5 [1,2,3] 78)
   let asked (op : Nat) (m0 m1 : Word) (body : Nat → Bool) : Prop := s.pins.powered = true ∧ s.pins.released = true ∧
       s.mgmtMine r = true ∧ s.mgmt.seen.find? (fun e => e.1 == reqKey r) = none ∧ reqOk op r m0 m1 body = true
   let b := fld r.arg0 15 0; let o := r.arg1.toNat
   let x := (s.mgmt.blobs.find b).getD {}
   s.inPhase .r = true ∧ s.mgmt.blobs.find b = some x ∧ asked 0x09 (maskOf 15 0) m64 dataBody ∧
   o + r.body.length ≤ x.size ∧ x.holds = 0) ∧
  (let s : State := { mgtBb with mgmt := { mgtBb.mgmt with blobs := mgtBb.mgmt.blobs.put 1 { size := 100, holds := 1 }}}
   let r : MgmtReq := (mgtRq 9 1 5 [1,2,3] 78)
   let asked (op : Nat) (m0 m1 : Word) (body : Nat → Bool) : Prop := s.pins.powered = true ∧ s.pins.released = true ∧
       s.mgmtMine r = true ∧ s.mgmt.seen.find? (fun e => e.1 == reqKey r) = none ∧ reqOk op r m0 m1 body = true
   let b := fld r.arg0 15 0; let o := r.arg1.toNat
   let x := (s.mgmt.blobs.find b).getD {}
   s.inPhase .r = true ∧ s.mgmt.blobs.find b = some x ∧ asked 0x09 (maskOf 15 0) m64 dataBody ∧
   o + r.body.length ≤ x.size ∧ 0 < x.holds) ∧
  (let s : State := mgtBw; let r : MgmtReq := (mgtRq 0xA (10*2^32 + 1) 0 [] 79)
   let asked (op : Nat) (m0 m1 : Word) (body : Nat → Bool) : Prop := s.pins.powered = true ∧ s.pins.released = true ∧
       s.mgmtMine r = true ∧ s.mgmt.seen.find? (fun e => e.1 == reqKey r) = none ∧ reqOk op r m0 m1 body = true
   let b := fld r.arg0 15 0; let o := r.arg1.toNat; let n := fld r.arg0 47 32
   let x := (s.mgmt.blobs.find b).getD {}
   s.inPhase .r = true ∧ s.mgmt.blobs.find b = some x ∧ asked 0x0A (maskOf 47 32 ||| maskOf 15 0) m64 noBody ∧ 1 ≤ n ∧
   n ≤ 8192 ∧ o + n ≤ x.size) ∧
  (let s : State := mgtBb; let r : MgmtReq := (mgtRq 9 1 99 [1,2,3] 78)
   let asked (op : Nat) (m0 m1 : Word) (body : Nat → Bool) : Prop := s.pins.powered = true ∧ s.pins.released = true ∧
       s.mgmtMine r = true ∧ s.mgmt.seen.find? (fun e => e.1 == reqKey r) = none ∧ reqOk op r m0 m1 body = true
   let b := fld r.arg0 15 0; let o := r.arg1.toNat
   let x := (s.mgmt.blobs.find b).getD {}
   s.inPhase .r = true ∧ s.mgmt.blobs.find b = some x ∧ asked 0x09 (maskOf 15 0) m64 dataBody ∧
   x.size < o + r.body.length) ∧
  (let s : State := { mgtBb with mgmt := { mgtBb.mgmt with blobs := [(1, { size := 100, holds := 1 })] } }
   let r : MgmtReq := (mgtRq 0xB 1 0 [] 79)
   let asked (op : Nat) (m0 m1 : Word) (body : Nat → Bool) : Prop := s.pins.powered = true ∧ s.pins.released = true ∧
       s.mgmtMine r = true ∧ s.mgmt.seen.find? (fun e => e.1 == reqKey r) = none ∧ reqOk op r m0 m1 body = true
   let b := fld r.arg0 15 0
   let x := (s.mgmt.blobs.find b).getD {}
   s.inPhase .r = true ∧ s.mgmt.blobs.find b = some x ∧ asked 0x0B (maskOf 15 0) 0 noBody ∧ 0 < x.holds) ∧
  (let s : State := mgtBw; let r : MgmtReq := (mgtRq 0xB 1 0 [] 79)
   let asked (op : Nat) (m0 m1 : Word) (body : Nat → Bool) : Prop := s.pins.powered = true ∧ s.pins.released = true ∧
       s.mgmtMine r = true ∧ s.mgmt.seen.find? (fun e => e.1 == reqKey r) = none ∧ reqOk op r m0 m1 body = true
   let b := fld r.arg0 15 0
   let x := (s.mgmt.blobs.find b).getD {}
   s.inPhase .r = true ∧ s.mgmt.blobs.find b = some x ∧ asked 0x0B (maskOf 15 0) 0 noBody ∧ x.holds = 0) ∧
  (let s : State := mgtR4; let r : MgmtReq := (mgtRq 9 1 5 [1,2,3] 78)
   let asked (op : Nat) (m0 m1 : Word) (body : Nat → Bool) : Prop := s.pins.powered = true ∧ s.pins.released = true ∧
       s.mgmtMine r = true ∧ s.mgmt.seen.find? (fun e => e.1 == reqKey r) = none ∧ reqOk op r m0 m1 body = true
   let b := fld r.arg0 15 0
   s.inPhase .r = true ∧ s.mgmt.blobs.find b = none ∧ asked 0x09 (maskOf 15 0) m64 dataBody) ∧
  (let s : State := mgtR4; let r : MgmtReq := (mgtRq 0xA (10*2^32 + 1) 0 [] 79)
   let asked (op : Nat) (m0 m1 : Word) (body : Nat → Bool) : Prop := s.pins.powered = true ∧ s.pins.released = true ∧
       s.mgmtMine r = true ∧ s.mgmt.seen.find? (fun e => e.1 == reqKey r) = none ∧ reqOk op r m0 m1 body = true
   let b := fld r.arg0 15 0; let n := fld r.arg0 47 32
   s.inPhase .r = true ∧ s.mgmt.blobs.find b = none ∧ asked 0x0A (maskOf 47 32 ||| maskOf 15 0) m64 noBody ∧ 1 ≤ n ∧
   n ≤ 8192) ∧
  (let s : State := mgtR4; let r : MgmtReq := (mgtRq 0xB 1 0 [] 79)
   let asked (op : Nat) (m0 m1 : Word) (body : Nat → Bool) : Prop := s.pins.powered = true ∧ s.pins.released = true ∧
       s.mgmtMine r = true ∧ s.mgmt.seen.find? (fun e => e.1 == reqKey r) = none ∧ reqOk op r m0 m1 body = true
   let b := fld r.arg0 15 0
   s.inPhase .r = true ∧ s.mgmt.blobs.find b = none ∧ asked 0x0B (maskOf 15 0) 0 noBody) ∧
  (let s : State := mgtBb; let r : MgmtReq := (mgtRq 9 1 5 [1,2,3] 78)
   let asked (op : Nat) (m0 m1 : Word) (body : Nat → Bool) : Prop := s.pins.powered = true ∧ s.pins.released = true ∧
       s.mgmtMine r = true ∧ s.mgmt.seen.find? (fun e => e.1 == reqKey r) = none ∧ reqOk op r m0 m1 body = true
   let b := fld r.arg0 15 0; let o := r.arg1.toNat
   let x := (s.mgmt.blobs.find b).getD {}
   let i : Nat := 0
   s.inPhase .r = true ∧ s.mgmt.blobs.find b = some x ∧ asked 0x09 (maskOf 15 0) m64 dataBody ∧
   o + r.body.length ≤ x.size ∧ x.holds = 0 ∧ i < r.body.length) ∧
  (let s : State := mgtBb; let r : MgmtReq := (mgtRq 9 1 5 [1,2,3] 78)
   let asked (op : Nat) (m0 m1 : Word) (body : Nat → Bool) : Prop := s.pins.powered = true ∧ s.pins.released = true ∧
       s.mgmtMine r = true ∧ s.mgmt.seen.find? (fun e => e.1 == reqKey r) = none ∧ reqOk op r m0 m1 body = true
   let b := fld r.arg0 15 0; let o := r.arg1.toNat
   let x := (s.mgmt.blobs.find b).getD {}
   let i : Nat := 0
   s.inPhase .r = true ∧ s.mgmt.blobs.find b = some x ∧ asked 0x09 (maskOf 15 0) m64 dataBody ∧
   o + r.body.length ≤ x.size ∧ x.holds = 0 ∧ (i < o ∨ o + r.body.length ≤ i)) := by
  iterate 12 refine ⟨by decide +kernel, ?_⟩
  decide +kernel

theorem test_witness_LongOperations :
  (let s : State := mgtRun1; let r : MgmtReq := (mgtRq 0x11 1 0)
   let asked (op : Nat) (m0 m1 : Word) (body : Nat → Bool) : Prop := s.pins.powered = true ∧ s.pins.released = true ∧
       s.mgmtMine r = true ∧ s.mgmt.seen.find? (fun e => e.1 == reqKey r) = none ∧ reqOk op r m0 m1 body = true
   let p := fld r.arg0 2 0
   s.mgmt.recs.length < 256 ∧ s.inPhase .r = true ∧ asked 0x11 (maskOf 2 0) 0 noBody ∧ (s.part p).st = .running) ∧
  (let s : State := mgtRun1; let r : MgmtReq := (mgtRq 0x12 1 0)
   let asked (op : Nat) (m0 m1 : Word) (body : Nat → Bool) : Prop := s.pins.powered = true ∧ s.pins.released = true ∧
       s.mgmtMine r = true ∧ s.mgmt.seen.find? (fun e => e.1 == reqKey r) = none ∧ reqOk op r m0 m1 body = true
   let p := fld r.arg0 2 0
   s.mgmt.recs.length < 256 ∧ s.inPhase .r = true ∧ asked 0x12 (maskOf 2 0) 0 noBody ∧ (s.part p).st = .running) ∧
  (let s : State := mgtR4
   let r : MgmtReq := (mgtRq 0x14 (256+2) 0 [1,0,0,0,0,0,0,0,0,0,0,0,0,0,0,0])
   let asked (op : Nat) (m0 m1 : Word) (body : Nat → Bool) : Prop := s.pins.powered = true ∧ s.pins.released = true ∧
       s.mgmtMine r = true ∧ s.mgmt.seen.find? (fun e => e.1 == reqKey r) = none ∧ reqOk op r m0 m1 body = true
   let p := fld r.arg0 2 0
   let g := bodyWord r.body 0 + bodyWord r.body 1 % 2 ^ 32 * 2 ^ 64
   s.mgmt.recs.length < 256 ∧ s.inPhase .r = true ∧ (asked 0x14 (maskOf 8 8 ||| maskOf 2 0) 0 (fun n => n == 16)) ∧
   s.phase ≠ 6 ∧ bitOf r.arg0 8 = true ∧ (s.part p).st = .empty ∧ (s.part p).valid = false ∧
   (s.setTileRegs p g).groupsOk p g = true) ∧
  (let s : State := mgtR4; let r : MgmtReq := (mgtRq 0x18 0 3)
   let asked (op : Nat) (m0 m1 : Word) (body : Nat → Bool) : Prop := s.pins.powered = true ∧ s.pins.released = true ∧
       s.mgmtMine r = true ∧ s.mgmt.seen.find? (fun e => e.1 == reqKey r) = none ∧ reqOk op r m0 m1 body = true
   s.mgmt.recs.length < 256 ∧ s.inPhase .r = true ∧ asked 0x18 (maskOf 4 0) (maskOf 15 0) noBody ∧
   s.stackPresent (fld r.arg0 4 0) = true ∧ s.stackState (fld r.arg0 4 0) ≠ 3) ∧
  (let s : State := mgtR4; let r : MgmtReq := (mgtRq 0x19 5 0)
   let asked (op : Nat) (m0 m1 : Word) (body : Nat → Bool) : Prop := s.pins.powered = true ∧ s.pins.released = true ∧
       s.mgmtMine r = true ∧ s.mgmt.seen.find? (fun e => e.1 == reqKey r) = none ∧ reqOk op r m0 m1 body = true
   s.mgmt.recs.length < 256 ∧ s.inPhase .r = true ∧ asked 0x19 (maskOf 9 0) 0 noBody ∧
   s.tilePresent (fld r.arg0 9 0) = true) ∧
  (let s : State := mgtR4; let r : MgmtReq := (mgtRq 0x20 1 0 (List.replicate 32 3))
   let asked (op : Nat) (m0 m1 : Word) (body : Nat → Bool) : Prop := s.pins.powered = true ∧ s.pins.released = true ∧
       s.mgmtMine r = true ∧ s.mgmt.seen.find? (fun e => e.1 == reqKey r) = none ∧ reqOk op r m0 m1 body = true
   s.mgmt.recs.length < 256 ∧ s.inPhase .r = true ∧ (asked 0x20 (maskOf 7 0) 0 (fun n => n == 32)) ∧
   (fld r.arg0 7 0 < 8 ∨ fld r.arg0 7 0 = 0xFF)) ∧
  (let s : State := mgtR4; let r : MgmtReq := (mgtRq 0x29 1 0)
   let asked (op : Nat) (m0 m1 : Word) (body : Nat → Bool) : Prop := s.pins.powered = true ∧ s.pins.released = true ∧
       s.mgmtMine r = true ∧ s.mgmt.seen.find? (fun e => e.1 == reqKey r) = none ∧ reqOk op r m0 m1 body = true
   s.mgmt.recs.length < 256 ∧ s.inPhase .r = true ∧ asked 0x29 m64 0 noBody ∧ 1 ≤ r.arg0.toNat ∧ r.arg0.toNat ≤ 3) ∧
  (let s : State := mgtR4; let r : MgmtReq := (mgtRq 0x2A 0 0 (List.replicate 32 3))
   let asked (op : Nat) (m0 m1 : Word) (body : Nat → Bool) : Prop := s.pins.powered = true ∧ s.pins.released = true ∧
       s.mgmtMine r = true ∧ s.mgmt.seen.find? (fun e => e.1 == reqKey r) = none ∧ reqOk op r m0 m1 body = true
   s.mgmt.recs.length < 256 ∧ s.inPhase .r = true ∧ (asked 0x2A 0 0 (fun n => n == 32))) ∧
  (let s : State := mgtFwb; let r : MgmtReq := (mgtRq 0x28 1 1)
   let asked (op : Nat) (m0 m1 : Word) (body : Nat → Bool) : Prop := s.pins.powered = true ∧ s.pins.released = true ∧
       s.mgmtMine r = true ∧ s.mgmt.seen.find? (fun e => e.1 == reqKey r) = none ∧ reqOk op r m0 m1 body = true
   let b : Blob := (s.mgmt.blobs.find (fld r.arg1 15 0)).getD {}
   s.mgmt.recs.length < 256 ∧ s.inPhase .r = true ∧ asked 0x28 m64 (maskOf 15 0) noBody ∧ 1 ≤ r.arg0.toNat ∧
   r.arg0.toNat ≤ 3 ∧ s.mgmt.blobs.find (fld r.arg1 15 0) = some b ∧
   3348 + leAt ((s.blobData (fld r.arg1 15 0)).take 64) 8 4 ≤ b.size) ∧
  (let s : State := mgtJs3; let r : MgmtReq := (mgtRq 0x10 1 (1*2^16 + 2))
   let asked (op : Nat) (m0 m1 : Word) (body : Nat → Bool) : Prop := s.pins.powered = true ∧ s.pins.released = true ∧
       s.mgmtMine r = true ∧ s.mgmt.seen.find? (fun e => e.1 == reqKey r) = none ∧ reqOk op r m0 m1 body = true
   let p := fld r.arg0 2 0
   let a : Blob := (s.mgmt.blobs.find (fld r.arg1 31 16)).getD {}
   let b : Blob := (s.mgmt.blobs.find (fld r.arg1 15 0)).getD {}
   let e := s.openEnv (s.blobData (fld r.arg1 31 16)) (s.blobData (fld r.arg1 15 0))
   s.mgmt.blobs.find (fld r.arg1 31 16) = some a ∧ s.mgmt.blobs.find (fld r.arg1 15 0) = some b ∧
   s.envCheck p false e = none ∧ s.mgmt.recs.length < 256 ∧ s.inPhase .r = true ∧
   asked 0x10 (maskOf 32 32 ||| maskOf 2 0) (maskOf 31 0) noBody ∧ s.phase = 4 ∧ bitOf r.arg0 32 = false ∧
   2128 ≤ a.size ∧ (s.part p).st = .idle ∧ s.rotState = 1) ∧
  (let s : State := mgtV5; let r : MgmtReq := (mgtRq 0x31 1 50)
   let asked (op : Nat) (m0 m1 : Word) (body : Nat → Bool) : Prop := s.pins.powered = true ∧ s.pins.released = true ∧
       s.mgmtMine r = true ∧ s.mgmt.seen.find? (fun e => e.1 == reqKey r) = none ∧ reqOk op r m0 m1 body = true
   s.mgmt.recs.length < 256 ∧ s.phase = 5 ∧ 1 ≤ r.arg0.toNat ∧ r.arg0.toNat ≤ 3 ∧ asked 0x31 m64 m64 noBody) ∧
  (let s : State := { mgtV5 with emmc := { mgtV5.emmc with copies := [(3, [7,8,9])] } }
   let r : MgmtReq := (mgtRq 0x30 1 0 [1,2])
   let asked (op : Nat) (m0 m1 : Word) (body : Nat → Bool) : Prop := s.pins.powered = true ∧ s.pins.released = true ∧
       s.mgmtMine r = true ∧ s.mgmt.seen.find? (fun e => e.1 == reqKey r) = none ∧ reqOk op r m0 m1 body = true
   let i : Nat := (s.recoverCopy r.arg0.toNat).getD 0
   s.mgmt.recs.length < 256 ∧ s.phase = 5 ∧ 1 ≤ r.arg0.toNat ∧ r.arg0.toNat ≤ 3 ∧ asked 0x30 m64 m64 dataBody ∧
   s.recoverCopy r.arg0.toNat = some i ∧ s.emmc.readable = true) ∧
  (let s : State := mgtR4; let r : MgmtReq := (mgtRq 0x3E 0 0)
   let asked (op : Nat) (m0 m1 : Word) (body : Nat → Bool) : Prop := s.pins.powered = true ∧ s.pins.released = true ∧
       s.mgmtMine r = true ∧ s.mgmt.seen.find? (fun e => e.1 == reqKey r) = none ∧ reqOk op r m0 m1 body = true
   s.mgmt.recs.length < 256 ∧ asked 0x3E 0 0 noBody ∧ s.phase ≠ 0) ∧
  (let s : State := mgtR4; let r : MgmtReq := (mgtRq 0x18 0 3)
   let asked (op : Nat) (m0 m1 : Word) (body : Nat → Bool) : Prop := s.pins.powered = true ∧ s.pins.released = true ∧
       s.mgmtMine r = true ∧ s.mgmt.seen.find? (fun e => e.1 == reqKey r) = none ∧ reqOk op r m0 m1 body = true
   let c : Nat := 0
   s.mgmt.recs.length < 256 ∧ s.inPhase .r = true ∧ asked 0x18 (maskOf 4 0) (maskOf 15 0) noBody ∧
   s.stackPresent (fld r.arg0 4 0) = true ∧ s.stackState (fld r.arg0 4 0) ≠ 3 ∧ c < 16 ∧ bitOf r.arg1 c = true ∧
   s.chState (fld r.arg0 4 0) c ≠ 3) ∧
  (let s : State := { mgtV5 with emmc := { mgtV5.emmc with copies := [(3, [7,8,9])] } }
   let r : MgmtReq := (mgtRq 0x30 1 0 [1,2])
   let asked (op : Nat) (m0 m1 : Word) (body : Nat → Bool) : Prop := s.pins.powered = true ∧ s.pins.released = true ∧
       s.mgmtMine r = true ∧ s.mgmt.seen.find? (fun e => e.1 == reqKey r) = none ∧ reqOk op r m0 m1 body = true
   let i : Nat := (s.recoverCopy r.arg0.toNat).getD 0; let j : Nat := 0
   s.mgmt.recs.length < 256 ∧ s.phase = 5 ∧ 1 ≤ r.arg0.toNat ∧ r.arg0.toNat ≤ 3 ∧ asked 0x30 m64 m64 dataBody ∧
   s.recoverCopy r.arg0.toNat = some i ∧ s.emmc.readable = true ∧ j < r.body.length) ∧
  (let s : State := { mgtV5 with emmc := { mgtV5.emmc with copies := [(3, [7,8,9])] } }
   let r : MgmtReq := (mgtRq 0x30 1 0 [1,2])
   let asked (op : Nat) (m0 m1 : Word) (body : Nat → Bool) : Prop := s.pins.powered = true ∧ s.pins.released = true ∧
       s.mgmtMine r = true ∧ s.mgmt.seen.find? (fun e => e.1 == reqKey r) = none ∧ reqOk op r m0 m1 body = true
   let i : Nat := (s.recoverCopy r.arg0.toNat).getD 0; let was := s.fwCopy r.arg0.toNat i; let o := r.arg1.toNat
   let j : Nat := 2
   s.mgmt.recs.length < 256 ∧ s.phase = 5 ∧ 1 ≤ r.arg0.toNat ∧ r.arg0.toNat ≤ 3 ∧ asked 0x30 m64 m64 dataBody ∧
   s.recoverCopy r.arg0.toNat = some i ∧ s.emmc.readable = true ∧ j < was.length ∧ (j < o ∨ o + r.body.length ≤ j)) ∧
  (let s : State := mgtR4; let id : Nat := 1
   s.crec id = none) ∧
  (let s : State := (mgtRc true); let id : Nat := 1
   let x : CRec := (s.crec id).getD {}
   s.crec id = some x ∧ (x.done = true ∨ s.opWaits id x = true)) ∧
  (let s : State := (mgtLo 0x19 5); let id : Nat := 1
   let x : CRec := (s.crec id).getD {}
   s.crec id = some x ∧ x.done = false ∧ s.opWaits id x = false ∧ x.op ∈ [0x19, 0x20, 0x28, 0x29, 0x2A, 0x31]) ∧
  (let s : State := (((mgtLo 0x20 1).setRotState 1).setRf 8 rotOff 11 0 900)
   let id : Nat := 1
   let x : CRec := (s.crec id).getD {}
   s.crec id = some x ∧ x.done = false ∧ s.opWaits id x = false ∧ x.op ∈ [0x19, 0x20, 0x28, 0x29, 0x2A, 0x31] ∧
   x.op = 0x20 ∧ s.rotState = 1 ∧ 0 < s.rotLeft ∧ s.rot.signed ≠ 1024 ∧ s.mgmt.blobs.length < 64 ∧
   s.blobBytes + 10564 ≤ 2 ^ 35) ∧
  (let s : State := (mgtLo 0x2A 1); let id : Nat := 1
   let x : CRec := (s.crec id).getD {}
   s.crec id = some x ∧ x.done = false ∧ s.opWaits id x = false ∧ x.op ∈ [0x19, 0x20, 0x28, 0x29, 0x2A, 0x31] ∧
   x.op = 0x2A ∧ s.emmc.readable = true) ∧
  (let s : State := mgtLok; let id : Nat := 1; let rpmbOk : Bool := true
   let x : CRec := (s.crec id).getD {}
   s.crec id = some x ∧ x.done = false ∧ s.opWaits id x = false ∧ x.op ∈ [0x19, 0x20, 0x28, 0x29, 0x2A, 0x31] ∧
   x.op = 0x29 ∧ s.emmc.readable = true ∧ rpmbOk = true ∧ s.emmc.rpmbKey = s.derive labRpmb 32) ∧
  (let s : State := (mgtLo 0x28 1); let id : Nat := 1
   let x : CRec := (s.crec id).getD {}
   s.crec id = some x ∧ x.done = false ∧ s.opWaits id x = false ∧ x.op ∈ [0x19, 0x20, 0x28, 0x29, 0x2A, 0x31] ∧
   x.op = 0x28 ∧ s.emmc.readable = true) ∧
  (let s : State := (mgtLo 0x19 5); let id : Nat := 1
   let x : CRec := (s.crec id).getD {}
   s.crec id = some x ∧ x.done = false ∧ s.opWaits id x = false ∧ x.op ∈ [0x19, 0x20, 0x28, 0x29, 0x2A, 0x31] ∧
   x.op = 0x19 ∧ s.tilePresent x.target = true ∧ (s.posOf x.target).isSome = true) := by
  iterate 9 refine ⟨by decide +kernel, ?_⟩
  refine ⟨⟨rfl, rfl, envCheck_blob (s := mgtJq) (h := mgtHdr3) (body := mgtBody3) rfl (by decide +kernel) rfl (by decide +kernel) (by decide +kernel) (by decide +kernel), by decide +kernel⟩, ?_⟩
  iterate 13 refine ⟨by decide +kernel, ?_⟩
  decide +kernel

/-! Commands that are not well formed, one for each kind of check, and the last numbers that are. -/

theorem test_illformed_refused :
    ([.add 768 0 0 0, .arrayGate 0 4, .chWatchdogFire 0 16, .dmaTransferComplete 0 0x10000 [], .slCreditFlush 24, .slOpen 4096 0,
      .alGroupValidate 1024 0, .mirrorCopyArrival 0 0x10000, .exHandleValidate 128 0, .exchRecordArrival 128 0 true,
      .exchEndMark 0 1024 0 0, .exchDropNotice 0 768 0 0 0, .rxGrantRequest 0 256 0 0, .rxGrant 0 0 1024 0,
      .raccWriteArrival 0 0 0 0x10000 0, .gnormForm 0x10000 0, .ingCreditTimer 256, .ingAddressResolution 2 false 0,
      .data 0 { w0 := BitVec.ofNat 64 (2 * 2 ^ 48) }, .probe 0 {}, .dramRead 0 0x1000000000000 64 0, .scrubPass 24 [],
      .memOwnWrite 0 2048 0, .ceWindowRoll 0 16, .regTokenCredit 2 0 0 0, .ident 0 {} true, .retrainReq 0 {},
      .retrainGo 0 {}, .rerouteReq 0 {}, .rerouteState 0 {}, .linkReturn 0 {},
      .lkLaneFecLimit 0 9, .d2dTrainResult 12 0 {} {} {} {}, .crossingResyncDone 1048, .fwWinWrite 64 0 0,
      .fwGuestRequest .write 0 64 [], .partValidate 8 0, .fcClearRecord 256, .smbWriteNack {} 256 [], .smbDieJunction {} 12,
      .registerWrite 0 0x100000000 0] : List Instr).all (fun i => !i.wf) = true := by decide +kernel

theorem test_wellformed_at_the_bounds :
    ([.add 767 31 31 31, .slOpen 4095 0, .alGroupValidate 1023 0, .exHandleValidate 127 0, .scrubPass 23 [],
      .crossingResyncDone 1047, .partValidate 7 0, .fcClearRecord 255, .registerWrite 11 0xFFFFFFFF 0] : List Instr).all
      (fun i => i.wf) = true := by decide +kernel

/-! The command table gives no row bits. -/

theorem test_table_word_spells_nothing : decodeTableWord 32 0x405 = none ∧ State.reset.withFetchWord 32 0x405 = State.reset := by
  decide +kernel

/-! Single steps and operations against values worked out by hand from the spec. -/

/-- Tile 0 with registers `g`. -/
def regsState (g : Tab Word) : State := world 1 { ctx := ctx0 g }

/-- ADD wraps modulo 2^64: (2^64 - 7) + 5 = 2^64 - 2, and 2^63 + 2^63 = 0. -/
theorem test_add_wraps :
    (nx (exec (.add 0 4 1 2) (regsState [(1, 5), (2, 0xFFFFFFFFFFFFFFF9)]))).g 0 4 = 0xFFFFFFFFFFFFFFFE ∧
    (nx (exec (.add 0 1 1 1) (regsState [(1, 0x8000000000000000)]))).g 0 1 = 0 := by decide +kernel

/-- g0 discards what is written to it. -/
theorem test_g0_discards : (nx (exec (.addi 0 0 1 7) (regsState [(1, 5)]))).g 0 0 = 0 := by decide +kernel

/-- DIV rounds toward zero: -7 / 2 = -3, and -7 rem 2 = -1. -/
theorem test_div_and_rem_of_a_negative :
    (nx (exec (.div 0 4 1 2) (regsState [(1, 0xFFFFFFFFFFFFFFF9), (2, 2)]))).g 0 4 = 0xFFFFFFFFFFFFFFFD ∧
    (nx (exec (.rem 0 4 1 2) (regsState [(1, 0xFFFFFFFFFFFFFFF9), (2, 2)]))).g 0 4 = 0xFFFFFFFFFFFFFFFF := by decide +kernel

/-- MULH of -1 by -1 is 0, MULHU of the same words is 2^64 - 2. -/
theorem test_mulh_signs :
    (nx (exec (.mulh 0 4 1 1) (regsState [(1, 0xFFFFFFFFFFFFFFFF)]))).g 0 4 = 0 ∧
    (nx (exec (.mulhu 0 4 1 1) (regsState [(1, 0xFFFFFFFFFFFFFFFF)]))).g 0 4 = 0xFFFFFFFFFFFFFFFE := by decide +kernel

/-- LI then SHORI: 0xFFFF sign-extended, then shifted left by 16 with 0x1234 below. -/
theorem test_li_shori :
    (nx (exec (.shori 0 4 4 0x1234) (nx (exec (.li 0 4 0xFFFF) (regsState []))))).g 0 4 = 0xFFFFFFFFFFFF1234 := by decide +kernel

/-- A taken branch goes to pc + 4 x OFF, with OFF negative, and JAL leaves pc + 4 in g31. -/
theorem test_branch_and_link :
    ((nx (exec (.beq 0 1 1 0xFFFC) (regsState []))).tile 0).ctx.pc = 0x0FF0 ∧
    (nx (exec (.jal 0 2) (regsState []))).g 0 31 = 0x1004 := by decide +kernel

/-- LD.B extends the sign, LD.HU does not, and the lowest address holds the least significant byte. -/
theorem test_loads_extend :
    (nx (exec (.ldB 0 4 1 7) coreWm)).g 0 4 = 0xFFFFFFFFFFFFFF87 ∧
    (nx (exec (.ldHu 0 4 1 6) coreWm)).g 0 4 = 0x8786 := by decide +kernel

/-- ST.W stores the low four bytes, least significant first. -/
theorem test_store_order :
    (List.range 5).map (fun i => Mem.read (nx (exec (.stW 0 2 1 8) coreWm)).mem (0x200000000048 + i)) =
      [0x88, 0x77, 0x66, 0x55, 0] := by decide +kernel

/-- The stream of the worked example of chapter 05, MOD32 0x84C4_0800: gang 2, array set 1, slot 3, E5M2, rows 0 to 63. -/
theorem test_stream_word_of_the_example :
    wordFld 0x84C40800 31 30 = 2 ∧ wordFld 0x84C40800 29 26 = 1 ∧ wordFld 0x84C40800 25 22 = 3 ∧
    fmtOfCode (wordFld 0x84C40800 21 18) = some .e5m2 ∧ wordFld 0x84C40800 17 12 = 0 ∧ wordFld 0x84C40800 11 5 = 64 ∧
    mmaIllegal 1 6 5 0 0x84C40800 = false := by decide +kernel

/-- The long sum of chapter 03: with the sum at 2^10 an addition of 1 - 2^-14 loses 2^-14, so 1025 - 2^-13 stands. -/
theorem test_long_sum_loses_low_bits :
    Acc.addF { m := 2 ^ 23, e := -13 } (.fin false (2 ^ 14 - 1) (-14)) = { m := 1025 * 2 ^ 13 - 1, e := -13 } := by decide +kernel

/-- The address of the worked example of chapter 13: channel 11 of 16, and channel 12 once channel 3 is out. -/
theorem test_channel_of_the_example :
    (State.reset.setRg 1 (memOff 4) (BitVec.ofNat 64 (0xFFFF))).chanOf 0x4512345880 = 11 ∧
    (State.reset.setRg 1 (memOff 4) (BitVec.ofNat 64 (0xFFF7))).chanOf 0x4512345880 = 12 := by decide +kernel

/-- The JPEG of chapter 12: 65,535 x 65,535 fails on its pixels with 3,072 bytes, and 2,048 x 1,024 in three channels passes. -/
theorem test_jpeg_of_the_example :
    State.reset.headerFails { stream := 1, total := 3072 } { d0 := 65535, d1 := 65535, channels := 3 } = some 4 ∧
    State.reset.headerFails { stream := 1, total := 3072 } { d0 := 2048, d1 := 1024, channels := 3 } = none := by decide +kernel

/-- BF16 1 + 2^-7 times 1 - 2^-7 is 1 - 2^-14. -/
theorem test_bf16_product :
    Val.eqv (Val.mul (decode .bf16 0 0x3F81) (decode .bf16 0 0x3F7E)) (.fin false (2 ^ 14 - 1) (-14)) = true := by decide +kernel

/-- TRAP with a handler: the cause, the saved pc and the handler's address. -/
theorem test_trap_enters :
    ((nx (exec (.trap 0 2) coreWl)).tile 0).ctx.pc = 0x2000 ∧ ((nx (exec (.trap 0 2) coreWl)).tile 0).ctx.cs 0x11 = 0x1000 := by
  decide +kernel

/-- FIPS 180-4: SHA-256 of the three bytes abc. -/
theorem test_sha256 :
    beNat (sha256 [0x61, 0x62, 0x63]) = 0xBA7816BF8F01CFEA414140DE5DAE2223B00361A396177A9CB410FF61F20015AD := by decide +kernel

/-- FIPS 197, appendix C.3: a block under AES-256. -/
theorem test_aes256 :
    beNat (aesWith (aesKeys ((List.range 32).map fun i => BitVec.ofNat 8 i)) ((List.range 16).map fun i => BitVec.ofNat 8 (17 * i))) =
      0x8EA2B7CA516745BFEAFC49904B496089 := by decide +kernel

/-- The management port asks UDP to port 23,841: TCP and another port are not its own (R408). -/
theorem test_management_port_is_udp :
    State.reset.mgmtMine { v6 := true, dst := State.reset.linkLocal, dstPort := 0x5D21 } = true ∧
    State.reset.mgmtMine { v6 := true, dst := State.reset.linkLocal, dstPort := 0x5D21, tcp := true } = false ∧
    State.reset.mgmtMine { v6 := true, dst := State.reset.linkLocal, dstPort := 0x5D20 } = false := by decide +kernel

end Sys2Proof.Tests
end

section
/-! Proof that a governor never sets a supply outside its bounds (R23, R28): fields of words, the registers and
governors that an update of one leaves as they were, and the supply along a pass. -/
namespace Sys2Proof

/-- What a table reads after one of its entries was set. -/
theorem Tab.val_put {α : Type} (t : Tab α) (d : α) (k j : Nat) (v : α) :
    (t.put k v).val d j = if j = k then v else t.val d j := by
  split
  case isTrue h => rw [h, Tab.val_put_same]
  case isFalse h => exact Tab.val_put_other _ _ _ _ _ h

end Sys2Proof

namespace Sys2Proof.Machine

/-! A field of a word reads back what was written to it, and keeps its value when a field beside it is written. -/

/-- A word as what stands above field [hi:lo], the field, and what stands below it. -/
theorem toNat_eq_fld (w : Word) (hi lo : Nat) : w.toNat =
    2 ^ lo * (2 ^ (hi - lo + 1) * (w.toNat / 2 ^ lo / 2 ^ (hi - lo + 1)) + fld w hi lo) + w.toNat % 2 ^ lo := by
  rw [fld, Nat.div_add_mod, Nat.div_add_mod]

/-- Setting a field replaces it between what stands above and below. -/
theorem toNat_setFld (w : Word) (hi lo v : Nat) : (setFld w hi lo v).toNat =
    (2 ^ lo * (2 ^ (hi - lo + 1) * (w.toNat / 2 ^ lo / 2 ^ (hi - lo + 1)) + v % 2 ^ (hi - lo + 1)) + w.toNat % 2 ^ lo)
      % 2 ^ 64 := by
  have hw := toNat_eq_fld w hi lo
  rw [Nat.mul_add] at hw ⊢
  rw [setFld, BitVec.toNat_ofNat, Nat.mul_comm (fld w hi lo), Nat.mul_comm (v % _)]
  congr 1
  omega

/-- Bit `i` of a word after field [hi:lo] was set. -/
theorem testBit_setFld {hi lo : Nat} (w : Word) (v i : Nat) (hle : lo ≤ hi) (hlt : hi < 64) :
    (setFld w hi lo v).toNat.testBit i = if lo ≤ i ∧ i ≤ hi then v.testBit (i - lo) else w.toNat.testBit i := by
  have hlow : w.toNat % 2 ^ lo < 2 ^ lo := Nat.mod_lt _ (Nat.two_pow_pos _)
  have hv : v % 2 ^ (hi - lo + 1) < 2 ^ (hi - lo + 1) := Nat.mod_lt _ (Nat.two_pow_pos _)
  rw [toNat_setFld, Nat.testBit_mod_two_pow, Nat.testBit_two_pow_mul_add _ hlow, Nat.testBit_two_pow_mul_add _ hv]
  simp only [Nat.testBit_mod_two_pow, Nat.testBit_div_two_pow]
  by_cases hbelow : i < lo
  · rw [if_pos hbelow, if_neg (by omega)]
    simp [hbelow, show i < 64 by omega]
  by_cases hin : i ≤ hi
  · rw [if_neg hbelow, if_pos (by omega), if_pos ⟨by omega, hin⟩]
    simp [show i < 64 by omega, show i - lo < hi - lo + 1 by omega]
  · rw [if_neg hbelow, if_neg (by omega), if_neg (by omega),
      show i - lo - (hi - lo + 1) + (hi - lo + 1) + lo = i by omega]
    by_cases h64 : i < 64
    · simp [h64]
    · have hout : w.toNat.testBit i = false := BitVec.testBit_toNat w ▸ BitVec.getLsbD_of_ge w i (by omega)
      simp [hout]

/-- Bit `j` of field [hi:lo] of a word. -/
theorem testBit_fld (w : Word) (hi lo j : Nat) :
    (fld w hi lo).testBit j = (decide (j < hi - lo + 1) && w.toNat.testBit (lo + j)) := by
  rw [fld, Nat.testBit_mod_two_pow, Nat.testBit_div_two_pow, Nat.add_comm j]

/-- A field reads back the low bits of what was written to it. -/
theorem fld_setFld_same {hi lo : Nat} (w : Word) (v : Nat) (hle : lo ≤ hi) (hlt : hi < 64) :
    fld (setFld w hi lo v) hi lo = v % 2 ^ (hi - lo + 1) := by
  refine Nat.eq_of_testBit_eq fun j => ?_
  rw [testBit_fld, testBit_setFld w v _ hle hlt, Nat.testBit_mod_two_pow]
  by_cases hj : j < hi - lo + 1
  · rw [if_pos (by omega), Nat.add_sub_cancel_left]
  · simp [hj]

/-- A field keeps its value when a field beside it is written. -/
theorem fld_setFld_beside {hi lo hi' lo' : Nat} (w : Word) (v : Nat) (hle : lo ≤ hi) (hlt : hi < 64)
    (hle' : lo' ≤ hi') (h : hi' < lo ∨ hi < lo') : fld (setFld w hi lo v) hi' lo' = fld w hi' lo' := by
  refine Nat.eq_of_testBit_eq fun j => ?_
  rw [testBit_fld, testBit_fld, testBit_setFld w v _ hle hlt]
  by_cases hj : j < hi' - lo' + 1
  · rw [if_neg (by omega)]
  · simp [hj]

/-! The same of the fields of a die's registers. -/

theorem State.rf_setRf_same {hi lo : Nat} (s : State) (d o v : Nat) (hle : lo ≤ hi) (hlt : hi < 64) :
    (s.setRf d o hi lo v).rf d o hi lo = v % 2 ^ (hi - lo + 1) := by
  rw [State.rf, State.setRf, State.rg_setRg_same, fld_setFld_same _ _ hle hlt]

theorem State.rf_setRf_beside {hi lo hi' lo' : Nat} (s : State) (d o v : Nat) (hle : lo ≤ hi) (hlt : hi < 64)
    (hle' : lo' ≤ hi') (h : hi' < lo ∨ hi < lo') : (s.setRf d o hi lo v).rf d o hi' lo' = s.rf d o hi' lo' := by
  rw [State.rf, State.setRf, State.rg_setRg_same, fld_setFld_beside _ _ hle hlt hle' h, ← State.rf]

theorem State.rf_setRg_otherOff (s : State) (d o p hi lo : Nat) (w : Word) (h : p ≠ o) :
    (s.setRg d o w).rf d p hi lo = s.rf d p hi lo := by
  rw [State.rf, State.rg_setRg_other _ _ _ _ _ _ (by simp only [ctlAddr]; omega), ← State.rf]

/-! The governors after one was replaced, or a supply applied. -/

theorem State.gov_putGov (s : State) (d e : Nat) (g : Gov) :
    ({ s with govs := s.govs.put d g } : State).gov e = if e = d then g else s.gov e := Tab.val_put ..

theorem State.gov_setSupply (s : State) (d e half : Nat) :
    (s.setSupply d half).gov e = if e = d then { s.gov d with half := half } else s.gov e := Tab.val_put ..

/-- VCORE shows an applied supply in whole millivolts, cut to its ten bits. -/
theorem State.vcore_setSupply (s : State) (d half : Nat) :
    (s.setSupply d half).rf d 0x2008 25 16 = half / 2 % 1024 :=
  State.rf_setRf_same s d (paceOff + 8) (half / 2) (by omega) (by omega)

/-- A held supply lies within the bounds (R23). -/
theorem heldSupply_bounds (half : Nat) : 1200 ≤ heldSupply half ∧ heldSupply half ≤ 1700 := by
  unfold heldSupply
  omega

/-! What an update does to the supplies: no operation of a pass moves one outside its bounds. -/

/-- From `s` to `t` every supply that changes, and die `d`'s VCORE where it changes, come to lie within the bounds
of R23. -/
def State.SuppliesWithin (d : Nat) (s t : State) : Prop :=
  (∀ e : Nat, (t.gov e).half ≠ (s.gov e).half → 1200 ≤ (t.gov e).half ∧ (t.gov e).half ≤ 1700) ∧
  (t.rf d 0x2008 25 16 ≠ s.rf d 0x2008 25 16 → 600 ≤ t.rf d 0x2008 25 16 ∧ t.rf d 0x2008 25 16 ≤ 850)

namespace State.SuppliesWithin

/-- What changes no supply keeps the bounds. -/
theorem of_eq {d : Nat} {s t : State} (hhalf : ∀ e, (t.gov e).half = (s.gov e).half)
    (hcore : t.rf d 0x2008 25 16 = s.rf d 0x2008 25 16) : SuppliesWithin d s t :=
  ⟨fun e h => absurd (hhalf e) h, fun h => absurd hcore h⟩

theorem refl (d : Nat) (s : State) : SuppliesWithin d s s := of_eq (fun _ => rfl) rfl

/-- A value that differs at the end either last changed in the second part, or in the first and stayed. -/
theorem trans {d : Nat} {s t u : State} (hst : SuppliesWithin d s t) (htu : SuppliesWithin d t u) :
    SuppliesWithin d s u := by
  obtain ⟨hhalf, hcore⟩ := hst
  obtain ⟨hhalf', hcore'⟩ := htu
  constructor
  · intro e h
    by_cases he : (u.gov e).half = (t.gov e).half
    · rw [he] at h ⊢; exact hhalf e h
    · exact hhalf' e he
  · intro h
    by_cases he : u.rf d 0x2008 25 16 = t.rf d 0x2008 25 16
    · rw [he] at h ⊢; exact hcore h
    · exact hcore' he

/-- Writing a register of the die other than PACE_STATUS changes no supply. -/
theorem setRg (d o : Nat) (s : State) (w : Word) (h : 0x2008 ≠ o) : SuppliesWithin d s (s.setRg d o w) :=
  of_eq (fun _ => rfl) (State.rf_setRg_otherOff _ _ _ _ _ _ _ h)

/-- Writing a field of PACE_STATUS beside VCORE changes no supply. -/
theorem setStatus {hi lo : Nat} (d v : Nat) (s : State) (hle : lo ≤ hi) (hlt : hi < 64) (h : 25 < lo ∨ hi < 16) :
    SuppliesWithin d s (s.setRf d (paceOff + 8) hi lo v) :=
  of_eq (fun _ => rfl) (State.rf_setRf_beside _ _ _ _ hle hlt (by omega) h)

/-- Replacing a die's governor by one with the same supply changes no supply. -/
theorem putGov (d : Nat) (s : State) (g : Gov) (h : g.half = (s.gov d).half) :
    SuppliesWithin d s { s with govs := s.govs.put d g } := by
  refine of_eq (fun e => ?_) rfl
  rw [State.gov_putGov]
  split
  case isTrue he => rw [h, he]
  case isFalse => rfl

/-- Applying a supply within the bounds keeps them: VCORE's ten bits hold every such supply. -/
theorem setSupply (d half : Nat) (s : State) (hlo : 1200 ≤ half) (hhi : half ≤ 1700) :
    SuppliesWithin d s (s.setSupply d half) := by
  constructor
  · intro e h
    rw [State.gov_setSupply] at h ⊢
    by_cases he : e = d
    · rw [if_pos he]
      exact ⟨hlo, hhi⟩
    · rw [if_neg he] at h
      exact absurd rfl h
  · intro _
    rw [State.vcore_setSupply]
    omega

/-- Raising a report changes no supply. -/
theorem reportX (d src inst : Nat) (part : Option Nat) (s : State) : SuppliesWithin d s (s.reportX src inst part) :=
  of_eq (fun _ => rfl) rfl

theorem acceptTj (d : Nat) (tjs : List Nat) (s : State) : SuppliesWithin d s (s.acceptTj d tjs) := by
  unfold State.acceptTj
  split
  · exact setStatus d _ s (by omega) (by omega) (.inr (by omega))
  · exact refl d s

/-- The applied supply is held within the bounds, whatever the levels ask for; the rest of a step of the supply writes
what PACE_STATUS shows beside VCORE, and PACE_EVENTS. -/
theorem paceStep (d measured : Nat) (s : State) : SuppliesWithin d s (s.paceStep d measured) := by
  unfold State.paceStep
  extract_lets g o target goalT goalJ goalC low goal half ceil floor below thermal cap s₁ s₂ ev
  have hhalf : 1200 ≤ half ∧ half ≤ 1700 := heldSupply_bounds _
  have hsupply : SuppliesWithin d s s₁ := setSupply d half s hhalf.1 hhalf.2
  have hmeasured : SuppliesWithin d s₁ (s₁.setRf d o 47 32 measured) :=
    setStatus d _ _ (by omega) (by omega) (.inl (by omega))
  have hstatus : SuppliesWithin d _ s₂ := setStatus d _ _ (by omega) (by omega) (.inr (by omega))
  exact ((hsupply.trans hmeasured).trans hstatus).trans (setRg d _ _ _ (by decide))

end State.SuppliesWithin

/-! The two commands. -/

section
open State (SuppliesWithin)

/-- A pass completes and keeps the bounds. -/
theorem execPaceLoopPass_suppliesWithin (d : Nat) (gray : BitVec 16) (tjs : List Nat) (w : Nat) (s : State) :
    ∃ t', execPaceLoopPass d gray tjs w s = .next t' ∧ SuppliesWithin d s t' := by
  unfold execPaceLoopPass
  split
  case isTrue => exact ⟨s, rfl, SuppliesWithin.refl d s⟩
  case isFalse =>
    extract_lets s₁ measured s₂
    have hsample : SuppliesWithin d s s₂ :=
      (SuppliesWithin.acceptTj d tjs s).trans (SuppliesWithin.putGov d s₁ _ rfl)
    split
    case isTrue => exact ⟨s₂, rfl, hsample⟩
    case isFalse =>
      have hpower := hsample.trans (SuppliesWithin.putGov d s₂ { s₂.gov d with power := w } rfl)
      exact ⟨_, rfl, hpower.trans (SuppliesWithin.paceStep d measured _)⟩

/-- REPLICA_FAIL completes and keeps the bounds: it holds the die at 0.70 V (R28). -/
theorem execReplicaFail_suppliesWithin (d : Nat) (s : State) :
    ∃ t', execReplicaFail d s = .next t' ∧ SuppliesWithin d s t' := by
  unfold execReplicaFail
  split
  case isTrue => exact ⟨s, rfl, SuppliesWithin.refl d s⟩
  case isFalse =>
    have hsupply : SuppliesWithin d s (s.setSupply d 1400) := SuppliesWithin.setSupply d 1400 s (by decide) (by decide)
    have hmark : SuppliesWithin d _ ((s.setSupply d 1400).setRb d (paceOff + 0x18) 3 true) :=
      SuppliesWithin.setRg d _ (s.setSupply d 1400) _ (by decide)
    exact ⟨_, rfl, (hsupply.trans hmark).trans (SuppliesWithin.reportX d 0x10 d none _)⟩

end

/-- Settles O50: the supply is written at two places alone, once held within the bounds and once at 0.70 V, and every
other write of the two commands lies beside it. -/
theorem supplyStaysInBounds : Obligations.SupplyStaysInBounds := by
  unfold Obligations.SupplyStaysInBounds
  exact fun s d gray tjs w =>
    ⟨execPaceLoopPass_suppliesWithin d gray tjs w s, execReplicaFail_suppliesWithin d s⟩

end Sys2Proof.Machine
end

section
/-! Proof that a block scale of 0xFF makes every element NaN (R43). -/
namespace Sys2Proof

/-- The block formats are the three that R44 to R46 define. -/
theorem Fmt.isBlock_iff_mem (f : Fmt) : f.isBlock = true ↔ f ∈ [Fmt.mxfp4, .mxint8, .sq8] := by
  cases f <;> decide

end Sys2Proof

namespace Sys2Proof.Machine

/-- Each block format tests the scale before it looks at the element's own bits (R43). -/
theorem decode_nan_of_isBlock {f : Fmt} (hf : f.isBlock = true) (c : Nat) : decode f 0xFF c = .nan := by
  cases f with
  | mxfp4 | mxint8 | sq8 => rw [decode, if_pos (beq_self_eq_true _)]
  | _ => exact absurd hf (by decide)

/-- Settles O51: the formats named are the block formats, and each of these answers NaN at scale code 0xFF. -/
theorem blockScaleNan : Obligations.BlockScaleNan := by
  unfold Obligations.BlockScaleNan
  exact fun f c hf => decode_nan_of_isBlock (f.isBlock_iff_mem.mpr hf) c

end Sys2Proof.Machine
end

section
/-! Proof that a division never traps (R100): what each of the four instructions answers, then its corner cases. -/
namespace Sys2Proof.Machine

/-- An ALU instruction that may run completes with its operation's value in gd, whatever the operation. -/
theorem aluOp_of_ready {i : Instr} {t : Nat} {gd ga gb : Reg} {op : Word → Word → Word} {s : State}
    (h : s.ready t 4 = true) : aluOp i t gd ga gb op s = .next (s.result t 4 gd (op (s.g t ga) (s.g t gb))) :=
  State.run_doneG h rfl

section
variable {s : State} {t : Nat} (gd ga gb : Reg) (h : s.ready t 4 = true)
include h

theorem exec_div_of_ready : exec (.div t gd ga gb) s = .next (s.result t 4 gd (divS (s.g t ga) (s.g t gb))) :=
  aluOp_of_ready h

theorem exec_divu_of_ready : exec (.divu t gd ga gb) s = .next (s.result t 4 gd (divU (s.g t ga) (s.g t gb))) :=
  aluOp_of_ready h

theorem exec_rem_of_ready : exec (.rem t gd ga gb) s = .next (s.result t 4 gd (remS (s.g t ga) (s.g t gb))) :=
  aluOp_of_ready h

theorem exec_remu_of_ready : exec (.remu t gd ga gb) s = .next (s.result t 4 gd (remU (s.g t ga) (s.g t gb))) :=
  aluOp_of_ready h

end

/-! The corner cases of the four operations. -/

@[simp] theorem divS_zero (a : Word) : divS a 0 = BitVec.allOnes 64 := if_pos rfl
@[simp] theorem divU_zero (a : Word) : divU a 0 = BitVec.allOnes 64 := if_pos rfl
@[simp] theorem remS_zero (a : Word) : remS a 0 = a := if_pos rfl
@[simp] theorem remU_zero (a : Word) : remU a 0 = a := if_pos rfl

/-- The quotient 2^63 has no word of its own and wraps to the dividend. -/
theorem divS_intMin_negOne : divS 0x8000000000000000 0xFFFFFFFFFFFFFFFF = 0x8000000000000000 := by decide

theorem remS_intMin_negOne : remS 0x8000000000000000 0xFFFFFFFFFFFFFFFF = 0 := by decide

/-- Settles O52: each of the four is an ALU instruction, which completes with its operation's value on every pair of
operands, and the operations have the values of R100 at their corner cases. -/
theorem divisionNeverTraps : Obligations.DivisionNeverTraps := by
  unfold Obligations.DivisionNeverTraps
  intro s t gd ga gb h a b
  have hdiv : exec (.div t gd ga gb) s = .next (s.result t 4 gd (divS a b)) := exec_div_of_ready gd ga gb h
  have hdivu : exec (.divu t gd ga gb) s = .next (s.result t 4 gd (divU a b)) := exec_divu_of_ready gd ga gb h
  have hrem : exec (.rem t gd ga gb) s = .next (s.result t 4 gd (remS a b)) := exec_rem_of_ready gd ga gb h
  have hremu : exec (.remu t gd ga gb) s = .next (s.result t 4 gd (remU a b)) := exec_remu_of_ready gd ga gb h
  refine ⟨⟨⟨_, hdiv⟩, ⟨_, hdivu⟩, ⟨_, hrem⟩, ⟨_, hremu⟩⟩, fun hb => ?byZero, fun ha hb => ?overflow⟩
  case byZero =>
    rw [hb, divS_zero] at hdiv
    rw [hb, divU_zero] at hdivu
    rw [hb, remS_zero] at hrem
    rw [hb, remU_zero] at hremu
    exact ⟨hdiv, hdivu, hrem, hremu⟩
  case overflow =>
    rw [ha, hb, divS_intMin_negOne, ← ha] at hdiv
    rw [ha, hb, remS_intMin_negOne] at hrem
    exact ⟨hdiv, hrem⟩

end Sys2Proof.Machine
end
